-- ==== Sys2Proof/Word.lean ====
section
/-! DEFINITION. The word types of the block's lines: bytes, and the two- and four-byte fields made of them. -/

namespace Sys2Proof

/-- One byte of a serial line (chapter 12: sizes are in bytes). -/
abbrev Byte := BitVec 8

/-- A field of two bytes. -/
abbrev Half := BitVec 16

/-- A field of four bytes. -/
abbrev Word := BitVec 32

end Sys2Proof
end

