-- ==== Sys2Proof/Config.lean ====
section
/-! DEFINITION. What the manual fixes as numbers of the part, and the values it leaves open, as constants
without a body: nothing can be proved of their values. -/

namespace Sys2Proof.Config

/-- Which of the orders the manual allows is taken, at the n-th choice of the run (R18, R58, R83, R103, R154,
R174, R177: "in either order", "no order among them"). Log entry 3. -/
opaque freeOrder : Nat → Nat

/-- Byte `i` of a reply field of `n` bytes whose value `v` does not fit the field: the manual gives the field
a width and the item a wider range, and says nothing of the rest. Log entry 4. -/
opaque wideByte : (n : Nat) → (v : Int) → (i : Nat) → BitVec 8

/-- The account number on the bill of a substation that is not configured at the issue (R148 issues it, and
R135 ii leaves the substation without an account), at the n-th such issue. Log entry 5. -/
opaque unconfiguredAccount : Nat → BitVec 32

/-- The boiler byte of a dispatch result record that sent no request (12.4 gives it no value). Log entry 38. -/
opaque noRequestBoiler : BitVec 8

/-- The last clock reading: 2135-12-31 23:59:59 (section 11.1). -/
def lastReading : Nat := 4291747199

/-- Meter readings wrap at this many kWh (section 6 (3) of chapter 0). -/
def meterModulus : Nat := 100000000

/-- The vendor code, part code, revision and largest payload that Identify returns (R170). -/
def vendorCode : Nat := 0x46
def partCode : Nat := 0x0640
def revision : Nat := 3
def largestPayload : Nat := 512

/-- The confirm limit of a changeover, in seconds (R40, R71). -/
def confirmLimit : Nat := 10

/-- The waiting timer of a point (R16), the settlement meter wait (R116) and the start-up watch (R134), in seconds. -/
def startWait : Nat := 60

end Sys2Proof.Config
end

