-- ==== Sys2Proof/Syntax.lean ====
section
/-! DEFINITION. The commands of the block: one constructor of `Instr` for each row of spec/opcode_table.json,
with the operands the row's rule gives it. Requests of the host carry the fields of their payload at the
widths of chapter 12 (12.2); events name the instance they happen to. -/

namespace Sys2Proof

/-- Boiler b of the manual (1 to 8) is the index b - 1. -/
abbrev Boiler := Fin 8
/-- Field channel c of the manual (1 to 96) is the index c - 1. -/
abbrev ChannelNo := Fin 96
/-- Measurement point slot p of the manual (1 to 128) is the index p - 1. -/
abbrev PointNo := Fin 128
/-- Substation k of the manual (1 to 48) is the index k - 1. -/
abbrev Substation := Fin 48
/-- Gas source s of the manual (1 to 6) is the index s - 1. -/
abbrev GasSource := Fin 6
/-- Curtailment slot n of the manual (1 to 8) is the index n - 1. -/
abbrev CurtailmentSlot := Fin 8
/-- Field line FIELD n of the manual (1 to 4) is the index n - 1. -/
abbrev FieldLineNo := Fin 4

/-- The two limit detectors of the holder (section 2.4). -/
inductive Detector where
  | highHigh
  | lowLow
deriving DecidableEq, Repr

/-- The three retained regions (section 11.3). -/
inductive Region where
  | config
  | accounts
  | queues
deriving DecidableEq, Repr

/-- The two copies in which a region is kept (R176). -/
inductive CopyName where
  | first
  | second
deriving DecidableEq, Repr

/-- What a restart finds in the battery domain (R172, R176, R177): whether the clock was lost, and the copies
of retained regions whose check word does not match, besides those a power failure spoilt. -/
structure StoreFinding where
  batteryLost : Bool
  unsound : List (Region × CopyName)
deriving DecidableEq, Repr

/-- A date as Set Holidays carries it: year 2 bytes, month and day 1 byte each (12.2). -/
structure RawDate where
  year : Half
  month : Byte
  day : Byte
deriving DecidableEq, Repr

/-- The fields of Configure Point after the slot (12.2). -/
structure RawPoint where
  role : Byte
  instanceNo : Byte
  primary : Byte
  alternateA : Byte
  alternateB : Byte
  multiplier : Half
  divisor : Half
  low : Word
  high : Word
  hold : Half
deriving DecidableEq, Repr

/-- The fields of Configure Holder (12.2, R29). -/
structure RawHolder where
  capacity : Word
  bandLow : Word
  bandHigh : Word
  recovery : Half
  normalLow : Word
  normalHigh : Word
  reducedLow : Word
  reducedHigh : Word
  hysteresis : Half
  filter : Byte
  drawFallback : Word
  cvDefault : Half
deriving DecidableEq, Repr

/-- The fields of Set Plant Parameters (12.2, R38). -/
structure RawPlant where
  period : Byte
  idleLimit : Byte
  conversion : Half
  turbineMax : Word
  ownUse : Word
  exchanger : Word
  loss : Word
  stageSize : Word
deriving DecidableEq, Repr

/-- The fields of Configure Boiler (12.2, R40). -/
structure RawBoiler where
  boiler : Byte
  minimum : Word
  maximum : Word
  ramp : Word
  yield : Half
  auxFitted : Byte
  purge : Half
  lightOff : Byte
  interval : Byte
  reference : Byte
  window : Word
  tripLimit : Byte
  restart : Byte
deriving DecidableEq, Repr

/-- One tariff group as Stage Tariff carries it (12.2): two schedules of 24 bytes, two price lists of four
fields, and the standing charge. -/
structure RawGroup where
  workday : List Byte
  rest : List Byte
  recovered : List Word
  auxiliary : List Word
  standing : Word
deriving DecidableEq, Repr

/-- The fields of Stage Tariff (12.2, R136). -/
structure RawTariff where
  group1 : RawGroup
  group2 : RawGroup
  group3 : RawGroup
  group4 : RawGroup
  closeDay : Byte
  closeHour : Byte
deriving DecidableEq, Repr

/-- The commands: every row of spec/opcode_table.json. -/
inductive Instr where
  /-- Power returns (R177). -/
  | powerOn (found : StoreFinding)
  /-- The RESET input is asserted (R177). -/
  | resetAsserted
  /-- The RESET input is released (R177). -/
  | resetReleased (found : StoreFinding)
  /-- The second after reading 4,291,747,199 (R172). -/
  | clockWrap
  /-- A field line completes a sample frame (R1, R2): the bytes after the marker. -/
  | fieldSampleFrame (line : FieldLineNo) (channel kind : Byte) (body : List Byte) (check : Byte)
  /-- More than 25 ms pass between two bytes of a field frame (R1). -/
  | fieldFrameGapExpiry (line : FieldLineNo)
  | silenceExpiry (channel : ChannelNo)
  | holdExpiry (point : PointNo)
  | waitingTimerExpiry (point : PointNo)
  | filterExpiry (detector : Detector)
  | dispatchExpiry
  | setpointFrameSent
  | purgeExpiry (boiler : Boiler)
  | lightOffExpiry (boiler : Boiler)
  | confirmExpiry (boiler : Boiler)
  | deadExpiry (boiler : Boiler)
  | tripHistoryAgeingExpiry (boiler : Boiler)
  | plantReleaseFall
  | plantReleaseRise
  | boundaryExpiry
  | gateExpiry
  | emergencyStart (slot : CurtailmentSlot)
  | ordinaryStart (slot : CurtailmentSlot)
  | activeOrderEnd
  | inactiveOrderEnd (slot : CurtailmentSlot)
  | meterWaitExpiry
  | estimationMinute
  | startUpWatchExpiry
  | closeExpiry
  /-- A valid host frame is completed (R165): its KIND, TAG and payload. -/
  | hostFrameValid (kind tag : Byte) (payload : List Byte)
  | frameAbandoned
  | hostGapExpiry
  | replySent
  | identify
  | setTime (reading : Word)
  | readTime
  | setLocalOffset (minutes : Half)
  | setHolidays (mask : Byte) (dates : List RawDate)
  | factoryClear
  | configureChannel (channel kind : Byte) (silence : Half)
  | readChannel (channel : Byte)
  | configurePoint (slot : Byte) (figures : RawPoint)
  | readPoint (slot : Byte)
  | configureSource (source definition : Byte)
  | setSourceService (source service : Byte)
  | configureHolder (figures : RawHolder)
  | selectHolderLimits (set : Byte)
  | setPlantParameters (figures : RawPlant)
  | setMeritList (boilers : List Byte)
  | configureBoiler (figures : RawBoiler)
  | readDispatch
  | startGas (boiler : Byte)
  | startAux (boiler : Byte)
  | stop (boiler : Byte)
  | changeover (boiler : Byte)
  | resetLockout (boiler : Byte)
  | readBoiler (boiler : Byte)
  | setExportContract (limit : Word) (length lead : Byte)
  | submitNomination (start energy : Word)
  | withdrawNomination (start : Word)
  | readNominations
  | submitCurtailment (reference : Word) (kind : Byte) (limit start finish : Word)
  | cancelCurtailment (reference : Word)
  | readCurtailments
  | fetchSettlementRecord
  | releaseSettlementRecord (sequence : Word)
  | configureSubstation (substation : Byte) (account : Word) (group : Byte) (maxRate estimateRate : Word)
  | connect (substation : Byte)
  | disconnect (substation : Byte)
  | accept (substation : Byte)
  | reject (substation : Byte)
  | readSubstation (substation : Byte)
  | stageTariff (table : RawTariff)
  | cancelStagedTariff
  | closePeriodNow
  | fetchBill
  | releaseBill (sequence : Word)
  | fetchCondition
  | clearCondition (cls source : Byte)
  | readConditions (first : Byte)
  | setFaultMask (mask : Word)
  | setLatchMode (cls mode : Byte)
  /-- A byte arrives on the host link (R163); `stopBit` is false for a broken byte. -/
  | hostLinkByteReceived (byte : Byte) (stopBit : Bool)
  /-- A byte arrives on a field line (R1); `stopBit` is false for a byte without its stop bit. -/
  | fieldLineByteReceived (line : FieldLineNo) (byte : Byte) (stopBit : Bool)
  /-- Power is lost (R176); `writing` is the region whose write the failure cuts, if any. -/
  | powerFailure (writing : Option Region)
  /-- A second of the calendar oscillator (R172). -/
  | calendarClockSecond
deriving DecidableEq, Repr

end Sys2Proof
end

