-- ==== Sys2Proof/Machine/State.lean ====
section
/-! DEFINITION. The state of the module, block by block, as plain data; the reasons a step could stop; and the
state after reset. Quantities the manual counts are `Nat` or `Int`; fields it keeps at a fixed width with wrap
(cycle number, sequence numbers, booked and issued totals, masks) are bit vectors. -/

namespace Sys2Proof.Machine

/-! ### Reasons a step can stop -/

/-- The manual gives every command an effect in every state, so no meaning faults: there is no reason. -/
inductive Fault where
deriving DecidableEq, Repr

/-- Why a command is refused by the model. -/
inductive Refusal where
  /-- Raised by an arm of `exec` whose command has no meaning yet; safe, as the run stops there. No arm raises it. -/
  | notModelled (mnemonic : String)
deriving DecidableEq, Repr

/-! ### Field channels and measurement points (chapter 1) -/

/-- The kinds of channel and of sample, in the order chapter 1 lists them. -/
inductive ChannelKind where
  | measure
  | status
  | meter
deriving DecidableEq, Repr

/-- The states of a channel (section 1.2 (2)). -/
inductive ChannelState where
  | absent
  | live
  | suspect
  | lost
deriving DecidableEq, Repr

/-- The quality of a sample (R2). -/
inductive Quality where
  | good
  | suspect
deriving DecidableEq, Repr

/-- The set of indications of a STATUS body (section 1.1 (2), 12.3). -/
structure Indications where
  flame : Bool
  gasClosed : Bool
  auxClosed : Bool
  tripDemand : Bool
  localControl : Bool
  available : Bool
deriving DecidableEq, Repr

/-- The contents of a sample's body, and a point's value, by kind. -/
inductive Quantity where
  | measure (value : Int)
  | status (set : Indications)
  | meter (reading rate : Nat)
deriving DecidableEq, Repr

structure Sample where
  body : Quantity
  quality : Quality
deriving DecidableEq, Repr

/-- What a channel holds that is not retained (section 1.2 (1)). The silence timer is kept as the oscillator
second of the arrival that started it: it expires at that second plus the silence limit in force (R3 iv, R6). -/
structure Channel where
  state : ChannelState
  goodRun : Nat
  last : Option Sample
  lastTime : Option Nat
  silenceFrom : Option Nat
deriving DecidableEq, Repr

/-- The role instances of a point (section 1.3 (1)). -/
inductive Role where
  | sourceFlow (s : GasSource)
  | sourceCv (s : GasSource)
  | worksFlow
  | networkCv
  | holderLevel
  | turbineStatus
  | boilerStatus (b : Boiler)
  | exportMeter
  | heatMeter (k : Substation)
deriving DecidableEq, Repr

inductive PointState where
  | unconfigured
  | awaiting
  | serving
  | holding
  | failed
deriving DecidableEq, Repr

inductive Rank where
  | primary
  | alternateA
  | alternateB
deriving DecidableEq, Repr

/-- What a point holds that is not retained (section 1.3 (2)); timers as the oscillator second they expire at. -/
structure Point where
  state : PointState
  rank : Option Rank
  value : Option Quantity
  clamped : Bool
  valueTime : Option Nat
  holdDue : Option Nat
  waitDue : Option Nat
deriving DecidableEq, Repr

/-- The assembler of one field line (R1): hunting, or the bytes taken since the marker. -/
inductive FieldLine where
  | hunting
  | awaitChannel
  | awaitKind (channel : Byte)
  | body (channel kind : Byte) (taken : List Byte)
deriving DecidableEq, Repr

/-! ### The CONFIG region (section 11.3) -/

structure ChannelConfig where
  kind : ChannelKind
  silence : Nat
deriving DecidableEq, Repr

structure PointConfig where
  role : Role
  primary : ChannelNo
  alternateA : Option ChannelNo
  alternateB : Option ChannelNo
  multiplier : Nat
  divisor : Nat
  low : Int
  high : Int
  hold : Nat
deriving DecidableEq, Repr

/-- Definition and service state of a gas source (section 2.1 (1)); a source that is NOT_DEFINED has no service state. -/
inductive SourceSetting where
  | notDefined
  | outOfService
  | inService
deriving DecidableEq, Repr

structure Thresholds where
  low : Nat
  high : Nat
deriving DecidableEq, Repr

inductive ThresholdSet where
  | normal
  | reduced
deriving DecidableEq, Repr

/-- The holder's figures (section 2.3 (1)). -/
structure HolderFigures where
  capacity : Nat
  bandLow : Nat
  bandHigh : Nat
  recovery : Nat
  normal : Thresholds
  reduced : Thresholds
  hysteresis : Nat
  filter : Nat
deriving DecidableEq, Repr

/-- The plant parameters (R38). -/
structure PlantParameters where
  period : Nat
  idleLimit : Nat
  conversion : Nat
  turbineMax : Nat
  ownUse : Nat
  exchanger : Nat
  loss : Nat
  stageSize : Nat
deriving DecidableEq, Repr

inductive ChangeoverReference where
  | fromCommand
  | fromConfirm
deriving DecidableEq, Repr

inductive RestartMode where
  | autoRestart
  | latched
deriving DecidableEq, Repr

/-- The firing and sequencing figures of a boiler (R40). -/
structure BoilerConfig where
  minimum : Nat
  maximum : Nat
  ramp : Nat
  yield : Nat
  auxFitted : Bool
  purge : Nat
  lightOff : Nat
  interval : Nat
  reference : ChangeoverReference
  window : Nat
  tripLimit : Nat
  restart : RestartMode
deriving DecidableEq, Repr

/-- The export contract (section 5.1); interval length and gate lead in minutes. -/
structure Contract where
  limit : Nat
  length : Nat
  lead : Nat
deriving DecidableEq, Repr

/-- A configured substation (section 7.1 (1)); tariff groups 1 to 4 as indices. -/
structure SubstationConfig where
  account : Nat
  group : Fin 4
  staged : Fin 4
  maxRate : Nat
  estimateRate : Nat
deriving DecidableEq, Repr

/-- One tariff group's part of a table (section 8.1); bands 1 to 4 as indices. -/
structure GroupTariff where
  workday : Vector (Fin 4) 24
  rest : Vector (Fin 4) 24
  recovered : Vector Nat 4
  auxiliary : Vector Nat 4
  standing : Nat
deriving DecidableEq, Repr

/-- A tariff table with its close schedule (section 8.1). -/
structure Tariff where
  groups : Vector GroupTariff 4
  closeDay : Nat
  closeHour : Nat
deriving DecidableEq, Repr

structure Date where
  year : Nat
  month : Nat
  day : Nat
deriving DecidableEq, Repr

inductive LatchMode where
  | latching
  | selfClearing
deriving DecidableEq, Repr

/-- The latch modes of the three classes whose mode can be set (R157). -/
structure LatchModes where
  highHigh : LatchMode
  lowLow : LatchMode
  pointFailed : LatchMode
deriving DecidableEq, Repr

/-- The CONFIG region: every configuration figure set by request, the tariff tables, the rest-day mask (bit 0
Monday) and holiday list, the fault mask (bit n - 1 for class n) and the latch modes. -/
structure ConfigRegion where
  channels : Vector ChannelConfig 96
  points : Vector (Option PointConfig) 128
  sources : Vector SourceSetting 6
  holder : Option HolderFigures
  thresholds : ThresholdSet
  drawFallback : Nat
  cvDefault : Nat
  plant : PlantParameters
  merit : List Boiler
  boilers : Vector (Option BoilerConfig) 8
  contract : Contract
  substations : Vector (Option SubstationConfig) 48
  tariff : Tariff
  pendingTariff : Option Tariff
  restMask : BitVec 7
  holidays : List Date
  faultMask : BitVec 20
  latchModes : LatchModes
deriving DecidableEq, Repr

/-! ### The ACCOUNTS region -/

inductive SubstationState where
  | fresh
  | inService
  | estimating
  | disconnected
deriving DecidableEq, Repr

/-- A meter reading with the clock second it belongs to. -/
structure MeterMark where
  reading : Nat
  time : Nat
deriving DecidableEq, Repr

/-- The retained metering state of a substation (section 7.1 (1)). The dispute flag is set exactly while there
is a pending reading, so `pendingMark` holds both; `SubstationState.fresh` is the manual's NEW. -/
structure SubstationAccount where
  state : SubstationState
  reference : Option MeterMark
  pendingMark : Option MeterMark
  reconciliation : Bool
  remainder : Nat
  gapTotal : Nat
deriving DecidableEq, Repr

/-- The figures of one band of an accumulator set (section 8.2 (2)); the charge is 0 in a current set. -/
structure BandFigures where
  recovered : Nat
  auxiliary : Nat
  estimated : Nat
  reconciled : Int
  charge : Int
deriving DecidableEq, Repr

structure SetFlags where
  estimated : Bool
  disputeOpen : Bool
  clockInvalid : Bool
  merged : Bool
deriving DecidableEq, Repr

/-- An accumulator set (section 8.2 (2)). `start` is absent only in a region's default contents, until the
restart that takes it up gives the power-on reading (R153 i). -/
structure AccumulatorSet where
  bands : Vector BandFigures 4
  rejected : Nat
  first : Nat
  last : Option Nat
  start : Option Int
  finish : Option Int
  covered : Nat
  standing : Nat
  flags : SetFlags
deriving DecidableEq, Repr

/-- What the Billing Unit holds for a substation (section 8.2 (1)); the totals are 8-byte two's complement (R140). -/
structure Ledger where
  current : AccumulatorSet
  closing : Option AccumulatorSet
  booked : BitVec 64
  issued : BitVec 64
deriving DecidableEq, Repr

/-- The ACCOUNTS region. The close mark is a local time in seconds; it is absent from a loss of the region until
it is set (R153 i). -/
structure AccountsRegion where
  meters : Vector SubstationAccount 48
  ledgers : Vector Ledger 48
  period : Nat
  closeMark : Option Int
deriving DecidableEq, Repr

/-! ### The QUEUES region -/

structure Nomination where
  start : Nat
  energy : Nat
deriving DecidableEq, Repr

/-- The flags an open interval accumulates (section 6.1). -/
structure IntervalFlags where
  timeStep : Bool
  powerGap : Bool
  steamOver : Bool
deriving DecidableEq, Repr

/-- The retained accumulators of the open interval (section 6.1). -/
structure OpenInterval where
  start : Int
  reference : Option Nat
  estimated : Bool
  computed : Int
  curtailed : Nat
  minLimit : Nat
  flags : IntervalFlags
deriving DecidableEq, Repr

inductive OrderKind where
  | ordinary
  | emergency
deriving DecidableEq, Repr

inductive OrderState where
  | pending
  | active
  | suspended
  | waiting
deriving DecidableEq, Repr

/-- A curtailment order (section 5.4); `finish` is none for an end of OPEN. -/
structure CurtailmentOrder where
  reference : Nat
  kind : OrderKind
  limit : Nat
  start : Nat
  finish : Option Nat
  state : OrderState
deriving DecidableEq, Repr

/-- The flags of a settlement record (section 6.2). -/
structure RecordFlags where
  meterEstimated : Bool
  timeStep : Bool
  powerGap : Bool
  curtailed : Bool
  steamOver : Bool
  unnominated : Bool
deriving DecidableEq, Repr

/-- A settlement record (section 6.2). -/
structure SettlementRecord where
  sequence : Word
  start : Int
  length : Nat
  nominated : Option Nat
  metered : Int
  computed : Int
  imbalance : Option Int
  curtailed : Nat
  minLimit : Nat
  flags : RecordFlags
deriving DecidableEq, Repr

/-- A bill (section 8.4 (1)). -/
structure Bill where
  sequence : Word
  substation : Substation
  account : Nat
  first : Nat
  last : Nat
  start : Int
  finish : Int
  bands : Vector BandFigures 4
  rejected : Nat
  standing : Nat
  total : Int
  flags : SetFlags
deriving DecidableEq, Repr

/-- The QUEUES region. `swept` is the model's own: the queue entries that a power-on put into an unfinished gap
record, kept in the stored region until the meter wait ends (R116); it is empty in the working region. -/
structure QueuesRegion where
  nominations : List Nomination
  swept : List Nomination
  current : Option Nat
  interval : Option OpenInterval
  orders : Vector (Option CurtailmentOrder) 8
  settlements : List SettlementRecord
  nextSettlement : Word
  bills : List Bill
  nextBill : Word
deriving DecidableEq, Repr

/-! ### Calendar clock and retained store (chapter 11) -/

/-- The battery domain's clock (section 11.1); the offset in minutes. -/
structure Clock where
  reading : Nat
  valid : Bool
  offset : Int
deriving DecidableEq, Repr

/-- One copy of a region (R176): its generation count, whether its check word matches, its contents. -/
structure StoreCopy (α : Type) where
  generation : Nat
  sound : Bool
  contents : α
deriving DecidableEq, Repr

/-- A region's state as Identify reports it (R170). -/
inductive RegionState where
  | sound
  | restored
deriving DecidableEq, Repr

/-- A retained region as stored (R176). -/
structure Retained (α : Type) where
  first : StoreCopy α
  second : StoreCopy α
  state : RegionState
deriving DecidableEq, Repr

structure Store where
  config : Retained ConfigRegion
  accounts : Retained AccountsRegion
  queues : Retained QueuesRegion
deriving DecidableEq, Repr

/-- The model's own marks of the regions that the owning chapters write at the event in hand; each event writes a
marked region once, at its end, and clears the marks. -/
structure WriteMarks where
  config : Bool
  accounts : Bool
  queues : Bool
deriving DecidableEq, Repr

/-! ### Gas Account (chapter 2) -/

inductive DetectorState where
  | clear
  | arming
  | active
  | disarming
deriving DecidableEq, Repr

/-- A detector with its filter timer (section 2.3 (1)). -/
structure DetectorCell where
  state : DetectorState
  due : Option Nat
deriving DecidableEq, Repr

structure GasAccount where
  unmeasured : Vector Bool 6
  highHigh : DetectorCell
  lowLow : DetectorCell
deriving DecidableEq, Repr

/-- The standing of a source in the figures (R35). -/
inductive SourceStanding where
  | counted
  | unmeasured
  | outOfService
  | notDefined
deriving DecidableEq, Repr

/-- The holder position, in the order R28 lists it. -/
inductive HolderPosition where
  | above
  | below
  | inBand
  | levelFailed
deriving DecidableEq, Repr

/-- The figures the Gas Account gives at a figures request (R35). -/
structure GasFigures where
  energies : Vector Nat 6
  standings : Vector SourceStanding 6
  sourceEnergy : Nat
  networkCv : Nat
  cvDefault : Bool
  draw : Nat
  drawFallback : Bool
  surplus : Int
  level : Option Nat
  position : HolderPosition
  correction : Int
  highHigh : Bool
  lowLow : Bool
  inForce : ThresholdSet
deriving DecidableEq, Repr

/-! ### Boiler sequencers (chapter 4) -/

inductive Fuel where
  | gas
  | aux
deriving DecidableEq, Repr

inductive BoilerState where
  | off
  | purge
  | lighting
  | firingGas
  | firingAux
  | changeover
  | tripped
  | lockedOut
deriving DecidableEq, Repr

inductive Phase where
  | dead
  | takeover
deriving DecidableEq, Repr

inductive TripCause where
  | tripDemand
  | flameLost
  | statusLost
  | releaseLost
  | lightOffFailed
  | valveNotClosed
deriving DecidableEq, Repr

/-- A trip history entry: the oscillator second its age is counted from, and its clock reading. -/
structure TripEntry where
  second : Nat
  time : Nat
deriving DecidableEq, Repr

/-- What a sequencer holds that is not retained (section 4.1); timers as the oscillator second they expire at. -/
structure Sequencer where
  state : BoilerState
  phase : Option Phase
  target : Option Fuel
  awaiting : Bool
  run : Option Fuel
  history : List TripEntry
  cause : Option TripCause
  marker : Bool
  lastClose : Nat
  lastCloseTime : Nat
  purgeDue : Option Nat
  lightOffDue : Option Nat
  confirmDue : Option Nat
  deadDue : Option Nat
  gasPermit : Bool
  auxPermit : Bool
deriving DecidableEq, Repr

/-! ### Dispatcher (chapter 3) -/

/-- The four requests to the sequencers (R55). -/
inductive ShedKind where
  | shedShortage
  | shedSteam
  | releaseAux
  | returnGas
deriving DecidableEq, Repr

/-- The requests of a cycle as its result records them (R59): none, one, or SHED_SHORTAGE to a list. -/
inductive SentRequest where
  | nothing
  | one (kind : ShedKind) (boiler : Boiler)
  | shedAll (boilers : List Boiler)
deriving DecidableEq, Repr

/-- An entry of the allocation table (section 3.3). -/
structure Allocation where
  gas : Nat
  aux : Nat
  idle : Nat
deriving DecidableEq, Repr

/-- A frame of the setpoint line (section 3.7); fuel none is NONE. -/
structure SetpointFrame where
  boiler : Boiler
  fuel : Option Fuel
  demand : Nat
  cycle : Word
deriving DecidableEq, Repr

/-- Stages 1 to 3 of a cycle (R42 to R44). -/
structure EarlyFigures where
  available : Nat
  demand : Nat
  usable : Nat
  effLimit : Nat
  turbineLimit : Nat
  headroom : Nat
  committed : Nat
  gasFloors : Nat
deriving DecidableEq, Repr

/-- Stages 4 to 6 of a cycle (R45 to R48). -/
structure RaiseFigures where
  remainingGas : Nat
  remainingHeadroom : Nat
  leftover : Nat
  gasSteam : Nat
  auxFloorSteam : Nat
  shortfall : Nat
  auxSteam : Nat
deriving DecidableEq, Repr

/-- Stage 7 of a cycle (R49). -/
structure HeatFigures where
  delivered : Nat
  recovered : Nat
  auxiliary : Nat
  turbine : Nat
  power : Nat
  exported : Int
  fraction : Nat
deriving DecidableEq, Repr

/-- A boiler's part of a dispatch result (R59). -/
structure BoilerResult where
  state : BoilerState
  phase : Option Phase
  floor : Option Nat
  gas : Nat
  aux : Nat
  idle : Nat
deriving DecidableEq, Repr

structure ResultFlags where
  shortage : Bool
  steamOver : Bool
  holderFailed : Bool
  turbineUnavailable : Bool
  heatShort : Bool
deriving DecidableEq, Repr

/-- The dispatch result (R59). -/
structure DispatchResult where
  cycle : Word
  time : Nat
  span : Nat
  period : Nat
  figures : GasFigures
  early : EarlyFigures
  raised : RaiseFigures
  heat : HeatFigures
  flareDemand : Nat
  flareStages : Nat
  boilers : Vector BoilerResult 8
  flags : ResultFlags
  request : SentRequest
deriving DecidableEq, Repr

/-- The markers of GAS_SHORTAGE, STEAM_OVER_LIMIT and HEAT_SHORTFALL (R52). -/
structure CycleMarkers where
  shortage : Bool
  steamOver : Bool
  heatShort : Bool
deriving DecidableEq, Repr

/-- The Dispatcher's volatile state (R61). `lastCycle` is the oscillator second of the previous cycle, or of
power-on; the dispatch timer expires one dispatch period after it (R37, R38). -/
structure Dispatcher where
  cycle : Word
  lastCycle : Nat
  allocations : Vector Allocation 8
  flareDemand : Nat
  flareStages : Nat
  fraction : Nat
  markers : CycleMarkers
  sending : Option SetpointFrame
  waiting : List SetpointFrame
  result : Option DispatchResult
deriving DecidableEq, Repr

/-! ### Export Schedule Unit (chapters 5 and 6) -/

/-- The unfinished gap record of R116 ii. -/
structure GapRecord where
  start : Int
  length : Nat
  nominated : Option Nat
  computed : Int
  curtailed : Nat
  minLimit : Nat
  flags : IntervalFlags
  reference : Option Nat
  estimated : Bool
deriving DecidableEq, Repr

/-- The meter wait after power-on (R116): when it ends, what the stored region keeps meanwhile, and the gap
record it completes. -/
structure MeterWait where
  due : Nat
  stored : Option OpenInterval
  storedCurrent : Option Nat
  swept : List Nomination
  gap : Option GapRecord
deriving DecidableEq, Repr

/-- The ESU's volatile state. `intervalEnd` belongs to the open interval; `curtailedSince` is an oscillator second. -/
structure ExportUnit where
  intervalEnd : Int
  curtailedSince : Option Nat
  lastReading : Option Nat
  effLimit : Nat
  missing : Bool
  wait : Option MeterWait
deriving DecidableEq, Repr

/-! ### Heat Metering Unit and Billing Unit (chapters 7 and 8) -/

/-- The HMU's volatile state: last rates, the start-up watch, and whether a whole-minute boundary has been
reached and not yet taken (R129). -/
structure HeatUnit where
  lastRates : Vector Nat 48
  watchDue : Option Nat
  minuteDue : Bool
deriving DecidableEq, Repr

/-- The BU's volatile state: the marker of R149, and whether a close has been performed at the present clock
second (R142). -/
structure BillingUnit where
  queueFull : Bool
  closedNow : Bool
deriving DecidableEq, Repr

/-! ### Condition Table (chapter 9) -/

/-- The twenty classes, in order of priority (section 9.1). -/
inductive ConditionClass where
  | plantReleaseLost
  | boilerTrip
  | holderHighHigh
  | holderLowLow
  | boilerLockout
  | pointFailed
  | steamOverLimit
  | gasShortage
  | heatShortfall
  | meterJump
  | substationEstimating
  | sourceUnmeasured
  | channelLost
  | nominationMissing
  | settlementOverrun
  | billQueueFull
  | linkError
  | timeStep
  | retainedStoreLost
  | conditionTableFull
deriving DecidableEq, Repr

/-- A class and source together (section 9.1); sources are the manual's numbers. -/
structure ConditionKey where
  cls : ConditionClass
  source : Nat
deriving DecidableEq, Repr

inductive EntryState where
  | active
  | latched
deriving DecidableEq, Repr

/-- An entry of the table (section 9.2). -/
structure ConditionEntry where
  key : ConditionKey
  state : EntryState
  latch : LatchMode
  notified : Bool
  firstRaised : Nat
  lastChange : Nat
  raises : Nat
deriving DecidableEq, Repr

/-- What a block asks of the Condition Table at an event: a raise, the end of a cause, or a raise whose cause ends at
that event (R112, R174, R176). -/
inductive ConditionAct where
  | raise (key : ConditionKey) (mode : LatchMode)
  | endCause (key : ConditionKey)
  | report (key : ConditionKey)
deriving DecidableEq, Repr

/-! ### Host Link Unit (chapter 10) -/

/-- The status codes (R167 (1)), in the order of their codes (12.1). -/
inductive Status where
  | ok
  | badLength
  | unknownKind
  | badField
  | busy
  | full
  | notFound
  | tooLate
  | stillPresent
  | empty
  | locked
deriving DecidableEq, Repr

/-- What an owner gives the HLU: a status code and, with OK, the contents of the reply (R166 iii). -/
structure Answer where
  status : Status
  contents : List Byte
deriving DecidableEq, Repr

/-- The receive frame assembler (R163): the bytes taken of the frame so far. -/
inductive Assembler where
  | hunt (markerSeen : Bool)
  | header (taken : List Byte)
  | body (length : Nat) (kind tag : Byte) (payload : List Byte)
  | check (kind tag : Byte) (payload : List Byte) (low : Option Byte)
deriving DecidableEq, Repr

structure LinkRequest where
  kind : Byte
  tag : Byte
deriving DecidableEq, Repr

/-- The HLU (chapter 10). `transmitter` is the frame being sent, none when IDLE; `answer` is the answer the
latest request got from its owner; `restartDue` is set by an accepted Factory Clear (R178). -/
structure HostLink where
  assembler : Assembler
  slot : Option LinkRequest
  refusal : Option LinkRequest
  transmitter : Option (List Byte)
  restarted : Bool
  linkError : Bool
  answer : Option Answer
  restartDue : Bool
deriving DecidableEq, Repr

/-! ### The whole state -/

/-- The module: its power and inputs, the battery domain, the working contents of the three regions, each
block's volatile state, and the commands waiting. `osc` counts the oscillator seconds since the restart. The
model's own: `marks` and `acts`, which hold the region writes and the Condition Table's acts that the event in hand has
still to carry out, and `choices`, which counts the free choices taken. -/
structure State where
  powered : Bool
  resetHeld : Bool
  plantRelease : Bool
  clock : Clock
  osc : Nat
  store : Store
  marks : WriteMarks
  acts : List ConditionAct
  cfg : ConfigRegion
  acc : AccountsRegion
  que : QueuesRegion
  lines : Vector FieldLine 4
  channels : Vector Channel 96
  points : Vector Point 128
  gas : GasAccount
  dsp : Dispatcher
  boilers : Vector Sequencer 8
  esu : ExportUnit
  hmu : HeatUnit
  bu : BillingUnit
  conditions : Vector (Option ConditionEntry) 128
  hlu : HostLink
  choices : Nat
  pending : List Instr
deriving DecidableEq, Repr

/-! ### Defaults of the regions (R8, R20, R36, R38, R61, R87, R105, R135, R153, R162) -/

def ChannelConfig.default : ChannelConfig := { kind := .measure, silence := 10 }

def PlantParameters.default : PlantParameters :=
  { period := 5, idleLimit := 0, conversion := 300, turbineMax := 0, ownUse := 0, exchanger := 0, loss := 0,
    stageSize := 10000 }

def Contract.default : Contract := { limit := 0, length := 15, lead := 30 }

/-- Every schedule entry band 1, every price and standing charge 0 (R153 ii). -/
def GroupTariff.default : GroupTariff :=
  { workday := Vector.replicate 24 0, rest := Vector.replicate 24 0, recovered := Vector.replicate 4 0,
    auxiliary := Vector.replicate 4 0, standing := 0 }

def Tariff.default : Tariff := { groups := Vector.replicate 4 .default, closeDay := 1, closeHour := 0 }

def ConfigRegion.default : ConfigRegion :=
  { channels := Vector.replicate 96 .default
    points := Vector.replicate 128 none
    sources := Vector.replicate 6 .notDefined
    holder := none
    thresholds := .normal
    drawFallback := 0
    cvDefault := 4000
    plant := .default
    merit := []
    boilers := Vector.replicate 8 none
    contract := .default
    substations := Vector.replicate 48 none
    tariff := .default
    pendingTariff := none
    restMask := 0b1100000#7
    holidays := []
    faultMask := 0b11111#20
    latchModes := { highHigh := .latching, lowLow := .latching, pointFailed := .latching } }

def SubstationAccount.default : SubstationAccount :=
  { state := .disconnected, reference := none, pendingMark := none, reconciliation := false, remainder := 0,
    gapTotal := 0 }

def BandFigures.zero : BandFigures := { recovered := 0, auxiliary := 0, estimated := 0, reconciled := 0, charge := 0 }

def SetFlags.none : SetFlags := { estimated := false, disputeOpen := false, clockInvalid := false, merged := false }

/-- A current set with every figure 0 and no flags (R145, R153). -/
def AccumulatorSet.opened (start : Option Int) (first : Nat) : AccumulatorSet :=
  { bands := Vector.replicate 4 .zero, rejected := 0, first := first, last := none, start := start, finish := none,
    covered := 0, standing := 0, flags := .none }

def Ledger.default : Ledger := { current := .opened none 1, closing := none, booked := 0, issued := 0 }

def AccountsRegion.default : AccountsRegion :=
  { meters := Vector.replicate 48 .default, ledgers := Vector.replicate 48 .default, period := 1, closeMark := none }

/-- The default accounts once a restart at `reading` has opened their sets (R153 i). -/
def AccountsRegion.opened (reading : Nat) : AccountsRegion :=
  { AccountsRegion.default with
    ledgers := Vector.replicate 48 { Ledger.default with current := .opened (some reading) 1 } }

/-- The defaults a restart gives an ACCOUNTS region that failed its check: every substation that `cfg` configures is
NEW, every set starts at the power-on reading, and the close mark is the local time `mark`, if the clock has one (R135 i,
R153 i). -/
def AccountsRegion.restored (cfg : ConfigRegion) (reading : Nat) (mark : Option Int) : AccountsRegion :=
  { AccountsRegion.opened reading with
    meters := cfg.substations.map fun c => { SubstationAccount.default with
      state := if c.isSome then .fresh else .disconnected }
    closeMark := mark }

def QueuesRegion.default : QueuesRegion :=
  { nominations := [], swept := [], current := none, interval := none, orders := Vector.replicate 8 none,
    settlements := [], nextSettlement := 1, bills := [], nextBill := 1 }

/-- Both copies of a region freshly written with contents. -/
def Retained.rewritten {α : Type} (contents : α) (state : RegionState) : Retained α :=
  { first := { generation := 0, sound := true, contents := contents }
    second := { generation := 0, sound := true, contents := contents }
    state := state }

/-- The three regions freshly written with their defaults, as Factory Clear leaves them (R178). -/
def Store.default : Store :=
  { config := .rewritten .default .sound, accounts := .rewritten .default .sound, queues := .rewritten .default .sound }

/-! ### Start values (R8, R20, R36, R61, R87, R105, R133, R152, R162, R171) -/

def Channel.start : Channel := { state := .absent, goodRun := 0, last := none, lastTime := none, silenceFrom := none }

/-- A slot with no configuration (R20). -/
def Point.vacant : Point :=
  { state := .unconfigured, rank := none, value := none, clamped := false, valueTime := none, holdDue := none,
    waitDue := none }

def DetectorCell.start : DetectorCell := { state := .clear, due := none }

def GasAccount.start : GasAccount := { unmeasured := Vector.replicate 6 false, highHigh := .start, lowLow := .start }

def Allocation.zero : Allocation := { gas := 0, aux := 0, idle := 0 }

def Dispatcher.start : Dispatcher :=
  { cycle := 0, lastCycle := 0, allocations := Vector.replicate 8 .zero, flareDemand := 0, flareStages := 0,
    fraction := 1000, markers := { shortage := false, steamOver := false, heatShort := false }, sending := none,
    waiting := [], result := none }

/-- The last permit close is the power-on moment: oscillator second 0 and the reading at the restart (R87). -/
def Sequencer.start (reading : Nat) : Sequencer :=
  { state := .off, phase := none, target := none, awaiting := false, run := none, history := [], cause := none,
    marker := false, lastClose := 0, lastCloseTime := reading, purgeDue := none, lightOffDue := none,
    confirmDue := none, deadDue := none, gasPermit := false, auxPermit := false }

def ExportUnit.start : ExportUnit :=
  { intervalEnd := 0, curtailedSince := none, lastReading := none, effLimit := 0, missing := false, wait := none }

def HeatUnit.start : HeatUnit :=
  { lastRates := Vector.replicate 48 0, watchDue := some Config.startWait, minuteDue := false }

def BillingUnit.start : BillingUnit := { queueFull := false, closedNow := false }

def HostLink.start : HostLink :=
  { assembler := .hunt false, slot := none, refusal := none, transmitter := none, restarted := true,
    linkError := false, answer := none, restartDue := false }

/-- The module right after the restart at the release of RESET, its regions as Factory Clear leaves them, its
clock never set (reading 0, INVALID, offset 0) and PLANT RELEASE high (log entry 1). DESIGN CHOICE: its field lines hunt (log entry 47). -/
def State.reset : State :=
  { powered := true
    resetHeld := false
    plantRelease := true
    clock := { reading := 0, valid := false, offset := 0 }
    osc := 0
    store := { Store.default with
      accounts := { (.rewritten .default .sound : Retained AccountsRegion) with
        first := { generation := 1, sound := true, contents := .opened 0 } } }
    marks := { config := false, accounts := false, queues := false }
    acts := []
    cfg := .default
    acc := .opened 0
    que := .default
    lines := Vector.replicate 4 .hunting
    channels := Vector.replicate 96 .start
    points := Vector.replicate 128 .vacant
    gas := .start
    dsp := .start
    boilers := Vector.replicate 8 (.start 0)
    esu := .start
    hmu := .start
    bu := .start
    conditions := Vector.replicate 128 none
    hlu := .start
    choices := 0
    pending := [] }

end Sys2Proof.Machine
end

