-- ==== Sys2Proof/Decode.lean ====
section
/-! DEFINITION. From bytes to commands: the request kinds, payload lengths and field places of 12.2, read by
`decodeRequest` and written by `encodeRequest`. The opcode table gives its rows no bits, so `decodeTableWord`
spells no command. -/

namespace Sys2Proof

open Sys2Proof.Machine (Status)

/-! ### Fields of a payload (section 6 (6) of chapter 0: least significant byte first) -/

/-- The byte at place `i`. -/
def byteAt (p : List Byte) (i : Nat) : Byte := p.getD i 0

/-- The two-byte field at place `i`. -/
def halfAt (p : List Byte) (i : Nat) : Half := byteAt p (i + 1) ++ byteAt p i

/-- The four-byte field at place `i`. -/
def wordAt (p : List Byte) (i : Nat) : Word := halfAt p (i + 2) ++ halfAt p i

/-- `n` bytes from place `i`. -/
def bytesAt (p : List Byte) (i n : Nat) : List Byte := (List.range n).map fun j => byteAt p (i + j)

/-- `n` four-byte fields from place `i`. -/
def wordsAt (p : List Byte) (i n : Nat) : List Word := (List.range n).map fun j => wordAt p (i + 4 * j)

/-- The bytes of a two-byte field. -/
def halfBytes (h : Half) : List Byte := [h.extractLsb' 0 8, h.extractLsb' 8 8]

/-- The bytes of a four-byte field. -/
def wordBytes (w : Word) : List Byte :=
  [w.extractLsb' 0 8, w.extractLsb' 8 8, w.extractLsb' 16 8, w.extractLsb' 24 8]

/-! ### Request kinds and payload lengths (12.2) -/

/-- The payload lengths a kind allows (R166 ii). -/
inductive LengthRule where
  | exactly (n : Nat)
  | listOf (fixed entry : Nat)
deriving DecidableEq, Repr

def LengthRule.allows (r : LengthRule) (n : Nat) : Bool :=
  match r with
  | .exactly m => n == m
  | .listOf fixed entry => fixed ≤ n && (n - fixed) % entry == 0

/-- The lengths of the table of 12.2, by the kind's code; none where the code names no request kind (R166 i). -/
def payloadLength (kind : Nat) : Option LengthRule :=
  match kind with
  | 0x01 => some (.exactly 0)
  | 0x02 => some (.exactly 4)
  | 0x03 => some (.exactly 0)
  | 0x04 => some (.exactly 2)
  | 0x05 => some (.listOf 1 4)
  | 0x06 => some (.exactly 0)
  | 0x10 => some (.exactly 4)
  | 0x11 => some (.exactly 1)
  | 0x12 => some (.exactly 20)
  | 0x13 => some (.exactly 1)
  | 0x20 => some (.exactly 2)
  | 0x21 => some (.exactly 2)
  | 0x22 => some (.exactly 39)
  | 0x23 => some (.exactly 1)
  | 0x30 => some (.exactly 24)
  | 0x31 => some (.listOf 0 1)
  | 0x32 => some (.exactly 27)
  | 0x33 => some (.exactly 0)
  | 0x40 => some (.exactly 2)
  | 0x41 => some (.exactly 1)
  | 0x50 => some (.exactly 6)
  | 0x51 => some (.exactly 8)
  | 0x52 => some (.exactly 4)
  | 0x53 => some (.exactly 0)
  | 0x54 => some (.exactly 17)
  | 0x55 => some (.exactly 4)
  | 0x56 => some (.exactly 0)
  | 0x57 => some (.exactly 0)
  | 0x58 => some (.exactly 4)
  | 0x60 => some (.exactly 14)
  | 0x61 => some (.exactly 2)
  | 0x62 => some (.exactly 2)
  | 0x63 => some (.exactly 1)
  | 0x70 => some (.exactly 338)
  | 0x71 => some (.exactly 0)
  | 0x72 => some (.exactly 0)
  | 0x73 => some (.exactly 0)
  | 0x74 => some (.exactly 4)
  | 0x78 => some (.exactly 0)
  | 0x79 => some (.exactly 2)
  | 0x7A => some (.exactly 1)
  | 0x7B => some (.exactly 4)
  | 0x7C => some (.exactly 2)
  | _ => none

/-! ### The structured payloads -/

/-- Configure Point after its slot byte. -/
def rawPointAt (p : List Byte) : RawPoint :=
  { role := byteAt p 1, instanceNo := byteAt p 2, primary := byteAt p 3, alternateA := byteAt p 4,
    alternateB := byteAt p 5, multiplier := halfAt p 6, divisor := halfAt p 8, low := wordAt p 10,
    high := wordAt p 14, hold := halfAt p 18 }

def rawHolderAt (p : List Byte) : RawHolder :=
  { capacity := wordAt p 0, bandLow := wordAt p 4, bandHigh := wordAt p 8, recovery := halfAt p 12,
    normalLow := wordAt p 14, normalHigh := wordAt p 18, reducedLow := wordAt p 22, reducedHigh := wordAt p 26,
    hysteresis := halfAt p 30, filter := byteAt p 32, drawFallback := wordAt p 33, cvDefault := halfAt p 37 }

def rawPlantAt (p : List Byte) : RawPlant :=
  { period := byteAt p 0, idleLimit := byteAt p 1, conversion := halfAt p 2, turbineMax := wordAt p 4,
    ownUse := wordAt p 8, exchanger := wordAt p 12, loss := wordAt p 16, stageSize := wordAt p 20 }

def rawBoilerAt (p : List Byte) : RawBoiler :=
  { boiler := byteAt p 0, minimum := wordAt p 1, maximum := wordAt p 5, ramp := wordAt p 9, yield := halfAt p 13,
    auxFitted := byteAt p 15, purge := halfAt p 16, lightOff := byteAt p 18, interval := byteAt p 19,
    reference := byteAt p 20, window := wordAt p 21, tripLimit := byteAt p 25, restart := byteAt p 26 }

/-- One group of Stage Tariff takes 84 bytes. -/
def rawGroupAt (p : List Byte) (i : Nat) : RawGroup :=
  { workday := bytesAt p i 24, rest := bytesAt p (i + 24) 24, recovered := wordsAt p (i + 48) 4,
    auxiliary := wordsAt p (i + 64) 4, standing := wordAt p (i + 80) }

def rawTariffAt (p : List Byte) : RawTariff :=
  { group1 := rawGroupAt p 0, group2 := rawGroupAt p 84, group3 := rawGroupAt p 168, group4 := rawGroupAt p 252,
    closeDay := byteAt p 336, closeHour := byteAt p 337 }

/-- The dates of Set Holidays after the mask byte. -/
def rawDatesAt : List Byte → List RawDate
  | y0 :: y1 :: m :: d :: rest => { year := y1 ++ y0, month := m, day := d } :: rawDatesAt rest
  | _ => []

/-- The request a payload of an allowed length carries; a command, service or action code that names no value is
refused with BAD_FIELD (R64, R119, R126, R179 ii). -/
def requestOf (kind : Nat) (p : List Byte) : Except Status Instr :=
  match kind with
  | 0x01 => .ok .identify
  | 0x02 => .ok (.setTime (wordAt p 0))
  | 0x03 => .ok .readTime
  | 0x04 => .ok (.setLocalOffset (halfAt p 0))
  | 0x05 => .ok (.setHolidays (byteAt p 0) (rawDatesAt (p.drop 1)))
  | 0x06 => .ok .factoryClear
  | 0x10 => .ok (.configureChannel (byteAt p 0) (byteAt p 1) (halfAt p 2))
  | 0x11 => .ok (.readChannel (byteAt p 0))
  | 0x12 => .ok (.configurePoint (byteAt p 0) (rawPointAt p))
  | 0x13 => .ok (.readPoint (byteAt p 0))
  | 0x20 => .ok (.configureSource (byteAt p 0) (byteAt p 1))
  | 0x21 => .ok (.setSourceService (byteAt p 0) (byteAt p 1))
  | 0x22 => .ok (.configureHolder (rawHolderAt p))
  | 0x23 => .ok (.selectHolderLimits (byteAt p 0))
  | 0x30 => .ok (.setPlantParameters (rawPlantAt p))
  | 0x31 => .ok (.setMeritList p)
  | 0x32 => .ok (.configureBoiler (rawBoilerAt p))
  | 0x33 => .ok .readDispatch
  | 0x40 =>
    match (byteAt p 1).toNat with
    | 0 => .ok (.startGas (byteAt p 0))
    | 1 => .ok (.startAux (byteAt p 0))
    | 2 => .ok (.stop (byteAt p 0))
    | 3 => .ok (.changeover (byteAt p 0))
    | 4 => .ok (.resetLockout (byteAt p 0))
    | _ => .error .badField
  | 0x41 => .ok (.readBoiler (byteAt p 0))
  | 0x50 => .ok (.setExportContract (wordAt p 0) (byteAt p 4) (byteAt p 5))
  | 0x51 => .ok (.submitNomination (wordAt p 0) (wordAt p 4))
  | 0x52 => .ok (.withdrawNomination (wordAt p 0))
  | 0x53 => .ok .readNominations
  | 0x54 => .ok (.submitCurtailment (wordAt p 0) (byteAt p 4) (wordAt p 5) (wordAt p 9) (wordAt p 13))
  | 0x55 => .ok (.cancelCurtailment (wordAt p 0))
  | 0x56 => .ok .readCurtailments
  | 0x57 => .ok .fetchSettlementRecord
  | 0x58 => .ok (.releaseSettlementRecord (wordAt p 0))
  | 0x60 => .ok (.configureSubstation (byteAt p 0) (wordAt p 1) (byteAt p 5) (wordAt p 6) (wordAt p 10))
  | 0x61 =>
    match (byteAt p 1).toNat with
    | 0 => .ok (.connect (byteAt p 0))
    | 1 => .ok (.disconnect (byteAt p 0))
    | _ => .error .badField
  | 0x62 =>
    match (byteAt p 1).toNat with
    | 0 => .ok (.accept (byteAt p 0))
    | 1 => .ok (.reject (byteAt p 0))
    | _ => .error .badField
  | 0x63 => .ok (.readSubstation (byteAt p 0))
  | 0x70 => .ok (.stageTariff (rawTariffAt p))
  | 0x71 => .ok .cancelStagedTariff
  | 0x72 => .ok .closePeriodNow
  | 0x73 => .ok .fetchBill
  | 0x74 => .ok (.releaseBill (wordAt p 0))
  | 0x78 => .ok .fetchCondition
  | 0x79 => .ok (.clearCondition (byteAt p 0) (byteAt p 1))
  | 0x7A => .ok (.readConditions (byteAt p 0))
  | 0x7B => .ok (.setFaultMask (wordAt p 0))
  | 0x7C => .ok (.setLatchMode (byteAt p 0) (byteAt p 1))
  | _ => .error .unknownKind

/-- The HLU's checks of KIND and payload length, and the decoding of the payload (R166 i and ii, R179). -/
def decodeRequest (kind : Byte) (payload : List Byte) : Except Status Instr :=
  match payloadLength kind.toNat with
  | none => .error .unknownKind
  | some rule => if rule.allows payload.length then requestOf kind.toNat payload else .error .badLength

/-! ### Encoding a request -/

def RawPoint.bytes (f : RawPoint) : List Byte :=
  [f.role, f.instanceNo, f.primary, f.alternateA, f.alternateB] ++ halfBytes f.multiplier ++ halfBytes f.divisor ++
    wordBytes f.low ++ wordBytes f.high ++ halfBytes f.hold

def RawHolder.bytes (f : RawHolder) : List Byte :=
  wordBytes f.capacity ++ wordBytes f.bandLow ++ wordBytes f.bandHigh ++ halfBytes f.recovery ++
    wordBytes f.normalLow ++ wordBytes f.normalHigh ++ wordBytes f.reducedLow ++ wordBytes f.reducedHigh ++
    halfBytes f.hysteresis ++ [f.filter] ++ wordBytes f.drawFallback ++ halfBytes f.cvDefault

def RawPlant.bytes (f : RawPlant) : List Byte :=
  [f.period, f.idleLimit] ++ halfBytes f.conversion ++ wordBytes f.turbineMax ++ wordBytes f.ownUse ++
    wordBytes f.exchanger ++ wordBytes f.loss ++ wordBytes f.stageSize

def RawBoiler.bytes (f : RawBoiler) : List Byte :=
  [f.boiler] ++ wordBytes f.minimum ++ wordBytes f.maximum ++ wordBytes f.ramp ++ halfBytes f.yield ++
    [f.auxFitted] ++ halfBytes f.purge ++ [f.lightOff, f.interval, f.reference] ++ wordBytes f.window ++
    [f.tripLimit, f.restart]

def RawGroup.bytes (g : RawGroup) : List Byte :=
  g.workday ++ g.rest ++ g.recovered.flatMap wordBytes ++ g.auxiliary.flatMap wordBytes ++ wordBytes g.standing

def RawTariff.bytes (t : RawTariff) : List Byte :=
  t.group1.bytes ++ t.group2.bytes ++ t.group3.bytes ++ t.group4.bytes ++ [t.closeDay, t.closeHour]

def RawDate.bytes (d : RawDate) : List Byte := halfBytes d.year ++ [d.month, d.day]

/-- The KIND and payload of a request (12.2); none for a command that is no request of the host. -/
def encodeRequest : Instr → Option (Byte × List Byte)
  | .identify => some (0x01, [])
  | .setTime v => some (0x02, wordBytes v)
  | .readTime => some (0x03, [])
  | .setLocalOffset m => some (0x04, halfBytes m)
  | .setHolidays mask dates => some (0x05, mask :: dates.flatMap RawDate.bytes)
  | .factoryClear => some (0x06, [])
  | .configureChannel c k l => some (0x10, [c, k] ++ halfBytes l)
  | .readChannel c => some (0x11, [c])
  | .configurePoint p f => some (0x12, p :: f.bytes)
  | .readPoint p => some (0x13, [p])
  | .configureSource s d => some (0x20, [s, d])
  | .setSourceService s v => some (0x21, [s, v])
  | .configureHolder f => some (0x22, f.bytes)
  | .selectHolderLimits v => some (0x23, [v])
  | .setPlantParameters f => some (0x30, f.bytes)
  | .setMeritList l => some (0x31, l)
  | .configureBoiler f => some (0x32, f.bytes)
  | .readDispatch => some (0x33, [])
  | .startGas b => some (0x40, [b, 0])
  | .startAux b => some (0x40, [b, 1])
  | .stop b => some (0x40, [b, 2])
  | .changeover b => some (0x40, [b, 3])
  | .resetLockout b => some (0x40, [b, 4])
  | .readBoiler b => some (0x41, [b])
  | .setExportContract l n g => some (0x50, wordBytes l ++ [n, g])
  | .submitNomination t e => some (0x51, wordBytes t ++ wordBytes e)
  | .withdrawNomination t => some (0x52, wordBytes t)
  | .readNominations => some (0x53, [])
  | .submitCurtailment r k l t e => some (0x54, wordBytes r ++ [k] ++ wordBytes l ++ wordBytes t ++ wordBytes e)
  | .cancelCurtailment r => some (0x55, wordBytes r)
  | .readCurtailments => some (0x56, [])
  | .fetchSettlementRecord => some (0x57, [])
  | .releaseSettlementRecord n => some (0x58, wordBytes n)
  | .configureSubstation k a g m e => some (0x60, [k] ++ wordBytes a ++ [g] ++ wordBytes m ++ wordBytes e)
  | .connect k => some (0x61, [k, 0])
  | .disconnect k => some (0x61, [k, 1])
  | .accept k => some (0x62, [k, 0])
  | .reject k => some (0x62, [k, 1])
  | .readSubstation k => some (0x63, [k])
  | .stageTariff t => some (0x70, t.bytes)
  | .cancelStagedTariff => some (0x71, [])
  | .closePeriodNow => some (0x72, [])
  | .fetchBill => some (0x73, [])
  | .releaseBill n => some (0x74, wordBytes n)
  | .fetchCondition => some (0x78, [])
  | .clearCondition c s => some (0x79, [c, s])
  | .readConditions n => some (0x7A, [n])
  | .setFaultMask m => some (0x7B, wordBytes m)
  | .setLatchMode c m => some (0x7C, [c, m])
  | _ => none

/-- The command a word spells by the table's bits: the table gives its rows none. -/
def decodeTableWord (_nbits _w : Nat) : Option Instr := none

end Sys2Proof
end

