-- ==== Sys2Proof/Machine/Operands.lean ====
section
/-! DEFINITION. Reading the operands of requests (ranges and named codes, R179) and writing the fields of
replies, records and frames (chapter 12). -/

namespace Sys2Proof.Machine

/-! ### Numbered things (section 6 (5) of chapter 0) -/

/-- The index of the thing numbered `v`, where the manual numbers `n` of them from 1. -/
def numbered (n : Nat) (v : Byte) : Option (Fin n) :=
  if h : 1 ≤ v.toNat ∧ v.toNat ≤ n then some ⟨v.toNat - 1, by omega⟩ else none

/-! ### Named values of requests: coded from 00h in the order the owning chapter first lists them (R179 i) -/

def readKind (v : Byte) : Option ChannelKind :=
  match v.toNat with
  | 0 => some .measure
  | 1 => some .status
  | 2 => some .meter
  | _ => none

/-- The kind codes of field sample frames (12.3). -/
def readFrameKind (v : Byte) : Option ChannelKind :=
  match v.toNat with
  | 1 => some .measure
  | 2 => some .status
  | 3 => some .meter
  | _ => none

/-- A role with its instance (R9, R179 i): the outer none is a refusal, the inner none is the role "none". -/
def readRole (role inst : Byte) : Option (Option Role) :=
  let single (r : Role) : Option (Option Role) := if inst.toNat = 1 then some (some r) else none
  match role.toNat with
  | 0 => (numbered 6 inst).map fun s => some (.sourceFlow s)
  | 1 => (numbered 6 inst).map fun s => some (.sourceCv s)
  | 2 => single .worksFlow
  | 3 => single .networkCv
  | 4 => single .holderLevel
  | 5 => single .turbineStatus
  | 6 => (numbered 8 inst).map fun b => some (.boilerStatus b)
  | 7 => single .exportMeter
  | 8 => (numbered 48 inst).map fun k => some (.heatMeter k)
  | 0xFF => some none
  | _ => none

/-- An optional channel: FFh is none (R179 i). -/
def readOptionalChannel (v : Byte) : Option (Option ChannelNo) :=
  if v = 0xFF then some none else (numbered 96 v).map some

def readYesNo (v : Byte) : Option Bool :=
  match v.toNat with
  | 0 => some false
  | 1 => some true
  | _ => none

def readReference (v : Byte) : Option ChangeoverReference :=
  match v.toNat with
  | 0 => some .fromCommand
  | 1 => some .fromConfirm
  | _ => none

def readRestart (v : Byte) : Option RestartMode :=
  match v.toNat with
  | 0 => some .autoRestart
  | 1 => some .latched
  | _ => none

def readSet (v : Byte) : Option ThresholdSet :=
  match v.toNat with
  | 0 => some .normal
  | 1 => some .reduced
  | _ => none

def readOrderKind (v : Byte) : Option OrderKind :=
  match v.toNat with
  | 0 => some .ordinary
  | 1 => some .emergency
  | _ => none

def readLatch (v : Byte) : Option LatchMode :=
  match v.toNat with
  | 0 => some .latching
  | 1 => some .selfClearing
  | _ => none

/-- DEFINED 00h and NOT_DEFINED 01h (section 2.1): whether the source is to be DEFINED. -/
def readDefined (v : Byte) : Option Bool :=
  match v.toNat with
  | 0 => some true
  | 1 => some false
  | _ => none

/-- IN_SERVICE 00h and OUT_OF_SERVICE 01h (section 2.1): whether the source is to be in service. -/
def readService (v : Byte) : Option Bool :=
  match v.toNat with
  | 0 => some true
  | 1 => some false
  | _ => none

/-- The twenty classes in the order of their numbers (section 9.1). -/
def allClasses : List ConditionClass :=
  [.plantReleaseLost, .boilerTrip, .holderHighHigh, .holderLowLow, .boilerLockout, .pointFailed, .steamOverLimit,
   .gasShortage, .heatShortfall, .meterJump, .substationEstimating, .sourceUnmeasured, .channelLost,
   .nominationMissing, .settlementOverrun, .billQueueFull, .linkError, .timeStep, .retainedStoreLost,
   .conditionTableFull]

/-- The class numbered `v`. -/
def readClass (v : Byte) : Option ConditionClass := if v = 0 then none else allClasses[v.toNat - 1]?

/-- The number, and priority, of a class (section 9.1). -/
def ConditionClass.number : ConditionClass → Nat
  | .plantReleaseLost => 1
  | .boilerTrip => 2
  | .holderHighHigh => 3
  | .holderLowLow => 4
  | .boilerLockout => 5
  | .pointFailed => 6
  | .steamOverLimit => 7
  | .gasShortage => 8
  | .heatShortfall => 9
  | .meterJump => 10
  | .substationEstimating => 11
  | .sourceUnmeasured => 12
  | .channelLost => 13
  | .nominationMissing => 14
  | .settlementOverrun => 15
  | .billQueueFull => 16
  | .linkError => 17
  | .timeStep => 18
  | .retainedStoreLost => 19
  | .conditionTableFull => 20

/-- The largest source of a class; the smallest is 1 (section 9.1). -/
def ConditionClass.lastSource : ConditionClass → Nat
  | .boilerTrip | .boilerLockout => 8
  | .pointFailed => 128
  | .meterJump | .substationEstimating => 48
  | .sourceUnmeasured => 6
  | .channelLost => 96
  | .retainedStoreLost => 3
  | _ => 1

/-! ### Fields of replies and records -/

/-- `n` bytes of a number, least significant first. -/
def leBytes : Nat → Nat → List Byte
  | 0, _ => []
  | n + 1, v => BitVec.ofNat 8 v :: leBytes n (v / 256)

/-- The bytes of a field whose value does not fit it: free (`Config.wideByte`). -/
def wideField (n : Nat) (v : Int) : List Byte := (List.range n).map (Config.wideByte n v)

/-- An unsigned field of `n` bytes. -/
def field (n : Nat) (v : Nat) : List Byte := if v < 256 ^ n then leBytes n v else wideField n v

/-- An unsigned field of `n` bytes for a clock time that the schedules reckon as an integer. -/
def timeField (n : Nat) (v : Int) : List Byte := if 0 ≤ v then field n v.toNat else wideField n v

/-- A signed field of `n` bytes, in two's complement. -/
def signedField (n : Nat) (v : Int) : List Byte :=
  if -(256 ^ n : Nat) ≤ 2 * v ∧ 2 * v < (256 ^ n : Nat) then leBytes n (v % (256 ^ n : Nat)).toNat else wideField n v

/-- A yes-or-no item, flag, mark or line level: 1 byte (R179 iv). -/
def flagByte (b : Bool) : List Byte := [if b then 1 else 0]

/-- A number of the manual's numbering, from an index: 1 byte (R179 iv). -/
def numberByte {n : Nat} (i : Fin n) : List Byte := field 1 (i.val + 1)

/-- An item that may be absent: a presence byte, then its bytes, or zeros of the same width (R179 iv). -/
def optionalItem {α : Type} (width : Nat) (x : Option α) (bytes : α → List Byte) : List Byte :=
  match x with
  | some a => 1 :: bytes a
  | none => 0 :: List.replicate width 0

/-- A list: a count byte, then its items (R179 iv). -/
def countedList {α : Type} (xs : List α) (bytes : α → List Byte) : List Byte :=
  field 1 xs.length ++ xs.flatMap bytes

/-- The code of a named value that may be none, FFh (R179 i). -/
def codeOrNone {α : Type} (x : Option α) (code : α → Byte) : List Byte := [x.elim 0xFF code]

/-! ### Codes of named values in replies (R179 i) -/

def ChannelKind.code : ChannelKind → Byte
  | .measure => 0
  | .status => 1
  | .meter => 2

/-- Chapter 1 first lists the channel states in its opening: LIVE, SUSPECT, LOST, ABSENT. -/
def ChannelState.code : ChannelState → Byte
  | .live => 0
  | .suspect => 1
  | .lost => 2
  | .absent => 3

def PointState.code : PointState → Byte
  | .unconfigured => 0
  | .awaiting => 1
  | .serving => 2
  | .holding => 3
  | .failed => 4

def Rank.code : Rank → Byte
  | .primary => 0
  | .alternateA => 1
  | .alternateB => 2

/-- Role and instance bytes (12.2: role 1, instance 1). -/
def Role.bytes : Role → List Byte
  | .sourceFlow s => 0 :: numberByte s
  | .sourceCv s => 1 :: numberByte s
  | .worksFlow => [2, 1]
  | .networkCv => [3, 1]
  | .holderLevel => [4, 1]
  | .turbineStatus => [5, 1]
  | .boilerStatus b => 6 :: numberByte b
  | .exportMeter => [7, 1]
  | .heatMeter k => 8 :: numberByte k

def ChangeoverReference.code : ChangeoverReference → Byte
  | .fromCommand => 0
  | .fromConfirm => 1

def RestartMode.code : RestartMode → Byte
  | .autoRestart => 0
  | .latched => 1

def Fuel.code : Fuel → Byte
  | .gas => 0
  | .aux => 1

def BoilerState.code : BoilerState → Byte
  | .off => 0
  | .purge => 1
  | .lighting => 2
  | .firingGas => 3
  | .firingAux => 4
  | .changeover => 5
  | .tripped => 6
  | .lockedOut => 7

def Phase.code : Phase → Byte
  | .dead => 0
  | .takeover => 1

def TripCause.code : TripCause → Byte
  | .tripDemand => 0
  | .flameLost => 1
  | .statusLost => 2
  | .releaseLost => 3
  | .lightOffFailed => 4
  | .valveNotClosed => 5

def SourceStanding.code : SourceStanding → Byte
  | .counted => 0
  | .unmeasured => 1
  | .outOfService => 2
  | .notDefined => 3

def HolderPosition.code : HolderPosition → Byte
  | .above => 0
  | .below => 1
  | .inBand => 2
  | .levelFailed => 3

/-- The request codes of the dispatch result record (12.4). -/
def ShedKind.code : ShedKind → Byte
  | .shedShortage => 0
  | .shedSteam => 1
  | .releaseAux => 2
  | .returnGas => 3

def OrderKind.code : OrderKind → Byte
  | .ordinary => 0
  | .emergency => 1

def OrderState.code : OrderState → Byte
  | .pending => 0
  | .active => 1
  | .suspended => 2
  | .waiting => 3

def SubstationState.code : SubstationState → Byte
  | .fresh => 0
  | .inService => 1
  | .estimating => 2
  | .disconnected => 3

def EntryState.code : EntryState → Byte
  | .active => 0
  | .latched => 1

def LatchMode.code : LatchMode → Byte
  | .latching => 0
  | .selfClearing => 1

def RegionState.code : RegionState → Byte
  | .sound => 0
  | .restored => 1

def Status.code : Status → Byte
  | .ok => 0x00
  | .badLength => 0x01
  | .unknownKind => 0x02
  | .badField => 0x03
  | .busy => 0x04
  | .full => 0x05
  | .notFound => 0x06
  | .tooLate => 0x07
  | .stillPresent => 0x08
  | .empty => 0x09
  | .locked => 0x0A

/-! ### Check bytes -/

/-- One bit step of the CRC-8 with polynomial 07h, no reflection (R1). -/
def crc8Bit (c : BitVec 8) : BitVec 8 := if c.msb then (c <<< 1) ^^^ 0x07 else c <<< 1

def crc8Byte (c b : BitVec 8) : BitVec 8 := Nat.repeat crc8Bit 8 (c ^^^ b)

/-- The CRC-8 of field and setpoint frames: initial value 00h, no final exclusive-or (R1, R180). -/
def crc8 (bytes : List Byte) : Byte := bytes.foldl crc8Byte 0

/-- One bit step of the CRC-16 with polynomial 1021h, no reflection (R163). -/
def crc16Bit (c : BitVec 16) : BitVec 16 := if c.msb then (c <<< 1) ^^^ 0x1021 else c <<< 1

def crc16Byte (c : BitVec 16) (b : Byte) : BitVec 16 := Nat.repeat crc16Bit 8 (c ^^^ (b ++ (0 : Byte)))

/-- The CRC-16 of the host link: initial value FFFFh, no final exclusive-or (R163). -/
def crc16 (bytes : List Byte) : Half := bytes.foldl crc16Byte 0xFFFF

end Sys2Proof.Machine
end

