-- ==== Sys2Proof/Machine/Flags.lean ====
section
/-! DEFINITION. The flag bytes of frames, replies and records (chapter 12): which bit stands for which flag. -/

namespace Sys2Proof.Machine

/-- A number whose bits, from bit 0, are the given flags. -/
def bitsNat : List Bool → Nat
  | [] => 0
  | b :: bs => (if b then 1 else 0) + 2 * bitsNat bs

/-- A flag byte, bit 0 first. -/
def flagsByte (bits : List Bool) : Byte := BitVec.ofNat 8 (bitsNat bits)

/-- The indications of a STATUS body; bits that name none are ignored (R2, 12.3). -/
def readIndications (v : Byte) : Indications :=
  { flame := v.getLsbD 0, gasClosed := v.getLsbD 1, auxClosed := v.getLsbD 2, tripDemand := v.getLsbD 3,
    localControl := v.getLsbD 4, available := v.getLsbD 5 }

def Indications.byte (i : Indications) : Byte :=
  flagsByte [i.flame, i.gasClosed, i.auxClosed, i.tripDemand, i.localControl, i.available]

/-- The flags byte of a reply: bit 0 RESTARTED, bit 1 ALERT_PENDING (12.1). -/
def replyFlags (restarted alertPending : Bool) : Byte := flagsByte [restarted, alertPending]

/-- The marks byte of the Gas Account figures (12.4). -/
def GasFigures.marks (g : GasFigures) : Byte :=
  flagsByte [g.cvDefault, g.drawFallback, g.level.isNone, g.highHigh, g.lowLow, g.inForce = .reduced]

/-- The flags byte of a dispatch result (12.4). -/
def ResultFlags.byte (f : ResultFlags) : Byte :=
  flagsByte [f.shortage, f.steamOver, f.holderFailed, f.turbineUnavailable, f.heatShort]

/-- The boiler set of a dispatch result: bit b - 1 marks boiler b (12.4). -/
def boilerSet (l : List Boiler) : Byte := flagsByte ((List.finRange 8).map fun b => decide (b ∈ l))

/-- The flags byte of a settlement record (12.5). -/
def RecordFlags.byte (f : RecordFlags) : Byte :=
  flagsByte [f.meterEstimated, f.timeStep, f.powerGap, f.curtailed, f.steamOver, f.unnominated]

/-- The flags byte of a bill or accumulator set (12.6). -/
def SetFlags.byte (f : SetFlags) : Byte := flagsByte [f.estimated, f.disputeOpen, f.clockInvalid, f.merged]

/-- Flags joined at a merge: a flag set on either is set on the result (R145 ii). -/
def SetFlags.join (a b : SetFlags) : SetFlags :=
  { estimated := a.estimated || b.estimated, disputeOpen := a.disputeOpen || b.disputeOpen,
    clockInvalid := a.clockInvalid || b.clockInvalid, merged := a.merged || b.merged }

end Sys2Proof.Machine
end

