-- ==== Sys2Proof/Machine/Ops.lean ====
section
/-! DEFINITION. The named operations every block uses: reading and writing the parts of the state, the free
order of simultaneous actions, the retained store (R176), and answers to requests. -/

namespace Sys2Proof.Machine

/-! ### Parts of the state -/

def State.setChannel (s : State) (c : ChannelNo) (x : Channel) : State := { s with channels := s.channels.set c x }

def State.setPoint (s : State) (p : PointNo) (x : Point) : State := { s with points := s.points.set p x }

def State.setBoiler (s : State) (b : Boiler) (x : Sequencer) : State := { s with boilers := s.boilers.set b x }

def State.setAllocation (s : State) (b : Boiler) (x : Allocation) : State :=
  { s with dsp := { s.dsp with allocations := s.dsp.allocations.set b x } }

def State.setMeter (s : State) (k : Substation) (x : SubstationAccount) : State :=
  { s with acc := { s.acc with meters := s.acc.meters.set k x } }

def State.setLedger (s : State) (k : Substation) (x : Ledger) : State :=
  { s with acc := { s.acc with ledgers := s.acc.ledgers.set k x } }

def State.setOrder (s : State) (n : CurtailmentSlot) (x : Option CurtailmentOrder) : State :=
  { s with que := { s.que with orders := s.que.orders.set n x } }

def State.setLastRate (s : State) (k : Substation) (r : Nat) : State :=
  { s with hmu := { s.hmu with lastRates := s.hmu.lastRates.set k r } }

def State.setUnmeasured (s : State) (n : GasSource) (b : Bool) : State :=
  { s with gas := { s.gas with unmeasured := s.gas.unmeasured.set n b } }

def State.setPlace (s : State) (i : Fin 128) (e : Option ConditionEntry) : State :=
  { s with conditions := s.conditions.set i e }

/-- The module works: it has power and RESET is not held (R177). -/
def State.running (s : State) : Bool := s.powered && !s.resetHeld

/-! ### Points as their consumers see them (section 1.3 (3), R18) -/

/-- The slot configured with a role; at most one serves it (R9). -/
def State.slotOf (s : State) (r : Role) : Option PointNo :=
  (List.finRange 128).find? fun p => (s.cfg.points[p]).any fun c => decide (c.role = r)

/-- A point is usable when it is SERVING or HOLDING. -/
def Point.usable (x : Point) : Bool := decide (x.state = .serving ∨ x.state = .holding)

/-- A role is usable when a point is configured for it and usable (R18). -/
def State.usable (s : State) (r : Role) : Bool := (s.slotOf r).any fun p => (s.points[p]).usable

/-- The value of a role's point while it is usable. -/
def State.valueOf (s : State) (r : Role) : Option Quantity :=
  (s.slotOf r).bind fun p => if (s.points[p]).usable then (s.points[p]).value else none

/-- The number a MEASURE point gives while it is usable. -/
def State.measured (s : State) (r : Role) : Option Int :=
  match s.valueOf r with
  | some (.measure v) => some v
  | _ => none

/-- The indications a STATUS point gives while it is usable. -/
def State.indicated (s : State) (r : Role) : Option Indications :=
  match s.valueOf r with
  | some (.status i) => some i
  | _ => none

/-! ### Local time (section 6 (4) of chapter 0) -/

/-- Local time in seconds: the reading plus the local offset. -/
def Clock.localTime (c : Clock) : Int := c.reading + 60 * c.offset

/-! ### The free order of actions that one event leaves unordered -/

/-- `x` put into `l` at place `n`, or at its end. -/
def insertAt {α : Type} (x : α) : List α → Nat → List α
  | [], _ => [x]
  | y :: l, n => if n = 0 then x :: y :: l else y :: insertAt x l (n - 1)

/-- The arrangement of a list numbered `k`; every arrangement has a number. -/
def arrange {α : Type} : Nat → List α → List α
  | _, [] => []
  | k, x :: l => insertAt x (arrange (k / (l.length + 1)) l) (k % (l.length + 1))

/-- Does `f` once for each of `l`, in an order the manual leaves open (`Config.freeOrder`); one or none leaves no
choice. -/
def State.inAnyOrder {α : Type} (s : State) (l : List α) (f : State → α → State) : State :=
  if l.length ≤ 1 then l.foldl f s
  else (arrange (Config.freeOrder s.choices) l).foldl f { s with choices := s.choices + 1 }

/-! ### The retained store (R176) -/

def State.markConfig (s : State) : State := { s with marks := { s.marks with config := true } }
def State.markAccounts (s : State) : State := { s with marks := { s.marks with accounts := true } }
def State.markQueues (s : State) : State := { s with marks := { s.marks with queues := true } }

/-- The copy a write fills: the one of the older generation (R176), but a copy whose check word does not match before a
sound one (log entry 35). -/
def Retained.writesFirst {α : Type} (r : Retained α) : Bool :=
  !r.first.sound || (r.second.sound && decide (r.first.generation ≤ r.second.generation))

/-- A write of the region: the older copy takes the whole contents and a generation one higher (R176). DESIGN CHOICE where
the unsound copy carries the higher count: one higher than the higher of the two counts, the unsound copy's included (log
entry 44). -/
def Retained.write {α : Type} (r : Retained α) (contents : α) : Retained α :=
  let copy : StoreCopy α :=
    { generation := max r.first.generation r.second.generation + 1, sound := true, contents := contents }
  if r.writesFirst then { r with first := copy } else { r with second := copy }

/-- The copy a write was filling has lost its check word: a power failure struck during the write (R176). -/
def Retained.spoil {α : Type} (r : Retained α) : Retained α :=
  if r.writesFirst then { r with first := { r.first with sound := false } }
  else { r with second := { r.second with sound := false } }

/-- A copy found unsound at a restart. -/
def Retained.damage {α : Type} (r : Retained α) (c : CopyName) : Retained α :=
  match c with
  | .first => { r with first := { r.first with sound := false } }
  | .second => { r with second := { r.second with sound := false } }

/-- The contents the check finds: of the copies whose check word matches, the one of higher generation (R176). -/
def Retained.found? {α : Type} (r : Retained α) : Option α :=
  match r.first.sound, r.second.sound with
  | true, true => some (if r.first.generation ≤ r.second.generation then r.second.contents else r.first.contents)
  | true, false => some r.first.contents
  | false, true => some r.second.contents
  | false, false => none

/-- The check of a region at a restart: SOUND, or RESTORED with both copies rewritten with the defaults (R176). -/
def Retained.checked {α : Type} (r : Retained α) (default : α) : Retained α :=
  match r.found? with
  | some _ => { r with state := .sound }
  | none => .rewritten default .restored

/-- The contents a region gives its blocks. -/
def Retained.contents {α : Type} (r : Retained α) (default : α) : α := r.found?.getD default

/-- The QUEUES contents a write stores: the working contents, but during the meter wait the stored interval, its
nomination and the swept entries are kept as power-on found them (R116). -/
def State.queuesImage (s : State) : QueuesRegion :=
  match s.esu.wait with
  | none => s.que
  | some w => { s.que with interval := w.stored, current := w.storedCurrent, swept := w.swept }

/-- The writes of an event: each marked region once, at the event's end; none after an accepted Factory Clear,
whose defaults stand until the restart (R176, R178). -/
def State.writeMarked (s : State) : State :=
  let store := if s.hlu.restartDue then s.store else
    { config := if s.marks.config then s.store.config.write s.cfg else s.store.config
      accounts := if s.marks.accounts then s.store.accounts.write s.acc else s.store.accounts
      queues := if s.marks.queues then s.store.queues.write s.queuesImage else s.store.queues }
  { s with store := store, marks := { config := false, accounts := false, queues := false } }

/-! ### Requests -/

/-- An answer without contents. -/
def Status.answer (c : Status) : Answer := { status := c, contents := [] }

/-- OK with contents. -/
def okWith (contents : List Byte) : Answer := { status := .ok, contents := contents }

/-- What an owner makes of a request: its answer and the state it leaves (R166 iii). -/
abbrev Served := Answer × State

/-- A refusal: the code, and nothing changed (section 10.3 (1)). -/
def refuse (s : State) (c : Status) : Served := (c.answer, s)

/-- OK without contents. -/
def done (s : State) : Served := (Status.ok.answer, s)

/-- The owner's answer handed to the HLU (R166 iii). -/
def Served.record (r : Served) : State := { r.2 with hlu := { r.2.hlu with answer := some r.1 } }

end Sys2Proof.Machine
end

