-- ==== Sys2Proof/Machine/Conditions.lean ====
section
/-! DEFINITION. The Condition Table (chapter 9): raises, cause ends, the acts of an event and how an event ends, the ALERT
and FAULT lines, and the owner's side of its requests. Place n of the manual is the index n - 1; place 128 is the
index 127. -/

namespace Sys2Proof.Machine

/-- The place kept for CONDITION_TABLE_FULL (section 9.2). -/
def fullPlace : Fin 128 := 127

def conditionTableFullKey : ConditionKey := { cls := .conditionTableFull, source := 1 }

/-- The place that holds the entry of a key. -/
def State.placeOf (s : State) (k : ConditionKey) : Option (Fin 128) :=
  (List.finRange 128).find? fun i => (s.conditions[i]).any fun e => decide (e.key = k)

/-- The entry of a key. -/
def State.entryOf (s : State) (k : ConditionKey) : Option ConditionEntry :=
  (s.placeOf k).bind fun i => s.conditions[i]

/-- The lowest-numbered free place of 1 to 127. -/
def State.freePlace (s : State) : Option (Fin 128) :=
  (List.finRange 128).find? fun i => decide (i ≠ fullPlace) && (s.conditions[i]).isNone

/-- The latch mode of a class, but for BOILER_TRIP, whose raise names it (section 9.1, R154). -/
def State.classLatch (s : State) : ConditionClass → LatchMode
  | .holderHighHigh => s.cfg.latchModes.highHigh
  | .holderLowLow => s.cfg.latchModes.lowLow
  | .pointFailed => s.cfg.latchModes.pointFailed
  | .boilerTrip | .boilerLockout | .meterJump | .settlementOverrun | .timeStep | .retainedStoreLost
  | .conditionTableFull => .latching
  | .plantReleaseLost | .steamOverLimit | .gasShortage | .heatShortfall | .substationEstimating
  | .sourceUnmeasured | .channelLost | .nominationMissing | .billQueueFull | .linkError => .selfClearing

/-- A new entry (R154 i). -/
def newEntry (k : ConditionKey) (mode : LatchMode) (now : Nat) : ConditionEntry :=
  { key := k, state := .active, latch := mode, notified := false, firstRaised := now, lastChange := now, raises := 1 }

/-- An entry raised again (R154 ii). -/
def ConditionEntry.raisedAgain (e : ConditionEntry) (mode : LatchMode) (now : Nat) : ConditionEntry :=
  { e with state := .active, notified := false, raises := min (e.raises + 1) 255, lastChange := now, latch := mode }

/-- CONDITION_TABLE_FULL is raised in place 128 (R155). -/
def State.raiseTableFull (s : State) : State :=
  let now := s.clock.reading
  match s.conditions[fullPlace] with
  | none => s.setPlace fullPlace (some (newEntry conditionTableFullKey .latching now))
  | some e => s.setPlace fullPlace (some (e.raisedAgain .latching now))

/-- A raise with the latch mode given (R154, R155). -/
def State.raiseWith (s : State) (k : ConditionKey) (mode : LatchMode) : State :=
  let now := s.clock.reading
  match s.placeOf k with
  | some i => s.setPlace i ((s.conditions[i]).map fun e => e.raisedAgain mode now)
  | none =>
    match s.freePlace with
    | some i => s.setPlace i (some (newEntry k mode now))
    | none => s.raiseTableFull

/-- A raise with the latch mode of its class (R154). -/
def State.raise (s : State) (c : ConditionClass) (source : Nat) : State :=
  s.raiseWith { cls := c, source := source } (s.classLatch c)

/-- CONDITION_TABLE_FULL's cause ends: an ACTIVE entry becomes LATCHED (R155, R156). -/
def State.endTableFull (s : State) : State :=
  match s.conditions[fullPlace] with
  | some e =>
    if e.state = .active then
      s.setPlace fullPlace (some { e with state := .latched, lastChange := s.clock.reading })
    else s
  | none => s

/-- The removal of an entry. Where places 1 to 127 were all occupied, the removal of an ordinary entry ends the
cause of CONDITION_TABLE_FULL (R155). -/
def State.removeEntry (s : State) (i : Fin 128) : State :=
  let s' := s.setPlace i none
  if i ≠ fullPlace ∧ s.freePlace.isNone then s'.endTableFull else s'

/-- The end of a cause (R156). -/
def State.endCause (s : State) (c : ConditionClass) (source : Nat) : State :=
  match s.placeOf { cls := c, source := source } with
  | none => s
  | some i =>
    match s.conditions[i] with
    | none => s
    | some e =>
      if e.state = .latched then s
      else if c = .meterJump then s.removeEntry i
      else if e.latch = .selfClearing ∧ e.notified then s.removeEntry i
      else s.setPlace i (some { e with state := .latched, lastChange := s.clock.reading })

/-- A condition whose cause ends at the event that raises it (R112, R174, R176). -/
def State.raiseAndEnd (s : State) (c : ConditionClass) (source : Nat) : State := (s.raise c source).endCause c source

/-! ### The acts of an event (R154)

The blocks tell the table what they raise and what has ended; the table acts at the end of the event. R154 leaves the
order of one event's raises open, so the acts are taken in a free order, but those on one key in the order the block told
them. Log entry 34. -/

/-- A block tells the table an act of the event in hand. -/
def State.tell (s : State) (a : ConditionAct) : State := { s with acts := s.acts ++ [a] }

/-- A raise with the latch mode of its class (R154). -/
def State.tellRaise (s : State) (c : ConditionClass) (source : Nat) : State :=
  s.tell (.raise { cls := c, source := source } (s.classLatch c))

/-- The end of a cause (R156). -/
def State.tellEnd (s : State) (c : ConditionClass) (source : Nat) : State :=
  s.tell (.endCause { cls := c, source := source })

/-- A raise whose cause ends at the same event (R112, R174, R176). -/
def State.tellReport (s : State) (c : ConditionClass) (source : Nat) : State :=
  s.tell (.report { cls := c, source := source })

def ConditionAct.key : ConditionAct → ConditionKey
  | .raise k _ | .endCause k | .report k => k

/-- The table carries out an act. -/
def State.takeAct (s : State) : ConditionAct → State
  | .raise k m => s.raiseWith k m
  | .endCause k => s.endCause k.cls k.source
  | .report k => s.raiseAndEnd k.cls k.source

/-- The acts in the order of a list of their keys: each key stands for its first act not yet taken. -/
def actsInOrder : List ConditionKey → List ConditionAct → List ConditionAct
  | [], _ => []
  | k :: keys, acts =>
    match acts.find? fun a => decide (a.key = k) with
    | none => actsInOrder keys acts
    | some a => a :: actsInOrder keys (acts.erase a)

/-- The table carries out the acts of an event, in a free order of their keys; one or none leaves no choice (R154). -/
def State.takeActs (s : State) : State :=
  if s.acts.length ≤ 1 then s.acts.foldl State.takeAct { s with acts := [] }
  else
    (actsInOrder (arrange (Config.freeOrder s.choices) (s.acts.map ConditionAct.key)) s.acts).foldl State.takeAct
      { s with acts := [], choices := s.choices + 1 }

/-- The entry of a key once the acts already told of it are carried out. -/
def State.entryAfterActs (s : State) (k : ConditionKey) : Option ConditionEntry :=
  ((s.acts.filter fun a => decide (a.key = k)).foldl State.takeAct s).entryOf k

/-! ### How an event is run -/

/-- The end of an event: the acts of the Condition Table, then the writes of the regions (R154, R176). -/
def State.endEvent (s : State) : State := s.takeActs.writeMarked

/-- A step of the running module. While it is dark or held in reset it does nothing (R176, R177). -/
def duringOperation (s : State) (f : State → State) : Host.Outcome State Fault Refusal :=
  .next (if s.running then (f s).endEvent else s)

/-- A request handed to its owner, at the event of its taking (R166). -/
def serveRequest (s : State) (owner : State → Served) : Host.Outcome State Fault Refusal :=
  duringOperation s fun s => (owner s).record

/-! ### The two lines (R160) -/

/-- The entries present, in place order. -/
def State.entries (s : State) : List ConditionEntry := s.conditions.toList.filterMap id

/-- The entries with notified no. -/
def State.waitingEntries (s : State) : List ConditionEntry := s.entries.filter fun e => !e.notified

/-- The level of ALERT: high while an entry waits to be fetched. -/
def State.alert (s : State) : Bool := !s.waitingEntries.isEmpty

/-- The fault mask enables a class. -/
def ConfigRegion.faultEnabled (c : ConfigRegion) (cls : ConditionClass) : Bool := c.faultMask.getLsbD (cls.number - 1)

/-- The level of FAULT: low while an ACTIVE entry's class is enabled in the fault mask. -/
def State.faultLine (s : State) : Bool :=
  !s.entries.any fun e => decide (e.state = .active) && s.cfg.faultEnabled e.key.cls

/-! ### Fetch Condition (R158) -/

/-- The entry of highest priority: lowest class number, then lowest source. -/
def ConditionEntry.precedes (a b : ConditionEntry) : Bool :=
  a.key.cls.number < b.key.cls.number || (a.key.cls.number == b.key.cls.number && a.key.source < b.key.source)

/-- The first entry of a list by priority. -/
def firstEntry : List ConditionEntry → Option ConditionEntry
  | [] => none
  | e :: l =>
    match firstEntry l with
    | none => some e
    | some f => some (if f.precedes e then f else e)

/-- A whole entry (section 9.2), in the order of its table. -/
def ConditionEntry.bytes (e : ConditionEntry) : List Byte :=
  field 1 e.key.cls.number ++ field 1 e.key.source ++ [e.state.code, e.latch.code] ++ flagByte e.notified ++
    field 4 e.firstRaised ++ field 4 e.lastChange ++ field 1 e.raises

/-- An entry handed over: notified, and removed if it is LATCHED and self-clearing (R158). -/
def State.fetchEntry (s : State) (e : ConditionEntry) : State :=
  match s.placeOf e.key with
  | none => s
  | some i =>
    if e.state = .latched ∧ e.latch = .selfClearing then s.removeEntry i
    else s.setPlace i (some { e with notified := true })

/-- The owner's side of Fetch Condition (R158). -/
def fetchConditionOwner (s : State) : Served :=
  match firstEntry s.waitingEntries with
  | none => refuse s .empty
  | some e =>
    let s' := s.fetchEntry e
    (okWith (e.bytes ++ field 1 s'.waitingEntries.length ++
      flagByte (decide (e.state = .latched ∧ e.latch = .selfClearing))), s')

/-! ### Read Conditions, Set Fault Mask, Set Latch Mode (R157, R160, R161) -/

/-- The occupied places from index `first` on, with their entries, in ascending order. -/
def State.occupiedFrom (s : State) (first : Nat) : List (Fin 128 × ConditionEntry) :=
  (List.finRange 128).filterMap fun i => if first ≤ i.val then (s.conditions[i]).map fun e => (i, e) else none

/-- The owner's side of Read Conditions (R161). The next read starts at the next occupied place (log entry 37). -/
def readConditionsOwner (first : Byte) (s : State) : Served :=
  match numbered 128 first with
  | none => refuse s .badField
  | some p =>
    let places := s.occupiedFrom p.val
    (okWith (field 1 s.entries.length ++ field 1 s.waitingEntries.length ++ flagByte s.alert ++ flagByte s.faultLine ++
      field 4 s.cfg.faultMask.toNat ++
      [s.cfg.latchModes.highHigh.code, s.cfg.latchModes.lowLow.code, s.cfg.latchModes.pointFailed.code] ++
      countedList (places.take 16) (fun x => numberByte x.1 ++ x.2.bytes) ++
      optionalItem 1 (places.drop 16).head? (fun x => numberByte x.1)), s)

/-- The owner's side of Set Fault Mask (R160): FAULT follows from the entries and the new mask. -/
def setFaultMaskOwner (mask : Word) (s : State) : Served :=
  if mask.toNat < 2 ^ 20 then
    done { s with cfg := { s.cfg with faultMask := mask.setWidth 20 } }.markConfig
  else refuse s .badField

/-- The latch modes with the mode of a class that has one of its own to set (R157). -/
def LatchModes.set? (m : LatchModes) (c : ConditionClass) (mode : LatchMode) : Option LatchModes :=
  match c with
  | .holderHighHigh => some { m with highHigh := mode }
  | .holderLowLow => some { m with lowLow := mode }
  | .pointFailed => some { m with pointFailed := mode }
  | _ => none

/-- The owner's side of Set Latch Mode (R157). -/
def setLatchModeOwner (cls mode : Byte) (s : State) : Served :=
  match readClass cls, readLatch mode with
  | some c, some m =>
    match s.cfg.latchModes.set? c m with
    | some modes => done { s with cfg := { s.cfg with latchModes := modes } }.markConfig
    | none => refuse s .badField
  | _, _ => refuse s .badField

/-! ### The meanings -/

/-- FETCH_CONDITION (R158). -/
def execFetchCondition (s : State) : Host.Outcome State Fault Refusal := serveRequest s fetchConditionOwner

/-- READ_CONDITIONS (R161). -/
def execReadConditions (first : Byte) (s : State) : Host.Outcome State Fault Refusal :=
  serveRequest s (readConditionsOwner first)

/-- SET_FAULT_MASK (R160). -/
def execSetFaultMask (mask : Word) (s : State) : Host.Outcome State Fault Refusal :=
  serveRequest s (setFaultMaskOwner mask)

/-- SET_LATCH_MODE (R157). -/
def execSetLatchMode (cls mode : Byte) (s : State) : Host.Outcome State Fault Refusal :=
  serveRequest s (setLatchModeOwner cls mode)

end Sys2Proof.Machine
end

