-- ==== Sys2Proof/Machine/Setpoint.lean ====
section
/-! DEFINITION. The Dispatcher's side of the sequencers' notices (R41, R57): the allocation table, and the
setpoint line with its transmit queue (R58, R180). -/

namespace Sys2Proof.Machine

/-- The fuel code of a setpoint frame: NONE 00h, GAS 01h, AUX 02h (R180). -/
def fuelCode : Option Fuel → Byte
  | none => 0
  | some .gas => 1
  | some .aux => 2

/-- The bytes of a setpoint frame that its CRC-8 covers. -/
def SetpointFrame.body (f : SetpointFrame) : List Byte :=
  numberByte f.boiler ++ [fuelCode f.fuel] ++ field 4 f.demand ++ wordBytes f.cycle

/-- The 12 bytes of a setpoint frame (R180). -/
def SetpointFrame.bytes (f : SetpointFrame) : List Byte := 0x5C :: (f.body ++ [crc8 f.body])

/-- A frame replaces a waiting frame for its boiler in its place, or waits behind the others (R58 (1)). -/
def joinWaiting (f : SetpointFrame) : List SetpointFrame → List SetpointFrame
  | [] => [f]
  | g :: l => if g.boiler = f.boiler then f :: l else g :: joinWaiting f l

/-- A setpoint frame is queued with the latest cycle number; it starts at once if the line is free (R58, R180). DESIGN
CHOICE: it then counts as being sent within the event that queues it, so that a second frame for its boiler at that event
waits behind it and does not replace it (log entry 45). -/
def State.queueFrame (s : State) (b : Boiler) (fuel : Option Fuel) (demand : Nat) : State :=
  let f : SetpointFrame := { boiler := b, fuel := fuel, demand := demand, cycle := s.dsp.cycle }
  match s.dsp.sending with
  | none => { s with dsp := { s.dsp with sending := some f } }
  | some _ => { s with dsp := { s.dsp with waiting := joinWaiting f s.dsp.waiting } }

/-- SETPOINT_FRAME_SENT: the frame being sent is out, and the next waiting one starts (R58 (1)). -/
def State.frameSent (s : State) : State :=
  match s.dsp.sending, s.dsp.waiting with
  | none, _ => s
  | some _, [] => { s with dsp := { s.dsp with sending := none } }
  | some _, f :: l => { s with dsp := { s.dsp with sending := some f, waiting := l } }

/-- A boiler's minimum firing m (R40). -/
def State.minimumFiring (s : State) (b : Boiler) : Nat := (s.cfg.boilers[b]).elim 0 (·.minimum)

/-- An allocation of one fuel alone. -/
def Allocation.only (f : Fuel) (x : Nat) : Allocation :=
  match f with
  | .gas => { gas := x, aux := 0, idle := 0 }
  | .aux => { gas := 0, aux := x, idle := 0 }

/-- An allocation with one fuel zeroed and the aux-idle count 0. -/
def Allocation.without (a : Allocation) (f : Fuel) : Allocation :=
  match f with
  | .gas => { a with gas := 0, idle := 0 }
  | .aux => { a with aux := 0, idle := 0 }

/-- Light-off started: that fuel, demand m (R57). -/
def State.noticeLightOffStarted (s : State) (b : Boiler) (f : Fuel) : State :=
  s.queueFrame b (some f) (s.minimumFiring b)

/-- Firing entered: the allocation of that fuel becomes m, the other stays 0, the count becomes 0 (R41 ii, R57). -/
def State.noticeFiringEntered (s : State) (b : Boiler) (f : Fuel) : State :=
  (s.setAllocation b (.only f (s.minimumFiring b))).queueFrame b (some f) (s.minimumFiring b)

/-- Firing left: the allocation of that fuel and the count become 0; frame NONE, 0 (R41 iii, R57). -/
def State.noticeFiringLeft (s : State) (b : Boiler) (f : Fuel) : State :=
  (s.setAllocation b ((s.dsp.allocations[b]).without f)).queueFrame b none 0

/-- Light-off ended without firing: frame NONE, 0 (R57). -/
def State.noticeLightOffEnded (s : State) (b : Boiler) : State := s.queueFrame b none 0

/-- SETPOINT_FRAME_SENT (R58). -/
def execSetpointFrameSent (s : State) : Host.Outcome State Fault Refusal := duringOperation s State.frameSent

end Sys2Proof.Machine
end

