-- ==== Sys2Proof/Machine/Boilers.lean ====
section
/-! DEFINITION. The boiler sequencers (chapter 4): commands, purge and light-off, changeover, the Dispatcher's
requests, status arrivals and point events, trips, standing causes and restart, PLANT RELEASE; and Clear
Condition (R159), whose removal of a BOILER_TRIP entry is an event at a sequencer (R82). -/

namespace Sys2Proof.Machine

/-! ### Permits and timers -/

/-- The boiler's source number (section 9.1). -/
def boilerSource (b : Boiler) : Nat := b.val + 1

/-- The other fuel. -/
def Fuel.other : Fuel → Fuel
  | .gas => .aux
  | .aux => .gas

/-- The firing state of a fuel. -/
def Fuel.firing : Fuel → BoilerState
  | .gas => .firingGas
  | .aux => .firingAux

/-- The active states (section 4.1). -/
def BoilerState.isActive : BoilerState → Bool
  | .purge | .lighting | .firingGas | .firingAux | .changeover => true
  | .off | .tripped | .lockedOut => false

/-- Every open permit closes; the last permit close is set if one was open (R63, R78, R85). -/
def State.closePermits (s : State) (b : Boiler) : State :=
  let q := s.boilers[b]
  if q.gasPermit || q.auxPermit then
    s.setBoiler b { q with gasPermit := false, auxPermit := false, lastClose := s.osc, lastCloseTime := s.clock.reading }
  else s

/-- The permit of a fuel opens. -/
def Sequencer.openPermit (q : Sequencer) (f : Fuel) : Sequencer :=
  match f with
  | .gas => { q with gasPermit := true }
  | .aux => { q with auxPermit := true }

/-- Every sequencer timer stops, and the phase, target fuel and awaiting mark are cleared (R63, R78). -/
def Sequencer.halted (q : Sequencer) : Sequencer :=
  { q with
    phase := none, target := none, awaiting := false, purgeDue := none, lightOffDue := none, confirmDue := none,
    deadDue := none }

/-- The notice of R57 for a boiler that leaves an active state for OFF, TRIPPED or LOCKED_OUT (R63, R78 ii). -/
def State.leaveNotice (s : State) (b : Boiler) (q : Sequencer) : State :=
  match q.state with
  | .firingGas => s.noticeFiringLeft b .gas
  | .firingAux => s.noticeFiringLeft b .aux
  | .lighting => s.noticeLightOffEnded b
  | .changeover => if q.phase = some .takeover then s.noticeLightOffEnded b else s
  | _ => s

/-- A controlled stop to OFF (R63). -/
def State.controlledStop (s : State) (b : Boiler) : State :=
  let old := s.boilers[b]
  let s := s.closePermits b
  (s.setBoiler b { (s.boilers[b]).halted with run := none, state := .off }).leaveNotice b old

/-- Entry to PURGE for a fuel: the timer runs toward the later of the purge time from now and the changeover
interval after the last permit close (R69). -/
def State.enterPurge (s : State) (b : Boiler) (f : Fuel) : State :=
  let q := s.boilers[b]
  match s.cfg.boilers[b] with
  | none => s
  | some c =>
    s.setBoiler b { q.halted with
      state := .purge, run := some f, purgeDue := some (max (s.osc + c.purge) (q.lastClose + c.interval)) }

/-! ### Trips (R78, R79) -/

/-- The restart mode of a boiler. -/
def State.restartMode (s : State) (b : Boiler) : RestartMode := (s.cfg.boilers[b]).elim .autoRestart (·.restart)

/-- The latch mode a restart mode gives BOILER_TRIP (R78 iv). -/
def RestartMode.latch : RestartMode → LatchMode
  | .autoRestart => .selfClearing
  | .latched => .latching

/-- BOILER_TRIP is raised for the boiler, with the latch mode its restart mode gives (R78 iv, R80). -/
def State.raiseTrip (s : State) (b : Boiler) : State :=
  s.tell (.raise { cls := .boilerTrip, source := boilerSource b } (s.restartMode b).latch)

/-- A trip: permits, timers, Dispatcher notice, records, BOILER_TRIP, and TRIPPED or LOCKED_OUT (R78, R79). -/
def State.trip (s : State) (b : Boiler) (cause : TripCause) : State :=
  let old := s.boilers[b]
  let s := s.closePermits b
  let q := s.boilers[b]
  let history := q.history ++ [{ second := s.osc, time := s.clock.reading }]
  let full := decide ((s.cfg.boilers[b]).elim 1 (·.tripLimit) ≤ history.length)
  let s := s.setBoiler b { q.halted with
    history := history, cause := some cause, marker := true,
    state := if full then .lockedOut else .tripped, run := if full then none else q.run }
  let s := (s.leaveNotice b old).raiseTrip b
  if full then s.tellRaise .boilerLockout (boilerSource b) else s

/-! ### Standing causes (R80 to R82) -/

/-- A standing cause is present: the status point unusable, TRIP_DEMAND indicated, or PLANT RELEASE low (R80). -/
def State.standingCause (s : State) (b : Boiler) : Bool :=
  match s.indicated (.boilerStatus b) with
  | none => true
  | some i => i.tripDemand || !s.plantRelease

/-- The boiler leaves TRIPPED for OFF with run request none (R81 i and ii, R82). -/
def State.release (s : State) (b : Boiler) : State :=
  s.setBoiler b { s.boilers[b] with state := .off, run := none }

/-- What follows in TRIPPED once the trip marker has cleared (R81, R82): a LATCHED-mode boiler is released where the end
of its cause leaves no entry. -/
def State.afterCause (s : State) (b : Boiler) : State :=
  match s.restartMode b with
  | .autoRestart =>
    match (s.boilers[b]).run with
    | none => s.release b
    | some f =>
      if (s.indicated (.boilerStatus b)).any (·.localControl) then s.release b else s.enterPurge b f
  | .latched =>
    if (s.entryAfterActs { cls := .boilerTrip, source := boilerSource b }).isNone then s.release b else s

/-- The trip marker clears and the cause of BOILER_TRIP ends (R68, R80). -/
def State.clearMarker (s : State) (b : Boiler) : State :=
  (s.setBoiler b { s.boilers[b] with marker := false }).tellEnd .boilerTrip (boilerSource b)

/-- A standing-cause evaluation, in TRIPPED and LOCKED_OUT (R80). -/
def State.evaluateCauses (s : State) (b : Boiler) : State :=
  let q := s.boilers[b]
  if q.state = .tripped ∨ q.state = .lockedOut then
    match q.marker, s.standingCause b with
    | true, false =>
      let s := s.clearMarker b
      if q.state = .tripped then s.afterCause b else s
    | false, true => (s.setBoiler b { q with marker := true }).raiseTrip b
    | _, _ => s
  else s

/-! ### Changeover (R71 to R74) -/

/-- The start of a changeover away from `old` (R71). -/
def State.startChangeover (s : State) (b : Boiler) (old : Fuel) : State :=
  let s := s.closePermits b
  let q := s.boilers[b]
  match s.cfg.boilers[b] with
  | none => s
  | some c =>
    let q := { q with state := .changeover, phase := some .dead, target := some old.other }
    let s := s.setBoiler b (match c.reference with
      | .fromCommand => { q with awaiting := false, deadDue := some (s.osc + c.interval) }
      | .fromConfirm => { q with awaiting := true, confirmDue := some (s.osc + Config.confirmLimit) })
    s.noticeFiringLeft b old

/-- The confirmation that the old fuel's valve has closed (R72 i). -/
def State.confirmChangeover (s : State) (b : Boiler) : State :=
  let interval := (s.cfg.boilers[b]).elim 0 (·.interval)
  s.setBoiler b { s.boilers[b] with confirmDue := none, awaiting := false, deadDue := some (s.osc + interval) }

/-- FIRING is entered from LIGHTING or phase TAKEOVER (R70 i, R74 i). -/
def State.enterFiring (s : State) (b : Boiler) (f : Fuel) : State :=
  (s.setBoiler b { (s.boilers[b]).halted with run := some f, state := f.firing }).noticeFiringEntered b f

/-- The indication of a fuel's valve closed (R72). -/
def Indications.valveClosed (i : Indications) : Fuel → Bool
  | .gas => i.gasClosed
  | .aux => i.auxClosed

/-! ### Arrivals, point events and requests (R75 to R77) -/

/-- A status arrival (R76). -/
def State.statusArrival (s : State) (b : Boiler) (i : Indications) : State :=
  let q := s.boilers[b]
  match q.state with
  | .off => s
  | .tripped | .lockedOut => s.evaluateCauses b
  | .purge => if i.tripDemand then s.trip b .tripDemand else s
  | .lighting =>
    if i.tripDemand then s.trip b .tripDemand
    else match q.run with
      | some f => if i.flame then s.enterFiring b f else s
      | none => s
  | .firingGas | .firingAux =>
    if i.tripDemand then s.trip b .tripDemand else if i.flame then s else s.trip b .flameLost
  | .changeover =>
    if i.tripDemand then s.trip b .tripDemand
    else match q.phase, q.target with
      | some .takeover, some f => if i.flame then s.enterFiring b f else s
      | some .dead, some f => if q.awaiting && i.valveClosed f.other then s.confirmChangeover b else s
      | _, _ => s

/-- The failed event of the status point (R77 i). -/
def State.statusFailed (s : State) (b : Boiler) : State :=
  if (s.boilers[b]).state.isActive then s.trip b .statusLost else s.evaluateCauses b

/-- The restored event of the status point (R77 ii). -/
def State.statusRestored (s : State) (b : Boiler) : State := s.evaluateCauses b

/-- Aux fuel is fitted to the boiler (R40). -/
def State.auxFitted (s : State) (b : Boiler) : Bool := (s.cfg.boilers[b]).any (·.auxFitted)

/-- A request of the Dispatcher, at its delivery (R75). -/
def State.takeRequest (s : State) (b : Boiler) (k : ShedKind) : State :=
  match k, (s.boilers[b]).state with
  | .shedShortage, .firingGas => if s.auxFitted b then s.startChangeover b .gas else s.controlledStop b
  | .shedSteam, .firingGas | .shedSteam, .firingAux => s.controlledStop b
  | .releaseAux, .firingAux => s.controlledStop b
  | .returnGas, .firingAux => s.startChangeover b .aux
  | _, _ => s

/-! ### Timers -/

/-- A timer kept as the second it expires at has run out. -/
def State.expired (s : State) (due : Option Nat) : Bool := due.any fun t => decide (t ≤ s.osc)

/-- The purge timer's expiry: LIGHTING (R69). -/
def State.purgeExpiry (s : State) (b : Boiler) : State :=
  let q := s.boilers[b]
  if q.state = .purge ∧ s.expired q.purgeDue then
    match q.run, s.cfg.boilers[b] with
    | some f, some c =>
      (s.setBoiler b ({ q with
        purgeDue := none, state := .lighting, lightOffDue := some (s.osc + c.lightOff) }.openPermit f)).noticeLightOffStarted b f
    | _, _ => s
  else s

/-- The light-off timer's expiry in LIGHTING or phase TAKEOVER (R70 iii, R74 iii). -/
def State.lightOffExpiry (s : State) (b : Boiler) : State :=
  let q := s.boilers[b]
  if (q.state = .lighting ∨ q.state = .changeover ∧ q.phase = some .takeover) ∧ s.expired q.lightOffDue then
    s.trip b .lightOffFailed
  else s

/-- The confirm timer's expiry while awaiting confirmation (R72 ii). -/
def State.confirmExpiry (s : State) (b : Boiler) : State :=
  let q := s.boilers[b]
  if q.state = .changeover ∧ q.phase = some .dead ∧ q.awaiting ∧ s.expired q.confirmDue then s.trip b .valveNotClosed
  else s

/-- The dead timer's expiry: phase TAKEOVER (R73). -/
def State.deadExpiry (s : State) (b : Boiler) : State :=
  let q := s.boilers[b]
  if q.state = .changeover ∧ q.phase = some .dead ∧ s.expired q.deadDue then
    match q.target, s.cfg.boilers[b] with
    | some f, some c =>
      (s.setBoiler b ({ q with
        deadDue := none, phase := some .takeover, lightOffDue := some (s.osc + c.lightOff) }.openPermit f)).noticeLightOffStarted b f
    | _, _ => s
  else s

/-- A trip history entry's age has reached the trip window. -/
def State.aged (s : State) (window : Nat) (e : TripEntry) : Bool := decide (e.second + window ≤ s.osc)

/-- The oldest trip history entry reaches the trip window and leaves the history (R79). -/
def State.tripAgeing (s : State) (b : Boiler) : State :=
  let q := s.boilers[b]
  match q.history, s.cfg.boilers[b] with
  | e :: rest, some c => if s.aged c.window e then s.setBoiler b { q with history := rest } else s
  | _, _ => s

/-! ### PLANT RELEASE (R83, R84) -/

/-- A sequencer at the fall of PLANT RELEASE (R83). -/
def State.releaseLost (s : State) (b : Boiler) : State :=
  if (s.boilers[b]).state.isActive then s.trip b .releaseLost else s.evaluateCauses b

/-- The fall of PLANT RELEASE at the running module: PLANT_RELEASE_LOST, and every sequencer that is not OFF (R83, R84). -/
def State.releaseFall (s : State) : State :=
  (s.tellRaise .plantReleaseLost 1).inAnyOrder
    ((List.finRange 8).filter fun b => decide ((s.boilers[b]).state ≠ .off)) State.releaseLost

/-- The rise of PLANT RELEASE at the running module (R83, R84). -/
def State.releaseRise (s : State) : State :=
  (List.finRange 8).foldl State.evaluateCauses (s.tellEnd .plantReleaseLost 1)

/-! ### Boiler Command (R64 to R68) -/

/-- A start is held back by the plant around the boiler (R65, LOCKED). -/
def State.startLocked (s : State) (b : Boiler) : Bool :=
  !s.plantRelease ||
    (match s.indicated (.boilerStatus b) with
      | none => true
      | some i => i.localControl || i.tripDemand) ||
    (decide (s.restartMode b = .latched) && (s.entryOf { cls := .boilerTrip, source := boilerSource b }).isSome)

/-- START_GAS and START_AUX at the boiler's sequencer (R65), with the refusals in the order of R64. -/
def State.startBoiler (s : State) (b : Boiler) (f : Fuel) : Served :=
  if (s.cfg.boilers[b]).isNone then refuse s .notFound
  else if (s.boilers[b]).state ≠ .off then refuse s .busy
  else if f = .aux ∧ ¬ s.auxFitted b then refuse s .badField
  else if s.startLocked b then refuse s .locked
  else done (s.enterPurge b f)

/-- A command for the boiler numbered `v`; BAD_FIELD for a number outside 1 to 8 (R64). -/
def forBoiler (s : State) (v : Byte) (f : Boiler → Served) : Served :=
  match numbered 8 v with
  | none => refuse s .badField
  | some b => f b

def startGasOwner (boiler : Byte) (s : State) : Served := forBoiler s boiler fun b => s.startBoiler b .gas

def startAuxOwner (boiler : Byte) (s : State) : Served := forBoiler s boiler fun b => s.startBoiler b .aux

/-- STOP (R66). -/
def stopOwner (boiler : Byte) (s : State) : Served :=
  forBoiler s boiler fun b =>
    if (s.boilers[b]).state.isActive then done (s.controlledStop b)
    else if (s.boilers[b]).state = .tripped then done (s.setBoiler b { s.boilers[b] with run := none })
    else done s

/-- CHANGEOVER (R67). -/
def changeoverOwner (boiler : Byte) (s : State) : Served :=
  forBoiler s boiler fun b =>
    match (s.boilers[b]).state with
    | .firingGas => if s.auxFitted b then done (s.startChangeover b .gas) else refuse s .badField
    | .firingAux => done (s.startChangeover b .aux)
    | _ => refuse s .busy

/-- RESET_LOCKOUT (R68). -/
def resetLockoutOwner (boiler : Byte) (s : State) : Served :=
  forBoiler s boiler fun b =>
    if (s.boilers[b]).state ≠ .lockedOut then refuse s .busy
    else if s.standingCause b then refuse s .stillPresent
    else
      let marked := (s.boilers[b]).marker
      let s := (s.setBoiler b { s.boilers[b] with history := [], state := .off, run := none }).tellEnd .boilerLockout (boilerSource b)
      done (if marked then s.clearMarker b else s)

/-! ### Read Boiler (R86) -/

/-- The figures of Configure Boiler after the boiler number (12.2). -/
def BoilerConfig.bytes (c : BoilerConfig) : List Byte :=
  field 4 c.minimum ++ field 4 c.maximum ++ field 4 c.ramp ++ field 2 c.yield ++ flagByte c.auxFitted ++
    field 2 c.purge ++ field 1 c.lightOff ++ field 1 c.interval ++ [c.reference.code] ++ field 4 c.window ++
    field 1 c.tripLimit ++ [c.restart.code]

/-- The seconds remaining on a timer, or an indication that it is stopped. -/
def State.remainingBytes (s : State) (due : Option Nat) : List Byte :=
  optionalItem 4 due fun t => field 4 (t - s.osc)

/-- The owner's side of Read Boiler (R86). Whether the boiler is configured is a byte of its own, before the one presence
byte of the figures (log entry 32). DESIGN CHOICE: a permit output, open or closed in the manual, is sent as a flag or line
level, 01h open and 00h closed (log entry 41). -/
def readBoilerOwner (boiler : Byte) (s : State) : Served :=
  forBoiler s boiler fun b =>
    let q := s.boilers[b]
    let window := (s.cfg.boilers[b]).elim 0 (·.window)
    (okWith (flagByte (s.cfg.boilers[b]).isSome ++ optionalItem 26 (s.cfg.boilers[b]) BoilerConfig.bytes ++
      [q.state.code] ++ codeOrNone q.phase Phase.code ++ codeOrNone q.target Fuel.code ++ flagByte q.awaiting ++
      codeOrNone q.run Fuel.code ++ flagByte q.gasPermit ++ flagByte q.auxPermit ++
      s.remainingBytes q.purgeDue ++ s.remainingBytes q.lightOffDue ++ s.remainingBytes q.confirmDue ++
      s.remainingBytes q.deadDue ++
      countedList q.history (fun e => field 4 e.time ++ field 4 (e.second + window - s.osc)) ++
      codeOrNone q.cause TripCause.code ++ flagByte q.marker ++ flagByte (s.standingCause b) ++
      field 4 q.lastCloseTime ++ flagByte s.plantRelease), s)

/-! ### Configure Boiler (R40, R62) -/

/-- The figures of Configure Boiler within the ranges of R40. -/
def readBoilerFigures (f : RawBoiler) : Option BoilerConfig :=
  match readYesNo f.auxFitted, readReference f.reference, readRestart f.restart with
  | some aux, some ref, some mode =>
    let m := f.minimum.toNat
    let top := f.maximum.toNat
    if 1 ≤ m ∧ m ≤ 2000000 ∧ m ≤ top ∧ top ≤ 2000000 ∧ 1 ≤ f.ramp.toNat ∧ f.ramp.toNat ≤ top ∧
        500 ≤ f.yield.toNat ∧ f.yield.toNat ≤ 950 ∧ 30 ≤ f.purge.toNat ∧ f.purge.toNat ≤ 600 ∧
        5 ≤ f.lightOff.toNat ∧ f.lightOff.toNat ≤ 60 ∧ 2 ≤ f.interval.toNat ∧ f.interval.toNat ≤ 30 ∧
        600 ≤ f.window.toNat ∧ f.window.toNat ≤ 86400 ∧ 1 ≤ f.tripLimit.toNat ∧ f.tripLimit.toNat ≤ 5 then
      some { minimum := m, maximum := top, ramp := f.ramp.toNat, yield := f.yield.toNat, auxFitted := aux,
             purge := f.purge.toNat, lightOff := f.lightOff.toNat, interval := f.interval.toNat, reference := ref,
             window := f.window.toNat, tripLimit := f.tripLimit.toNat, restart := mode }
    else none
  | _, _, _ => none

/-- The trip history under new figures: aged entries leave, then the oldest until one fewer than the limit
remains (R62). -/
def State.trimmedHistory (s : State) (c : BoilerConfig) (h : List TripEntry) : List TripEntry :=
  let young := h.filter fun e => !s.aged c.window e
  if c.tripLimit ≤ young.length then young.drop (young.length - (c.tripLimit - 1)) else young

/-- The owner's side of Configure Boiler (R40, R62). -/
def configureBoilerOwner (f : RawBoiler) (s : State) : Served :=
  match numbered 8 f.boiler, readBoilerFigures f with
  | some b, some c =>
    let q := s.boilers[b]
    if q.state ≠ .off then refuse s .busy
    else
      let s := { s with cfg := { s.cfg with boilers := s.cfg.boilers.set b (some c) } }
      done (s.setBoiler b { q with history := s.trimmedHistory c q.history }).markConfig
  | _, _ => refuse s .badField

/-! ### Clear Condition (R159, R82) -/

/-- The removal of a BOILER_TRIP entry releases a LATCHED-mode boiler that is TRIPPED (R82). -/
def State.entryCleared (s : State) (k : ConditionKey) : State :=
  if k.cls = .boilerTrip then
    match numbered 8 (BitVec.ofNat 8 k.source) with
    | some b => if (s.boilers[b]).state = .tripped ∧ s.restartMode b = .latched then s.release b else s
    | none => s
  else s

/-- The owner's side of Clear Condition, with its outcomes in the order of R159. -/
def clearConditionOwner (cls source : Byte) (s : State) : Served :=
  match readClass cls with
  | none => refuse s .badField
  | some c =>
    if source = 0 ∨ c.lastSource < source.toNat ∨ c = .meterJump then refuse s .badField
    else
      let k : ConditionKey := { cls := c, source := source.toNat }
      match s.placeOf k, s.entryOf k with
      | some i, some e =>
        if e.state = .active then refuse s .stillPresent else done ((s.removeEntry i).entryCleared k)
      | _, _ => refuse s .notFound

/-! ### The meanings -/

/-- PURGE_EXPIRY (R69). -/
def execPurgeExpiry (b : Boiler) (s : State) : Host.Outcome State Fault Refusal := duringOperation s (·.purgeExpiry b)

/-- LIGHT_OFF_EXPIRY (R70, R74). -/
def execLightOffExpiry (b : Boiler) (s : State) : Host.Outcome State Fault Refusal :=
  duringOperation s (·.lightOffExpiry b)

/-- CONFIRM_EXPIRY (R72). -/
def execConfirmExpiry (b : Boiler) (s : State) : Host.Outcome State Fault Refusal :=
  duringOperation s (·.confirmExpiry b)

/-- DEAD_EXPIRY (R73). -/
def execDeadExpiry (b : Boiler) (s : State) : Host.Outcome State Fault Refusal := duringOperation s (·.deadExpiry b)

/-- TRIP_HISTORY_AGEING_EXPIRY (R79). -/
def execTripHistoryAgeingExpiry (b : Boiler) (s : State) : Host.Outcome State Fault Refusal :=
  duringOperation s (·.tripAgeing b)

/-- PLANT_RELEASE_FALL (R83, R84): the input goes low; the running module acts. -/
def execPlantReleaseFall (s : State) : Host.Outcome State Fault Refusal :=
  if s.plantRelease then duringOperation { s with plantRelease := false } State.releaseFall else .next s

/-- PLANT_RELEASE_RISE (R83, R84): the input goes high; the running module acts. -/
def execPlantReleaseRise (s : State) : Host.Outcome State Fault Refusal :=
  if s.plantRelease then .next s else duringOperation { s with plantRelease := true } State.releaseRise

/-- CONFIGURE_BOILER (R40, R62). -/
def execConfigureBoiler (f : RawBoiler) (s : State) : Host.Outcome State Fault Refusal :=
  serveRequest s (configureBoilerOwner f)

/-- START_GAS (R65). -/
def execStartGas (boiler : Byte) (s : State) : Host.Outcome State Fault Refusal := serveRequest s (startGasOwner boiler)

/-- START_AUX (R65). -/
def execStartAux (boiler : Byte) (s : State) : Host.Outcome State Fault Refusal := serveRequest s (startAuxOwner boiler)

/-- STOP (R66). -/
def execStop (boiler : Byte) (s : State) : Host.Outcome State Fault Refusal := serveRequest s (stopOwner boiler)

/-- CHANGEOVER (R67). -/
def execChangeover (boiler : Byte) (s : State) : Host.Outcome State Fault Refusal :=
  serveRequest s (changeoverOwner boiler)

/-- RESET_LOCKOUT (R68). -/
def execResetLockout (boiler : Byte) (s : State) : Host.Outcome State Fault Refusal :=
  serveRequest s (resetLockoutOwner boiler)

/-- READ_BOILER (R86). -/
def execReadBoiler (boiler : Byte) (s : State) : Host.Outcome State Fault Refusal :=
  serveRequest s (readBoilerOwner boiler)

/-- CLEAR_CONDITION (R159). -/
def execClearCondition (cls source : Byte) (s : State) : Host.Outcome State Fault Refusal :=
  serveRequest s (clearConditionOwner cls source)

end Sys2Proof.Machine
end

