-- ==== Sys2Proof/Machine/Gas.lean ====
section
/-! DEFINITION. The Gas Account (chapter 2): sources, the figures request, the holder and its limit detectors,
and the HIGH_HIGH and LOW_LOW events it sends the Dispatcher (R53, R56). -/

namespace Sys2Proof.Machine

/-! ### Sources (R22 to R25) -/

/-- The source's number as a condition source. -/
def gasSourceNumber (n : GasSource) : Nat := n.val + 1

/-- Both points of a source are usable. -/
def State.sourceMeasured (s : State) (n : GasSource) : Bool := s.usable (.sourceFlow n) && s.usable (.sourceCv n)

/-- The unmeasured flag is set and SOURCE_UNMEASURED raised, where the flag is clear (R25). -/
def State.findUnmeasured (s : State) (n : GasSource) : State :=
  if s.gas.unmeasured[n] then s else (s.setUnmeasured n true).tellRaise .sourceUnmeasured (gasSourceNumber n)

/-- The unmeasured flag clears and the cause of SOURCE_UNMEASURED ends, where the flag is set (R25). -/
def State.clearUnmeasured (s : State) (n : GasSource) : State :=
  if s.gas.unmeasured[n] then (s.setUnmeasured n false).tellEnd .sourceUnmeasured (gasSourceNumber n) else s

/-- A failed event of a source's flow or CV point (R25). -/
def State.sourceFailed (s : State) (n : GasSource) : State :=
  if s.cfg.sources[n] = .inService then s.findUnmeasured n else s

/-- A restored event of a source's flow or CV point (R25). -/
def State.sourceRestored (s : State) (n : GasSource) : State := if s.sourceMeasured n then s.clearUnmeasured n else s

def State.setSource (s : State) (n : GasSource) (x : SourceSetting) : State :=
  { s with cfg := { s.cfg with sources := s.cfg.sources.set n x } }.markConfig

/-- The owner's side of Configure Source (R22). -/
def configureSourceOwner (source definition : Byte) (s : State) : Served :=
  match numbered 6 source, readDefined definition with
  | some n, some define =>
    match s.cfg.sources[n], define with
    | .notDefined, true => done (s.setSource n .outOfService)
    | .notDefined, false => done s
    | _, true => done s
    | _, false => done ((s.setSource n .notDefined).clearUnmeasured n)
  | _, _ => refuse s .badField

/-- The owner's side of Set Source Service (R23). -/
def setSourceServiceOwner (source service : Byte) (s : State) : Served :=
  match numbered 6 source, readService service with
  | some n, some serve =>
    match s.cfg.sources[n], serve with
    | .notDefined, _ => refuse s .notFound
    | .inService, true | .outOfService, false => done s
    | .inService, false => done ((s.setSource n .outOfService).clearUnmeasured n)
    | .outOfService, true =>
      let s := s.setSource n .inService
      done (if s.sourceMeasured n then s else s.findUnmeasured n)
  | _, _ => refuse s .badField

/-! ### The figures (R24, R26 to R28, R35) -/

/-- A value limited to 0 to `top`. -/
def limited (v : Int) (top : Nat) : Nat := min v.toNat top

/-- A source's flow or the works' flow is limited to 500,000 m³/h, a calorific value to 40,000 kJ/m³ (R24). -/
def flowLimit : Nat := 500000
def cvLimit : Nat := 40000

/-- The standing of a source at a figures request (R24, R35). -/
def State.standing (s : State) (n : GasSource) : SourceStanding :=
  match s.cfg.sources[n] with
  | .notDefined => .notDefined
  | .outOfService => .outOfService
  | .inService => if s.sourceMeasured n then .counted else .unmeasured

/-- E_s of a source in kW (R24). -/
def State.sourceEnergy (s : State) (n : GasSource) : Nat :=
  if s.standing n = .counted then
    limited ((s.measured (.sourceFlow n)).getD 0) flowLimit * limited ((s.measured (.sourceCv n)).getD 0) cvLimit / 3600
  else 0

/-- CVn (R26 i). -/
def State.networkCvNow (s : State) : Nat :=
  match s.measured .networkCv with
  | some v => limited v cvLimit
  | none => s.cfg.cvDefault

/-- The works draw W (R26 ii). -/
def State.worksDraw (s : State) : Nat :=
  match s.measured .worksFlow with
  | some v => limited v flowLimit * s.networkCvNow / 3600
  | none => s.cfg.drawFallback

/-- The holder level L while it is usable: the point's value limited to 0 to the capacity (R28). -/
def State.holderLevel (s : State) : Option Nat :=
  match s.cfg.holder, s.measured .holderLevel with
  | some h, some v => some (limited v h.capacity)
  | _, _ => none

/-- The holder position (R28). -/
def State.holderPosition (s : State) : HolderPosition :=
  match s.cfg.holder, s.holderLevel with
  | some h, some l => if h.bandHigh < l then .above else if l < h.bandLow then .below else .inBand
  | _, _ => .levelFailed

/-- The holder correction C in kW, rounded down in size before its sign is applied (R28). -/
def State.holderCorrection (s : State) : Int :=
  match s.cfg.holder, s.holderLevel with
  | some h, some l =>
    if h.bandHigh < l then ((l - h.bandHigh) * s.networkCvNow / h.recovery : Nat)
    else if l < h.bandLow then -((h.bandLow - l) * s.networkCvNow / h.recovery : Nat)
    else 0
  | _, _ => 0

/-- HH_ACTIVE and LL_ACTIVE hold while the detector is ACTIVE or DISARMING (R30). -/
def DetectorCell.limitActive (d : DetectorCell) : Bool := decide (d.state = .active ∨ d.state = .disarming)

/-- The figures given to the Dispatcher (R35). -/
def State.gasFigures (s : State) : GasFigures :=
  let energies := Vector.ofFn fun n => s.sourceEnergy n
  let total := energies.toList.sum
  { energies := energies
    standings := Vector.ofFn fun n => s.standing n
    sourceEnergy := total
    networkCv := s.networkCvNow
    cvDefault := (s.measured .networkCv).isNone
    draw := s.worksDraw
    drawFallback := (s.measured .worksFlow).isNone
    surplus := total - s.worksDraw
    level := s.holderLevel
    position := s.holderPosition
    correction := s.holderCorrection
    highHigh := s.gas.highHigh.limitActive
    lowLow := s.gas.lowLow.limitActive
    inForce := s.cfg.thresholds }

/-- What a figures request makes of a source's unmeasured flag and its condition (R25). -/
def State.figuresSource (s : State) (n : GasSource) : State :=
  match s.standing n with
  | .unmeasured => s.findUnmeasured n
  | .counted => s.clearUnmeasured n
  | .outOfService | .notDefined => s

/-- What a figures request makes of the six flags (R25). -/
def State.figuresRequest (s : State) : State := (List.finRange 6).foldl State.figuresSource s

/-! ### Limit detection (R30 to R33) -/

/-- The thresholds of the set in force. -/
def HolderFigures.inForce (h : HolderFigures) : ThresholdSet → Thresholds
  | .normal => h.normal
  | .reduced => h.reduced

/-- The entering test of a detector on a level (R30). -/
def enteringTest (h : HolderFigures) (set : ThresholdSet) (d : Detector) (l : Nat) : Bool :=
  match d with
  | .highHigh => decide ((h.inForce set).high ≤ l)
  | .lowLow => decide (l ≤ (h.inForce set).low)

/-- The leaving test of a detector on a level (R30). -/
def leavingTest (h : HolderFigures) (set : ThresholdSet) (d : Detector) (l : Nat) : Bool :=
  match d with
  | .highHigh => decide (l + h.hysteresis < (h.inForce set).high)
  | .lowLow => decide ((h.inForce set).low + h.hysteresis < l)

def GasAccount.cell (g : GasAccount) : Detector → DetectorCell
  | .highHigh => g.highHigh
  | .lowLow => g.lowLow

def GasAccount.setCell (g : GasAccount) (d : Detector) (x : DetectorCell) : GasAccount :=
  match d with
  | .highHigh => { g with highHigh := x }
  | .lowLow => { g with lowLow := x }

/-- A detector at a level arrival (R30). -/
def DetectorCell.arrival (x : DetectorCell) (entering leaving : Bool) (due : Nat) : DetectorCell :=
  match x.state with
  | .clear => if entering then { state := .arming, due := some due } else x
  | .arming => if entering then x else { state := .clear, due := none }
  | .active => if leaving then { state := .disarming, due := some due } else x
  | .disarming => if leaving then x else { state := .active, due := none }

/-- A detector at a re-evaluation, each filter restarting (R33). -/
def DetectorCell.reevaluated (x : DetectorCell) (entering leaving : Bool) (due : Nat) : DetectorCell :=
  match x.state with
  | .clear | .arming => if entering then { state := .arming, due := some due } else { state := .clear, due := none }
  | .active | .disarming => if leaving then { state := .disarming, due := some due } else { state := .active, due := none }

/-- A detector frozen at its limit state (R32). -/
def DetectorCell.frozen (x : DetectorCell) : DetectorCell :=
  match x.state with
  | .clear | .arming => { state := .clear, due := none }
  | .active | .disarming => { state := .active, due := none }

/-- Both detectors tested on a level, by a rule for one detector (R30, R33). -/
def State.testDetectors (s : State) (h : HolderFigures) (l : Nat)
    (rule : DetectorCell → Bool → Bool → Nat → DetectorCell) : State :=
  let test (d : Detector) : DetectorCell :=
    rule (s.gas.cell d) (enteringTest h s.cfg.thresholds d l) (leavingTest h s.cfg.thresholds d l) (s.osc + h.filter)
  { s with gas := { s.gas with highHigh := test .highHigh, lowLow := test .lowLow } }

/-- A level arrival; one at a holder that is not configured is ignored (R30). -/
def State.levelArrival (s : State) (v : Int) : State :=
  match s.cfg.holder with
  | none => s
  | some h => s.testDetectors h (limited v h.capacity) .arrival

/-- The re-evaluation of both detectors; they stay as they are while the level is unusable (R33). -/
def State.reevaluate (s : State) : State :=
  match s.cfg.holder, s.holderLevel with
  | some h, some l => s.testDetectors h l .reevaluated
  | _, _ => s

/-- The level has become unusable (R32). -/
def State.levelFailed (s : State) : State :=
  { s with gas := { s.gas with highHigh := s.gas.highHigh.frozen, lowLow := s.gas.lowLow.frozen } }

/-- The condition class of a detector (R31). -/
def limitClass : Detector → ConditionClass
  | .highHigh => .holderHighHigh
  | .lowLow => .holderLowLow

/-- The HH event: the actual flare stages become 4 (R53). The LL event: SHED_SHORTAGE to every boiler in
FIRING_GAS (R56). -/
def State.limitEvent (s : State) : Detector → State
  | .highHigh => { s with dsp := { s.dsp with flareStages := 4 } }
  | .lowLow =>
    s.inAnyOrder ((List.finRange 8).filter fun b => decide ((s.boilers[b]).state = .firingGas))
      fun s b => s.takeRequest b .shedShortage

/-- A filter timer's expiry (R31). -/
def State.filterExpiry (s : State) (d : Detector) : State :=
  let x := s.gas.cell d
  if s.expired x.due then
    match x.state with
    | .arming =>
      let s := { s with gas := s.gas.setCell d { state := .active, due := none } }
      (s.tellRaise (limitClass d) 1).limitEvent d
    | .disarming =>
      let s := { s with gas := s.gas.setCell d { state := .clear, due := none } }
      s.tellEnd (limitClass d) 1
    | _ => s
  else s

/-! ### Configure Holder and Select Holder Limits (R29, R33) -/

/-- Thresholds that R29 takes: LL below HH, HH within the capacity, twice the hysteresis less than their gap. -/
def Thresholds.fit (t : Thresholds) (capacity hysteresis : Nat) : Bool :=
  decide (t.low < t.high ∧ t.high ≤ capacity ∧ 2 * hysteresis < t.high - t.low)

/-- The holder figures of a request within the ranges and relations of R29. -/
def readHolderFigures (f : RawHolder) : Option HolderFigures :=
  let h : HolderFigures :=
    { capacity := f.capacity.toNat, bandLow := f.bandLow.toNat, bandHigh := f.bandHigh.toNat,
      recovery := f.recovery.toNat, normal := { low := f.normalLow.toNat, high := f.normalHigh.toNat },
      reduced := { low := f.reducedLow.toNat, high := f.reducedHigh.toNat }, hysteresis := f.hysteresis.toNat,
      filter := f.filter.toNat }
  if 1 ≤ h.capacity ∧ h.capacity ≤ 1000000 ∧ h.bandLow < h.bandHigh ∧ h.bandHigh ≤ h.capacity ∧
      60 ≤ h.recovery ∧ h.recovery ≤ 3600 ∧ 1 ≤ h.hysteresis ∧ h.hysteresis ≤ 10000 ∧ 1 ≤ h.filter ∧ h.filter ≤ 60 ∧
      h.normal.fit h.capacity h.hysteresis ∧ h.reduced.fit h.capacity h.hysteresis then some h
  else none

/-- The owner's side of Configure Holder (R29). -/
def configureHolderOwner (f : RawHolder) (s : State) : Served :=
  let draw := f.drawFallback.toNat
  let cv := f.cvDefault.toNat
  match readHolderFigures f with
  | none => refuse s .badField
  | some h =>
    if draw ≤ 2000000 ∧ 1 ≤ cv ∧ cv ≤ 40000 then
      done ({ s with cfg := { s.cfg with holder := some h, drawFallback := draw, cvDefault := cv } }.markConfig).reevaluate
    else refuse s .badField

/-- The owner's side of Select Holder Limits (R33). -/
def selectHolderLimitsOwner (set : Byte) (s : State) : Served :=
  match readSet set with
  | none => refuse s .badField
  | some t =>
    if t = s.cfg.thresholds then done s
    else done ({ s with cfg := { s.cfg with thresholds := t } }.markConfig).reevaluate

/-! ### The meanings -/

/-- FILTER_EXPIRY (R31). -/
def execFilterExpiry (d : Detector) (s : State) : Host.Outcome State Fault Refusal := duringOperation s (·.filterExpiry d)

/-- CONFIGURE_SOURCE (R22). -/
def execConfigureSource (source definition : Byte) (s : State) : Host.Outcome State Fault Refusal :=
  serveRequest s (configureSourceOwner source definition)

/-- SET_SOURCE_SERVICE (R23). -/
def execSetSourceService (source service : Byte) (s : State) : Host.Outcome State Fault Refusal :=
  serveRequest s (setSourceServiceOwner source service)

/-- CONFIGURE_HOLDER (R29). -/
def execConfigureHolder (f : RawHolder) (s : State) : Host.Outcome State Fault Refusal :=
  serveRequest s (configureHolderOwner f)

/-- SELECT_HOLDER_LIMITS (R33). -/
def execSelectHolderLimits (set : Byte) (s : State) : Host.Outcome State Fault Refusal :=
  serveRequest s (selectHolderLimitsOwner set)

end Sys2Proof.Machine
end

