-- ==== Sys2Proof/Machine/Calendar.lean ====
section
/-! DEFINITION. The Gregorian calendar of section 6 (4) of chapter 0, local dates and times, day types and band
lookups (R139), settlement boundaries (R89) and scheduled close times (R141). -/

namespace Sys2Proof.Machine

/-- A year divisible by 4, except one divisible by 100 and not by 400. -/
def isLeap (year : Nat) : Bool := year % 4 == 0 && (year % 100 != 0 || year % 400 == 0)

def daysInYear (year : Nat) : Nat := if isLeap year then 366 else 365

def daysInMonth (year month : Nat) : Nat :=
  if month = 2 then (if isLeap year then 29 else 28)
  else if month = 4 ∨ month = 6 ∨ month = 9 ∨ month = 11 then 30 else 31

/-- The month and day that lie `n` days after the first of `month`, walking `fuel` months at most. -/
def walkMonths (year : Nat) : Nat → Nat → Nat → Nat × Nat
  | 0, month, n => (month, n + 1)
  | fuel + 1, month, n =>
    if n < daysInMonth year month then (month, n + 1) else walkMonths year fuel (month + 1) (n - daysInMonth year month)

/-- The date that lies `n` days after the first of January of `year`, walking `fuel` years at most. -/
def walkYears : Nat → Nat → Nat → Date
  | 0, year, n => let md := walkMonths year 11 1 n; { year := year, month := md.1, day := md.2 }
  | fuel + 1, year, n =>
    if n < daysInYear year then let md := walkMonths year 11 1 n; { year := year, month := md.1, day := md.2 }
    else walkYears fuel (year + 1) (n - daysInYear year)

/-- The local day, counted from 2000-01-01. -/
def localDay (t : Int) : Int := t / 86400

/-- The local date of local time `t`. The offset reaches back into 1999 at most, so the walk starts there. -/
def localDate (t : Int) : Date := walkYears 140 1999 (localDay t + 365).toNat

/-- The second of the local day. -/
def secondOfDay (t : Int) : Nat := (t % 86400).toNat

/-- The local hour, 0 to 23. -/
def localHour (t : Int) : Nat := secondOfDay t / 3600

/-- The weekday, Monday 0 to Sunday 6, 2000-01-01 being a Saturday (R139 i). -/
def weekday (t : Int) : Nat := ((localDay t + 5) % 7).toNat

/-- A date of the calendar from 2000-01-01 to 2135-12-31 (R138). -/
def Date.isReal (d : Date) : Bool :=
  2000 ≤ d.year && d.year ≤ 2135 && 1 ≤ d.month && d.month ≤ 12 && 1 ≤ d.day && d.day ≤ daysInMonth d.year d.month

/-- Dates in order of the calendar. -/
def Date.before (a b : Date) : Bool :=
  a.year < b.year || (a.year == b.year && (a.month < b.month || (a.month == b.month && a.day < b.day)))

/-- WORKDAY or REST (R139 i). -/
inductive DayType where
  | workday
  | rest
deriving DecidableEq, Repr

/-- The day type of local time `t`: REST if its weekday is in the rest-day mask or its date in the holiday list. -/
def ConfigRegion.dayType (c : ConfigRegion) (t : Int) : DayType :=
  if c.restMask.getLsbD (weekday t) || decide (localDate t ∈ c.holidays) then .rest else .workday

/-- The tariff group of a substation; one that is not configured uses group 1 (R139 ii, R144). -/
def ConfigRegion.groupOf (c : ConfigRegion) (k : Substation) : Fin 4 := (c.substations[k].map (·.group)).getD 0

/-- The band of the current table for substation `k` at local time `t` (R139). -/
def ConfigRegion.bandAt (c : ConfigRegion) (k : Substation) (t : Int) : Fin 4 :=
  let g := c.tariff.groups[c.groupOf k]
  let hour : Fin 24 := Fin.ofNat 24 (localHour t)
  match c.dayType t with
  | .workday => g.workday[hour]
  | .rest => g.rest[hour]

/-! ### Settlement boundaries (R89) -/

/-- The settlement interval length in seconds. -/
def ConfigRegion.intervalSeconds (c : ConfigRegion) : Nat := 60 * c.contract.length

/-- Local time at clock second `t` lies a whole number of interval lengths after a local midnight. Every
allowed length divides a day, so this is a whole number of lengths from local 2000-01-01 00:00:00. DESIGN CHOICE: a second above the last
clock reading can be a boundary (log entry 48). -/
def State.isBoundary (s : State) (t : Int) : Bool := (t + 60 * s.clock.offset) % s.cfg.intervalSeconds == 0

/-- The boundary at or before clock second `t`. -/
def State.boundaryAtOrBefore (s : State) (t : Int) : Int := t - (t + 60 * s.clock.offset) % s.cfg.intervalSeconds

/-- The first boundary after clock second `t`. -/
def State.boundaryAfter (s : State) (t : Int) : Int := s.boundaryAtOrBefore t + s.cfg.intervalSeconds

/-! ### Scheduled close times (R141) -/

/-- The local times at which the close day and hour of `tariff` come, in the `fuel` months from the first of
`month` of `year`, whose first day is `day` days after 2000-01-01. -/
def closeTimesFrom (tariff : Tariff) : Nat → Nat → Nat → Int → List Int
  | 0, _, _, _ => []
  | fuel + 1, year, month, day =>
    (86400 * (day + tariff.closeDay - 1) + 3600 * tariff.closeHour) ::
      (if month = 12 then closeTimesFrom tariff fuel (year + 1) 1 (day + 31)
       else closeTimesFrom tariff fuel year (month + 1) (day + daysInMonth year month))

/-- Every scheduled close time a local time can reach, in order: January 1999 to December 2136. -/
def closeTimes (tariff : Tariff) : List Int := closeTimesFrom tariff 1656 1999 1 (-365)

/-- The scheduled close times after the close mark and at or before local time `now` (R141). -/
def dueCloses (tariff : Tariff) (mark now : Int) : List Int :=
  (closeTimes tariff).filter fun t => decide (mark < t ∧ t ≤ now)

end Sys2Proof.Machine
end

