-- ==== Sys2Proof/Machine/Billing.lean ====
section
/-! DEFINITION. Tariffs, billing periods and bills (chapter 8). -/

namespace Sys2Proof.Machine

/-! ### Stage Tariff, Cancel Staged Tariff, Set Holidays (R136 to R138) -/

/-- A vector of a list's entries, where the list has the right length. -/
def vectorOf {α : Type} (n : Nat) (l : List α) : Option (Vector α n) :=
  if h : l.length = n then some ⟨l.toArray, by simpa using h⟩ else none

/-- A schedule of 24 band numbers, each 1 to 4. -/
def readSchedule (l : List Byte) : Option (Vector (Fin 4) 24) := (l.mapM (numbered 4)).bind (vectorOf 24)

/-- A price list of four prices, each at most 1,000,000. -/
def readPrices (l : List Word) : Option (Vector Nat 4) :=
  if l.all fun p => decide (p.toNat ≤ 1000000) then vectorOf 4 (l.map BitVec.toNat) else none

/-- One tariff group within the ranges of R136. -/
def readGroup (g : RawGroup) : Option GroupTariff :=
  match readSchedule g.workday, readSchedule g.rest, readPrices g.recovered, readPrices g.auxiliary with
  | some w, some r, some p, some q =>
    if g.standing.toNat ≤ 100000000 then
      some { workday := w, rest := r, recovered := p, auxiliary := q, standing := g.standing.toNat }
    else none
  | _, _, _, _ => none

/-- A tariff table within the ranges of R136. -/
def readTariff (t : RawTariff) : Option Tariff :=
  match readGroup t.group1, readGroup t.group2, readGroup t.group3, readGroup t.group4 with
  | some a, some b, some c, some d =>
    if 1 ≤ t.closeDay.toNat ∧ t.closeDay.toNat ≤ 28 ∧ t.closeHour.toNat ≤ 23 then
      some { groups := #v[a, b, c, d], closeDay := t.closeDay.toNat, closeHour := t.closeHour.toNat }
    else none
  | _, _, _, _ => none

/-- The owner's side of Stage Tariff (R136). -/
def stageTariffOwner (table : RawTariff) (s : State) : Served :=
  match readTariff table with
  | none => refuse s .badField
  | some t => done { s with cfg := { s.cfg with pendingTariff := some t } }.markConfig

/-- The owner's side of Cancel Staged Tariff (R137). -/
def cancelStagedTariffOwner (s : State) : Served :=
  match s.cfg.pendingTariff with
  | none => refuse s .notFound
  | some _ => done { s with cfg := { s.cfg with pendingTariff := none } }.markConfig

def RawDate.date (d : RawDate) : Date := { year := d.year.toNat, month := d.month.toNat, day := d.day.toNat }

/-- Dates in strictly ascending order. -/
def ascendingDates : List Date → Bool
  | a :: b :: l => a.before b && ascendingDates (b :: l)
  | _ => true

/-- The owner's side of Set Holidays (R138); bit 7 of the mask is ignored (R179 ii). -/
def setHolidaysOwner (mask : Byte) (dates : List RawDate) (s : State) : Served :=
  let l := dates.map RawDate.date
  if l.length ≤ 32 ∧ l.all Date.isReal ∧ ascendingDates l then
    done { s with cfg := { s.cfg with restMask := mask.setWidth 7, holidays := l } }.markConfig
  else refuse s .badField

/-! ### Accumulator sets (section 8.2) -/

/-- The energy of a band that counts in the net energy. -/
def BandFigures.net (b : BandFigures) : Int := b.recovered + b.auxiliary + b.reconciled

/-- The net energy of a set (section 8.2 (2)). -/
def AccumulatorSet.net (x : AccumulatorSet) : Int := (x.bands.toList.map BandFigures.net).sum

/-- A set has activity: some rec, aux, est or recon figure or its rejected kWh is not 0 (R143). -/
def AccumulatorSet.isActive (x : AccumulatorSet) : Bool :=
  decide (x.rejected ≠ 0) || x.bands.toList.any fun b =>
    decide (b.recovered ≠ 0 ∨ b.auxiliary ≠ 0 ∨ b.estimated ≠ 0 ∨ b.reconciled ≠ 0)

/-- The fields of a set in a reply: the bill's from the first period to the flags, but the total, then the periods
covered (R179 iv). -/
def AccumulatorSet.bytes (x : AccumulatorSet) : List Byte :=
  field 4 x.first ++ field 4 (x.last.getD 0) ++ timeField 4 (x.start.getD 0) ++ timeField 4 (x.finish.getD 0) ++
    (x.bands.toList.flatMap fun b =>
      field 4 b.recovered ++ field 4 b.auxiliary ++ field 4 b.estimated ++ signedField 4 b.reconciled ++
        signedField 8 b.charge) ++
    field 4 x.rejected ++ field 8 x.standing ++ [x.flags.byte] ++ field 4 x.covered

/-! ### Pricing and merging (R144, R145) -/

/-- A quotient rounded half away from zero (section 6 of chapter 0, R144). -/
def roundHalfAway (n : Int) (d : Nat) : Int := n.sign * ((2 * n.natAbs + d) / (2 * d) : Nat)

/-- A band with its charge (R144 i): reconciled heat is priced at the recovered price. -/
def BandFigures.priced (b : BandFigures) (recovered auxiliary : Nat) : BandFigures :=
  { b with charge := roundHalfAway (b.recovered * recovered + b.auxiliary * auxiliary + b.reconciled * recovered) 1000 }

/-- A set priced at a close of `k` periods, the period number before it being `p` (R144). -/
def AccumulatorSet.priced (x : AccumulatorSet) (g : GroupTariff) (k p : Nat) (finish : Int) (dispute : Bool) :
    AccumulatorSet :=
  { x with
    bands := Vector.ofFn fun i => (x.bands[i]).priced g.recovered[i] g.auxiliary[i]
    standing := k * g.standing
    covered := k
    last := some (p + k - 1)
    finish := some finish
    flags := { x.flags with
      disputeOpen := x.flags.disputeOpen || dispute
      merged := x.flags.merged || decide (1 < k) } }

def BandFigures.plus (a b : BandFigures) : BandFigures :=
  { recovered := a.recovered + b.recovered, auxiliary := a.auxiliary + b.auxiliary,
    estimated := a.estimated + b.estimated, reconciled := a.reconciled + b.reconciled, charge := a.charge + b.charge }

/-- A priced set added to a closing set (R145 ii). -/
def AccumulatorSet.merge (old new : AccumulatorSet) : AccumulatorSet :=
  { bands := Vector.ofFn fun i => (old.bands[i]).plus new.bands[i]
    rejected := old.rejected + new.rejected
    first := old.first
    last := new.last
    start := old.start
    finish := new.finish
    covered := old.covered + new.covered
    standing := old.standing + new.standing
    flags := { old.flags.join new.flags with merged := true } }

/-! ### The close (R143 to R146) -/

/-- A substation takes part in a close (R143). -/
def State.takesPart (s : State) (k : Substation) : Bool :=
  decide ((s.acc.meters[k]).state = .inService ∨ (s.acc.meters[k]).state = .estimating) ||
    (s.acc.ledgers[k]).current.isActive

/-- A substation's ledger after a close of `n` periods that ends at the clock second `finish` (R143 to R145). -/
def State.closedLedger (s : State) (k : Substation) (n : Nat) (finish : Int) : Ledger :=
  let l := s.acc.ledgers[k]
  let p := s.acc.period
  let opened := AccumulatorSet.opened (some finish) (p + n)
  if s.takesPart k then
    let priced := l.current.priced s.cfg.tariff.groups[s.cfg.groupOf k] n p finish (s.acc.meters[k]).pendingMark.isSome
    { l with
      current := opened
      closing := some (match l.closing with
        | none => priced
        | some old => old.merge priced) }
  else { l with current := opened }

/-- The pending table and the staged groups come into force (R146 i and ii). -/
def State.takeStaged (s : State) : State :=
  { s with cfg := { s.cfg with
    tariff := s.cfg.pendingTariff.getD s.cfg.tariff
    pendingTariff := none
    substations := s.cfg.substations.map fun x => x.map fun c => { c with group := c.staged } } }

/-- One close of `n` periods that ends at local time `finish` (R144 to R146, without the bills). DESIGN CHOICE: past
4,294,967,295 the period number counts on (log entry 49). -/
def State.closePeriods (s : State) (n : Nat) (finish : Int) : State :=
  let reading := finish - 60 * s.clock.offset
  let ledgers := Vector.ofFn fun k => s.closedLedger k n reading
  let staged := s.takeStaged
  let s := if staged.cfg = s.cfg then s else staged.markConfig
  { s with
    acc := { s.acc with ledgers := ledgers, period := s.acc.period + n, closeMark := some finish }
    bu := { s.bu with closedNow := true } }.markAccounts

/-! ### Bills (R148 to R151) -/

/-- The bill queue's places (section 8.4 (2)). -/
def billPlaces : Nat := 96

/-- The lowest-numbered substation that holds a closing set. -/
def State.firstClosing (s : State) : Option Substation :=
  (List.finRange 48).find? fun k => (s.acc.ledgers[k]).closing.isSome

/-- The account number on a bill (section 8.4 (1)); free for a substation that is not configured. -/
def State.billAccount (s : State) (k : Substation) : Nat :=
  match s.cfg.substations[k] with
  | some c => c.account
  | none => (Config.unconfiguredAccount s.choices).toNat

/-- The bill formed from a closing set (R148). -/
def State.formBill (s : State) (k : Substation) (x : AccumulatorSet) : Bill :=
  { sequence := s.que.nextBill
    substation := k
    account := s.billAccount k
    first := x.first
    last := x.last.getD 0
    start := x.start.getD 0
    finish := x.finish.getD 0
    bands := x.bands
    rejected := x.rejected
    standing := x.standing
    total := (x.bands.toList.map (·.charge)).sum + x.standing
    flags := x.flags }

/-- The marker of R149 clears and the cause of BILL_QUEUE_FULL ends, at an issue after which no closing set remains. -/
def State.afterIssue (s : State) : State :=
  if s.bu.queueFull ∧ s.firstClosing.isNone then
    { s with bu := { s.bu with queueFull := false } }.tellEnd .billQueueFull 1
  else s

/-- A closing set of substation `k` is issued as a bill (R148). -/
def State.issueBill (s : State) (k : Substation) (x : AccumulatorSet) : State :=
  let bill := s.formBill k x
  let l := s.acc.ledgers[k]
  let s := if (s.cfg.substations[k]).isNone then { s with choices := s.choices + 1 } else s
  let s := s.setLedger k { l with closing := none, issued := l.issued + BitVec.ofInt 64 x.net }
  ({ s with que := { s.que with
    bills := s.que.bills ++ [bill], nextBill := s.que.nextBill + 1 } }).markQueues.markAccounts.afterIssue

/-- Bills are issued while the queue has room and a closing set remains; each issue uses one of 48 sets (R148). -/
def State.issueBills : Nat → State → State
  | 0, s => s
  | fuel + 1, s =>
    if s.que.bills.length < billPlaces then
      match s.firstClosing with
      | none => s
      | some k =>
        match (s.acc.ledgers[k]).closing with
        | none => s
        | some x => issueBills fuel (s.issueBill k x)
    else s

/-- A run of issuing (R148). -/
def State.runIssue (s : State) : State := s.issueBills 48

/-- BILL_QUEUE_FULL, at the end of a close's issuing and of the issuing at power-on (R149, R152). -/
def State.evaluateQueueFull (s : State) : State :=
  if s.firstClosing.isSome ∧ ¬ s.bu.queueFull then
    { s with bu := { s.bu with queueFull := true } }.tellRaise .billQueueFull 1
  else s

/-- A whole close (R144 to R146, R148, R149). -/
def State.closeWith (s : State) (n : Nat) (finish : Int) : State := (s.closePeriods n finish).runIssue.evaluateQueueFull

/-- One close for the scheduled close times after the close mark and at or before the present local time (R141). -/
def State.scheduledClose (s : State) : State :=
  match s.acc.closeMark with
  | none => s
  | some mark =>
    match (dueCloses s.cfg.tariff mark s.clock.localTime).getLast? with
    | none => s
    | some finish => s.closeWith (dueCloses s.cfg.tariff mark s.clock.localTime).length finish

/-- The close count is reckoned (R141): one close if it is 1 or more, and one more if the close schedule which that
close brought into force has a close time after its end (R146). -/
def State.reckonCloses (s : State) : State := if s.clock.valid then s.scheduledClose.scheduledClose else s

/-- The owner's side of Close Period Now (R142). -/
def closePeriodNowOwner (s : State) : Served :=
  if s.bu.closedNow then refuse s .busy else done (s.closeWith 1 s.clock.localTime)

/-- A bill of 142 bytes (12.6). -/
def Bill.bytes (b : Bill) : List Byte :=
  wordBytes b.sequence ++ numberByte b.substation ++ field 4 b.account ++ field 4 b.first ++ field 4 b.last ++
    timeField 4 b.start ++ timeField 4 b.finish ++
    (b.bands.toList.flatMap fun x =>
      field 4 x.recovered ++ field 4 x.auxiliary ++ field 4 x.estimated ++ signedField 4 x.reconciled ++
        signedField 8 x.charge) ++
    field 4 b.rejected ++ field 8 b.standing ++ signedField 8 b.total ++ [b.flags.byte]

/-- The owner's side of Fetch Bill (R150). -/
def fetchBillOwner (s : State) : Served :=
  match s.que.bills with
  | [] => refuse s .empty
  | b :: _ => (okWith b.bytes, s)

/-- The owner's side of Release Bill (R151). -/
def releaseBillOwner (sequence : Word) (s : State) : Served :=
  match s.que.bills with
  | [] => refuse s .empty
  | b :: rest =>
    if b.sequence = sequence then done ({ s with que := { s.que with bills := rest } }.markQueues).runIssue
    else refuse s .badField

/-! ### Power-on (R152, R153) -/

/-- A fresh ACCOUNTS region gets its start times, and its close mark while the clock is VALID (R153 i). DESIGN CHOICE: so does
an older sound copy that was written before the first Set Time and holds no close mark (log entry 42). -/
def State.openAccounts (s : State) : State :=
  let opened (l : Ledger) : Ledger :=
    { l with current := { l.current with start := some (l.current.start.getD s.clock.reading) } }
  let mark := if s.clock.valid then some (s.acc.closeMark.getD s.clock.localTime) else s.acc.closeMark
  let acc := { s.acc with ledgers := s.acc.ledgers.map opened, closeMark := mark }
  if acc = s.acc then s else { s with acc := acc }.markAccounts

/-- The BU at a restart (R152). -/
def State.billingRestart (s : State) : State := s.openAccounts.reckonCloses.runIssue.evaluateQueueFull

/-- The BU when Set Time makes the clock VALID: the close mark becomes the new local time (R141). -/
def State.billingStart (s : State) : State :=
  { s with acc := { s.acc with closeMark := some s.clock.localTime } }.markAccounts

/-! ### The meanings -/

/-- CLOSE_EXPIRY (R141). -/
def execCloseExpiry (s : State) : Host.Outcome State Fault Refusal := duringOperation s State.reckonCloses

/-- SET_HOLIDAYS (R138). -/
def execSetHolidays (mask : Byte) (dates : List RawDate) (s : State) : Host.Outcome State Fault Refusal :=
  serveRequest s (setHolidaysOwner mask dates)

/-- STAGE_TARIFF (R136). -/
def execStageTariff (table : RawTariff) (s : State) : Host.Outcome State Fault Refusal :=
  serveRequest s (stageTariffOwner table)

/-- CANCEL_STAGED_TARIFF (R137). -/
def execCancelStagedTariff (s : State) : Host.Outcome State Fault Refusal := serveRequest s cancelStagedTariffOwner

/-- CLOSE_PERIOD_NOW (R142). -/
def execClosePeriodNow (s : State) : Host.Outcome State Fault Refusal := serveRequest s closePeriodNowOwner

/-- FETCH_BILL (R150). -/
def execFetchBill (s : State) : Host.Outcome State Fault Refusal := serveRequest s fetchBillOwner

/-- RELEASE_BILL (R151). -/
def execReleaseBill (sequence : Word) (s : State) : Host.Outcome State Fault Refusal :=
  serveRequest s (releaseBillOwner sequence)

end Sys2Proof.Machine
end

