-- ==== Sys2Proof/Machine/Export.lean ====
section
/-! DEFINITION. Export nominations and curtailment (chapter 5): the contract, the nomination queue, missing
intervals, curtailment orders and the effective export limit. What opens and closes an interval is in
`Settlement`. -/

namespace Sys2Proof.Machine

/-! ### The open interval and the QUEUES region -/

/-- The QUEUES contents change; the region is written at a change (section 5.3, 5.4, 6.1, 6.3). -/
def State.setQueues (s : State) (q : QueuesRegion) : State := if q = s.que then s else { s with que := q }.markQueues

/-- The open interval's accumulators change (section 6.1). -/
def State.setInterval (s : State) (iv : OpenInterval) : State := s.setQueues { s.que with interval := some iv }

/-- The nomination queue changes (section 5.3). -/
def State.setNominations (s : State) (l : List Nomination) : State := s.setQueues { s.que with nominations := l }

/-! ### The effective export limit (R101, R109) -/

/-- The slots of the curtailment table that hold an order. -/
def State.ordersHeld (s : State) : List (CurtailmentSlot × CurtailmentOrder) :=
  (List.finRange 8).filterMap fun n => (s.que.orders[n]).map fun o => (n, o)

/-- The slot of the ACTIVE order. -/
def State.activeSlot (s : State) : Option CurtailmentSlot :=
  (s.ordersHeld.find? fun x => decide (x.2.state = .active)).map (·.1)

/-- The smaller of the contract limit and the limit of the ACTIVE order (R101). -/
def State.limitNow (s : State) : Nat :=
  match (s.ordersHeld.find? fun x => decide (x.2.state = .active)).map (·.2) with
  | some o => min s.cfg.contract.limit o.limit
  | none => s.cfg.contract.limit

/-- The open interval's part in a publication (R109). -/
def State.curtail (s : State) (iv : OpenInterval) (limit : Nat) : State :=
  let lowest := min iv.minLimit limit
  if limit < s.cfg.contract.limit then
    { s with esu := { s.esu with curtailedSince := some (s.esu.curtailedSince.getD s.osc) } }.setInterval
      { iv with minLimit := lowest }
  else
    let seconds := s.esu.curtailedSince.elim 0 (s.osc - ·)
    { s with esu := { s.esu with curtailedSince := none } }.setInterval
      { iv with minLimit := lowest, curtailed := iv.curtailed + seconds }

/-- The effective export limit is worked out afresh and published (R101). -/
def State.publishLimit (s : State) : State :=
  let limit := s.limitNow
  let s := { s with esu := { s.esu with effLimit := limit } }
  match s.que.interval with
  | some iv => s.curtail iv limit
  | none => s

/-! ### Missing intervals (R93) -/

/-- The gate lead in seconds. -/
def State.leadSeconds (s : State) : Nat := 60 * s.cfg.contract.lead

/-- The queue holds an entry for an interval. -/
def State.nominated (s : State) (start : Int) : Bool := s.que.nominations.any fun n => decide ((n.start : Int) = start)

/-- The starts of the intervals after the open one whose gates are at or before the present second. -/
def State.gatedStarts (s : State) : List Int :=
  let horizon := (s.clock.reading : Int) + s.leadSeconds
  let length := s.cfg.intervalSeconds
  if s.esu.intervalEnd ≤ horizon then
    (List.range ((horizon - s.esu.intervalEnd) / length + 1).toNat).map fun (k : Nat) => s.esu.intervalEnd + k * length
  else []

/-- The starts of the missing intervals, earliest first, by R93's three bullets. DESIGN CHOICE: an interval that was missing
and whose gate lies after the present second again (a backward clock step, a shorter gate lead) is missing no longer, though
R93 also has it stay missing until it closes (log entry 40). -/
def State.missingStarts (s : State) : List Int :=
  match s.que.interval with
  | none => []
  | some iv =>
    (if iv.start - s.leadSeconds ≤ s.clock.reading ∧ s.que.current = none then [iv.start] else []) ++
      s.gatedStarts.filter fun t => !s.nominated t

/-- The reckoning of the missing intervals (R93, log entry 40). -/
def State.reckonMissing (s : State) : State :=
  match s.esu.missing, s.missingStarts.isEmpty with
  | false, false => { s with esu := { s.esu with missing := true } }.tellRaise .nominationMissing 1
  | true, true => { s with esu := { s.esu with missing := false } }.tellEnd .nominationMissing 1
  | _, _ => s

/-- The gate timer runs and expires now: this second is one gate lead before the start of an interval after the
open one (R93 (1)). -/
def State.gateDue (s : State) : Bool :=
  let start := (s.clock.reading : Int) + s.leadSeconds
  s.clock.valid && s.que.interval.isSome && decide (s.esu.intervalEnd ≤ start) && s.isBoundary start

/-- A gate expiry (R93). -/
def State.gateExpiry (s : State) : State := if s.gateDue then s.reckonMissing else s

/-! ### Set Export Contract (R88) -/

/-- The figures of Set Export Contract within their ranges. -/
def readContract (limit : Word) (length lead : Byte) : Option Contract :=
  if limit.toNat ≤ 2000000 ∧ (length = 5 ∨ length = 15 ∨ length = 30 ∨ length = 60) ∧ lead.toNat ≤ 120 then
    some { limit := limit.toNat, length := length.toNat, lead := lead.toNat }
  else none

/-- A new contract in force: the limit published, the open interval's end moved by a new length, the missing
intervals reckoned (R88 i to iii). -/
def State.takeContract (s : State) (c : Contract) : State :=
  let newLength := decide (c.length ≠ s.cfg.contract.length)
  let s := if c = s.cfg.contract then s else { s with cfg := { s.cfg with contract := c } }.markConfig
  let s := s.publishLimit
  let s := if newLength ∧ s.que.interval.isSome then
      { s with esu := { s.esu with intervalEnd := s.boundaryAfter s.clock.reading } }
    else s
  s.reckonMissing

/-- The owner's side of Set Export Contract (R88). -/
def setExportContractOwner (limit : Word) (length lead : Byte) (s : State) : Served :=
  match readContract limit length lead with
  | none => refuse s .badField
  | some c =>
    if c.length ≠ s.cfg.contract.length ∧ ¬ s.que.nominations.isEmpty then refuse s .busy
    else done (s.takeContract c)

/-! ### The nomination queue (R91, R92, R94) -/

/-- The gate of an interval is at or before the present second, or the clock is INVALID. -/
def State.tooLate (s : State) (start : Nat) : Bool :=
  !s.clock.valid || decide ((start : Int) - s.leadSeconds ≤ s.clock.reading)

/-- A nomination at its place in ascending order of start; one for the same start is replaced (R91). -/
def placeNomination (n : Nomination) : List Nomination → List Nomination
  | [] => [n]
  | m :: l =>
    if n.start < m.start then n :: m :: l
    else if n.start = m.start then n :: l
    else m :: placeNomination n l

/-- The owner's side of Submit Nomination, with its outcomes in the order of R91. DESIGN CHOICE: a submission for the open
interval's own start, its gate again to come after small backward steps, is queued (log entry 39), and a start above the
last clock reading counts as a boundary (log entry 48). -/
def submitNominationOwner (start energy : Word) (s : State) : Served :=
  let n : Nomination := { start := start.toNat, energy := energy.toNat }
  if 1000000 < n.energy ∨ ¬ s.isBoundary n.start then refuse s .badField
  else if s.tooLate n.start then refuse s .tooLate
  else if s.nominated n.start ∨ s.que.nominations.length < 96 then
    done (s.setNominations (placeNomination n s.que.nominations))
  else refuse s .full

/-- The owner's side of Withdraw Nomination, with its outcomes in the order of R92. DESIGN CHOICE: a request that names the
current nomination is answered by these outcomes also where they differ from R92's last sentence, which has it TOO_LATE:
NOT_FOUND where its gate is again to come after small backward steps, BAD_FIELD where a new interval length or local offset
has taken the open interval's start off the grid (log entry 39). -/
def withdrawNominationOwner (start : Word) (s : State) : Served :=
  let t := start.toNat
  if ¬ s.isBoundary t then refuse s .badField
  else if s.tooLate t then refuse s .tooLate
  else if s.nominated t then done (s.setNominations (s.que.nominations.filter fun n => decide (n.start ≠ t)))
  else refuse s .notFound

/-- The start of the interval whose gate comes next, after the present second (R93, R94). -/
def State.nextGated (s : State) : Option Int :=
  if s.clock.valid ∧ s.que.interval.isSome then
    some (max s.esu.intervalEnd (s.boundaryAfter (s.clock.reading + s.leadSeconds)))
  else none

/-- The owner's side of Read Nominations (R94). -/
def readNominationsOwner (s : State) : Served :=
  (okWith (field 4 s.cfg.contract.limit ++ field 1 s.cfg.contract.length ++ field 1 s.cfg.contract.lead ++
    flagByte s.clock.valid ++
    optionalItem 8 s.que.interval (fun iv => timeField 4 iv.start ++ timeField 4 s.esu.intervalEnd) ++
    optionalItem 4 s.que.current (field 4) ++
    countedList s.que.nominations (fun n => field 4 n.start ++ field 4 n.energy) ++
    optionalItem 8 s.nextGated (fun t => timeField 4 (t - s.leadSeconds) ++ timeField 4 t) ++
    field 1 s.missingStarts.length ++ optionalItem 4 s.missingStarts.head? (timeField 4)), s)

/-! ### Curtailment orders (R95 to R100, R102) -/

/-- Another order's part in an emergency start (R96 i and ii). -/
def CurtailmentOrder.setAside (o : CurtailmentOrder) : Option CurtailmentOrder :=
  match o.state, o.kind with
  | .active, .ordinary => some { o with state := .suspended }
  | .active, .emergency => none
  | _, _ => some o

/-- Every order held is kept changed, or removed. -/
def State.mapOrders (s : State) (f : CurtailmentOrder → Option CurtailmentOrder) : State :=
  { s with que := { s.que with orders := s.que.orders.map fun o => Option.bind o f } }

/-- The order in a slot with a new state. -/
def State.orderBecomes (s : State) (n : CurtailmentSlot) (x : OrderState) : State :=
  s.setOrder n ((s.que.orders[n]).map fun o => { o with state := x })

/-- The start of an EMERGENCY order (R96). -/
def State.emergencyStart (s : State) (n : CurtailmentSlot) : State :=
  ((s.mapOrders CurtailmentOrder.setAside).orderBecomes n .active).markQueues.publishLimit

/-- The start of an ORDINARY order (R97). -/
def State.ordinaryStart (s : State) (n : CurtailmentSlot) : State :=
  (s.orderBecomes n (if s.activeSlot.isNone then .active else .waiting)).markQueues.publishLimit

/-- The order has a start to come: it is PENDING. -/
def CurtailmentOrder.startPassed (o : CurtailmentOrder) (now : Nat) : Bool :=
  decide (o.state = .pending ∧ o.start ≤ now)

/-- The order's end is not OPEN and is at or before `now`. -/
def CurtailmentOrder.endPassed (o : CurtailmentOrder) (now : Nat) : Bool := o.finish.any fun t => decide (t ≤ now)

/-- The start of the order in a slot, by its kind. -/
def State.takeStart (s : State) (n : CurtailmentSlot) : State :=
  match s.que.orders[n] with
  | none => s
  | some o =>
    match o.kind with
    | .emergency => s.emergencyStart n
    | .ordinary => s.ordinaryStart n

/-- The WAITING order of earliest start, lowest slot first among equals (R98 iii). -/
def firstWaiting : List (CurtailmentSlot × CurtailmentOrder) → Option (CurtailmentSlot × CurtailmentOrder)
  | [] => none
  | x :: l =>
    match firstWaiting l with
    | none => if x.2.state = .waiting then some x else none
    | some y => if x.2.state = .waiting ∧ x.2.start ≤ y.2.start then some x else some y

/-- The choice of the next ACTIVE order (R98 ii to iv). -/
def State.chooseActive (s : State) : State :=
  match s.ordersHeld.find? fun x => decide (x.2.state = .suspended) with
  | some x => s.orderBecomes x.1 .active
  | none =>
    match firstWaiting s.ordersHeld with
    | some x => s.orderBecomes x.1 .active
    | none => s

/-- The set-aside orders whose end has passed are removed on the way; not while the clock is INVALID (R98 i, R100). -/
def State.dropPassed (s : State) : State :=
  if s.clock.valid then
    s.mapOrders fun o =>
      if (o.state = .suspended ∨ o.state = .waiting) ∧ o.endPassed s.clock.reading then none else some o
  else s

/-- The ACTIVE order, in slot `n`, is removed and the next one chosen (R98). -/
def State.removeActive (s : State) (n : CurtailmentSlot) : State :=
  (s.setOrder n none).dropPassed.chooseActive.markQueues.publishLimit

/-- An order is removed, at its end or its cancellation (R98, R99, R100). -/
def State.removeOrder (s : State) (n : CurtailmentSlot) : State :=
  match s.que.orders[n] with
  | none => s
  | some o => if o.state = .active then s.removeActive n else (s.setOrder n none).markQueues

/-- EMERGENCY_START in a slot, where it is due (R96). -/
def State.emergencyStartExpiry (s : State) (n : CurtailmentSlot) : State :=
  if s.clock.valid ∧
      (s.que.orders[n]).any fun o => decide (o.kind = .emergency) && o.startPassed s.clock.reading then
    s.emergencyStart n
  else s

/-- ORDINARY_START in a slot, where it is due (R97). -/
def State.ordinaryStartExpiry (s : State) (n : CurtailmentSlot) : State :=
  if s.clock.valid ∧
      (s.que.orders[n]).any fun o => decide (o.kind = .ordinary) && o.startPassed s.clock.reading then
    s.ordinaryStart n
  else s

/-- The end expiry of the ACTIVE order, where it is due (R98). -/
def State.activeOrderEnd (s : State) : State :=
  match s.activeSlot with
  | none => s
  | some n =>
    if s.clock.valid ∧ (s.que.orders[n]).any fun o => o.endPassed s.clock.reading then s.removeActive n else s

/-- The end expiry of a SUSPENDED or WAITING order, where it is due (R99). -/
def State.inactiveOrderEnd (s : State) (n : CurtailmentSlot) : State :=
  if s.clock.valid ∧ (s.que.orders[n]).any fun o =>
      decide (o.state = .suspended ∨ o.state = .waiting) && o.endPassed s.clock.reading then
    (s.setOrder n none).markQueues
  else s

/-! ### Starts and ends passed at one event (R99, R103, R105) -/

/-- The time of an order that comes next, where it is at or before `now`: a PENDING order's start, else its end. -/
def CurtailmentOrder.passedTime (o : CurtailmentOrder) (now : Nat) : Option Nat :=
  if o.state = .pending then (if o.start ≤ now then some o.start else none)
  else o.finish.filter fun t => decide (t ≤ now)

/-- The slots whose next time is passed, with that time. -/
def State.passedOrders (s : State) : List (CurtailmentSlot × Nat) :=
  s.ordersHeld.filterMap fun x => (x.2.passedTime s.clock.reading).map fun t => (x.1, t)

/-- Those of the earliest time. -/
def earliestSlots (l : List (CurtailmentSlot × Nat)) : List CurtailmentSlot :=
  (l.filter fun x => l.all fun y => decide (x.2 ≤ y.2)).map (·.1)

/-- The start or end of the order in a slot. -/
def State.takeOrderTime (s : State) (n : CurtailmentSlot) : State :=
  if (s.que.orders[n]).any fun o => decide (o.state = .pending) then s.takeStart n else s.removeOrder n

/-- The passed starts and ends are taken one by one in order of time, those of equal time in a free order. A
table of eight orders has sixteen at most. -/
def State.takePassed : Nat → State → State
  | 0, s => s
  | fuel + 1, s =>
    match arrange (Config.freeOrder s.choices) (earliestSlots s.passedOrders) with
    | [] => s
    | n :: rest =>
      let s := if rest.isEmpty then s else { s with choices := s.choices + 1 }
      takePassed fuel (s.takeOrderTime n)

/-- Every start and end at or before the present second is taken (R103, R105). -/
def State.takePassedOrders (s : State) : State := s.takePassed 16

/-! ### Requests on the curtailment table -/

/-- An end of OPEN is FFFFFFFFh (R179 i). -/
def readFinish (finish : Word) : Option Nat := if finish = 0xFFFFFFFF then none else some finish.toNat

/-- The lowest-numbered empty slot. -/
def State.emptySlot (s : State) : Option CurtailmentSlot :=
  (List.finRange 8).find? fun n => (s.que.orders[n]).isNone

/-- An order goes into a slot; one whose start has come is started at the request (R95). -/
def State.enterOrder (s : State) (n : CurtailmentSlot) (o : CurtailmentOrder) : State :=
  let now := s.clock.reading
  if o.start ≤ now then (s.setOrder n (some { o with start := now })).markQueues.takeStart n
  else (s.setOrder n (some o)).markQueues

/-- The owner's side of Submit Curtailment, with its outcomes in the order of R95. DESIGN CHOICE: a start or an end above
the last clock reading is accepted (log entry 48). -/
def submitCurtailmentOwner (reference : Word) (kind : Byte) (limit start finish : Word) (s : State) : Served :=
  match readOrderKind kind with
  | none => refuse s .badField
  | some k =>
    let o : CurtailmentOrder :=
      { reference := reference.toNat, kind := k, limit := limit.toNat, start := start.toNat,
        finish := readFinish finish, state := .pending }
    if 2000000 < o.limit ∨ o.endPassed o.start ∨ s.ordersHeld.any fun x => decide (x.2.reference = o.reference) then
      refuse s .badField
    else if ¬ s.clock.valid ∨ o.endPassed s.clock.reading then refuse s .tooLate
    else
      match s.emptySlot with
      | none => refuse s .full
      | some n => (okWith (numberByte n), s.enterOrder n o)

/-- The owner's side of Cancel Curtailment (R100). -/
def cancelCurtailmentOwner (reference : Word) (s : State) : Served :=
  match s.ordersHeld.find? fun x => decide (x.2.reference = reference.toNat) with
  | none => refuse s .notFound
  | some x => done (s.removeOrder x.1)

/-- An order as Read Curtailments lists it. -/
def CurtailmentOrder.bytes (o : CurtailmentOrder) : List Byte :=
  field 4 o.reference ++ [o.kind.code] ++ field 4 o.limit ++ field 4 o.start ++
    field 4 (o.finish.getD 0xFFFFFFFF) ++ [o.state.code]

/-- The owner's side of Read Curtailments (R102). -/
def readCurtailmentsOwner (s : State) : Served :=
  (okWith (field 4 s.cfg.contract.limit ++ field 4 s.esu.effLimit ++ flagByte s.clock.valid ++
    (s.que.orders.toList.flatMap fun o => optionalItem 18 o CurtailmentOrder.bytes) ++
    optionalItem 1 s.activeSlot numberByte), s)

/-! ### The meanings -/

/-- GATE_EXPIRY (R93). -/
def execGateExpiry (s : State) : Host.Outcome State Fault Refusal := duringOperation s State.gateExpiry

/-- EMERGENCY_START (R96). -/
def execEmergencyStart (n : CurtailmentSlot) (s : State) : Host.Outcome State Fault Refusal :=
  duringOperation s (·.emergencyStartExpiry n)

/-- ORDINARY_START (R97). -/
def execOrdinaryStart (n : CurtailmentSlot) (s : State) : Host.Outcome State Fault Refusal :=
  duringOperation s (·.ordinaryStartExpiry n)

/-- ACTIVE_ORDER_END (R98). -/
def execActiveOrderEnd (s : State) : Host.Outcome State Fault Refusal := duringOperation s State.activeOrderEnd

/-- INACTIVE_ORDER_END (R99). -/
def execInactiveOrderEnd (n : CurtailmentSlot) (s : State) : Host.Outcome State Fault Refusal :=
  duringOperation s (·.inactiveOrderEnd n)

/-- SET_EXPORT_CONTRACT (R88). -/
def execSetExportContract (limit : Word) (length lead : Byte) (s : State) : Host.Outcome State Fault Refusal :=
  serveRequest s (setExportContractOwner limit length lead)

/-- SUBMIT_NOMINATION (R91). -/
def execSubmitNomination (start energy : Word) (s : State) : Host.Outcome State Fault Refusal :=
  serveRequest s (submitNominationOwner start energy)

/-- WITHDRAW_NOMINATION (R92). -/
def execWithdrawNomination (start : Word) (s : State) : Host.Outcome State Fault Refusal :=
  serveRequest s (withdrawNominationOwner start)

/-- READ_NOMINATIONS (R94). -/
def execReadNominations (s : State) : Host.Outcome State Fault Refusal := serveRequest s readNominationsOwner

/-- SUBMIT_CURTAILMENT (R95). -/
def execSubmitCurtailment (reference : Word) (kind : Byte) (limit start finish : Word) (s : State) :
    Host.Outcome State Fault Refusal :=
  serveRequest s (submitCurtailmentOwner reference kind limit start finish)

/-- CANCEL_CURTAILMENT (R100). -/
def execCancelCurtailment (reference : Word) (s : State) : Host.Outcome State Fault Refusal :=
  serveRequest s (cancelCurtailmentOwner reference)

/-- READ_CURTAILMENTS (R102). -/
def execReadCurtailments (s : State) : Host.Outcome State Fault Refusal := serveRequest s readCurtailmentsOwner

end Sys2Proof.Machine
end

