-- ==== Sys2Proof/Machine/Settlement.lean ====
section
/-! DEFINITION. Settlement intervals (chapter 6) and what opens and closes them: boundaries (R89, R90), the
export meter's notices (R107), clock steps and offset changes (R103, R104, R115), power-on (R105, R116, R117), and
the settlement queue. -/

namespace Sys2Proof.Machine

/-! ### Opening an interval (R90, R106) -/

/-- No flag of an open interval. -/
def IntervalFlags.none : IntervalFlags := { timeStep := false, powerGap := false, steamOver := false }

/-- The flag of an opening after a large clock step or once the clock is made VALID (R106). -/
def IntervalFlags.afterStep : IntervalFlags := { IntervalFlags.none with timeStep := true }

/-- The flag of the opening made at power-on (R106). -/
def IntervalFlags.afterGap : IntervalFlags := { IntervalFlags.none with powerGap := true }

/-- The EXPORT_METER point is usable. -/
def State.meterUsable (s : State) : Bool := s.usable .exportMeter

/-- The accumulators of an interval that opens at `t` (R106). -/
def State.freshInterval (s : State) (t : Int) (flags : IntervalFlags) : OpenInterval :=
  { start := t
    reference := if s.meterUsable then s.esu.lastReading else none
    estimated := !s.meterUsable
    computed := 0
    curtailed := 0
    minLimit := s.esu.effLimit
    flags := flags }

/-- The queue after an opening at `t`: entries before `t` are discarded, the one at `t` has left (R90). -/
def laterThan (l : List Nomination) (t : Int) : List Nomination := l.filter fun n => decide (t < n.start)

/-- The energy nominated for the interval that starts at `t`. -/
def energyAt (l : List Nomination) (t : Int) : Option Nat :=
  (l.find? fun n => decide ((n.start : Int) = t)).map (·.energy)

/-- An interval opens with its start at `t` and a current nomination (R90, R106). -/
def State.openWith (s : State) (t : Int) (flags : IntervalFlags) (current : Option Nat) : State :=
  ({ s with
    que := { s.que with
      nominations := laterThan s.que.nominations t
      current := current
      interval := some (s.freshInterval t flags) }
    esu := { s.esu with
      intervalEnd := s.boundaryAfter t
      curtailedSince := if s.esu.effLimit < s.cfg.contract.limit then some s.osc else none } }).markQueues.reckonMissing

/-- An interval opens with its start at `t` (R90, R106). -/
def State.openInterval (s : State) (t : Int) (flags : IntervalFlags) : State :=
  s.openWith t flags (energyAt s.que.nominations t)

/-! ### The settlement queue (R112 to R114) -/

/-- The settlement queue's places (section 6.3). -/
def settlementPlaces : Nat := 192

/-- A closed record takes the next number and joins the queue; a full queue drops its oldest record and raises
SETTLEMENT_OVERRUN, whose cause ends at once (R112). -/
def State.queueSettlement (s : State) (r : SettlementRecord) : State :=
  let overrun := decide (settlementPlaces ≤ s.que.settlements.length)
  let held := if overrun then s.que.settlements.drop 1 else s.que.settlements
  let s := { s with que := { s.que with
    settlements := held ++ [{ r with sequence := s.que.nextSettlement }]
    nextSettlement := s.que.nextSettlement + 1 } }.markQueues
  if overrun then s.tellReport .settlementOverrun 1 else s

/-- A record of 37 bytes (12.5). -/
def SettlementRecord.bytes (r : SettlementRecord) : List Byte :=
  wordBytes r.sequence ++ timeField 4 r.start ++ field 4 r.length ++ field 4 (r.nominated.getD 0) ++
    signedField 4 r.metered ++ signedField 4 r.computed ++ signedField 4 (r.imbalance.getD 0) ++
    field 4 r.curtailed ++ field 4 r.minLimit ++ [r.flags.byte]

/-- The owner's side of Fetch Settlement Record (R113). -/
def fetchSettlementOwner (s : State) : Served :=
  match s.que.settlements with
  | [] => refuse s .empty
  | r :: _ => (okWith r.bytes, s)

/-- The owner's side of Release Settlement Record (R114). -/
def releaseSettlementOwner (sequence : Word) (s : State) : Served :=
  match s.que.settlements with
  | [] => refuse s .empty
  | r :: rest =>
    if r.sequence = sequence then done { s with que := { s.que with settlements := rest } }.markQueues
    else refuse s .badField

/-! ### Closing an interval (R110, R111) -/

/-- Readings differ modulo 100,000,000 (R111, R122). -/
def readingGap (later earlier : Nat) : Nat := (later + Config.meterModulus - earlier) % Config.meterModulus

/-- A record from its figures: imbalance and the flags METER_ESTIMATED, CURTAILED and UNNOMINATED follow from
them (R110). `metered` is none where the computed figure stands in for the meter. -/
def settlementRecord (start : Int) (length : Nat) (nominated : Option Nat) (computed : Int) (metered : Option Nat)
    (curtailed minLimit : Nat) (flags : IntervalFlags) : SettlementRecord :=
  let figure : Int := metered.elim (computed / 3600) fun (m : Nat) => m
  { sequence := 0
    start := start
    length := length
    nominated := nominated
    metered := figure
    computed := computed / 3600
    imbalance := nominated.map fun (n : Nat) => figure - n
    curtailed := curtailed
    minLimit := minLimit
    flags :=
      { meterEstimated := metered.isNone
        timeStep := flags.timeStep
        powerGap := flags.powerGap
        curtailed := decide (0 < curtailed)
        steamOver := flags.steamOver
        unnominated := nominated.isNone } }

/-- The meter's figure for the open interval, where it can be trusted (R111). -/
def State.meteredNow (s : State) (iv : OpenInterval) : Option Nat :=
  if iv.estimated || !s.meterUsable then none
  else
    match s.esu.lastReading, iv.reference with
    | some last, some ref => some (readingGap last ref)
    | _, _ => none

/-- The record of the open interval at a close (R110). -/
def State.closingRecord (s : State) (iv : OpenInterval) (closeTime : Int) : SettlementRecord :=
  let length := (closeTime - iv.start).toNat
  let seconds := iv.curtailed + s.esu.curtailedSince.elim 0 (s.osc - ·)
  settlementRecord iv.start length s.que.current iv.computed (s.meteredNow iv) (min seconds length) iv.minLimit iv.flags

/-- The open interval is gone, with its current nomination and its curtailed-since. -/
def State.withoutInterval (s : State) : State :=
  { s with
    que := { s.que with interval := none, current := none }
    esu := { s.esu with curtailedSince := none } }.markQueues

/-- The end of the meter wait (R116): with a reading, or none at the end of its 60 s. -/
def State.endWait (s : State) (reading : Option Nat) : State :=
  match s.esu.wait with
  | none => s
  | some w =>
    let s := { s with esu := { s.esu with wait := none } }.markQueues
    match w.gap, reading with
    | some g, some r =>
      let metered := if g.estimated then none else g.reference.map (readingGap r)
      let s := s.queueSettlement
        (settlementRecord g.start g.length g.nominated g.computed metered g.curtailed g.minLimit g.flags)
      match s.que.interval with
      | some iv => s.setInterval { iv with reference := some r, estimated := false }
      | none => s
    | some g, none =>
      let s := s.queueSettlement
        (settlementRecord g.start g.length g.nominated g.computed none g.curtailed g.minLimit g.flags)
      match s.que.interval with
      | some iv => s.setInterval { iv with reference := none, estimated := true }
      | none => s
    | none, some r =>
      match s.que.interval with
      | some iv => s.setInterval { iv with reference := some (iv.reference.getD r) }
      | none => s
    | none, none => s

/-- The open interval closes at `closeTime`, first ending the meter wait if it runs (R110, R116). -/
def State.closeInterval (s : State) (closeTime : Int) (timeStep : Bool) : State :=
  let s := s.endWait none
  match s.que.interval with
  | none => s
  | some iv =>
    let iv := if timeStep then { iv with flags := { iv.flags with timeStep := true } } else iv
    (s.queueSettlement (s.closingRecord iv closeTime)).withoutInterval

/-- The boundary timer's expiry: the interval closes at its end and the next one opens there (R89). -/
def State.takeBoundary (s : State) : State :=
  let t := s.esu.intervalEnd
  (s.closeInterval t false).openInterval t .none

/-- BOUNDARY_EXPIRY, where the clock has reached the open interval's end (R89). -/
def State.boundaryExpiry (s : State) : State :=
  if s.clock.valid ∧ s.que.interval.isSome ∧ s.esu.intervalEnd ≤ s.clock.reading then s.takeBoundary else s

/-- The end of the 60 s of the meter wait (R116). -/
def State.meterWaitExpiry (s : State) : State :=
  if s.esu.wait.any fun w => decide (w.due ≤ s.osc) then s.endWait none else s

/-! ### The export meter and the dispatch results (R107, R108) -/

/-- A reading arrival (R107 i); during the meter wait it finishes the wait (R116). -/
def State.exportArrival (s : State) (reading : Nat) : State :=
  let s := { s with esu := { s.esu with lastReading := some reading } }
  if s.esu.wait.isSome then s.endWait (some reading)
  else
    match s.que.interval with
    | some iv =>
      { s with que := { s.que with interval := some { iv with reference := some (iv.reference.getD reading) } } }
    | none => s

/-- The failed event (R107 ii). -/
def State.exportFailed (s : State) : State :=
  let s := { s with esu := { s.esu with lastReading := none } }
  match s.que.interval with
  | some iv => { s with que := { s.que with interval := some { iv with reference := none, estimated := true } } }
  | none => s

/-- A published result adds its export times its span to the open interval (R108). -/
def State.integrateExport (s : State) (exported : Int) (span : Nat) (steamOver : Bool) : State :=
  match s.que.interval with
  | none => s
  | some iv =>
    s.setInterval { iv with
      computed := iv.computed + exported * span
      flags := { iv.flags with steamOver := iv.flags.steamOver || steamOver } }

/-! ### Clock steps and offset changes (R103, R104, R115) -/

/-- The unit of a small step: 2 s (R103, R174). -/
def smallStep : Nat := 2

/-- The ESU at a Set Time from `u` to the present reading, the clock staying VALID (R103, R115). -/
def State.scheduleStep (s : State) (u : Nat) : State :=
  let v := s.clock.reading
  let s := s.takePassedOrders.publishLimit
  if max u v - min u v ≤ smallStep then
    (if u < v ∧ s.que.interval.isSome ∧ s.esu.intervalEnd ≤ v then s.takeBoundary else s).reckonMissing
  else
    ((s.closeInterval u true).openInterval (s.boundaryAtOrBefore v) .afterStep).reckonMissing

/-- The ESU at the Set Time that makes the clock VALID (R103, R115 iii). DESIGN CHOICE: a queue entry that a Set Local
Offset, stored while the clock was INVALID (R175), has taken off the grid stays in the queue (log entry 43). -/
def State.scheduleStart (s : State) : State :=
  let s := s.takePassedOrders.publishLimit
  (s.openInterval (s.boundaryAtOrBefore s.clock.reading) .afterStep).reckonMissing

/-- The ESU at the wrap of the clock, with close time 4,291,747,199 (R103, R115 iv). -/
def State.scheduleWrap (s : State) : State := (s.closeInterval Config.lastReading true).reckonMissing

/-- The ESU at a change of the local offset, the clock being VALID (R104). -/
def State.scheduleOffset (s : State) : State :=
  let s := s.setNominations (s.que.nominations.filter fun n => s.isBoundary n.start)
  let s := if s.que.interval.isSome then
      { s with esu := { s.esu with intervalEnd := s.boundaryAfter s.clock.reading } }
    else s
  s.publishLimit.reckonMissing

/-! ### Power-on (R105, R116, R117) -/

/-- The sum of the energies found for the intervals of a gap record, none where none was found (R116). -/
def energiesFound (current : Option Nat) (l : List Nomination) : Option Nat :=
  match current, l with
  | none, [] => none
  | _, _ => some (current.getD 0 + (l.map (·.energy)).sum)

/-- The gap record of a stored interval that ended during the outage, up to the boundary `t` (R116 ii). -/
def State.gapRecord (s : State) (iv : OpenInterval) (pool : List Nomination) (t : Int) : GapRecord :=
  let length := (t - iv.start).toNat
  { start := iv.start
    length := length
    nominated := energiesFound s.que.current (pool.filter fun n => decide (iv.start < n.start ∧ (n.start : Int) < t))
    computed := iv.computed
    curtailed := min iv.curtailed length
    minLimit := iv.minLimit
    flags := { iv.flags with powerGap := true }
    reference := iv.reference
    estimated := iv.estimated }

/-- The meter wait of a power-on: the interval, nomination and swept entries the stored region keeps meanwhile. -/
def State.startWait (s : State) (stored : QueuesRegion) (swept : List Nomination) (gap : Option GapRecord) : State :=
  let wait : MeterWait :=
    { due := s.osc + Config.startWait, stored := stored.interval, storedCurrent := stored.current, swept := swept,
      gap := gap }
  { s with esu := { s.esu with wait := some wait } }

/-- The ESU at a restart with the clock VALID (R105 i, R116, R117). The nominations of a gap record, and that of
the interval which opens, may be among the entries an earlier power-on swept. -/
def State.scheduleRestartValid (s : State) : State :=
  let now := s.clock.reading
  let stored := s.que
  let pool := (stored.swept ++ stored.nominations).filter fun n => s.isBoundary n.start
  let s := s.setQueues { stored with
    nominations := stored.nominations.filter fun n => s.isBoundary n.start, swept := [] }
  let s := { s with esu := { s.esu with intervalEnd := stored.interval.elim 0 fun iv => s.boundaryAfter iv.start } }
  let s := s.takePassedOrders.publishLimit
  let t := s.boundaryAtOrBefore now
  let swept := pool.filter fun n => decide ((n.start : Int) ≤ t)
  match s.que.interval with
  | some iv =>
    if s.esu.intervalEnd ≤ now then
      let s := s.startWait stored swept (some (s.gapRecord iv pool t))
      (s.openWith t .afterGap (energyAt pool t)).reckonMissing
    else
      let kept := { iv with flags := { iv.flags with powerGap := true } }
      ((s.startWait stored stored.swept none).setInterval kept).reckonMissing
  | none => ((s.startWait stored swept none).openWith t .afterGap (energyAt pool t)).reckonMissing

/-- The ESU at a restart with the clock INVALID: a stored interval is closed with length 0 (R105 ii, R117). -/
def State.scheduleRestartInvalid (s : State) : State :=
  let s := s.setQueues { s.que with
    nominations := s.que.nominations.filter fun n => s.isBoundary n.start, swept := [] }
  let s := match s.que.interval with
    | none => s
    | some iv =>
      let flags := { iv.flags with powerGap := true, timeStep := true }
      (s.queueSettlement (settlementRecord iv.start 0 s.que.current iv.computed none iv.curtailed iv.minLimit
        flags)).withoutInterval
  s.publishLimit

/-- The ESU at a restart (R105). -/
def State.scheduleRestart (s : State) : State :=
  if s.clock.valid then s.scheduleRestartValid else s.scheduleRestartInvalid

/-! ### The meanings -/

/-- BOUNDARY_EXPIRY (R89). -/
def execBoundaryExpiry (s : State) : Host.Outcome State Fault Refusal := duringOperation s State.boundaryExpiry

/-- METER_WAIT_EXPIRY (R116). -/
def execMeterWaitExpiry (s : State) : Host.Outcome State Fault Refusal := duringOperation s State.meterWaitExpiry

/-- FETCH_SETTLEMENT_RECORD (R113). -/
def execFetchSettlementRecord (s : State) : Host.Outcome State Fault Refusal := serveRequest s fetchSettlementOwner

/-- RELEASE_SETTLEMENT_RECORD (R114). -/
def execReleaseSettlementRecord (sequence : Word) (s : State) : Host.Outcome State Fault Refusal :=
  serveRequest s (releaseSettlementOwner sequence)

end Sys2Proof.Machine
end

