-- ==== Sys2Proof/Machine/Heat.lean ====
section
/-! DEFINITION. Heat substations and metering (chapter 7): configuration and service, reading arrivals, booking,
disputes, estimation and the return of a meter, and the heat demand sum. -/

namespace Sys2Proof.Machine

/-- A substation's number as a condition source. -/
def substationNumber (k : Substation) : Nat := k.val + 1

/-! ### Booking (R124, R130) -/

/-- The band of a booking: looked up, or band 1 while the clock is INVALID (R124 i, R139). -/
def State.bookingBand (s : State) (k : Substation) : Fin 4 :=
  if s.clock.valid then s.cfg.bandAt k s.clock.localTime else 0

/-- The recovered part of an increment (R124 ii). -/
def State.recoveredPart (s : State) (n : Nat) : Nat := n * s.dsp.fraction / 1000

/-- A change of one band of the current set and of the booked total by the same energy, with the flag that an
INVALID clock leaves on the set (R124 i, R140). -/
def State.enter (s : State) (k : Substation) (energy : Int) (change : BandFigures → BandFigures) : State :=
  let l := s.acc.ledgers[k]
  let band := s.bookingBand k
  let set := { l.current with
    bands := l.current.bands.set band (change l.current.bands[band])
    flags := { l.current.flags with clockInvalid := l.current.flags.clockInvalid || !s.clock.valid } }
  (s.setLedger k { l with current := set, booked := l.booked + BitVec.ofInt 64 energy }).markAccounts

/-- An increment of `n` kWh is booked (R124). -/
def State.book (s : State) (k : Substation) (n : Nat) : State :=
  let r := s.recoveredPart n
  s.enter k n fun b => { b with recovered := b.recovered + r, auxiliary := b.auxiliary + (n - r) }

/-- An estimate of `n` kWh is booked, and marked as estimated (R129). -/
def State.bookEstimate (s : State) (k : Substation) (n : Nat) : State :=
  let r := s.recoveredPart n
  s.enter k n fun b =>
    { b with recovered := b.recovered + r, auxiliary := b.auxiliary + (n - r), estimated := b.estimated + n }

/-- A reconciliation is booked, unsplit (R126 ii, R130). -/
def State.bookReconciliation (s : State) (k : Substation) (n : Int) : State :=
  s.enter k n fun b => { b with reconciled := b.reconciled + n }

/-! ### The plausibility check and disputes (R122, R123) -/

/-- A substation's new metering state, written to the ACCOUNTS region. -/
def State.putMeter (s : State) (k : Substation) (m : SubstationAccount) : State := (s.setMeter k m).markAccounts

/-- The plausibility limit for the time since the reference (R122 ii and iii). DESIGN CHOICE: the maximum rate is 0 for a
substation that an older CONFIG copy does not configure (log entry 36). -/
def State.plausible (s : State) (k : Substation) (elapsed : Nat) : Nat :=
  (s.cfg.substations[k]).elim 0 (·.maxRate) * elapsed / 3600 + 1

/-- The dispute opens with a pending reading (R122 iv). -/
def State.openDispute (s : State) (k : Substation) (mark : MeterMark) : State :=
  (s.putMeter k { s.acc.meters[k] with pendingMark := some mark }).tellRaise .meterJump (substationNumber k)

/-- A reading at an IN_SERVICE substation (R122, R123). -/
def State.checkReading (s : State) (k : Substation) (mark : MeterMark) : State :=
  let m := s.acc.meters[k]
  if m.pendingMark.isSome then s.putMeter k { m with pendingMark := some mark }
  else
    match m.reference with
    | none => s.putMeter k { m with reference := some mark }
    | some ref =>
      let increment := readingGap mark.reading ref.reading
      if increment ≤ s.plausible k (mark.time - ref.time) then
        let s := s.putMeter k { m with reference := some mark }
        if increment = 0 then s else s.book k increment
      else s.openDispute k mark

/-- The return of the meter (R130). -/
def State.meterReturn (s : State) (k : Substation) (mark : MeterMark) : State :=
  let m := { s.acc.meters[k] with state := .inService, remainder := 0, reconciliation := true }
  let s := (s.putMeter k m).tellEnd .substationEstimating (substationNumber k)
  if m.pendingMark.isSome then s.putMeter k { m with pendingMark := some mark }
  else
    match m.reference with
    | none => s.putMeter k { m with reference := some mark, gapTotal := 0, reconciliation := false }
    | some ref =>
      let increment := readingGap mark.reading ref.reading
      if increment ≤ s.plausible k (mark.time - ref.time) then
        (s.putMeter k { m with reference := some mark, gapTotal := 0, reconciliation := false }).bookReconciliation k
          (increment - m.gapTotal)
      else s.openDispute k mark

/-- A reading arrival, by the substation's state (R121). -/
def State.heatArrival (s : State) (k : Substation) (reading rate time : Nat) : State :=
  let mark : MeterMark := { reading := reading, time := time }
  let m := s.acc.meters[k]
  match m.state with
  | .disconnected => s
  | .fresh => (s.setLastRate k rate).putMeter k { m with state := .inService, reference := some mark }
  | .inService => (s.setLastRate k rate).checkReading k mark
  | .estimating => (s.setLastRate k rate).meterReturn k mark

/-! ### Estimation (R128, R129, R134) -/

/-- Entry to ESTIMATING (R128). -/
def State.enterEstimating (s : State) (k : Substation) : State :=
  ((s.setLastRate k 0).putMeter k { s.acc.meters[k] with state := .estimating, remainder := 0 }).tellRaise
    .substationEstimating (substationNumber k)

/-- The failed event of a HEAT_METER point (R128). -/
def State.heatFailed (s : State) (k : Substation) : State :=
  if (s.acc.meters[k]).state = .inService then s.enterEstimating k else s

/-- The estimate rate of a substation (R129, R131). DESIGN CHOICE: it is 0 for a substation that an older CONFIG copy does
not configure (log entry 36). -/
def State.estimateRate (s : State) (k : Substation) : Nat := (s.cfg.substations[k]).elim 0 (·.estimateRate)

/-- A substation's part in an estimation minute (R129). -/
def State.estimateMinute (s : State) (k : Substation) : State :=
  let m := s.acc.meters[k]
  if m.state = .estimating then
    let total := m.remainder + s.estimateRate k
    let estimate := total / 60
    let s := s.putMeter k { m with remainder := total % 60, gapTotal := m.gapTotal + estimate }
    let l := s.acc.ledgers[k]
    let s := s.setLedger k { l with current := { l.current with flags := { l.current.flags with estimated := true } } }
    if 0 < estimate then s.bookEstimate k estimate else s
  else s

/-- ESTIMATION_MINUTE, at a whole-minute boundary of the clock not yet taken (R129). -/
def State.estimationMinute (s : State) : State :=
  if s.hmu.minuteDue then
    (List.finRange 48).foldl State.estimateMinute { s with hmu := { s.hmu with minuteDue := false } }
  else s

/-- The substations a start-up watch finds without a meter: IN_SERVICE, the point unusable or not configured. -/
def State.unwatched (s : State) : List Substation :=
  (List.finRange 48).filter fun k => decide ((s.acc.meters[k]).state = .inService) && !s.usable (.heatMeter k)

/-- The start-up watch's expiry (R134). -/
def State.startUpWatchExpiry (s : State) : State :=
  if s.hmu.watchDue.any fun t => decide (t ≤ s.osc) then
    s.unwatched.foldl State.enterEstimating { s with hmu := { s.hmu with watchDue := none } }
  else s

/-! ### The heat demand sum (R131) -/

/-- A substation's term of the heat demand sum. -/
def State.heatTerm (s : State) (k : Substation) : Nat :=
  match (s.acc.meters[k]).state with
  | .inService => s.hmu.lastRates[k]
  | .estimating => s.estimateRate k
  | .fresh | .disconnected => 0

/-- The heat demand sum (R131). -/
def State.heatDemand (s : State) : Nat := ((List.finRange 48).map s.heatTerm).sum

/-! ### Configuration and service (R118 to R120) -/

/-- The figures of Configure Substation within their ranges, with the group as both groups. -/
def readSubstation (account : Word) (group : Byte) (maxRate estimateRate : Word) : Option SubstationConfig :=
  match numbered 4 group with
  | none => none
  | some g =>
    if 1 ≤ maxRate.toNat ∧ maxRate.toNat ≤ 2000000 ∧ estimateRate.toNat ≤ maxRate.toNat then
      some { account := account.toNat, group := g, staged := g, maxRate := maxRate.toNat,
             estimateRate := estimateRate.toNat }
    else none

/-- The owner's side of Configure Substation (R118). DESIGN CHOICE: a first configuration leaves the state as ACCOUNTS holds it;
that is DISCONNECTED, as R118 i has it, but after a restart that took an older CONFIG copy, where the substation may be held
NEW, IN_SERVICE or ESTIMATING (log entry 36). -/
def configureSubstationOwner (substation : Byte) (account : Word) (group : Byte) (maxRate estimateRate : Word)
    (s : State) : Served :=
  match numbered 48 substation, readSubstation account group maxRate estimateRate with
  | some k, some c =>
    let put (c : SubstationConfig) : State :=
      { s with cfg := { s.cfg with substations := s.cfg.substations.set k (some c) } }.markConfig
    match s.cfg.substations[k] with
    | none => done (put c)
    | some old =>
      let m := s.acc.meters[k]
      if c.account ≠ old.account ∧ (m.state = .inService ∨ m.state = .estimating) then refuse s .busy
      else done (put { c with group := old.group })
  | _, _ => refuse s .badField

/-- A service request for a configured substation (R119). -/
def forSubstation (s : State) (v : Byte) (f : Substation → Served) : Served :=
  match numbered 48 v with
  | none => refuse s .badField
  | some k => if (s.cfg.substations[k]).isNone then refuse s .notFound else f k

/-- CONNECT (R119). -/
def connectOwner (substation : Byte) (s : State) : Served :=
  forSubstation s substation fun k =>
    let m := s.acc.meters[k]
    match m.state with
    | .disconnected => if m.pendingMark.isSome then refuse s .busy else done (s.putMeter k { m with state := .fresh })
    | .fresh => done s
    | .inService | .estimating => refuse s .busy

/-- DISCONNECT (R120). -/
def disconnectOwner (substation : Byte) (s : State) : Served :=
  forSubstation s substation fun k =>
    let m := s.acc.meters[k]
    if m.pendingMark.isSome then refuse s .busy
    else
      match m.state with
      | .disconnected => done s
      | .fresh | .inService => done ((s.setLastRate k 0).putMeter k { m with state := .disconnected })
      | .estimating =>
        done (((s.setLastRate k 0).putMeter k
          { m with state := .disconnected, gapTotal := 0, remainder := 0, reconciliation := false }).tellEnd
          .substationEstimating (substationNumber k))

/-! ### Resolve Meter Jump (R126, R127) -/

/-- The Δ a resolution takes (R126). -/
def SubstationAccount.disputed (m : SubstationAccount) (mark : MeterMark) : Nat :=
  m.reference.elim 0 fun ref => readingGap mark.reading ref.reading

/-- A resolution for a substation whose dispute flag is set (R126). -/
def forDispute (s : State) (v : Byte) (f : Substation → MeterMark → State) : Served :=
  match numbered 48 v with
  | none => refuse s .badField
  | some k =>
    match (s.acc.meters[k]).pendingMark with
    | none => refuse s .notFound
    | some mark => done ((f k mark).tellEnd .meterJump (substationNumber k))

/-- The metering state after a resolution: the pending reading is the reference, and the dispute and any pending
reconciliation are over (R126, R127). -/
def SubstationAccount.resolved (m : SubstationAccount) (mark : MeterMark) : SubstationAccount :=
  { m with
    reference := some mark, pendingMark := none, reconciliation := false,
    gapTotal := if m.reconciliation then 0 else m.gapTotal }

/-- ACCEPT (R126). -/
def acceptOwner (substation : Byte) (s : State) : Served :=
  forDispute s substation fun k mark =>
    let m := s.acc.meters[k]
    let increment := m.disputed mark
    let s := s.putMeter k (m.resolved mark)
    if m.reconciliation then s.bookReconciliation k (increment - m.gapTotal) else s.book k increment

/-- REJECT (R127). -/
def rejectOwner (substation : Byte) (s : State) : Served :=
  forDispute s substation fun k mark =>
    let m := s.acc.meters[k]
    let l := s.acc.ledgers[k]
    (s.putMeter k (m.resolved mark)).setLedger k
      { l with current := { l.current with rejected := l.current.rejected + m.disputed mark } }

/-! ### Read Substation (R132) -/

def SubstationConfig.bytes (c : SubstationConfig) : List Byte :=
  field 4 c.account ++ numberByte c.group ++ numberByte c.staged ++ field 4 c.maxRate ++ field 4 c.estimateRate

def MeterMark.bytes (m : MeterMark) : List Byte := field 4 m.reading ++ field 4 m.time

/-- The owner's side of Read Substation (R132). Whether it is configured, and the dispute flag, are bytes of their own, each
before the one presence byte of the items that go with it (log entry 32). -/
def readSubstationOwner (substation : Byte) (s : State) : Served :=
  match numbered 48 substation with
  | none => refuse s .badField
  | some k =>
    let m := s.acc.meters[k]
    let l := s.acc.ledgers[k]
    (okWith (flagByte (s.cfg.substations[k]).isSome ++
      optionalItem 14 (s.cfg.substations[k]) SubstationConfig.bytes ++ [m.state.code] ++
      optionalItem 8 m.reference MeterMark.bytes ++
      flagByte m.pendingMark.isSome ++ optionalItem 12 m.pendingMark (fun mark => mark.bytes ++ field 4 (m.disputed mark)) ++
      flagByte m.reconciliation ++ field 4 m.gapTotal ++ field 4 m.remainder ++ field 4 s.hmu.lastRates[k] ++
      field 4 s.heatDemand ++
      l.current.bytes ++ optionalItem 129 l.closing AccumulatorSet.bytes ++
      leBytes 8 l.booked.toNat ++ leBytes 8 l.issued.toNat), s)

/-! ### Power-on (R133, R135) -/

/-- A substation's metering state after a restart that found the CONFIG region lost (R135 ii). -/
def SubstationAccount.configLost (m : SubstationAccount) : SubstationAccount :=
  { m with state := .disconnected, gapTotal := 0, remainder := 0, reconciliation := false }

/-- The metering states after a restart. With the CONFIG region lost, R135 ii. Else they are those of the ACCOUNTS region
(R133). DESIGN CHOICE: also where a substation so held is not configured, since the CONFIG copy found is an older one
without it, or the ACCOUNTS copy found an older one, written before a lost CONFIG region made all DISCONNECTED (log entry
36). -/
def State.metersRestart (s : State) (configLost : Bool) : State :=
  let meters := if configLost then s.acc.meters.map SubstationAccount.configLost else s.acc.meters
  if meters = s.acc.meters then s else { s with acc := { s.acc with meters := meters } }.markAccounts

/-- The conditions of a substation that the HMU raises again at a restart (R133). -/
def State.tellMeter (s : State) (k : Substation) : State :=
  let m := s.acc.meters[k]
  let s := if m.pendingMark.isSome then s.tellRaise .meterJump (substationNumber k) else s
  if m.state = .estimating then s.tellRaise .substationEstimating (substationNumber k) else s

/-- The conditions the HMU raises again at a restart (R133). -/
def State.tellHeat (s : State) : State := (List.finRange 48).foldl State.tellMeter s

/-! ### The meanings -/

/-- ESTIMATION_MINUTE (R129). -/
def execEstimationMinute (s : State) : Host.Outcome State Fault Refusal := duringOperation s State.estimationMinute

/-- START_UP_WATCH_EXPIRY (R134). -/
def execStartUpWatchExpiry (s : State) : Host.Outcome State Fault Refusal := duringOperation s State.startUpWatchExpiry

/-- CONFIGURE_SUBSTATION (R118). -/
def execConfigureSubstation (substation : Byte) (account : Word) (group : Byte) (maxRate estimateRate : Word)
    (s : State) : Host.Outcome State Fault Refusal :=
  serveRequest s (configureSubstationOwner substation account group maxRate estimateRate)

/-- CONNECT (R119). -/
def execConnect (substation : Byte) (s : State) : Host.Outcome State Fault Refusal :=
  serveRequest s (connectOwner substation)

/-- DISCONNECT (R120). -/
def execDisconnect (substation : Byte) (s : State) : Host.Outcome State Fault Refusal :=
  serveRequest s (disconnectOwner substation)

/-- ACCEPT (R126). -/
def execAccept (substation : Byte) (s : State) : Host.Outcome State Fault Refusal :=
  serveRequest s (acceptOwner substation)

/-- REJECT (R127). -/
def execReject (substation : Byte) (s : State) : Host.Outcome State Fault Refusal :=
  serveRequest s (rejectOwner substation)

/-- READ_SUBSTATION (R132). -/
def execReadSubstation (substation : Byte) (s : State) : Host.Outcome State Fault Refusal :=
  serveRequest s (readSubstationOwner substation)

end Sys2Proof.Machine
end

