-- ==== Sys2Proof/Machine/Cycle.lean ====
section
/-! DEFINITION. The dispatch cycle (chapter 3): its nine stages, the dispatch result and its record, the plant
parameters and the merit list. -/

namespace Sys2Proof.Machine

/-! ### Boilers in the cycle (R39, R44) -/

/-- The merit order: the merit list, then every other boiler in ascending number (R39). -/
def State.meritOrder (s : State) : List Boiler :=
  s.cfg.merit ++ (List.finRange 8).filter fun b => decide (b ∉ s.cfg.merit)

/-- The gas-firing boilers, in merit order (R44). -/
def State.gasFiring (s : State) : List Boiler := s.meritOrder.filter fun b => decide ((s.boilers[b]).state = .firingGas)

/-- The aux-firing boilers, in merit order (R44). -/
def State.auxFiring (s : State) : List Boiler := s.meritOrder.filter fun b => decide ((s.boilers[b]).state = .firingAux)

/-- The figures of a firing boiler that a cycle uses: its present allocation a, and m, M, r and yield. -/
structure FiringFigures where
  boiler : Boiler
  present : Nat
  minimum : Nat
  maximum : Nat
  ramp : Nat
  yield : Nat
deriving DecidableEq, Repr

/-- The floor: the larger of m and a - r (R44). -/
def FiringFigures.floor (x : FiringFigures) : Nat := max x.minimum (x.present - x.ramp)

/-- The steam of the boiler at a fuel rate (R44). -/
def FiringFigures.steam (x : FiringFigures) (rate : Nat) : Nat := rate * x.yield / 1000

/-- The figures of boiler `b` with its present allocation (R44). -/
def State.firingFigures (s : State) (present : Allocation → Nat) (b : Boiler) : FiringFigures :=
  match s.cfg.boilers[b] with
  | some c =>
    { boiler := b, present := present s.dsp.allocations[b], minimum := c.minimum, maximum := c.maximum, ramp := c.ramp,
      yield := c.yield }
  | none => { boiler := b, present := present s.dsp.allocations[b], minimum := 0, maximum := 0, ramp := 0, yield := 0 }

/-- The gas-firing boilers with their figures. -/
def State.gasFigured (s : State) : List FiringFigures := s.gasFiring.map (s.firingFigures (·.gas))

/-- The aux-firing boilers with their figures. -/
def State.auxFigured (s : State) : List FiringFigures := s.auxFiring.map (s.firingFigures (·.aux))

/-! ### Stages 1 to 3 (R42 to R44) -/

/-- AVAILABLE is indicated by a usable TURBINE_STATUS point (R43 iii). -/
def State.turbineAvailable (s : State) : Bool := (s.indicated .turbineStatus).any (·.available)

/-- The turbine steam limit TL (R43 iii). -/
def State.turbineLimit (s : State) : Nat :=
  if s.turbineAvailable then
    min s.cfg.plant.turbineMax ((s.esu.effLimit + s.cfg.plant.ownUse) * 1000 / s.cfg.plant.conversion)
  else 0

/-- Stages 1 to 3 (R42 to R44). -/
def State.earlyFigures (s : State) (g : GasFigures) : EarlyFigures :=
  let demand := s.heatDemand + s.cfg.plant.loss
  let usable := min demand s.cfg.plant.exchanger
  { available := (g.surplus + g.correction).toNat
    demand := demand
    usable := usable
    effLimit := s.esu.effLimit
    turbineLimit := s.turbineLimit
    headroom := usable + s.turbineLimit
    committed := ((s.gasFigured ++ s.auxFigured).map fun x => x.steam x.floor).sum
    gasFloors := (s.gasFigured.map FiringFigures.floor).sum }

/-! ### Stage 4 (R45, R46) -/

/-- The cycle is a shortage cycle (R45 i). -/
def isShortage (g : GasFigures) (e : EarlyFigures) : Bool :=
  decide (g.surplus + g.correction < 0 ∨ e.available < e.gasFloors) || g.lowLow

/-- The cycle is a steam-over cycle (R45 ii). -/
def isSteamOver (e : EarlyFigures) : Bool := decide (e.headroom < e.committed)

/-- The stage 4 request (R46). -/
def shedChoice (lowLow shortage steamOver : Bool) (gas aux : List Boiler) : SentRequest :=
  if lowLow ∧ gas ≠ [] then .shedAll gas
  else
    match gas.getLast?, aux.getLast? with
    | some b, _ =>
      if shortage then .one .shedShortage b else if steamOver then .one .shedSteam b else .nothing
    | none, some b => if steamOver then .one .shedSteam b else .nothing
    | none, none => .nothing

/-! ### Stage 5 (R47) -/

/-- A boiler's new gas allocation: its floor and its raise (R47). -/
def FiringFigures.raisedGas (x : FiringFigures) (gas headroom : Nat) : Nat :=
  let cap := (x.steam x.floor + headroom) * 1000 / x.yield
  let ceiling := min x.maximum (min (x.present + x.ramp) cap)
  x.floor + min (ceiling - x.floor) gas

/-- The gas raise over the gas-firing boilers in merit order: their new allocations, and the gas left (R47). -/
def raiseGas : List FiringFigures → Nat → Nat → List (FiringFigures × Nat) × Nat
  | [], gas, _ => ([], gas)
  | x :: l, gas, headroom =>
    let new := x.raisedGas gas headroom
    let rest := raiseGas l (gas - (new - x.floor)) (headroom - (x.steam new - x.steam x.floor))
    ((x, new) :: rest.1, rest.2)

/-- The new gas allocations and the leftover gas X (R45 i, R47). -/
def gasStage (shortage : Bool) (e : EarlyFigures) (l : List FiringFigures) : List (FiringFigures × Nat) × Nat :=
  if shortage then (l.map fun x => (x, x.floor), 0) else raiseGas l (e.available - e.gasFloors) (e.headroom - e.committed)

/-! ### Stage 6 (R48) -/

/-- A boiler's new aux allocation for a heat still uncovered (R48 (2)). -/
def FiringFigures.raisedAux (x : FiringFigures) (heat : Nat) : Nat :=
  let need := (heat * 1000 + x.yield - 1) / x.yield
  x.floor + min (min x.maximum (x.present + x.ramp) - x.floor) need

/-- The aux raise in merit order: the new allocations, and the heat still uncovered (R48). -/
def raiseAux : List FiringFigures → Nat → List (FiringFigures × Nat) × Nat
  | [], heat => ([], heat)
  | x :: l, heat =>
    let new := if heat = 0 then x.floor else x.raisedAux heat
    let rest := raiseAux l (heat - (x.steam new - x.steam x.floor))
    ((x, new) :: rest.1, rest.2)

/-- The steam of a list of allocations. -/
def totalSteam (l : List (FiringFigures × Nat)) : Nat := (l.map fun x => x.1.steam x.2).sum

/-- The allocation of a boiler in a stage's list, 0 for one not in it. -/
def allocated (l : List (FiringFigures × Nat)) (b : Boiler) : Nat :=
  (l.find? fun x => decide (x.1.boiler = b)).elim 0 (·.2)

/-! ### Stage 7 (R49) -/

/-- The heat split, power, export and recovered fraction (R49). -/
def heatSplit (p : PlantParameters) (available : Bool) (usable gasSteam auxSteam : Nat) : HeatFigures :=
  let delivered := min usable (gasSteam + auxSteam)
  let recovered := min delivered gasSteam
  let turbine := gasSteam + auxSteam - delivered
  let power := if available then turbine * p.conversion / 1000 else 0
  { delivered := delivered
    recovered := recovered
    auxiliary := delivered - recovered
    turbine := turbine
    power := power
    exported := (power : Int) - p.ownUse
    fraction := if 0 < delivered then recovered * 1000 / delivered else 1000 }

/-! ### Stage 8 (R50, R51) -/

/-- An aux-firing boiler's count after the first part of stage 8 (R50). -/
def idleCount (old shortfall : Nat) (chosen : Bool) : Nat :=
  if 0 < shortfall then 0 else if chosen then old else min (old + 1) 255

/-- The stage 8 request: the last aux-firing boiler at or above the aux-idle limit (R51). -/
def releaseChoice (limit leftover shortfall : Nat) (chosen : Bool) (last : Option (FiringFigures × Nat)) : SentRequest :=
  match last with
  | none => .nothing
  | some (x, old) =>
    if limit ≠ 0 ∧ ¬ chosen ∧ limit ≤ idleCount old shortfall chosen then
      if x.minimum ≤ leftover then .one .returnGas x.boiler else .one .releaseAux x.boiler
    else .nothing

/-! ### Stage 9 (R54) -/

/-- The flare demand (R54). -/
def flareDemand (g : GasFigures) (leftover stageSize : Nat) : Nat :=
  if g.highHigh then 4
  else if g.position = .above ∨ g.position = .levelFailed then min ((leftover + stageSize - 1) / stageSize) 4
  else 0

/-- The actual flare stages move toward the demand (R54). -/
def flareMove (stages demand : Nat) : Nat := if stages < demand then stages + 1 else demand

/-! ### The whole cycle (R37) -/

/-- The boiler a stage 8 request goes to. -/
def SentRequest.target : SentRequest → Option Boiler
  | .one _ b => some b
  | .nothing | .shedAll _ => none

/-- The result of a cycle at this expiry (R59), with figures `g`. -/
def State.cycleResult (s : State) (g : GasFigures) : DispatchResult :=
  let e := s.earlyFigures g
  let shortage := isShortage g e
  let steamOver := isSteamOver e
  let shed := shedChoice g.lowLow shortage steamOver s.gasFiring s.auxFiring
  let chosen := decide (shed ≠ .nothing)
  let gas := gasStage shortage e s.gasFigured
  let leftover := gas.2
  let gasSteam := totalSteam gas.1
  let auxFloorSteam := (s.auxFigured.map fun x => x.steam x.floor).sum
  let aux := raiseAux s.auxFigured (e.usable - min e.usable (gasSteam + auxFloorSteam))
  let shortfall := aux.2
  let heat := heatSplit s.cfg.plant s.turbineAvailable e.usable gasSteam (totalSteam aux.1)
  let last := s.auxFigured.getLast?.map fun x => (x, (s.dsp.allocations[x.boiler]).idle)
  let release := releaseChoice s.cfg.plant.idleLimit leftover shortfall chosen last
  let demand := flareDemand g leftover s.cfg.plant.stageSize
  { cycle := s.dsp.cycle + 1
    time := s.clock.reading
    span := s.osc - s.dsp.lastCycle
    period := s.cfg.plant.period
    figures := g
    early := e
    raised :=
      { remainingGas := if shortage then 0 else e.available - e.gasFloors
        remainingHeadroom := if shortage then 0 else e.headroom - e.committed
        leftover := leftover
        gasSteam := gasSteam
        auxFloorSteam := auxFloorSteam
        shortfall := shortfall
        auxSteam := totalSteam aux.1 }
    heat := heat
    flareDemand := demand
    flareStages := flareMove s.dsp.flareStages demand
    boilers := Vector.ofFn fun b =>
      let q := s.boilers[b]
      let firing := ((s.gasFigured ++ s.auxFigured).find? fun x => decide (x.boiler = b)).map FiringFigures.floor
      { state := q.state
        phase := q.phase
        floor := firing
        gas := allocated gas.1 b
        aux := allocated aux.1 b
        idle :=
          if q.state = .firingAux ∧ release.target ≠ some b then
            idleCount (s.dsp.allocations[b]).idle shortfall chosen
          else 0 }
    flags :=
      { shortage := shortage
        steamOver := steamOver
        holderFailed := decide (g.position = .levelFailed)
        turbineUnavailable := !s.turbineAvailable
        heatShort := decide (0 < shortfall) }
    request := if chosen then shed else release }

/-- A condition of R52: raised where a cycle finds its cause and the marker is clear, ended where it finds none and the
marker is set. -/
def State.tellMarker (s : State) (marker found : Bool) (c : ConditionClass) : State :=
  match marker, found with
  | false, true => s.tellRaise c 1
  | true, false => s.tellEnd c 1
  | _, _ => s

/-- The three conditions of a cycle, by the markers before it (R52). -/
def State.cycleConditions (s : State) (f : ResultFlags) : State :=
  let m := s.dsp.markers
  ((s.tellMarker m.shortage f.shortage .gasShortage).tellMarker m.steamOver f.steamOver .steamOverLimit).tellMarker
    m.heatShort f.heatShort .heatShortfall

/-- The allocation table, flare stages and result written, and the recovered fraction published (R41 i, R54, R59). -/
def State.writeResult (s : State) (r : DispatchResult) : State :=
  { s with dsp := { s.dsp with
    cycle := r.cycle
    lastCycle := s.osc
    allocations := r.boilers.map fun x => { gas := x.gas, aux := x.aux, idle := x.idle }
    flareDemand := r.flareDemand
    flareStages := r.flareStages
    fraction := r.heat.fraction
    markers := { shortage := r.flags.shortage, steamOver := r.flags.steamOver, heatShort := r.flags.heatShort }
    result := some r } }

/-- The setpoint frame of a cycle for a boiler whose state calls for one (R58 i). -/
def State.cycleFrame (s : State) (b : Boiler) : State :=
  let q := s.boilers[b]
  let a := s.dsp.allocations[b]
  match q.state with
  | .lighting => s.queueFrame b q.run (s.minimumFiring b)
  | .firingGas => s.queueFrame b (some .gas) a.gas
  | .firingAux => s.queueFrame b (some .aux) a.aux
  | .changeover => if q.phase = some .takeover then s.queueFrame b q.target (s.minimumFiring b) else s
  | .off | .purge | .tripped | .lockedOut => s

/-- The requests of a cycle, delivered to the sequencers (R55). -/
def State.deliver (s : State) : SentRequest → State
  | .nothing => s
  | .one k b => s.takeRequest b k
  | .shedAll l => s.inAnyOrder l fun s b => s.takeRequest b .shedShortage

/-- One whole dispatch cycle (R37): the figures request, the stages, the result and its conditions, the export
integrated (R108), the setpoint frames, and last the requests. -/
def State.dispatchCycle (s : State) : State :=
  let r := s.cycleResult s.gasFigures
  let s := (s.figuresRequest.cycleConditions r.flags).writeResult r
  let s := s.integrateExport r.heat.exported r.span r.flags.steamOver
  (s.meritOrder.foldl State.cycleFrame s).deliver r.request

/-- The dispatch timer has run out (R37). -/
def State.cycleDue (s : State) : Bool := decide (s.dsp.lastCycle + s.cfg.plant.period ≤ s.osc)

/-- DISPATCH_EXPIRY (R37). -/
def State.dispatchExpiry (s : State) : State := if s.cycleDue then s.dispatchCycle else s

/-! ### Set Plant Parameters and Set Merit List (R38, R39) -/

/-- The plant parameters within their ranges (R38). -/
def readPlant (f : RawPlant) : Option PlantParameters :=
  let p : PlantParameters :=
    { period := f.period.toNat, idleLimit := f.idleLimit.toNat, conversion := f.conversion.toNat,
      turbineMax := f.turbineMax.toNat, ownUse := f.ownUse.toNat, exchanger := f.exchanger.toNat,
      loss := f.loss.toNat, stageSize := f.stageSize.toNat }
  if 1 ≤ p.period ∧ p.period ≤ 30 ∧ 150 ≤ p.conversion ∧ p.conversion ≤ 450 ∧ p.turbineMax ≤ 2000000 ∧
      p.ownUse ≤ 200000 ∧ p.exchanger ≤ 2000000 ∧ p.loss ≤ 200000 ∧ 1 ≤ p.stageSize ∧ p.stageSize ≤ 1000000 then
    some p
  else none

/-- The owner's side of Set Plant Parameters: an expiry moved to this second or before it occurs at the request (R38). -/
def setPlantParametersOwner (f : RawPlant) (s : State) : Served :=
  match readPlant f with
  | none => refuse s .badField
  | some p =>
    let s := { s with cfg := { s.cfg with plant := p } }.markConfig
    done s.dispatchExpiry

/-- The owner's side of Set Merit List (R39). -/
def setMeritListOwner (boilers : List Byte) (s : State) : Served :=
  match boilers.mapM (numbered 8) with
  | none => refuse s .badField
  | some l =>
    if l.length ≤ 8 ∧ l.Nodup then done { s with cfg := { s.cfg with merit := l } }.markConfig
    else refuse s .badField

/-! ### The record of 276 bytes and Read Dispatch (R60, 12.4) -/

/-- The Gas Account part of the record: 54 bytes. -/
def GasFigures.bytes (g : GasFigures) : List Byte :=
  g.energies.toList.flatMap (field 4) ++ g.standings.toList.map SourceStanding.code ++ field 4 g.sourceEnergy ++
    field 2 g.networkCv ++ field 4 g.draw ++ signedField 4 g.surplus ++ field 4 (g.level.getD 0) ++
    [g.position.code] ++ signedField 4 g.correction ++ [g.marks]

def EarlyFigures.bytes (e : EarlyFigures) : List Byte :=
  field 4 e.available ++ field 4 e.demand ++ field 4 e.usable ++ field 4 e.effLimit ++ field 4 e.turbineLimit ++
    field 4 e.headroom ++ field 4 e.committed ++ field 4 e.gasFloors

def RaiseFigures.bytes (r : RaiseFigures) : List Byte :=
  field 4 r.remainingGas ++ field 4 r.remainingHeadroom ++ field 4 r.leftover ++ field 4 r.gasSteam ++
    field 4 r.auxFloorSteam ++ field 4 r.shortfall ++ field 4 r.auxSteam

def HeatFigures.bytes (h : HeatFigures) : List Byte :=
  field 4 h.delivered ++ field 4 h.recovered ++ field 4 h.auxiliary ++ field 4 h.turbine ++ field 4 h.power ++
    signedField 4 h.exported ++ field 2 h.fraction

def BoilerResult.bytes (b : BoilerResult) : List Byte :=
  [b.state.code] ++ codeOrNone b.phase Phase.code ++ field 4 (b.floor.getD 0) ++ field 4 b.gas ++ field 4 b.aux ++
    field 1 b.idle

/-- The Request part of the record (12.4). The manual gives no boiler byte where there is no request (log entry 38). -/
def SentRequest.bytes : SentRequest → List Byte
  | .nothing => [0xFF, Config.noRequestBoiler, 0]
  | .one k b => k.code :: numberByte b ++ [0]
  | .shedAll l => [ShedKind.shedShortage.code, 0, boilerSet l]

def DispatchResult.bytes (r : DispatchResult) : List Byte :=
  wordBytes r.cycle ++ field 4 r.time ++ field 1 r.span ++ field 1 r.period ++ r.figures.bytes ++ r.early.bytes ++
    r.raised.bytes ++ r.heat.bytes ++ field 1 r.flareDemand ++ field 1 r.flareStages ++
    r.boilers.toList.flatMap BoilerResult.bytes ++ [r.flags.byte] ++ r.request.bytes

/-- The plant parameters in the widths of Set Plant Parameters. -/
def PlantParameters.bytes (p : PlantParameters) : List Byte :=
  field 1 p.period ++ field 1 p.idleLimit ++ field 2 p.conversion ++ field 4 p.turbineMax ++ field 4 p.ownUse ++
    field 4 p.exchanger ++ field 4 p.loss ++ field 4 p.stageSize

def Allocation.bytes (a : Allocation) : List Byte := field 4 a.gas ++ field 4 a.aux ++ field 1 a.idle

/-- The owner's side of Read Dispatch (R60). -/
def readDispatchOwner (s : State) : Served :=
  (okWith (optionalItem 276 s.dsp.result DispatchResult.bytes ++ wordBytes s.dsp.cycle ++
    field 4 (s.dsp.lastCycle + s.cfg.plant.period - s.osc) ++
    s.dsp.allocations.toList.flatMap Allocation.bytes ++ field 1 s.dsp.flareStages ++ field 2 s.dsp.fraction ++
    countedList s.cfg.merit numberByte ++ s.cfg.plant.bytes), s)

/-! ### The meanings -/

/-- DISPATCH_EXPIRY (R37). -/
def execDispatchExpiry (s : State) : Host.Outcome State Fault Refusal := duringOperation s State.dispatchExpiry

/-- SET_PLANT_PARAMETERS (R38). -/
def execSetPlantParameters (f : RawPlant) (s : State) : Host.Outcome State Fault Refusal :=
  serveRequest s (setPlantParametersOwner f)

/-- SET_MERIT_LIST (R39). -/
def execSetMeritList (boilers : List Byte) (s : State) : Host.Outcome State Fault Refusal :=
  serveRequest s (setMeritListOwner boilers)

/-- READ_DISPATCH (R60). -/
def execReadDispatch (s : State) : Host.Outcome State Fault Refusal := serveRequest s readDispatchOwner

end Sys2Proof.Machine
end

