-- ==== Sys2Proof/Machine/Fields.lean ====
section
/-! DEFINITION. Field lines, field channels and measurement points (chapter 1), and the notices a point's consumer
receives (R18). -/

namespace Sys2Proof.Machine

/-! ### Notices (R18) -/

/-- The kind of channel a role draws on (section 1.3 (1)). -/
def Role.kind : Role → ChannelKind
  | .sourceFlow _ | .sourceCv _ | .worksFlow | .networkCv | .holderLevel => .measure
  | .turbineStatus | .boilerStatus _ => .status
  | .exportMeter | .heatMeter _ => .meter

/-- The failed event of a role's point, at its consumer (R18, R25, R32, R77, R107, R128). -/
def State.failedEvent (s : State) : Role → State
  | .sourceFlow n | .sourceCv n => s.sourceFailed n
  | .holderLevel => s.levelFailed
  | .boilerStatus b => s.statusFailed b
  | .exportMeter => s.exportFailed
  | .heatMeter k => s.heatFailed k
  | .worksFlow | .networkCv | .turbineStatus => s

/-- The restored event of a role's point, at its consumer (R18, R25, R77, R107 iii, R128). -/
def State.restoredEvent (s : State) : Role → State
  | .sourceFlow n | .sourceCv n => s.sourceRestored n
  | .boilerStatus b => s.statusRestored b
  | .holderLevel | .exportMeter | .heatMeter _ | .worksFlow | .networkCv | .turbineStatus => s

/-- The arrival of a new value, at the role's consumer (R18). -/
def State.arrival (s : State) (r : Role) (value : Quantity) (time : Nat) : State :=
  match r, value with
  | .holderLevel, .measure v => s.levelArrival v
  | .boilerStatus b, .status i => s.statusArrival b i
  | .exportMeter, .meter reading _ => s.exportArrival reading
  | .heatMeter k, .meter reading rate => s.heatArrival k reading rate time
  | _, _ => s

/-! ### Points (R12 to R17) -/

/-- A point's number as a condition source. -/
def pointNumber (p : PointNo) : Nat := p.val + 1

/-- The channels of a point with their ranks, highest first. -/
def PointConfig.ranked (c : PointConfig) : List (Rank × ChannelNo) :=
  (Rank.primary, c.primary) :: ((c.alternateA.map fun a => (Rank.alternateA, a)).toList ++
    (c.alternateB.map fun b => (Rank.alternateB, b)).toList)

/-- A point names a channel as a source. -/
def PointConfig.names (c : PointConfig) (ch : ChannelNo) : Bool := c.ranked.any fun x => decide (x.2 = ch)

/-- The highest-ranked LIVE channel of a point (R12). -/
def State.selection (s : State) (c : PointConfig) : Option (Rank × ChannelNo) :=
  c.ranked.find? fun x => decide ((s.channels[x.2]).state = .live)

/-- A value limited to the clamp limits (R13 i). -/
def PointConfig.clamp (c : PointConfig) (v : Int) : Int := if v < c.low then c.low else if c.high < v then c.high else v

/-- A point's value from a sample, and whether it needed limiting (R13). -/
def PointConfig.valueOf (c : PointConfig) : Quantity → Quantity × Bool
  | .measure raw =>
    let scaled := (raw * c.multiplier).tdiv c.divisor
    (.measure (c.clamp scaled), decide (c.clamp scaled ≠ scaled))
  | q => (q, false)

/-- A point serves from a channel: a new value, its timers stopped, the cause of POINT_FAILED ended if it was not
SERVING, and its notices: the restored event if it was unusable, then the arrival (R12, R13, R15). -/
def State.serve (s : State) (p : PointNo) (c : PointConfig) (rank : Rank) (ch : ChannelNo) : State :=
  let x := s.points[p]
  match (s.channels[ch]).last with
  | none => s
  | some sample =>
    let v := c.valueOf sample.body
    let time := (s.channels[ch]).lastTime
    let s := s.setPoint p
      { state := .serving, rank := some rank, value := some v.1, clamped := v.2, valueTime := time, holdDue := none,
        waitDue := none }
    let s := if x.state = .serving then s else s.tellEnd .pointFailed (pointNumber p)
    let s := if x.state = .failed ∨ x.state = .awaiting then s.restoredEvent c.role else s
    s.arrival c.role v.1 (time.getD 0)

/-- A point becomes FAILED: POINT_FAILED, then the failed event (R14). -/
def State.failPoint (s : State) (p : PointNo) (c : PointConfig) : State :=
  ((s.setPoint p { s.points[p] with state := .failed, holdDue := none }).tellRaise .pointFailed
    (pointNumber p)).failedEvent c.role

/-- A SERVING point loses its sources (R14). -/
def State.loseSources (s : State) (p : PointNo) (c : PointConfig) : State :=
  if 0 < c.hold then s.setPoint p { s.points[p] with state := .holding, holdDue := some (s.osc + c.hold) }
  else s.failPoint p c

/-- A point re-selects its source (R12). -/
def State.reselect (s : State) (p : PointNo) : State :=
  match s.cfg.points[p] with
  | none => s
  | some c =>
    let x := s.points[p]
    match s.selection c with
    | some (rank, ch) => if x.state = .serving ∧ x.rank = some rank then s else s.serve p c rank ch
    | none => if x.state = .serving then s.loseSources p c else s

/-- The points that name a channel. -/
def State.namedBy (s : State) (ch : ChannelNo) : List PointNo :=
  (List.finRange 128).filter fun p => (s.cfg.points[p]).any fun c => c.names ch

/-- The channel changes state: every point that names it re-selects, in any order (R12, R18). -/
def State.reselectAll (s : State) (ch : ChannelNo) : State := s.inAnyOrder (s.namedBy ch) State.reselect

/-- A SERVING point takes a new value from its selected channel (R13). -/
def State.refresh (s : State) (ch : ChannelNo) (p : PointNo) : State :=
  match s.cfg.points[p] with
  | none => s
  | some c =>
    match s.selection c with
    | some (rank, selected) =>
      if (s.points[p]).state = .serving ∧ (s.points[p]).rank = some rank ∧ selected = ch then s.serve p c rank ch else s
    | none => s

/-- The hold timer's expiry (R14 i). -/
def State.holdExpiry (s : State) (p : PointNo) : State :=
  match s.cfg.points[p] with
  | none => s
  | some c => if (s.points[p]).state = .holding ∧ s.expired (s.points[p]).holdDue then s.failPoint p c else s

/-- The waiting timer's expiry (R16): the point stays AWAITING. -/
def State.waitingExpiry (s : State) (p : PointNo) : State :=
  if (s.points[p]).state = .awaiting ∧ s.expired (s.points[p]).waitDue then
    (s.setPoint p { s.points[p] with waitDue := none }).tellRaise .pointFailed (pointNumber p)
  else s

/-! ### Channels (R3 to R6) -/

/-- A channel's number as a condition source. -/
def channelNumber (ch : ChannelNo) : Nat := ch.val + 1

/-- A sample is stored and the silence timer restarts (R4, R5). -/
def State.storeSample (s : State) (ch : ChannelNo) (x : Sample) : State :=
  s.setChannel ch { s.channels[ch] with
    last := some x, lastTime := some s.clock.reading, silenceFrom := some s.osc }

/-- A GOOD sample arrival (R4). -/
def State.goodArrival (s : State) (ch : ChannelNo) (x : Sample) : State :=
  let s := s.storeSample ch x
  let c := s.channels[ch]
  if c.state = .live then
    s.inAnyOrder (s.namedBy ch) (State.refresh · ch ·)
  else if c.goodRun < 2 then s.setChannel ch { c with goodRun := c.goodRun + 1 }
  else
    ((s.setChannel ch { c with goodRun := 0, state := .live }).tellEnd .channelLost (channelNumber ch)).reselectAll ch

/-- A SUSPECT sample arrival (R5). -/
def State.suspectArrival (s : State) (ch : ChannelNo) (x : Sample) : State :=
  let s := s.storeSample ch x
  let c := s.channels[ch]
  let s := s.setChannel ch { c with goodRun := 0, state := .suspect }
  if c.state = .suspect then s else s.reselectAll ch

/-- The silence timer's expiry (R6). -/
def State.silenceExpire (s : State) (ch : ChannelNo) : State :=
  let c := s.channels[ch]
  let s := s.setChannel ch { c with goodRun := 0, silenceFrom := none }
  if c.state = .live ∨ c.state = .suspect then
    ((s.setChannel ch { s.channels[ch] with state := .lost }).tellRaise .channelLost (channelNumber ch)).reselectAll ch
  else s

/-- The oscillator second at which a channel falls silent. -/
def State.silenceDue (s : State) (ch : ChannelNo) : Option Nat :=
  (s.channels[ch]).silenceFrom.map fun t => t + (s.cfg.channels[ch]).silence

/-- SILENCE_EXPIRY, where the timer has run out (R6). -/
def State.silenceExpiry (s : State) (ch : ChannelNo) : State :=
  if s.expired (s.silenceDue ch) then s.silenceExpire ch else s

/-! ### Frames (R1, R2) -/

/-- The bytes of a body, its quality byte included (12.3). -/
def ChannelKind.bodyLength : ChannelKind → Nat
  | .measure => 5
  | .status => 2
  | .meter => 9

/-- The quality a quality code gives (R2). -/
def readQuality (v : Byte) : Quality := if v = 0 then .good else .suspect

/-- The sample of a body (R2, 12.3). -/
def readBody (kind : ChannelKind) (body : List Byte) : Sample :=
  match kind with
  | .measure => { body := .measure (wordAt body 0).toInt, quality := readQuality (byteAt body 4) }
  | .status => { body := .status (readIndications (byteAt body 0)), quality := readQuality (byteAt body 1) }
  | .meter =>
    let reading := (wordAt body 0).toNat
    let rate := (wordAt body 4).toNat
    { body := .meter reading rate
      quality := if 99999999 < reading ∨ 2000000 < rate then .suspect else readQuality (byteAt body 8) }

/-- A sample arrival at a channel (R4, R5). -/
def State.sampleArrival (s : State) (ch : ChannelNo) (x : Sample) : State :=
  match x.quality with
  | .good => s.goodArrival ch x
  | .suspect => s.suspectArrival ch x

/-- A frame after its marker, checked and delivered, or discarded without trace (R1, R2). -/
def State.takeFrame (s : State) (channel kind : Byte) (body : List Byte) (check : Byte) : State :=
  match readFrameKind kind, numbered 96 channel with
  | some k, some ch =>
    if body.length = k.bodyLength ∧ check = crc8 (channel :: kind :: body) ∧ (s.cfg.channels[ch]).kind = k then
      s.sampleArrival ch (readBody k body)
    else s
  | _, _ => s

def State.setLine (s : State) (l : FieldLineNo) (x : FieldLine) : State := { s with lines := s.lines.set l x }

/-- FIELD_SAMPLE_FRAME: the line has a whole frame, and returns to hunting (R1). -/
def State.fieldFrame (s : State) (l : FieldLineNo) (channel kind : Byte) (body : List Byte) (check : Byte) : State :=
  (s.setLine l .hunting).takeFrame channel kind body check

/-- A byte on a field line (R1). -/
def State.fieldByte (s : State) (l : FieldLineNo) (byte : Byte) (stopBit : Bool) : State :=
  if ¬ stopBit then s.setLine l .hunting
  else
    match s.lines[l] with
    | .hunting => if byte = 0xA6 then s.setLine l .awaitChannel else s
    | .awaitChannel => s.setLine l (.awaitKind byte)
    | .awaitKind channel =>
      if (readFrameKind byte).isSome then s.setLine l (.body channel byte []) else s.setLine l .hunting
    | .body channel kind taken =>
      if taken.length < (readFrameKind kind).elim 0 ChannelKind.bodyLength then
        s.setLine l (.body channel kind (taken ++ [byte]))
      else s.fieldFrame l channel kind taken byte

/-! ### Configure Channel and Read Channel (R3, R7) -/

/-- A channel's new configuration. -/
def State.putChannelConfig (s : State) (ch : ChannelNo) (c : ChannelConfig) : State :=
  { s with cfg := { s.cfg with channels := s.cfg.channels.set ch c } }.markConfig

/-- The owner's side of Configure Channel (R3). -/
def configureChannelOwner (channel kind : Byte) (silence : Half) (s : State) : Served :=
  match numbered 96 channel, readKind kind with
  | some ch, some k =>
    let old := s.cfg.channels[ch]
    let new : ChannelConfig := { kind := k, silence := silence.toNat }
    if new.silence < 1 ∨ 600 < new.silence then refuse s .badField
    else if new = old then done s
    else if k ≠ old.kind then
      if (s.namedBy ch).isEmpty then
        done (((s.putChannelConfig ch new).setChannel ch .start).tellEnd .channelLost (channelNumber ch))
      else refuse s .busy
    else
      let s := s.putChannelConfig ch new
      done (if (s.silenceDue ch).any fun t => decide (t < s.osc) then s.silenceExpire ch else s)
  | _, _ => refuse s .badField

/-- A value or sample body without its quality byte (12.3). -/
def Quantity.bytes : Quantity → List Byte
  | .measure v => signedField 4 v
  | .status i => [i.byte]
  | .meter reading rate => field 4 reading ++ field 4 rate

def Quality.code : Quality → Byte
  | .good => 0
  | .suspect => 1

def Sample.bytes (x : Sample) : List Byte := x.body.bytes ++ [x.quality.code]

/-- The owner's side of Read Channel (R7). -/
def readChannelOwner (channel : Byte) (s : State) : Served :=
  match numbered 96 channel with
  | none => refuse s .badField
  | some ch =>
    let x := s.channels[ch]
    let c := s.cfg.channels[ch]
    (okWith ([c.kind.code] ++ field 2 c.silence ++ [x.state.code] ++ field 1 x.goodRun ++
      optionalItem c.kind.bodyLength x.last Sample.bytes ++ optionalItem 4 x.lastTime (field 4) ++
      s.remainingBytes (s.silenceDue ch)), s)

/-! ### Configure Point and Read Point (R9 to R11, R19) -/

/-- Another slot than `p` holds a point for the role. -/
def State.roleHeldElsewhere (s : State) (p : PointNo) (r : Role) : Bool :=
  (List.finRange 128).any fun q => decide (q ≠ p) && (s.cfg.points[q]).any fun c => decide (c.role = r)

/-- The given channels of a point, in rank order. -/
def PointConfig.given (c : PointConfig) : List ChannelNo := c.ranked.map (·.2)

/-- The relations of R9 among the fields of a point. -/
def State.pointFits (s : State) (p : PointNo) (c : PointConfig) : Bool :=
  !s.roleHeldElsewhere p c.role && (c.alternateB.isNone || c.alternateA.isSome) && decide c.given.Nodup &&
    c.given.all (fun ch => decide ((s.cfg.channels[ch]).kind = c.role.kind)) &&
    (decide (c.role.kind ≠ .meter) || c.alternateA.isNone && c.alternateB.isNone) &&
    decide (c.multiplier ≠ 0 ∧ c.divisor ≠ 0 ∧ c.low ≤ c.high ∧ c.hold ≤ 3600) &&
    (decide (c.role.kind ≠ .status) || decide (c.hold = 0)) &&
    (decide (c.role.kind = .measure) || decide (c.multiplier = 1 ∧ c.divisor = 1 ∧ c.low = 0 ∧ c.high = 0))

/-- The fields of Configure Point for a role, where each names a value (R9). -/
def readPointFields (r : Role) (f : RawPoint) : Option PointConfig :=
  match numbered 96 f.primary, readOptionalChannel f.alternateA, readOptionalChannel f.alternateB with
  | some p, some a, some b =>
    some { role := r, primary := p, alternateA := a, alternateB := b, multiplier := f.multiplier.toNat,
           divisor := f.divisor.toNat, low := f.low.toInt, high := f.high.toInt, hold := f.hold.toNat }
  | _, _, _ => none

/-- The configuration a Configure Point request gives: the inner none for role "none", the outer none for
BAD_FIELD (R9, R179 iii). -/
def State.readPointRequest (s : State) (p : PointNo) (f : RawPoint) : Option (Option PointConfig) :=
  if f.role = 0xFF then some none
  else
    match readRole f.role f.instanceNo with
    | some (some r) => ((readPointFields r f).filter (s.pointFits p)).map some
    | _ => none

/-- A role whose owner does not let its point be configured now (R10). -/
def State.roleBusy (s : State) : Role → Bool
  | .boilerStatus b => decide ((s.boilers[b]).state ≠ .off)
  | .heatMeter k => decide ((s.acc.meters[k]).state ≠ .fresh ∧ (s.acc.meters[k]).state ≠ .disconnected)
  | .exportMeter => s.usable .exportMeter
  | .sourceFlow _ | .sourceCv _ | .worksFlow | .networkCv | .holderLevel | .turbineStatus => false

/-- A slot's new configuration. -/
def State.putPointConfig (s : State) (p : PointNo) (c : Option PointConfig) : State :=
  { s with cfg := { s.cfg with points := s.cfg.points.set p c } }.markConfig

/-- A point reconfigured under its role (R11 i). -/
def State.reconfigure (s : State) (p : PointNo) (c : PointConfig) : State :=
  let x := s.points[p]
  let s := s.putPointConfig p (some c)
  match s.selection c with
  | some (rank, ch) => s.serve p c rank ch
  | none =>
    match x.state with
    | .serving => s.loseSources p c
    | .holding =>
      if c.hold = 0 then s.failPoint p c else s.setPoint p { x with holdDue := some (s.osc + c.hold) }
    | .awaiting => s.setPoint p { x with waitDue := some (s.osc + Config.startWait) }
    | .failed | .unconfigured => s

/-- The old role leaves the slot, which takes the configuration `c` (R11 ii and iii). -/
def State.replacePoint (s : State) (p : PointNo) (old c : Option PointConfig) (x : Point) : State :=
  let usable := (s.points[p]).usable
  let s := (s.putPointConfig p c).setPoint p x
  let s := match old with
    | some o => if usable then s.failedEvent o.role else s
    | none => s
  s.tellEnd .pointFailed (pointNumber p)

/-- A fresh point (R11 ii, R16, R20). -/
def State.freshPoint (s : State) : Point :=
  { Point.vacant with state := .awaiting, waitDue := some (s.osc + Config.startWait) }

/-- An accepted Configure Point (R11). -/
def State.configurePoint (s : State) (p : PointNo) (c : Option PointConfig) : State :=
  match s.cfg.points[p], c with
  | some o, some n =>
    if o.role = n.role then s.reconfigure p n
    else (s.replacePoint p (some o) (some n) s.freshPoint).reselect p
  | none, some n => (s.replacePoint p none (some n) s.freshPoint).reselect p
  | o, none => s.replacePoint p o none .vacant

/-- The owner's side of Configure Point (R9 to R11). -/
def configurePointOwner (slot : Byte) (f : RawPoint) (s : State) : Served :=
  match numbered 128 slot with
  | none => refuse s .badField
  | some p =>
    match s.readPointRequest p f with
    | none => refuse s .badField
    | some c =>
      if (s.cfg.points[p]).any (fun o => s.roleBusy o.role) ∨ c.any fun n => s.roleBusy n.role then refuse s .busy
      else done (s.configurePoint p c)

/-- The bytes of a point's value, by the kind of its role; an unconfigured slot has none. -/
def PointConfig.valueWidth (c : PointConfig) : Nat := c.role.kind.bodyLength - 1

/-- The configuration part of Read Point; "none" is FFh (R19, R179 i). DESIGN CHOICE for an UNCONFIGURED slot: instance,
multiplier, divisor, clamp limits and hold limit are sent as 0, without presence bytes (log entry 32). -/
def pointConfigBytes : Option PointConfig → List Byte
  | none => [0xFF, 0, 0xFF, 0xFF, 0xFF] ++ List.replicate 14 0
  | some c =>
    c.role.bytes ++ numberByte c.primary ++ c.alternateA.elim [0xFF] numberByte ++ c.alternateB.elim [0xFF] numberByte ++
      field 2 c.multiplier ++ field 2 c.divisor ++ signedField 4 c.low ++ signedField 4 c.high ++ field 2 c.hold

/-- The owner's side of Read Point (R19). -/
def readPointOwner (slot : Byte) (s : State) : Served :=
  match numbered 128 slot with
  | none => refuse s .badField
  | some p =>
    let x := s.points[p]
    (okWith (pointConfigBytes s.cfg.points[p] ++ [x.state.code] ++ codeOrNone x.rank Rank.code ++
      optionalItem ((s.cfg.points[p]).elim 4 fun c => c.valueWidth + 4) x.value
        (fun v => v.bytes ++ field 4 (x.valueTime.getD 0)) ++
      flagByte x.clamped ++ s.remainingBytes (x.holdDue.or x.waitDue)), s)

/-! ### The meanings -/

/-- FIELD_SAMPLE_FRAME (R1, R2). -/
def execFieldSampleFrame (l : FieldLineNo) (channel kind : Byte) (body : List Byte) (check : Byte) (s : State) :
    Host.Outcome State Fault Refusal :=
  duringOperation s (·.fieldFrame l channel kind body check)

/-- FIELD_LINE_BYTE_RECEIVED (R1). -/
def execFieldLineByteReceived (l : FieldLineNo) (byte : Byte) (stopBit : Bool) (s : State) :
    Host.Outcome State Fault Refusal :=
  duringOperation s (·.fieldByte l byte stopBit)

/-- FIELD_FRAME_GAP_EXPIRY: more than 25 ms within a frame; the frame is discarded (R1). -/
def execFieldFrameGapExpiry (l : FieldLineNo) (s : State) : Host.Outcome State Fault Refusal :=
  duringOperation s (·.setLine l .hunting)

/-- SILENCE_EXPIRY (R6). -/
def execSilenceExpiry (ch : ChannelNo) (s : State) : Host.Outcome State Fault Refusal :=
  duringOperation s (·.silenceExpiry ch)

/-- HOLD_EXPIRY (R14). -/
def execHoldExpiry (p : PointNo) (s : State) : Host.Outcome State Fault Refusal := duringOperation s (·.holdExpiry p)

/-- WAITING_TIMER_EXPIRY (R16). -/
def execWaitingTimerExpiry (p : PointNo) (s : State) : Host.Outcome State Fault Refusal :=
  duringOperation s (·.waitingExpiry p)

/-- CONFIGURE_CHANNEL (R3). -/
def execConfigureChannel (channel kind : Byte) (silence : Half) (s : State) : Host.Outcome State Fault Refusal :=
  serveRequest s (configureChannelOwner channel kind silence)

/-- READ_CHANNEL (R7). -/
def execReadChannel (channel : Byte) (s : State) : Host.Outcome State Fault Refusal :=
  serveRequest s (readChannelOwner channel)

/-- CONFIGURE_POINT (R9 to R11). -/
def execConfigurePoint (slot : Byte) (f : RawPoint) (s : State) : Host.Outcome State Fault Refusal :=
  serveRequest s (configurePointOwner slot f)

/-- READ_POINT (R19). -/
def execReadPoint (slot : Byte) (s : State) : Host.Outcome State Fault Refusal := serveRequest s (readPointOwner slot)

end Sys2Proof.Machine
end

