-- ==== Sys2Proof/Machine/Clock.lean ====
section
/-! DEFINITION. Calendar clock, retained store and start-up (chapter 11): the clock second and its wrap, Set Time,
Set Local Offset, Read Time, Factory Clear, power, RESET and the restart; and the output lines. -/

namespace Sys2Proof.Machine

/-! ### The clock second (R172) -/

/-- A second of the oscillator passes in the running module: its timers count, and the close of R142 is of an
earlier second. -/
def State.secondPasses (s : State) : State :=
  { s with osc := if s.running then s.osc + 1 else s.osc, bu := { s.bu with closedNow := false } }

/-- A reading that is a whole-minute boundary is due to the HMU (R129). -/
def State.noteMinute (s : State) : State :=
  if s.running ∧ s.clock.reading % 60 = 0 then { s with hmu := { s.hmu with minuteDue := true } } else s

/-- A second whose reading is not the last: the reading increases by 1 (R172). -/
def State.plainSecond (s : State) : State :=
  ({ s.secondPasses with clock := { s.clock with reading := s.clock.reading + 1 } }).noteMinute

/-- The second after the last reading: the clock starts again from 0, INVALID (R172). The running module raises
TIME_STEP, and the ESU closes its interval (R103, R115). -/
def State.wrapSecond (s : State) : State :=
  let s := ({ s.secondPasses with clock := { s.clock with reading := 0, valid := false } }).noteMinute
  if s.running then (s.tellReport .timeStep 1).scheduleWrap.endEvent else s

/-- A second of the calendar oscillator, in every state of the module (R172). -/
def State.clockSecond (s : State) : State := if s.clock.reading < Config.lastReading then s.plainSecond else s.wrapSecond

/-! ### Set Time, Set Local Offset, Read Time (R173 to R175) -/

/-- The reading becomes `v`; the HMU's next boundary is one after it, and a close of R142 was at another second. -/
def State.putReading (s : State) (v : Nat) : State :=
  { s with
    clock := { s.clock with reading := v, valid := true }
    hmu := { s.hmu with minuteDue := false }
    bu := { s.bu with closedNow := s.bu.closedNow && decide (v = s.clock.reading) } }

/-- The owner's side of Set Time (R173, R174). The two blocks a step reaches touch different state. -/
def setTimeOwner (reading : Word) (s : State) : Served :=
  let v := reading.toNat
  let u := s.clock.reading
  if Config.lastReading < v then refuse s .badField
  else if ¬ s.clock.valid then
    done ((s.putReading v).tellReport .timeStep 1).scheduleStart.billingStart
  else if v = u then done s
  else
    let s := s.putReading v
    let s := if max u v - min u v ≤ smallStep then s else s.tellReport .timeStep 1
    done (s.scheduleStep u).reckonCloses

/-- The owner's side of Set Local Offset (R175). DESIGN CHOICE: an offset stored while the clock is INVALID replaces the one
in force at once, so that local time (R173) and the grid of boundaries (R89) follow it from the request (log entry 46). -/
def setLocalOffsetOwner (minutes : Half) (s : State) : Served :=
  let m := minutes.toInt
  if m < -720 ∨ 840 < m then refuse s .badField
  else if m = s.clock.offset then done s
  else
    let s := { s with clock := { s.clock with offset := m } }
    done (if s.clock.valid then s.scheduleOffset.reckonCloses else s)

/-- WORKDAY is listed first (R139 i, R179 i). -/
def DayType.code : DayType → Byte
  | .workday => 0
  | .rest => 1

/-- The owner's side of Read Time (R173). The clock states are listed VALID, INVALID; the weekdays from Monday. -/
def readTimeOwner (s : State) : Served :=
  let t := s.clock.localTime
  let d := localDate t
  (okWith (field 4 s.clock.reading ++ [if s.clock.valid then 0 else 1] ++ signedField 2 s.clock.offset ++
    field 2 d.year ++ field 1 d.month ++ field 1 d.day ++ field 1 (localHour t) ++ field 1 (secondOfDay t / 60 % 60) ++
    field 1 (secondOfDay t % 60) ++ field 1 (weekday t) ++ [(s.cfg.dayType t).code]), s)

/-! ### Start values and the restart (R177) -/

/-- The points as a restart leaves them: configured ones AWAITING with the waiting timer started (R20). -/
def startPoints (c : ConfigRegion) : Vector Point 128 :=
  c.points.map fun x =>
    if x.isSome then { Point.vacant with state := .awaiting, waitDue := some Config.startWait } else .vacant

/-- The module in its start state: the working regions as the store holds them, every block at its volatile start
values (R177). The close of the present second is no start value (R142). DESIGN CHOICE: the four field lines hunt, a frame
half received being lost (log entry 47). -/
def State.atStart (s : State) : State :=
  let cfg := s.store.config.contents .default
  { s with
    osc := 0
    marks := { config := false, accounts := false, queues := false }
    acts := []
    cfg := cfg
    acc := s.store.accounts.contents .default
    que := s.store.queues.contents .default
    lines := Vector.replicate 4 .hunting
    channels := Vector.replicate 96 .start
    points := startPoints cfg
    gas := .start
    dsp := .start
    boilers := Vector.replicate 8 (.start s.clock.reading)
    esu := .start
    hmu := .start
    bu := { BillingUnit.start with closedNow := s.bu.closedNow }
    conditions := Vector.replicate 128 none
    hlu := .start }

/-- A copy found unsound at the check (R176). -/
def Store.damage (x : Store) : Region × CopyName → Store
  | (.config, c) => { x with config := x.config.damage c }
  | (.accounts, c) => { x with accounts := x.accounts.damage c }
  | (.queues, c) => { x with queues := x.queues.damage c }

/-- The check of the three regions, with the contents each takes where it fails (R176). -/
def Store.checked (x : Store) (config : ConfigRegion) (accounts : AccountsRegion) (queues : QueuesRegion) : Store :=
  { config := x.config.checked config, accounts := x.accounts.checked accounts, queues := x.queues.checked queues }

/-- The battery domain found lost: reading 0, INVALID, offset 0 (R172). -/
def State.batteryLost (s : State) : State :=
  { s with clock := { reading := 0, valid := false, offset := 0 }, bu := { s.bu with closedNow := false } }

/-- The defaults a restart gives a failed ACCOUNTS region, with the CONFIG contents that it finds in `x` (R135 i, R153 i). -/
def State.accountsRestored (s : State) (x : Store) : AccountsRegion :=
  .restored (x.config.contents .default) s.clock.reading (if s.clock.valid then some s.clock.localTime else none)

/-- RETAINED_STORE_LOST for a region that failed its check (R176). -/
def State.tellLost {α : Type} (s : State) (r : Retained α) (region : Nat) : State :=
  if r.state = .restored then s.tellReport .retainedStoreLost region else s

/-- What the CRS and the first sequencer report at a restart (R84, R172, R176). -/
def State.tellRestart (s : State) (batteryLost : Bool) : State :=
  let s := if batteryLost then s.tellReport .timeStep 1 else s
  let s := ((s.tellLost s.store.config 1).tellLost s.store.accounts 2).tellLost s.store.queues 3
  if s.plantRelease then s else s.tellRaise .plantReleaseLost 1

/-- The restart: the battery domain examined, the regions checked, every block started (R177). The BU's closes use
the substation states as the ACCOUNTS region holds them (R152), so the HMU's change of them stands after. -/
def State.restart (s : State) (found : StoreFinding) : State :=
  let s := if found.batteryLost then s.batteryLost else s
  let store := found.unsound.foldl Store.damage s.store
  let s := { s with store := store.checked .default (s.accountsRestored store) .default }.atStart
  let s := (s.tellRestart found.batteryLost).scheduleRestart.billingRestart
  (s.metersRestart (decide (s.store.config.state = .restored))).tellHeat.endEvent

/-- Nothing lost. -/
def nothingLost : StoreFinding := { batteryLost := false, unsound := [] }

/-- POWER_ON: power returns; while RESET is held the restart waits for its release (R177). -/
def State.powerOn (s : State) (found : StoreFinding) : State :=
  if s.powered then s
  else
    let s := { s with powered := true }
    if s.resetHeld then s.atStart else s.restart found

/-- RESET_ASSERTED: the module stands in its start state while RESET is held (R177). -/
def State.assertReset (s : State) : State :=
  let held := { s with resetHeld := true }
  if s.running then held.atStart else held

/-- RESET_RELEASED: the restart begins (R177). -/
def State.releaseReset (s : State) (found : StoreFinding) : State :=
  if s.resetHeld then
    let s := { s with resetHeld := false }
    if s.powered then s.restart found else s
  else s

/-- The store when power fails: the copy of a region being written is spoilt (R176). -/
def Store.cut (x : Store) : Option Region → Store
  | none => x
  | some .config => { x with config := x.config.spoil }
  | some .accounts => { x with accounts := x.accounts.spoil }
  | some .queues => { x with queues := x.queues.spoil }

/-- POWER_FAILURE: everything but the battery domain is lost (R176). -/
def State.powerFail (s : State) (writing : Option Region) : State :=
  if s.powered then { s with powered := false, store := s.store.cut writing }.atStart else s

/-! ### Factory Clear (R178) -/

/-- Some GAS PERMIT or AUX PERMIT is open. -/
def State.permitOpen (s : State) : Bool := s.boilers.toList.any fun q => q.gasPermit || q.auxPermit

/-- Both copies of each region rewritten with the defaults; the states Identify reports stand until the restart. -/
def Store.cleared (x : Store) : Store :=
  { config := .rewritten .default x.config.state, accounts := .rewritten .default x.accounts.state,
    queues := .rewritten .default x.queues.state }

/-- The owner's side of Factory Clear (R178): the restart follows the reply. -/
def factoryClearOwner (s : State) : Served :=
  if s.permitOpen then refuse s .locked
  else done { s with store := s.store.cleared, hlu := { s.hlu with restartDue := true } }

/-! ### The output lines (R85, R54, R160, R176, R177) -/

/-- An output's level: none while the module has no power to drive it. -/
def State.driven {α : Type} (s : State) (x : α) : Option α := if s.powered then some x else none

def State.gasPermitLine (s : State) (b : Boiler) : Option Bool := s.driven (s.boilers[b]).gasPermit
def State.auxPermitLine (s : State) (b : Boiler) : Option Bool := s.driven (s.boilers[b]).auxPermit

/-- FLARE STAGE n is on while the actual flare stages are n or more (R54). -/
def State.flareLine (s : State) (n : Nat) : Option Bool := s.driven (decide (n ≤ s.dsp.flareStages))

def State.alertLine (s : State) : Option Bool := s.driven s.alert
def State.faultOutput (s : State) : Option Bool := s.driven s.faultLine

/-! ### The meanings -/

/-- POWER_ON (R177). -/
def execPowerOn (found : StoreFinding) (s : State) : Host.Outcome State Fault Refusal := .next (s.powerOn found)

/-- RESET_ASSERTED (R177). -/
def execResetAsserted (s : State) : Host.Outcome State Fault Refusal := .next s.assertReset

/-- RESET_RELEASED (R177). -/
def execResetReleased (found : StoreFinding) (s : State) : Host.Outcome State Fault Refusal :=
  .next (s.releaseReset found)

/-- CLOCK_WRAP: the second after the last reading (R172). -/
def execClockWrap (s : State) : Host.Outcome State Fault Refusal :=
  .next (if s.clock.reading < Config.lastReading then s else s.wrapSecond)

/-- CALENDAR_CLOCK_SECOND (R172). -/
def execCalendarClockSecond (s : State) : Host.Outcome State Fault Refusal := .next s.clockSecond

/-- POWER_FAILURE (R176). -/
def execPowerFailure (writing : Option Region) (s : State) : Host.Outcome State Fault Refusal :=
  .next (s.powerFail writing)

/-- SET_TIME (R173, R174). -/
def execSetTime (reading : Word) (s : State) : Host.Outcome State Fault Refusal := serveRequest s (setTimeOwner reading)

/-- SET_LOCAL_OFFSET (R175). -/
def execSetLocalOffset (minutes : Half) (s : State) : Host.Outcome State Fault Refusal :=
  serveRequest s (setLocalOffsetOwner minutes)

/-- READ_TIME (R173). -/
def execReadTime (s : State) : Host.Outcome State Fault Refusal := serveRequest s readTimeOwner

/-- FACTORY_CLEAR (R178). -/
def execFactoryClear (s : State) : Host.Outcome State Fault Refusal := serveRequest s factoryClearOwner

end Sys2Proof.Machine
end

