-- ==== Sys2Proof/Machine/Link.lean ====
section
/-! DEFINITION. The host link (chapter 10): frame assembly, the request slot and BUSY, replies, and the owners of
the request kinds. -/

namespace Sys2Proof.Machine

/-! ### Identify and the owners (R166 iii, R170) -/

/-- The owner's side of Identify (R170). -/
def identifyOwner (s : State) : Served :=
  (okWith (field 1 Config.vendorCode ++ field 2 Config.partCode ++ field 1 Config.revision ++
    field 2 Config.largestPayload ++
    [s.store.config.state.code, s.store.accounts.state.code, s.store.queues.state.code]), s)

/-- The owner of each request kind (section 10.4). A command that is no request has none. -/
def owner : Instr → Option (State → Served)
  | .identify => some identifyOwner
  | .setTime v => some (setTimeOwner v)
  | .readTime => some readTimeOwner
  | .setLocalOffset m => some (setLocalOffsetOwner m)
  | .setHolidays mask dates => some (setHolidaysOwner mask dates)
  | .factoryClear => some factoryClearOwner
  | .configureChannel c k l => some (configureChannelOwner c k l)
  | .readChannel c => some (readChannelOwner c)
  | .configurePoint p f => some (configurePointOwner p f)
  | .readPoint p => some (readPointOwner p)
  | .configureSource n d => some (configureSourceOwner n d)
  | .setSourceService n v => some (setSourceServiceOwner n v)
  | .configureHolder f => some (configureHolderOwner f)
  | .selectHolderLimits v => some (selectHolderLimitsOwner v)
  | .setPlantParameters f => some (setPlantParametersOwner f)
  | .setMeritList l => some (setMeritListOwner l)
  | .configureBoiler f => some (configureBoilerOwner f)
  | .readDispatch => some readDispatchOwner
  | .startGas b => some (startGasOwner b)
  | .startAux b => some (startAuxOwner b)
  | .stop b => some (stopOwner b)
  | .changeover b => some (changeoverOwner b)
  | .resetLockout b => some (resetLockoutOwner b)
  | .readBoiler b => some (readBoilerOwner b)
  | .setExportContract l n g => some (setExportContractOwner l n g)
  | .submitNomination t e => some (submitNominationOwner t e)
  | .withdrawNomination t => some (withdrawNominationOwner t)
  | .readNominations => some readNominationsOwner
  | .submitCurtailment r k l t e => some (submitCurtailmentOwner r k l t e)
  | .cancelCurtailment r => some (cancelCurtailmentOwner r)
  | .readCurtailments => some readCurtailmentsOwner
  | .fetchSettlementRecord => some fetchSettlementOwner
  | .releaseSettlementRecord n => some (releaseSettlementOwner n)
  | .configureSubstation k a g m e => some (configureSubstationOwner k a g m e)
  | .connect k => some (connectOwner k)
  | .disconnect k => some (disconnectOwner k)
  | .accept k => some (acceptOwner k)
  | .reject k => some (rejectOwner k)
  | .readSubstation k => some (readSubstationOwner k)
  | .stageTariff t => some (stageTariffOwner t)
  | .cancelStagedTariff => some cancelStagedTariffOwner
  | .closePeriodNow => some closePeriodNowOwner
  | .fetchBill => some fetchBillOwner
  | .releaseBill n => some (releaseBillOwner n)
  | .fetchCondition => some fetchConditionOwner
  | .clearCondition c n => some (clearConditionOwner c n)
  | .readConditions n => some (readConditionsOwner n)
  | .setFaultMask m => some (setFaultMaskOwner m)
  | .setLatchMode c m => some (setLatchModeOwner c m)
  | .powerOn _ | .resetAsserted | .resetReleased _ | .clockWrap | .fieldSampleFrame _ _ _ _ _
  | .fieldFrameGapExpiry _ | .silenceExpiry _ | .holdExpiry _ | .waitingTimerExpiry _ | .filterExpiry _
  | .dispatchExpiry | .setpointFrameSent | .purgeExpiry _ | .lightOffExpiry _ | .confirmExpiry _ | .deadExpiry _
  | .tripHistoryAgeingExpiry _ | .plantReleaseFall | .plantReleaseRise | .boundaryExpiry | .gateExpiry
  | .emergencyStart _ | .ordinaryStart _ | .activeOrderEnd | .inactiveOrderEnd _ | .meterWaitExpiry
  | .estimationMinute | .startUpWatchExpiry | .closeExpiry | .hostFrameValid _ _ _ | .frameAbandoned | .hostGapExpiry
  | .replySent | .hostLinkByteReceived _ _ | .fieldLineByteReceived _ _ _ | .powerFailure _
  | .calendarClockSecond => none

/-- A request checked by the HLU and handed to its owner (R166). -/
def handleRequest (kind : Byte) (payload : List Byte) (s : State) : Served :=
  match decodeRequest kind payload with
  | .error c => refuse s c
  | .ok i =>
    match owner i with
    | some f => f s
    | none => refuse s .unknownKind

/-! ### Replies (R167 to R169) -/

/-- The bytes that CHECK covers: LENGTH, KIND, TAG and the payload (R163). -/
def frameCore (kind tag : Byte) (payload : List Byte) : List Byte :=
  halfBytes (BitVec.ofNat 16 payload.length) ++ [kind, tag] ++ payload

/-- A frame of the host link (R163). -/
def linkFrame (kind tag : Byte) (payload : List Byte) : List Byte :=
  [0xF5, 0x0A] ++ frameCore kind tag payload ++ halfBytes (crc16 (frameCore kind tag payload))

/-- The reply to a request, with the flags as they stand (R167). -/
def replyFrame (r : LinkRequest) (a : Answer) (restarted alertPending : Bool) : List Byte :=
  linkFrame (r.kind + 0x80) r.tag (a.status.code :: replyFlags restarted alertPending :: a.contents)

/-- A change of the HLU's own state. -/
def State.setLink (s : State) (h : HostLink) : State := { s with hlu := h }

/-! ### Valid and abandoned frames (R164, R165) -/

/-- The frame is abandoned: LINK_ERROR is raised and the marker set (R164). -/
def State.abandonFrame (s : State) : State :=
  (s.setLink { s.hlu with assembler := .hunt false, linkError := true }).tellRaise .linkError 1

/-- What every valid frame does: the assembler hunts, the cause of LINK_ERROR ends, RESTARTED clears (R164, R168). -/
def State.greetFrame (s : State) : State :=
  let marked := s.hlu.linkError
  let s := s.setLink { s.hlu with assembler := .hunt false, linkError := false, restarted := false }
  if marked then s.endCause .linkError 1 else s

/-- A valid frame is taken into the slot: its owner acts, and its reply is formed and begins to be sent (R165 to R168).
ALERT in the reply is its level once the table has acted. -/
def State.takeRequestFrame (s : State) (r : LinkRequest) (payload : List Byte) (restarted : Bool) : State :=
  let served := handleRequest r.kind payload s
  let s := served.record.takeActs
  s.setLink { s.hlu with slot := some r, transmitter := some (replyFrame r served.1 restarted s.alert) }

/-- A valid frame, by the slot, the transmitter and the refusal store (R165). -/
def State.validFrame (s : State) (kind tag : Byte) (payload : List Byte) : State :=
  let restarted := s.hlu.restarted
  let s := s.greetFrame
  let r : LinkRequest := { kind := kind, tag := tag }
  if s.hlu.slot = none ∧ s.hlu.transmitter = none then s.takeRequestFrame r payload restarted
  else if s.hlu.refusal = none then s.setLink { s.hlu with refusal := some r }
  else s

/-- The last byte of a reply is sent: the slot empties, and a stored BUSY reply is formed and sent, or the
transmitter is IDLE (R165). -/
def State.replyEnds (s : State) : State :=
  match s.hlu.transmitter, s.hlu.refusal with
  | none, _ => s
  | some _, none => s.setLink { s.hlu with slot := none, transmitter := none }
  | some _, some r =>
    s.setLink { s.hlu with
      slot := none, refusal := none
      transmitter := some (replyFrame r Status.busy.answer s.hlu.restarted s.alert) }

/-- REPLY_SENT; after the reply to an accepted Factory Clear the module restarts (R165, R178). -/
def State.replySent (s : State) : State := if s.hlu.restartDue then s.restart nothingLost else s.replyEnds

/-! ### The receive frame assembler (R163) -/

def State.setAssembler (s : State) (a : Assembler) : State := s.setLink { s.hlu with assembler := a }

/-- The header's byte: LENGTH, KIND and TAG (R163). -/
def State.headerByte (s : State) (taken : List Byte) (b : Byte) : State :=
  match taken with
  | [l0] => if 512 < (halfAt [l0, b] 0).toNat then s.abandonFrame else s.setAssembler (.header [l0, b])
  | [l0, l1, k] =>
    let length := (halfAt [l0, l1] 0).toNat
    s.setAssembler (if length = 0 then .check k b [] none else .body length k b [])
  | _ => s.setAssembler (.header (taken ++ [b]))

/-- A whole byte at the assembler, by its state (R163). -/
def State.assemble (s : State) (b : Byte) : State :=
  match s.hlu.assembler with
  | .hunt seen =>
    if seen ∧ b = 0x0A then s.setAssembler (.header []) else s.setAssembler (.hunt (decide (b = 0xF5)))
  | .header taken => s.headerByte taken b
  | .body length k t payload =>
    let payload := payload ++ [b]
    s.setAssembler (if payload.length < length then .body length k t payload else .check k t payload none)
  | .check k t payload none => s.setAssembler (.check k t payload (some b))
  | .check k t payload (some low) =>
    if halfAt [low, b] 0 = crc16 (frameCore k t payload) then s.validFrame k t payload else s.abandonFrame

/-- A frame has begun: HEADER, BODY or CHECK. -/
def Assembler.begun : Assembler → Bool
  | .hunt _ => false
  | .header _ | .body _ _ _ _ | .check _ _ _ _ => true

/-- A byte of the host link; a broken byte abandons a frame that has begun, and clears a first marker byte (R163). -/
def State.linkByte (s : State) (b : Byte) (stopBit : Bool) : State :=
  if stopBit then s.assemble b
  else if s.hlu.assembler.begun then s.abandonFrame
  else s.setAssembler (.hunt false)

/-- More than 25 ms after a byte: a frame that has begun is abandoned, a first marker byte lapses (R163). -/
def State.linkGap (s : State) : State :=
  if s.hlu.assembler.begun then s.abandonFrame else s.setAssembler (.hunt false)

/-! ### The meanings -/

/-- IDENTIFY (R170). -/
def execIdentify (s : State) : Host.Outcome State Fault Refusal := serveRequest s identifyOwner

/-- HOST_FRAME_VALID (R165). -/
def execHostFrameValid (kind tag : Byte) (payload : List Byte) (s : State) : Host.Outcome State Fault Refusal :=
  duringOperation s (·.validFrame kind tag payload)

/-- FRAME_ABANDONED (R164). -/
def execFrameAbandoned (s : State) : Host.Outcome State Fault Refusal := duringOperation s State.abandonFrame

/-- HOST_GAP_EXPIRY (R163, R164). -/
def execHostGapExpiry (s : State) : Host.Outcome State Fault Refusal := duringOperation s State.linkGap

/-- REPLY_SENT (R165, R178). -/
def execReplySent (s : State) : Host.Outcome State Fault Refusal := duringOperation s State.replySent

/-- HOST_LINK_BYTE_RECEIVED (R163). -/
def execHostLinkByteReceived (byte : Byte) (stopBit : Bool) (s : State) : Host.Outcome State Fault Refusal :=
  duringOperation s (·.linkByte byte stopBit)

end Sys2Proof.Machine
end

