-- ==== Sys2Proof/Machine/Dispatch.lean ====
section
/-! DEFINITION. One arm per command: each calls its meaning. -/

namespace Sys2Proof.Machine

def exec (i : Instr) (s : State) : Host.Outcome State Fault Refusal :=
  match i with
  | .powerOn found => Sys2Proof.Machine.execPowerOn found s
  | .resetAsserted => Sys2Proof.Machine.execResetAsserted s
  | .resetReleased found => Sys2Proof.Machine.execResetReleased found s
  | .clockWrap => Sys2Proof.Machine.execClockWrap s
  | .fieldSampleFrame line channel kind body check => Sys2Proof.Machine.execFieldSampleFrame line channel kind body check s
  | .fieldFrameGapExpiry line => Sys2Proof.Machine.execFieldFrameGapExpiry line s
  | .silenceExpiry channel => Sys2Proof.Machine.execSilenceExpiry channel s
  | .holdExpiry point => Sys2Proof.Machine.execHoldExpiry point s
  | .waitingTimerExpiry point => Sys2Proof.Machine.execWaitingTimerExpiry point s
  | .filterExpiry detector => Sys2Proof.Machine.execFilterExpiry detector s
  | .dispatchExpiry => Sys2Proof.Machine.execDispatchExpiry s
  | .setpointFrameSent => Sys2Proof.Machine.execSetpointFrameSent s
  | .purgeExpiry boiler => Sys2Proof.Machine.execPurgeExpiry boiler s
  | .lightOffExpiry boiler => Sys2Proof.Machine.execLightOffExpiry boiler s
  | .confirmExpiry boiler => Sys2Proof.Machine.execConfirmExpiry boiler s
  | .deadExpiry boiler => Sys2Proof.Machine.execDeadExpiry boiler s
  | .tripHistoryAgeingExpiry boiler => Sys2Proof.Machine.execTripHistoryAgeingExpiry boiler s
  | .plantReleaseFall => Sys2Proof.Machine.execPlantReleaseFall s
  | .plantReleaseRise => Sys2Proof.Machine.execPlantReleaseRise s
  | .boundaryExpiry => Sys2Proof.Machine.execBoundaryExpiry s
  | .gateExpiry => Sys2Proof.Machine.execGateExpiry s
  | .emergencyStart slot => Sys2Proof.Machine.execEmergencyStart slot s
  | .ordinaryStart slot => Sys2Proof.Machine.execOrdinaryStart slot s
  | .activeOrderEnd => Sys2Proof.Machine.execActiveOrderEnd s
  | .inactiveOrderEnd slot => Sys2Proof.Machine.execInactiveOrderEnd slot s
  | .meterWaitExpiry => Sys2Proof.Machine.execMeterWaitExpiry s
  | .estimationMinute => Sys2Proof.Machine.execEstimationMinute s
  | .startUpWatchExpiry => Sys2Proof.Machine.execStartUpWatchExpiry s
  | .closeExpiry => Sys2Proof.Machine.execCloseExpiry s
  | .hostFrameValid kind tag payload => Sys2Proof.Machine.execHostFrameValid kind tag payload s
  | .frameAbandoned => Sys2Proof.Machine.execFrameAbandoned s
  | .hostGapExpiry => Sys2Proof.Machine.execHostGapExpiry s
  | .replySent => Sys2Proof.Machine.execReplySent s
  | .identify => Sys2Proof.Machine.execIdentify s
  | .setTime reading => Sys2Proof.Machine.execSetTime reading s
  | .readTime => Sys2Proof.Machine.execReadTime s
  | .setLocalOffset minutes => Sys2Proof.Machine.execSetLocalOffset minutes s
  | .setHolidays mask dates => Sys2Proof.Machine.execSetHolidays mask dates s
  | .factoryClear => Sys2Proof.Machine.execFactoryClear s
  | .configureChannel channel kind silence => Sys2Proof.Machine.execConfigureChannel channel kind silence s
  | .readChannel channel => Sys2Proof.Machine.execReadChannel channel s
  | .configurePoint slot figures => Sys2Proof.Machine.execConfigurePoint slot figures s
  | .readPoint slot => Sys2Proof.Machine.execReadPoint slot s
  | .configureSource source definition => Sys2Proof.Machine.execConfigureSource source definition s
  | .setSourceService source service => Sys2Proof.Machine.execSetSourceService source service s
  | .configureHolder figures => Sys2Proof.Machine.execConfigureHolder figures s
  | .selectHolderLimits set => Sys2Proof.Machine.execSelectHolderLimits set s
  | .setPlantParameters figures => Sys2Proof.Machine.execSetPlantParameters figures s
  | .setMeritList boilers => Sys2Proof.Machine.execSetMeritList boilers s
  | .configureBoiler figures => Sys2Proof.Machine.execConfigureBoiler figures s
  | .readDispatch => Sys2Proof.Machine.execReadDispatch s
  | .startGas boiler => Sys2Proof.Machine.execStartGas boiler s
  | .startAux boiler => Sys2Proof.Machine.execStartAux boiler s
  | .stop boiler => Sys2Proof.Machine.execStop boiler s
  | .changeover boiler => Sys2Proof.Machine.execChangeover boiler s
  | .resetLockout boiler => Sys2Proof.Machine.execResetLockout boiler s
  | .readBoiler boiler => Sys2Proof.Machine.execReadBoiler boiler s
  | .setExportContract limit length lead => Sys2Proof.Machine.execSetExportContract limit length lead s
  | .submitNomination start energy => Sys2Proof.Machine.execSubmitNomination start energy s
  | .withdrawNomination start => Sys2Proof.Machine.execWithdrawNomination start s
  | .readNominations => Sys2Proof.Machine.execReadNominations s
  | .submitCurtailment reference kind limit start finish => Sys2Proof.Machine.execSubmitCurtailment reference kind limit start finish s
  | .cancelCurtailment reference => Sys2Proof.Machine.execCancelCurtailment reference s
  | .readCurtailments => Sys2Proof.Machine.execReadCurtailments s
  | .fetchSettlementRecord => Sys2Proof.Machine.execFetchSettlementRecord s
  | .releaseSettlementRecord sequence => Sys2Proof.Machine.execReleaseSettlementRecord sequence s
  | .configureSubstation substation account group maxRate estimateRate => Sys2Proof.Machine.execConfigureSubstation substation account group maxRate estimateRate s
  | .connect substation => Sys2Proof.Machine.execConnect substation s
  | .disconnect substation => Sys2Proof.Machine.execDisconnect substation s
  | .accept substation => Sys2Proof.Machine.execAccept substation s
  | .reject substation => Sys2Proof.Machine.execReject substation s
  | .readSubstation substation => Sys2Proof.Machine.execReadSubstation substation s
  | .stageTariff table => Sys2Proof.Machine.execStageTariff table s
  | .cancelStagedTariff => Sys2Proof.Machine.execCancelStagedTariff s
  | .closePeriodNow => Sys2Proof.Machine.execClosePeriodNow s
  | .fetchBill => Sys2Proof.Machine.execFetchBill s
  | .releaseBill sequence => Sys2Proof.Machine.execReleaseBill sequence s
  | .fetchCondition => Sys2Proof.Machine.execFetchCondition s
  | .clearCondition cls source => Sys2Proof.Machine.execClearCondition cls source s
  | .readConditions first => Sys2Proof.Machine.execReadConditions first s
  | .setFaultMask mask => Sys2Proof.Machine.execSetFaultMask mask s
  | .setLatchMode cls mode => Sys2Proof.Machine.execSetLatchMode cls mode s
  | .hostLinkByteReceived byte stopBit => Sys2Proof.Machine.execHostLinkByteReceived byte stopBit s
  | .fieldLineByteReceived line byte stopBit => Sys2Proof.Machine.execFieldLineByteReceived line byte stopBit s
  | .powerFailure writing => Sys2Proof.Machine.execPowerFailure writing s
  | .calendarClockSecond => Sys2Proof.Machine.execCalendarClockSecond s

end Sys2Proof.Machine
end

