-- ==== Sys2Proof/Safety.lean ====
section
/-! DEFINITION. The terms the statements use: which parts of the state a command may change, the laws the manual
gives the module's state, and what a run of several commands is. -/

namespace Sys2Proof.Machine

/-! ### Runs -/

/-- Commands carried out one after another; every one is answered by a next state, so the first stop is the outcome. -/
def execAll : List Instr → State → Host.Outcome State Fault Refusal
  | [], s => .next s
  | c :: l, s =>
    match exec c s with
    | .next t => execAll l t
    | stop => stop

/-- Running, with no act of the Condition Table and no write of a region outstanding: how every event leaves the running
module (R154, R176). -/
def State.working (s : State) : Bool :=
  s.running && decide (s.marks = { config := false, accounts := false, queues := false }) && decide (s.acts = [])

/-! ### Next states of requests -/

/-- The owner's answer as the HLU holds it. -/
def State.answered (s : State) (a : Answer) : State := { s with hlu := { s.hlu with answer := some a } }

/-- Answered OK without contents. -/
def State.answeredOk (s : State) : State := s.answered Status.ok.answer

/-- Refused with a code: nothing else changes (section 10.3). -/
def State.refusedWith (s : State) (c : Status) : State := s.answered c.answer

/-- New CONFIG contents, written to the region at the event; an accepted Factory Clear leaves the store alone. -/
def State.withConfig (s : State) (c : ConfigRegion) : State :=
  { s with
    cfg := c
    store := if s.hlu.restartDue then s.store else { s.store with config := s.store.config.write c } }

/-- New ACCOUNTS contents, written to the region at the event. -/
def State.withAccounts (s : State) (a : AccountsRegion) : State :=
  { s with
    acc := a
    store := if s.hlu.restartDue then s.store else { s.store with accounts := s.store.accounts.write a } }

/-- New QUEUES contents, written to the region at the event. -/
def State.withQueues (s : State) (q : QueuesRegion) : State :=
  let s := { s with que := q }
  { s with store := if s.hlu.restartDue then s.store else { s.store with queues := s.store.queues.write s.queuesImage } }

/-! ### Frames -/

/-- The parts of the state, as a frame names them. -/
inductive Part where
  | power
  | plantRelease
  | clock
  | osc
  | store
  | cfg
  | acc
  | que
  | lines
  | channels
  | points
  | gas
  | dsp
  | boilers
  | esu
  | hmu
  | bu
  | conditions
  | hlu
  | choices
  | pending
  | marks
deriving DecidableEq, Repr

/-- Two states agree on a part. -/
def Part.agree (p : Part) (s t : State) : Prop :=
  match p with
  | .power => t.powered = s.powered ∧ t.resetHeld = s.resetHeld
  | .plantRelease => t.plantRelease = s.plantRelease
  | .clock => t.clock = s.clock
  | .osc => t.osc = s.osc
  | .store => t.store = s.store
  | .cfg => t.cfg = s.cfg
  | .acc => t.acc = s.acc
  | .que => t.que = s.que
  | .lines => t.lines = s.lines
  | .channels => t.channels = s.channels
  | .points => t.points = s.points
  | .gas => t.gas = s.gas
  | .dsp => t.dsp = s.dsp
  | .boilers => t.boilers = s.boilers
  | .esu => t.esu = s.esu
  | .hmu => t.hmu = s.hmu
  | .bu => t.bu = s.bu
  | .conditions => t.conditions = s.conditions
  | .hlu => t.hlu = s.hlu
  | .choices => t.choices = s.choices
  | .pending => t.pending = s.pending
  | .marks => t.marks = s.marks ∧ t.acts = s.acts

/-- Every part outside `parts` is the same in both states. -/
def ChangesOnly (parts : List Part) (s t : State) : Prop := ∀ p : Part, p ∉ parts → p.agree s t

/-- What a sample, a source change or a point event may reach: the points and the blocks that consume them. -/
def fieldParts : List Part :=
  [.store, .acc, .que, .points, .gas, .dsp, .boilers, .esu, .hmu, .conditions, .choices]

/-- What a close with its issuing may reach. -/
def closeParts : List Part := [.store, .cfg, .acc, .que, .bu, .conditions, .choices]

/-- What a restart may reach: all but PLANT RELEASE. -/
def restartParts : List Part :=
  [.power, .clock, .osc, .cfg, .lines, .channels, .bu, .hlu] ++ fieldParts

/-- The parts each command may change (the chapters, command by command). -/
def footprint : Instr → List Part
  | .powerOn _ | .resetAsserted | .resetReleased _ | .powerFailure _ | .replySent => restartParts
  | .clockWrap | .calendarClockSecond => [.clock, .osc, .store, .que, .esu, .hmu, .bu, .conditions, .choices]
  | .fieldSampleFrame _ _ _ _ _ | .fieldLineByteReceived _ _ _ => [.lines, .channels] ++ fieldParts
  | .fieldFrameGapExpiry _ => [.lines]
  | .silenceExpiry _ => .channels :: fieldParts
  | .holdExpiry _ => fieldParts
  | .waitingTimerExpiry _ => [.points, .conditions]
  | .filterExpiry _ => [.gas, .dsp, .boilers, .conditions, .choices]
  | .dispatchExpiry => [.store, .que, .gas, .dsp, .boilers, .conditions, .choices]
  | .setpointFrameSent => [.dsp]
  | .purgeExpiry _ | .deadExpiry _ => [.dsp, .boilers]
  | .lightOffExpiry _ | .confirmExpiry _ => [.dsp, .boilers, .conditions, .choices]
  | .tripHistoryAgeingExpiry _ => [.boilers]
  | .plantReleaseFall => [.plantRelease, .dsp, .boilers, .conditions, .choices]
  | .plantReleaseRise => [.plantRelease, .boilers, .conditions, .choices]
  | .boundaryExpiry => [.store, .que, .esu, .conditions, .choices]
  | .meterWaitExpiry => [.store, .que, .esu, .conditions]
  | .gateExpiry => [.esu, .conditions]
  | .emergencyStart _ | .ordinaryStart _ | .activeOrderEnd => [.store, .que, .esu]
  | .inactiveOrderEnd _ => [.store, .que]
  | .estimationMinute => [.store, .acc, .hmu]
  | .startUpWatchExpiry => [.store, .acc, .hmu, .conditions, .choices]
  | .closeExpiry => closeParts
  | .hostFrameValid _ _ _ | .hostLinkByteReceived _ _ => [.clock, .cfg, .channels, .bu, .hlu] ++ fieldParts
  | .frameAbandoned | .hostGapExpiry => [.hlu, .conditions]
  | .identify | .readTime | .readChannel _ | .readPoint _ | .readDispatch | .readBoiler _ | .readNominations
  | .readCurtailments | .fetchSettlementRecord | .readSubstation _ | .fetchBill | .readConditions _ => [.hlu]
  | .setTime _ => [.clock, .esu, .hmu, .hlu] ++ closeParts
  | .setLocalOffset _ => [.clock, .esu, .hlu] ++ closeParts
  | .factoryClear => [.hlu, .store]
  | .configureChannel _ _ _ => [.hlu, .cfg, .channels] ++ fieldParts
  | .configurePoint _ _ => [.hlu, .cfg] ++ fieldParts
  | .configureSource _ _ | .setSourceService _ _ => [.hlu, .store, .cfg, .gas, .conditions]
  | .configureHolder _ | .selectHolderLimits _ => [.hlu, .store, .cfg, .gas]
  | .setPlantParameters _ => [.hlu, .store, .cfg, .que, .gas, .dsp, .boilers, .conditions, .choices]
  | .setHolidays _ _ | .setMeritList _ | .configureSubstation _ _ _ _ _ | .stageTariff _ | .cancelStagedTariff
  | .setFaultMask _ | .setLatchMode _ _ => [.hlu, .store, .cfg]
  | .configureBoiler _ => [.hlu, .store, .cfg, .boilers]
  | .startGas _ | .startAux _ => [.hlu, .boilers]
  | .stop _ | .changeover _ => [.hlu, .dsp, .boilers]
  | .resetLockout _ => [.hlu, .boilers, .conditions, .choices]
  | .setExportContract _ _ _ => [.hlu, .store, .cfg, .que, .esu, .conditions]
  | .submitNomination _ _ | .withdrawNomination _ | .releaseSettlementRecord _ => [.hlu, .store, .que]
  | .submitCurtailment _ _ _ _ _ | .cancelCurtailment _ => [.hlu, .store, .que, .esu]
  | .connect _ => [.hlu, .store, .acc]
  | .disconnect _ => [.hlu, .store, .acc, .hmu, .conditions]
  | .accept _ | .reject _ => [.hlu, .store, .acc, .conditions]
  | .closePeriodNow => .hlu :: closeParts
  | .releaseBill _ => [.hlu, .store, .acc, .que, .bu, .conditions, .choices]
  | .fetchCondition => [.hlu, .conditions]
  | .clearCondition _ _ => [.hlu, .boilers, .conditions]

/-- The requests that only read, where their operands name something there is to read. -/
def State.canRead (s : State) : Instr → Bool
  | .identify | .readTime | .readDispatch | .readNominations | .readCurtailments => true
  | .readChannel n => decide (1 ≤ n.toNat ∧ n.toNat ≤ 96)
  | .readPoint n | .readConditions n => decide (1 ≤ n.toNat ∧ n.toNat ≤ 128)
  | .readBoiler n => decide (1 ≤ n.toNat ∧ n.toNat ≤ 8)
  | .readSubstation n => decide (1 ≤ n.toNat ∧ n.toNat ≤ 48)
  | .fetchSettlementRecord => !s.que.settlements.isEmpty
  | .fetchBill => !s.que.bills.isEmpty
  | _ => false

/-! ### Laws of the Condition Table (section 9.2, R155)

The laws range over the entries a place or table holds (`e ∈ s.conditions[i]` says that place `i` holds `e`), so that
each clause can be decided of a given state. -/

/-- One entry per key, place 128 for CONDITION_TABLE_FULL alone, raise counts from 1 to 255; and no block has told the
table anything of CONDITION_TABLE_FULL, which is the table's own. -/
structure State.ConditionsLegal (s : State) : Prop where
  unique : ∀ i j : Fin 128, ∀ e ∈ s.conditions[i], ∀ f ∈ s.conditions[j], e.key = f.key → i = j
  place : ∀ i : Fin 128, ∀ e ∈ s.conditions[i], i = fullPlace ↔ e.key = conditionTableFullKey
  counted : ∀ i : Fin 128, ∀ e ∈ s.conditions[i], 1 ≤ e.raises ∧ e.raises ≤ 255
  told : ∀ a ∈ s.acts, a.key ≠ conditionTableFullKey

/-! ### Laws of the QUEUES region (sections 5.3, 5.4, 6.3, 8.4) -/

/-- The curtailment table: one order in force, one set aside by an emergency, references that differ, ends after
starts (R95 to R98). -/
structure QueuesRegion.OrdersLegal (q : QueuesRegion) : Prop where
  oneActive : ∀ m n : CurtailmentSlot, ∀ a ∈ q.orders[m], ∀ b ∈ q.orders[n],
    a.state = .active → b.state = .active → m = n
  oneSuspended : ∀ m n : CurtailmentSlot, ∀ a ∈ q.orders[m], ∀ b ∈ q.orders[n],
    a.state = .suspended → b.state = .suspended → m = n
  underEmergency : ∀ m : CurtailmentSlot, ∀ a ∈ q.orders[m], a.state = .suspended →
    a.kind = .ordinary ∧ ∃ n : CurtailmentSlot, ∃ b ∈ q.orders[n], b.state = .active ∧ b.kind = .emergency
  references : ∀ m n : CurtailmentSlot, ∀ a ∈ q.orders[m], ∀ b ∈ q.orders[n], a.reference = b.reference → m = n
  ends : ∀ n : CurtailmentSlot, ∀ a ∈ q.orders[n], ∀ t ∈ a.finish, a.start < t

/-- Records numbered one after another, the last one just below the next number. -/
def numberedUpTo (next : Word) : List Word → Bool
  | [] => true
  | w :: l => decide (w + BitVec.ofNat 32 (l.length + 1) = next) && numberedUpTo next l

/-- The nomination queue in ascending order of start, the settlement and bill queues within their places and
numbered one after another. -/
structure QueuesRegion.QueuesLegal (q : QueuesRegion) : Prop where
  ascending : q.nominations.Pairwise fun a b => a.start < b.start
  nominations : q.nominations.length ≤ 96
  energies : ∀ n ∈ q.nominations, n.energy ≤ 1000000
  settlements : q.settlements.length ≤ 192
  settlementNumbers : numberedUpTo q.nextSettlement (q.settlements.map (·.sequence)) = true
  bills : q.bills.length ≤ 96
  billNumbers : numberedUpTo q.nextBill (q.bills.map (·.sequence)) = true

/-- A law of a region's contents holds of both stored copies. -/
abbrev Retained.both {α : Type} (r : Retained α) (p : α → Prop) : Prop := p r.first.contents ∧ p r.second.contents

abbrev State.OrdersLegal (s : State) : Prop :=
  s.que.OrdersLegal ∧ s.store.queues.both QueuesRegion.OrdersLegal

abbrev State.QueuesLegal (s : State) : Prop :=
  s.que.QueuesLegal ∧ s.store.queues.both QueuesRegion.QueuesLegal

/-! ### Laws of boilers and dispatch (R41, R54, R58, R85) -/

/-- Figures within the ranges their requests keep: the merit list names no boiler twice (R39), the settlement interval
has a length (R88), and a boiler's minimum firing does not exceed its maximum (R40). -/
abbrev ConfigRegion.FiguresFit (c : ConfigRegion) : Prop :=
  c.merit.Nodup ∧ 0 < c.contract.length ∧ ∀ b : Boiler, ∀ x ∈ c.boilers[b], x.minimum ≤ x.maximum

/-- The allocation table (R41): a firing boiler has an allocation of its fuel alone, from m to M; every other boiler
has none. A boiler that is not OFF is configured, and the figures are within their ranges. -/
structure State.AllocationsLegal (s : State) : Prop where
  fits : s.cfg.FiguresFit ∧ s.store.config.both ConfigRegion.FiguresFit
  configured : ∀ b : Boiler, (s.boilers[b]).state ≠ .off → (s.cfg.boilers[b]).isSome
  onGas : ∀ b : Boiler, ∀ x ∈ s.cfg.boilers[b], (s.boilers[b]).state = .firingGas →
    x.minimum ≤ (s.dsp.allocations[b]).gas ∧ (s.dsp.allocations[b]).gas ≤ x.maximum ∧ (s.dsp.allocations[b]).aux = 0
  onAux : ∀ b : Boiler, ∀ x ∈ s.cfg.boilers[b], (s.boilers[b]).state = .firingAux →
    x.minimum ≤ (s.dsp.allocations[b]).aux ∧ (s.dsp.allocations[b]).aux ≤ x.maximum ∧ (s.dsp.allocations[b]).gas = 0
  none : ∀ b : Boiler, (s.boilers[b]).state ≠ .firingGas → (s.boilers[b]).state ≠ .firingAux →
    (s.dsp.allocations[b]).gas = 0 ∧ (s.dsp.allocations[b]).aux = 0

/-- A state in which a permit may be open: LIGHTING, FIRING, or phase TAKEOVER of a changeover. -/
def Sequencer.mayBurn (q : Sequencer) : Bool :=
  match q.state with
  | .lighting | .firingGas | .firingAux => true
  | .changeover => decide (q.phase = some .takeover)
  | .off | .purge | .tripped | .lockedOut => false

/-- The permit law (R85) with what its timers need: never both permits, none but where the boiler may burn, and no
timer that opens one runs out before the changeover interval after the last close. -/
structure State.PermitsLegal (s : State) : Prop where
  never : ∀ b : Boiler, ¬ ((s.boilers[b]).gasPermit = true ∧ (s.boilers[b]).auxPermit = true)
  only : ∀ b : Boiler, ((s.boilers[b]).gasPermit = true ∨ (s.boilers[b]).auxPermit = true) → (s.boilers[b]).mayBurn = true
  closed : ∀ b : Boiler, (s.boilers[b]).lastClose ≤ s.osc
  configured : ∀ b : Boiler, (s.boilers[b]).state ≠ .off → (s.cfg.boilers[b]).isSome
  purge : ∀ b : Boiler, ∀ x ∈ s.cfg.boilers[b], ∀ due ∈ (s.boilers[b]).purgeDue, (s.boilers[b]).state = .purge →
    (s.boilers[b]).lastClose + x.interval ≤ due
  dead : ∀ b : Boiler, ∀ x ∈ s.cfg.boilers[b], ∀ due ∈ (s.boilers[b]).deadDue, (s.boilers[b]).state = .changeover →
    (s.boilers[b]).phase = some .dead → (s.boilers[b]).lastClose + x.interval ≤ due

/-- The laws of the flare and of the recovered fraction (R49, R54), in the Dispatcher and in its result. -/
structure State.FlareLegal (s : State) : Prop where
  stages : s.dsp.flareStages ≤ 4
  fraction : s.dsp.fraction ≤ 1000
  result : ∀ r ∈ s.dsp.result,
    r.flareStages ≤ r.flareDemand ∧ r.flareDemand ≤ 4 ∧ r.heat.fraction ≤ 1000 ∧
      r.heat.recovered + r.heat.auxiliary = r.heat.delivered ∧ r.heat.delivered ≤ r.early.usable

/-- The transmit queue of the setpoint line (R58): one waiting frame per boiler, and none waiting on a free line. -/
structure State.SetpointsLegal (s : State) : Prop where
  onePerBoiler : (s.dsp.waiting.map (·.boiler)).Nodup
  eight : s.dsp.waiting.length ≤ 8
  busy : s.dsp.sending = none → s.dsp.waiting = []

/-- The HLU's slot and refusal store hold a request only while a reply is being sent (R165). -/
structure State.LinkLegal (s : State) : Prop where
  slot : s.hlu.slot.isSome → s.hlu.transmitter.isSome
  refusal : s.hlu.refusal.isSome → s.hlu.transmitter.isSome

/-! ### The law of the accounts (R140) -/

/-- Booked energy is issued energy plus the net energy of the current and closing sets, in 8-byte two's complement. -/
abbrev Ledger.Balanced (l : Ledger) : Prop :=
  l.booked = l.issued + BitVec.ofInt 64 l.current.net + BitVec.ofInt 64 (l.closing.elim 0 AccumulatorSet.net)

abbrev AccountsRegion.Balanced (a : AccountsRegion) : Prop := ∀ k : Substation, (a.ledgers[k]).Balanced

abbrev State.AccountsLegal (s : State) : Prop :=
  s.acc.Balanced ∧ s.store.accounts.both AccountsRegion.Balanced ∧ s.dsp.fraction ≤ 1000

/-! ### The law of meter readings (sections 1.1, 6.1, 7.1) -/

/-- A meter reading that is held is below the modulus at which meters wrap. -/
abbrev ReadingFits (o : Option Nat) : Prop := ∀ r ∈ o, r < Config.meterModulus

def Quantity.readingFits : Quantity → Bool
  | .meter reading _ => decide (reading < Config.meterModulus)
  | .measure _ | .status _ => true

abbrev AccountsRegion.ReadingsFit (a : AccountsRegion) : Prop := ∀ k : Substation,
  ReadingFits ((a.meters[k]).reference.map (·.reading)) ∧ ReadingFits ((a.meters[k]).pendingMark.map (·.reading))

abbrev QueuesRegion.ReadingsFit (q : QueuesRegion) : Prop := ∀ iv ∈ q.interval, ReadingFits iv.reference

/-- Every reading held runs from 0 to 99,999,999 kWh: in the sample of a LIVE METER channel, in the substations'
references and pending readings, and in the settlement intervals. -/
structure State.ReadingsLegal (s : State) : Prop where
  live : ∀ ch : ChannelNo, (s.channels[ch]).state = .live → ∀ y ∈ (s.channels[ch]).last, y.body.readingFits = true
  accounts : s.acc.ReadingsFit ∧ s.store.accounts.both AccountsRegion.ReadingsFit
  intervals : s.que.ReadingsFit ∧ s.store.queues.both QueuesRegion.ReadingsFit
  last : ReadingFits s.esu.lastReading
  stored : ∀ w ∈ s.esu.wait, ∀ iv ∈ w.stored, ReadingFits iv.reference
  gap : ∀ w ∈ s.esu.wait, ∀ g ∈ w.gap, ReadingFits g.reference

/-! ### The law of point selection (R21) -/

/-- A configured point against the channels: SERVING from the highest-ranked LIVE channel with that channel's sample as
its value, or HOLDING, FAILED or AWAITING with no channel LIVE. -/
abbrev State.PointServed (s : State) (p : PointNo) (c : PointConfig) : Prop :=
  (∀ x ∈ s.selection c,
    (s.points[p]).state = .serving ∧ (s.points[p]).rank = some x.1 ∧
      (s.points[p]).valueTime = (s.channels[x.2]).lastTime ∧
      ∃ y ∈ (s.channels[x.2]).last, (s.points[p]).value = some (c.valueOf y.body).1 ∧
        (s.points[p]).clamped = (c.valueOf y.body).2) ∧
  (s.selection c = none →
    (s.points[p]).state = .holding ∨ (s.points[p]).state = .failed ∨ (s.points[p]).state = .awaiting)

structure State.PointsLegal (s : State) : Prop where
  live : ∀ ch : ChannelNo, (s.channels[ch]).state = .live → (s.channels[ch]).last.isSome
  vacant : ∀ p : PointNo, s.cfg.points[p] = none → (s.points[p]).state = .unconfigured
  served : ∀ p : PointNo, ∀ c ∈ s.cfg.points[p], s.PointServed p c

/-! ### The law of the retained store (R176, R178) -/

/-- The store gives back what the blocks work with: the CONFIG and ACCOUNTS contents as they stand, or the defaults once
Factory Clear is accepted and its restart is due. -/
structure State.StoreLegal (s : State) : Prop where
  config : s.store.config.found? = some (if s.hlu.restartDue then .default else s.cfg)
  accounts : s.store.accounts.found? = some (if s.hlu.restartDue then .default else s.acc)
  quiet : s.marks = { config := false, accounts := false, queues := false } ∧ s.acts = []

/-! ### Commands and outcomes named by the statements -/

/-- The request kinds and the lengths of their payloads (12.2): the code, the fixed bytes, and the bytes of a list entry, 0
where the contents end in no list. -/
def requestKinds : List (Nat × Nat × Nat) :=
  [(0x01, 0, 0), (0x02, 4, 0), (0x03, 0, 0), (0x04, 2, 0), (0x05, 1, 4), (0x06, 0, 0), (0x10, 4, 0), (0x11, 1, 0),
    (0x12, 20, 0), (0x13, 1, 0), (0x20, 2, 0), (0x21, 2, 0), (0x22, 39, 0), (0x23, 1, 0), (0x30, 24, 0), (0x31, 0, 1),
    (0x32, 27, 0), (0x33, 0, 0), (0x40, 2, 0), (0x41, 1, 0), (0x50, 6, 0), (0x51, 8, 0), (0x52, 4, 0), (0x53, 0, 0),
    (0x54, 17, 0), (0x55, 4, 0), (0x56, 0, 0), (0x57, 0, 0), (0x58, 4, 0), (0x60, 14, 0), (0x61, 2, 0), (0x62, 2, 0),
    (0x63, 1, 0), (0x70, 338, 0), (0x71, 0, 0), (0x72, 0, 0), (0x73, 0, 0), (0x74, 4, 0), (0x78, 0, 0), (0x79, 2, 0),
    (0x7A, 1, 0), (0x7B, 4, 0), (0x7C, 2, 0)]

/-- The payload's length is one that its kind allows: the fixed bytes and a whole number of list entries (R166 ii). -/
def LengthAllowed (kind : Byte) (payload : List Byte) : Prop :=
  ∃ fixed entry n, (kind.toNat, fixed, entry) ∈ requestKinds ∧ payload.length = fixed + entry * n

/-- The second byte of a Boiler Command, a Set Substation Service or a Resolve Meter Jump names no command, service or
action (R64, R119, R126, R179 ii). -/
def CodeNamesNothing (kind : Byte) (payload : List Byte) : Prop :=
  ∃ number code : Byte, payload = [number, code] ∧
    (kind = 0x40 ∧ 4 < code.toNat ∨ (kind = 0x61 ∨ kind = 0x62) ∧ 1 < code.toNat)

/-- The kind code of a field sample frame (12.3). -/
def ChannelKind.frameCode : ChannelKind → Byte
  | .measure => 1
  | .status => 2
  | .meter => 3

/-- The frame that carries a body of kind `k` for channel `c`, with the check byte R1 asks for. -/
def sampleFrame (l : FieldLineNo) (c : ChannelNo) (k : ChannelKind) (body : List Byte) : Instr :=
  let channel : Byte := BitVec.ofNat 8 (c.val + 1)
  .fieldSampleFrame l channel k.frameCode body (crc8 (channel :: k.frameCode :: body))

/-- The bytes of a field sample frame as the line carries them (R1). -/
def fieldFrameBytes (channel kind : Byte) (body : List Byte) (check : Byte) : List Byte :=
  0xA6 :: channel :: kind :: (body ++ [check])

/-- A sample taken in state `s`: the channel with its sample, its time and its silence timer (R4, R5). -/
def State.sampled (s : State) (x : Sample) (state : ChannelState) (goodRun : Nat) : Channel :=
  { state := state, goodRun := goodRun, last := some x, lastTime := some s.clock.reading, silenceFrom := some s.osc }

/-- A point that serves the sample `x` of channel `ch`, its rank-`r` source (R12, R13). -/
def State.servingFrom (s : State) (c : PointConfig) (r : Rank) (ch : ChannelNo) (x : Sample) : Point :=
  { state := .serving, rank := some r, value := some (c.valueOf x.body).1, clamped := (c.valueOf x.body).2,
    valueTime := (s.channels[ch]).lastTime, holdDue := none, waitDue := none }

/-- Point `p`, configured as `c`, takes the sample `x` of channel `ch`, its rank-`r` source: it serves it, the cause of
POINT_FAILED ends if the point was not SERVING, and its consumer has the restored event if the point was FAILED or
AWAITING, then the arrival (R13, R15, R18). -/
def State.servedBy (u : State) (p : PointNo) (c : PointConfig) (r : Rank) (ch : ChannelNo) (x : Sample) : State :=
  let before := (u.points[p]).state
  let v := u.setPoint p (u.servingFrom c r ch x)
  let v := if before = .serving then v else v.tellEnd .pointFailed (p.val + 1)
  let v := if before = .failed ∨ before = .awaiting then v.restoredEvent c.role else v
  v.arrival c.role (c.valueOf x.body).1 ((u.channels[ch]).lastTime.getD 0)

/-- Point `p`, configured as `c`, fails: POINT_FAILED, then the failed event at its consumer (R14). -/
def State.pointFails (u : State) (p : PointNo) (c : PointConfig) : State :=
  ((u.setPoint p { u.points[p] with state := .failed, holdDue := none }).tellRaise .pointFailed (p.val + 1)).failedEvent
    c.role

/-- Point `p`, configured as `c`, has re-selected its source between `u` and `t` (R12, R14, R15): a SERVING point that
keeps its rank is left alone; any other with a LIVE channel serves from the highest-ranked one; without one, a SERVING
point holds or fails, and any other is left alone. -/
structure Reselected (u t : State) (p : PointNo) (c : PointConfig) : Prop where
  kept : ∀ r ch, u.selection c = some (r, ch) → (u.points[p]).state = .serving → (u.points[p]).rank = some r → t = u
  taken : ∀ r ch x, u.selection c = some (r, ch) → (u.channels[ch]).last = some x →
    (u.points[p]).state ≠ .serving ∨ (u.points[p]).rank ≠ some r → t = u.servedBy p c r ch x
  held : u.selection c = none → (u.points[p]).state = .serving → 0 < c.hold →
    t = u.setPoint p { u.points[p] with state := .holding, holdDue := some (u.osc + c.hold) }
  failed : u.selection c = none → (u.points[p]).state = .serving → c.hold = 0 → t = u.pointFails p c
  still : u.selection c = none → (u.points[p]).state ≠ .serving → t = u

/-- A point as its re-selection leaves it (R12, R14, R15). -/
def State.pointAfter (u : State) (p : PointNo) (c : PointConfig) : Point :=
  let x := u.points[p]
  match u.selection c with
  | some (r, ch) =>
    if x.state = .serving ∧ x.rank = some r then x else (u.channels[ch]).last.elim x (u.servingFrom c r ch)
  | none =>
    if x.state ≠ .serving then x
    else if c.hold = 0 then { x with state := .failed, holdDue := none }
    else { x with state := .holding, holdDue := some (u.osc + c.hold) }

/-- After channel `ch` has changed its state between `u` and `t`, every point that names it has re-selected, whatever
their number, and every other point is as it was (R12). -/
def PointsReselected (u t : State) (ch : ChannelNo) : Prop := ∀ p : PointNo,
  (p ∉ u.namedBy ch → t.points[p] = u.points[p]) ∧
  ∀ c, u.cfg.points[p] = some c → p ∈ u.namedBy ch → t.points[p] = u.pointAfter p c

/-- The role and instance codes of a role (section 1.3 (1), R9, R179 i). -/
def Role.codes : Role → Nat × Nat
  | .sourceFlow n => (0, n.val + 1)
  | .sourceCv n => (1, n.val + 1)
  | .worksFlow => (2, 1)
  | .networkCv => (3, 1)
  | .holderLevel => (4, 1)
  | .turbineStatus => (5, 1)
  | .boilerStatus b => (6, b.val + 1)
  | .exportMeter => (7, 1)
  | .heatMeter k => (8, k.val + 1)

/-- The role and instance bytes of a Configure Point request name a role instance. -/
abbrev Role.codedBy (r : Role) (f : RawPoint) : Prop := (f.role.toNat, f.instanceNo.toNat) = r.codes

/-- A Configure Point request carries the figures `c`: channels numbered from 1, a missing alternate FFh (R9, R179 i). -/
abbrev PointConfig.CarriedBy (c : PointConfig) (f : RawPoint) : Prop :=
  c.role.codedBy f ∧ f.primary.toNat = c.primary.val + 1 ∧
    f.alternateA.toNat = c.alternateA.elim 255 (fun a => a.val + 1) ∧
    f.alternateB.toNat = c.alternateB.elim 255 (fun b => b.val + 1) ∧
    c.multiplier = f.multiplier.toNat ∧ c.divisor = f.divisor.toNat ∧ c.low = f.low.toInt ∧ c.high = f.high.toInt ∧
    c.hold = f.hold.toNat

/-- The kind of channel that a role requires (section 1.3 (1)). -/
def Role.requiredKind : Role → ChannelKind
  | .sourceFlow _ | .sourceCv _ | .worksFlow | .networkCv | .holderLevel => .measure
  | .turbineStatus | .boilerStatus _ => .status
  | .exportMeter | .heatMeter _ => .meter

/-- The figures of slot `p` pass the checks of R9. -/
abbrev State.PointAllowed (s : State) (p : PointNo) (c : PointConfig) : Prop :=
  (∀ q : PointNo, q ≠ p → ∀ d ∈ s.cfg.points[q], d.role ≠ c.role) ∧
    (c.alternateB ≠ none → c.alternateA ≠ none) ∧
    (c.alternateA ≠ some c.primary ∧ c.alternateB ≠ some c.primary ∧ (c.alternateA ≠ none → c.alternateA ≠ c.alternateB)) ∧
    (∀ ch : ChannelNo, ch = c.primary ∨ c.alternateA = some ch ∨ c.alternateB = some ch →
      (s.cfg.channels[ch]).kind = c.role.requiredKind) ∧
    (c.role.requiredKind = .meter → c.alternateA = none ∧ c.alternateB = none) ∧
    (1 ≤ c.multiplier ∧ 1 ≤ c.divisor ∧ c.low ≤ c.high ∧ c.hold ≤ 3600) ∧
    (c.role.requiredKind = .status → c.hold = 0) ∧
    (c.role.requiredKind ≠ .measure → c.multiplier = 1 ∧ c.divisor = 1 ∧ c.low = 0 ∧ c.high = 0)

/-- A role that its owner holds back from Configure Point (R10). -/
def State.HeldBack (s : State) : Role → Prop
  | .boilerStatus b => (s.boilers[b]).state ≠ .off
  | .heatMeter k => (s.acc.meters[k]).state ≠ .fresh ∧ (s.acc.meters[k]).state ≠ .disconnected
  | .exportMeter => ∃ p : PointNo, (∃ c ∈ s.cfg.points[p], c.role = .exportMeter) ∧
      (∀ q : PointNo, q < p → ∀ c ∈ s.cfg.points[q], c.role ≠ .exportMeter) ∧
      ((s.points[p]).state = .serving ∨ (s.points[p]).state = .holding)
  | .sourceFlow _ | .sourceCv _ | .worksFlow | .networkCv | .holderLevel | .turbineStatus => False

/-- A quotient by 1,000 rounded half away from zero (R144 i). -/
def RoundedThousandth (charge p : Int) : Prop :=
  2 * (charge * 1000 - p).natAbs ≤ 1000 ∧
    (2 * (charge * 1000 - p).natAbs = 1000 → p.natAbs < (charge * 1000).natAbs)

/-- A sequencer whose permits are closed at second `osc`, clock reading `reading` (R63, R71, R78). -/
def Sequencer.permitsClosed (q : Sequencer) (osc reading : Nat) : Sequencer :=
  { q with
    gasPermit := false
    auxPermit := false
    lastClose := if q.gasPermit || q.auxPermit then osc else q.lastClose
    lastCloseTime := if q.gasPermit || q.auxPermit then reading else q.lastCloseTime }

/-- No timer runs and no changeover is under way. -/
def Sequencer.Idle (q : Sequencer) : Prop :=
  q.phase = none ∧ q.target = none ∧ q.awaiting = false ∧ q.purgeDue = none ∧ q.lightOffDue = none ∧
    q.confirmDue = none ∧ q.deadDue = none

/-- The setpoint line, as the frame being sent and the waiting frames, takes a frame (R58 (1)): a free line starts it,
so that the next frame of the same event finds it busy (log entry 45); on a busy one it replaces a waiting frame for its
boiler in its place, or waits behind the others. -/
def lineTakes (line : Option SetpointFrame × List SetpointFrame) (f : SetpointFrame) :
    Option SetpointFrame × List SetpointFrame :=
  match line with
  | (none, waiting) => (some f, waiting)
  | (some sent, waiting) =>
    (some sent,
      if f.boiler ∈ waiting.map (·.boiler) then waiting.map fun g => if g.boiler = f.boiler then f else g
      else waiting ++ [f])

/-- Between `s` and `t` the setpoint line has taken a frame NONE with demand 0 and the latest cycle number for each of the
boilers `leaving` that leave LIGHTING, FIRING or phase TAKEOVER, in either order, and no other frame (R57, R58 ii). -/
def NoneFramesTaken (s t : State) (leaving : List Boiler) : Prop :=
  s.SetpointsLegal → ∃ order : List Boiler, order.Perm leaving ∧ (t.dsp.sending, t.dsp.waiting) =
    (order.map fun b => { boiler := b, fuel := none, demand := 0, cycle := s.dsp.cycle : SetpointFrame }).foldl lineTakes
      (s.dsp.sending, s.dsp.waiting)

/-- The boilers that may burn: each of them that stops burning is sent NONE and 0 (R57). -/
def State.burning (s : State) : List Boiler := (List.finRange 8).filter fun b => (s.boilers[b]).mayBurn

/-- The setpoint line as boiler `b` leaves its state: NONE and 0 where it was LIGHTING, FIRING or in phase TAKEOVER, no
frame where it was not (R57). -/
def NoneFrameTaken (s t : State) (b : Boiler) : Prop :=
  NoneFramesTaken s t (if (s.boilers[b]).mayBurn then [b] else [])

/-- Boiler `b` has tripped with a cause between `s` and `t` (R78, R79); `limit` is its trip limit. -/
structure Tripped (s t : State) (b : Boiler) (cause : TripCause) (limit : Nat) : Prop where
  idle : (t.boilers[b]).Idle
  closed : (t.boilers[b]).gasPermit = false ∧ (t.boilers[b]).auxPermit = false
  lastClose : (t.boilers[b]).lastClose =
    if (s.boilers[b]).gasPermit || (s.boilers[b]).auxPermit then s.osc else (s.boilers[b]).lastClose
  records : (t.boilers[b]).cause = some cause ∧ (t.boilers[b]).marker = true ∧
    (t.boilers[b]).history = (s.boilers[b]).history ++ [{ second := s.osc, time := s.clock.reading }]
  next : (t.boilers[b]).state = if limit ≤ (t.boilers[b]).history.length then .lockedOut else .tripped
  run : (t.boilers[b]).run = if limit ≤ (t.boilers[b]).history.length then none else (s.boilers[b]).run
  gasLeft : (s.boilers[b]).state = .firingGas → (t.dsp.allocations[b]).gas = 0 ∧ (t.dsp.allocations[b]).idle = 0
  auxLeft : (s.boilers[b]).state = .firingAux → (t.dsp.allocations[b]).aux = 0 ∧ (t.dsp.allocations[b]).idle = 0

/-- What a trip of boiler `b` tells the Condition Table, as `t` leaves the boiler (R78 iv, R79 ii). -/
def State.tripTold (t : State) (b : Boiler) (restart : RestartMode) : List ConditionAct :=
  .raise { cls := .boilerTrip, source := b.val + 1 } (if restart = .latched then .latching else .selfClearing) ::
    if (t.boilers[b]).state = .lockedOut then [.raise { cls := .boilerLockout, source := b.val + 1 } .latching] else []

/-- Boiler `b` has tripped within an event, told the table so, and been sent NONE and 0 where it might burn (R57). -/
structure TripsAt (s t : State) (b : Boiler) (cause : TripCause) (c : BoilerConfig) : Prop where
  tripped : Tripped s t b cause c.tripLimit
  line : NoneFrameTaken s t b
  told : t.acts = s.acts ++ t.tripTold b c.restart
  alone : ∀ a : Boiler, a ≠ b → t.boilers[a] = s.boilers[a] ∧ t.dsp.allocations[a] = s.dsp.allocations[a]

/-- A standing-cause evaluation of boiler `b`, TRIPPED or LOCKED_OUT, configured as `c`, took `s` to `t` (R80 to R82). -/
structure CausesEvaluated (s t : State) (b : Boiler) (c : BoilerConfig) : Prop where
  same : (s.boilers[b]).marker = s.standingCause b → t = s
  found : (s.boilers[b]).marker = false → s.standingCause b = true →
    t = (s.setBoiler b { s.boilers[b] with marker := true }).tell
      (.raise { cls := .boilerTrip, source := b.val + 1 } (if c.restart = .latched then .latching else .selfClearing))
  gone : (s.boilers[b]).marker = true → s.standingCause b = false →
    t = { s with
      boilers := s.boilers.set b t.boilers[b]
      acts := s.acts ++ [.endCause { cls := .boilerTrip, source := b.val + 1 }] }
  locked : (s.boilers[b]).marker = true → s.standingCause b = false → (s.boilers[b]).state = .lockedOut →
    t.boilers[b] = { s.boilers[b] with marker := false }
  autoOff : (s.boilers[b]).marker = true → s.standingCause b = false → (s.boilers[b]).state = .tripped →
    c.restart = .autoRestart →
    ((s.boilers[b]).run = none ∨ ∃ i, s.indicated (.boilerStatus b) = some i ∧ i.localControl = true) →
    t.boilers[b] = { s.boilers[b] with marker := false, state := .off, run := none }
  autoPurge : ∀ f i, (s.boilers[b]).marker = true → s.standingCause b = false → (s.boilers[b]).state = .tripped →
    c.restart = .autoRestart → (s.boilers[b]).run = some f → s.indicated (.boilerStatus b) = some i →
    i.localControl = false →
    t.boilers[b] = { s.boilers[b] with
      marker := false, state := .purge, run := some f, phase := none, target := none, awaiting := false,
      lightOffDue := none, confirmDue := none, deadDue := none,
      purgeDue := some (max (s.osc + c.purge) ((s.boilers[b]).lastClose + c.interval)) }
  latchedHeld : ∀ e, (s.boilers[b]).marker = true → s.standingCause b = false → (s.boilers[b]).state = .tripped →
    c.restart = .latched → s.acts = [] → s.entryOf { cls := .boilerTrip, source := b.val + 1 } = some e →
    e.latch = .latching ∨ e.state = .latched ∨ e.notified = false → t.boilers[b] = { s.boilers[b] with marker := false }
  latchedLost : (s.boilers[b]).marker = true → s.standingCause b = false → (s.boilers[b]).state = .tripped →
    c.restart = .latched → s.acts = [] → s.entryOf { cls := .boilerTrip, source := b.val + 1 } = none →
    t.boilers[b] = { s.boilers[b] with marker := false, state := .off, run := none }

/-- A boiler that a request or the LL event sends away from its fuel: a controlled stop to OFF (R63, R75). -/
structure Stopped (s t : State) (b : Boiler) : Prop where
  state : (t.boilers[b]).state = .off ∧ (t.boilers[b]).run = none
  closed : (t.boilers[b]).gasPermit = false ∧ (t.boilers[b]).auxPermit = false
  lastClose : (t.boilers[b]).lastClose =
    if (s.boilers[b]).gasPermit || (s.boilers[b]).auxPermit then s.osc else (s.boilers[b]).lastClose
  idle : (t.boilers[b]).Idle
  gasLeft : (s.boilers[b]).state = .firingGas → (t.dsp.allocations[b]).gas = 0
  auxLeft : (s.boilers[b]).state = .firingAux → (t.dsp.allocations[b]).aux = 0

/-- A boiler that has begun a changeover to a target fuel: phase DEAD counts its interval from the command, or waits 10 s
for the confirmation (R71, R75). -/
structure ChangingTo (s t : State) (b : Boiler) (target : Fuel) : Prop where
  state : (t.boilers[b]).state = .changeover ∧ (t.boilers[b]).phase = some .dead ∧ (t.boilers[b]).target = some target
  run : (t.boilers[b]).run = (s.boilers[b]).run
  closed : (t.boilers[b]).gasPermit = false ∧ (t.boilers[b]).auxPermit = false
  lastClose : (t.boilers[b]).lastClose =
    if (s.boilers[b]).gasPermit || (s.boilers[b]).auxPermit then s.osc else (s.boilers[b]).lastClose
  timers : ∀ c, s.cfg.boilers[b] = some c →
    (c.reference = .fromCommand → (t.boilers[b]).awaiting = false ∧ (t.boilers[b]).deadDue = some (s.osc + c.interval)) ∧
    (c.reference = .fromConfirm → (t.boilers[b]).awaiting = true ∧ (t.boilers[b]).confirmDue = some (s.osc + 10))
  gasLeft : target = .aux → (t.dsp.allocations[b]).gas = 0
  auxLeft : target = .gas → (t.dsp.allocations[b]).aux = 0

/-- A ledger with one band of its current set and its booked total changed; an INVALID clock leaves its flag (R124). -/
def Ledger.entered (l : Ledger) (band : Fin 4) (figures : BandFigures) (booked : BitVec 64) (valid : Bool) : Ledger :=
  { l with
    booked := booked
    current := { l.current with
      bands := l.current.bands.set band figures
      flags := { l.current.flags with clockInvalid := l.current.flags.clockInvalid || !valid } } }

/-- The substations that hold a set to be billed, and those of them whose bills find room (R148). -/
def heldBy (closing : Substation → Option AccumulatorSet) : List Substation :=
  (List.finRange 48).filter fun k => (closing k).isSome

def billedNow (bills : List Bill) (closing : Substation → Option AccumulatorSet) : List Substation :=
  (heldBy closing).take (96 - bills.length)

/-- A run of issuing that found the given bills, next number and ledgers, with the given sets waiting, took place before
`t`: the lowest-numbered substations first, while the queue has room (R148). -/
structure BillsIssued (bills : List Bill) (nextBill : Word) (ledgers : Vector Ledger 48) (t : State)
    (closing : Substation → Option AccumulatorSet) : Prop where
  kept : t.que.bills.take bills.length = bills
  order : (t.que.bills.drop bills.length).map (·.substation) = billedNow bills closing
  numbers : (t.que.bills.drop bills.length).map (·.sequence) =
    (List.range (billedNow bills closing).length).map fun i => nextBill + BitVec.ofNat 32 i
  next : t.que.nextBill = nextBill + BitVec.ofNat 32 (billedNow bills closing).length
  contents : ∀ b ∈ t.que.bills.drop bills.length, ∀ x ∈ closing b.substation,
    b.bands = x.bands ∧ b.rejected = x.rejected ∧ b.standing = x.standing ∧ b.flags = x.flags ∧ b.first = x.first ∧
      b.total = (x.bands.toList.map (·.charge)).sum + x.standing
  account : ∀ b ∈ t.que.bills.drop bills.length, ∀ c ∈ t.cfg.substations[b.substation], b.account = c.account
  times : ∀ b ∈ t.que.bills.drop bills.length, ∀ x ∈ closing b.substation,
    (∀ p ∈ x.last, b.last = p) ∧ (∀ i ∈ x.start, b.start = i) ∧ ∀ i ∈ x.finish, b.finish = i
  sets : ∀ k : Substation, (t.acc.ledgers[k]).closing = if k ∈ billedNow bills closing then none else closing k
  totals : ∀ k : Substation, (t.acc.ledgers[k]).issued = (ledgers[k]).issued +
    if k ∈ billedNow bills closing then BitVec.ofInt 64 ((closing k).elim 0 AccumulatorSet.net) else 0

/-- The books after a close of `n` periods that ends at local time `finish`, with its run of issuing, between `s` and
`t` (R143 to R146, R148). -/
structure ClosedBooks (s t : State) (n : Nat) (finish : Int) : Prop where
  period : t.acc.period = s.acc.period + n
  mark : t.acc.closeMark = some finish
  cfg : t.cfg = { s.cfg with
    tariff := s.cfg.pendingTariff.getD s.cfg.tariff
    pendingTariff := none
    substations := s.cfg.substations.map fun x => x.map fun c => { c with group := c.staged } }
  ledgers : ∀ k : Substation, (t.acc.ledgers[k]).booked = (s.acc.ledgers[k]).booked ∧
    (t.acc.ledgers[k]).current = .opened (some (finish - 60 * s.clock.offset)) (s.acc.period + n)
  issued : BillsIssued s.que.bills s.que.nextBill s.acc.ledgers t fun k =>
    (s.closedLedger k n (finish - 60 * s.clock.offset)).closing

/-- The marker of BILL_QUEUE_FULL after a close of `n` periods of `s` that ends at local time `finish`: it sets where a set
still waits, and clears where none does once some have been issued (R149). -/
def State.queueFullAfter (s : State) (n : Nat) (finish : Int) : Bool :=
  let closing := fun k => (s.closedLedger k n (finish - 60 * s.clock.offset)).closing
  decide (billedNow s.que.bills closing ≠ heldBy closing) ||
    s.bu.queueFull && decide (billedNow s.que.bills closing = [])

/-- The table of `s` once BILL_QUEUE_FULL has followed its marker from `before` to `after` (R149). -/
def State.followQueueFull (s : State) (before after : Bool) : State :=
  if before = false ∧ after = true then s.raise .billQueueFull 1
  else if before = true ∧ after = false then s.endCause .billQueueFull 1
  else s

/-- A close of `n` periods that ends at local time `finish` took place between `s` and `t`, with what it leaves of
BILL_QUEUE_FULL (R143 to R146, R148, R149). -/
structure Closed (s t : State) (n : Nat) (finish : Int) : Prop where
  clock : t.clock = s.clock
  now : t.bu.closedNow = true
  meters : t.acc.meters = s.acc.meters
  books : ClosedBooks s t n finish
  marker : t.bu.queueFull = s.queueFullAfter n finish
  condition : t.conditions = (s.followQueueFull s.bu.queueFull t.bu.queueFull).conditions

/-- The closes that fall after `mark` and at or before the local time of `t`, reckoned at a request that changed the clock
of `s` to that of `t`, have been taken: one close, and one more where the table it brings into force has a close time
after its end, each with its run of issuing (R141, R146 to R148); and where the event finds room in the table, the entry
of BILL_QUEUE_FULL has followed the marker (R149). -/
def ClosesTaken (s t : State) (mark : Int) (room : Prop) : Prop :=
  let before : State := { s with clock := t.clock }
  let now := t.clock.reading + 60 * t.clock.offset
  let follows (u : State) : Prop := room → t.entryOf { cls := .billQueueFull, source := 1 } =
    (u.followQueueFull u.bu.queueFull t.bu.queueFull).entryOf { cls := .billQueueFull, source := 1 }
  let due := dueCloses s.cfg.tariff mark now
  (due = [] → t.acc = s.acc ∧ t.cfg = s.cfg ∧ t.que.bills = s.que.bills ∧ t.que.nextBill = s.que.nextBill ∧
    t.bu.queueFull = s.bu.queueFull ∧ follows before) ∧
  ∀ last, due.getLast? = some last →
    let later := dueCloses (s.cfg.pendingTariff.getD s.cfg.tariff) last now
    t.acc.meters = s.acc.meters ∧
    (later = [] → ClosedBooks before t due.length last ∧ t.bu.queueFull = before.queueFullAfter due.length last ∧
      follows before) ∧
    ∀ second, later.getLast? = some second → ∃ u : State, u.clock = t.clock ∧ u.acc.meters = s.acc.meters ∧
      ClosedBooks before u due.length last ∧ u.bu.queueFull = before.queueFullAfter due.length last ∧
      u.conditions = (before.followQueueFull s.bu.queueFull u.bu.queueFull).conditions ∧
      ClosedBooks u t later.length second ∧ t.bu.queueFull = u.queueFullAfter later.length second ∧ follows u

/-- Place 128 once an ordinary entry has left the table of `s`: where every place of 1 to 127 was occupied, the cause of
CONDITION_TABLE_FULL has ended (R155). -/
def State.fullEntryAfter (s : State) : Option ConditionEntry :=
  if s.freePlace = none then
    (s.conditions[fullPlace]).map fun f =>
      if f.state = .active then { f with state := .latched, lastChange := s.clock.reading } else f
  else s.conditions[fullPlace]

/-- The limit in force is the smaller of the contract limit and that of the ACTIVE order, the contract limit where none is
(R101). -/
structure State.LimitFollows (t : State) : Prop where
  active : ∀ (m : CurtailmentSlot) (a : CurtailmentOrder), t.que.orders[m] = some a → a.state = .active →
    t.esu.effLimit = min t.cfg.contract.limit a.limit
  nobody : (∀ (m : CurtailmentSlot) (a : CurtailmentOrder), t.que.orders[m] = some a → a.state ≠ .active) →
    t.esu.effLimit = t.cfg.contract.limit

/-- The order in slot `n` of `t` has started as an EMERGENCY, among the orders of `s`: the ordinary order in force is
SUSPENDED, an emergency in force is removed, and every other order stays (R96, R101). -/
structure EmergencyStarted (s t : State) (n : CurtailmentSlot) (o : CurtailmentOrder) : Prop where
  started : t.que.orders[n] = some { o with state := .active }
  limit : t.esu.effLimit = min s.cfg.contract.limit o.limit
  others : ∀ (m : CurtailmentSlot) (a : CurtailmentOrder), s.que.orders[m] = some a → m ≠ n →
    (a.state = .active → a.kind = .ordinary → t.que.orders[m] = some { a with state := .suspended }) ∧
    (a.state = .active → a.kind = .emergency → t.que.orders[m] = none) ∧
    (a.state ≠ .active → t.que.orders[m] = some a)
  empty : ∀ m : CurtailmentSlot, s.que.orders[m] = none → m ≠ n → t.que.orders[m] = none

/-- An order that the choice of the next ACTIVE order may take: in the given state, its end not passed (R98 i). -/
abbrev State.MayFollow (s : State) (a : CurtailmentOrder) (state : OrderState) : Prop :=
  a.state = state ∧ (s.clock.valid = true → ∀ x ∈ a.finish, s.clock.reading < x)

/-- The order in slot `m` comes before the one in slot `n`: the earlier start, then the lower slot (R98 iii). -/
abbrev comesFirst (m : CurtailmentSlot) (a : CurtailmentOrder) (n : CurtailmentSlot) (o : CurtailmentOrder) : Prop :=
  a.start < o.start ∨ a.start = o.start ∧ m ≤ n

/-- The ACTIVE order, in slot `n`, was removed between `s` and `t`, and the next ACTIVE order chosen (R98): on the way
the SUSPENDED and WAITING orders whose end has passed leave, none while the clock is INVALID (R100); a SUSPENDED order
that is left becomes ACTIVE, otherwise the WAITING one that comes first, otherwise none, and the limit in force follows
(R101). Every other order stays. -/
structure ActiveRemoved (s t : State) (n : CurtailmentSlot) : Prop where
  gone : t.que.orders[n] = none
  passed : ∀ (m : CurtailmentSlot) (a : CurtailmentOrder), s.que.orders[m] = some a →
    a.state = .suspended ∨ a.state = .waiting → s.clock.valid = true →
    (∃ e, a.finish = some e ∧ e ≤ s.clock.reading) → t.que.orders[m] = none
  pending : ∀ (m : CurtailmentSlot) (a : CurtailmentOrder), s.que.orders[m] = some a → a.state = .pending →
    t.que.orders[m] = some a
  empty : ∀ m : CurtailmentSlot, s.que.orders[m] = none → t.que.orders[m] = none
  suspended : ∀ (m : CurtailmentSlot) (a : CurtailmentOrder), s.que.orders[m] = some a → s.MayFollow a .suspended →
    t.que.orders[m] = some { a with state := .active } ∧ t.esu.effLimit = min s.cfg.contract.limit a.limit ∧
      ∀ (i : CurtailmentSlot) (x : CurtailmentOrder), s.que.orders[i] = some x → s.MayFollow x .waiting →
        t.que.orders[i] = some x
  waiting : (∀ (m : CurtailmentSlot) (a : CurtailmentOrder), s.que.orders[m] = some a → ¬ s.MayFollow a .suspended) →
    ∀ (m : CurtailmentSlot) (a : CurtailmentOrder), s.que.orders[m] = some a → s.MayFollow a .waiting →
      (∀ (i : CurtailmentSlot) (x : CurtailmentOrder), s.que.orders[i] = some x → s.MayFollow x .waiting →
        comesFirst m a i x) →
      t.que.orders[m] = some { a with state := .active } ∧ t.esu.effLimit = min s.cfg.contract.limit a.limit ∧
        ∀ (i : CurtailmentSlot) (x : CurtailmentOrder), s.que.orders[i] = some x → i ≠ m → s.MayFollow x .waiting →
          t.que.orders[i] = some x
  nobody : (∀ (m : CurtailmentSlot) (a : CurtailmentOrder), s.que.orders[m] = some a →
      ¬ s.MayFollow a .suspended ∧ ¬ s.MayFollow a .waiting) →
    t.esu.effLimit = s.cfg.contract.limit
  nominations : t.que.nominations = s.que.nominations

/-- The conditions a dispatch cycle may raise (R25, R52). -/
def cycleKeys : List ConditionKey :=
  [{ cls := .gasShortage, source := 1 }, { cls := .steamOverLimit, source := 1 }, { cls := .heatShortfall, source := 1 }] ++
    (List.finRange 6).map fun n => { cls := .sourceUnmeasured, source := n.val + 1 }

/-- The conditions a restart may raise (R84, R105, R112, R133, R152, R172, R176). -/
def restartKeys : List ConditionKey :=
  [{ cls := .plantReleaseLost, source := 1 }, { cls := .timeStep, source := 1 }, { cls := .settlementOverrun, source := 1 },
    { cls := .retainedStoreLost, source := 1 }, { cls := .retainedStoreLost, source := 2 },
    { cls := .retainedStoreLost, source := 3 }, { cls := .nominationMissing, source := 1 },
    { cls := .billQueueFull, source := 1 }] ++
    (List.finRange 48).map (fun k => { cls := .meterJump, source := k.val + 1 }) ++
    (List.finRange 48).map fun k => { cls := .substationEstimating, source := k.val + 1 }

/-- The entry of a key as a restart leaves it: its state and its raise count. -/
def State.shown (s : State) (cls : ConditionClass) (source : Nat) : Option (EntryState × Nat) :=
  (s.entryOf { cls := cls, source := source }).map fun e => (e.state, e.raises)

/-- The entry of a key is present, ACTIVE and waiting to be fetched. -/
def State.Reported (s : State) (cls : ConditionClass) (source : Nat) : Prop :=
  ∃ e, s.entryOf { cls := cls, source := source } = some e ∧ e.state = .active ∧ e.notified = false

/-- The free places of 1 to 127. -/
def State.freePlaces (s : State) : List (Fin 128) :=
  (List.finRange 128).filter fun i => decide (i ≠ fullPlace) && (s.conditions[i]).isNone

/-- The entry of a key that one event of `s` has raised and ended `times` times: LATCHED and waiting, its raise count as
many higher, up to 255 (R112, R155, R174). -/
def State.ReportedAgain (s t : State) (k : ConditionKey) (times : Nat) : Prop :=
  ∃ e, t.entryOf k = some e ∧ e.state = .latched ∧ e.notified = false ∧
    e.raises = min ((s.entryOf k).elim 0 (·.raises) + times) 255

/-- The table has an entry or a place of its own for each of the keys: none of their raises at one event is lost (R154).
-/
abbrev State.HasRoom (s : State) (keys : List ConditionKey) : Prop :=
  (keys.filter fun k => (s.entryOf k).isNone).length ≤ s.freePlaces.length

/-- `t` is a boundary of the settlement grid of length `length` seconds under an offset of `offset` minutes (R89). -/
abbrev OnGrid (length : Nat) (offset t : Int) : Prop := (t + 60 * offset) % (length : Int) = 0

/-- `last` ends at the first boundary after `t`. -/
abbrev FirstBoundaryAfter (length : Nat) (offset t last : Int) : Prop :=
  t < last ∧ last ≤ t + length ∧ OnGrid length offset last

/-! ### The start state (R177) -/

/-- Every block's volatile state at the values the chapters give at start (R8, R20, R36, R61, R87, R133, R171). That the
four field lines hunt is the model's choice (log entry 47). -/
structure State.BlocksAtStart (t : State) : Prop where
  lines : ∀ l : FieldLineNo, t.lines[l] = .hunting
  channels : ∀ c : ChannelNo,
    t.channels[c] = { state := .absent, goodRun := 0, last := none, lastTime := none, silenceFrom := none }
  points : ∀ p : PointNo, t.points[p] =
    { state := if (t.cfg.points[p]).isSome then .awaiting else .unconfigured
      rank := none, value := none, clamped := false, valueTime := none, holdDue := none
      waitDue := if (t.cfg.points[p]).isSome then some 60 else none }
  sources : ∀ n : GasSource, t.gas.unmeasured[n] = false
  detectors : t.gas.highHigh = { state := .clear, due := none } ∧ t.gas.lowLow = { state := .clear, due := none }
  cycle : t.dsp.cycle = 0 ∧ t.dsp.lastCycle = 0 ∧ t.dsp.result = none ∧ t.dsp.fraction = 1000 ∧
    t.dsp.flareDemand = 0 ∧ t.dsp.flareStages = 0 ∧
    t.dsp.markers = { shortage := false, steamOver := false, heatShort := false }
  allocations : ∀ b : Boiler, t.dsp.allocations[b] = { gas := 0, aux := 0, idle := 0 }
  setpoints : t.dsp.sending = none ∧ t.dsp.waiting = []
  boilers : ∀ b : Boiler, t.boilers[b] =
    { state := .off, phase := none, target := none, awaiting := false, run := none, history := [], cause := none,
      marker := false, lastClose := 0, lastCloseTime := t.clock.reading, purgeDue := none, lightOffDue := none,
      confirmDue := none, deadDue := none, gasPermit := false, auxPermit := false }
  heat : (∀ k : Substation, t.hmu.lastRates[k] = 0) ∧ t.hmu.watchDue = some 60 ∧ t.hmu.minuteDue = false
  link : t.hlu = { assembler := .hunt false, slot := none, refusal := none, transmitter := none, restarted := true,
                   linkError := false, answer := none, restartDue := false }

/-- The module, as `t`, stands in its start state under a held RESET: no output is on but FAULT, no byte is taken, no
condition stands, and the battery domain and the retained store of `s` are kept (R177). -/
structure State.StandsInReset (s t : State) : Prop where
  held : t.powered = true ∧ t.resetHeld = true
  kept : t.clock = s.clock ∧ t.store = s.store ∧ t.plantRelease = s.plantRelease
  permits : ∀ b : Boiler, t.gasPermitLine b = some false ∧ t.auxPermitLine b = some false
  flare : ∀ n, 1 ≤ n → t.flareLine n = some false
  lines : t.alertLine = some false ∧ t.faultOutput = some true
  start : t.osc = 0 ∧ t.conditions = Vector.replicate 128 none ∧ t.BlocksAtStart
  hostBytes : ∀ b stop, exec (.hostLinkByteReceived b stop) t = .next t
  fieldBytes : ∀ l b stop, exec (.fieldLineByteReceived l b stop) t = .next t

/-! ### Closes of settlement intervals (R110 to R112, R116) -/

/-- The settlement queue once a record has joined it: a full one has dropped its oldest (R112). -/
def joinedBy (l : List SettlementRecord) (r : SettlementRecord) : List SettlementRecord :=
  (if l.length < 192 then l else l.drop 1) ++ [r]

/-- The gap record completed, with number `n`, from the meter's figure, or from its computed one with METER_ESTIMATED
(R110, R116). -/
def GapRecord.completed (g : GapRecord) (n : Word) (metered : Option Nat) : SettlementRecord :=
  let figure : Int := metered.elim (g.computed / 3600) fun (m : Nat) => m
  { sequence := n
    start := g.start
    length := g.length
    nominated := g.nominated
    metered := figure
    computed := g.computed / 3600
    imbalance := g.nominated.map fun (e : Nat) => figure - e
    curtailed := g.curtailed
    minLimit := g.minLimit
    flags :=
      { meterEstimated := metered.isNone
        timeStep := g.flags.timeStep
        powerGap := g.flags.powerGap
        curtailed := decide (0 < g.curtailed)
        steamOver := g.flags.steamOver
        unnominated := g.nominated.isNone } }

/-- The gap record that the meter wait holds unfinished (R116 ii). -/
def State.gapHeld (s : State) : Option GapRecord := s.esu.wait.bind (·.gap)

/-- The settlement queue after the end of the meter wait, if it runs, without a reading: a gap record has joined it
(R116). -/
def State.settlementsAfterWait (s : State) : List SettlementRecord :=
  s.gapHeld.elim s.que.settlements fun g => joinedBy s.que.settlements (g.completed s.que.nextSettlement none)

/-- The next settlement number after that end of the meter wait. -/
def State.numberAfterWait (s : State) : Word := s.que.nextSettlement + if s.gapHeld.isSome then 1 else 0

/-- `r` is the record of the interval `iv`, open in `s`, closed at `closeTime`, at a clock step or wrap or not, after the
meter wait, if it ran, has ended without a reading (R110, R111, R115, R116). -/
structure State.ClosesInto (s : State) (iv : OpenInterval) (closeTime : Int) (stepped : Bool) (r : SettlementRecord) :
    Prop where
  sequence : r.sequence = s.numberAfterWait
  span : r.start = iv.start ∧ r.length = (closeTime - iv.start).toNat
  nominated : r.nominated = s.que.current ∧ r.flags.unnominated = s.que.current.isNone
  computed : r.computed = iv.computed / 3600
  imbalance : r.imbalance = s.que.current.map fun (n : Nat) => r.metered - (n : Int)
  carried : r.flags.timeStep = (iv.flags.timeStep || stepped) ∧ r.flags.powerGap = iv.flags.powerGap ∧
    r.flags.steamOver = iv.flags.steamOver
  estimated : iv.estimated = true ∨ s.gapHeld.isSome ∨ s.meterUsable = false →
    r.metered = r.computed ∧ r.flags.meterEstimated = true
  metered : ∀ last ref, iv.estimated = false → s.gapHeld = none → s.meterUsable = true →
    s.esu.lastReading = some last → iv.reference = some ref → last < 100000000 → ref < 100000000 →
    r.metered = ((last : Int) - ref) % 100000000 ∧ r.flags.meterEstimated = false
  curtailed : r.curtailed = min (iv.curtailed + s.esu.curtailedSince.elim 0 fun t => s.osc - t) r.length ∧
    r.flags.curtailed = decide (0 < r.curtailed)

/-- The close of `iv` leaves its record `r` behind the gap record, if the meter wait held one, and ends the wait. -/
structure State.IntervalClosed (s t : State) (iv : OpenInterval) (closeTime : Int) (stepped : Bool)
    (r : SettlementRecord) : Prop where
  record : s.ClosesInto iv closeTime stepped r
  queue : t.que.settlements = joinedBy s.settlementsAfterWait r
  number : t.que.nextSettlement = s.numberAfterWait + 1
  wait : t.esu.wait = none

/-- `next` is the interval that opens with its start at `start`, under the effective limit of `t` (R106). -/
structure State.Opens (s t : State) (next : OpenInterval) (start : Int) (flags : IntervalFlags) : Prop where
  figures : next.start = start ∧ next.computed = 0 ∧ next.curtailed = 0 ∧ next.minLimit = t.esu.effLimit ∧
    next.flags = flags
  metered : s.meterUsable = true → next.reference = s.esu.lastReading ∧ next.estimated = false
  unmetered : s.meterUsable = false → next.reference = none ∧ next.estimated = true
  finish : FirstBoundaryAfter t.cfg.intervalSeconds t.clock.offset start t.esu.intervalEnd
  since : t.esu.curtailedSince = if t.esu.effLimit < t.cfg.contract.limit then some t.osc else none
  nominations : t.que.current = energyAt s.que.nominations start ∧
    ∀ n, n ∈ t.que.nominations ↔ n ∈ s.que.nominations ∧ start < n.start

/-! ### Starts and ends of orders taken at one event (R99, R103, R105) -/

/-- The order's next time, a PENDING order's start and any other's end, is at or before `now`. -/
def CurtailmentOrder.timePassed (o : CurtailmentOrder) (now : Nat) : Prop :=
  if o.state = .pending then o.start ≤ now else ∃ e, o.finish = some e ∧ e ≤ now

/-- An order's next time: a PENDING order's start, any other's end. -/
def CurtailmentOrder.nextTime (o : CurtailmentOrder) : Nat := if o.state = .pending then o.start else o.finish.getD 0

/-- The start or the end of the order `o` in slot `n` of `s`, the earliest of those passed, has been taken by the rule of
its kind and state (R96 to R99). -/
structure OrderTimeTaken (s t : State) (n : CurtailmentSlot) (o : CurtailmentOrder) : Prop where
  held : s.que.orders[n] = some o
  passed : o.timePassed s.clock.reading
  earliest : ∀ (m : CurtailmentSlot) (a : CurtailmentOrder), s.que.orders[m] = some a → a.timePassed s.clock.reading →
    o.nextTime ≤ a.nextTime
  clock : t.clock = s.clock ∧ t.cfg = s.cfg
  emergency : o.state = .pending → o.kind = .emergency → EmergencyStarted s t n o
  ordinary : o.state = .pending → o.kind = .ordinary → t.LimitFollows ∧
    t.que.orders = s.que.orders.set n (some { o with state := if s.activeSlot = none then .active else .waiting })
  active : o.state = .active → ActiveRemoved s t n
  aside : o.state = .suspended ∨ o.state = .waiting →
    t.que.orders = s.que.orders.set n none ∧ t.esu.effLimit = s.esu.effLimit

/-- The passed starts and ends are taken one by one, in order of time and those of equal time in either order, until none
is passed (R98, R99, R103 i). -/
inductive State.OrderTimesTaken : State → State → Prop where
  | done {s : State} (none : ∀ (n : CurtailmentSlot) (o : CurtailmentOrder), s.que.orders[n] = some o →
      ¬ o.timePassed s.clock.reading) : s.OrderTimesTaken s
  | next {s t u : State} {n : CurtailmentSlot} {o : CurtailmentOrder} (first : OrderTimeTaken s t n o)
      (rest : t.OrderTimesTaken u) : s.OrderTimesTaken u

/-- Every start and end of `orders` at or before `now` has been taken, in order of time, under the contract limit
`contract`, and `t` holds the orders left and the limit in force; `inOrder` says which orders these are, one taking after
another, for a table that keeps the law of orders. -/
structure OrdersTaken (orders : Vector (Option CurtailmentOrder) 8) (now contract : Nat) (t : State) : Prop where
  left : ∀ (n : CurtailmentSlot) (o : CurtailmentOrder), t.que.orders[n] = some o → ¬ o.timePassed now ∧
    ∃ old, orders[n] = some old ∧ o = { old with state := o.state }
  ahead : ∀ (n : CurtailmentSlot) (o : CurtailmentOrder), orders[n] = some o → o.state = .pending → now < o.start →
    t.que.orders[n] = some o
  removed : ∀ (n : CurtailmentSlot) (o : CurtailmentOrder), orders[n] = some o → t.que.orders[n] = none →
    (∃ e, o.finish = some e ∧ e ≤ now) ∨ o.kind = .emergency
  inOrder : ∀ q : QueuesRegion, q.orders = orders → q.OrdersLegal → ∃ u v : State,
    (u.que.orders = orders ∧ u.clock.valid = true ∧ u.clock.reading = now ∧ u.cfg.contract.limit = contract) ∧
    u.OrderTimesTaken v ∧ t.que.orders = v.que.orders ∧ t.LimitFollows
  ordinary :
    let ended (o : CurtailmentOrder) : Prop := ∃ e, o.finish = some e ∧ e ≤ now
    let begun (o : CurtailmentOrder) : Prop := o.state = .pending ∧ o.start ≤ now
    let active := ∃ (m : CurtailmentSlot) (a : CurtailmentOrder), orders[m] = some a ∧ a.state = .active
    (∀ (m : CurtailmentSlot) (a : CurtailmentOrder), orders[m] = some a → ¬ ended a ∧ (begun a → a.kind = .ordinary)) →
    ∀ (n : CurtailmentSlot) (o : CurtailmentOrder), orders[n] = some o →
      (¬ begun o → t.que.orders[n] = some o) ∧
      (begun o → active → t.que.orders[n] = some { o with state := .waiting }) ∧
      (begun o → ¬ active →
        (∀ (m : CurtailmentSlot) (a : CurtailmentOrder), orders[m] = some a → m ≠ n → begun a → o.start < a.start) →
        t.que.orders[n] = some { o with state := .active } ∧ t.esu.effLimit = min contract o.limit ∧
        ∀ (m : CurtailmentSlot) (a : CurtailmentOrder), orders[m] = some a → m ≠ n → begun a →
          t.que.orders[m] = some { a with state := .waiting })
  alone : ∀ (n : CurtailmentSlot) (o : CurtailmentOrder), orders[n] = some o →
    (∀ (m : CurtailmentSlot) (a : CurtailmentOrder), orders[m] = some a → m ≠ n → ¬ a.timePassed now) →
    (o.state = .pending → o.start ≤ now → o.kind = .emergency → (∀ e ∈ o.finish, now < e) →
      t.que.orders[n] = some { o with state := .active } ∧ t.esu.effLimit = min contract o.limit) ∧
    ((∃ e, o.finish = some e ∧ e ≤ now) → o.state ≠ .pending ∨ o.start ≤ now → t.que.orders[n] = none)

/-! ### Local dates, band lookups and scheduled closes (R139, R141) -/

/-- The number of a date's day, counted from 2000-01-01, in the Gregorian calendar (section 6 (4) of chapter 0). -/
def Date.number (d : Date) : Int :=
  let before : Int := d.year - 1
  365 * (d.year - 2000) + (before / 4 - before / 100 + before / 400 - 484) +
    ((List.range (d.month - 1)).map fun m => daysInMonth d.year (m + 1)).sum + (d.day - 1)

/-- The date names a month and a day of it. -/
def Date.Proper (d : Date) : Prop := 1 ≤ d.month ∧ d.month ≤ 12 ∧ 1 ≤ d.day ∧ d.day ≤ daysInMonth d.year d.month

/-- `d` is the local date of the clock. -/
def State.LocalDate (s : State) (d : Date) : Prop :=
  d.Proper ∧ d.number = (s.clock.reading + 60 * s.clock.offset) / 86400

/-- The local weekday, Monday 0 to Sunday 6, of local time `t`: 2000-01-01 was a Saturday (R139 i). -/
def weekdayOf (t : Int) : Nat := ((t / 86400 + 5) % 7).toNat

/-- The local date `d` at local time `t` is a REST day: its weekday is in the mask, or the date in the holiday list (R139 i). -/
abbrev ConfigRegion.Rests (c : ConfigRegion) (t : Int) (d : Date) : Prop :=
  c.restMask.getLsbD (weekdayOf t) = true ∨ d ∈ c.holidays

/-- The band that a lookup for substation `k` finds, where `d` is the local date: the entry for the local hour in the current
table's schedule of the day's type, for the substation's tariff group, group 1 where it is not configured (R139). -/
def State.lookedUpBand (s : State) (k : Substation) (d : Date) : Fin 4 :=
  let t := s.clock.reading + 60 * s.clock.offset
  let hour : Fin 24 := Fin.ofNat 24 (t % 86400 / 3600).toNat
  let group := s.cfg.tariff.groups[(s.cfg.substations[k]).elim (0 : Fin 4) (·.group)]
  if s.cfg.Rests t d then group.rest[hour] else group.workday[hour]

/-- Local time `t` is a scheduled close time of a table: minute 0 and second 0 of the close hour on the close day of some
month (R141). -/
def Tariff.ClosesAt (x : Tariff) (t : Int) : Prop :=
  ∃ d : Date, 1 ≤ d.month ∧ d.month ≤ 12 ∧ d.day = x.closeDay ∧ t = 86400 * d.number + 3600 * x.closeHour

/-! ### What replies and records carry (R179 iv, chapter 12) -/

/-- A field of a reply or record: its width in bytes, whether it is signed, and its value, none where the manual gives
none. -/
structure Item where
  width : Nat
  signed : Bool
  value : Option Int
deriving DecidableEq, Repr

/-- The number that bytes spell, least significant first. -/
def bytesValue : List Byte → Nat
  | [] => 0
  | b :: l => b.toNat + 256 * bytesValue l

/-- The values that an item's field can hold. -/
def Item.holds (i : Item) (v : Int) : Bool :=
  if i.signed then decide (-(256 ^ i.width) ≤ 2 * v ∧ 2 * v < 256 ^ i.width) else decide (0 ≤ v ∧ v < 256 ^ i.width)

/-- Bytes carry the items, one after another and nothing after them, each value in two's complement. A value that its
field cannot hold leaves the field's bytes open (log entry 4), as does an item without a value. -/
def carries : List Item → List Byte → Bool
  | [], bytes => bytes.isEmpty
  | i :: items, bytes =>
    decide (i.width ≤ bytes.length) &&
      i.value.all (fun v =>
        !i.holds v || decide ((bytesValue (bytes.take i.width) : Int) = v % 256 ^ i.width)) &&
      carries items (bytes.drop i.width)

def unsigned (width : Nat) (v : Int) : Item := { width := width, signed := false, value := some v }

def signed (width : Nat) (v : Int) : Item := { width := width, signed := true, value := some v }

/-- An item of one byte that the manual leaves open. -/
def openByte : Item := { width := 1, signed := false, value := none }

/-- A yes-or-no item, flag, mark or line level. -/
def yesNo (b : Bool) : Item := unsigned 1 (if b then 1 else 0)

/-- A byte of flags, from bit 0. -/
def flagBits (bits : List Bool) : Item := unsigned 1 (bits.foldr (fun b n => (if b then 1 else 0) + 2 * n) 0)

/-- A number of the manual's numbering. -/
def numberItem {n : Nat} (i : Fin n) : Item := unsigned 1 (i.val + 1)

/-- A named value, coded from 00h in the order in which the chapter lists the names (R179 i, log entry 31). -/
def named {α : Type} [DecidableEq α] (names : List α) (x : α) : Item := unsigned 1 (names.idxOf x)

/-- A named value that may be "none", FFh. -/
def namedOrNone {α : Type} [DecidableEq α] (names : List α) (x : Option α) : Item := x.elim (unsigned 1 0xFF) (named names)

/-- Items that may be absent together: a presence byte, then the items, or as many bytes of 0 (R179 iv, log entry 32). -/
def optionalItems {α : Type} (width : Nat) (x : Option α) (items : α → List Item) : List Item :=
  x.elim (yesNo false :: List.replicate width (unsigned 1 0)) fun a => yesNo true :: items a

/-- A list, after its count byte. -/
def countedItems {α : Type} (xs : List α) (items : α → List Item) : List Item := unsigned 1 xs.length :: xs.flatMap items

/-- The seconds remaining to an expiry, or the indication that the timer is stopped. -/
def State.remaining (s : State) (due : Option Nat) : List Item := optionalItems 4 due fun t => [unsigned 4 (t - s.osc : Nat)]

/-- The body of a field sample frame of a kind without its quality byte (12.3): its width, and the items of a value. -/
def ChannelKind.valueWidth : ChannelKind → Nat
  | .measure => 4
  | .status => 1
  | .meter => 8

def Quantity.items : Quantity → List Item
  | .measure v => [signed 4 v]
  | .status i => [flagBits [i.flame, i.gasClosed, i.auxClosed, i.tripDemand, i.localControl, i.available]]
  | .meter reading rate => [unsigned 4 reading, unsigned 4 rate]

/-- Identify: the codes of R170, then the state of each region, CONFIG, ACCOUNTS and QUEUES. -/
def State.identifyItems (s : State) : List Item :=
  let state := named [RegionState.sound, .restored]
  [unsigned 1 0x46, unsigned 2 0x0640, unsigned 1 3, unsigned 2 512,
    state s.store.config.state, state s.store.accounts.state, state s.store.queues.state]

/-- Read Time, where `d` is the local date (R173). -/
def State.timeItems (s : State) (d : Date) : List Item :=
  let t := s.clock.reading + 60 * s.clock.offset
  let second := t % 86400
  [unsigned 4 s.clock.reading, named [true, false] s.clock.valid, signed 2 s.clock.offset,
    unsigned 2 d.year, unsigned 1 d.month, unsigned 1 d.day,
    unsigned 1 (second / 3600), unsigned 1 (second / 60 % 60), unsigned 1 (second % 60), unsigned 1 (weekdayOf t),
    named [DayType.workday, .rest] (if s.cfg.Rests t d then .rest else .workday)]

/-- Read Channel (R7). -/
def State.channelItems (s : State) (ch : ChannelNo) : List Item :=
  let c := s.cfg.channels[ch]
  let x := s.channels[ch]
  [named [ChannelKind.measure, .status, .meter] c.kind, unsigned 2 c.silence,
    named [ChannelState.live, .suspect, .lost, .absent] x.state, unsigned 1 x.goodRun] ++
  optionalItems (c.kind.valueWidth + 1) x.last (fun y => y.body.items ++ [named [Quality.good, .suspect] y.quality]) ++
  optionalItems 4 x.lastTime (fun t => [unsigned 4 t]) ++
  s.remaining (x.silenceFrom.map (· + c.silence))

/-- Read Point (R19). For an UNCONFIGURED slot the role and the channels are none, and the figures, for which the manual
gives no form, are sent as 0 (log entry 32). -/
def State.pointItems (s : State) (p : PointNo) : List Item :=
  let c := s.cfg.points[p]
  let x := s.points[p]
  let alternate (a : Option ChannelNo) : Item := a.elim (unsigned 1 0xFF) numberItem
  (match c with
    | none => [unsigned 1 0xFF, unsigned 1 0, unsigned 1 0xFF, unsigned 1 0xFF, unsigned 1 0xFF, unsigned 2 0, unsigned 2 0,
        signed 4 0, signed 4 0, unsigned 2 0]
    | some c => [unsigned 1 c.role.codes.1, unsigned 1 c.role.codes.2, numberItem c.primary, alternate c.alternateA,
        alternate c.alternateB, unsigned 2 c.multiplier, unsigned 2 c.divisor, signed 4 c.low, signed 4 c.high,
        unsigned 2 c.hold]) ++
  [named [PointState.unconfigured, .awaiting, .serving, .holding, .failed] x.state,
    namedOrNone [Rank.primary, .alternateA, .alternateB] x.rank] ++
  optionalItems (c.elim 4 fun c => c.role.requiredKind.valueWidth + 4) x.value
    (fun v => v.items ++ [unsigned 4 (x.valueTime.getD 0 : Nat)]) ++
  [yesNo x.clamped] ++ s.remaining (x.holdDue.or x.waitDue)

def boilerStates : List BoilerState := [.off, .purge, .lighting, .firingGas, .firingAux, .changeover, .tripped, .lockedOut]

/-- The dispatch result record (12.4). A cycle without a request gives the boiler byte no value (log entry 38). -/
def DispatchResult.items (r : DispatchResult) : List Item :=
  let g := r.figures
  [unsigned 4 r.cycle.toNat, unsigned 4 r.time, unsigned 1 r.span, unsigned 1 r.period] ++
  g.energies.toList.map (fun (e : Nat) => unsigned 4 e) ++
  g.standings.toList.map (named [SourceStanding.counted, .unmeasured, .outOfService, .notDefined]) ++
  [unsigned 4 g.sourceEnergy, unsigned 2 g.networkCv, unsigned 4 g.draw, signed 4 g.surplus, unsigned 4 (g.level.getD 0 : Nat),
    named [HolderPosition.above, .below, .inBand, .levelFailed] g.position, signed 4 g.correction,
    flagBits [g.cvDefault, g.drawFallback, decide (g.level = none), g.highHigh, g.lowLow, decide (g.inForce = .reduced)],
    unsigned 4 r.early.available, unsigned 4 r.early.demand, unsigned 4 r.early.usable, unsigned 4 r.early.effLimit,
    unsigned 4 r.early.turbineLimit, unsigned 4 r.early.headroom, unsigned 4 r.early.committed,
    unsigned 4 r.early.gasFloors,
    unsigned 4 r.raised.remainingGas, unsigned 4 r.raised.remainingHeadroom, unsigned 4 r.raised.leftover,
    unsigned 4 r.raised.gasSteam, unsigned 4 r.raised.auxFloorSteam, unsigned 4 r.raised.shortfall,
    unsigned 4 r.raised.auxSteam,
    unsigned 4 r.heat.delivered, unsigned 4 r.heat.recovered, unsigned 4 r.heat.auxiliary, unsigned 4 r.heat.turbine,
    unsigned 4 r.heat.power, signed 4 r.heat.exported, unsigned 2 r.heat.fraction,
    unsigned 1 r.flareDemand, unsigned 1 r.flareStages] ++
  r.boilers.toList.flatMap (fun b =>
    [named boilerStates b.state, namedOrNone [Phase.dead, .takeover] b.phase, unsigned 4 (b.floor.getD 0 : Nat),
      unsigned 4 b.gas, unsigned 4 b.aux, unsigned 1 b.idle]) ++
  [flagBits [r.flags.shortage, r.flags.steamOver, r.flags.holderFailed, r.flags.turbineUnavailable, r.flags.heatShort]] ++
  match r.request with
  | .nothing => [unsigned 1 0xFF, openByte, unsigned 1 0]
  | .one kind b =>
    [named [ShedKind.shedShortage, .shedSteam, .releaseAux, .returnGas] kind, numberItem b, unsigned 1 0]
  | .shedAll shed => [unsigned 1 0, unsigned 1 0, flagBits ((List.finRange 8).map fun b => decide (b ∈ shed))]

/-- Read Dispatch (R60): the last result, then the live state. -/
def State.dispatchItems (s : State) : List Item :=
  let p := s.cfg.plant
  optionalItems 276 s.dsp.result DispatchResult.items ++
  [unsigned 4 s.dsp.cycle.toNat, unsigned 4 (s.dsp.lastCycle + p.period - s.osc : Nat)] ++
  s.dsp.allocations.toList.flatMap (fun a => [unsigned 4 a.gas, unsigned 4 a.aux, unsigned 1 a.idle]) ++
  [unsigned 1 s.dsp.flareStages, unsigned 2 s.dsp.fraction] ++
  countedItems s.cfg.merit (fun b => [numberItem b]) ++
  [unsigned 1 p.period, unsigned 1 p.idleLimit, unsigned 2 p.conversion, unsigned 4 p.turbineMax, unsigned 4 p.ownUse,
    unsigned 4 p.exchanger, unsigned 4 p.loss, unsigned 4 p.stageSize]

/-- Read Boiler (R86); whether it is configured is a byte of its own, and an open permit is sent as 01h (log entries 32,
41). -/
def State.boilerItems (s : State) (b : Boiler) : List Item :=
  let q := s.boilers[b]
  let fuel := namedOrNone [Fuel.gas, .aux]
  [yesNo (s.cfg.boilers[b]).isSome] ++
  optionalItems 26 s.cfg.boilers[b] (fun c =>
    [unsigned 4 c.minimum, unsigned 4 c.maximum, unsigned 4 c.ramp, unsigned 2 c.yield, yesNo c.auxFitted, unsigned 2 c.purge,
      unsigned 1 c.lightOff, unsigned 1 c.interval, named [ChangeoverReference.fromCommand, .fromConfirm] c.reference,
      unsigned 4 c.window, unsigned 1 c.tripLimit, named [RestartMode.autoRestart, .latched] c.restart]) ++
  [named boilerStates q.state, namedOrNone [Phase.dead, .takeover] q.phase, fuel q.target, yesNo q.awaiting, fuel q.run,
    yesNo q.gasPermit, yesNo q.auxPermit] ++
  s.remaining q.purgeDue ++ s.remaining q.lightOffDue ++ s.remaining q.confirmDue ++ s.remaining q.deadDue ++
  countedItems q.history (fun e =>
    [unsigned 4 e.time, unsigned 4 (e.second + (s.cfg.boilers[b]).elim 0 (·.window) - s.osc : Nat)]) ++
  [namedOrNone [TripCause.tripDemand, .flameLost, .statusLost, .releaseLost, .lightOffFailed, .valveNotClosed] q.cause,
    yesNo q.marker,
    yesNo ((s.indicated (.boilerStatus b)).elim true fun i => i.tripDemand || !s.plantRelease),
    unsigned 4 q.lastCloseTime, yesNo s.plantRelease]

/-- A missing interval starts at `t` (R93; log entry 40 for one whose gate lies ahead again). -/
def State.Missing (s : State) (iv : OpenInterval) (t : Int) : Prop :=
  t - 60 * s.cfg.contract.lead ≤ s.clock.reading ∧
    (t = iv.start ∧ s.que.current = none ∨
      OnGrid s.cfg.intervalSeconds s.clock.offset t ∧ s.esu.intervalEnd ≤ t ∧ ∀ n ∈ s.que.nominations, (n.start : Int) ≠ t)

/-- The next gate, after the present second, is that of the interval which starts at `t` (R93, log entry 32). -/
def State.NextGate (s : State) (t : Int) : Prop :=
  let ahead (t : Int) : Prop := OnGrid s.cfg.intervalSeconds s.clock.offset t ∧ s.esu.intervalEnd ≤ t ∧
    s.clock.reading < t - 60 * s.cfg.contract.lead
  ahead t ∧ ∀ u : Int, ahead u → t ≤ u

/-- Read Nominations (R94), where `next` is the start of the interval whose gate comes next, and `missing` the starts of
the missing intervals, earliest first. -/
def State.nominationItems (s : State) (next : Option Int) (missing : List Int) : List Item :=
  [unsigned 4 s.cfg.contract.limit, unsigned 1 s.cfg.contract.length, unsigned 1 s.cfg.contract.lead, yesNo s.clock.valid] ++
  optionalItems 8 s.que.interval (fun iv => [unsigned 4 iv.start, unsigned 4 s.esu.intervalEnd]) ++
  optionalItems 4 s.que.current (fun e => [unsigned 4 e]) ++
  countedItems s.que.nominations (fun n => [unsigned 4 n.start, unsigned 4 n.energy]) ++
  optionalItems 8 next (fun t => [unsigned 4 (t - 60 * s.cfg.contract.lead), unsigned 4 t]) ++
  [unsigned 1 missing.length] ++ optionalItems 4 missing.head? (fun t => [unsigned 4 t])

/-- Read Curtailments (R102): an end of OPEN is FFFFFFFFh. -/
def State.curtailmentItems (s : State) : List Item :=
  [unsigned 4 s.cfg.contract.limit, unsigned 4 s.esu.effLimit, yesNo s.clock.valid] ++
  s.que.orders.toList.flatMap (fun slot => optionalItems 18 slot fun o =>
    [unsigned 4 o.reference, named [OrderKind.ordinary, .emergency] o.kind, unsigned 4 o.limit, unsigned 4 o.start,
      unsigned 4 (o.finish.getD 0xFFFFFFFF : Nat), named [OrderState.pending, .active, .suspended, .waiting] o.state]) ++
  optionalItems 1 ((List.finRange 8).find? fun n => (s.que.orders[n]).any fun o => decide (o.state = .active))
    (fun n => [numberItem n])

/-- The settlement record of 37 bytes (12.5). -/
def SettlementRecord.items (r : SettlementRecord) : List Item :=
  [unsigned 4 r.sequence.toNat, unsigned 4 r.start, unsigned 4 r.length, unsigned 4 (r.nominated.getD 0 : Nat),
    signed 4 r.metered, signed 4 r.computed, signed 4 (r.imbalance.getD 0), unsigned 4 r.curtailed, unsigned 4 r.minLimit,
    flagBits [r.flags.meterEstimated, r.flags.timeStep, r.flags.powerGap, r.flags.curtailed, r.flags.steamOver,
      r.flags.unnominated]]

def bandItems (bands : Vector BandFigures 4) : List Item :=
  bands.toList.flatMap fun x =>
    [unsigned 4 x.recovered, unsigned 4 x.auxiliary, unsigned 4 x.estimated, signed 4 x.reconciled, signed 8 x.charge]

def SetFlags.item (f : SetFlags) : Item := flagBits [f.estimated, f.disputeOpen, f.clockInvalid, f.merged]

/-- The bill record of 142 bytes (12.6). -/
def Bill.items (b : Bill) : List Item :=
  [unsigned 4 b.sequence.toNat, numberItem b.substation, unsigned 4 b.account, unsigned 4 b.first, unsigned 4 b.last,
    unsigned 4 b.start, unsigned 4 b.finish] ++ bandItems b.bands ++
  [unsigned 4 b.rejected, unsigned 8 b.standing, signed 8 b.total, b.flags.item]

/-- An accumulator set (R179 iv): the bill's fields from the first period to the flags, but the total, then the periods
covered; a field absent in a current set is 0. -/
def AccumulatorSet.items (x : AccumulatorSet) : List Item :=
  [unsigned 4 x.first, unsigned 4 (x.last.getD 0 : Nat), unsigned 4 (x.start.getD 0), unsigned 4 (x.finish.getD 0)] ++
  bandItems x.bands ++ [unsigned 4 x.rejected, unsigned 8 x.standing, x.flags.item, unsigned 4 x.covered]

/-- Read Substation (R132), with the Δ of R126 and the heat demand sum of R131; whether it is configured, and the dispute
flag, are bytes of their own (log entry 32). -/
def State.substationItems (s : State) (k : Substation) : List Item :=
  let m := s.acc.meters[k]
  let l := s.acc.ledgers[k]
  let mark (x : MeterMark) : List Item := [unsigned 4 x.reading, unsigned 4 x.time]
  let term (k : Substation) : Nat :=
    if (s.acc.meters[k]).state = .inService then s.hmu.lastRates[k]
    else if (s.acc.meters[k]).state = .estimating then (s.cfg.substations[k]).elim 0 (·.estimateRate)
    else 0
  [yesNo (s.cfg.substations[k]).isSome] ++
  optionalItems 14 s.cfg.substations[k] (fun c =>
    [unsigned 4 c.account, numberItem c.group, numberItem c.staged, unsigned 4 c.maxRate, unsigned 4 c.estimateRate]) ++
  [named [SubstationState.fresh, .inService, .estimating, .disconnected] m.state] ++
  optionalItems 8 m.reference mark ++ [yesNo m.pendingMark.isSome] ++
  optionalItems 12 m.pendingMark (fun x => mark x ++
    [unsigned 4 (m.reference.elim 0 fun ref => ((x.reading : Int) - ref.reading) % 100000000)]) ++
  [yesNo m.reconciliation, unsigned 4 m.gapTotal, unsigned 4 m.remainder, unsigned 4 s.hmu.lastRates[k],
    unsigned 4 ((List.finRange 48).map term).sum] ++
  l.current.items ++ optionalItems 129 l.closing AccumulatorSet.items ++ [signed 8 l.booked.toInt, signed 8 l.issued.toInt]

/-- The classes in the order of section 9.1. -/
def classOrder : List ConditionClass :=
  [.plantReleaseLost, .boilerTrip, .holderHighHigh, .holderLowLow, .boilerLockout, .pointFailed, .steamOverLimit, .gasShortage,
    .heatShortfall, .meterJump, .substationEstimating, .sourceUnmeasured, .channelLost, .nominationMissing, .settlementOverrun,
    .billQueueFull, .linkError, .timeStep, .retainedStoreLost, .conditionTableFull]

/-- The largest source of each class, in the order of section 9.1; the smallest is 1. -/
def lastSources : List Nat := [1, 8, 1, 1, 8, 128, 1, 1, 1, 48, 48, 6, 96, 1, 1, 1, 1, 1, 3, 1]

/-- The latch mode of each class, in the order of section 9.1; none where the restart mode or a setting gives it. -/
def latchModes : List (Option LatchMode) :=
  [some .selfClearing, none, none, none, some .latching, none, some .selfClearing, some .selfClearing,
    some .selfClearing, some .latching, some .selfClearing, some .selfClearing, some .selfClearing, some .selfClearing,
    some .latching, some .selfClearing, some .selfClearing, some .latching, some .latching, some .latching]

/-- An entry of the Condition Table (section 9.2). -/
def ConditionEntry.items (e : ConditionEntry) : List Item :=
  [unsigned 1 (classOrder.idxOf e.key.cls + 1), unsigned 1 e.key.source, named [EntryState.active, .latched] e.state,
    named [LatchMode.latching, .selfClearing] e.latch, yesNo e.notified, unsigned 4 e.firstRaised, unsigned 4 e.lastChange,
    unsigned 1 e.raises]

/-- Read Conditions from a place on (R161): the mask's bit n − 1 enables class n, and the next read starts at the next
occupied place (log entry 37). -/
def State.conditionItems (s : State) (first : Fin 128) : List Item :=
  let occupied := (List.finRange 128).filterMap fun i => (s.conditions[i]).map fun e => (i, e)
  let waiting := occupied.countP fun x => !x.2.notified
  let fault := occupied.any fun x =>
    decide (x.2.state = .active) && s.cfg.faultMask.getLsbD (classOrder.idxOf x.2.key.cls)
  let latch := named [LatchMode.latching, .selfClearing]
  let from' := occupied.filter fun x => decide (first ≤ x.1)
  [unsigned 1 occupied.length, unsigned 1 waiting, yesNo (decide (waiting ≠ 0)), yesNo (!fault),
    unsigned 4 s.cfg.faultMask.toNat, latch s.cfg.latchModes.highHigh, latch s.cfg.latchModes.lowLow,
    latch s.cfg.latchModes.pointFailed] ++
  countedItems (from'.take 16) (fun x => numberItem x.1 :: x.2.items) ++
  optionalItems 1 (from'.drop 16).head? (fun x => [numberItem x.1])

/-- A request is answered OK, with contents that carry the items, and changes nothing but the answer. -/
def State.Gives (s : State) (i : Instr) (items : List Item) : Prop :=
  ∃ contents, exec i s = .next (s.answered { status := .ok, contents := contents }) ∧ carries items contents = true

end Sys2Proof.Machine
end

