-- ==== Sys2Proof/WellFormed.lean ====
section
/-! DEFINITION. Which commands are well formed: the list operands have lengths that a frame can carry
(section 10.1: a payload is at most 512 bytes; 12.2 and 12.3 for the fixed parts). Every other operand is
well formed by its type. The machine answers ill-formed commands too (by the rules' own refusals). -/

namespace Sys2Proof

/-- The largest payload of the host link (R163, R170). -/
def maxPayload : Nat := 512

/-- The longest body of a field sample frame, quality byte included (12.3: METER). -/
def maxBody : Nat := 9

/-- A tariff group whose lists have the lengths of 12.2. -/
def RawGroup.wellFormed (g : RawGroup) : Bool :=
  g.workday.length == 24 && g.rest.length == 24 && g.recovered.length == 4 && g.auxiliary.length == 4

/-- A tariff table all of whose groups are well formed. -/
def RawTariff.wellFormed (t : RawTariff) : Bool :=
  t.group1.wellFormed && t.group2.wellFormed && t.group3.wellFormed && t.group4.wellFormed

/-- Every list operand fits the frame that would carry it. -/
def Instr.wellFormed : Instr → Bool
  | .fieldSampleFrame _ _ _ body _ => body.length ≤ maxBody
  | .hostFrameValid _ _ payload => payload.length ≤ maxPayload
  | .setHolidays _ dates => 1 + 4 * dates.length ≤ maxPayload
  | .setMeritList boilers => boilers.length ≤ maxPayload
  | .stageTariff table => table.wellFormed
  | _ => true

end Sys2Proof
end

