-- ==== Sys2Proof/Certificates/Slice0/Obligations.lean ====
section
/-! DEFINITION. The statements for the provers. The docstring of each names the rules it formalises; `working` is the
running module between two events, and `footprint` lists the parts a command may change.
Model choices the statements share: an expiry before its moment changes nothing (log entry 7), a request row is the
owner's half of the request (log entry 10), a region is written once at the end of its event (log entry 16), where the
Condition Table carries out what the event told it (`State.tell…`; log entry 34). -/

open Sys2Proof Sys2Proof.Machine

/-! ### The queue of commands, and frames -/

/-- The step takes the command at the front of the queue and carries it out on the state with the queue's rest; on an
empty queue nothing happens (the model's own queue: log entry 6). -/
def Obligations.StepTakesTheFrontCommand : Prop :=
  (∀ (s : State) (c : Instr) (rest : List Instr),
    s.pending = c :: rest → step s = exec c { s with pending := rest }) ∧
  ∀ s : State, s.pending = [] → step s = .next s

/-- No command stops the module: every command, in every state, is answered by a next state that keeps the queue of
waiting commands; and of the running module it changes nothing outside its footprint, the frame of that command. The
queue is the model's own (log entry 6). -/
def Obligations.EveryCommandKeepsToItsFootprint : Prop :=
  ∀ (c : Instr) (s : State), ∃ t, exec c s = .next t ∧ t.pending = s.pending ∧
    (s.working → ChangesOnly (footprint c) s t)

/-! ### Laws that every step keeps -/

/-- The laws hold right after reset (what the regions and the clock hold there is the model's choice: log entry 1). -/
def Obligations.ResetMeetsTheLaws : Prop :=
  State.reset.ConditionsLegal ∧ State.reset.OrdersLegal ∧ State.reset.QueuesLegal ∧ State.reset.AllocationsLegal ∧
    State.reset.PermitsLegal ∧ State.reset.FlareLegal ∧ State.reset.SetpointsLegal ∧ State.reset.LinkLegal ∧
    State.reset.AccountsLegal ∧ State.reset.ReadingsLegal ∧ State.reset.PointsLegal ∧ State.reset.StoreLegal ∧
    State.reset.esu.effLimit = State.reset.limitNow

/-- The Condition Table (section 9.2, R154 to R159): one entry per key, place 128 for CONDITION_TABLE_FULL alone, raise
counts from 1 to 255. -/
def Obligations.ConditionsLawKept : Prop :=
  ∀ s t : State, s.ConditionsLegal → step s = .next t → t.ConditionsLegal

/-- The law of curtailment (R96, R98): one ACTIVE order at most; one SUSPENDED order at most, ordinary, and only while
an EMERGENCY order is ACTIVE; references that differ; ends after starts; in the working region and both copies. And the
effective export limit of the running module is the smaller of the contract limit and the ACTIVE order's limit (R101). -/
def Obligations.OrdersLawKept : Prop :=
  (∀ s t : State, s.OrdersLegal → step s = .next t → t.OrdersLegal) ∧
  (∀ s t : State, (s.running = true → s.esu.effLimit = s.limitNow) → step s = .next t →
    (t.running = true → t.esu.effLimit = t.limitNow))

/-- The laws of the nomination queue, of record numbering and of bill numbering (R91, R112, R148). Of the law of R91 it
keeps the first two clauses: at most 96 entries, in strictly ascending order of interval. The third, no entry for an
interval that has begun while the clock is VALID, is left out, as the model does not keep it: an entry for the open
interval's own start can be queued after small backward steps (log entry 39), and a boundary expiry can come late (log
entry 7). -/
def Obligations.QueuesLawKept : Prop :=
  ∀ s t : State, s.QueuesLegal → step s = .next t → t.QueuesLegal

/-- The law of allocations (R41): non-zero only in the firing state of that fuel, and there from m to M; with the ranges
that R39, R40 and R88 keep the figures in: the merit list names no boiler twice, the interval has a length, m is at most
M. -/
def Obligations.AllocationsLawKept : Prop :=
  ∀ s t : State, s.AllocationsLegal → step s = .next t → t.AllocationsLegal

/-- The law of the permits (R85): never both open, none but where the boiler may burn; and a permit that opens does so
with both closed, no sooner than the boiler's changeover interval after the last close. -/
def Obligations.PermitsLawKept : Prop :=
  (∀ s t : State, s.PermitsLegal → step s = .next t → t.PermitsLegal) ∧
  (∀ (s t : State) (b : Boiler), s.PermitsLegal → step s = .next t →
    ((s.boilers[b]).gasPermit = false ∧ (t.boilers[b]).gasPermit = true ∨
      (s.boilers[b]).auxPermit = false ∧ (t.boilers[b]).auxPermit = true) →
    ∃ x, s.cfg.boilers[b] = some x ∧ (s.boilers[b]).lastClose + x.interval ≤ t.osc ∧
      (s.boilers[b]).gasPermit = false ∧ (s.boilers[b]).auxPermit = false)

/-- The laws of the flare, of the heat split and of the recovered fraction (R49, R54); of the setpoint line's queue, one
waiting frame per boiler (R58); and of the host link, a request held only while a reply is being sent (R165). -/
def Obligations.UnitLawsKept : Prop :=
  (∀ s t : State, s.FlareLegal → step s = .next t → t.FlareLegal) ∧
  ((∀ s t : State, s.SetpointsLegal → step s = .next t → t.SetpointsLegal) ∧
  ∀ s t : State, s.LinkLegal → step s = .next t → t.LinkLegal)

/-- The law of the accounts (R140): for each substation, the booked total is the issued total plus the net energy of its
current and closing sets, in 8-byte two's complement; in the working region and both copies. And the law of meter readings
(sections 1.1, 6.1, 7.1): every reading held lies from 0 to 99,999,999 kWh. -/
def Obligations.AccountsLawKept : Prop :=
  (∀ s t : State, s.AccountsLegal → step s = .next t → t.AccountsLegal) ∧
  ∀ s t : State, s.ReadingsLegal → step s = .next t → t.ReadingsLegal

/-- The law of point selection (R21). -/
def Obligations.PointsLawKept : Prop :=
  ∀ s t : State, s.PointsLegal → step s = .next t → t.PointsLegal

/-- The retained store gives back the CONFIG and ACCOUNTS contents the blocks work with (R176), and no event leaves a
write outstanding. That a power failure which cuts a write keeps this also where one copy is unsound is the model's
choice: a write fills an unsound copy first (log entry 35, DESIGN CHOICE). -/
def Obligations.StoreLawKept : Prop :=
  ∀ s t : State, s.StoreLegal → step s = .next t → t.StoreLegal

/-! ### The lines: frames and bytes -/

/-- Every well-formed request is read back from the payload that carries it (12.2, R166). -/
def Obligations.RequestsDecodeAsEncoded : Prop :=
  ∀ (i : Instr) (kind : Byte) (payload : List Byte),
    i.wellFormed → encodeRequest i = some (kind, payload) → decodeRequest kind payload = .ok i

/-- A valid frame that finds slot and transmitter free is its request carried out, after which the slot holds it and the
transmitter sends its reply: the answer, RESTARTED as before the frame, ALERT as after the request. First the assembler
is back in HUNT, a set LINK_ERROR marker clears and that cause ends, and RESTARTED clears (R164 to R169). -/
def Obligations.ValidFrameCarriesOutItsRequest : Prop :=
  ∀ (s : State) (i : Instr) (kind tag : Byte) (payload : List Byte),
    s.working → i.wellFormed → encodeRequest i = some (kind, payload) → s.hlu.slot = none → s.hlu.transmitter = none →
    let cleared : State := { s with hlu := { s.hlu with assembler := .hunt false, linkError := false, restarted := false } }
    let greeted := if s.hlu.linkError = true then cleared.endCause .linkError 1 else cleared
    ∃ u a, exec i greeted = .next u ∧ u.hlu.answer = some a ∧
      exec (.hostFrameValid kind tag payload) s = .next (u.setLink { u.hlu with
        slot := some { kind := kind, tag := tag }
        transmitter := some (replyFrame { kind := kind, tag := tag } a s.hlu.restarted u.alert) })

/-- The bytes of a frame, received one by one, are the valid frame (R163). -/
def Obligations.HostFrameIsItsBytes : Prop :=
  ∀ (s : State) (kind tag : Byte) (payload : List Byte) (seen : Bool),
    s.working → s.hlu.assembler = .hunt seen → payload.length ≤ 512 →
    execAll ((linkFrame kind tag payload).map fun b => .hostLinkByteReceived b true) s =
      exec (.hostFrameValid kind tag payload) s

/-- The bytes of a field sample frame, received one by one on a hunting line, are the frame, for every channel byte,
body and check byte (R1). -/
def Obligations.FieldFrameIsItsBytes : Prop :=
  ∀ (s : State) (l : FieldLineNo) (channel kind check : Byte) (body : List Byte) (k : ChannelKind),
    s.working → s.lines[l] = .hunting → readFrameKind kind = some k → body.length = k.bodyLength →
    execAll ((fieldFrameBytes channel kind body check).map fun b => .fieldLineByteReceived l b true) s =
      exec (.fieldSampleFrame l channel kind body check) s

/-- A valid frame that finds a reply under way is not acted on: a BUSY answer goes to an empty refusal store, and
behind a stored one the frame is discarded; a frame refused by the HLU is answered with its code (R165, R166):
UNKNOWN_KIND where 12.2 lists no such KIND, BAD_LENGTH where it does but not with a payload of that length, BAD_FIELD
where the byte of a command, service or action names none (R179 ii); every other frame is the encoding of a request,
which O14 carries out. Whatever becomes of it, the discarded frame too returns the assembler to HUNT, clears a set
LINK_ERROR marker and ends that cause (R164), and clears RESTARTED (R168); the reply of a refused frame carries
RESTARTED as before it. -/
def Obligations.ValidFrameNotActedOn : Prop :=
  ∀ (s : State) (kind tag : Byte) (payload : List Byte), s.working →
    let cleared : State := { s with hlu := { s.hlu with assembler := .hunt false, linkError := false, restarted := false } }
    let greeted := if s.hlu.linkError = true then cleared.endCause .linkError 1 else cleared
    (s.hlu.slot ≠ none ∨ s.hlu.transmitter ≠ none →
      (s.hlu.refusal = none → exec (.hostFrameValid kind tag payload) s =
        .next { greeted with hlu := { cleared.hlu with refusal := some { kind := kind, tag := tag } } }) ∧
      (s.hlu.refusal ≠ none → exec (.hostFrameValid kind tag payload) s = .next greeted)) ∧
    (s.hlu.slot = none → s.hlu.transmitter = none →
      let refusedAs (c : Status) : Prop :=
        exec (.hostFrameValid kind tag payload) s = .next { greeted with hlu := { cleared.hlu with
          answer := some c.answer
          slot := some { kind := kind, tag := tag }
          transmitter := some (replyFrame { kind := kind, tag := tag } c.answer s.hlu.restarted greeted.alert) } }
      let listed := ∃ x ∈ requestKinds, x.1 = kind.toNat
      (∀ c, decodeRequest kind payload = .error c → refusedAs c) ∧
      (¬ listed → refusedAs .unknownKind) ∧
      (listed → ¬ LengthAllowed kind payload → refusedAs .badLength) ∧
      (CodeNamesNothing kind payload → refusedAs .badField) ∧
      (LengthAllowed kind payload → ¬ CodeNamesNothing kind payload → payload.length ≤ 512 →
        ∃ i : Instr, i.wellFormed ∧ encodeRequest i = some (kind, payload)))

/-- What abandons a frame, and what noise does (R163, R164): the abandonment raises LINK_ERROR, sets its marker and leaves
slot, refusal store and transmitter alone; a frame whose CHECK does not match its CRC-16, or whose LENGTH exceeds 512, is
abandoned; a byte, gap or broken byte while hunting moves the marker only. The last byte of a reply frees the slot; the
transmitter goes on with a stored BUSY reply, whose flags are those of this event, or is IDLE (R165, R167 to R169). -/
def Obligations.LinkBytesAndReplies : Prop :=
  (∀ s : State, s.working →
    let abandoned : State :=
      ({ s with hlu := { s.hlu with assembler := .hunt false, linkError := true } }).raise .linkError 1
    exec .frameAbandoned s = .next abandoned ∧
    (s.hlu.assembler.begun = true →
      exec .hostGapExpiry s = .next abandoned ∧ ∀ b, exec (.hostLinkByteReceived b false) s = .next abandoned) ∧
    (s.hlu.assembler.begun = false →
      exec .hostGapExpiry s = .next (s.setAssembler (.hunt false)) ∧
      (∀ b, exec (.hostLinkByteReceived b false) s = .next (s.setAssembler (.hunt false))) ∧
      (∀ b, b ≠ 0x0A → exec (.hostLinkByteReceived b true) s = .next (s.setAssembler (.hunt (decide (b = 0xF5)))))) ∧
    (s.hlu.assembler = .hunt true → exec (.hostLinkByteReceived 0x0A true) s = .next (s.setAssembler (.header []))) ∧
    (s.hlu.assembler = .hunt false →
      exec (.hostLinkByteReceived 0x0A true) s = .next (s.setAssembler (.hunt false))) ∧
    (∀ kind tag payload low high, s.hlu.assembler = .check kind tag payload (some low) →
      (low.toNat + 256 * high.toNat ≠ (crc16 (frameCore kind tag payload)).toNat →
        exec (.hostLinkByteReceived high true) s = .next abandoned) ∧
      (low.toNat + 256 * high.toNat = (crc16 (frameCore kind tag payload)).toNat →
        exec (.hostLinkByteReceived high true) s = exec (.hostFrameValid kind tag payload) s)) ∧
    ∀ low high, s.hlu.assembler = .header [low] → 512 < low.toNat + 256 * high.toNat →
      exec (.hostLinkByteReceived high true) s = .next abandoned) ∧
  (∀ (s : State) (frame : List Byte), s.working → s.hlu.restartDue = false → s.hlu.transmitter = some frame →
    (s.hlu.refusal = none →
      exec .replySent s = .next (s.setLink { s.hlu with slot := none, transmitter := none })) ∧
    ∀ r, s.hlu.refusal = some r →
      exec .replySent s = .next (s.setLink { s.hlu with
        slot := none
        refusal := none
        transmitter := some (linkFrame (r.kind + 0x80) r.tag
          [0x04, (if s.hlu.restarted then 1 else 0) + (if s.alert then 2 else 0)]) }))

/-! ### Clock, power and the retained store -/

/-- A second of the calendar oscillator (R172): the reading counts in every state of the module, and the second after
4,291,747,199 is the wrap: reading 0 and INVALID; the running module closes its open interval, with close time
4,291,747,199 and TIME_STEP (R103, R115), first ending a meter wait that runs, as at the end of its 60 s (R116), and
reports TIME_STEP as LATCHED where the table has room; no interval is missing any more, the marker and the cause of
NOMINATION_MISSING end, and the orders and the effective limit stay as they were (R103). That the timers count the same
second, which is the last curtailed one of the record, and the marks for a minute and for a close, are the model's
reading (log entries 2, 24, 25). -/
def Obligations.ClockSecondAndWrap : Prop :=
  (∀ s : State,
    (s.clock.reading < 4291747199 →
      exec .calendarClockSecond s = .next { s with
        clock := { s.clock with reading := s.clock.reading + 1 }
        osc := if s.running then s.osc + 1 else s.osc
        bu := { s.bu with closedNow := false }
        hmu := if s.running = true ∧ (s.clock.reading + 1) % 60 = 0 then { s.hmu with minuteDue := true } else s.hmu } ∧
      exec .clockWrap s = .next s) ∧
    (4291747199 ≤ s.clock.reading → exec .calendarClockSecond s = exec .clockWrap s)) ∧
  (∀ s : State, 4291747199 ≤ s.clock.reading → ∃ t, exec .clockWrap s = .next t ∧
    t.clock = { s.clock with reading := 0, valid := false } ∧
    (s.running = false → t.que = s.que ∧ t.store = s.store ∧ t.conditions = s.conditions) ∧
    (s.running = true → t.que.interval = none ∧ t.que.orders = s.que.orders ∧ t.esu.effLimit = s.esu.effLimit ∧
      t.esu.missing = false ∧
      (s.ConditionsLegal → s.acts = [] →
        let missing : ConditionKey := { cls := .nominationMissing, source := 1 }
        t.entryOf missing =
          (if s.esu.missing then ({ s with clock := t.clock } : State).endCause .nominationMissing 1 else s).entryOf missing) ∧
      (s.ConditionsLegal → s.acts = [] →
        s.HasRoom [{ cls := .timeStep, source := 1 }, { cls := .settlementOverrun, source := 1 }] →
        ∃ e, t.entryOf { cls := .timeStep, source := 1 } = some e ∧ e.state = .latched ∧ e.notified = false) ∧
      ∀ iv, s.que.interval = some iv →
        t.que.current = none ∧ t.esu.curtailedSince = none ∧ t.que.nominations = s.que.nominations ∧
        ∃ r, ({ s with osc := s.osc + 1 } : State).IntervalClosed t iv 4291747199 true r ∧ r.minLimit = iv.minLimit))

/-- A power failure (R176, R177): no output is driven, no permit stays open, the battery domain stays, and whichever
region's write it cuts, the check finds in each region what it would have found before. While RESET is held the module
stands in its start state (R177), every block at the start values its chapter gives: permits closed, flare stages off,
ALERT low, FAULT high, and the bytes of both kinds of line are not taken. What a power failure cuts is an operand (log
entry 13). That the check finds the same also where one copy was unsound before the failure is the model's choice: a
write fills an unsound copy first (log entry 35, DESIGN CHOICE); that a pin or supply command which brings no edge
changes nothing is the model's reading (log entry 12); that the four field lines hunt, and a frame half received is
lost, is its choice (log entry 47). -/
def Obligations.PowerFailureAndReset : Prop :=
  (∀ (s : State) (w : Option Region), s.powered = true → ∃ t, exec (.powerFailure w) s = .next t ∧
    t.powered = false ∧ t.resetHeld = s.resetHeld ∧ t.clock = s.clock ∧
    t.store.config.found? = s.store.config.found? ∧ t.store.accounts.found? = s.store.accounts.found? ∧
    t.store.queues.found? = s.store.queues.found? ∧
    (∀ b : Boiler, (t.boilers[b]).gasPermit = false ∧ (t.boilers[b]).auxPermit = false ∧
      t.gasPermitLine b = none ∧ t.auxPermitLine b = none) ∧
    (∀ n, t.flareLine n = none) ∧ t.alertLine = none ∧ t.faultOutput = none) ∧
  (∀ s : State, s.running = true → ∃ t, exec .resetAsserted s = .next t ∧ s.StandsInReset t) ∧
  ∀ s : State,
    (s.resetHeld = true → exec .resetAsserted s = .next s) ∧
    (s.powered = false → exec .resetAsserted s = .next { s with resetHeld := true } ∧
      ∀ w, exec (.powerFailure w) s = .next s) ∧
    (∀ found, s.resetHeld = false → exec (.resetReleased found) s = .next s) ∧
    (∀ found, s.resetHeld = true → s.powered = false →
      exec (.resetReleased found) s = .next { s with resetHeld := false }) ∧
    ∀ found, s.powered = true → exec (.powerOn found) s = .next s

/-- The restart, at the return of power or the release of RESET (R177): every block at its start values (R8, R20, R36,
R61, R87, R133, R171), the clock as the battery domain is found (R172); each region SOUND where a copy's check word
matches, else RESTORED with its defaults in both copies (R176, R135, R153). The export schedule, by the clock's state:
the starts and ends of orders passed in the outage taken one by one in order of time, each by R96 to R99, the limit
published, the missing intervals reckoned (R105); the stored interval continued, or closed into a held gap record, with
the sum of the energies found for the intervals it covers, its curtailed seconds and its least limit (R116), or, under
an INVALID clock, closed with length 0 (R117), SETTLEMENT_OVERRUN reported where its record drops the oldest (R112);
billing reckons its closes, again under a staged table brought into force (log entry 23), and issues (R152), at the
times of O56. A SOUND region's contents are what the blocks work with (R105, R133, R152, R177): the configuration, but
for what a close brings into force; the meters, but for the loss of CONFIG (R135 ii), and the booked totals; the sets
as closes and issuing leave them; the bills; the settlement queue, the orders and the nominations on the grid that the
opening does not take out. The Condition Table is emptied, then the causes present raised again, each a new entry, the
only ones (R84, R133, R162, R172, R176). A return of power while RESET is held leaves the start state, and the restart
waits for the release (R177, log entry 12). The finding is an operand (log entry 14); what the stored region keeps
during the meter wait: log entry 19; the curtailed seconds of a record of length 0: log entry 21; which copy's
substation states: log entry 36; the offset under an INVALID clock: log entry 46; the close mark where the ACCOUNTS
copy found holds none: log entry 42; hunting field lines: log entry 47; the period number: log entry 49; the model's
choices. -/
def Obligations.RestartStartsEveryBlock : Prop :=
  (∀ (s : State) (found : StoreFinding), s.powered = false → s.resetHeld = true →
    ∃ t, exec (.powerOn found) s = .next t ∧ s.StandsInReset t) ∧
  ∀ (s : State) (found : StoreFinding) (c : Instr),
    (c = .powerOn found ∧ s.powered = false ∧ s.resetHeld = false ∨
      c = .resetReleased found ∧ s.powered = true ∧ s.resetHeld = true) →
    let store := found.unsound.foldl Store.damage s.store
    let config := store.config.contents .default
    let q := store.queues.contents .default
    ∃ t, exec c s = .next t ∧
      (t.powered = true ∧ t.resetHeld = false ∧ t.plantRelease = s.plantRelease ∧
        t.clock = (if found.batteryLost then { reading := 0, valid := false, offset := 0 } else s.clock) ∧ t.osc = 0 ∧
        t.BlocksAtStart) ∧
      (t.store.config.state = (if store.config.found?.isSome then .sound else .restored) ∧
        t.store.accounts.state = (if store.accounts.found?.isSome then .sound else .restored) ∧
        t.store.queues.state = (if store.queues.found?.isSome then .sound else .restored) ∧
        (store.config.found? = none → t.cfg = .default ∧ t.store.config.both (· = .default)) ∧
        (store.accounts.found? = none → t.store.accounts.both (· = t.acc) ∧ t.acc.period = 1 ∧
          t.acc.closeMark = (if t.clock.valid then some (t.clock.reading + 60 * t.clock.offset) else none) ∧
          ∀ k : Substation, t.acc.ledgers[k] =
              { current := .opened (some t.clock.reading) 1, closing := none, booked := 0, issued := 0 } ∧
            t.acc.meters[k] =
              { SubstationAccount.default with
                state := if (t.cfg.substations[k]).isSome then .fresh else .disconnected }) ∧
        (store.queues.found? = none → t.que.nominations = [] ∧ t.que.settlements = [] ∧ t.que.nextSettlement = 1 ∧
          t.que.orders = Vector.replicate 8 none)) ∧
      (t.esu.effLimit = t.limitNow ∧ t.esu.lastReading = none ∧ t.esu.missing = !t.missingStarts.isEmpty ∧
        (t.clock.valid = false → t.que.interval = none ∧ t.esu.wait = none ∧ t.que.orders = q.orders ∧
          t.que.nominations = q.nominations.filter (fun n =>
            decide (OnGrid t.cfg.intervalSeconds t.clock.offset n.start)) ∧
          (q.interval = none → t.que.settlements = q.settlements ∧ t.que.nextSettlement = q.nextSettlement) ∧
          ∀ iv, q.interval = some iv →
            let g : GapRecord :=
              { start := iv.start, length := 0, nominated := q.current, computed := iv.computed,
                curtailed := iv.curtailed, minLimit := iv.minLimit,
                flags := { timeStep := true, powerGap := true, steamOver := iv.flags.steamOver },
                reference := iv.reference, estimated := true }
            t.que.settlements = joinedBy q.settlements (g.completed q.nextSettlement none) ∧
              t.que.nextSettlement = q.nextSettlement + 1 ∧ t.que.current = none) ∧
        (t.clock.valid = true → t.que.settlements = q.settlements ∧ t.que.nextSettlement = q.nextSettlement ∧
          OrdersTaken q.orders t.clock.reading t.cfg.contract.limit t ∧
          ((∀ (n : CurtailmentSlot) (o : CurtailmentOrder), q.orders[n] = some o → ¬ o.timePassed t.clock.reading) →
            t.que.orders = q.orders)) ∧
        (t.clock.valid = true → 0 < t.cfg.contract.length → ∃ next w, t.que.interval = some next ∧
          t.esu.wait = some w ∧ w.due = 60 ∧ w.stored = q.interval ∧ w.storedCurrent = q.current ∧
          FirstBoundaryAfter t.cfg.intervalSeconds t.clock.offset next.start t.esu.intervalEnd ∧
          t.esu.curtailedSince = (if t.esu.effLimit < t.cfg.contract.limit then some 0 else none) ∧
          let least (kept : OpenInterval) (limit : Nat) : Prop :=
            limit ≤ min kept.minLimit t.esu.effLimit ∧
            ((∀ (n : CurtailmentSlot) (o : CurtailmentOrder), q.orders[n] = some o → ¬ o.timePassed t.clock.reading) →
              limit = min kept.minLimit t.esu.effLimit)
          let opened := OnGrid t.cfg.intervalSeconds t.clock.offset next.start ∧ next.start ≤ t.clock.reading ∧
            (t.clock.reading : Int) < t.esu.intervalEnd ∧ next.computed = 0 ∧ next.curtailed = 0 ∧
            next.minLimit = t.esu.effLimit ∧ next.flags = { timeStep := false, powerGap := true, steamOver := false } ∧
            next.reference = none ∧ next.estimated = true ∧ t.que.current = energyAt (q.swept ++ q.nominations) next.start ∧
            t.que.nominations = q.nominations.filter (fun n =>
              decide (OnGrid t.cfg.intervalSeconds t.clock.offset n.start ∧ next.start < n.start))
          (q.interval = none → opened ∧ w.gap = none) ∧
          ∀ iv last, q.interval = some iv →
            FirstBoundaryAfter t.cfg.intervalSeconds t.clock.offset iv.start last →
            ((t.clock.reading : Int) < last → w.gap = none ∧ t.esu.intervalEnd = last ∧ t.que.current = q.current ∧
              next.start = iv.start ∧ next.computed = iv.computed ∧ next.curtailed = iv.curtailed ∧
              next.reference = iv.reference ∧ next.estimated = iv.estimated ∧
              next.flags = { iv.flags with powerGap := true } ∧ least iv next.minLimit ∧
              t.que.nominations = q.nominations.filter (fun n =>
                decide (OnGrid t.cfg.intervalSeconds t.clock.offset n.start))) ∧
            (last ≤ t.clock.reading → opened ∧ ∃ g, w.gap = some g ∧ g.start = iv.start ∧
              g.length = (next.start - iv.start).toNat ∧ g.computed = iv.computed ∧
              g.flags = { iv.flags with powerGap := true } ∧ g.reference = iv.reference ∧ g.estimated = iv.estimated ∧
              g.curtailed = min iv.curtailed g.length ∧ least iv g.minLimit ∧
              let covered := (q.swept ++ q.nominations).filter fun n =>
                decide (OnGrid t.cfg.intervalSeconds t.clock.offset n.start ∧ iv.start < n.start ∧ n.start < next.start)
              g.nominated = (if q.current = none ∧ covered = [] then none
                else some (q.current.getD 0 + (covered.map (·.energy)).sum))))) ∧
      ((store.accounts.found? = none → t.cfg = config ∧ t.que.bills = q.bills ∧ t.que.nextBill = q.nextBill) ∧
        (∀ a, store.accounts.found? = some a →
          let taken : Vector Ledger 48 := a.ledgers.map fun l =>
            { l with current := { l.current with start := some (l.current.start.getD t.clock.reading) } }
          let before : State := { s with
            clock := t.clock
            cfg := config
            acc := { a with ledgers := taken }
            que := { s.que with bills := q.bills, nextBill := q.nextBill } }
          let kept := t.cfg = config ∧ t.acc.period = a.period ∧
            (∀ k : Substation, (t.acc.ledgers[k]).current = (taken[k]).current ∧
              (t.acc.ledgers[k]).booked = (a.ledgers[k]).booked) ∧
            BillsIssued q.bills q.nextBill a.ledgers t fun k => (a.ledgers[k]).closing
          t.acc.meters = (if store.config.found?.isSome then a.meters else a.meters.map fun m =>
            { m with state := .disconnected, gapTotal := 0, remainder := 0, reconciliation := false }) ∧
          (t.clock.valid = false → kept ∧ t.acc.closeMark = a.closeMark) ∧
          (t.clock.valid = true →
            let mark := a.closeMark.getD t.clock.localTime
            let due := dueCloses config.tariff mark t.clock.localTime
            (due = [] → kept ∧ t.acc.closeMark = some mark) ∧
            ∀ last, due.getLast? = some last →
              let later := dueCloses (config.pendingTariff.getD config.tariff) last t.clock.localTime
              t.acc.period = a.period + due.length + later.length ∧
                t.acc.closeMark = some (later.getLast?.getD last) ∧
                (later = [] → ClosedBooks before t due.length last) ∧
                ∀ second, later.getLast? = some second → ∃ u : State,
                  u.clock = t.clock ∧ u.acc.meters = a.meters ∧ ClosedBooks before u due.length last ∧
                    ClosedBooks u t later.length second)) ∧
        t.bu.queueFull = t.firstClosing.isSome ∧ (t.firstClosing.isSome → 96 ≤ t.que.bills.length)) ∧
      (∀ (i : Fin 128) (e : ConditionEntry), t.conditions[i] = some e → e.key ∈ restartKeys) ∧
      t.shown .plantReleaseLost 1 = (if s.plantRelease then none else some (.active, 1)) ∧
      t.shown .timeStep 1 = (if found.batteryLost then some (.latched, 1) else none) ∧
      t.shown .settlementOverrun 1 =
        (if t.clock.valid = false ∧ q.interval.isSome ∧ 192 ≤ q.settlements.length then some (.latched, 1) else none) ∧
      t.shown .retainedStoreLost 1 = (if store.config.found?.isSome then none else some (.latched, 1)) ∧
      t.shown .retainedStoreLost 2 = (if store.accounts.found?.isSome then none else some (.latched, 1)) ∧
      t.shown .retainedStoreLost 3 = (if store.queues.found?.isSome then none else some (.latched, 1)) ∧
      t.shown .nominationMissing 1 = (if t.esu.missing then some (.active, 1) else none) ∧
      t.shown .billQueueFull 1 = (if t.bu.queueFull then some (.active, 1) else none) ∧
      ∀ k : Substation,
        t.shown .meterJump (k.val + 1) = (if (t.acc.meters[k]).pendingMark.isSome then some (.active, 1) else none) ∧
        t.shown .substationEstimating (k.val + 1) =
          (if (t.acc.meters[k]).state = .estimating then some (.active, 1) else none)

/-- Set Time (R173, R174): a reading past 2135 is refused; the one in force changes nothing; the first makes the clock
VALID, opens an interval at the boundary at or before it with TIME_STEP, and sets the close mark (R103, R141). While
VALID, a step of 2 s or less leaves the interval open, but for a forward one that reaches its end, which takes the
boundary; a longer one closes it at the reading stepped from and opens one at the boundary at or before the new reading
(R103, R115). Either close first ends a meter wait that runs, as at the end of its 60 s (R116). A step of more than 2
s, and the first setting, report TIME_STEP, which stands LATCHED; a small step raises none of it. By every step the
passed starts and ends of curtailment orders are taken one by one in order of time (R103 i), each by R96 to R99, and
the missing intervals are reckoned (R103 v); by a step the closes up to the new reading are taken, as one, and those of
a staged table that it brings into force (R147, R146, log entry 23), each with its closing sets, the staged groups, the
bills it issues and what it leaves of BILL_QUEUE_FULL (R145, R148, R149), the close times by O56, the prices by O57.
When a missing interval is missing no longer: log entry 40. That the first setting keeps a later queue entry off the
grid is the model's choice (log entry 43). -/
def Obligations.SetTimeByCase : Prop :=
  (∀ (s : State) (v : Word), s.working →
    (4291747199 < v.toNat → exec (.setTime v) s = .next (s.refusedWith .badField)) ∧
    (v.toNat ≤ 4291747199 → s.clock.valid = true → v.toNat = s.clock.reading →
      exec (.setTime v) s = .next s.answeredOk) ∧
    (v.toNat ≤ 4291747199 → s.clock.valid = false → 0 < s.cfg.contract.length →
      ∃ t iv, exec (.setTime v) s = .next t ∧ t.clock = { s.clock with reading := v.toNat, valid := true } ∧
        t.hlu = s.answeredOk.hlu ∧ t.acc = { s.acc with closeMark := some (v.toNat + 60 * s.clock.offset) } ∧
        t.cfg = s.cfg ∧ t.que.bills = s.que.bills ∧ t.que.nextBill = s.que.nextBill ∧ t.bu.queueFull = s.bu.queueFull ∧
        t.que.interval = some iv ∧ OnGrid s.cfg.intervalSeconds s.clock.offset iv.start ∧ iv.start ≤ v.toNat ∧
        t.esu.intervalEnd = iv.start + s.cfg.intervalSeconds ∧ (v.toNat : Int) < t.esu.intervalEnd ∧
        s.Opens t iv iv.start { timeStep := true, powerGap := false, steamOver := false })) ∧
  (∀ (s : State) (v : Word) (iv : OpenInterval), s.working → s.clock.valid = true → v.toNat ≤ 4291747199 →
    0 < s.cfg.contract.length → s.que.interval = some iv → v.toNat ≠ s.clock.reading →
    let least (r : SettlementRecord) (t : State) : Prop :=
      r.minLimit ≤ min iv.minLimit t.esu.effLimit ∧
      ((∀ (n : CurtailmentSlot) (o : CurtailmentOrder), s.que.orders[n] = some o → ¬ o.timePassed v.toNat) →
        r.minLimit = min iv.minLimit t.esu.effLimit)
    ∃ t next, exec (.setTime v) s = .next t ∧ t.clock = { s.clock with reading := v.toNat } ∧
      t.hlu = s.answeredOk.hlu ∧ t.que.interval = some next ∧
      (v.toNat ≤ s.clock.reading + 2 → s.clock.reading ≤ v.toNat + 2 →
        v.toNat < s.clock.reading ∨ (v.toNat : Int) < s.esu.intervalEnd →
        next.start = iv.start ∧ next.computed = iv.computed ∧ next.flags = iv.flags ∧ next.reference = iv.reference ∧
        next.estimated = iv.estimated ∧ t.esu.intervalEnd = s.esu.intervalEnd ∧ t.esu.wait = s.esu.wait ∧
        t.que.settlements = s.que.settlements ∧ t.que.nominations = s.que.nominations ∧ t.que.current = s.que.current) ∧
      (v.toNat ≤ s.clock.reading + 2 → s.clock.reading < v.toNat → s.esu.intervalEnd ≤ v.toNat →
        s.Opens t next s.esu.intervalEnd { timeStep := false, powerGap := false, steamOver := false } ∧
        ∃ r, s.IntervalClosed t iv s.esu.intervalEnd false r ∧ least r t) ∧
      (s.clock.reading + 2 < v.toNat ∨ v.toNat + 2 < s.clock.reading →
        OnGrid s.cfg.intervalSeconds s.clock.offset next.start ∧ next.start ≤ v.toNat ∧
        (v.toNat : Int) < next.start + s.cfg.intervalSeconds ∧
        s.Opens t next next.start { timeStep := true, powerGap := false, steamOver := false } ∧
        ∃ r, s.IntervalClosed t iv s.clock.reading true r ∧ least r t)) ∧
  ∀ (s : State) (v : Word), s.working → v.toNat ≤ 4291747199 → s.clock.valid = false ∨ v.toNat ≠ s.clock.reading →
    let large := s.clock.valid = false ∨ s.clock.reading + 2 < v.toNat ∨ v.toNat + 2 < s.clock.reading
    let step : ConditionKey := { cls := .timeStep, source := 1 }
    let room := s.ConditionsLegal ∧ s.HasRoom [step, { cls := .settlementOverrun, source := 1 },
      { cls := .nominationMissing, source := 1 }, { cls := .billQueueFull, source := 1 }]
    ∃ t, exec (.setTime v) s = .next t ∧ t.clock = { s.clock with reading := v.toNat, valid := true } ∧
      t.esu.missing = !t.missingStarts.isEmpty ∧ OrdersTaken s.que.orders v.toNat s.cfg.contract.limit t ∧
      (large → room → s.ReportedAgain t step 1) ∧
      (¬ large → s.ConditionsLegal → t.entryOf step = s.entryOf step) ∧
      (s.clock.valid = true → ∀ mark, s.acc.closeMark = some mark → ClosesTaken s t mark room)

/-- Set Local Offset (R175, R104): out of -720 to +840 minutes it is refused; the offset in force, whatever the state
of the clock, changes nothing; while the clock is INVALID the offset alone changes; while it is VALID the nominations
off the new grid leave, the open interval keeps its start and ends at its next boundary, the missing intervals are
reckoned, and the closes up to the new local time are taken with their bills and BILL_QUEUE_FULL, as at a Set Time
(R141, R145, R146, R148, R149, log entry 23), the close times by O56. When a missing interval is missing no longer: log
entry 40; what follows the stored offset while the clock is INVALID: log entry 46. -/
def Obligations.SetLocalOffsetMovesTheGrid : Prop :=
  ∀ (s : State) (m : Half), s.working →
    (m.toInt < -720 ∨ 840 < m.toInt → exec (.setLocalOffset m) s = .next (s.refusedWith .badField)) ∧
    (-720 ≤ m.toInt → m.toInt ≤ 840 → m.toInt = s.clock.offset → exec (.setLocalOffset m) s = .next s.answeredOk) ∧
    (-720 ≤ m.toInt → m.toInt ≤ 840 → s.clock.valid = false →
      exec (.setLocalOffset m) s =
        .next { s with clock := { s.clock with offset := m.toInt }, hlu := s.answeredOk.hlu }) ∧
    (-720 ≤ m.toInt → m.toInt ≤ 840 → s.clock.valid = true → m.toInt ≠ s.clock.offset → 0 < s.cfg.contract.length →
      ∃ t, exec (.setLocalOffset m) s = .next t ∧ t.clock = { s.clock with offset := m.toInt } ∧
        t.hlu = s.answeredOk.hlu ∧
        (∀ n, n ∈ t.que.nominations ↔
          n ∈ s.que.nominations ∧ OnGrid s.cfg.intervalSeconds m.toInt n.start) ∧
        t.que.current = s.que.current ∧ t.que.orders = s.que.orders ∧ t.que.settlements = s.que.settlements ∧
        t.que.interval.map (·.start) = s.que.interval.map (·.start) ∧
        (s.que.interval.isSome →
          FirstBoundaryAfter s.cfg.intervalSeconds m.toInt s.clock.reading t.esu.intervalEnd) ∧
        t.esu.missing = !t.missingStarts.isEmpty ∧
        ∀ mark, s.acc.closeMark = some mark →
          ClosesTaken s t mark (s.ConditionsLegal ∧
            s.HasRoom [{ cls := .nominationMissing, source := 1 }, { cls := .billQueueFull, source := 1 }]))

/-- Factory Clear (R178): LOCKED while a permit is open; else both copies of the three regions take their defaults, and
the restart that follows its reply finds them SOUND, the clock kept. That REPLY_SENT restarts the module also where the
request came as a request row, so that no reply is being sent, is the model's choice (log entry 33); that the restart
finds nothing lost is the model's reading (log entry 14). -/
def Obligations.FactoryClearThenRestart : Prop :=
  ∀ s : State, s.working →
    ((∃ b : Boiler, (s.boilers[b]).gasPermit = true ∨ (s.boilers[b]).auxPermit = true) →
      exec .factoryClear s = .next (s.refusedWith .locked)) ∧
    ((∀ b : Boiler, (s.boilers[b]).gasPermit = false ∧ (s.boilers[b]).auxPermit = false) →
      ∃ u t, exec .factoryClear s = .next u ∧ u.hlu.answer = some Status.ok.answer ∧ u.clock = s.clock ∧
        u.store.config.both (· = .default) ∧ u.store.accounts.both (· = .default) ∧
        u.store.queues.both (· = .default) ∧
        exec .replySent u = .next t ∧ t.clock = s.clock ∧ t.cfg = .default ∧ t.hlu = .start ∧
        t.store.config.state = .sound ∧ t.store.accounts.state = .sound ∧ t.store.queues.state = .sound ∧
        t.que.nextSettlement = 1 ∧ t.que.nextBill = 1 ∧
        ∀ k : Substation, (t.acc.ledgers[k]).booked = 0 ∧ (t.acc.ledgers[k]).issued = 0 ∧
          (t.acc.meters[k]).state = .disconnected)

/-- The requests that read: each answers OK and changes nothing but the answer; a number out of range is refused. What
the reply carries, item by item: Identify (R170), Read Time with the calendar's date (R173), Read Channel (R7), Read
Point (R19), Read Dispatch (R60), Read Boiler (R86), Read Nominations with the next gate and the missing intervals
(R94), Read Curtailments (R102), Read Substation (R132), Read Conditions (R161), and the records of Fetch Settlement
Record and Fetch Bill (R113, R150), in the order of the rules and the widths and codes of R179. A value that its field
cannot hold leaves the bytes open (log entry 4). The model's own readings: the codes of named values (log entry 31),
presence bytes, an UNCONFIGURED slot and the next gate (log entry 32), the place of the next read (log entry 37), the
boiler byte without a request (log entry 38), a missing interval whose gate lies ahead again (log entry 40), the permit
levels (log entry 41), and the local time of an INVALID clock whose offset has changed (log entry 46). -/
def Obligations.ReadsChangeNothing : Prop :=
  (∀ (s : State) (i : Instr), s.working → s.canRead i = true →
    ∃ contents, exec i s = .next (s.answered { status := .ok, contents := contents })) ∧
  (∀ s : State, s.working →
    s.Gives .identify s.identifyItems ∧
    (∀ d : Date, s.clock.reading ≤ 4291747199 → -720 ≤ s.clock.offset → s.clock.offset ≤ 840 → s.LocalDate d →
      s.Gives .readTime (s.timeItems d)) ∧
    s.Gives .readDispatch s.dispatchItems ∧ s.Gives .readCurtailments s.curtailmentItems ∧
    (s.que.interval = none → s.Gives .readNominations (s.nominationItems none [])) ∧
    (∀ iv, s.que.interval = some iv → 0 < s.cfg.contract.length →
      OnGrid s.cfg.intervalSeconds s.clock.offset s.esu.intervalEnd → iv.start < s.esu.intervalEnd →
      ∀ missing : List Int, missing.Pairwise (· < ·) → (∀ t, t ∈ missing ↔ s.Missing iv t) →
        (s.clock.valid = false → s.Gives .readNominations (s.nominationItems none missing)) ∧
        ∀ t, s.clock.valid = true → s.NextGate t → s.Gives .readNominations (s.nominationItems (some t) missing)) ∧
    (∀ r rest, s.que.settlements = r :: rest → s.Gives .fetchSettlementRecord r.items) ∧
    ∀ b rest, s.que.bills = b :: rest → s.Gives .fetchBill b.items) ∧
  ∀ (s : State) (v : Byte), s.working →
    (∀ ch : ChannelNo, v.toNat = ch.val + 1 → s.Gives (.readChannel v) (s.channelItems ch)) ∧
    (∀ p : PointNo, v.toNat = p.val + 1 → s.Gives (.readPoint v) (s.pointItems p)) ∧
    (∀ b : Boiler, v.toNat = b.val + 1 → s.Gives (.readBoiler v) (s.boilerItems b)) ∧
    (∀ k : Substation, v.toNat = k.val + 1 → ReadingFits ((s.acc.meters[k]).reference.map (·.reading)) →
      s.Gives (.readSubstation v) (s.substationItems k)) ∧
    (∀ i : Fin 128, v.toNat = i.val + 1 → s.Gives (.readConditions v) (s.conditionItems i)) ∧
    (v = 0 ∨ 96 < v.toNat → exec (.readChannel v) s = .next (s.refusedWith .badField)) ∧
    (v = 0 ∨ 128 < v.toNat → exec (.readPoint v) s = .next (s.refusedWith .badField) ∧
      exec (.readConditions v) s = .next (s.refusedWith .badField)) ∧
    (v = 0 ∨ 8 < v.toNat → exec (.readBoiler v) s = .next (s.refusedWith .badField)) ∧
    (v = 0 ∨ 48 < v.toNat → exec (.readSubstation v) s = .next (s.refusedWith .badField))

/-! ### Field lines, channels and points -/

/-- Bytes and gaps on a field line (R1): the marker opens a frame, its channel byte is kept, a kind byte that names no
kind discards the frame as soon as it is received, and each byte of a body is kept until the kind's length is reached,
after which the next byte is the check byte and the frame is whole. The frames discarded without trace (R1, R2): a wrong
check byte, length, kind code or channel number, or a kind that the channel is not configured for. -/
def Obligations.FieldLineHuntsAndDiscards : Prop :=
  ∀ (s : State) (l : FieldLineNo), s.working →
    exec (.fieldFrameGapExpiry l) s = .next (s.setLine l .hunting) ∧
    (∀ b, exec (.fieldLineByteReceived l b false) s = .next (s.setLine l .hunting)) ∧
    (s.lines[l] = .hunting → exec (.fieldLineByteReceived l 0xA6 true) s = .next (s.setLine l .awaitChannel) ∧
      ∀ b, b ≠ 0xA6 → exec (.fieldLineByteReceived l b true) s = .next s) ∧
    (s.lines[l] = .awaitChannel → ∀ b, exec (.fieldLineByteReceived l b true) s = .next (s.setLine l (.awaitKind b))) ∧
    (∀ channel, s.lines[l] = .awaitKind channel → ∀ b : Byte,
      (b = 0 ∨ 3 < b.toNat → exec (.fieldLineByteReceived l b true) s = .next (s.setLine l .hunting)) ∧
      (1 ≤ b.toNat → b.toNat ≤ 3 →
        exec (.fieldLineByteReceived l b true) s = .next (s.setLine l (.body channel b [])))) ∧
    (∀ (channel kind : Byte) (length : Nat) (taken : List Byte), s.lines[l] = .body channel kind taken →
      kind = 1 ∧ length = 5 ∨ kind = 2 ∧ length = 2 ∨ kind = 3 ∧ length = 9 → ∀ b : Byte,
      (taken.length < length →
        exec (.fieldLineByteReceived l b true) s = .next (s.setLine l (.body channel kind (taken ++ [b])))) ∧
      (taken.length = length →
        exec (.fieldLineByteReceived l b true) s = exec (.fieldSampleFrame l channel kind taken b) s)) ∧
    ∀ (channel kind check : Byte) (body : List Byte),
      (readFrameKind kind = none ∨ channel = 0 ∨ 96 < channel.toNat ∨ check ≠ crc8 (channel :: kind :: body) ∨
        ∃ (k : ChannelKind) (c : ChannelNo), readFrameKind kind = some k ∧ channel.toNat = c.val + 1 ∧
          (body.length ≠ k.bodyLength ∨ (s.cfg.channels[c]).kind ≠ k)) →
      exec (.fieldSampleFrame l channel kind body check) s = .next (s.setLine l .hunting)

/-- Sample arrivals (R4, R5): a GOOD one outside LIVE counts toward the run of three, at which the channel becomes LIVE
and CHANNEL_LOST ends; a SUSPECT one empties the run, and a channel in any other state becomes SUSPECT. By either change
of state every point that names the channel re-selects (R12): a point not yet served at the rank of its highest-ranked
LIVE channel serves from it, with POINT_FAILED ended, and, where it was FAILED or AWAITING, its consumer has the
restored event, then the arrival (R13, R15, R18); a SERVING point without a LIVE channel holds, or fails with
POINT_FAILED and the failed event (R14). With one named point the next state is stated whole, with several each point's
own (log entry 34). A GOOD sample at a LIVE channel from which its one point does not serve is only stored. What the
selected source is, and which points name a channel (R12); the sample that a body carries, field by field (12.3), and
its quality: GOOD by the code 00h alone, and in a METER body only with the reading and the rate within their limits
(R2); what the notices do at their consumers: O28 and O29. -/
def Obligations.SamplesMoveTheirChannel : Prop :=
  (∀ (s : State) (l : FieldLineNo) (c : ChannelNo) (k : ChannelKind) (body : List Byte), s.working →
    (s.cfg.channels[c]).kind = k → body.length = k.bodyLength →
    ((readBody k body).quality = .good → (s.channels[c]).state ≠ .live → (s.channels[c]).goodRun < 2 →
      exec (sampleFrame l c k body) s = .next ((s.setLine l .hunting).setChannel c
        (s.sampled (readBody k body) (s.channels[c]).state ((s.channels[c]).goodRun + 1)))) ∧
    ((readBody k body).quality = .good → (s.channels[c]).state ≠ .live → 2 ≤ (s.channels[c]).goodRun →
      ∃ t, exec (sampleFrame l c k body) s = .next t ∧
        t.channels = s.channels.set c (s.sampled (readBody k body) .live 0) ∧ t.lines = s.lines.set l .hunting ∧
        let u := (s.setLine l .hunting).setChannel c (s.sampled (readBody k body) .live 0)
        (s.namedBy c = [] → t = u.endCause .channelLost (c.val + 1)) ∧
        (∀ p pc, s.namedBy c = [p] → s.cfg.points[p] = some pc →
          ∃ v, Reselected (u.tellEnd .channelLost (c.val + 1)) v p pc ∧ t = v.endEvent) ∧
        PointsReselected u t c) ∧
    ((readBody k body).quality = .suspect →
      ∃ t, exec (sampleFrame l c k body) s = .next t ∧
        t.channels = s.channels.set c (s.sampled (readBody k body) .suspect 0) ∧ t.lines = s.lines.set l .hunting ∧
        let u := (s.setLine l .hunting).setChannel c (s.sampled (readBody k body) .suspect 0)
        (s.namedBy c = [] ∨ (s.channels[c]).state = .suspect → t = u) ∧
        ((s.channels[c]).state ≠ .suspect →
          (∀ p pc, s.namedBy c = [p] → s.cfg.points[p] = some pc → ∃ v, Reselected u v p pc ∧ t = v.endEvent) ∧
          PointsReselected u t c)) ∧
    ((readBody k body).quality = .good → (s.channels[c]).state = .live → (s.namedBy c).length ≤ 1 →
      (∀ p ∈ s.namedBy c, ∀ pc, s.cfg.points[p] = some pc → ∀ r, s.selection pc = some (r, c) →
        (s.points[p]).state ≠ .serving ∨ (s.points[p]).rank ≠ some r) →
      exec (sampleFrame l c k body) s = .next ((s.setLine l .hunting).setChannel c
        (s.sampled (readBody k body) .live (s.channels[c]).goodRun)))) ∧
  ((∀ b0 b1 b2 b3 code : Byte,
      let value : Nat := bytesValue [b0, b1, b2, b3]
      readBody .measure [b0, b1, b2, b3, code] =
        { body := .measure (if value < 2 ^ 31 then value else value - 2 ^ 32)
          quality := if code = 0 then .good else .suspect }) ∧
    (∀ set code : Byte, readBody .status [set, code] =
      { body := .status
          { flame := set.getLsbD 0, gasClosed := set.getLsbD 1, auxClosed := set.getLsbD 2, tripDemand := set.getLsbD 3,
            localControl := set.getLsbD 4, available := set.getLsbD 5 }
        quality := if code = 0 then .good else .suspect }) ∧
    ∀ b0 b1 b2 b3 b4 b5 b6 b7 code : Byte,
      let reading := bytesValue [b0, b1, b2, b3]
      let rate := bytesValue [b4, b5, b6, b7]
      readBody .meter [b0, b1, b2, b3, b4, b5, b6, b7, code] =
        { body := .meter reading rate
          quality := if code = 0 ∧ reading ≤ 99999999 ∧ rate ≤ 2000000 then .good else .suspect }) ∧
  (∀ (s : State) (c : ChannelNo) (p : PointNo), p ∈ s.namedBy c ↔
    ∃ pc, s.cfg.points[p] = some pc ∧ (pc.primary = c ∨ pc.alternateA = some c ∨ pc.alternateB = some c)) ∧
  ∀ (s : State) (pc : PointConfig),
    let live (ch : ChannelNo) : Prop := (s.channels[ch]).state = .live
    let dead (ch : Option ChannelNo) : Prop := ∀ x, ch = some x → ¬ live x
    (live pc.primary → s.selection pc = some (.primary, pc.primary)) ∧
    (¬ live pc.primary →
      (∀ x, pc.alternateA = some x → live x → s.selection pc = some (.alternateA, x)) ∧
      (dead pc.alternateA → ∀ x, pc.alternateB = some x → live x → s.selection pc = some (.alternateB, x)) ∧
      (dead pc.alternateA → dead pc.alternateB → s.selection pc = none))

/-- A SERVING point takes the GOOD sample of its LIVE selected channel (R13) and hands it to its consumer (R18): a
MEASURE value is scaled, rounded toward zero and limited; STATUS and METER values pass unchanged. What the arrival does
there: at the holder, both detectors are tested (R30); at a boiler, TRIP_DEMAND trips an active boiler before all else,
flame ends a light-off or completes a changeover, its loss trips a firing boiler, the closed valve confirms, and a
TRIPPED or LOCKED_OUT boiler evaluates its standing causes (R70, R72, R74, R76, R80 to R82); a boiler that trips out of
LIGHTING, FIRING or phase TAKEOVER is sent NONE and 0, one that trips out of PURGE or phase DEAD no frame (R57, R78 ii);
at the export meter, the last reading and an absent reference are taken, and a meter wait ends, its gap record completed
by the reading and queued (R107, R110, R112, R116). The body's sample: O27. Substations: PlausibleReadingsAreBooked. -/
def Obligations.ServingPointTakesTheSample : Prop :=
  (∀ (s : State) (l : FieldLineNo) (c : ChannelNo) (k : ChannelKind) (body : List Byte) (p : PointNo)
    (pc : PointConfig) (rank : Rank), s.working →
    (s.cfg.channels[c]).kind = k → body.length = k.bodyLength → (readBody k body).quality = .good →
    (s.channels[c]).state = .live → s.namedBy c = [p] → s.cfg.points[p] = some pc → s.selection pc = some (rank, c) →
    (s.points[p]).state = .serving → (s.points[p]).rank = some rank →
    ∃ value clamped,
      (∀ raw, (readBody k body).body = .measure raw →
        let scaled := (raw * pc.multiplier).tdiv pc.divisor
        let limited := if scaled < pc.low then pc.low else if pc.high < scaled then pc.high else scaled
        value = .measure limited ∧ clamped = decide (limited ≠ scaled)) ∧
      (k ≠ .measure → value = (readBody k body).body ∧ clamped = false) ∧
      exec (sampleFrame l c k body) s = .next
        ((((s.setLine l .hunting).setChannel c (s.sampled (readBody k body) .live (s.channels[c]).goodRun)).setPoint p
          { state := .serving, rank := some rank, value := some value, clamped := clamped,
            valueTime := some s.clock.reading, holdDue := none, waitDue := none }).arrival pc.role value
          s.clock.reading).endEvent) ∧
  (∀ (s : State) (v : Int) (time : Nat),
    (s.cfg.holder = none → s.arrival .holderLevel (.measure v) time = s) ∧
    ∀ h, s.cfg.holder = some h →
      let t := s.arrival .holderLevel (.measure v) time
      let level := min v.toNat h.capacity
      let limits := h.inForce s.cfg.thresholds
      let tested (x y : DetectorCell) (entering leaving : Bool) : Prop :=
        (x.state = .clear → y = if entering then { state := .arming, due := some (s.osc + h.filter) } else x) ∧
        (x.state = .arming → y = if entering then x else { state := .clear, due := none }) ∧
        (x.state = .active → y = if leaving then { state := .disarming, due := some (s.osc + h.filter) } else x) ∧
        (x.state = .disarming → y = if leaving then x else { state := .active, due := none })
      t = { s with gas := t.gas } ∧ t.gas.unmeasured = s.gas.unmeasured ∧
        tested s.gas.highHigh t.gas.highHigh (decide (limits.high ≤ level)) (decide (level + h.hysteresis < limits.high)) ∧
        tested s.gas.lowLow t.gas.lowLow (decide (level ≤ limits.low)) (decide (limits.low + h.hysteresis < level))) ∧
  (∀ (s : State) (b : Boiler) (c : BoilerConfig) (i : Indications) (time : Nat), s.cfg.boilers[b] = some c →
    let q := s.boilers[b]
    let t := s.arrival (.boilerStatus b) (.status i) time
    let fires (f : Fuel) : Prop :=
      t = ((s.setBoiler b { q with
        state := f.firing, run := some f, phase := none, target := none, awaiting := false, purgeDue := none,
        lightOffDue := none, confirmDue := none, deadDue := none }).setAllocation b
          { gas := if f = .gas then c.minimum else 0, aux := if f = .aux then c.minimum else 0, idle := 0 }).queueFrame b
            (some f) c.minimum
    (q.state = .off → t = s) ∧
    (q.state.isActive = true → i.tripDemand = true → TripsAt s t b .tripDemand c) ∧
    (i.tripDemand = false →
      (q.state = .purge → t = s) ∧
      (∀ f, q.state = .lighting → q.run = some f → (i.flame = true → fires f) ∧ (i.flame = false → t = s)) ∧
      (q.state = .firingGas ∨ q.state = .firingAux →
        (i.flame = true → t = s) ∧ (i.flame = false → TripsAt s t b .flameLost c)) ∧
      (∀ f, q.state = .changeover → q.target = some f →
        (q.phase = some .takeover → (i.flame = true → fires f) ∧ (i.flame = false → t = s)) ∧
        (q.phase = some .dead →
          let closed := if f = .gas then i.auxClosed else i.gasClosed
          (q.awaiting = true → closed = true → t = s.setBoiler b { q with
            confirmDue := none, awaiting := false, deadDue := some (s.osc + c.interval) }) ∧
          (q.awaiting = false ∨ closed = false → t = s)))) ∧
    (q.state = .tripped ∨ q.state = .lockedOut → CausesEvaluated s t b c) ∧
    (s.standingCause b = true ↔ s.plantRelease = false ∨ s.indicated (.boilerStatus b) = none ∨
      ∃ j, s.indicated (.boilerStatus b) = some j ∧ j.tripDemand = true)) ∧
  ∀ (s : State) (reading rate time : Nat),
    let t := s.arrival .exportMeter (.meter reading rate) time
    let read := { s.esu with lastReading := some reading }
    (s.esu.wait = none →
      (s.que.interval = none → t = { s with esu := read }) ∧
      ∀ iv, s.que.interval = some iv → t = { s with
        esu := read
        que := { s.que with interval := some { iv with reference := some (iv.reference.getD reading) } } }) ∧
    ∀ w iv, s.esu.wait = some w → s.que.interval = some iv →
      t.esu = { read with wait := none } ∧
      (w.gap = none → t.que.settlements = s.que.settlements ∧
        t.que.interval = some { iv with reference := some (iv.reference.getD reading) }) ∧
      ∀ g, w.gap = some g → t.que.interval = some { iv with reference := some reading, estimated := false } ∧
        t.que.nextSettlement = s.que.nextSettlement + 1 ∧
        t.acts = s.acts ++ (if s.que.settlements.length < 192 then [] else
          [.report { cls := .settlementOverrun, source := 1 }]) ∧
        (g.estimated = true ∨ g.reference = none →
          t.que.settlements = joinedBy s.que.settlements (g.completed s.que.nextSettlement none)) ∧
        ∀ ref, g.estimated = false → g.reference = some ref → reading < 100000000 → ref < 100000000 →
          t.que.settlements = joinedBy s.que.settlements
            (g.completed s.que.nextSettlement (some (((reading : Int) - ref) % 100000000).toNat))

/-- The timers of channels and points (R6, R14 i, R16): where one has run out, a LIVE or SUSPECT channel is LOST, a
HOLDING point FAILED, an AWAITING point reported; each raises its condition. Every point that names the LOST channel
re-selects (R12): it serves from another LIVE channel, if it has one, or it holds or fails (R14), the next state stated
whole with one such point and each point's own with several (log entry 34). What a failed event does at the point's
consumer, and a restored one (R18): a source in service becomes unmeasured, or measured again once both points are
usable (R25); the detectors freeze (R32); an active boiler trips with STATUS_LOST, a tripped one evaluates its causes
(R77, R80), and is sent NONE and 0 where it was LIGHTING, FIRING or in phase TAKEOVER (R57); the export meter's reading
and reference are lost (R107); an IN_SERVICE substation enters ESTIMATING (R128). -/
def Obligations.SilenceHoldAndWaitingRunOut : Prop :=
  (∀ s : State, s.working →
    (∀ (c : ChannelNo) (t0 : Nat), (s.channels[c]).silenceFrom = some t0 → t0 + (s.cfg.channels[c]).silence ≤ s.osc →
      ((s.channels[c]).state = .live ∨ (s.channels[c]).state = .suspect →
        let lost : Channel := { s.channels[c] with state := .lost, goodRun := 0, silenceFrom := none }
        ∃ t, exec (.silenceExpiry c) s = .next t ∧ t.channels = s.channels.set c lost ∧
          (s.namedBy c = [] → t = (s.setChannel c lost).raise .channelLost (c.val + 1)) ∧
          (∀ p pc, s.namedBy c = [p] → s.cfg.points[p] = some pc →
            ∃ v, Reselected ((s.setChannel c lost).tellRaise .channelLost (c.val + 1)) v p pc ∧ t = v.endEvent) ∧
          PointsReselected (s.setChannel c lost) t c) ∧
      ((s.channels[c]).state = .absent ∨ (s.channels[c]).state = .lost →
        exec (.silenceExpiry c) s = .next (s.setChannel c { s.channels[c] with goodRun := 0, silenceFrom := none }))) ∧
    (∀ (p : PointNo) (pc : PointConfig) (due : Nat), s.cfg.points[p] = some pc → (s.points[p]).state = .holding →
      (s.points[p]).holdDue = some due → due ≤ s.osc →
      exec (.holdExpiry p) s = .next (s.pointFails p pc).endEvent) ∧
    ∀ (p : PointNo) (due : Nat), (s.points[p]).state = .awaiting → (s.points[p]).waitDue = some due → due ≤ s.osc →
      exec (.waitingTimerExpiry p) s = .next ((s.setPoint p { s.points[p] with waitDue := none }).raise
        .pointFailed (p.val + 1))) ∧
  (∀ (s : State) (n : GasSource) (r : Role), r = .sourceFlow n ∨ r = .sourceCv n →
    (s.cfg.sources[n] = .inService → s.gas.unmeasured[n] = false →
      s.failedEvent r = (s.setUnmeasured n true).tellRaise .sourceUnmeasured (n.val + 1)) ∧
    (s.cfg.sources[n] ≠ .inService ∨ s.gas.unmeasured[n] = true → s.failedEvent r = s) ∧
    (s.usable (.sourceFlow n) = true → s.usable (.sourceCv n) = true → s.gas.unmeasured[n] = true →
      s.restoredEvent r = (s.setUnmeasured n false).tellEnd .sourceUnmeasured (n.val + 1)) ∧
    (s.usable (.sourceFlow n) = false ∨ s.usable (.sourceCv n) = false ∨ s.gas.unmeasured[n] = false →
      s.restoredEvent r = s)) ∧
  (∀ s : State,
    let t := s.failedEvent .holderLevel
    let frozen (x y : DetectorCell) : Prop :=
      (x.state = .clear ∨ x.state = .arming → y = { state := .clear, due := none }) ∧
      (x.state = .active ∨ x.state = .disarming → y = { state := .active, due := none })
    t = { s with gas := t.gas } ∧ t.gas.unmeasured = s.gas.unmeasured ∧ frozen s.gas.highHigh t.gas.highHigh ∧
      frozen s.gas.lowLow t.gas.lowLow) ∧
  (∀ (s : State) (b : Boiler) (c : BoilerConfig), s.cfg.boilers[b] = some c →
    ((s.boilers[b]).state.isActive = true → TripsAt s (s.failedEvent (.boilerStatus b)) b .statusLost c ∧
      s.restoredEvent (.boilerStatus b) = s) ∧
    ((s.boilers[b]).state = .tripped ∨ (s.boilers[b]).state = .lockedOut →
      CausesEvaluated s (s.failedEvent (.boilerStatus b)) b c ∧
      CausesEvaluated s (s.restoredEvent (.boilerStatus b)) b c) ∧
    ((s.boilers[b]).state = .off → s.failedEvent (.boilerStatus b) = s ∧ s.restoredEvent (.boilerStatus b) = s)) ∧
  (∀ s : State,
    let lost := { s.esu with lastReading := none }
    (s.que.interval = none → s.failedEvent .exportMeter = { s with esu := lost }) ∧
    ∀ iv, s.que.interval = some iv → s.failedEvent .exportMeter = { s with
      esu := lost
      que := { s.que with interval := some { iv with reference := none, estimated := true } } }) ∧
  ∀ (s : State) (k : Substation),
    let m := s.acc.meters[k]
    ((s.acc.meters[k]).state = .inService → s.failedEvent (.heatMeter k) =
      (({ s with
          hmu := { s.hmu with lastRates := s.hmu.lastRates.set k 0 }
          acc := { s.acc with meters := s.acc.meters.set k { m with state := .estimating, remainder := 0 } } } :
        State).markAccounts).tellRaise .substationEstimating (k.val + 1)) ∧
    ((s.acc.meters[k]).state ≠ .inService → s.failedEvent (.heatMeter k) = s) ∧ s.restoredEvent (.heatMeter k) = s ∧
      s.restoredEvent .exportMeter = s ∧ s.restoredEvent .holderLevel = s

/-- Configure Channel (R3): out of range BAD_FIELD; the same figures, no change; a new kind resets the channel, or is
BUSY while a point names it; a new silence limit that has not yet passed is only stored; one whose moment has passed is
the silence expiry of R6 at the request, with CHANNEL_LOST and the points that name the channel as in O29. That a limit
whose second is the present one has not yet passed, and that it counts from the oscillator second of the sample, is the
model's reading (log entry 29). -/
def Obligations.ConfigureChannelByCase : Prop :=
  ∀ (s : State) (n kind : Byte) (silence : Half), s.working →
    (n = 0 ∨ 96 < n.toNat ∨ 2 < kind.toNat ∨ silence = 0 ∨ 600 < silence.toNat →
      exec (.configureChannel n kind silence) s = .next (s.refusedWith .badField)) ∧
    ∀ (c : ChannelNo) (k : ChannelKind), n.toNat = c.val + 1 →
      kind = 0 ∧ k = .measure ∨ kind = 1 ∧ k = .status ∨ kind = 2 ∧ k = .meter →
      1 ≤ silence.toNat → silence.toNat ≤ 600 →
      let config : ChannelConfig := { kind := k, silence := silence.toNat }
      let stored := s.withConfig { s.cfg with channels := s.cfg.channels.set c config }
      (s.cfg.channels[c] = config → exec (.configureChannel n kind silence) s = .next s.answeredOk) ∧
      (k ≠ (s.cfg.channels[c]).kind → s.namedBy c ≠ [] →
        exec (.configureChannel n kind silence) s = .next (s.refusedWith .busy)) ∧
      (k ≠ (s.cfg.channels[c]).kind → s.namedBy c = [] →
        exec (.configureChannel n kind silence) s =
          .next ((stored.setChannel c .start).endCause .channelLost (c.val + 1)).answeredOk) ∧
      (k = (s.cfg.channels[c]).kind → silence.toNat ≠ (s.cfg.channels[c]).silence →
        (∀ t0, (s.channels[c]).silenceFrom = some t0 → s.osc ≤ t0 + silence.toNat) →
        exec (.configureChannel n kind silence) s = .next stored.answeredOk) ∧
      ∀ t0, k = (s.cfg.channels[c]).kind → (s.channels[c]).silenceFrom = some t0 → t0 + silence.toNat < s.osc →
        config ≠ s.cfg.channels[c] →
        ((s.channels[c]).state = .absent ∨ (s.channels[c]).state = .lost →
          exec (.configureChannel n kind silence) s =
            .next (stored.setChannel c { s.channels[c] with goodRun := 0, silenceFrom := none }).answeredOk) ∧
        ((s.channels[c]).state = .live ∨ (s.channels[c]).state = .suspect →
          let lost : Channel := { s.channels[c] with state := .lost, goodRun := 0, silenceFrom := none }
          let u : State := (({ s with cfg := stored.cfg } : State).markConfig.setChannel c lost)
          ∃ t, exec (.configureChannel n kind silence) s = .next t ∧ t.hlu = s.answeredOk.hlu ∧ t.cfg = stored.cfg ∧
            t.channels = s.channels.set c lost ∧
            (s.namedBy c = [] → t = ((stored.setChannel c lost).raise .channelLost (c.val + 1)).answeredOk) ∧
            (∀ p pc, s.namedBy c = [p] → s.cfg.points[p] = some pc →
              ∃ v, Reselected (u.tellRaise .channelLost (c.val + 1)) v p pc ∧ t = v.answeredOk.endEvent) ∧
            PointsReselected u t c)

/-- Configure Point (R9 to R11): a slot outside 1 to 128, or a request that breaks R9, its codes, ranges and relations
spelled out, is BAD_FIELD; a role held back under R10, the slot's or the requested one, is BUSY. A slot that takes a new
role is a fresh AWAITING point with its 60 s timer (R16), and SERVING at the request if a source is LIVE; the old role's
consumer has the failed event if the old point was usable, and the cause of POINT_FAILED ends (R11 ii); role "none"
empties the slot (R11 iii). A slot that keeps its role (R11 i) serves from a LIVE source anew; without one, a SERVING
point loses its sources (R14), a HOLDING one restarts its hold timer, or fails at a hold limit of 0, an AWAITING one
restarts its waiting timer, and a FAILED one stays. What a notice does at its consumer: O28 and O29. That the value
taken at a reconfiguration under the same role, with the selected rank unchanged, is an arrival at the consumer is the
model's reading (log entry 30, DEDUCED). -/
def Obligations.ConfigurePointByCase : Prop :=
  (∀ (s : State) (slot : Byte) (f : RawPoint), s.working → slot = 0 ∨ 128 < slot.toNat →
    exec (.configurePoint slot f) s = .next (s.refusedWith .badField)) ∧
  ∀ (s : State) (slot : Byte) (f : RawPoint) (p : PointNo), s.working → slot.toNat = p.val + 1 →
    let x := s.points[p]
    let answers (u : State) : Prop := exec (.configurePoint slot f) s = .next u.answeredOk.endEvent
    let stored (c : Option PointConfig) : State :=
      ({ s with cfg := { s.cfg with points := s.cfg.points.set p c } } : State).markConfig
    let replaced (c : Option PointConfig) (y : Point) : State :=
      let u := (stored c).setPoint p y
      ((s.cfg.points[p]).elim u fun old => if x.usable then u.failedEvent old.role else u).tellEnd .pointFailed (p.val + 1)
    let fresh : Point := { Point.vacant with state := .awaiting, waitDue := some (s.osc + 60) }
    (f.role ≠ 0xFF → (∀ pc, pc.CarriedBy f → ¬ s.PointAllowed p pc) →
      exec (.configurePoint slot f) s = .next (s.refusedWith .badField)) ∧
    (∀ pc, pc.CarriedBy f → s.PointAllowed p pc → s.cfg.points[p] = none →
      (s.HeldBack pc.role → exec (.configurePoint slot f) s = .next (s.refusedWith .busy)) ∧
      (¬ s.HeldBack pc.role → s.selection pc = none →
        exec (.configurePoint slot f) s = .next
          (((s.withConfig { s.cfg with points := s.cfg.points.set p (some pc) }).setPoint p fresh).endCause .pointFailed
            (p.val + 1)).answeredOk)) ∧
    (∀ pc, pc.CarriedBy f → s.PointAllowed p pc → ¬ s.HeldBack pc.role →
      (∀ old, s.cfg.points[p] = some old → old.role ≠ pc.role ∧ ¬ s.HeldBack old.role) →
      (s.selection pc = none → answers (replaced (some pc) fresh)) ∧
      ∀ r ch y, s.selection pc = some (r, ch) → (s.channels[ch]).last = some y →
        answers ((replaced (some pc) fresh).servedBy p pc r ch y)) ∧
    (∀ pc old, pc.CarriedBy f → s.PointAllowed p pc → s.cfg.points[p] = some old →
      (s.HeldBack old.role ∨ s.HeldBack pc.role →
        exec (.configurePoint slot f) s = .next (s.refusedWith .busy)) ∧
      (¬ s.HeldBack old.role → old.role = pc.role →
        (∀ r ch y, s.selection pc = some (r, ch) → (s.channels[ch]).last = some y →
          answers ((stored (some pc)).servedBy p pc r ch y)) ∧
        (s.selection pc = none →
          (x.state = .serving → 0 < pc.hold → answers ((stored (some pc)).setPoint p
            { x with state := .holding, holdDue := some (s.osc + pc.hold) })) ∧
          (x.state = .serving ∨ x.state = .holding → pc.hold = 0 → answers ((stored (some pc)).pointFails p pc)) ∧
          (x.state = .holding → 0 < pc.hold →
            answers ((stored (some pc)).setPoint p { x with holdDue := some (s.osc + pc.hold) })) ∧
          (x.state = .awaiting →
            answers ((stored (some pc)).setPoint p { x with waitDue := some (s.osc + 60) })) ∧
          (x.state = .failed → answers (stored (some pc)))))) ∧
    (f.role = 0xFF →
      (∀ old, s.cfg.points[p] = some old → s.HeldBack old.role →
        exec (.configurePoint slot f) s = .next (s.refusedWith .busy)) ∧
      ((∀ old, s.cfg.points[p] = some old → ¬ s.HeldBack old.role) → answers (replaced none .vacant))) ∧
    ∀ old, f.role = 0xFF → s.cfg.points[p] = some old →
      old.role = .worksFlow ∨ old.role = .networkCv ∨ old.role = .turbineStatus →
      exec (.configurePoint slot f) s = .next
        (((s.withConfig { s.cfg with points := s.cfg.points.set p none }).setPoint p .vacant).endCause .pointFailed
          (p.val + 1)).answeredOk

/-! ### Gas Account -/

/-- Configure Source and Set Source Service (R22, R23, R25), case by case. -/
def Obligations.SourceRequestsByCase : Prop :=
  ∀ (s : State) (v : Byte), s.working →
    (v = 0 ∨ 6 < v.toNat → ∀ x, exec (.configureSource v x) s = .next (s.refusedWith .badField) ∧
      exec (.setSourceService v x) s = .next (s.refusedWith .badField)) ∧
    ∀ n : GasSource, v.toNat = n.val + 1 →
      let becomes (x : SourceSetting) : State := s.withConfig { s.cfg with sources := s.cfg.sources.set n x }
      let cleared (u : State) : State := if s.gas.unmeasured[n] then
        (u.setUnmeasured n false).endCause .sourceUnmeasured (n.val + 1) else u
      (∀ x, 1 < x.toNat → exec (.configureSource v x) s = .next (s.refusedWith .badField) ∧
        exec (.setSourceService v x) s = .next (s.refusedWith .badField)) ∧
      (s.cfg.sources[n] = .notDefined →
        exec (.configureSource v 0) s = .next (becomes .outOfService).answeredOk ∧
        exec (.configureSource v 1) s = .next s.answeredOk ∧
        exec (.setSourceService v 0) s = .next (s.refusedWith .notFound) ∧
        exec (.setSourceService v 1) s = .next (s.refusedWith .notFound)) ∧
      (s.cfg.sources[n] ≠ .notDefined →
        exec (.configureSource v 0) s = .next s.answeredOk ∧
        exec (.configureSource v 1) s = .next (cleared (becomes .notDefined)).answeredOk) ∧
      (s.cfg.sources[n] = .inService →
        exec (.setSourceService v 0) s = .next s.answeredOk ∧
        exec (.setSourceService v 1) s = .next (cleared (becomes .outOfService)).answeredOk) ∧
      (s.cfg.sources[n] = .outOfService →
        exec (.setSourceService v 1) s = .next s.answeredOk ∧
        exec (.setSourceService v 0) s = .next (if s.sourceMeasured n ∨ s.gas.unmeasured[n] then becomes .inService
          else ((becomes .inService).setUnmeasured n true).raise .sourceUnmeasured (n.val + 1)).answeredOk)

/-- Configure Holder and Select Holder Limits (R29, R33): figures within the ranges and relations of sections 2.2, 2.3
and R29 are stored whole, any others are BAD_FIELD; a new set in force or new figures re-evaluate both detectors while
the level is usable, each filter starting afresh. -/
def Obligations.HolderRequestsByCase : Prop :=
  ∀ s : State, s.working →
    let retested (u t : State) : Prop :=
      t.gas.unmeasured = s.gas.unmeasured ∧
        (u.cfg.holder = none ∨ u.measured .holderLevel = none → t.gas = s.gas) ∧
        ∀ h v, u.cfg.holder = some h → u.measured .holderLevel = some v →
          let level := (max 0 (min v h.capacity)).toNat
          let limits := h.inForce u.cfg.thresholds
          ((s.gas.highHigh.state = .clear ∨ s.gas.highHigh.state = .arming) →
            t.gas.highHigh = if limits.high ≤ level then { state := .arming, due := some (s.osc + h.filter) }
              else { state := .clear, due := none }) ∧
          ((s.gas.highHigh.state = .active ∨ s.gas.highHigh.state = .disarming) →
            t.gas.highHigh = if level + h.hysteresis < limits.high then
                { state := .disarming, due := some (s.osc + h.filter) }
              else { state := .active, due := none }) ∧
          ((s.gas.lowLow.state = .clear ∨ s.gas.lowLow.state = .arming) →
            t.gas.lowLow = if level ≤ limits.low then { state := .arming, due := some (s.osc + h.filter) }
              else { state := .clear, due := none }) ∧
          ((s.gas.lowLow.state = .active ∨ s.gas.lowLow.state = .disarming) →
            t.gas.lowLow = if limits.low + h.hysteresis < level then
                { state := .disarming, due := some (s.osc + h.filter) }
              else { state := .active, due := none })
    (∀ f : RawHolder,
      let h : HolderFigures :=
        { capacity := f.capacity.toNat, bandLow := f.bandLow.toNat, bandHigh := f.bandHigh.toNat,
          recovery := f.recovery.toNat, hysteresis := f.hysteresis.toNat, filter := f.filter.toNat,
          normal := { low := f.normalLow.toNat, high := f.normalHigh.toNat },
          reduced := { low := f.reducedLow.toNat, high := f.reducedHigh.toNat } }
      let apart (x : Thresholds) : Prop :=
        x.low < x.high ∧ x.high ≤ h.capacity ∧ 2 * (h.hysteresis : Int) < (x.high : Int) - x.low
      let fits := (1 ≤ h.capacity ∧ h.capacity ≤ 1000000) ∧ h.bandLow < h.bandHigh ∧ h.bandHigh ≤ h.capacity ∧
        (60 ≤ h.recovery ∧ h.recovery ≤ 3600) ∧ (1 ≤ h.hysteresis ∧ h.hysteresis ≤ 10000) ∧
        (1 ≤ h.filter ∧ h.filter ≤ 60) ∧ apart h.normal ∧ apart h.reduced ∧ f.drawFallback.toNat ≤ 2000000 ∧
        1 ≤ f.cvDefault.toNat ∧ f.cvDefault.toNat ≤ 40000
      let stored := s.withConfig { s.cfg with
        holder := some h, drawFallback := f.drawFallback.toNat, cvDefault := f.cvDefault.toNat }
      (¬ fits → exec (.configureHolder f) s = .next (s.refusedWith .badField)) ∧
      (fits → ∃ t, exec (.configureHolder f) s = .next t ∧ t = ({ stored with gas := t.gas } : State).answeredOk ∧
        retested stored t)) ∧
    (∀ v : Byte, 1 < v.toNat → exec (.selectHolderLimits v) s = .next (s.refusedWith .badField)) ∧
    ∀ (v : Byte) (x : ThresholdSet), v = 0 ∧ x = .normal ∨ v = 1 ∧ x = .reduced →
      let stored := s.withConfig { s.cfg with thresholds := x }
      (x = s.cfg.thresholds → exec (.selectHolderLimits v) s = .next s.answeredOk) ∧
      (x ≠ s.cfg.thresholds → ∃ t, exec (.selectHolderLimits v) s = .next t ∧
        t = ({ stored with gas := t.gas } : State).answeredOk ∧ retested stored t)

/-- A filter timer that has run out (R31, R53, R56): ARMING becomes ACTIVE and raises its condition, at HH with four
flare stages, at LL with every boiler on gas shed, to a changeover where aux fuel is fitted and to OFF where it is not
(R75), and each of them sent NONE and 0, in any order (R57); DISARMING becomes CLEAR and ends the cause. -/
def Obligations.FilterExpiryActsByState : Prop :=
  ∀ (s : State) (due : Nat), s.working → due ≤ s.osc →
    (s.gas.highHigh = { state := .arming, due := some due } →
      ∃ t, exec (.filterExpiry .highHigh) s = .next t ∧ t.gas = { s.gas with highHigh := { state := .active, due := none } } ∧
        t.dsp = { s.dsp with flareStages := 4 } ∧ t.boilers = s.boilers ∧
        (s.HasRoom [{ cls := .holderHighHigh, source := 1 }] → s.ConditionsLegal → t.Reported .holderHighHigh 1)) ∧
    (s.gas.highHigh = { state := .disarming, due := some due } →
      exec (.filterExpiry .highHigh) s = .next
        ({ s with gas := { s.gas with highHigh := { state := .clear, due := none } } }.endCause .holderHighHigh 1)) ∧
    (s.gas.lowLow = { state := .disarming, due := some due } →
      exec (.filterExpiry .lowLow) s = .next
        ({ s with gas := { s.gas with lowLow := { state := .clear, due := none } } }.endCause .holderLowLow 1)) ∧
    (s.gas.lowLow = { state := .arming, due := some due } →
      ∃ t, exec (.filterExpiry .lowLow) s = .next t ∧ t.gas = { s.gas with lowLow := { state := .active, due := none } } ∧
        (s.HasRoom [{ cls := .holderLowLow, source := 1 }] → s.ConditionsLegal → t.Reported .holderLowLow 1) ∧
        NoneFramesTaken s t ((List.finRange 8).filter fun b => decide ((s.boilers[b]).state = .firingGas)) ∧
        ∀ b : Boiler,
          ((s.boilers[b]).state ≠ .firingGas →
            t.boilers[b] = s.boilers[b] ∧ t.dsp.allocations[b] = s.dsp.allocations[b]) ∧
          ((s.boilers[b]).state = .firingGas →
            (s.auxFitted b = true → ChangingTo s t b .aux) ∧ (s.auxFitted b = false → Stopped s t b)))

/-! ### Dispatcher -/

/-- A dispatch expiry runs the cycle and publishes its result (R37, R59); before it is due nothing happens. The request
of the cycle is the shed choice of stage 4 (R46), else the release or return of the last aux-firing boiler whose count
has reached the limit (R50, R51); it is delivered to its boilers after the result stands (R55, R75); the allocation
table takes the cycle's figures for every boiler that the request does not send away (R41 i). The three conditions of
R52 follow their markers, and each source's unmeasured flag, with the raise and the end of the cause of its
SOURCE_UNMEASURED, the source's standing (R25). The published result adds its export times its span to the open
interval, and leaves STEAM_OVER on it where the cycle was one (R108). The setpoint frames of the cycle are queued in
merit order, one for each boiler in LIGHTING, FIRING_GAS, FIRING_AUX or phase TAKEOVER with the fuel and demand of R58
i, then those of the boilers that the request sends away from their fuel, NONE and 0, in either order (R57, R58 ii); a
frame replaces a waiting one for its boiler in its place, or waits behind the others, whatever queues it (R58 (1));
that a frame which finds the line idle counts as being sent within its own event is the model's choice (log entry 45).
The setpoint line frees itself frame by frame, in the order of the queue (R58). The result's figures, by their
formulas: O36. When the timer is due: log entries 7 and 28. -/
def Obligations.DispatchExpiryRunsACycle : Prop :=
  (∀ s : State, s.working →
    (s.osc < s.dsp.lastCycle + s.cfg.plant.period → exec .dispatchExpiry s = .next s) ∧
    (s.dsp.lastCycle + s.cfg.plant.period ≤ s.osc → ∃ t r,
      let leaving := match r.request with
        | .nothing => []
        | .one _ b => [b]
        | .shedAll l => l
      exec .dispatchExpiry s = .next t ∧ t.dsp.result = some r ∧ r = s.cycleResult s.gasFigures ∧ r.cycle = s.dsp.cycle + 1 ∧ r.time = s.clock.reading ∧
      r.span = s.osc - s.dsp.lastCycle ∧ t.dsp.cycle = r.cycle ∧ t.dsp.lastCycle = s.osc ∧
      t.dsp.flareDemand = r.flareDemand ∧ t.dsp.flareStages = r.flareStages ∧ t.dsp.fraction = r.heat.fraction ∧
      t.dsp.markers = { shortage := r.flags.shortage, steamOver := r.flags.steamOver, heatShort := r.flags.heatShort } ∧
      (r.request = .nothing → t.boilers = s.boilers) ∧
      (∀ b : Boiler, b ∉ leaving →
        t.dsp.allocations[b] = { gas := (r.boilers[b]).gas, aux := (r.boilers[b]).aux, idle := (r.boilers[b]).idle }) ∧
      (s.que.interval = none → t.que = s.que) ∧
      (∀ iv, s.que.interval = some iv → t.que = { s.que with interval := some { iv with
        computed := iv.computed + r.heat.exported * r.span
        flags := { iv.flags with steamOver := iv.flags.steamOver || r.flags.steamOver } } }) ∧
      (∀ n : GasSource, t.gas.unmeasured[n] = match r.figures.standings[n] with
        | .unmeasured => true
        | .counted => false
        | .outOfService | .notDefined => s.gas.unmeasured[n]) ∧
      (∀ k b, r.request = .one k b → (s.cfg.boilers[b]).isSome →
        (k = .shedSteam ∨ k = .releaseAux ∨ k = .shedShortage ∧ s.auxFitted b = false → Stopped s t b) ∧
        (k = .shedShortage → s.auxFitted b = true → ChangingTo s t b .aux) ∧
        (k = .returnGas → ChangingTo s t b .gas) ∧
        ∀ a : Boiler, a ≠ b → t.boilers[a] = s.boilers[a]) ∧
      (∀ l, r.request = .shedAll l → ∀ b : Boiler,
        (b ∉ l → t.boilers[b] = s.boilers[b]) ∧
        (b ∈ l → (s.auxFitted b = false → Stopped s t b) ∧ (s.auxFitted b = true → ChangingTo s t b .aux))) ∧
      (s.ConditionsLegal → s.HasRoom cycleKeys →
        let follows (c : ConditionClass) (source : Nat) (marker found : Bool) : Prop :=
          t.entryOf { cls := c, source := source } = (if found && !marker then s.raise c source
            else if marker && !found then s.endCause c source else s).entryOf { cls := c, source := source }
        follows .gasShortage 1 s.dsp.markers.shortage r.flags.shortage ∧
        follows .steamOverLimit 1 s.dsp.markers.steamOver r.flags.steamOver ∧
        follows .heatShortfall 1 s.dsp.markers.heatShort r.flags.heatShort ∧
        ∀ n : GasSource, follows .sourceUnmeasured (n.val + 1) s.gas.unmeasured[n] (match r.figures.standings[n] with
          | .unmeasured => true
          | .counted => false
          | .outOfService | .notDefined => s.gas.unmeasured[n])) ∧
      (s.AllocationsLegal → s.SetpointsLegal →
        let merit := s.cfg.merit ++ (List.finRange 8).filter fun b => decide (b ∉ s.cfg.merit)
        let least (b : Boiler) : Nat := (s.cfg.boilers[b]).elim 0 (·.minimum)
        let called (b : Boiler) : Option (Option Fuel × Nat) := match (s.boilers[b]).state with
          | .lighting => some ((s.boilers[b]).run, least b)
          | .firingGas => some (some .gas, (r.boilers[b]).gas)
          | .firingAux => some (some .aux, (r.boilers[b]).aux)
          | .changeover => if (s.boilers[b]).phase = some .takeover then some ((s.boilers[b]).target, least b) else none
          | .off | .purge | .tripped | .lockedOut => none
        let frame (b : Boiler) (x : Option Fuel × Nat) : SetpointFrame :=
          { boiler := b, fuel := x.1, demand := x.2, cycle := r.cycle }
        ∃ order : List Boiler, order.Perm leaving ∧ (t.dsp.sending, t.dsp.waiting) =
          (merit.filterMap (fun b => (called b).map (frame b)) ++ order.map fun b => frame b (none, 0)).foldl lineTakes
            (s.dsp.sending, s.dsp.waiting)))) ∧
  (∀ (s : State) (g : GasFigures),
    let r := s.cycleResult g
    let chosen := (g.lowLow = true ∨ r.flags.shortage = true ∨ r.flags.steamOver = true) ∧ s.gasFiring ≠ [] ∨
      r.flags.steamOver = true ∧ s.auxFiring ≠ []
    (g.lowLow = true → s.gasFiring ≠ [] → r.request = .shedAll s.gasFiring) ∧
    (∀ b, g.lowLow = false → s.gasFiring.getLast? = some b →
      (r.flags.shortage = true → r.request = .one .shedShortage b) ∧
      (r.flags.shortage = false → r.flags.steamOver = true → r.request = .one .shedSteam b)) ∧
    (∀ b, s.gasFiring = [] → r.flags.steamOver = true → s.auxFiring.getLast? = some b →
      r.request = .one .shedSteam b) ∧
    (¬ chosen →
      (s.auxFiring = [] → r.request = .nothing) ∧
      ∀ b, s.auxFiring.getLast? = some b →
        let count := if 0 < r.raised.shortfall then 0 else min ((s.dsp.allocations[b]).idle + 1) 255
        (s.cfg.plant.idleLimit = 0 ∨ count < s.cfg.plant.idleLimit → r.request = .nothing) ∧
        (s.cfg.plant.idleLimit ≠ 0 → s.cfg.plant.idleLimit ≤ count →
          r.request = .one (if (s.cfg.boilers[b]).elim 0 (·.minimum) ≤ r.raised.leftover then .returnGas
            else .releaseAux) b)) ∧
    ∀ b : Boiler,
      ((s.boilers[b]).state ≠ .firingAux → (r.boilers[b]).idle = 0) ∧
      ((s.boilers[b]).state = .firingAux →
        (¬ chosen → r.request.target = some b → (r.boilers[b]).idle = 0) ∧
        (0 < r.raised.shortfall → (r.boilers[b]).idle = 0) ∧
        (r.raised.shortfall = 0 → chosen → (r.boilers[b]).idle = (s.dsp.allocations[b]).idle) ∧
        (r.raised.shortfall = 0 → ¬ chosen → r.request.target ≠ some b →
          (r.boilers[b]).idle = min ((s.dsp.allocations[b]).idle + 1) 255))) ∧
  (∀ (s : State) (b : Boiler) (fuel : Option Fuel) (demand : Nat), s.SetpointsLegal →
    let line := lineTakes (s.dsp.sending, s.dsp.waiting)
      { boiler := b, fuel := fuel, demand := demand, cycle := s.dsp.cycle }
    s.queueFrame b fuel demand = { s with dsp := { s.dsp with sending := line.1, waiting := line.2 } }) ∧
  (∀ (s : State) (f : SetpointFrame), s.working → s.dsp.sending = some f →
    (s.dsp.waiting = [] → exec .setpointFrameSent s = .next { s with dsp := { s.dsp with sending := none } }) ∧
    ∀ g rest, s.dsp.waiting = g :: rest →
      exec .setpointFrameSent s = .next { s with dsp := { s.dsp with sending := some g, waiting := rest } })

/-- The figures of a cycle, stage by stage, and the law of gas allocation. The Gas Account's (R24, R26 to R28): each
source's energy, their sum, the network CV, the draw, the surplus, the holder's level, position and correction. Stages 1
to 3 (R42 to R44): available gas, heat demand, turbine steam limit, headroom, floors and committed steam. The grounds of
a shortage and of a steam-over cycle (R45). Stage 5 (R47): the gas raise, boiler by boiler in merit order, each from
what the boilers before it left; outside a shortage cycle the gas allocations do not exceed F, in one each is its
boiler's floor. The result carries what the floors leave of the available gas, Rg, and of the headroom, Qr, before the
gas raise, both 0 in a shortage cycle (R47, 12.4). Stage 6 (R48): the aux raise toward the heat that is uncovered. Stage
7 (R49): the heat split. Stage 9 (R54): the flare demand, and the stages' move, up by one and down at once. That a
dispatch expiry publishes this result: O35. The estimate rate of a substation that is not configured: log entry 36. -/
def Obligations.GasAllocationLaw : Prop :=
  ∀ s : State, s.cfg.merit.Nodup →
    let g := s.gasFigures
    let r := s.cycleResult g
    let plant := s.cfg.plant
    let within (v : Int) (top : Nat) : Nat := (max 0 (min v top)).toNat
    let merit := s.cfg.merit ++ (List.finRange 8).filter fun b => decide (b ∉ s.cfg.merit)
    let onGas := merit.filter fun b => decide ((s.boilers[b]).state = .firingGas)
    let onAux := merit.filter fun b => decide ((s.boilers[b]).state = .firingAux)
    let floor (b : Boiler) : Nat := (r.boilers[b]).floor.getD 0
    let steam (b : Boiler) (rate : Nat) : Nat := rate * (s.cfg.boilers[b]).elim 0 (·.yield) / 1000
    let gasSteam (b : Boiler) : Nat := steam b (r.boilers[b]).gas
    let auxSteam (b : Boiler) : Nat := steam b (r.boilers[b]).aux
    let remainingGas (before : List Boiler) : Nat :=
      r.early.available - r.early.gasFloors - (before.map fun b => (r.boilers[b]).gas - floor b).sum
    let remainingSteam (before : List Boiler) : Nat :=
      r.early.headroom - r.early.committed - (before.map fun b => gasSteam b - steam b (floor b)).sum
    let uncovered (before : List Boiler) : Nat :=
      r.early.usable - min r.early.usable (r.raised.gasSteam + r.raised.auxFloorSteam) -
        (before.map fun b => auxSteam b - steam b (floor b)).sum
    (r.figures = g ∧
      (∀ n : GasSource,
        (s.cfg.sources[n] = .notDefined → g.energies[n] = 0 ∧ g.standings[n] = .notDefined) ∧
        (s.cfg.sources[n] = .outOfService → g.energies[n] = 0 ∧ g.standings[n] = .outOfService) ∧
        (s.cfg.sources[n] = .inService → s.usable (.sourceFlow n) = false ∨ s.usable (.sourceCv n) = false →
          g.energies[n] = 0 ∧ g.standings[n] = .unmeasured) ∧
        ∀ flow cv, s.cfg.sources[n] = .inService → s.measured (.sourceFlow n) = some flow →
          s.measured (.sourceCv n) = some cv →
          g.energies[n] = within flow 500000 * within cv 40000 / 3600 ∧ g.standings[n] = .counted) ∧
      g.sourceEnergy = g.energies.toList.sum ∧
      (∀ v, s.measured .networkCv = some v → g.networkCv = within v 40000 ∧ g.cvDefault = false) ∧
      (s.measured .networkCv = none → g.networkCv = s.cfg.cvDefault ∧ g.cvDefault = true) ∧
      (∀ v, s.measured .worksFlow = some v →
        g.draw = within v 500000 * g.networkCv / 3600 ∧ g.drawFallback = false) ∧
      (s.measured .worksFlow = none → g.draw = s.cfg.drawFallback ∧ g.drawFallback = true) ∧
      g.surplus = (g.sourceEnergy : Int) - g.draw ∧
      (s.cfg.holder = none ∨ s.measured .holderLevel = none →
        g.level = none ∧ g.position = .levelFailed ∧ g.correction = 0) ∧
      (∀ h v, s.cfg.holder = some h → s.measured .holderLevel = some v →
        let level := within v h.capacity
        g.level = some level ∧
        (h.bandHigh < level → g.position = .above ∧
          g.correction = ((level - h.bandHigh) * g.networkCv / h.recovery : Nat)) ∧
        (level ≤ h.bandHigh → level < h.bandLow → g.position = .below ∧
          g.correction = -((h.bandLow - level) * g.networkCv / h.recovery : Nat)) ∧
        (level ≤ h.bandHigh → h.bandLow ≤ level → g.position = .inBand ∧ g.correction = 0)) ∧
      (g.highHigh = true ↔ s.gas.highHigh.state = .active ∨ s.gas.highHigh.state = .disarming) ∧
      (g.lowLow = true ↔ s.gas.lowLow.state = .active ∨ s.gas.lowLow.state = .disarming)) ∧
    (r.early.available = (max 0 (g.surplus + g.correction)).toNat ∧
      r.early.demand = ((List.finRange 48).map fun k => match (s.acc.meters[k]).state with
        | .inService => s.hmu.lastRates[k]
        | .estimating => (s.cfg.substations[k]).elim 0 (·.estimateRate)
        | .fresh | .disconnected => 0).sum + plant.loss ∧
      r.early.usable = min r.early.demand plant.exchanger ∧ r.early.effLimit = s.esu.effLimit ∧
      ((∃ i, s.indicated .turbineStatus = some i ∧ i.available = true) →
        r.early.turbineLimit = min plant.turbineMax ((s.esu.effLimit + plant.ownUse) * 1000 / plant.conversion) ∧
        r.flags.turbineUnavailable = false) ∧
      ((∀ i, s.indicated .turbineStatus = some i → i.available = false) →
        r.early.turbineLimit = 0 ∧ r.flags.turbineUnavailable = true) ∧
      r.early.headroom = r.early.usable + r.early.turbineLimit ∧
      (∀ (b : Boiler) (c : BoilerConfig), s.cfg.boilers[b] = some c →
        ((s.boilers[b]).state = .firingGas →
          (r.boilers[b]).floor = some (max c.minimum ((s.dsp.allocations[b]).gas - c.ramp))) ∧
        ((s.boilers[b]).state = .firingAux →
          (r.boilers[b]).floor = some (max c.minimum ((s.dsp.allocations[b]).aux - c.ramp)))) ∧
      (∀ b : Boiler, (s.boilers[b]).state ≠ .firingGas → (s.boilers[b]).state ≠ .firingAux →
        (r.boilers[b]).floor = none) ∧
      r.early.committed = ((List.finRange 8).map fun b => steam b (floor b)).sum ∧
      r.early.gasFloors = (((List.finRange 8).filter fun b =>
        decide ((s.boilers[b]).state = .firingGas)).map floor).sum) ∧
    ((r.flags.shortage = true ↔
        g.surplus + g.correction < 0 ∨ r.early.available < r.early.gasFloors ∨ g.lowLow = true) ∧
      (r.flags.steamOver = true ↔ r.early.headroom < r.early.committed) ∧
      (r.flags.holderFailed = true ↔ g.position = .levelFailed) ∧
      (r.flags.heatShort = true ↔ 0 < r.raised.shortfall)) ∧
    ((∀ b : Boiler, ((s.boilers[b]).state ≠ .firingGas → (r.boilers[b]).gas = 0) ∧
        ((s.boilers[b]).state ≠ .firingAux → (r.boilers[b]).aux = 0)) ∧
      r.raised.remainingGas = (if r.flags.shortage then 0 else r.early.available - r.early.gasFloors) ∧
      r.raised.remainingHeadroom = (if r.flags.shortage then 0 else r.early.headroom - r.early.committed) ∧
      (r.flags.shortage = true → r.raised.leftover = 0 ∧ ∀ b : Boiler, (s.boilers[b]).state = .firingGas →
        (r.boilers[b]).floor = some (r.boilers[b]).gas) ∧
      (r.flags.shortage = false → (r.boilers.toList.map (·.gas)).sum ≤ r.early.available ∧
        r.raised.leftover = remainingGas onGas ∧
        ∀ (before after : List Boiler) (b : Boiler) (c : BoilerConfig), onGas = before ++ b :: after →
          s.cfg.boilers[b] = some c →
          let cap := (steam b (floor b) + remainingSteam before) * 1000 / c.yield
          let ceiling := min c.maximum (min ((s.dsp.allocations[b]).gas + c.ramp) cap)
          (r.boilers[b]).gas = floor b + min (ceiling - floor b) (remainingGas before))) ∧
    (r.raised.gasSteam = (onGas.map gasSteam).sum ∧
      r.raised.auxFloorSteam = (onAux.map fun b => steam b (floor b)).sum ∧
      r.raised.auxSteam = (onAux.map auxSteam).sum ∧ r.raised.shortfall = uncovered onAux ∧
      ∀ (before after : List Boiler) (b : Boiler) (c : BoilerConfig), onAux = before ++ b :: after →
        s.cfg.boilers[b] = some c →
        let need := (uncovered before * 1000 + c.yield - 1) / c.yield
        let ceiling := min c.maximum ((s.dsp.allocations[b]).aux + c.ramp)
        (uncovered before = 0 → (r.boilers[b]).aux = floor b) ∧
        (0 < uncovered before → (r.boilers[b]).aux = floor b + min (ceiling - floor b) need)) ∧
    (r.heat.delivered = min r.early.usable (r.raised.gasSteam + r.raised.auxSteam) ∧
      r.heat.recovered = min r.heat.delivered r.raised.gasSteam ∧
      r.heat.auxiliary = r.heat.delivered - r.heat.recovered ∧
      r.heat.turbine = r.raised.gasSteam + r.raised.auxSteam - r.heat.delivered ∧
      r.heat.power = (if r.flags.turbineUnavailable then 0 else r.heat.turbine * plant.conversion / 1000) ∧
      r.heat.exported = (r.heat.power : Int) - plant.ownUse ∧
      r.heat.fraction = if 0 < r.heat.delivered then r.heat.recovered * 1000 / r.heat.delivered else 1000) ∧
    ((g.highHigh = true → r.flareDemand = 4) ∧
      (g.highHigh = false → g.position = .above ∨ g.position = .levelFailed →
        r.flareDemand = min ((r.raised.leftover + plant.stageSize - 1) / plant.stageSize) 4) ∧
      (g.highHigh = false → g.position = .inBand ∨ g.position = .below → r.flareDemand = 0) ∧
      (s.dsp.flareStages < r.flareDemand → r.flareStages = s.dsp.flareStages + 1) ∧
      (r.flareDemand ≤ s.dsp.flareStages → r.flareStages = r.flareDemand))

/-- Set Plant Parameters (R38): figures within the ranges of R38 are stored, and an expiry they bring to this second or
before runs the cycle at the request, which is the whole dispatch expiry under the new figures and publishes their
result (O35, O36); any other figure is BAD_FIELD. Set Merit List (R39): at most eight boilers, none twice, each from 1
to 8. -/
def Obligations.PlantAndMeritByCase : Prop :=
  ∀ s : State, s.working →
    (∀ f : RawPlant,
      let p : PlantParameters :=
        { period := f.period.toNat, idleLimit := f.idleLimit.toNat, conversion := f.conversion.toNat,
          turbineMax := f.turbineMax.toNat, ownUse := f.ownUse.toNat, exchanger := f.exchanger.toNat,
          loss := f.loss.toNat, stageSize := f.stageSize.toNat }
      let fits := (1 ≤ p.period ∧ p.period ≤ 30) ∧ (150 ≤ p.conversion ∧ p.conversion ≤ 450) ∧ p.turbineMax ≤ 2000000 ∧
        p.ownUse ≤ 200000 ∧ p.exchanger ≤ 2000000 ∧ p.loss ≤ 200000 ∧ 1 ≤ p.stageSize ∧ p.stageSize ≤ 1000000
      (¬ fits → exec (.setPlantParameters f) s = .next (s.refusedWith .badField)) ∧
      (fits → s.osc < s.dsp.lastCycle + p.period →
        exec (.setPlantParameters f) s = .next (s.withConfig { s.cfg with plant := p }).answeredOk) ∧
      (fits → s.dsp.lastCycle + p.period ≤ s.osc → ∃ t, exec (.setPlantParameters f) s = .next t ∧
        t.cfg = { s.cfg with plant := p } ∧ t.hlu = s.answeredOk.hlu ∧ t.dsp.cycle = s.dsp.cycle + 1 ∧
        t.dsp.lastCycle = s.osc ∧
        let u : State := { s with cfg := { s.cfg with plant := p } }
        t.dsp.result = some (u.cycleResult u.gasFigures) ∧
        ∃ v, exec .dispatchExpiry u = .next v ∧ t = (v.withConfig { s.cfg with plant := p }).answeredOk)) ∧
    (∀ l : List Boiler, l.Nodup →
      exec (.setMeritList (l.map fun b => BitVec.ofNat 8 (b.val + 1))) s =
        .next (s.withConfig { s.cfg with merit := l }).answeredOk) ∧
    ∀ l : List Byte, 8 < l.length ∨ ¬ l.Nodup ∨ (∃ v ∈ l, v = 0 ∨ 8 < v.toNat) →
      exec (.setMeritList l) s = .next (s.refusedWith .badField)

/-! ### Boiler sequencers -/

/-- Configure Boiler (R40, R62): BAD_FIELD for a number outside 1 to 8 or a figure outside its range in R40; BUSY while
the sequencer is not OFF; else the figures are stored and the trip history loses its entries as old as the new window
and then its oldest, down to one fewer than the new trip limit, and keeps all others. RESET_LOCKOUT (R64, R68):
BAD_FIELD for a number outside 1 to 8; only in LOCKED_OUT, and only without a standing cause; an accepted one ends the
cause of BOILER_LOCKOUT and, where the trip marker was set, that of BOILER_TRIP (R68, R80), and tells the table of no
other condition. -/
def Obligations.ConfigureBoilerAndResetLockout : Prop :=
  ∀ (s : State) (b : Boiler), s.working →
    (∀ f : RawBoiler,
      let c : BoilerConfig :=
        { minimum := f.minimum.toNat, maximum := f.maximum.toNat, ramp := f.ramp.toNat, yield := f.yield.toNat,
          auxFitted := decide (f.auxFitted = 1), purge := f.purge.toNat, lightOff := f.lightOff.toNat,
          interval := f.interval.toNat, reference := if f.reference = 0 then .fromCommand else .fromConfirm,
          window := f.window.toNat, tripLimit := f.tripLimit.toNat,
          restart := if f.restart = 0 then .autoRestart else .latched }
      let fits := (1 ≤ c.minimum ∧ c.minimum ≤ 2000000) ∧ (c.minimum ≤ c.maximum ∧ c.maximum ≤ 2000000) ∧
        (1 ≤ c.ramp ∧ c.ramp ≤ c.maximum) ∧ (500 ≤ c.yield ∧ c.yield ≤ 950) ∧ f.auxFitted.toNat ≤ 1 ∧
        (30 ≤ c.purge ∧ c.purge ≤ 600) ∧ (5 ≤ c.lightOff ∧ c.lightOff ≤ 60) ∧ (2 ≤ c.interval ∧ c.interval ≤ 30) ∧
        f.reference.toNat ≤ 1 ∧ (600 ≤ c.window ∧ c.window ≤ 86400) ∧ (1 ≤ c.tripLimit ∧ c.tripLimit ≤ 5) ∧
        f.restart.toNat ≤ 1
      (f.boiler = 0 ∨ 8 < f.boiler.toNat ∨ ¬ fits → exec (.configureBoiler f) s = .next (s.refusedWith .badField)) ∧
      (f.boiler.toNat = b.val + 1 → fits → (s.boilers[b]).state ≠ .off →
        exec (.configureBoiler f) s = .next (s.refusedWith .busy)) ∧
      (f.boiler.toNat = b.val + 1 → fits → (s.boilers[b]).state = .off →
        let young := (s.boilers[b]).history.filter fun e => decide (s.osc < e.second + c.window)
        let excess := young.length + 1 - c.tripLimit
        exec (.configureBoiler f) s = .next
          ((s.withConfig { s.cfg with boilers := s.cfg.boilers.set b (some c) }).setBoiler b
            { s.boilers[b] with history := young.drop excess }).answeredOk ∧
        (young.drop excess).length < c.tripLimit)) ∧
    (∀ v, v = 0 ∨ 8 < v.toNat → exec (.resetLockout v) s = .next (s.refusedWith .badField)) ∧
    ∀ v, v.toNat = b.val + 1 →
      ((s.boilers[b]).state ≠ .lockedOut → exec (.resetLockout v) s = .next (s.refusedWith .busy)) ∧
      ((s.boilers[b]).state = .lockedOut → s.standingCause b = true →
        exec (.resetLockout v) s = .next (s.refusedWith .stillPresent)) ∧
      ((s.boilers[b]).state = .lockedOut → s.standingCause b = false →
        ∃ t, exec (.resetLockout v) s = .next t ∧ t.hlu = s.answeredOk.hlu ∧
          t.boilers = s.boilers.set b { s.boilers[b] with history := [], state := .off, run := none, marker := false } ∧
          (s.ConditionsLegal →
            let trip : ConditionKey := { cls := .boilerTrip, source := b.val + 1 }
            let lockout : ConditionKey := { cls := .boilerLockout, source := b.val + 1 }
            t.entryOf lockout = (s.endCause .boilerLockout (b.val + 1)).entryOf lockout ∧
              t.entryOf trip =
                (if (s.boilers[b]).marker then s.endCause .boilerTrip (b.val + 1) else s).entryOf trip ∧
              ∀ key, key ≠ trip → key ≠ lockout → key ≠ conditionTableFullKey → t.entryOf key = s.entryOf key))

/-- START_GAS and START_AUX (R64, R65, R69): refused in the order of R64, else the boiler enters PURGE for that fuel, its
timer toward the later of the purge time and the changeover interval after the last close. -/
def Obligations.StartEntersPurge : Prop :=
  ∀ (s : State) (v : Byte), s.working →
    (v = 0 ∨ 8 < v.toNat → exec (.startGas v) s = .next (s.refusedWith .badField) ∧
      exec (.startAux v) s = .next (s.refusedWith .badField)) ∧
    ∀ (b : Boiler), v.toNat = b.val + 1 →
      (s.cfg.boilers[b] = none → exec (.startGas v) s = .next (s.refusedWith .notFound) ∧
        exec (.startAux v) s = .next (s.refusedWith .notFound)) ∧
      ∀ c, s.cfg.boilers[b] = some c →
        ((s.boilers[b]).state ≠ .off → exec (.startGas v) s = .next (s.refusedWith .busy) ∧
          exec (.startAux v) s = .next (s.refusedWith .busy)) ∧
        ((s.boilers[b]).state = .off → c.auxFitted = false →
          exec (.startAux v) s = .next (s.refusedWith .badField)) ∧
        ((s.boilers[b]).state = .off →
          s.plantRelease = false ∨ s.indicated (.boilerStatus b) = none ∨
            (∃ i, s.indicated (.boilerStatus b) = some i ∧ (i.localControl = true ∨ i.tripDemand = true)) ∨
            (c.restart = .latched ∧ (s.entryOf { cls := .boilerTrip, source := b.val + 1 }).isSome) →
          exec (.startGas v) s = .next (s.refusedWith .locked) ∧
            (c.auxFitted = true → exec (.startAux v) s = .next (s.refusedWith .locked))) ∧
        ∀ i, (s.boilers[b]).state = .off → s.plantRelease = true → s.indicated (.boilerStatus b) = some i →
          i.localControl = false → i.tripDemand = false →
          (c.restart = .latched → s.entryOf { cls := .boilerTrip, source := b.val + 1 } = none) →
          let purging (f : Fuel) : Sequencer :=
            { s.boilers[b] with
              state := .purge, run := some f, phase := none, target := none, awaiting := false, lightOffDue := none,
              confirmDue := none, deadDue := none,
              purgeDue := some (max (s.osc + c.purge) ((s.boilers[b]).lastClose + c.interval)) }
          exec (.startGas v) s = .next (s.setBoiler b (purging .gas)).answeredOk ∧
            (c.auxFitted = true → exec (.startAux v) s = .next (s.setBoiler b (purging .aux)).answeredOk)

/-- STOP (R63, R66): a controlled stop to OFF in an active state, with permits closed, timers stopped and the
Dispatcher's notice: out of LIGHTING, FIRING and phase TAKEOVER a frame NONE with demand 0, on a free line or behind the
frames that wait, out of PURGE and phase DEAD none (R57, R58); in TRIPPED the run request is cancelled; in OFF and
LOCKED_OUT nothing changes. CHANGEOVER (R67, R71): from FIRING alone, the burnt fuel's permit closes and phase DEAD
begins toward the other fuel, its end counted from the command or from the confirmation, with a frame NONE and 0 (R57);
without aux fuel fitted it is BAD_FIELD. Both are BAD_FIELD for a number outside 1 to 8 (R64). -/
def Obligations.StopAndChangeover : Prop :=
  (∀ (s : State) (v : Byte), s.working → v = 0 ∨ 8 < v.toNat →
    exec (.stop v) s = .next (s.refusedWith .badField) ∧ exec (.changeover v) s = .next (s.refusedWith .badField)) ∧
  (∀ (s : State) (v : Byte) (b : Boiler), s.working → v.toNat = b.val + 1 →
    ((s.boilers[b]).state ≠ .firingGas → (s.boilers[b]).state ≠ .firingAux →
      exec (.changeover v) s = .next (s.refusedWith .busy)) ∧
    ((s.boilers[b]).state = .off ∨ (s.boilers[b]).state = .lockedOut → exec (.stop v) s = .next s.answeredOk) ∧
    ((s.boilers[b]).state = .tripped →
      exec (.stop v) s = .next (s.setBoiler b { s.boilers[b] with run := none }).answeredOk) ∧
    ((s.boilers[b]).state.isActive = true → ∃ t, exec (.stop v) s = .next t ∧ t.hlu = s.answeredOk.hlu ∧
      t.boilers = s.boilers.set b { (s.boilers[b]).permitsClosed s.osc s.clock.reading with
        state := .off, run := none, phase := none, target := none, awaiting := false, purgeDue := none,
        lightOffDue := none, confirmDue := none, deadDue := none } ∧
      ((s.boilers[b]).state = .purge → t.dsp = s.dsp) ∧
      ((s.boilers[b]).state = .firingGas → (t.dsp.allocations[b]).gas = 0) ∧
      ((s.boilers[b]).state = .firingAux → (t.dsp.allocations[b]).aux = 0) ∧
      (∀ a : Boiler, a ≠ b → t.dsp.allocations[a] = s.dsp.allocations[a]) ∧ NoneFrameTaken s t b ∧
      ((s.boilers[b]).state = .firingGas ∨ (s.boilers[b]).state = .firingAux ∨ (s.boilers[b]).state = .lighting →
        s.dsp.sending = none →
        t.dsp.sending = some { boiler := b, fuel := none, demand := 0, cycle := s.dsp.cycle }))) ∧
  (∀ (s : State) (v : Byte) (b : Boiler) (c : BoilerConfig), s.working → v.toNat = b.val + 1 →
    s.cfg.boilers[b] = some c →
    ((s.boilers[b]).state = .firingGas → c.auxFitted = false →
      exec (.changeover v) s = .next (s.refusedWith .badField)) ∧
    ∀ old : Fuel, (s.boilers[b]).state = old.firing → (old = .gas → c.auxFitted = true) →
      let closed := (s.boilers[b]).permitsClosed s.osc s.clock.reading
      ∃ t, exec (.changeover v) s = .next t ∧ t.hlu = s.answeredOk.hlu ∧
        (c.reference = .fromCommand → t.boilers = s.boilers.set b { closed with
          state := .changeover, phase := some .dead, target := some old.other, awaiting := false,
          deadDue := some (s.osc + c.interval) }) ∧
        (c.reference = .fromConfirm → t.boilers = s.boilers.set b { closed with
          state := .changeover, phase := some .dead, target := some old.other, awaiting := true,
          confirmDue := some (s.osc + 10) }) ∧
        (old = .gas → t.dsp.allocations = s.dsp.allocations.set b { s.dsp.allocations[b] with gas := 0, idle := 0 }) ∧
        (old = .aux → t.dsp.allocations = s.dsp.allocations.set b { s.dsp.allocations[b] with aux := 0, idle := 0 }) ∧
        NoneFramesTaken s t [b])

/-- The purge and dead timers (R69, R73): run out, they open the permit of the run-request or target fuel, start the
light-off timer and send the boiler its minimum firing; before that they do nothing (log entry 7). -/
def Obligations.TimersOpenTheirPermit : Prop :=
  ∀ (s : State) (b : Boiler) (c : BoilerConfig) (f : Fuel) (due : Nat), s.working → s.cfg.boilers[b] = some c →
    ((s.boilers[b]).state = .purge → (s.boilers[b]).purgeDue = some due → (s.boilers[b]).run = some f →
      (s.osc < due → exec (.purgeExpiry b) s = .next s) ∧
      (due ≤ s.osc → exec (.purgeExpiry b) s = .next
        ((s.setBoiler b ({ s.boilers[b] with
          state := .lighting, purgeDue := none, lightOffDue := some (s.osc + c.lightOff) }.openPermit f)).queueFrame b
          (some f) c.minimum))) ∧
    ((s.boilers[b]).state = .changeover → (s.boilers[b]).phase = some .dead → (s.boilers[b]).deadDue = some due →
      (s.boilers[b]).target = some f →
      (s.osc < due → exec (.deadExpiry b) s = .next s) ∧
      (due ≤ s.osc → exec (.deadExpiry b) s = .next
        ((s.setBoiler b ({ s.boilers[b] with
          phase := some .takeover, deadDue := none, lightOffDue := some (s.osc + c.lightOff) }.openPermit f)).queueFrame b
          (some f) c.minimum)))

/-- Trips at timers (R70, R72, R74, R78, R79): the light-off timer and the confirm timer, run out, trip the boiler, sent
NONE and 0 at the light-off timer's and no frame at the confirm timer's, in phase DEAD (R57), and the trip, and the
lockout where it locks out, are reported where the table has room; with room for one of the two, either may be the one
that is lost (R154). An entry as old as the trip window leaves the history. When a timer is due: log entry 7. -/
def Obligations.TimersTripAndAge : Prop :=
  ∀ (s : State) (b : Boiler) (c : BoilerConfig) (due : Nat), s.working → s.cfg.boilers[b] = some c → due ≤ s.osc →
    let trip : ConditionKey := { cls := .boilerTrip, source := b.val + 1 }
    let lockout : ConditionKey := { cls := .boilerLockout, source := b.val + 1 }
    let reported (t : State) : Prop := s.ConditionsLegal →
      (s.HasRoom [trip] → (t.boilers[b]).state = .tripped → t.Reported .boilerTrip (b.val + 1)) ∧
      (s.HasRoom [trip] → (t.boilers[b]).state = .lockedOut →
        t.Reported .boilerTrip (b.val + 1) ∨ t.Reported .boilerLockout (b.val + 1)) ∧
      (s.HasRoom [trip, lockout] → (t.boilers[b]).state = .lockedOut →
        t.Reported .boilerTrip (b.val + 1) ∧ t.Reported .boilerLockout (b.val + 1))
    ((s.boilers[b]).state = .lighting ∨ (s.boilers[b]).state = .changeover ∧ (s.boilers[b]).phase = some .takeover →
      (s.boilers[b]).lightOffDue = some due →
      ∃ t, exec (.lightOffExpiry b) s = .next t ∧ Tripped s t b .lightOffFailed c.tripLimit ∧
        (∀ a : Boiler, a ≠ b → t.boilers[a] = s.boilers[a] ∧ t.dsp.allocations[a] = s.dsp.allocations[a]) ∧
        NoneFrameTaken s t b ∧ reported t) ∧
    ((s.boilers[b]).state = .changeover → (s.boilers[b]).phase = some .dead → (s.boilers[b]).awaiting = true →
      (s.boilers[b]).confirmDue = some due →
      ∃ t, exec (.confirmExpiry b) s = .next t ∧ Tripped s t b .valveNotClosed c.tripLimit ∧
        (∀ a : Boiler, a ≠ b → t.boilers[a] = s.boilers[a] ∧ t.dsp.allocations[a] = s.dsp.allocations[a]) ∧
        NoneFrameTaken s t b ∧ reported t) ∧
    ∀ e rest, (s.boilers[b]).history = e :: rest →
      (s.osc < e.second + c.window → exec (.tripHistoryAgeingExpiry b) s = .next s) ∧
      (e.second + c.window ≤ s.osc → exec (.tripHistoryAgeingExpiry b) s =
        .next (s.setBoiler b { s.boilers[b] with history := rest }))

/-- PLANT RELEASE (R83, R84). At its fall every active boiler trips with RELEASE_LOST, those in LIGHTING, FIRING or
phase TAKEOVER sent NONE and 0, in any order (R57), a TRIPPED or LOCKED_OUT one evaluates its standing causes, of which
the low input is one (R80), and no permit stays open; PLANT_RELEASE_LOST is raised, the BOILER_TRIP of every boiler that
trips or whose marker was clear, and the BOILER_LOCKOUT of every boiler that locks out, where the table has room, and no
other entry changes. At its rise every TRIPPED or LOCKED_OUT boiler evaluates its standing causes (R80 to R82): one in
AUTO_RESTART whose causes have gone enters PURGE for its run request, or OFF; one in LATCHED mode stays TRIPPED while
its entry stands; a LOCKED_OUT one stays so; the others are not affected. The cause of PLANT_RELEASE_LOST ends, and each
BOILER_TRIP entry follows its boiler's evaluation. -/
def Obligations.PlantReleaseEdges : Prop :=
  let trip (b : Boiler) : ConditionKey := { cls := .boilerTrip, source := b.val + 1 }
  let lockout (b : Boiler) : ConditionKey := { cls := .boilerLockout, source := b.val + 1 }
  let releaseLost : ConditionKey := { cls := .plantReleaseLost, source := 1 }
  let latchOf (c : BoilerConfig) : LatchMode := if c.restart = .latched then .latching else .selfClearing
  let stopped (q : Sequencer) : Prop := q.state = .tripped ∨ q.state = .lockedOut
  ∀ s : State, s.working →
    (s.plantRelease = true → ∃ t, exec .plantReleaseFall s = .next t ∧ t.plantRelease = false ∧
      (∀ b : Boiler, (s.boilers[b]).state = .off → t.boilers[b] = s.boilers[b]) ∧
      (∀ (b : Boiler) (c : BoilerConfig), (s.boilers[b]).state.isActive = true → s.cfg.boilers[b] = some c →
        Tripped s t b .releaseLost c.tripLimit) ∧
      (∀ b : Boiler, stopped s.boilers[b] → t.boilers[b] = { s.boilers[b] with marker := true }) ∧
      NoneFramesTaken s t s.burning ∧
      (s.PermitsLegal → ∀ b : Boiler, (t.boilers[b]).gasPermit = false ∧ (t.boilers[b]).auxPermit = false) ∧
      (let tripping := (List.finRange 8).filter fun b =>
          decide ((s.boilers[b]).state ≠ .off ∧ (stopped s.boilers[b] → (s.boilers[b]).marker = false))
       let locking := (List.finRange 8).filter fun b =>
          decide ((s.boilers[b]).state.isActive = true ∧ (t.boilers[b]).state = .lockedOut)
       let told := releaseLost :: (tripping.map trip ++ locking.map lockout)
       s.ConditionsLegal → s.HasRoom told →
        t.entryOf releaseLost = (s.raise .plantReleaseLost 1).entryOf releaseLost ∧ t.Reported .plantReleaseLost 1 ∧
        (∀ b ∈ tripping, ∀ c, s.cfg.boilers[b] = some c →
          t.entryOf (trip b) = (s.raiseWith (trip b) (latchOf c)).entryOf (trip b) ∧ t.Reported .boilerTrip (b.val + 1)) ∧
        (∀ b ∈ locking, t.entryOf (lockout b) = (s.raise .boilerLockout (b.val + 1)).entryOf (lockout b) ∧
          t.Reported .boilerLockout (b.val + 1)) ∧
        ∀ key, key ∉ told → t.entryOf key = s.entryOf key) ∧
      ((∀ b : Boiler, (s.boilers[b]).state = .off) →
        t = ({ s with plantRelease := false } : State).raise .plantReleaseLost 1)) ∧
    (s.plantRelease = false → ∃ t, exec .plantReleaseRise s = .next t ∧ t.plantRelease = true ∧
      (∀ b : Boiler, (s.boilers[b]).state ≠ .tripped → (s.boilers[b]).state ≠ .lockedOut →
        t.boilers[b] = s.boilers[b]) ∧
      (∀ (b : Boiler) (c : BoilerConfig) (i : Indications) (f : Fuel), (s.boilers[b]).state = .tripped →
        (s.boilers[b]).marker = true → s.cfg.boilers[b] = some c → c.restart = .autoRestart →
        s.indicated (.boilerStatus b) = some i → i.tripDemand = false → i.localControl = false →
        (s.boilers[b]).run = some f →
        (t.boilers[b]).state = .purge ∧ (t.boilers[b]).run = some f ∧ (t.boilers[b]).marker = false ∧
          (t.boilers[b]).purgeDue = some (max (s.osc + c.purge) ((s.boilers[b]).lastClose + c.interval))) ∧
      (let risen : State := { s with plantRelease := true }
       let caused (b : Boiler) : Bool := (s.indicated (.boilerStatus b)).elim true (·.tripDemand)
       let raising := (List.finRange 8).filter fun b =>
          decide (stopped s.boilers[b] ∧ (s.boilers[b]).marker = false ∧ caused b = true)
       (∀ (b : Boiler) (c : BoilerConfig), stopped s.boilers[b] → s.cfg.boilers[b] = some c →
          (risen.standingCause b = caused b ∧ ∃ v, CausesEvaluated risen v b c ∧ t.boilers[b] = v.boilers[b])) ∧
        (s.ConditionsLegal → s.HasRoom (raising.map trip) →
          t.entryOf releaseLost = (s.endCause .plantReleaseLost 1).entryOf releaseLost ∧
          ∀ (b : Boiler) (c : BoilerConfig), stopped s.boilers[b] → s.cfg.boilers[b] = some c →
            t.entryOf (trip b) =
              (if (s.boilers[b]).marker = false ∧ caused b = true then s.raiseWith (trip b) (latchOf c)
                else if (s.boilers[b]).marker = true ∧ caused b = false then s.endCause .boilerTrip (b.val + 1)
                else s).entryOf (trip b))) ∧
      ((∀ b : Boiler, (s.boilers[b]).state = .off) →
        t = ({ s with plantRelease := true } : State).endCause .plantReleaseLost 1))

/-! ### Export schedule and settlement -/

/-- Submit Nomination and Withdraw Nomination, with their outcomes in the order of R91 and R92. That these numbered
outcomes also answer a request for the open interval's own start, its gate again to come after small backward steps or,
for a withdrawal, the start off the grid of a new interval length or local offset, is the model's choice (log entry
39). The grid that a start is checked against while the clock is INVALID: log entry 46; that a start above the last
clock reading counts as one: log entry 48. -/
def Obligations.NominationRequests : Prop :=
  ∀ (s : State) (start energy : Word), s.working → s.que.QueuesLegal →
    let gatePassed := s.clock.valid = false ∨ (start.toNat : Int) - 60 * s.cfg.contract.lead ≤ s.clock.reading
    let held := ∃ m ∈ s.que.nominations, m.start = start.toNat
    (¬ OnGrid s.cfg.intervalSeconds s.clock.offset start.toNat →
      exec (.submitNomination start energy) s = .next (s.refusedWith .badField) ∧
      exec (.withdrawNomination start) s = .next (s.refusedWith .badField)) ∧
    (1000000 < energy.toNat → exec (.submitNomination start energy) s = .next (s.refusedWith .badField)) ∧
    (OnGrid s.cfg.intervalSeconds s.clock.offset start.toNat → gatePassed →
      exec (.withdrawNomination start) s = .next (s.refusedWith .tooLate) ∧
      (energy.toNat ≤ 1000000 → exec (.submitNomination start energy) s = .next (s.refusedWith .tooLate))) ∧
    (OnGrid s.cfg.intervalSeconds s.clock.offset start.toNat → ¬ gatePassed →
      (¬ held → exec (.withdrawNomination start) s = .next (s.refusedWith .notFound)) ∧
      (held → exec (.withdrawNomination start) s = .next (s.withQueues { s.que with
        nominations := s.que.nominations.filter fun m => decide (m.start ≠ start.toNat) }).answeredOk) ∧
      (energy.toNat ≤ 1000000 →
        (¬ held → s.que.nominations.length = 96 →
          exec (.submitNomination start energy) s = .next (s.refusedWith .full)) ∧
        (held ∨ s.que.nominations.length < 96 →
          ∃ t, exec (.submitNomination start energy) s = .next t ∧ t.hlu = s.answeredOk.hlu ∧
            t.que = { s.que with nominations := t.que.nominations } ∧
            (t.que.nominations.Pairwise fun a b => a.start < b.start) ∧
            ∀ m, m ∈ t.que.nominations ↔
              m = { start := start.toNat, energy := energy.toNat } ∨ m ∈ s.que.nominations ∧ m.start ≠ start.toNat)))

/-- Submit Curtailment, with its outcomes in the order of R95: an order with its start to come is PENDING in the lowest
empty slot; one whose start has come starts at the request, ACTIVE if it is an emergency or none is in force: an
emergency suspends the ordinary order in force, or removes the emergency (R96), every other order stays, and the limit
in force is the smaller of the contract limit and the ACTIVE order's (R101). Cancel Curtailment (R100): an order not in
force just leaves; with the one in force the choice of R98 follows: the SUSPENDED and WAITING orders whose end has
passed leave, but not under an INVALID clock, a SUSPENDED order that is left comes back, and otherwise the WAITING one
of earliest start, lowest slot first; the others stay as they are. That a start or an end above the last clock reading
is accepted is the model's choice (log entry 48). -/
def Obligations.CurtailmentRequestsByCase : Prop :=
  (∀ (s : State) (ref limit start finish : Word) (kind : Byte), s.working →
    let last := if finish = 0xFFFFFFFF then none else some finish.toNat
    let bad := 1 < kind.toNat ∨ 2000000 < limit.toNat ∨ (∃ e, last = some e ∧ e ≤ start.toNat) ∨
      ∃ (n : CurtailmentSlot) (o : CurtailmentOrder), s.que.orders[n] = some o ∧ o.reference = ref.toNat
    let late := s.clock.valid = false ∨ ∃ e, last = some e ∧ e ≤ s.clock.reading
    (bad → exec (.submitCurtailment ref kind limit start finish) s = .next (s.refusedWith .badField)) ∧
    (¬ bad → late → exec (.submitCurtailment ref kind limit start finish) s = .next (s.refusedWith .tooLate)) ∧
    (¬ bad → ¬ late → s.emptySlot = none →
      exec (.submitCurtailment ref kind limit start finish) s = .next (s.refusedWith .full)) ∧
    ∀ (n : CurtailmentSlot) (k : OrderKind), ¬ bad → ¬ late → s.emptySlot = some n →
      kind = 0 ∧ k = .ordinary ∨ kind = 1 ∧ k = .emergency →
      let o : CurtailmentOrder :=
        { reference := ref.toNat, kind := k, limit := limit.toNat, start := start.toNat, finish := last, state := .pending }
      (s.clock.reading < start.toNat → exec (.submitCurtailment ref kind limit start finish) s =
        .next ((s.withQueues { s.que with orders := s.que.orders.set n (some o) }).answered
          { status := .ok, contents := [BitVec.ofNat 8 (n.val + 1)] })) ∧
      (start.toNat ≤ s.clock.reading → ∃ t, exec (.submitCurtailment ref kind limit start finish) s = .next t ∧
        t.hlu.answer = some { status := .ok, contents := [BitVec.ofNat 8 (n.val + 1)] } ∧
        (k = .emergency → EmergencyStarted s t n { o with start := s.clock.reading }) ∧
        (k = .ordinary → t.que.orders = s.que.orders.set n (some { o with
          start := s.clock.reading
          state := if s.activeSlot = none then .active else .waiting })) ∧
        (s.que.OrdersLegal → t.LimitFollows))) ∧
  (∀ (s : State) (ref : Word), s.working → s.que.OrdersLegal →
    ((∀ (n : CurtailmentSlot) (o : CurtailmentOrder), s.que.orders[n] = some o → o.reference ≠ ref.toNat) →
      exec (.cancelCurtailment ref) s = .next (s.refusedWith .notFound)) ∧
    ∀ (n : CurtailmentSlot) (o : CurtailmentOrder), s.que.orders[n] = some o → o.reference = ref.toNat →
      (o.state ≠ .active → exec (.cancelCurtailment ref) s =
        .next (s.withQueues { s.que with orders := s.que.orders.set n none }).answeredOk) ∧
      (o.state = .active → ∃ t, exec (.cancelCurtailment ref) s = .next t ∧ t.hlu = s.answeredOk.hlu ∧
        ActiveRemoved s t n ∧
        ((∀ (m : CurtailmentSlot) (a : CurtailmentOrder), s.que.orders[m] = some a → m ≠ n → a.state = .pending) →
          t.que.orders = s.que.orders.set n none ∧ t.esu.effLimit = s.cfg.contract.limit)))

/-- The start of an order that has come (R96, R97): an emergency suspends the ordinary order in force, or supersedes
the emergency, and is ACTIVE; an ordinary order is ACTIVE only where none is in force, and else WAITING; the limit in
force is the smaller of the contract limit and the ACTIVE order's (R101). The end of an order that has come (R98, R99):
the ACTIVE one leaves, and with it the SUSPENDED and WAITING orders whose end has passed (R98 i); a SUSPENDED order
that is left takes its place, or else the WAITING one of earliest start, lowest slot first; a SUSPENDED or WAITING one
at its own end just leaves. When an expiry is due: log entry 7. -/
def Obligations.OrderStartsAndEnds : Prop :=
  (∀ (s : State) (n : CurtailmentSlot) (o : CurtailmentOrder), s.working → s.clock.valid = true →
    s.que.orders[n] = some o → o.state = .pending →
    (s.clock.reading < o.start → exec (.emergencyStart n) s = .next s ∧ exec (.ordinaryStart n) s = .next s) ∧
    (o.start ≤ s.clock.reading → o.kind = .emergency → ∃ t, exec (.emergencyStart n) s = .next t ∧
      EmergencyStarted s t n o) ∧
    (o.start ≤ s.clock.reading → o.kind = .ordinary → ∃ t, exec (.ordinaryStart n) s = .next t ∧
      t.que.orders = s.que.orders.set n (some { o with state := if s.activeSlot = none then .active else .waiting }) ∧
      (s.que.OrdersLegal → t.LimitFollows))) ∧
  (∀ (s : State) (n : CurtailmentSlot) (o : CurtailmentOrder) (e : Nat), s.working → s.clock.valid = true →
    s.que.OrdersLegal → s.que.orders[n] = some o → o.finish = some e →
    (o.state = .active →
      (s.clock.reading < e → exec .activeOrderEnd s = .next s) ∧
      (e ≤ s.clock.reading → ∃ t, exec .activeOrderEnd s = .next t ∧ ActiveRemoved s t n)) ∧
    (o.state = .suspended ∨ o.state = .waiting →
      (s.clock.reading < e → exec (.inactiveOrderEnd n) s = .next s) ∧
      (e ≤ s.clock.reading → exec (.inactiveOrderEnd n) s =
        .next (s.withQueues { s.que with orders := s.que.orders.set n none }))))

/-- Set Export Contract (R88) and the gate timer (R93): a contract within the ranges of section 5.1 is stored and takes
effect at once, any other is BAD_FIELD; a gate that passes without a nomination raises NOMINATION_MISSING, once (the
gate second: log entry 8). Which intervals are missing, by R93's three bullets (that one whose gate comes to lie ahead
again is missing no longer: log entry 40). -/
def Obligations.ContractAndGate : Prop :=
  (∀ s : State,
    (s.que.interval = none → s.missingStarts = []) ∧
    ∀ iv, s.que.interval = some iv → 0 < s.cfg.contract.length → ∀ start : Int,
      start ∈ s.missingStarts ↔ start - 60 * s.cfg.contract.lead ≤ s.clock.reading ∧
        (start = iv.start ∧ s.que.current = none ∨
          (∃ n : Nat, start = s.esu.intervalEnd + n * s.cfg.intervalSeconds) ∧
            ∀ m ∈ s.que.nominations, (m.start : Int) ≠ start)) ∧
  ∀ s : State, s.working →
    (∀ (limit : Word) (length lead : Byte),
      let c : Contract := { limit := limit.toNat, length := length.toNat, lead := lead.toNat }
      let fits := c.limit ≤ 2000000 ∧ (c.length = 5 ∨ c.length = 15 ∨ c.length = 30 ∨ c.length = 60) ∧ c.lead ≤ 120
      (¬ fits → exec (.setExportContract limit length lead) s = .next (s.refusedWith .badField)) ∧
      (fits →
        (c.length ≠ s.cfg.contract.length → s.que.nominations ≠ [] →
          exec (.setExportContract limit length lead) s = .next (s.refusedWith .busy)) ∧
        (c.length = s.cfg.contract.length ∨ s.que.nominations = [] →
          ∃ t, exec (.setExportContract limit length lead) s = .next t ∧ t.cfg = { s.cfg with contract := c } ∧
            t.hlu = s.answeredOk.hlu ∧ t.que.orders = s.que.orders ∧ t.que.nominations = s.que.nominations ∧
            t.esu.missing = !t.missingStarts.isEmpty ∧
            (s.activeSlot = none → t.esu.effLimit = c.limit) ∧
            (c.length = s.cfg.contract.length → t.esu.intervalEnd = s.esu.intervalEnd) ∧
            (c.length ≠ s.cfg.contract.length → s.que.interval.isSome →
              FirstBoundaryAfter (60 * c.length) s.clock.offset s.clock.reading t.esu.intervalEnd)))) ∧
    (s.clock.valid = true → s.que.interval.isSome →
      let next : Int := s.clock.reading + 60 * s.cfg.contract.lead
      s.esu.intervalEnd ≤ next → OnGrid s.cfg.intervalSeconds s.clock.offset next →
      OnGrid s.cfg.intervalSeconds s.clock.offset s.esu.intervalEnd → 0 < s.cfg.contract.length →
      (∀ m ∈ s.que.nominations, (m.start : Int) ≠ next) →
      (s.esu.missing = false → exec .gateExpiry s =
        .next ({ s with esu := { s.esu with missing := true } }.raise .nominationMissing 1)) ∧
      (s.esu.missing = true → exec .gateExpiry s = .next s))

/-- The boundary (R89, R90, R106, R110, R111): at the open interval's end its record joins the queue and the next
interval opens there, taking its nomination from the queue. A boundary during the meter wait first ends the wait, as at
the end of its 60 s: a gap record is completed from its computed figure and queued before it, and the interval that
closes is an estimated one (R116; a large step: O22, the wrap: O19). The end of the meter wait without a reading (R116):
a gap record is completed from its computed figure and queued, the new interval estimated; without one, the stored
interval stands. Each record has its imbalance, its curtailed seconds up to its length and its least limit (R110); what
a publication of the effective limit adds to them (R109). A record that finds 192 in the queue drops the oldest and
reports SETTLEMENT_OVERRUN, which stands LATCHED where the table has room, its raise count one higher for each record
dropped; any other leaves that condition alone (R112). When an expiry is due: log entry 7; what the region stores during
the wait: log entry 19. -/
def Obligations.BoundaryAndMeterWait : Prop :=
  let overrun : ConditionKey := { cls := .settlementOverrun, source := 1 }
  let dropping (s t : State) (dropped : Nat) (others : List ConditionKey) : Prop := s.ConditionsLegal →
    (dropped = 0 → t.entryOf overrun = s.entryOf overrun) ∧
    (0 < dropped → s.HasRoom (overrun :: others) → s.ReportedAgain t overrun dropped)
  (∀ s : State, s.working → s.clock.valid = false ∨ s.que.interval = none → exec .boundaryExpiry s = .next s) ∧
  (∀ (s : State) (iv : OpenInterval), s.working → s.clock.valid = true → s.que.interval = some iv →
    0 < s.cfg.contract.length →
    ((s.clock.reading : Int) < s.esu.intervalEnd → exec .boundaryExpiry s = .next s) ∧
    (s.esu.intervalEnd ≤ s.clock.reading → ∃ t next r, exec .boundaryExpiry s = .next t ∧
      t.que.interval = some next ∧
      s.Opens t next s.esu.intervalEnd { timeStep := false, powerGap := false, steamOver := false } ∧
      t.esu.effLimit = s.esu.effLimit ∧
      s.IntervalClosed t iv s.esu.intervalEnd false r ∧ r.minLimit = iv.minLimit ∧
      dropping s t
        ((if s.que.settlements.length < 192 then 0 else 1) +
          if s.gapHeld.isSome ∧ 191 ≤ s.que.settlements.length then 1 else 0)
        [{ cls := .nominationMissing, source := 1 }])) ∧
  ((∀ s : State, s.working → s.esu.wait = none → exec .meterWaitExpiry s = .next s) ∧
    ∀ (s : State) (w : MeterWait), s.working → s.esu.wait = some w →
      (s.osc < w.due → exec .meterWaitExpiry s = .next s) ∧
      (w.due ≤ s.osc → w.gap = none →
        exec .meterWaitExpiry s = .next ({ s with esu := { s.esu with wait := none } }.withQueues s.que)) ∧
      ∀ g, w.due ≤ s.osc → w.gap = some g →
        ∃ t, exec .meterWaitExpiry s = .next t ∧ t.esu = { s.esu with wait := none } ∧
          t.que = { s.que with
            interval := s.que.interval.map fun iv => { iv with reference := none, estimated := true }
            settlements := joinedBy s.que.settlements (g.completed s.que.nextSettlement none)
            nextSettlement := s.que.nextSettlement + 1 } ∧
          dropping s t (if s.que.settlements.length < 192 then 0 else 1) []) ∧
  ∀ s : State,
    let t := s.publishLimit
    let contract := s.cfg.contract.limit
    t.esu.effLimit = s.limitNow ∧
    (s.que.interval = none → t.esu.curtailedSince = s.esu.curtailedSince ∧ t.que = s.que) ∧
    ∀ iv, s.que.interval = some iv →
      (s.limitNow < contract → t.esu.curtailedSince = some (s.esu.curtailedSince.getD s.osc) ∧
        t.que = { s.que with interval := some { iv with minLimit := min iv.minLimit s.limitNow } }) ∧
      (contract ≤ s.limitNow → t.esu.curtailedSince = none ∧
        t.que = { s.que with interval := some { iv with
          minLimit := min iv.minLimit s.limitNow
          curtailed := iv.curtailed + s.esu.curtailedSince.elim 0 fun t0 => s.osc - t0 } })

/-- Fetch Settlement Record and Fetch Bill (R113, R150): EMPTY, or OK with the oldest record or bill, whole, field by
field as 12.5 and 12.6 lay it out; nothing changes. -/
def Obligations.FetchesReturnTheOldest : Prop :=
  ∀ s : State, s.working →
    (s.que.settlements = [] → exec .fetchSettlementRecord s = .next (s.refusedWith .empty)) ∧
    (∀ r rest, s.que.settlements = r :: rest →
      exec .fetchSettlementRecord s = .next (s.answered { status := .ok, contents := r.bytes }) ∧
        carries r.items r.bytes = true) ∧
    (s.que.bills = [] → exec .fetchBill s = .next (s.refusedWith .empty)) ∧
    ∀ b rest, s.que.bills = b :: rest →
      exec .fetchBill s = .next (s.answered { status := .ok, contents := b.bytes }) ∧ carries b.items b.bytes = true

/-- Release Settlement Record and Release Bill (R114, R151): EMPTY; BAD_FIELD for a number that is not the oldest one's;
else the oldest leaves, and the place of a bill goes to the lowest-numbered closing set that waits. Where that was the
last set to wait, the marker of R149 clears and the cause of BILL_QUEUE_FULL ends; where another waits still, both
stand. -/
def Obligations.ReleasesRemoveTheOldest : Prop :=
  ∀ (s : State) (number : Word), s.working →
    (s.que.settlements = [] → exec (.releaseSettlementRecord number) s = .next (s.refusedWith .empty)) ∧
    (∀ r rest, s.que.settlements = r :: rest →
      (r.sequence ≠ number → exec (.releaseSettlementRecord number) s = .next (s.refusedWith .badField)) ∧
      (r.sequence = number → exec (.releaseSettlementRecord number) s =
        .next (s.withQueues { s.que with settlements := rest }).answeredOk)) ∧
    (s.que.bills = [] → exec (.releaseBill number) s = .next (s.refusedWith .empty)) ∧
    ∀ b rest, s.que.bills = b :: rest →
      (b.sequence ≠ number → exec (.releaseBill number) s = .next (s.refusedWith .badField)) ∧
      (b.sequence = number → s.firstClosing = none →
        exec (.releaseBill number) s = .next (s.withQueues { s.que with bills := rest }).answeredOk) ∧
      (∀ k x, b.sequence = number → s.firstClosing = some k → (s.acc.ledgers[k]).closing = some x → rest.length = 95 →
        ∃ t bill, exec (.releaseBill number) s = .next t ∧ t.hlu = s.answeredOk.hlu ∧ t.que.bills = rest ++ [bill] ∧
          bill.sequence = s.que.nextBill ∧ bill.substation = k ∧ bill.bands = x.bands ∧
          bill.total = (x.bands.toList.map (·.charge)).sum + x.standing ∧
          t.acc.ledgers = s.acc.ledgers.set k { s.acc.ledgers[k] with
            closing := none, issued := (s.acc.ledgers[k]).issued + BitVec.ofInt 64 x.net } ∧
          (s.bu.queueFull = true → (∀ j : Substation, j ≠ k → (s.acc.ledgers[j]).closing = none) →
            t.bu.queueFull = false ∧ t.conditions = (s.endCause .billQueueFull 1).conditions) ∧
          (s.bu.queueFull = false ∨ (∃ j : Substation, j ≠ k ∧ (s.acc.ledgers[j]).closing ≠ none) →
            t.bu = s.bu ∧ t.conditions = s.conditions))

/-! ### Heat substations -/

/-- Configure Substation and Set Substation Service (R118 to R120), by the substation's state; each is BAD_FIELD for a
number outside 1 to 48. The figures of Configure Substation and their ranges (section 7.1, R118) are spelled out. That a
first configuration leaves the state as ACCOUNTS holds it, also where that is not DISCONNECTED, is the model's choice
(log entry 36). -/
def Obligations.SubstationServiceByState : Prop :=
  (∀ (s : State) (v : Byte), s.working → v = 0 ∨ 48 < v.toNat →
    (∀ account group maxRate estimateRate,
      exec (.configureSubstation v account group maxRate estimateRate) s = .next (s.refusedWith .badField)) ∧
    exec (.connect v) s = .next (s.refusedWith .badField) ∧
    exec (.disconnect v) s = .next (s.refusedWith .badField)) ∧
  ∀ (s : State) (v : Byte) (k : Substation), s.working → v.toNat = k.val + 1 →
    let m := s.acc.meters[k]
    let became (x : SubstationAccount) : State := s.withAccounts { s.acc with meters := s.acc.meters.set k x }
    let idle (u : State) : State := { u with hmu := { s.hmu with lastRates := s.hmu.lastRates.set k 0 } }
    (∀ (account : Word) (group : Byte) (maxRate estimateRate : Word),
      group = 0 ∨ 4 < group.toNat ∨ maxRate = 0 ∨ 2000000 < maxRate.toNat ∨ maxRate.toNat < estimateRate.toNat →
      exec (.configureSubstation v account group maxRate estimateRate) s = .next (s.refusedWith .badField)) ∧
    (∀ (account : Word) (group : Byte) (maxRate estimateRate : Word) (g : Fin 4), group.toNat = g.val + 1 →
      1 ≤ maxRate.toNat → maxRate.toNat ≤ 2000000 → estimateRate.toNat ≤ maxRate.toNat →
      let c : SubstationConfig :=
        { account := account.toNat, group := g, staged := g, maxRate := maxRate.toNat, estimateRate := estimateRate.toNat }
      (s.cfg.substations[k] = none → exec (.configureSubstation v account group maxRate estimateRate) s =
        .next (s.withConfig { s.cfg with substations := s.cfg.substations.set k (some c) }).answeredOk) ∧
      ∀ old, s.cfg.substations[k] = some old →
        (c.account ≠ old.account → m.state = .inService ∨ m.state = .estimating →
          exec (.configureSubstation v account group maxRate estimateRate) s = .next (s.refusedWith .busy)) ∧
        (c.account = old.account ∨ m.state = .fresh ∨ m.state = .disconnected →
          exec (.configureSubstation v account group maxRate estimateRate) s = .next (s.withConfig { s.cfg with
            substations := s.cfg.substations.set k (some { c with group := old.group }) }).answeredOk)) ∧
    (s.cfg.substations[k] = none → exec (.connect v) s = .next (s.refusedWith .notFound) ∧
      exec (.disconnect v) s = .next (s.refusedWith .notFound)) ∧
    (s.cfg.substations[k] ≠ none →
      (m.state = .disconnected → m.pendingMark = none →
        exec (.connect v) s = .next (became { m with state := .fresh }).answeredOk ∧
        exec (.disconnect v) s = .next s.answeredOk) ∧
      (m.state = .disconnected → m.pendingMark ≠ none → exec (.connect v) s = .next (s.refusedWith .busy)) ∧
      (m.state = .fresh → exec (.connect v) s = .next s.answeredOk) ∧
      (m.state = .inService ∨ m.state = .estimating → exec (.connect v) s = .next (s.refusedWith .busy)) ∧
      (m.pendingMark ≠ none → exec (.disconnect v) s = .next (s.refusedWith .busy)) ∧
      (m.pendingMark = none → m.state = .fresh ∨ m.state = .inService →
        exec (.disconnect v) s = .next (idle (became { m with state := .disconnected })).answeredOk) ∧
      (m.pendingMark = none → m.state = .estimating → exec (.disconnect v) s = .next
        ((idle (became { m with
          state := .disconnected, gapTotal := 0, remainder := 0, reconciliation := false })).endCause
          .substationEstimating (k.val + 1)).answeredOk))

/-- Resolve Meter Jump (R126, R127): out of range BAD_FIELD; without a dispute NOT_FOUND; ACCEPT books the disputed
increment in the band in force, split by the recovered fraction (R124), or reconciles it against the gap's estimates,
REJECT sets it aside; by either the dispute ends and its METER_JUMP entry is removed. That under an INVALID clock the
reconciliation, and an accepted increment of 0 kWh, set CLOCK_INVALID is the model's reading (log entry 26, DEDUCED).
The band in force, by formula: O54. -/
def Obligations.ResolveMeterJumpByAction : Prop :=
  (∀ (s : State) (v : Byte), s.working → v = 0 ∨ 48 < v.toNat →
    exec (.accept v) s = .next (s.refusedWith .badField) ∧ exec (.reject v) s = .next (s.refusedWith .badField)) ∧
  ∀ (s : State) (v : Byte) (k : Substation), s.working → v.toNat = k.val + 1 →
    let m := s.acc.meters[k]
    let l := s.acc.ledgers[k]
    (m.pendingMark = none → exec (.accept v) s = .next (s.refusedWith .notFound) ∧
      exec (.reject v) s = .next (s.refusedWith .notFound)) ∧
    ∀ (mark ref : MeterMark), m.pendingMark = some mark → m.reference = some ref →
      mark.reading < 100000000 → ref.reading < 100000000 →
      let increment : Nat := (((mark.reading : Int) - ref.reading) % 100000000).toNat
      let resolved : SubstationAccount :=
        { m with
          reference := some mark, pendingMark := none, reconciliation := false,
          gapTotal := if m.reconciliation then 0 else m.gapTotal }
      let removed (t : State) : Prop := s.ConditionsLegal →
        (∀ e, s.entryOf { cls := .meterJump, source := k.val + 1 } = some e → e.state = .active) →
        t.entryOf { cls := .meterJump, source := k.val + 1 } = none
      let band := s.bookingBand k
      let figures := l.current.bands[band]
      let part := increment * s.dsp.fraction / 1000
      (∃ t, exec (.accept v) s = .next t ∧ t.hlu = s.answeredOk.hlu ∧
        t.acc = { s.acc with
          meters := s.acc.meters.set k resolved
          ledgers := s.acc.ledgers.set k (if m.reconciliation then
              l.entered band { figures with reconciled := figures.reconciled + (increment - m.gapTotal) }
                (l.booked + BitVec.ofInt 64 (increment - m.gapTotal)) s.clock.valid
            else
              l.entered band { figures with
                  recovered := figures.recovered + part, auxiliary := figures.auxiliary + (increment - part) }
                (l.booked + BitVec.ofNat 64 increment) s.clock.valid) } ∧ removed t) ∧
      ∃ t, exec (.reject v) s = .next t ∧ t.hlu = s.answeredOk.hlu ∧
        t.acc = { s.acc with
          meters := s.acc.meters.set k resolved
          ledgers := s.acc.ledgers.set k { l with
            current := { l.current with rejected := l.current.rejected + increment } } } ∧ removed t

/-- The estimation minute (R129) and the start-up watch (R134): each ESTIMATING substation gains its rate in sixtieths
with the remainder carried, booked in the band in force and split by the recovered fraction (R124), and counted in the
band's est kWh; at the watch each IN_SERVICE substation without a usable point enters ESTIMATING and is reported where
the table has room (R128). The band in force, by formula: O54. When a minute or the watch is due: log entries 7 and 25.
-/
def Obligations.EstimationRuns : Prop :=
  ∀ s : State, s.working →
    (s.hmu.minuteDue = false → exec .estimationMinute s = .next s) ∧
    (s.hmu.minuteDue = true → ∃ t, exec .estimationMinute s = .next t ∧ t.hmu = { s.hmu with minuteDue := false } ∧
      ∀ k : Substation,
        let m := s.acc.meters[k]
        ((s.acc.meters[k]).state ≠ .estimating →
          t.acc.meters[k] = s.acc.meters[k] ∧ t.acc.ledgers[k] = s.acc.ledgers[k]) ∧
        (∀ c, (s.acc.meters[k]).state = .estimating → s.cfg.substations[k] = some c →
          t.acc.meters[k] = { m with
            remainder := (m.remainder + c.estimateRate) % 60
            gapTotal := m.gapTotal + (m.remainder + c.estimateRate) / 60 } ∧
          let n := (m.remainder + c.estimateRate) / 60
          let l := s.acc.ledgers[k]
          let marked : Ledger :=
            { l with current := { l.current with flags := { l.current.flags with estimated := true } } }
          let figures := l.current.bands[s.bookingBand k]
          let part := n * s.dsp.fraction / 1000
          t.acc.ledgers[k] = if n = 0 then marked else
            marked.entered (s.bookingBand k)
              { figures with
                recovered := figures.recovered + part
                auxiliary := figures.auxiliary + (n - part)
                estimated := figures.estimated + n }
              (l.booked + BitVec.ofNat 64 n) s.clock.valid)) ∧
    (∀ due, s.hmu.watchDue = some due → s.osc < due → exec .startUpWatchExpiry s = .next s) ∧
    ∀ due, s.hmu.watchDue = some due → due ≤ s.osc → ∃ t, exec .startUpWatchExpiry s = .next t ∧
      t.hmu.watchDue = none ∧ t.acc.ledgers = s.acc.ledgers ∧
      (let unwatched : List Substation := (List.finRange 48).filter fun k =>
          decide ((s.acc.meters[k]).state = .inService ∧ s.usable (.heatMeter k) = false)
       s.ConditionsLegal →
       s.HasRoom (unwatched.map fun k => { cls := .substationEstimating, source := k.val + 1 }) →
       ∀ k ∈ unwatched, t.Reported .substationEstimating (k.val + 1)) ∧
      ∀ k : Substation,
        ((s.acc.meters[k]).state = .inService → s.usable (.heatMeter k) = false →
          t.acc.meters[k] = { s.acc.meters[k] with state := .estimating, remainder := 0 } ∧ t.hmu.lastRates[k] = 0) ∧
        ((s.acc.meters[k]).state ≠ .inService ∨ s.usable (.heatMeter k) = true →
          t.acc.meters[k] = s.acc.meters[k] ∧ t.hmu.lastRates[k] = s.hmu.lastRates[k])

/-- A reading that arrives at a substation (R18), by its state (R121): ignored while DISCONNECTED; the first one of a
NEW substation is its reference. While IN_SERVICE without a dispute (R122, R124): within the plausibility limit its
increment is booked in the band in force, split by the recovered fraction so that no kWh is lost; above it nothing is
booked, the dispute opens and METER_JUMP is raised; with a dispute it replaces the pending reading (R123). While
ESTIMATING it is the meter's return (R130): the gap's reconciliation is booked, or waits for the dispute that opens or
is open. The band in force: under a VALID clock the one the lookup finds, the entry for the local hour in the current
table's schedule of the local date's type, for the substation's group, group 1 where it is not configured (R139); under
an INVALID one band 1 (R124). That the reconciliation sets CLOCK_INVALID under an INVALID clock is the model's reading
(log entry 26, DEDUCED). -/
def Obligations.PlausibleReadingsAreBooked : Prop :=
  (∀ (s : State) (k : Substation) (reading rate time : Nat),
    let m := s.acc.meters[k]
    let mark : MeterMark := { reading := reading, time := time }
    let t := s.arrival (.heatMeter k) (.meter reading rate) time
    let became (x : SubstationAccount) : Prop :=
      t.acc = { s.acc with meters := s.acc.meters.set k x } ∧
        t.hmu = { s.hmu with lastRates := s.hmu.lastRates.set k rate }
    (m.state = .disconnected → t = s) ∧
    (m.state = .fresh → became { m with state := .inService, reference := some mark } ∧ t.acts = s.acts) ∧
    (m.state = .inService → m.pendingMark ≠ none → became { m with pendingMark := some mark } ∧ t.acts = s.acts) ∧
    (m.state = .estimating → m.pendingMark ≠ none →
      became { m with state := .inService, remainder := 0, reconciliation := true, pendingMark := some mark } ∧
        t.acts = s.acts ++ [.endCause { cls := .substationEstimating, source := k.val + 1 }])) ∧
  ((∀ s : State, s.clock.valid = false → ∀ k : Substation, s.bookingBand k = 0) ∧
    ∀ (s : State) (d : Date), s.clock.valid = true → s.clock.reading ≤ 4291747199 → -720 ≤ s.clock.offset →
      s.clock.offset ≤ 840 → s.LocalDate d → ∀ k : Substation, s.bookingBand k = s.lookedUpBand k d) ∧
  ∀ (s : State) (k : Substation) (c : SubstationConfig) (ref : MeterMark) (reading rate time : Nat),
    s.cfg.substations[k] = some c → (s.acc.meters[k]).pendingMark = none →
    (s.acc.meters[k]).reference = some ref → reading < 100000000 → ref.reading < 100000000 → s.dsp.fraction ≤ 1000 →
    let m := s.acc.meters[k]
    let l := s.acc.ledgers[k]
    let mark : MeterMark := { reading := reading, time := time }
    let increment : Nat := (((reading : Int) - ref.reading) % 100000000).toNat
    let limit := c.maxRate * (time - ref.time) / 3600 + 1
    let band := s.bookingBand k
    let figures := l.current.bands[band]
    let part := increment * s.dsp.fraction / 1000
    let t := s.arrival (.heatMeter k) (.meter reading rate) time
    (m.state = .inService →
      t.hmu = { s.hmu with lastRates := s.hmu.lastRates.set k rate } ∧
      (increment ≤ limit → t.acts = s.acts ∧
        t.acc.meters = s.acc.meters.set k { m with reference := some mark } ∧
        (increment = 0 → t.acc.ledgers = s.acc.ledgers) ∧
        (0 < increment → t.acc.ledgers = s.acc.ledgers.set k
          (l.entered band { figures with
              recovered := figures.recovered + part, auxiliary := figures.auxiliary + (increment - part) }
            (l.booked + BitVec.ofNat 64 increment) s.clock.valid)) ∧
        (t.acc.ledgers[k]).current.net = l.current.net + increment) ∧
      (limit < increment →
        t.acc = { s.acc with meters := s.acc.meters.set k { m with pendingMark := some mark } } ∧
        t.acts = s.acts ++ [.raise { cls := .meterJump, source := k.val + 1 } .latching])) ∧
    (m.state = .estimating →
      t.hmu = { s.hmu with lastRates := s.hmu.lastRates.set k rate } ∧
      let ended : ConditionAct := .endCause { cls := .substationEstimating, source := k.val + 1 }
      (increment ≤ limit → t.acts = s.acts ++ [ended] ∧
        t.acc = { s.acc with
          meters := s.acc.meters.set k { m with
            state := .inService, remainder := 0, reconciliation := false, gapTotal := 0, reference := some mark }
          ledgers := s.acc.ledgers.set k (l.entered band
            { figures with reconciled := figures.reconciled + (increment - m.gapTotal) }
            (l.booked + BitVec.ofInt 64 (increment - m.gapTotal)) s.clock.valid) }) ∧
      (limit < increment →
        t.acts = s.acts ++ [ended, .raise { cls := .meterJump, source := k.val + 1 } .latching] ∧
        t.acc = { s.acc with meters := s.acc.meters.set k { m with
          state := .inService, remainder := 0, reconciliation := true, pendingMark := some mark } }))

/-! ### Tariffs and billing -/

/-- Stage Tariff, Cancel Staged Tariff and Set Holidays (R136 to R138): the table of section 8.1 with its ranges, the
calendar items with theirs: at most 32 real dates from 2000-01-01 to 2135-12-31, in strictly ascending order (R138). -/
def Obligations.TariffRequestsByCase : Prop :=
  ∀ s : State, s.working →
    (∀ table : RawTariff,
      let bands (l : List Byte) : Prop := l.length = 24 ∧ ∀ b ∈ l, 1 ≤ b.toNat ∧ b.toNat ≤ 4
      let prices (l : List Word) : Prop := l.length = 4 ∧ ∀ p ∈ l, p.toNat ≤ 1000000
      let groups : List RawGroup := [table.group1, table.group2, table.group3, table.group4]
      let fits := (∀ g ∈ groups, bands g.workday ∧ bands g.rest ∧ prices g.recovered ∧ prices g.auxiliary ∧
          g.standing.toNat ≤ 100000000) ∧
        (1 ≤ table.closeDay.toNat ∧ table.closeDay.toNat ≤ 28) ∧ table.closeHour.toNat ≤ 23
      (¬ fits → exec (.stageTariff table) s = .next (s.refusedWith .badField)) ∧
      (fits → ∃ x : Tariff, exec (.stageTariff table) s =
          .next (s.withConfig { s.cfg with pendingTariff := some x }).answeredOk ∧
        x.closeDay = table.closeDay.toNat ∧ x.closeHour = table.closeHour.toNat ∧
        ∀ (n : Fin 4) (g : RawGroup), groups[n.val]? = some g →
          (x.groups[n]).workday.toList.map (fun b => b.val + 1) = g.workday.map BitVec.toNat ∧
          (x.groups[n]).rest.toList.map (fun b => b.val + 1) = g.rest.map BitVec.toNat ∧
          (x.groups[n]).recovered.toList = g.recovered.map BitVec.toNat ∧
          (x.groups[n]).auxiliary.toList = g.auxiliary.map BitVec.toNat ∧ (x.groups[n]).standing = g.standing.toNat)) ∧
    (s.cfg.pendingTariff = none → exec .cancelStagedTariff s = .next (s.refusedWith .notFound)) ∧
    (s.cfg.pendingTariff ≠ none → exec .cancelStagedTariff s =
      .next (s.withConfig { s.cfg with pendingTariff := none }).answeredOk) ∧
    ∀ (mask : Byte) (dates : List RawDate),
      let february (y : Nat) : Nat := if y % 4 = 0 ∧ (y % 100 ≠ 0 ∨ y % 400 = 0) then 29 else 28
      let monthDays (y : Nat) : List Nat := [31, february y, 31, 30, 31, 30, 31, 31, 30, 31, 30, 31]
      let real (d : RawDate) : Prop := (2000 ≤ d.year.toNat ∧ d.year.toNat ≤ 2135) ∧
        (1 ≤ d.month.toNat ∧ d.month.toNat ≤ 12) ∧ 1 ≤ d.day.toNat ∧
        ∃ days, (monthDays d.year.toNat)[d.month.toNat - 1]? = some days ∧ d.day.toNat ≤ days
      let earlier (a b : RawDate) : Prop := a.year.toNat < b.year.toNat ∨
        a.year = b.year ∧ (a.month.toNat < b.month.toNat ∨ a.month = b.month ∧ a.day.toNat < b.day.toNat)
      let fits := dates.length ≤ 32 ∧ (∀ d ∈ dates, real d) ∧ dates.Pairwise earlier
      (¬ fits → exec (.setHolidays mask dates) s = .next (s.refusedWith .badField)) ∧
      (fits → exec (.setHolidays mask dates) s = .next (s.withConfig { s.cfg with
          restMask := mask.setWidth 7
          holidays := dates.map fun d => { year := d.year.toNat, month := d.month.toNat, day := d.day.toNat }
        }).answeredOk)

/-- Close Period Now and the close expiry (R141 to R146): BUSY a second time in one second; else one period, or one for
each close time passed, ends; every current set starts afresh, and the pending table and the staged groups come into
force. Then bills are issued while the queue has room, lowest-numbered substation first, each with the next number
(R148), and where a set still waits the marker of BILL_QUEUE_FULL is set and the condition raised, once (R149). The
close times due are the local times at minute 0 and second 0 of the close hour on the close day of each month that lie
after the mark, at or before the present local time (R141). A close expiry counts by the table in force before it;
where the staged table that it brings into force has a close time after its end, at or before this second, that one is
counted at once, and is a second close of the same event (R146, log entry 23). The mark of a close at this second: log
entry 24; when the close is due: log entry 7; a period number past 4,294,967,295: log entry 49. -/
def Obligations.ClosesEndThePeriod : Prop :=
  (∀ (x : Tariff) (mark now : Int), 1 ≤ x.closeDay → x.closeDay ≤ 28 → x.closeHour ≤ 23 → -43200 ≤ mark →
    now ≤ 4291797599 → (dueCloses x mark now).Pairwise (· < ·) ∧
      ∀ t : Int, t ∈ dueCloses x mark now ↔ mark < t ∧ t ≤ now ∧ x.ClosesAt t) ∧
  ∀ s : State, s.working →
    (s.bu.closedNow = true → exec .closePeriodNow s = .next (s.refusedWith .busy)) ∧
    (s.bu.closedNow = false → ∃ t, exec .closePeriodNow s = .next t ∧ t.hlu = s.answeredOk.hlu ∧
      Closed s t 1 (s.clock.reading + 60 * s.clock.offset)) ∧
    (s.clock.valid = false ∨ s.acc.closeMark = none → exec .closeExpiry s = .next s) ∧
    ∀ mark, s.clock.valid = true → s.acc.closeMark = some mark →
      let due := dueCloses s.cfg.tariff mark s.clock.localTime
      (due = [] → exec .closeExpiry s = .next s) ∧
      ∀ last, due.getLast? = some last →
        let later := dueCloses (s.cfg.pendingTariff.getD s.cfg.tariff) last s.clock.localTime
        (s.cfg.pendingTariff = none → later = []) ∧
        (later = [] → ∃ t, exec .closeExpiry s = .next t ∧ Closed s t due.length last) ∧
        ∀ second, later.getLast? = some second → ∃ u t, exec .closeExpiry s = .next t ∧
          Closed s u due.length last ∧ Closed u t later.length second

/-- What a close does to one substation's ledger (R143 to R145): a substation takes part that is IN_SERVICE or
ESTIMATING, or whose current set has activity, a rejected, rec, aux, est or recon figure that is not 0; one that takes
no part only starts a new set; any other has its set priced at its group's prices (group 1 for one that is not
configured), with the standing charge once for each period, DISPUTE_OPEN where its dispute is open and MERGED where
several periods end, and becomes the closing set or is added to the one that waits: figures, charges and periods added,
the flags joined, the first period and start kept, the last period and end taken. A period number past 4,294,967,295:
log entry 49. -/
def Obligations.ClosePricesTheCurrentSet : Prop :=
  ∀ (s : State) (k : Substation) (n : Nat) (finish : Int), 0 < n →
    let l := s.acc.ledgers[k]
    let g := s.cfg.tariff.groups[(s.cfg.substations[k]).elim (0 : Fin 4) (·.group)]
    let takesPart := (s.acc.meters[k]).state = .inService ∨ (s.acc.meters[k]).state = .estimating ∨
      l.current.rejected ≠ 0 ∨ ∃ i : Fin 4, (l.current.bands[i]).recovered ≠ 0 ∨ (l.current.bands[i]).auxiliary ≠ 0 ∨
        (l.current.bands[i]).estimated ≠ 0 ∨ (l.current.bands[i]).reconciled ≠ 0
    let t := s.closedLedger k n finish
    t.booked = l.booked ∧ t.issued = l.issued ∧ t.current = .opened (some finish) (s.acc.period + n) ∧
    (¬ takesPart → t.closing = l.closing ∧ l.current.net = 0) ∧
    let disputed := l.current.flags.disputeOpen || (s.acc.meters[k]).pendingMark.isSome
    let amount (i : Fin 4) : Int := (l.current.bands[i]).recovered * g.recovered[i] +
      (l.current.bands[i]).auxiliary * g.auxiliary[i] + (l.current.bands[i]).reconciled * g.recovered[i]
    (takesPart → l.closing = none → ∃ x, t.closing = some x ∧ x.net = l.current.net ∧
      x.standing = n * g.standing ∧ x.covered = n ∧ x.last = some (s.acc.period + n - 1) ∧ x.finish = some finish ∧
      x.first = l.current.first ∧ x.start = l.current.start ∧ x.rejected = l.current.rejected ∧
      x.flags = { l.current.flags with
        disputeOpen := disputed, merged := l.current.flags.merged || decide (1 < n) } ∧
      ∀ i : Fin 4, x.bands[i] = { l.current.bands[i] with charge := (x.bands[i]).charge } ∧
        RoundedThousandth (x.bands[i]).charge (amount i)) ∧
    (takesPart → ∀ old, l.closing = some old → ∃ x, t.closing = some x ∧
      x.net = old.net + l.current.net ∧ x.first = old.first ∧ x.start = old.start ∧ x.covered = old.covered + n ∧
      x.standing = old.standing + n * g.standing ∧ x.last = some (s.acc.period + n - 1) ∧ x.finish = some finish ∧
      x.rejected = old.rejected + l.current.rejected ∧
      x.flags = { (old.flags.join l.current.flags) with
        disputeOpen := old.flags.disputeOpen || disputed, merged := true } ∧
      ∀ i : Fin 4,
        (x.bands[i]).recovered = (old.bands[i]).recovered + (l.current.bands[i]).recovered ∧
        (x.bands[i]).auxiliary = (old.bands[i]).auxiliary + (l.current.bands[i]).auxiliary ∧
        (x.bands[i]).estimated = (old.bands[i]).estimated + (l.current.bands[i]).estimated ∧
        (x.bands[i]).reconciled = (old.bands[i]).reconciled + (l.current.bands[i]).reconciled ∧
        RoundedThousandth ((x.bands[i]).charge - (old.bands[i]).charge) (amount i))

/-! ### Condition Table -/

/-- A raise (R154, R155): an entry raised again is ACTIVE and waiting with its count one higher up to 255; a new one
takes the lowest free place of 1 to 127; with none, CONDITION_TABLE_FULL is raised in place 128. The end of a cause
(R156): without an entry, or with a LATCHED one, nothing; METER_JUMP, and a self-clearing entry that has been fetched,
leave the table, any other entry becomes LATCHED; and the first ordinary entry to leave a full table ends the cause of
CONDITION_TABLE_FULL (R155). A raise takes the latch mode of its class by the table of section 9.1, and for
HOLDER_HIGH_HIGH, HOLDER_LOW_LOW and POINT_FAILED the mode set for the class (R154); that of BOILER_TRIP, by the
restart mode, stands with its raises (O43). What one event tells the table is carried out once each, in some order
(R154). -/
def Obligations.RaisesEnterTheTable : Prop :=
  (∀ (s : State) (key : ConditionKey) (mode : LatchMode), s.ConditionsLegal → key ≠ conditionTableFullKey →
    let t := s.raiseWith key mode
    (∀ (i : Fin 128) (e : ConditionEntry), s.conditions[i] = some e → e.key = key →
      t.conditions = s.conditions.set i (some { e with
        state := .active, notified := false, raises := min (e.raises + 1) 255, lastChange := s.clock.reading,
        latch := mode })) ∧
    ((∀ (i : Fin 128) (e : ConditionEntry), s.conditions[i] = some e → e.key ≠ key) →
      (∀ i : Fin 128, i ≠ fullPlace → s.conditions[i] = none →
        (∀ j : Fin 128, j < i → s.conditions[j] ≠ none) →
        t.conditions = s.conditions.set i (some
          { key := key, state := .active, latch := mode, notified := false, firstRaised := s.clock.reading,
            lastChange := s.clock.reading, raises := 1 })) ∧
      ((∀ j : Fin 128, j ≠ fullPlace → s.conditions[j] ≠ none) → t.Reported .conditionTableFull 1 ∧
        ∀ j : Fin 128, j ≠ fullPlace → t.conditions[j] = s.conditions[j]))) ∧
  (∀ (s : State) (c : ConditionClass) (n : Nat), s.ConditionsLegal →
    let t := s.endCause c n
    (s.entryOf { cls := c, source := n } = none → t = s) ∧
    ∀ (i : Fin 128) (e : ConditionEntry), s.conditions[i] = some e → e.key = { cls := c, source := n } →
      (e.state = .latched → t = s) ∧
      (e.state = .active → c = .meterJump ∨ e.latch = .selfClearing ∧ e.notified = true →
        t.conditions[i] = none ∧ (i ≠ fullPlace → t.conditions[fullPlace] = s.fullEntryAfter) ∧
        ∀ j : Fin 128, j ≠ i → j ≠ fullPlace → t.conditions[j] = s.conditions[j]) ∧
      (e.state = .active → c ≠ .meterJump → e.latch = .latching ∨ e.notified = false →
        t.conditions = s.conditions.set i (some { e with state := .latched, lastChange := s.clock.reading }))) ∧
  (∀ (s : State) (c : ConditionClass) (n : Nat),
    (∀ m, latchModes[classOrder.idxOf c]? = some (some m) → s.raise c n = s.raiseWith { cls := c, source := n } m) ∧
    (c = .holderHighHigh → s.raise c n = s.raiseWith { cls := c, source := n } s.cfg.latchModes.highHigh) ∧
    (c = .holderLowLow → s.raise c n = s.raiseWith { cls := c, source := n } s.cfg.latchModes.lowLow) ∧
    (c = .pointFailed → s.raise c n = s.raiseWith { cls := c, source := n } s.cfg.latchModes.pointFailed)) ∧
  ∀ s : State, ∃ order : List ConditionAct, order.Perm s.acts ∧
    s.takeActs.conditions = (order.foldl State.takeAct s).conditions

/-- Fetch Condition and Clear Condition (R158, R159): EMPTY, or the waiting entry of lowest class number and source,
with the number still waiting and whether it is removed (the codes of R179: log entry 31); it is then notified, or gone
if LATCHED and self-clearing; a clear takes a LATCHED entry alone, and never METER_JUMP, and leaves every other entry
as it was; a source outside the range that the table of section 9.1 gives its class is refused; the clear of
BOILER_TRIP sends a TRIPPED boiler in LATCHED mode to OFF (R82), and leaves every boiler as it was in any other state
or mode. The first ordinary entry to leave a full table ends the cause of CONDITION_TABLE_FULL (R155). -/
def Obligations.FetchAndClearConditions : Prop :=
  ∀ s : State, s.working → s.ConditionsLegal →
    ((∀ (i : Fin 128) (e : ConditionEntry), s.conditions[i] = some e → e.notified = true) →
      exec .fetchCondition s = .next (s.refusedWith .empty)) ∧
    (∀ (i : Fin 128) (e : ConditionEntry), s.conditions[i] = some e → e.notified = false →
      (∀ (j : Fin 128) (f : ConditionEntry), s.conditions[j] = some f → f.notified = false →
        classOrder.idxOf e.key.cls < classOrder.idxOf f.key.cls ∨ e.key.cls = f.key.cls ∧ e.key.source ≤ f.key.source) →
      ∃ t contents, exec .fetchCondition s = .next t ∧
        t.hlu = (s.answered { status := .ok, contents := contents }).hlu ∧
        carries (e.items ++
          [unsigned 1 ((List.finRange 128).countP fun j => decide (j ≠ i) && (s.conditions[j]).any (!·.notified)),
            yesNo (decide (e.state = .latched ∧ e.latch = .selfClearing))]) contents = true ∧
        (¬ (e.state = .latched ∧ e.latch = .selfClearing) →
          t.conditions = s.conditions.set i (some { e with notified := true })) ∧
        (e.state = .latched → e.latch = .selfClearing → t.conditions[i] = none ∧
          (i ≠ fullPlace → t.conditions[fullPlace] = s.fullEntryAfter) ∧
          ∀ j : Fin 128, j ≠ i → j ≠ fullPlace → t.conditions[j] = s.conditions[j])) ∧
    ∀ (cls source : Byte),
      (cls = 0 ∨ 20 < cls.toNat ∨ source = 0 ∨ cls = 10 →
        exec (.clearCondition cls source) s = .next (s.refusedWith .badField)) ∧
      ∀ c last, cls.toNat = classOrder.idxOf c + 1 → lastSources[classOrder.idxOf c]? = some last → c ≠ .meterJump →
        source ≠ 0 →
        (last < source.toNat → exec (.clearCondition cls source) s = .next (s.refusedWith .badField)) ∧
        (source.toNat ≤ last →
          (s.entryOf { cls := c, source := source.toNat } = none →
            exec (.clearCondition cls source) s = .next (s.refusedWith .notFound)) ∧
          ∀ e, s.entryOf { cls := c, source := source.toNat } = some e →
            (e.state = .active → exec (.clearCondition cls source) s = .next (s.refusedWith .stillPresent)) ∧
            (e.state = .latched → ∃ t, exec (.clearCondition cls source) s = .next t ∧ t.hlu = s.answeredOk.hlu ∧
              t.entryOf { cls := c, source := source.toNat } = none ∧
              (c ≠ .conditionTableFull → t.conditions[fullPlace] = s.fullEntryAfter) ∧
              (∀ j : Fin 128, j ≠ fullPlace →
                (∀ f, s.conditions[j] = some f → f.key ≠ { cls := c, source := source.toNat }) →
                t.conditions[j] = s.conditions[j]) ∧
              (c ≠ .boilerTrip → t.boilers = s.boilers) ∧
              (∀ b : Boiler, c = .boilerTrip → source.toNat = b.val + 1 →
                ((s.boilers[b]).state = .tripped → s.restartMode b = .latched →
                  t.boilers = s.boilers.set b { s.boilers[b] with state := .off, run := none }) ∧
                ((s.boilers[b]).state ≠ .tripped ∨ s.restartMode b ≠ .latched → t.boilers = s.boilers))))

/-- The two lines (R160): ALERT is high while some entry has notified no; FAULT is low while the class of some ACTIVE
entry is enabled in the fault mask. Set Fault Mask refuses a class above 20; Set Latch Mode (R157) sets the mode of one
of three classes, for its later raises: every other class keeps its mode, and the entries present keep theirs. By
default the three are LATCHING and the mask enables classes 1 to 5 (R162). -/
def Obligations.LinesMaskAndLatchModes : Prop :=
  (∀ s : State, s.powered = true →
    (s.alertLine = some true ↔
      ∃ (i : Fin 128) (e : ConditionEntry), s.conditions[i] = some e ∧ e.notified = false) ∧
    (s.faultOutput = some false ↔
      ∃ (i : Fin 128) (e : ConditionEntry), s.conditions[i] = some e ∧ e.state = .active ∧
        s.cfg.faultMask.getLsbD (classOrder.idxOf e.key.cls) = true)) ∧
  (∀ s : State, s.working →
    (∀ mask : Word, 2 ^ 20 ≤ mask.toNat → exec (.setFaultMask mask) s = .next (s.refusedWith .badField)) ∧
    (∀ mask : Word, mask.toNat < 2 ^ 20 → exec (.setFaultMask mask) s =
      .next (s.withConfig { s.cfg with faultMask := mask.setWidth 20 }).answeredOk) ∧
    (∀ cls mode : Byte, cls ≠ 3 ∧ cls ≠ 4 ∧ cls ≠ 6 ∨ 1 < mode.toNat →
      exec (.setLatchMode cls mode) s = .next (s.refusedWith .badField)) ∧
    ∀ (mode : Byte) (m : LatchMode), mode = 0 ∧ m = .latching ∨ mode = 1 ∧ m = .selfClearing →
      exec (.setLatchMode 3 mode) s = .next (s.withConfig { s.cfg with
        latchModes := { s.cfg.latchModes with highHigh := m } }).answeredOk ∧
      exec (.setLatchMode 4 mode) s = .next (s.withConfig { s.cfg with
        latchModes := { s.cfg.latchModes with lowLow := m } }).answeredOk ∧
      exec (.setLatchMode 6 mode) s = .next (s.withConfig { s.cfg with
        latchModes := { s.cfg.latchModes with pointFailed := m } }).answeredOk ∧
      ∀ (cls : Byte) (c : ConditionClass) (t : State),
        cls = 3 ∧ c = .holderHighHigh ∨ cls = 4 ∧ c = .holderLowLow ∨ cls = 6 ∧ c = .pointFailed →
        exec (.setLatchMode cls mode) s = .next t → t.conditions = s.conditions ∧
          ∀ k, t.classLatch k = if k = c then m else s.classLatch k) ∧
  ConfigRegion.default.latchModes = { highHigh := .latching, lowLow := .latching, pointFailed := .latching } ∧
  ∀ c : ConditionClass,
    ConfigRegion.default.faultMask.getLsbD (classOrder.idxOf c) = decide (classOrder.idxOf c + 1 ≤ 5)
end

