-- ==== Sys2Proof/Laws/Calendar.lean ====
section
/-! SUPPORT. What the calendar's walks find, against the day numbers of section 6 (4) of chapter 0: the local date of a
local time (R139), and the close times of a table in a run of months (R141). -/

namespace Sys2Proof.Machine

/-- The day number of the first of January of a year. -/
def yearStart (y : Nat) : Int :=
  let before : Int := y - 1
  365 * ((y : Int) - 2000) + (before / 4 - before / 100 + before / 400 - 484)

/-- The days of a year before the first of a month. -/
def monthStart (y m : Nat) : Nat := ((List.range (m - 1)).map fun i => daysInMonth y (i + 1)).sum

theorem Date.number_eq (d : Date) : d.number = yearStart d.year + monthStart d.year d.month + ((d.day : Int) - 1) := by
  simp [Date.number, yearStart, monthStart]

theorem monthStart_succ (y m : Nat) (h : 1 ≤ m) : monthStart y (m + 1) = monthStart y m + daysInMonth y m := by
  obtain ⟨k, rfl⟩ : ∃ k, m = k + 1 := ⟨m - 1, by omega⟩
  simp [monthStart, List.range_succ]

theorem monthStart_thirteen (y : Nat) : monthStart y 13 = daysInYear y := by
  cases h : isLeap y <;> simp [monthStart, daysInYear, daysInMonth, h, List.range_succ]

theorem monthStart_one (y : Nat) : monthStart y 1 = 0 := by simp [monthStart]

theorem yearStart_succ (y : Nat) : yearStart (y + 1) = yearStart y + daysInYear y := by
  have h : (daysInYear y : Int) = 365 + (((y : Int) / 4 - ((y : Int) - 1) / 4) - ((y : Int) / 100 - ((y : Int) - 1) / 100) +
      ((y : Int) / 400 - ((y : Int) - 1) / 400)) := by
    unfold daysInYear isLeap
    by_cases h4 : y % 4 = 0 <;> by_cases h100 : y % 100 = 0 <;> by_cases h400 : y % 400 = 0 <;>
      simp [h4, h100, h400] <;> omega
  simp only [yearStart]
  push_cast
  rw [h]
  have : (y : Int) + 1 - 1 = y := by omega
  rw [this]
  ring

theorem daysInMonth_pos (y m : Nat) : 28 ≤ daysInMonth y m := by
  unfold daysInMonth; split
  · split <;> omega
  · split <;> omega

theorem daysInMonth_le (y m : Nat) : daysInMonth y m ≤ 31 := by
  unfold daysInMonth; split
  · split <;> omega
  · split <;> omega

/-- A walk over the months, with months enough for its days, ends on a date that many days after its first day. -/
theorem walkMonths_spec (y : Nat) : ∀ (fuel m n : Nat), 1 ≤ m → m + fuel = 12 → n + monthStart y m < daysInYear y →
    let md := walkMonths y fuel m n
    m ≤ md.1 ∧ md.1 ≤ 12 ∧ 1 ≤ md.2 ∧ md.2 ≤ daysInMonth y md.1 ∧ monthStart y md.1 + (md.2 - 1) = monthStart y m + n := by
  intro fuel
  induction fuel with
  | zero =>
    intro m n h1 h2 h3
    have hm : m = 12 := by omega
    subst hm
    have := monthStart_succ y 12 (by omega)
    rw [monthStart_thirteen] at this
    simp only [walkMonths]
    omega
  | succ fuel ih =>
    intro m n h1 h2 h3
    simp only [walkMonths]
    split
    · simp only; omega
    · have hs := monthStart_succ y m h1
      have := ih (m + 1) (n - daysInMonth y m) (by omega) (by omega) (by omega)
      simp only at this ⊢
      omega

/-- A walk over the years, with years enough for its days, ends on the date that many days after its first day. -/
theorem walkYears_spec : ∀ (fuel y n : Nat), (yearStart y + n < yearStart (y + fuel + 1)) →
    (walkYears fuel y n).Proper ∧ (walkYears fuel y n).number = yearStart y + n := by
  intro fuel
  induction fuel with
  | zero =>
    intro y n h
    rw [Nat.add_zero, yearStart_succ] at h
    have := walkMonths_spec y 11 1 n (by omega) (by omega) (by rw [monthStart_one]; omega)
    simp only [monthStart_one] at this
    simp only [walkYears, Date.Proper, Date.number_eq]
    omega
  | succ fuel ih =>
    intro y n h
    simp only [walkYears]
    split
    · have := walkMonths_spec y 11 1 n (by omega) (by omega) (by rw [monthStart_one]; omega)
      simp only [monthStart_one] at this
      simp only [Date.Proper, Date.number_eq]
      omega
    · have hy := yearStart_succ y
      have := ih (y + 1) (n - daysInYear y) (by
        rw [show y + 1 + fuel + 1 = y + (fuel + 1) + 1 by omega]
        omega)
      refine ⟨this.1, ?_⟩
      rw [this.2]
      omega

theorem monthStart_mono (y : Nat) {a b : Nat} (h1 : 1 ≤ a) (h : a ≤ b) : monthStart y a ≤ monthStart y b := by
  induction h with
  | refl => exact Nat.le_refl _
  | step h ih => rw [monthStart_succ y _ (Nat.le_trans h1 h)]; omega

theorem yearStart_mono {a b : Nat} (h : a ≤ b) : yearStart a ≤ yearStart b := by
  induction h with
  | refl => exact Int.le_refl _
  | step _ ih => rw [yearStart_succ]; omega

/-- A proper date lies in its year, and in its month of it. -/
theorem Date.Proper.bounds {d : Date} (h : d.Proper) :
    yearStart d.year + monthStart d.year d.month ≤ d.number ∧
      d.number < yearStart d.year + monthStart d.year (d.month + 1) ∧ d.number < yearStart (d.year + 1) := by
  obtain ⟨h1, h2, h3, h4⟩ := h
  have hs := monthStart_succ d.year d.month h1
  have hm := monthStart_mono d.year (a := d.month + 1) (b := 13) (by omega) (by omega)
  rw [monthStart_thirteen] at hm
  rw [Date.number_eq, yearStart_succ]
  omega

/-- A proper date is known by its day number. -/
theorem Date.number_inj {a b : Date} (ha : a.Proper) (hb : b.Proper) (h : a.number = b.number) : a = b := by
  have ba := ha.bounds
  have bb := hb.bounds
  have hy : a.year = b.year := by
    rcases Nat.lt_trichotomy a.year b.year with hlt | heq | hgt
    · have := yearStart_mono (a := a.year + 1) (b := b.year) hlt; omega
    · exact heq
    · have := yearStart_mono (a := b.year + 1) (b := a.year) hgt; omega
  rw [hy] at ba
  have hm : a.month = b.month := by
    rcases Nat.lt_trichotomy a.month b.month with hlt | heq | hgt
    · have := monthStart_mono b.year (a := a.month + 1) (b := b.month) (by omega) hlt; omega
    · exact heq
    · have := monthStart_mono b.year (a := b.month + 1) (b := a.month) (by omega) hgt; omega
  have hd : a.day = b.day := by
    have ea := Date.number_eq a
    have eb := Date.number_eq b
    rw [hy, hm] at ea
    have := ha.2.2.1
    have := hb.2.2.1
    omega
  cases a; cases b; simp_all

/-- The model's walk finds the date of the local day, for every local time from 1999-01-01 to 2139-12-31. -/
theorem localDate_spec {t : Int} (h0 : -31536000 ≤ t) (h1 : t < 4417977600) :
    (localDate t).Proper ∧ (localDate t).number = t / 86400 := by
  have e0 : yearStart 1999 = -365 := by decide
  have e1 : yearStart (1999 + 140 + 1) = 51134 := by decide
  have := walkYears_spec 140 1999 (localDay t + 365).toNat (by rw [e0, e1]; unfold localDay; omega)
  rw [e0] at this
  refine ⟨this.1, ?_⟩
  rw [localDate, this.2]
  unfold localDay
  omega

/-- The date of a local day is the one that the model's walk finds. -/
theorem eq_localDate {d : Date} {t : Int} (h0 : -31536000 ≤ t) (h1 : t < 4417977600) (hd : d.Proper)
    (hn : d.number = t / 86400) : d = localDate t :=
  have h := localDate_spec h0 h1
  Date.number_inj hd h.1 (hn.trans h.2.symm)

/-- The close times of a table in a run of months: rising, and those of each month of it. -/
theorem mem_closeTimesFrom (x : Tariff) : ∀ fuel y m : Nat, 1 ≤ m → m ≤ 12 →
    (closeTimesFrom x fuel y m (yearStart y + monthStart y m)).Pairwise (· < ·) ∧
    ∀ t, t ∈ closeTimesFrom x fuel y m (yearStart y + monthStart y m) ↔
      ∃ d : Date, 1 ≤ d.month ∧ d.month ≤ 12 ∧ d.day = x.closeDay ∧ 12 * y + m ≤ 12 * d.year + d.month ∧
        12 * d.year + d.month < 12 * y + m + fuel ∧ t = 86400 * d.number + 3600 * x.closeHour := by
  intro fuel
  induction fuel with
  | zero => intro y m _ _; simp [closeTimesFrom]; omega
  | succ fuel ih =>
    intro y m hm1 hm12
    have key : ∃ y' m', 1 ≤ m' ∧ m' ≤ 12 ∧ 12 * y' + m' = 12 * y + m + 1 ∧
        closeTimesFrom x (fuel + 1) y m (yearStart y + monthStart y m) =
          (86400 * (yearStart y + monthStart y m + x.closeDay - 1) + 3600 * x.closeHour) ::
            closeTimesFrom x fuel y' m' (yearStart y' + monthStart y' m') ∧
        yearStart y' + monthStart y' m' = yearStart y + monthStart y m + daysInMonth y m := by
      by_cases h : m = 12
      · subst h
        have hs := monthStart_succ y 12 (by omega)
        rw [monthStart_thirteen] at hs
        have hy := yearStart_succ y
        have hd : daysInMonth y 12 = 31 := by simp [daysInMonth]
        refine ⟨y + 1, 1, by omega, by omega, by omega, ?_, ?_⟩
        · rw [closeTimesFrom, if_pos rfl]
          congr 2
          rw [monthStart_one]; omega
        · rw [monthStart_one]; omega
      · have hs := monthStart_succ y m hm1
        refine ⟨y, m + 1, by omega, by omega, by omega, ?_, ?_⟩
        · rw [closeTimesFrom, if_neg h]
          congr 2
          rw [hs]; push_cast; omega
        · rw [hs]; push_cast; omega
    obtain ⟨y', m', a1, a2, a3, eq, next⟩ := key
    obtain ⟨ihp, ihm⟩ := ih y' m' a1 a2
    rw [eq]
    have head : ∀ d : Date, 1 ≤ d.month → d.month ≤ 12 → d.day = x.closeDay → 12 * d.year + d.month = 12 * y + m →
        86400 * d.number + 3600 * (x.closeHour : Int) =
          86400 * (yearStart y + monthStart y m + x.closeDay - 1) + 3600 * x.closeHour := by
      intro d d1 d12 dd e
      have ey : d.year = y := by omega
      have em : d.month = m := by omega
      rw [Date.number_eq, ey, em, dd]
      ring
    constructor
    · refine List.pairwise_cons.mpr ⟨?_, ihp⟩
      intro t ht
      obtain ⟨d, d1, d12, dd, lo, hi, rfl⟩ := (ihm t).mp ht
      have hb : yearStart y' + monthStart y' m' ≤ yearStart d.year + monthStart d.year d.month := by
        by_cases e : d.year = y'
        · rw [e]
          have := monthStart_mono y' a1 (show m' ≤ d.month by omega)
          omega
        · have h' := yearStart_mono (show y' + 1 ≤ d.year by omega)
          rw [yearStart_succ] at h'
          have h'' := monthStart_mono y' a1 (show m' ≤ 13 by omega)
          rw [monthStart_thirteen] at h''
          omega
      have hl := daysInMonth_pos y m
      rw [Date.number_eq, dd]
      omega
    · intro t
      rw [List.mem_cons, ihm]
      constructor
      · rintro (rfl | ⟨d, d1, d12, dd, lo, hi, rfl⟩)
        · refine ⟨{ year := y, month := m, day := x.closeDay }, hm1, hm12, rfl, by simp, by simp, ?_⟩
          exact (head _ hm1 hm12 rfl rfl).symm
        · exact ⟨d, d1, d12, dd, by omega, by omega, rfl⟩
      · rintro ⟨d, d1, d12, dd, lo, hi, rfl⟩
        by_cases e : 12 * d.year + d.month = 12 * y + m
        · exact .inl (head d d1 d12 dd e)
        · exact .inr ⟨d, d1, d12, dd, by omega, by omega, rfl⟩

/-! ### The dates of Set Holidays (R138) -/

/-- A real date (R138): within the years, and no day past the end of its month. -/
theorem Date.isReal_iff (d : Date) :
    let february : Nat := if d.year % 4 = 0 ∧ (d.year % 100 ≠ 0 ∨ d.year % 400 = 0) then 29 else 28
    d.isReal = true ↔ (2000 ≤ d.year ∧ d.year ≤ 2135) ∧ (1 ≤ d.month ∧ d.month ≤ 12) ∧ 1 ≤ d.day ∧
      ∃ days, [31, february, 31, 30, 31, 30, 31, 31, 30, 31, 30, 31][d.month - 1]? = some days ∧ d.day ≤ days := by
  obtain ⟨y, m, x⟩ := d
  simp only [Date.isReal, daysInMonth, isLeap, Bool.and_eq_true, Bool.or_eq_true, decide_eq_true_eq, beq_iff_eq,
    bne_iff_ne, and_assoc]
  refine and_congr_right fun _ => and_congr_right fun _ => and_congr_right fun h1 => and_congr_right fun h2 =>
    and_congr_right fun _ => ?_
  interval_cases m <;> simp

theorem Date.before_iff (a b : Date) : a.before b = true ↔
    a.year < b.year ∨ a.year = b.year ∧ (a.month < b.month ∨ a.month = b.month ∧ a.day < b.day) := by
  simp [Date.before]

theorem Date.before_trans {a b c : Date} (h : a.before b = true) (k : b.before c = true) : a.before c = true := by
  rw [Date.before_iff] at *; omega

/-- Neighbours in order are a list in order. -/
theorem ascendingDates_iff (l : List Date) : ascendingDates l = true ↔ l.Pairwise fun a b => a.before b = true := by
  induction l with
  | nil => simp [ascendingDates]
  | cons a l ih =>
    cases l with
    | nil => simp [ascendingDates]
    | cons b l =>
      rw [ascendingDates, Bool.and_eq_true, ih, List.pairwise_cons (a := a)]
      refine ⟨fun ⟨h, k⟩ => ⟨fun c hc => ?_, k⟩, fun ⟨h, k⟩ => ⟨h b (by simp), k⟩⟩
      obtain rfl | hc := List.mem_cons.mp hc
      · exact h
      · exact Date.before_trans h ((List.pairwise_cons.mp k).1 c hc)

/-- One date of Set Holidays before another. -/
theorem RawDate.before_iff (a b : RawDate) : (RawDate.date a).before (RawDate.date b) = true ↔
    a.year.toNat < b.year.toNat ∨
      a.year = b.year ∧ (a.month.toNat < b.month.toNat ∨ a.month = b.month ∧ a.day.toNat < b.day.toNat) := by
  rw [Date.before_iff, ← BitVec.toNat_inj, ← BitVec.toNat_inj]; rfl

end Sys2Proof.Machine
end

