-- ==== Sys2Proof/Laws/State.lean ====
section
/-! SUPPORT. What each named update of the state leaves in each field, so that no proof unfolds a record update. -/

namespace Sys2Proof.Machine

/-! ### setChannel -/

@[simp] theorem State.setChannel_powered (s : State) (c : ChannelNo) (x : Channel) :
    (s.setChannel c x).powered = s.powered := rfl
@[simp] theorem State.setChannel_resetHeld (s : State) (c : ChannelNo) (x : Channel) :
    (s.setChannel c x).resetHeld = s.resetHeld := rfl
@[simp] theorem State.setChannel_plantRelease (s : State) (c : ChannelNo) (x : Channel) :
    (s.setChannel c x).plantRelease = s.plantRelease := rfl
@[simp] theorem State.setChannel_clock (s : State) (c : ChannelNo) (x : Channel) :
    (s.setChannel c x).clock = s.clock := rfl
@[simp] theorem State.setChannel_osc (s : State) (c : ChannelNo) (x : Channel) : (s.setChannel c x).osc = s.osc := rfl
@[simp] theorem State.setChannel_store (s : State) (c : ChannelNo) (x : Channel) :
    (s.setChannel c x).store = s.store := rfl
@[simp] theorem State.setChannel_marks (s : State) (c : ChannelNo) (x : Channel) :
    (s.setChannel c x).marks = s.marks := rfl
@[simp] theorem State.setChannel_acts (s : State) (c : ChannelNo) (x : Channel) :
    (s.setChannel c x).acts = s.acts := rfl
@[simp] theorem State.setChannel_cfg (s : State) (c : ChannelNo) (x : Channel) : (s.setChannel c x).cfg = s.cfg := rfl
@[simp] theorem State.setChannel_acc (s : State) (c : ChannelNo) (x : Channel) : (s.setChannel c x).acc = s.acc := rfl
@[simp] theorem State.setChannel_que (s : State) (c : ChannelNo) (x : Channel) : (s.setChannel c x).que = s.que := rfl
@[simp] theorem State.setChannel_lines (s : State) (c : ChannelNo) (x : Channel) :
    (s.setChannel c x).lines = s.lines := rfl
@[simp] theorem State.setChannel_channels (s : State) (c : ChannelNo) (x : Channel) :
    (s.setChannel c x).channels = s.channels.set c x := rfl
@[simp] theorem State.setChannel_points (s : State) (c : ChannelNo) (x : Channel) :
    (s.setChannel c x).points = s.points := rfl
@[simp] theorem State.setChannel_gas (s : State) (c : ChannelNo) (x : Channel) : (s.setChannel c x).gas = s.gas := rfl
@[simp] theorem State.setChannel_dsp (s : State) (c : ChannelNo) (x : Channel) : (s.setChannel c x).dsp = s.dsp := rfl
@[simp] theorem State.setChannel_boilers (s : State) (c : ChannelNo) (x : Channel) :
    (s.setChannel c x).boilers = s.boilers := rfl
@[simp] theorem State.setChannel_esu (s : State) (c : ChannelNo) (x : Channel) : (s.setChannel c x).esu = s.esu := rfl
@[simp] theorem State.setChannel_hmu (s : State) (c : ChannelNo) (x : Channel) : (s.setChannel c x).hmu = s.hmu := rfl
@[simp] theorem State.setChannel_bu (s : State) (c : ChannelNo) (x : Channel) : (s.setChannel c x).bu = s.bu := rfl
@[simp] theorem State.setChannel_conditions (s : State) (c : ChannelNo) (x : Channel) :
    (s.setChannel c x).conditions = s.conditions := rfl
@[simp] theorem State.setChannel_hlu (s : State) (c : ChannelNo) (x : Channel) : (s.setChannel c x).hlu = s.hlu := rfl
@[simp] theorem State.setChannel_choices (s : State) (c : ChannelNo) (x : Channel) :
    (s.setChannel c x).choices = s.choices := rfl
@[simp] theorem State.setChannel_pending (s : State) (c : ChannelNo) (x : Channel) :
    (s.setChannel c x).pending = s.pending := rfl

/-! ### setPoint -/

@[simp] theorem State.setPoint_powered (s : State) (p : PointNo) (x : Point) :
    (s.setPoint p x).powered = s.powered := rfl
@[simp] theorem State.setPoint_resetHeld (s : State) (p : PointNo) (x : Point) :
    (s.setPoint p x).resetHeld = s.resetHeld := rfl
@[simp] theorem State.setPoint_plantRelease (s : State) (p : PointNo) (x : Point) :
    (s.setPoint p x).plantRelease = s.plantRelease := rfl
@[simp] theorem State.setPoint_clock (s : State) (p : PointNo) (x : Point) : (s.setPoint p x).clock = s.clock := rfl
@[simp] theorem State.setPoint_osc (s : State) (p : PointNo) (x : Point) : (s.setPoint p x).osc = s.osc := rfl
@[simp] theorem State.setPoint_store (s : State) (p : PointNo) (x : Point) : (s.setPoint p x).store = s.store := rfl
@[simp] theorem State.setPoint_marks (s : State) (p : PointNo) (x : Point) : (s.setPoint p x).marks = s.marks := rfl
@[simp] theorem State.setPoint_acts (s : State) (p : PointNo) (x : Point) : (s.setPoint p x).acts = s.acts := rfl
@[simp] theorem State.setPoint_cfg (s : State) (p : PointNo) (x : Point) : (s.setPoint p x).cfg = s.cfg := rfl
@[simp] theorem State.setPoint_acc (s : State) (p : PointNo) (x : Point) : (s.setPoint p x).acc = s.acc := rfl
@[simp] theorem State.setPoint_que (s : State) (p : PointNo) (x : Point) : (s.setPoint p x).que = s.que := rfl
@[simp] theorem State.setPoint_lines (s : State) (p : PointNo) (x : Point) : (s.setPoint p x).lines = s.lines := rfl
@[simp] theorem State.setPoint_channels (s : State) (p : PointNo) (x : Point) :
    (s.setPoint p x).channels = s.channels := rfl
@[simp] theorem State.setPoint_points (s : State) (p : PointNo) (x : Point) :
    (s.setPoint p x).points = s.points.set p x := rfl
@[simp] theorem State.setPoint_gas (s : State) (p : PointNo) (x : Point) : (s.setPoint p x).gas = s.gas := rfl
@[simp] theorem State.setPoint_dsp (s : State) (p : PointNo) (x : Point) : (s.setPoint p x).dsp = s.dsp := rfl
@[simp] theorem State.setPoint_boilers (s : State) (p : PointNo) (x : Point) :
    (s.setPoint p x).boilers = s.boilers := rfl
@[simp] theorem State.setPoint_esu (s : State) (p : PointNo) (x : Point) : (s.setPoint p x).esu = s.esu := rfl
@[simp] theorem State.setPoint_hmu (s : State) (p : PointNo) (x : Point) : (s.setPoint p x).hmu = s.hmu := rfl
@[simp] theorem State.setPoint_bu (s : State) (p : PointNo) (x : Point) : (s.setPoint p x).bu = s.bu := rfl
@[simp] theorem State.setPoint_conditions (s : State) (p : PointNo) (x : Point) :
    (s.setPoint p x).conditions = s.conditions := rfl
@[simp] theorem State.setPoint_hlu (s : State) (p : PointNo) (x : Point) : (s.setPoint p x).hlu = s.hlu := rfl
@[simp] theorem State.setPoint_choices (s : State) (p : PointNo) (x : Point) :
    (s.setPoint p x).choices = s.choices := rfl
@[simp] theorem State.setPoint_pending (s : State) (p : PointNo) (x : Point) :
    (s.setPoint p x).pending = s.pending := rfl

/-! ### setBoiler -/

@[simp] theorem State.setBoiler_powered (s : State) (b : Boiler) (x : Sequencer) :
    (s.setBoiler b x).powered = s.powered := rfl
@[simp] theorem State.setBoiler_resetHeld (s : State) (b : Boiler) (x : Sequencer) :
    (s.setBoiler b x).resetHeld = s.resetHeld := rfl
@[simp] theorem State.setBoiler_plantRelease (s : State) (b : Boiler) (x : Sequencer) :
    (s.setBoiler b x).plantRelease = s.plantRelease := rfl
@[simp] theorem State.setBoiler_clock (s : State) (b : Boiler) (x : Sequencer) :
    (s.setBoiler b x).clock = s.clock := rfl
@[simp] theorem State.setBoiler_osc (s : State) (b : Boiler) (x : Sequencer) : (s.setBoiler b x).osc = s.osc := rfl
@[simp] theorem State.setBoiler_store (s : State) (b : Boiler) (x : Sequencer) :
    (s.setBoiler b x).store = s.store := rfl
@[simp] theorem State.setBoiler_marks (s : State) (b : Boiler) (x : Sequencer) :
    (s.setBoiler b x).marks = s.marks := rfl
@[simp] theorem State.setBoiler_acts (s : State) (b : Boiler) (x : Sequencer) : (s.setBoiler b x).acts = s.acts := rfl
@[simp] theorem State.setBoiler_cfg (s : State) (b : Boiler) (x : Sequencer) : (s.setBoiler b x).cfg = s.cfg := rfl
@[simp] theorem State.setBoiler_acc (s : State) (b : Boiler) (x : Sequencer) : (s.setBoiler b x).acc = s.acc := rfl
@[simp] theorem State.setBoiler_que (s : State) (b : Boiler) (x : Sequencer) : (s.setBoiler b x).que = s.que := rfl
@[simp] theorem State.setBoiler_lines (s : State) (b : Boiler) (x : Sequencer) :
    (s.setBoiler b x).lines = s.lines := rfl
@[simp] theorem State.setBoiler_channels (s : State) (b : Boiler) (x : Sequencer) :
    (s.setBoiler b x).channels = s.channels := rfl
@[simp] theorem State.setBoiler_points (s : State) (b : Boiler) (x : Sequencer) :
    (s.setBoiler b x).points = s.points := rfl
@[simp] theorem State.setBoiler_gas (s : State) (b : Boiler) (x : Sequencer) : (s.setBoiler b x).gas = s.gas := rfl
@[simp] theorem State.setBoiler_dsp (s : State) (b : Boiler) (x : Sequencer) : (s.setBoiler b x).dsp = s.dsp := rfl
@[simp] theorem State.setBoiler_boilers (s : State) (b : Boiler) (x : Sequencer) :
    (s.setBoiler b x).boilers = s.boilers.set b x := rfl
@[simp] theorem State.setBoiler_esu (s : State) (b : Boiler) (x : Sequencer) : (s.setBoiler b x).esu = s.esu := rfl
@[simp] theorem State.setBoiler_hmu (s : State) (b : Boiler) (x : Sequencer) : (s.setBoiler b x).hmu = s.hmu := rfl
@[simp] theorem State.setBoiler_bu (s : State) (b : Boiler) (x : Sequencer) : (s.setBoiler b x).bu = s.bu := rfl
@[simp] theorem State.setBoiler_conditions (s : State) (b : Boiler) (x : Sequencer) :
    (s.setBoiler b x).conditions = s.conditions := rfl
@[simp] theorem State.setBoiler_hlu (s : State) (b : Boiler) (x : Sequencer) : (s.setBoiler b x).hlu = s.hlu := rfl
@[simp] theorem State.setBoiler_choices (s : State) (b : Boiler) (x : Sequencer) :
    (s.setBoiler b x).choices = s.choices := rfl
@[simp] theorem State.setBoiler_pending (s : State) (b : Boiler) (x : Sequencer) :
    (s.setBoiler b x).pending = s.pending := rfl

/-! ### setAllocation -/

@[simp] theorem State.setAllocation_powered (s : State) (b : Boiler) (x : Allocation) :
    (s.setAllocation b x).powered = s.powered := rfl
@[simp] theorem State.setAllocation_resetHeld (s : State) (b : Boiler) (x : Allocation) :
    (s.setAllocation b x).resetHeld = s.resetHeld := rfl
@[simp] theorem State.setAllocation_plantRelease (s : State) (b : Boiler) (x : Allocation) :
    (s.setAllocation b x).plantRelease = s.plantRelease := rfl
@[simp] theorem State.setAllocation_clock (s : State) (b : Boiler) (x : Allocation) :
    (s.setAllocation b x).clock = s.clock := rfl
@[simp] theorem State.setAllocation_osc (s : State) (b : Boiler) (x : Allocation) :
    (s.setAllocation b x).osc = s.osc := rfl
@[simp] theorem State.setAllocation_store (s : State) (b : Boiler) (x : Allocation) :
    (s.setAllocation b x).store = s.store := rfl
@[simp] theorem State.setAllocation_marks (s : State) (b : Boiler) (x : Allocation) :
    (s.setAllocation b x).marks = s.marks := rfl
@[simp] theorem State.setAllocation_acts (s : State) (b : Boiler) (x : Allocation) :
    (s.setAllocation b x).acts = s.acts := rfl
@[simp] theorem State.setAllocation_cfg (s : State) (b : Boiler) (x : Allocation) :
    (s.setAllocation b x).cfg = s.cfg := rfl
@[simp] theorem State.setAllocation_acc (s : State) (b : Boiler) (x : Allocation) :
    (s.setAllocation b x).acc = s.acc := rfl
@[simp] theorem State.setAllocation_que (s : State) (b : Boiler) (x : Allocation) :
    (s.setAllocation b x).que = s.que := rfl
@[simp] theorem State.setAllocation_lines (s : State) (b : Boiler) (x : Allocation) :
    (s.setAllocation b x).lines = s.lines := rfl
@[simp] theorem State.setAllocation_channels (s : State) (b : Boiler) (x : Allocation) :
    (s.setAllocation b x).channels = s.channels := rfl
@[simp] theorem State.setAllocation_points (s : State) (b : Boiler) (x : Allocation) :
    (s.setAllocation b x).points = s.points := rfl
@[simp] theorem State.setAllocation_gas (s : State) (b : Boiler) (x : Allocation) :
    (s.setAllocation b x).gas = s.gas := rfl
@[simp] theorem State.setAllocation_dsp (s : State) (b : Boiler) (x : Allocation) :
    (s.setAllocation b x).dsp = { s.dsp with allocations := s.dsp.allocations.set b x } := rfl
@[simp] theorem State.setAllocation_boilers (s : State) (b : Boiler) (x : Allocation) :
    (s.setAllocation b x).boilers = s.boilers := rfl
@[simp] theorem State.setAllocation_esu (s : State) (b : Boiler) (x : Allocation) :
    (s.setAllocation b x).esu = s.esu := rfl
@[simp] theorem State.setAllocation_hmu (s : State) (b : Boiler) (x : Allocation) :
    (s.setAllocation b x).hmu = s.hmu := rfl
@[simp] theorem State.setAllocation_bu (s : State) (b : Boiler) (x : Allocation) :
    (s.setAllocation b x).bu = s.bu := rfl
@[simp] theorem State.setAllocation_conditions (s : State) (b : Boiler) (x : Allocation) :
    (s.setAllocation b x).conditions = s.conditions := rfl
@[simp] theorem State.setAllocation_hlu (s : State) (b : Boiler) (x : Allocation) :
    (s.setAllocation b x).hlu = s.hlu := rfl
@[simp] theorem State.setAllocation_choices (s : State) (b : Boiler) (x : Allocation) :
    (s.setAllocation b x).choices = s.choices := rfl
@[simp] theorem State.setAllocation_pending (s : State) (b : Boiler) (x : Allocation) :
    (s.setAllocation b x).pending = s.pending := rfl

/-! ### setMeter -/

@[simp] theorem State.setMeter_powered (s : State) (k : Substation) (x : SubstationAccount) :
    (s.setMeter k x).powered = s.powered := rfl
@[simp] theorem State.setMeter_resetHeld (s : State) (k : Substation) (x : SubstationAccount) :
    (s.setMeter k x).resetHeld = s.resetHeld := rfl
@[simp] theorem State.setMeter_plantRelease (s : State) (k : Substation) (x : SubstationAccount) :
    (s.setMeter k x).plantRelease = s.plantRelease := rfl
@[simp] theorem State.setMeter_clock (s : State) (k : Substation) (x : SubstationAccount) :
    (s.setMeter k x).clock = s.clock := rfl
@[simp] theorem State.setMeter_osc (s : State) (k : Substation) (x : SubstationAccount) :
    (s.setMeter k x).osc = s.osc := rfl
@[simp] theorem State.setMeter_store (s : State) (k : Substation) (x : SubstationAccount) :
    (s.setMeter k x).store = s.store := rfl
@[simp] theorem State.setMeter_marks (s : State) (k : Substation) (x : SubstationAccount) :
    (s.setMeter k x).marks = s.marks := rfl
@[simp] theorem State.setMeter_acts (s : State) (k : Substation) (x : SubstationAccount) :
    (s.setMeter k x).acts = s.acts := rfl
@[simp] theorem State.setMeter_cfg (s : State) (k : Substation) (x : SubstationAccount) :
    (s.setMeter k x).cfg = s.cfg := rfl
@[simp] theorem State.setMeter_acc (s : State) (k : Substation) (x : SubstationAccount) :
    (s.setMeter k x).acc = { s.acc with meters := s.acc.meters.set k x } := rfl
@[simp] theorem State.setMeter_que (s : State) (k : Substation) (x : SubstationAccount) :
    (s.setMeter k x).que = s.que := rfl
@[simp] theorem State.setMeter_lines (s : State) (k : Substation) (x : SubstationAccount) :
    (s.setMeter k x).lines = s.lines := rfl
@[simp] theorem State.setMeter_channels (s : State) (k : Substation) (x : SubstationAccount) :
    (s.setMeter k x).channels = s.channels := rfl
@[simp] theorem State.setMeter_points (s : State) (k : Substation) (x : SubstationAccount) :
    (s.setMeter k x).points = s.points := rfl
@[simp] theorem State.setMeter_gas (s : State) (k : Substation) (x : SubstationAccount) :
    (s.setMeter k x).gas = s.gas := rfl
@[simp] theorem State.setMeter_dsp (s : State) (k : Substation) (x : SubstationAccount) :
    (s.setMeter k x).dsp = s.dsp := rfl
@[simp] theorem State.setMeter_boilers (s : State) (k : Substation) (x : SubstationAccount) :
    (s.setMeter k x).boilers = s.boilers := rfl
@[simp] theorem State.setMeter_esu (s : State) (k : Substation) (x : SubstationAccount) :
    (s.setMeter k x).esu = s.esu := rfl
@[simp] theorem State.setMeter_hmu (s : State) (k : Substation) (x : SubstationAccount) :
    (s.setMeter k x).hmu = s.hmu := rfl
@[simp] theorem State.setMeter_bu (s : State) (k : Substation) (x : SubstationAccount) :
    (s.setMeter k x).bu = s.bu := rfl
@[simp] theorem State.setMeter_conditions (s : State) (k : Substation) (x : SubstationAccount) :
    (s.setMeter k x).conditions = s.conditions := rfl
@[simp] theorem State.setMeter_hlu (s : State) (k : Substation) (x : SubstationAccount) :
    (s.setMeter k x).hlu = s.hlu := rfl
@[simp] theorem State.setMeter_choices (s : State) (k : Substation) (x : SubstationAccount) :
    (s.setMeter k x).choices = s.choices := rfl
@[simp] theorem State.setMeter_pending (s : State) (k : Substation) (x : SubstationAccount) :
    (s.setMeter k x).pending = s.pending := rfl

/-! ### setLedger -/

@[simp] theorem State.setLedger_powered (s : State) (k : Substation) (x : Ledger) :
    (s.setLedger k x).powered = s.powered := rfl
@[simp] theorem State.setLedger_resetHeld (s : State) (k : Substation) (x : Ledger) :
    (s.setLedger k x).resetHeld = s.resetHeld := rfl
@[simp] theorem State.setLedger_plantRelease (s : State) (k : Substation) (x : Ledger) :
    (s.setLedger k x).plantRelease = s.plantRelease := rfl
@[simp] theorem State.setLedger_clock (s : State) (k : Substation) (x : Ledger) :
    (s.setLedger k x).clock = s.clock := rfl
@[simp] theorem State.setLedger_osc (s : State) (k : Substation) (x : Ledger) : (s.setLedger k x).osc = s.osc := rfl
@[simp] theorem State.setLedger_store (s : State) (k : Substation) (x : Ledger) :
    (s.setLedger k x).store = s.store := rfl
@[simp] theorem State.setLedger_marks (s : State) (k : Substation) (x : Ledger) :
    (s.setLedger k x).marks = s.marks := rfl
@[simp] theorem State.setLedger_acts (s : State) (k : Substation) (x : Ledger) :
    (s.setLedger k x).acts = s.acts := rfl
@[simp] theorem State.setLedger_cfg (s : State) (k : Substation) (x : Ledger) : (s.setLedger k x).cfg = s.cfg := rfl
@[simp] theorem State.setLedger_acc (s : State) (k : Substation) (x : Ledger) :
    (s.setLedger k x).acc = { s.acc with ledgers := s.acc.ledgers.set k x } := rfl
@[simp] theorem State.setLedger_que (s : State) (k : Substation) (x : Ledger) : (s.setLedger k x).que = s.que := rfl
@[simp] theorem State.setLedger_lines (s : State) (k : Substation) (x : Ledger) :
    (s.setLedger k x).lines = s.lines := rfl
@[simp] theorem State.setLedger_channels (s : State) (k : Substation) (x : Ledger) :
    (s.setLedger k x).channels = s.channels := rfl
@[simp] theorem State.setLedger_points (s : State) (k : Substation) (x : Ledger) :
    (s.setLedger k x).points = s.points := rfl
@[simp] theorem State.setLedger_gas (s : State) (k : Substation) (x : Ledger) : (s.setLedger k x).gas = s.gas := rfl
@[simp] theorem State.setLedger_dsp (s : State) (k : Substation) (x : Ledger) : (s.setLedger k x).dsp = s.dsp := rfl
@[simp] theorem State.setLedger_boilers (s : State) (k : Substation) (x : Ledger) :
    (s.setLedger k x).boilers = s.boilers := rfl
@[simp] theorem State.setLedger_esu (s : State) (k : Substation) (x : Ledger) : (s.setLedger k x).esu = s.esu := rfl
@[simp] theorem State.setLedger_hmu (s : State) (k : Substation) (x : Ledger) : (s.setLedger k x).hmu = s.hmu := rfl
@[simp] theorem State.setLedger_bu (s : State) (k : Substation) (x : Ledger) : (s.setLedger k x).bu = s.bu := rfl
@[simp] theorem State.setLedger_conditions (s : State) (k : Substation) (x : Ledger) :
    (s.setLedger k x).conditions = s.conditions := rfl
@[simp] theorem State.setLedger_hlu (s : State) (k : Substation) (x : Ledger) : (s.setLedger k x).hlu = s.hlu := rfl
@[simp] theorem State.setLedger_choices (s : State) (k : Substation) (x : Ledger) :
    (s.setLedger k x).choices = s.choices := rfl
@[simp] theorem State.setLedger_pending (s : State) (k : Substation) (x : Ledger) :
    (s.setLedger k x).pending = s.pending := rfl

/-! ### setOrder -/

@[simp] theorem State.setOrder_powered (s : State) (n : CurtailmentSlot) (x : Option CurtailmentOrder) :
    (s.setOrder n x).powered = s.powered := rfl
@[simp] theorem State.setOrder_resetHeld (s : State) (n : CurtailmentSlot) (x : Option CurtailmentOrder) :
    (s.setOrder n x).resetHeld = s.resetHeld := rfl
@[simp] theorem State.setOrder_plantRelease (s : State) (n : CurtailmentSlot) (x : Option CurtailmentOrder) :
    (s.setOrder n x).plantRelease = s.plantRelease := rfl
@[simp] theorem State.setOrder_clock (s : State) (n : CurtailmentSlot) (x : Option CurtailmentOrder) :
    (s.setOrder n x).clock = s.clock := rfl
@[simp] theorem State.setOrder_osc (s : State) (n : CurtailmentSlot) (x : Option CurtailmentOrder) :
    (s.setOrder n x).osc = s.osc := rfl
@[simp] theorem State.setOrder_store (s : State) (n : CurtailmentSlot) (x : Option CurtailmentOrder) :
    (s.setOrder n x).store = s.store := rfl
@[simp] theorem State.setOrder_marks (s : State) (n : CurtailmentSlot) (x : Option CurtailmentOrder) :
    (s.setOrder n x).marks = s.marks := rfl
@[simp] theorem State.setOrder_acts (s : State) (n : CurtailmentSlot) (x : Option CurtailmentOrder) :
    (s.setOrder n x).acts = s.acts := rfl
@[simp] theorem State.setOrder_cfg (s : State) (n : CurtailmentSlot) (x : Option CurtailmentOrder) :
    (s.setOrder n x).cfg = s.cfg := rfl
@[simp] theorem State.setOrder_acc (s : State) (n : CurtailmentSlot) (x : Option CurtailmentOrder) :
    (s.setOrder n x).acc = s.acc := rfl
@[simp] theorem State.setOrder_que (s : State) (n : CurtailmentSlot) (x : Option CurtailmentOrder) :
    (s.setOrder n x).que = { s.que with orders := s.que.orders.set n x } := rfl
@[simp] theorem State.setOrder_lines (s : State) (n : CurtailmentSlot) (x : Option CurtailmentOrder) :
    (s.setOrder n x).lines = s.lines := rfl
@[simp] theorem State.setOrder_channels (s : State) (n : CurtailmentSlot) (x : Option CurtailmentOrder) :
    (s.setOrder n x).channels = s.channels := rfl
@[simp] theorem State.setOrder_points (s : State) (n : CurtailmentSlot) (x : Option CurtailmentOrder) :
    (s.setOrder n x).points = s.points := rfl
@[simp] theorem State.setOrder_gas (s : State) (n : CurtailmentSlot) (x : Option CurtailmentOrder) :
    (s.setOrder n x).gas = s.gas := rfl
@[simp] theorem State.setOrder_dsp (s : State) (n : CurtailmentSlot) (x : Option CurtailmentOrder) :
    (s.setOrder n x).dsp = s.dsp := rfl
@[simp] theorem State.setOrder_boilers (s : State) (n : CurtailmentSlot) (x : Option CurtailmentOrder) :
    (s.setOrder n x).boilers = s.boilers := rfl
@[simp] theorem State.setOrder_esu (s : State) (n : CurtailmentSlot) (x : Option CurtailmentOrder) :
    (s.setOrder n x).esu = s.esu := rfl
@[simp] theorem State.setOrder_hmu (s : State) (n : CurtailmentSlot) (x : Option CurtailmentOrder) :
    (s.setOrder n x).hmu = s.hmu := rfl
@[simp] theorem State.setOrder_bu (s : State) (n : CurtailmentSlot) (x : Option CurtailmentOrder) :
    (s.setOrder n x).bu = s.bu := rfl
@[simp] theorem State.setOrder_conditions (s : State) (n : CurtailmentSlot) (x : Option CurtailmentOrder) :
    (s.setOrder n x).conditions = s.conditions := rfl
@[simp] theorem State.setOrder_hlu (s : State) (n : CurtailmentSlot) (x : Option CurtailmentOrder) :
    (s.setOrder n x).hlu = s.hlu := rfl
@[simp] theorem State.setOrder_choices (s : State) (n : CurtailmentSlot) (x : Option CurtailmentOrder) :
    (s.setOrder n x).choices = s.choices := rfl
@[simp] theorem State.setOrder_pending (s : State) (n : CurtailmentSlot) (x : Option CurtailmentOrder) :
    (s.setOrder n x).pending = s.pending := rfl

/-! ### setLastRate -/

@[simp] theorem State.setLastRate_powered (s : State) (k : Substation) (r : Nat) :
    (s.setLastRate k r).powered = s.powered := rfl
@[simp] theorem State.setLastRate_resetHeld (s : State) (k : Substation) (r : Nat) :
    (s.setLastRate k r).resetHeld = s.resetHeld := rfl
@[simp] theorem State.setLastRate_plantRelease (s : State) (k : Substation) (r : Nat) :
    (s.setLastRate k r).plantRelease = s.plantRelease := rfl
@[simp] theorem State.setLastRate_clock (s : State) (k : Substation) (r : Nat) :
    (s.setLastRate k r).clock = s.clock := rfl
@[simp] theorem State.setLastRate_osc (s : State) (k : Substation) (r : Nat) : (s.setLastRate k r).osc = s.osc := rfl
@[simp] theorem State.setLastRate_store (s : State) (k : Substation) (r : Nat) :
    (s.setLastRate k r).store = s.store := rfl
@[simp] theorem State.setLastRate_marks (s : State) (k : Substation) (r : Nat) :
    (s.setLastRate k r).marks = s.marks := rfl
@[simp] theorem State.setLastRate_acts (s : State) (k : Substation) (r : Nat) :
    (s.setLastRate k r).acts = s.acts := rfl
@[simp] theorem State.setLastRate_cfg (s : State) (k : Substation) (r : Nat) : (s.setLastRate k r).cfg = s.cfg := rfl
@[simp] theorem State.setLastRate_acc (s : State) (k : Substation) (r : Nat) : (s.setLastRate k r).acc = s.acc := rfl
@[simp] theorem State.setLastRate_que (s : State) (k : Substation) (r : Nat) : (s.setLastRate k r).que = s.que := rfl
@[simp] theorem State.setLastRate_lines (s : State) (k : Substation) (r : Nat) :
    (s.setLastRate k r).lines = s.lines := rfl
@[simp] theorem State.setLastRate_channels (s : State) (k : Substation) (r : Nat) :
    (s.setLastRate k r).channels = s.channels := rfl
@[simp] theorem State.setLastRate_points (s : State) (k : Substation) (r : Nat) :
    (s.setLastRate k r).points = s.points := rfl
@[simp] theorem State.setLastRate_gas (s : State) (k : Substation) (r : Nat) : (s.setLastRate k r).gas = s.gas := rfl
@[simp] theorem State.setLastRate_dsp (s : State) (k : Substation) (r : Nat) : (s.setLastRate k r).dsp = s.dsp := rfl
@[simp] theorem State.setLastRate_boilers (s : State) (k : Substation) (r : Nat) :
    (s.setLastRate k r).boilers = s.boilers := rfl
@[simp] theorem State.setLastRate_esu (s : State) (k : Substation) (r : Nat) : (s.setLastRate k r).esu = s.esu := rfl
@[simp] theorem State.setLastRate_hmu (s : State) (k : Substation) (r : Nat) :
    (s.setLastRate k r).hmu = { s.hmu with lastRates := s.hmu.lastRates.set k r } := rfl
@[simp] theorem State.setLastRate_bu (s : State) (k : Substation) (r : Nat) : (s.setLastRate k r).bu = s.bu := rfl
@[simp] theorem State.setLastRate_conditions (s : State) (k : Substation) (r : Nat) :
    (s.setLastRate k r).conditions = s.conditions := rfl
@[simp] theorem State.setLastRate_hlu (s : State) (k : Substation) (r : Nat) : (s.setLastRate k r).hlu = s.hlu := rfl
@[simp] theorem State.setLastRate_choices (s : State) (k : Substation) (r : Nat) :
    (s.setLastRate k r).choices = s.choices := rfl
@[simp] theorem State.setLastRate_pending (s : State) (k : Substation) (r : Nat) :
    (s.setLastRate k r).pending = s.pending := rfl

/-! ### setUnmeasured -/

@[simp] theorem State.setUnmeasured_powered (s : State) (n : GasSource) (b : Bool) :
    (s.setUnmeasured n b).powered = s.powered := rfl
@[simp] theorem State.setUnmeasured_resetHeld (s : State) (n : GasSource) (b : Bool) :
    (s.setUnmeasured n b).resetHeld = s.resetHeld := rfl
@[simp] theorem State.setUnmeasured_plantRelease (s : State) (n : GasSource) (b : Bool) :
    (s.setUnmeasured n b).plantRelease = s.plantRelease := rfl
@[simp] theorem State.setUnmeasured_clock (s : State) (n : GasSource) (b : Bool) :
    (s.setUnmeasured n b).clock = s.clock := rfl
@[simp] theorem State.setUnmeasured_osc (s : State) (n : GasSource) (b : Bool) :
    (s.setUnmeasured n b).osc = s.osc := rfl
@[simp] theorem State.setUnmeasured_store (s : State) (n : GasSource) (b : Bool) :
    (s.setUnmeasured n b).store = s.store := rfl
@[simp] theorem State.setUnmeasured_marks (s : State) (n : GasSource) (b : Bool) :
    (s.setUnmeasured n b).marks = s.marks := rfl
@[simp] theorem State.setUnmeasured_acts (s : State) (n : GasSource) (b : Bool) :
    (s.setUnmeasured n b).acts = s.acts := rfl
@[simp] theorem State.setUnmeasured_cfg (s : State) (n : GasSource) (b : Bool) :
    (s.setUnmeasured n b).cfg = s.cfg := rfl
@[simp] theorem State.setUnmeasured_acc (s : State) (n : GasSource) (b : Bool) :
    (s.setUnmeasured n b).acc = s.acc := rfl
@[simp] theorem State.setUnmeasured_que (s : State) (n : GasSource) (b : Bool) :
    (s.setUnmeasured n b).que = s.que := rfl
@[simp] theorem State.setUnmeasured_lines (s : State) (n : GasSource) (b : Bool) :
    (s.setUnmeasured n b).lines = s.lines := rfl
@[simp] theorem State.setUnmeasured_channels (s : State) (n : GasSource) (b : Bool) :
    (s.setUnmeasured n b).channels = s.channels := rfl
@[simp] theorem State.setUnmeasured_points (s : State) (n : GasSource) (b : Bool) :
    (s.setUnmeasured n b).points = s.points := rfl
@[simp] theorem State.setUnmeasured_gas (s : State) (n : GasSource) (b : Bool) :
    (s.setUnmeasured n b).gas = { s.gas with unmeasured := s.gas.unmeasured.set n b } := rfl
@[simp] theorem State.setUnmeasured_dsp (s : State) (n : GasSource) (b : Bool) :
    (s.setUnmeasured n b).dsp = s.dsp := rfl
@[simp] theorem State.setUnmeasured_boilers (s : State) (n : GasSource) (b : Bool) :
    (s.setUnmeasured n b).boilers = s.boilers := rfl
@[simp] theorem State.setUnmeasured_esu (s : State) (n : GasSource) (b : Bool) :
    (s.setUnmeasured n b).esu = s.esu := rfl
@[simp] theorem State.setUnmeasured_hmu (s : State) (n : GasSource) (b : Bool) :
    (s.setUnmeasured n b).hmu = s.hmu := rfl
@[simp] theorem State.setUnmeasured_bu (s : State) (n : GasSource) (b : Bool) : (s.setUnmeasured n b).bu = s.bu := rfl
@[simp] theorem State.setUnmeasured_conditions (s : State) (n : GasSource) (b : Bool) :
    (s.setUnmeasured n b).conditions = s.conditions := rfl
@[simp] theorem State.setUnmeasured_hlu (s : State) (n : GasSource) (b : Bool) :
    (s.setUnmeasured n b).hlu = s.hlu := rfl
@[simp] theorem State.setUnmeasured_choices (s : State) (n : GasSource) (b : Bool) :
    (s.setUnmeasured n b).choices = s.choices := rfl
@[simp] theorem State.setUnmeasured_pending (s : State) (n : GasSource) (b : Bool) :
    (s.setUnmeasured n b).pending = s.pending := rfl

/-! ### setPlace -/

@[simp] theorem State.setPlace_powered (s : State) (i : Fin 128) (e : Option ConditionEntry) :
    (s.setPlace i e).powered = s.powered := rfl
@[simp] theorem State.setPlace_resetHeld (s : State) (i : Fin 128) (e : Option ConditionEntry) :
    (s.setPlace i e).resetHeld = s.resetHeld := rfl
@[simp] theorem State.setPlace_plantRelease (s : State) (i : Fin 128) (e : Option ConditionEntry) :
    (s.setPlace i e).plantRelease = s.plantRelease := rfl
@[simp] theorem State.setPlace_clock (s : State) (i : Fin 128) (e : Option ConditionEntry) :
    (s.setPlace i e).clock = s.clock := rfl
@[simp] theorem State.setPlace_osc (s : State) (i : Fin 128) (e : Option ConditionEntry) :
    (s.setPlace i e).osc = s.osc := rfl
@[simp] theorem State.setPlace_store (s : State) (i : Fin 128) (e : Option ConditionEntry) :
    (s.setPlace i e).store = s.store := rfl
@[simp] theorem State.setPlace_marks (s : State) (i : Fin 128) (e : Option ConditionEntry) :
    (s.setPlace i e).marks = s.marks := rfl
@[simp] theorem State.setPlace_acts (s : State) (i : Fin 128) (e : Option ConditionEntry) :
    (s.setPlace i e).acts = s.acts := rfl
@[simp] theorem State.setPlace_cfg (s : State) (i : Fin 128) (e : Option ConditionEntry) :
    (s.setPlace i e).cfg = s.cfg := rfl
@[simp] theorem State.setPlace_acc (s : State) (i : Fin 128) (e : Option ConditionEntry) :
    (s.setPlace i e).acc = s.acc := rfl
@[simp] theorem State.setPlace_que (s : State) (i : Fin 128) (e : Option ConditionEntry) :
    (s.setPlace i e).que = s.que := rfl
@[simp] theorem State.setPlace_lines (s : State) (i : Fin 128) (e : Option ConditionEntry) :
    (s.setPlace i e).lines = s.lines := rfl
@[simp] theorem State.setPlace_channels (s : State) (i : Fin 128) (e : Option ConditionEntry) :
    (s.setPlace i e).channels = s.channels := rfl
@[simp] theorem State.setPlace_points (s : State) (i : Fin 128) (e : Option ConditionEntry) :
    (s.setPlace i e).points = s.points := rfl
@[simp] theorem State.setPlace_gas (s : State) (i : Fin 128) (e : Option ConditionEntry) :
    (s.setPlace i e).gas = s.gas := rfl
@[simp] theorem State.setPlace_dsp (s : State) (i : Fin 128) (e : Option ConditionEntry) :
    (s.setPlace i e).dsp = s.dsp := rfl
@[simp] theorem State.setPlace_boilers (s : State) (i : Fin 128) (e : Option ConditionEntry) :
    (s.setPlace i e).boilers = s.boilers := rfl
@[simp] theorem State.setPlace_esu (s : State) (i : Fin 128) (e : Option ConditionEntry) :
    (s.setPlace i e).esu = s.esu := rfl
@[simp] theorem State.setPlace_hmu (s : State) (i : Fin 128) (e : Option ConditionEntry) :
    (s.setPlace i e).hmu = s.hmu := rfl
@[simp] theorem State.setPlace_bu (s : State) (i : Fin 128) (e : Option ConditionEntry) :
    (s.setPlace i e).bu = s.bu := rfl
@[simp] theorem State.setPlace_conditions (s : State) (i : Fin 128) (e : Option ConditionEntry) :
    (s.setPlace i e).conditions = s.conditions.set i e := rfl
@[simp] theorem State.setPlace_hlu (s : State) (i : Fin 128) (e : Option ConditionEntry) :
    (s.setPlace i e).hlu = s.hlu := rfl
@[simp] theorem State.setPlace_choices (s : State) (i : Fin 128) (e : Option ConditionEntry) :
    (s.setPlace i e).choices = s.choices := rfl
@[simp] theorem State.setPlace_pending (s : State) (i : Fin 128) (e : Option ConditionEntry) :
    (s.setPlace i e).pending = s.pending := rfl

/-! ### setLine -/

@[simp] theorem State.setLine_powered (s : State) (l : FieldLineNo) (x : FieldLine) :
    (s.setLine l x).powered = s.powered := rfl
@[simp] theorem State.setLine_resetHeld (s : State) (l : FieldLineNo) (x : FieldLine) :
    (s.setLine l x).resetHeld = s.resetHeld := rfl
@[simp] theorem State.setLine_plantRelease (s : State) (l : FieldLineNo) (x : FieldLine) :
    (s.setLine l x).plantRelease = s.plantRelease := rfl
@[simp] theorem State.setLine_clock (s : State) (l : FieldLineNo) (x : FieldLine) :
    (s.setLine l x).clock = s.clock := rfl
@[simp] theorem State.setLine_osc (s : State) (l : FieldLineNo) (x : FieldLine) : (s.setLine l x).osc = s.osc := rfl
@[simp] theorem State.setLine_store (s : State) (l : FieldLineNo) (x : FieldLine) :
    (s.setLine l x).store = s.store := rfl
@[simp] theorem State.setLine_marks (s : State) (l : FieldLineNo) (x : FieldLine) :
    (s.setLine l x).marks = s.marks := rfl
@[simp] theorem State.setLine_acts (s : State) (l : FieldLineNo) (x : FieldLine) :
    (s.setLine l x).acts = s.acts := rfl
@[simp] theorem State.setLine_cfg (s : State) (l : FieldLineNo) (x : FieldLine) : (s.setLine l x).cfg = s.cfg := rfl
@[simp] theorem State.setLine_acc (s : State) (l : FieldLineNo) (x : FieldLine) : (s.setLine l x).acc = s.acc := rfl
@[simp] theorem State.setLine_que (s : State) (l : FieldLineNo) (x : FieldLine) : (s.setLine l x).que = s.que := rfl
@[simp] theorem State.setLine_lines (s : State) (l : FieldLineNo) (x : FieldLine) :
    (s.setLine l x).lines = s.lines.set l x := rfl
@[simp] theorem State.setLine_channels (s : State) (l : FieldLineNo) (x : FieldLine) :
    (s.setLine l x).channels = s.channels := rfl
@[simp] theorem State.setLine_points (s : State) (l : FieldLineNo) (x : FieldLine) :
    (s.setLine l x).points = s.points := rfl
@[simp] theorem State.setLine_gas (s : State) (l : FieldLineNo) (x : FieldLine) : (s.setLine l x).gas = s.gas := rfl
@[simp] theorem State.setLine_dsp (s : State) (l : FieldLineNo) (x : FieldLine) : (s.setLine l x).dsp = s.dsp := rfl
@[simp] theorem State.setLine_boilers (s : State) (l : FieldLineNo) (x : FieldLine) :
    (s.setLine l x).boilers = s.boilers := rfl
@[simp] theorem State.setLine_esu (s : State) (l : FieldLineNo) (x : FieldLine) : (s.setLine l x).esu = s.esu := rfl
@[simp] theorem State.setLine_hmu (s : State) (l : FieldLineNo) (x : FieldLine) : (s.setLine l x).hmu = s.hmu := rfl
@[simp] theorem State.setLine_bu (s : State) (l : FieldLineNo) (x : FieldLine) : (s.setLine l x).bu = s.bu := rfl
@[simp] theorem State.setLine_conditions (s : State) (l : FieldLineNo) (x : FieldLine) :
    (s.setLine l x).conditions = s.conditions := rfl
@[simp] theorem State.setLine_hlu (s : State) (l : FieldLineNo) (x : FieldLine) : (s.setLine l x).hlu = s.hlu := rfl
@[simp] theorem State.setLine_choices (s : State) (l : FieldLineNo) (x : FieldLine) :
    (s.setLine l x).choices = s.choices := rfl
@[simp] theorem State.setLine_pending (s : State) (l : FieldLineNo) (x : FieldLine) :
    (s.setLine l x).pending = s.pending := rfl

/-! ### setLink -/

@[simp] theorem State.setLink_powered (s : State) (h : HostLink) : (s.setLink h).powered = s.powered := rfl
@[simp] theorem State.setLink_resetHeld (s : State) (h : HostLink) : (s.setLink h).resetHeld = s.resetHeld := rfl
@[simp] theorem State.setLink_plantRelease (s : State) (h : HostLink) :
    (s.setLink h).plantRelease = s.plantRelease := rfl
@[simp] theorem State.setLink_clock (s : State) (h : HostLink) : (s.setLink h).clock = s.clock := rfl
@[simp] theorem State.setLink_osc (s : State) (h : HostLink) : (s.setLink h).osc = s.osc := rfl
@[simp] theorem State.setLink_store (s : State) (h : HostLink) : (s.setLink h).store = s.store := rfl
@[simp] theorem State.setLink_marks (s : State) (h : HostLink) : (s.setLink h).marks = s.marks := rfl
@[simp] theorem State.setLink_acts (s : State) (h : HostLink) : (s.setLink h).acts = s.acts := rfl
@[simp] theorem State.setLink_cfg (s : State) (h : HostLink) : (s.setLink h).cfg = s.cfg := rfl
@[simp] theorem State.setLink_acc (s : State) (h : HostLink) : (s.setLink h).acc = s.acc := rfl
@[simp] theorem State.setLink_que (s : State) (h : HostLink) : (s.setLink h).que = s.que := rfl
@[simp] theorem State.setLink_lines (s : State) (h : HostLink) : (s.setLink h).lines = s.lines := rfl
@[simp] theorem State.setLink_channels (s : State) (h : HostLink) : (s.setLink h).channels = s.channels := rfl
@[simp] theorem State.setLink_points (s : State) (h : HostLink) : (s.setLink h).points = s.points := rfl
@[simp] theorem State.setLink_gas (s : State) (h : HostLink) : (s.setLink h).gas = s.gas := rfl
@[simp] theorem State.setLink_dsp (s : State) (h : HostLink) : (s.setLink h).dsp = s.dsp := rfl
@[simp] theorem State.setLink_boilers (s : State) (h : HostLink) : (s.setLink h).boilers = s.boilers := rfl
@[simp] theorem State.setLink_esu (s : State) (h : HostLink) : (s.setLink h).esu = s.esu := rfl
@[simp] theorem State.setLink_hmu (s : State) (h : HostLink) : (s.setLink h).hmu = s.hmu := rfl
@[simp] theorem State.setLink_bu (s : State) (h : HostLink) : (s.setLink h).bu = s.bu := rfl
@[simp] theorem State.setLink_conditions (s : State) (h : HostLink) : (s.setLink h).conditions = s.conditions := rfl
@[simp] theorem State.setLink_hlu (s : State) (h : HostLink) : (s.setLink h).hlu = h := rfl
@[simp] theorem State.setLink_choices (s : State) (h : HostLink) : (s.setLink h).choices = s.choices := rfl
@[simp] theorem State.setLink_pending (s : State) (h : HostLink) : (s.setLink h).pending = s.pending := rfl

/-! ### setAssembler -/

@[simp] theorem State.setAssembler_powered (s : State) (a : Assembler) : (s.setAssembler a).powered = s.powered := rfl
@[simp] theorem State.setAssembler_resetHeld (s : State) (a : Assembler) :
    (s.setAssembler a).resetHeld = s.resetHeld := rfl
@[simp] theorem State.setAssembler_plantRelease (s : State) (a : Assembler) :
    (s.setAssembler a).plantRelease = s.plantRelease := rfl
@[simp] theorem State.setAssembler_clock (s : State) (a : Assembler) : (s.setAssembler a).clock = s.clock := rfl
@[simp] theorem State.setAssembler_osc (s : State) (a : Assembler) : (s.setAssembler a).osc = s.osc := rfl
@[simp] theorem State.setAssembler_store (s : State) (a : Assembler) : (s.setAssembler a).store = s.store := rfl
@[simp] theorem State.setAssembler_marks (s : State) (a : Assembler) : (s.setAssembler a).marks = s.marks := rfl
@[simp] theorem State.setAssembler_acts (s : State) (a : Assembler) : (s.setAssembler a).acts = s.acts := rfl
@[simp] theorem State.setAssembler_cfg (s : State) (a : Assembler) : (s.setAssembler a).cfg = s.cfg := rfl
@[simp] theorem State.setAssembler_acc (s : State) (a : Assembler) : (s.setAssembler a).acc = s.acc := rfl
@[simp] theorem State.setAssembler_que (s : State) (a : Assembler) : (s.setAssembler a).que = s.que := rfl
@[simp] theorem State.setAssembler_lines (s : State) (a : Assembler) : (s.setAssembler a).lines = s.lines := rfl
@[simp] theorem State.setAssembler_channels (s : State) (a : Assembler) :
    (s.setAssembler a).channels = s.channels := rfl
@[simp] theorem State.setAssembler_points (s : State) (a : Assembler) : (s.setAssembler a).points = s.points := rfl
@[simp] theorem State.setAssembler_gas (s : State) (a : Assembler) : (s.setAssembler a).gas = s.gas := rfl
@[simp] theorem State.setAssembler_dsp (s : State) (a : Assembler) : (s.setAssembler a).dsp = s.dsp := rfl
@[simp] theorem State.setAssembler_boilers (s : State) (a : Assembler) : (s.setAssembler a).boilers = s.boilers := rfl
@[simp] theorem State.setAssembler_esu (s : State) (a : Assembler) : (s.setAssembler a).esu = s.esu := rfl
@[simp] theorem State.setAssembler_hmu (s : State) (a : Assembler) : (s.setAssembler a).hmu = s.hmu := rfl
@[simp] theorem State.setAssembler_bu (s : State) (a : Assembler) : (s.setAssembler a).bu = s.bu := rfl
@[simp] theorem State.setAssembler_conditions (s : State) (a : Assembler) :
    (s.setAssembler a).conditions = s.conditions := rfl
@[simp] theorem State.setAssembler_hlu (s : State) (a : Assembler) :
    (s.setAssembler a).hlu = { s.hlu with assembler := a } := rfl
@[simp] theorem State.setAssembler_choices (s : State) (a : Assembler) : (s.setAssembler a).choices = s.choices := rfl
@[simp] theorem State.setAssembler_pending (s : State) (a : Assembler) : (s.setAssembler a).pending = s.pending := rfl

/-! ### markConfig -/

@[simp] theorem State.markConfig_powered (s : State) : s.markConfig.powered = s.powered := rfl
@[simp] theorem State.markConfig_resetHeld (s : State) : s.markConfig.resetHeld = s.resetHeld := rfl
@[simp] theorem State.markConfig_plantRelease (s : State) : s.markConfig.plantRelease = s.plantRelease := rfl
@[simp] theorem State.markConfig_clock (s : State) : s.markConfig.clock = s.clock := rfl
@[simp] theorem State.markConfig_osc (s : State) : s.markConfig.osc = s.osc := rfl
@[simp] theorem State.markConfig_store (s : State) : s.markConfig.store = s.store := rfl
@[simp] theorem State.markConfig_marks (s : State) : s.markConfig.marks = { s.marks with config := true } := rfl
@[simp] theorem State.markConfig_acts (s : State) : s.markConfig.acts = s.acts := rfl
@[simp] theorem State.markConfig_cfg (s : State) : s.markConfig.cfg = s.cfg := rfl
@[simp] theorem State.markConfig_acc (s : State) : s.markConfig.acc = s.acc := rfl
@[simp] theorem State.markConfig_que (s : State) : s.markConfig.que = s.que := rfl
@[simp] theorem State.markConfig_lines (s : State) : s.markConfig.lines = s.lines := rfl
@[simp] theorem State.markConfig_channels (s : State) : s.markConfig.channels = s.channels := rfl
@[simp] theorem State.markConfig_points (s : State) : s.markConfig.points = s.points := rfl
@[simp] theorem State.markConfig_gas (s : State) : s.markConfig.gas = s.gas := rfl
@[simp] theorem State.markConfig_dsp (s : State) : s.markConfig.dsp = s.dsp := rfl
@[simp] theorem State.markConfig_boilers (s : State) : s.markConfig.boilers = s.boilers := rfl
@[simp] theorem State.markConfig_esu (s : State) : s.markConfig.esu = s.esu := rfl
@[simp] theorem State.markConfig_hmu (s : State) : s.markConfig.hmu = s.hmu := rfl
@[simp] theorem State.markConfig_bu (s : State) : s.markConfig.bu = s.bu := rfl
@[simp] theorem State.markConfig_conditions (s : State) : s.markConfig.conditions = s.conditions := rfl
@[simp] theorem State.markConfig_hlu (s : State) : s.markConfig.hlu = s.hlu := rfl
@[simp] theorem State.markConfig_choices (s : State) : s.markConfig.choices = s.choices := rfl
@[simp] theorem State.markConfig_pending (s : State) : s.markConfig.pending = s.pending := rfl

/-! ### markAccounts -/

@[simp] theorem State.markAccounts_powered (s : State) : s.markAccounts.powered = s.powered := rfl
@[simp] theorem State.markAccounts_resetHeld (s : State) : s.markAccounts.resetHeld = s.resetHeld := rfl
@[simp] theorem State.markAccounts_plantRelease (s : State) : s.markAccounts.plantRelease = s.plantRelease := rfl
@[simp] theorem State.markAccounts_clock (s : State) : s.markAccounts.clock = s.clock := rfl
@[simp] theorem State.markAccounts_osc (s : State) : s.markAccounts.osc = s.osc := rfl
@[simp] theorem State.markAccounts_store (s : State) : s.markAccounts.store = s.store := rfl
@[simp] theorem State.markAccounts_marks (s : State) : s.markAccounts.marks = { s.marks with accounts := true } := rfl
@[simp] theorem State.markAccounts_acts (s : State) : s.markAccounts.acts = s.acts := rfl
@[simp] theorem State.markAccounts_cfg (s : State) : s.markAccounts.cfg = s.cfg := rfl
@[simp] theorem State.markAccounts_acc (s : State) : s.markAccounts.acc = s.acc := rfl
@[simp] theorem State.markAccounts_que (s : State) : s.markAccounts.que = s.que := rfl
@[simp] theorem State.markAccounts_lines (s : State) : s.markAccounts.lines = s.lines := rfl
@[simp] theorem State.markAccounts_channels (s : State) : s.markAccounts.channels = s.channels := rfl
@[simp] theorem State.markAccounts_points (s : State) : s.markAccounts.points = s.points := rfl
@[simp] theorem State.markAccounts_gas (s : State) : s.markAccounts.gas = s.gas := rfl
@[simp] theorem State.markAccounts_dsp (s : State) : s.markAccounts.dsp = s.dsp := rfl
@[simp] theorem State.markAccounts_boilers (s : State) : s.markAccounts.boilers = s.boilers := rfl
@[simp] theorem State.markAccounts_esu (s : State) : s.markAccounts.esu = s.esu := rfl
@[simp] theorem State.markAccounts_hmu (s : State) : s.markAccounts.hmu = s.hmu := rfl
@[simp] theorem State.markAccounts_bu (s : State) : s.markAccounts.bu = s.bu := rfl
@[simp] theorem State.markAccounts_conditions (s : State) : s.markAccounts.conditions = s.conditions := rfl
@[simp] theorem State.markAccounts_hlu (s : State) : s.markAccounts.hlu = s.hlu := rfl
@[simp] theorem State.markAccounts_choices (s : State) : s.markAccounts.choices = s.choices := rfl
@[simp] theorem State.markAccounts_pending (s : State) : s.markAccounts.pending = s.pending := rfl

/-! ### markQueues -/

@[simp] theorem State.markQueues_powered (s : State) : s.markQueues.powered = s.powered := rfl
@[simp] theorem State.markQueues_resetHeld (s : State) : s.markQueues.resetHeld = s.resetHeld := rfl
@[simp] theorem State.markQueues_plantRelease (s : State) : s.markQueues.plantRelease = s.plantRelease := rfl
@[simp] theorem State.markQueues_clock (s : State) : s.markQueues.clock = s.clock := rfl
@[simp] theorem State.markQueues_osc (s : State) : s.markQueues.osc = s.osc := rfl
@[simp] theorem State.markQueues_store (s : State) : s.markQueues.store = s.store := rfl
@[simp] theorem State.markQueues_marks (s : State) : s.markQueues.marks = { s.marks with queues := true } := rfl
@[simp] theorem State.markQueues_acts (s : State) : s.markQueues.acts = s.acts := rfl
@[simp] theorem State.markQueues_cfg (s : State) : s.markQueues.cfg = s.cfg := rfl
@[simp] theorem State.markQueues_acc (s : State) : s.markQueues.acc = s.acc := rfl
@[simp] theorem State.markQueues_que (s : State) : s.markQueues.que = s.que := rfl
@[simp] theorem State.markQueues_lines (s : State) : s.markQueues.lines = s.lines := rfl
@[simp] theorem State.markQueues_channels (s : State) : s.markQueues.channels = s.channels := rfl
@[simp] theorem State.markQueues_points (s : State) : s.markQueues.points = s.points := rfl
@[simp] theorem State.markQueues_gas (s : State) : s.markQueues.gas = s.gas := rfl
@[simp] theorem State.markQueues_dsp (s : State) : s.markQueues.dsp = s.dsp := rfl
@[simp] theorem State.markQueues_boilers (s : State) : s.markQueues.boilers = s.boilers := rfl
@[simp] theorem State.markQueues_esu (s : State) : s.markQueues.esu = s.esu := rfl
@[simp] theorem State.markQueues_hmu (s : State) : s.markQueues.hmu = s.hmu := rfl
@[simp] theorem State.markQueues_bu (s : State) : s.markQueues.bu = s.bu := rfl
@[simp] theorem State.markQueues_conditions (s : State) : s.markQueues.conditions = s.conditions := rfl
@[simp] theorem State.markQueues_hlu (s : State) : s.markQueues.hlu = s.hlu := rfl
@[simp] theorem State.markQueues_choices (s : State) : s.markQueues.choices = s.choices := rfl
@[simp] theorem State.markQueues_pending (s : State) : s.markQueues.pending = s.pending := rfl

/-! ### setSource -/

@[simp] theorem State.setSource_powered (s : State) (n : GasSource) (x : SourceSetting) :
    (s.setSource n x).powered = s.powered := rfl
@[simp] theorem State.setSource_resetHeld (s : State) (n : GasSource) (x : SourceSetting) :
    (s.setSource n x).resetHeld = s.resetHeld := rfl
@[simp] theorem State.setSource_plantRelease (s : State) (n : GasSource) (x : SourceSetting) :
    (s.setSource n x).plantRelease = s.plantRelease := rfl
@[simp] theorem State.setSource_clock (s : State) (n : GasSource) (x : SourceSetting) :
    (s.setSource n x).clock = s.clock := rfl
@[simp] theorem State.setSource_osc (s : State) (n : GasSource) (x : SourceSetting) :
    (s.setSource n x).osc = s.osc := rfl
@[simp] theorem State.setSource_store (s : State) (n : GasSource) (x : SourceSetting) :
    (s.setSource n x).store = s.store := rfl
@[simp] theorem State.setSource_marks (s : State) (n : GasSource) (x : SourceSetting) :
    (s.setSource n x).marks = { s.marks with config := true } := rfl
@[simp] theorem State.setSource_acts (s : State) (n : GasSource) (x : SourceSetting) :
    (s.setSource n x).acts = s.acts := rfl
@[simp] theorem State.setSource_cfg (s : State) (n : GasSource) (x : SourceSetting) :
    (s.setSource n x).cfg = { s.cfg with sources := s.cfg.sources.set n x } := rfl
@[simp] theorem State.setSource_acc (s : State) (n : GasSource) (x : SourceSetting) :
    (s.setSource n x).acc = s.acc := rfl
@[simp] theorem State.setSource_que (s : State) (n : GasSource) (x : SourceSetting) :
    (s.setSource n x).que = s.que := rfl
@[simp] theorem State.setSource_lines (s : State) (n : GasSource) (x : SourceSetting) :
    (s.setSource n x).lines = s.lines := rfl
@[simp] theorem State.setSource_channels (s : State) (n : GasSource) (x : SourceSetting) :
    (s.setSource n x).channels = s.channels := rfl
@[simp] theorem State.setSource_points (s : State) (n : GasSource) (x : SourceSetting) :
    (s.setSource n x).points = s.points := rfl
@[simp] theorem State.setSource_gas (s : State) (n : GasSource) (x : SourceSetting) :
    (s.setSource n x).gas = s.gas := rfl
@[simp] theorem State.setSource_dsp (s : State) (n : GasSource) (x : SourceSetting) :
    (s.setSource n x).dsp = s.dsp := rfl
@[simp] theorem State.setSource_boilers (s : State) (n : GasSource) (x : SourceSetting) :
    (s.setSource n x).boilers = s.boilers := rfl
@[simp] theorem State.setSource_esu (s : State) (n : GasSource) (x : SourceSetting) :
    (s.setSource n x).esu = s.esu := rfl
@[simp] theorem State.setSource_hmu (s : State) (n : GasSource) (x : SourceSetting) :
    (s.setSource n x).hmu = s.hmu := rfl
@[simp] theorem State.setSource_bu (s : State) (n : GasSource) (x : SourceSetting) :
    (s.setSource n x).bu = s.bu := rfl
@[simp] theorem State.setSource_conditions (s : State) (n : GasSource) (x : SourceSetting) :
    (s.setSource n x).conditions = s.conditions := rfl
@[simp] theorem State.setSource_hlu (s : State) (n : GasSource) (x : SourceSetting) :
    (s.setSource n x).hlu = s.hlu := rfl
@[simp] theorem State.setSource_choices (s : State) (n : GasSource) (x : SourceSetting) :
    (s.setSource n x).choices = s.choices := rfl
@[simp] theorem State.setSource_pending (s : State) (n : GasSource) (x : SourceSetting) :
    (s.setSource n x).pending = s.pending := rfl

/-! ### putChannelConfig -/

@[simp] theorem State.putChannelConfig_powered (s : State) (c : ChannelNo) (x : ChannelConfig) :
    (s.putChannelConfig c x).powered = s.powered := rfl
@[simp] theorem State.putChannelConfig_resetHeld (s : State) (c : ChannelNo) (x : ChannelConfig) :
    (s.putChannelConfig c x).resetHeld = s.resetHeld := rfl
@[simp] theorem State.putChannelConfig_plantRelease (s : State) (c : ChannelNo) (x : ChannelConfig) :
    (s.putChannelConfig c x).plantRelease = s.plantRelease := rfl
@[simp] theorem State.putChannelConfig_clock (s : State) (c : ChannelNo) (x : ChannelConfig) :
    (s.putChannelConfig c x).clock = s.clock := rfl
@[simp] theorem State.putChannelConfig_osc (s : State) (c : ChannelNo) (x : ChannelConfig) :
    (s.putChannelConfig c x).osc = s.osc := rfl
@[simp] theorem State.putChannelConfig_store (s : State) (c : ChannelNo) (x : ChannelConfig) :
    (s.putChannelConfig c x).store = s.store := rfl
@[simp] theorem State.putChannelConfig_marks (s : State) (c : ChannelNo) (x : ChannelConfig) :
    (s.putChannelConfig c x).marks = { s.marks with config := true } := rfl
@[simp] theorem State.putChannelConfig_acts (s : State) (c : ChannelNo) (x : ChannelConfig) :
    (s.putChannelConfig c x).acts = s.acts := rfl
@[simp] theorem State.putChannelConfig_cfg (s : State) (c : ChannelNo) (x : ChannelConfig) :
    (s.putChannelConfig c x).cfg = { s.cfg with channels := s.cfg.channels.set c x } := rfl
@[simp] theorem State.putChannelConfig_acc (s : State) (c : ChannelNo) (x : ChannelConfig) :
    (s.putChannelConfig c x).acc = s.acc := rfl
@[simp] theorem State.putChannelConfig_que (s : State) (c : ChannelNo) (x : ChannelConfig) :
    (s.putChannelConfig c x).que = s.que := rfl
@[simp] theorem State.putChannelConfig_lines (s : State) (c : ChannelNo) (x : ChannelConfig) :
    (s.putChannelConfig c x).lines = s.lines := rfl
@[simp] theorem State.putChannelConfig_channels (s : State) (c : ChannelNo) (x : ChannelConfig) :
    (s.putChannelConfig c x).channels = s.channels := rfl
@[simp] theorem State.putChannelConfig_points (s : State) (c : ChannelNo) (x : ChannelConfig) :
    (s.putChannelConfig c x).points = s.points := rfl
@[simp] theorem State.putChannelConfig_gas (s : State) (c : ChannelNo) (x : ChannelConfig) :
    (s.putChannelConfig c x).gas = s.gas := rfl
@[simp] theorem State.putChannelConfig_dsp (s : State) (c : ChannelNo) (x : ChannelConfig) :
    (s.putChannelConfig c x).dsp = s.dsp := rfl
@[simp] theorem State.putChannelConfig_boilers (s : State) (c : ChannelNo) (x : ChannelConfig) :
    (s.putChannelConfig c x).boilers = s.boilers := rfl
@[simp] theorem State.putChannelConfig_esu (s : State) (c : ChannelNo) (x : ChannelConfig) :
    (s.putChannelConfig c x).esu = s.esu := rfl
@[simp] theorem State.putChannelConfig_hmu (s : State) (c : ChannelNo) (x : ChannelConfig) :
    (s.putChannelConfig c x).hmu = s.hmu := rfl
@[simp] theorem State.putChannelConfig_bu (s : State) (c : ChannelNo) (x : ChannelConfig) :
    (s.putChannelConfig c x).bu = s.bu := rfl
@[simp] theorem State.putChannelConfig_conditions (s : State) (c : ChannelNo) (x : ChannelConfig) :
    (s.putChannelConfig c x).conditions = s.conditions := rfl
@[simp] theorem State.putChannelConfig_hlu (s : State) (c : ChannelNo) (x : ChannelConfig) :
    (s.putChannelConfig c x).hlu = s.hlu := rfl
@[simp] theorem State.putChannelConfig_choices (s : State) (c : ChannelNo) (x : ChannelConfig) :
    (s.putChannelConfig c x).choices = s.choices := rfl
@[simp] theorem State.putChannelConfig_pending (s : State) (c : ChannelNo) (x : ChannelConfig) :
    (s.putChannelConfig c x).pending = s.pending := rfl

/-! ### putPointConfig -/

@[simp] theorem State.putPointConfig_powered (s : State) (p : PointNo) (x : Option PointConfig) :
    (s.putPointConfig p x).powered = s.powered := rfl
@[simp] theorem State.putPointConfig_resetHeld (s : State) (p : PointNo) (x : Option PointConfig) :
    (s.putPointConfig p x).resetHeld = s.resetHeld := rfl
@[simp] theorem State.putPointConfig_plantRelease (s : State) (p : PointNo) (x : Option PointConfig) :
    (s.putPointConfig p x).plantRelease = s.plantRelease := rfl
@[simp] theorem State.putPointConfig_clock (s : State) (p : PointNo) (x : Option PointConfig) :
    (s.putPointConfig p x).clock = s.clock := rfl
@[simp] theorem State.putPointConfig_osc (s : State) (p : PointNo) (x : Option PointConfig) :
    (s.putPointConfig p x).osc = s.osc := rfl
@[simp] theorem State.putPointConfig_store (s : State) (p : PointNo) (x : Option PointConfig) :
    (s.putPointConfig p x).store = s.store := rfl
@[simp] theorem State.putPointConfig_marks (s : State) (p : PointNo) (x : Option PointConfig) :
    (s.putPointConfig p x).marks = { s.marks with config := true } := rfl
@[simp] theorem State.putPointConfig_acts (s : State) (p : PointNo) (x : Option PointConfig) :
    (s.putPointConfig p x).acts = s.acts := rfl
@[simp] theorem State.putPointConfig_cfg (s : State) (p : PointNo) (x : Option PointConfig) :
    (s.putPointConfig p x).cfg = { s.cfg with points := s.cfg.points.set p x } := rfl
@[simp] theorem State.putPointConfig_acc (s : State) (p : PointNo) (x : Option PointConfig) :
    (s.putPointConfig p x).acc = s.acc := rfl
@[simp] theorem State.putPointConfig_que (s : State) (p : PointNo) (x : Option PointConfig) :
    (s.putPointConfig p x).que = s.que := rfl
@[simp] theorem State.putPointConfig_lines (s : State) (p : PointNo) (x : Option PointConfig) :
    (s.putPointConfig p x).lines = s.lines := rfl
@[simp] theorem State.putPointConfig_channels (s : State) (p : PointNo) (x : Option PointConfig) :
    (s.putPointConfig p x).channels = s.channels := rfl
@[simp] theorem State.putPointConfig_points (s : State) (p : PointNo) (x : Option PointConfig) :
    (s.putPointConfig p x).points = s.points := rfl
@[simp] theorem State.putPointConfig_gas (s : State) (p : PointNo) (x : Option PointConfig) :
    (s.putPointConfig p x).gas = s.gas := rfl
@[simp] theorem State.putPointConfig_dsp (s : State) (p : PointNo) (x : Option PointConfig) :
    (s.putPointConfig p x).dsp = s.dsp := rfl
@[simp] theorem State.putPointConfig_boilers (s : State) (p : PointNo) (x : Option PointConfig) :
    (s.putPointConfig p x).boilers = s.boilers := rfl
@[simp] theorem State.putPointConfig_esu (s : State) (p : PointNo) (x : Option PointConfig) :
    (s.putPointConfig p x).esu = s.esu := rfl
@[simp] theorem State.putPointConfig_hmu (s : State) (p : PointNo) (x : Option PointConfig) :
    (s.putPointConfig p x).hmu = s.hmu := rfl
@[simp] theorem State.putPointConfig_bu (s : State) (p : PointNo) (x : Option PointConfig) :
    (s.putPointConfig p x).bu = s.bu := rfl
@[simp] theorem State.putPointConfig_conditions (s : State) (p : PointNo) (x : Option PointConfig) :
    (s.putPointConfig p x).conditions = s.conditions := rfl
@[simp] theorem State.putPointConfig_hlu (s : State) (p : PointNo) (x : Option PointConfig) :
    (s.putPointConfig p x).hlu = s.hlu := rfl
@[simp] theorem State.putPointConfig_choices (s : State) (p : PointNo) (x : Option PointConfig) :
    (s.putPointConfig p x).choices = s.choices := rfl
@[simp] theorem State.putPointConfig_pending (s : State) (p : PointNo) (x : Option PointConfig) :
    (s.putPointConfig p x).pending = s.pending := rfl

/-! ### putMeter -/

@[simp] theorem State.putMeter_powered (s : State) (k : Substation) (x : SubstationAccount) :
    (s.putMeter k x).powered = s.powered := rfl
@[simp] theorem State.putMeter_resetHeld (s : State) (k : Substation) (x : SubstationAccount) :
    (s.putMeter k x).resetHeld = s.resetHeld := rfl
@[simp] theorem State.putMeter_plantRelease (s : State) (k : Substation) (x : SubstationAccount) :
    (s.putMeter k x).plantRelease = s.plantRelease := rfl
@[simp] theorem State.putMeter_clock (s : State) (k : Substation) (x : SubstationAccount) :
    (s.putMeter k x).clock = s.clock := rfl
@[simp] theorem State.putMeter_osc (s : State) (k : Substation) (x : SubstationAccount) :
    (s.putMeter k x).osc = s.osc := rfl
@[simp] theorem State.putMeter_store (s : State) (k : Substation) (x : SubstationAccount) :
    (s.putMeter k x).store = s.store := rfl
@[simp] theorem State.putMeter_marks (s : State) (k : Substation) (x : SubstationAccount) :
    (s.putMeter k x).marks = { s.marks with accounts := true } := rfl
@[simp] theorem State.putMeter_acts (s : State) (k : Substation) (x : SubstationAccount) :
    (s.putMeter k x).acts = s.acts := rfl
@[simp] theorem State.putMeter_cfg (s : State) (k : Substation) (x : SubstationAccount) :
    (s.putMeter k x).cfg = s.cfg := rfl
@[simp] theorem State.putMeter_acc (s : State) (k : Substation) (x : SubstationAccount) :
    (s.putMeter k x).acc = { s.acc with meters := s.acc.meters.set k x } := rfl
@[simp] theorem State.putMeter_que (s : State) (k : Substation) (x : SubstationAccount) :
    (s.putMeter k x).que = s.que := rfl
@[simp] theorem State.putMeter_lines (s : State) (k : Substation) (x : SubstationAccount) :
    (s.putMeter k x).lines = s.lines := rfl
@[simp] theorem State.putMeter_channels (s : State) (k : Substation) (x : SubstationAccount) :
    (s.putMeter k x).channels = s.channels := rfl
@[simp] theorem State.putMeter_points (s : State) (k : Substation) (x : SubstationAccount) :
    (s.putMeter k x).points = s.points := rfl
@[simp] theorem State.putMeter_gas (s : State) (k : Substation) (x : SubstationAccount) :
    (s.putMeter k x).gas = s.gas := rfl
@[simp] theorem State.putMeter_dsp (s : State) (k : Substation) (x : SubstationAccount) :
    (s.putMeter k x).dsp = s.dsp := rfl
@[simp] theorem State.putMeter_boilers (s : State) (k : Substation) (x : SubstationAccount) :
    (s.putMeter k x).boilers = s.boilers := rfl
@[simp] theorem State.putMeter_esu (s : State) (k : Substation) (x : SubstationAccount) :
    (s.putMeter k x).esu = s.esu := rfl
@[simp] theorem State.putMeter_hmu (s : State) (k : Substation) (x : SubstationAccount) :
    (s.putMeter k x).hmu = s.hmu := rfl
@[simp] theorem State.putMeter_bu (s : State) (k : Substation) (x : SubstationAccount) :
    (s.putMeter k x).bu = s.bu := rfl
@[simp] theorem State.putMeter_conditions (s : State) (k : Substation) (x : SubstationAccount) :
    (s.putMeter k x).conditions = s.conditions := rfl
@[simp] theorem State.putMeter_hlu (s : State) (k : Substation) (x : SubstationAccount) :
    (s.putMeter k x).hlu = s.hlu := rfl
@[simp] theorem State.putMeter_choices (s : State) (k : Substation) (x : SubstationAccount) :
    (s.putMeter k x).choices = s.choices := rfl
@[simp] theorem State.putMeter_pending (s : State) (k : Substation) (x : SubstationAccount) :
    (s.putMeter k x).pending = s.pending := rfl

/-! ### mapOrders -/

@[simp] theorem State.mapOrders_powered (s : State) (f : CurtailmentOrder → Option CurtailmentOrder) :
    (s.mapOrders f).powered = s.powered := rfl
@[simp] theorem State.mapOrders_resetHeld (s : State) (f : CurtailmentOrder → Option CurtailmentOrder) :
    (s.mapOrders f).resetHeld = s.resetHeld := rfl
@[simp] theorem State.mapOrders_plantRelease (s : State) (f : CurtailmentOrder → Option CurtailmentOrder) :
    (s.mapOrders f).plantRelease = s.plantRelease := rfl
@[simp] theorem State.mapOrders_clock (s : State) (f : CurtailmentOrder → Option CurtailmentOrder) :
    (s.mapOrders f).clock = s.clock := rfl
@[simp] theorem State.mapOrders_osc (s : State) (f : CurtailmentOrder → Option CurtailmentOrder) :
    (s.mapOrders f).osc = s.osc := rfl
@[simp] theorem State.mapOrders_store (s : State) (f : CurtailmentOrder → Option CurtailmentOrder) :
    (s.mapOrders f).store = s.store := rfl
@[simp] theorem State.mapOrders_marks (s : State) (f : CurtailmentOrder → Option CurtailmentOrder) :
    (s.mapOrders f).marks = s.marks := rfl
@[simp] theorem State.mapOrders_acts (s : State) (f : CurtailmentOrder → Option CurtailmentOrder) :
    (s.mapOrders f).acts = s.acts := rfl
@[simp] theorem State.mapOrders_cfg (s : State) (f : CurtailmentOrder → Option CurtailmentOrder) :
    (s.mapOrders f).cfg = s.cfg := rfl
@[simp] theorem State.mapOrders_acc (s : State) (f : CurtailmentOrder → Option CurtailmentOrder) :
    (s.mapOrders f).acc = s.acc := rfl
@[simp] theorem State.mapOrders_que (s : State) (f : CurtailmentOrder → Option CurtailmentOrder) :
    (s.mapOrders f).que = { s.que with orders := s.que.orders.map fun o => Option.bind o f } := rfl
@[simp] theorem State.mapOrders_lines (s : State) (f : CurtailmentOrder → Option CurtailmentOrder) :
    (s.mapOrders f).lines = s.lines := rfl
@[simp] theorem State.mapOrders_channels (s : State) (f : CurtailmentOrder → Option CurtailmentOrder) :
    (s.mapOrders f).channels = s.channels := rfl
@[simp] theorem State.mapOrders_points (s : State) (f : CurtailmentOrder → Option CurtailmentOrder) :
    (s.mapOrders f).points = s.points := rfl
@[simp] theorem State.mapOrders_gas (s : State) (f : CurtailmentOrder → Option CurtailmentOrder) :
    (s.mapOrders f).gas = s.gas := rfl
@[simp] theorem State.mapOrders_dsp (s : State) (f : CurtailmentOrder → Option CurtailmentOrder) :
    (s.mapOrders f).dsp = s.dsp := rfl
@[simp] theorem State.mapOrders_boilers (s : State) (f : CurtailmentOrder → Option CurtailmentOrder) :
    (s.mapOrders f).boilers = s.boilers := rfl
@[simp] theorem State.mapOrders_esu (s : State) (f : CurtailmentOrder → Option CurtailmentOrder) :
    (s.mapOrders f).esu = s.esu := rfl
@[simp] theorem State.mapOrders_hmu (s : State) (f : CurtailmentOrder → Option CurtailmentOrder) :
    (s.mapOrders f).hmu = s.hmu := rfl
@[simp] theorem State.mapOrders_bu (s : State) (f : CurtailmentOrder → Option CurtailmentOrder) :
    (s.mapOrders f).bu = s.bu := rfl
@[simp] theorem State.mapOrders_conditions (s : State) (f : CurtailmentOrder → Option CurtailmentOrder) :
    (s.mapOrders f).conditions = s.conditions := rfl
@[simp] theorem State.mapOrders_hlu (s : State) (f : CurtailmentOrder → Option CurtailmentOrder) :
    (s.mapOrders f).hlu = s.hlu := rfl
@[simp] theorem State.mapOrders_choices (s : State) (f : CurtailmentOrder → Option CurtailmentOrder) :
    (s.mapOrders f).choices = s.choices := rfl
@[simp] theorem State.mapOrders_pending (s : State) (f : CurtailmentOrder → Option CurtailmentOrder) :
    (s.mapOrders f).pending = s.pending := rfl

/-! ### withoutInterval -/

@[simp] theorem State.withoutInterval_powered (s : State) : s.withoutInterval.powered = s.powered := rfl
@[simp] theorem State.withoutInterval_resetHeld (s : State) : s.withoutInterval.resetHeld = s.resetHeld := rfl
@[simp] theorem State.withoutInterval_plantRelease (s : State) :
    s.withoutInterval.plantRelease = s.plantRelease := rfl
@[simp] theorem State.withoutInterval_clock (s : State) : s.withoutInterval.clock = s.clock := rfl
@[simp] theorem State.withoutInterval_osc (s : State) : s.withoutInterval.osc = s.osc := rfl
@[simp] theorem State.withoutInterval_store (s : State) : s.withoutInterval.store = s.store := rfl
@[simp] theorem State.withoutInterval_marks (s : State) :
    s.withoutInterval.marks = { s.marks with queues := true } := rfl
@[simp] theorem State.withoutInterval_acts (s : State) : s.withoutInterval.acts = s.acts := rfl
@[simp] theorem State.withoutInterval_cfg (s : State) : s.withoutInterval.cfg = s.cfg := rfl
@[simp] theorem State.withoutInterval_acc (s : State) : s.withoutInterval.acc = s.acc := rfl
@[simp] theorem State.withoutInterval_que (s : State) :
    s.withoutInterval.que = { s.que with interval := none, current := none } := rfl
@[simp] theorem State.withoutInterval_lines (s : State) : s.withoutInterval.lines = s.lines := rfl
@[simp] theorem State.withoutInterval_channels (s : State) : s.withoutInterval.channels = s.channels := rfl
@[simp] theorem State.withoutInterval_points (s : State) : s.withoutInterval.points = s.points := rfl
@[simp] theorem State.withoutInterval_gas (s : State) : s.withoutInterval.gas = s.gas := rfl
@[simp] theorem State.withoutInterval_dsp (s : State) : s.withoutInterval.dsp = s.dsp := rfl
@[simp] theorem State.withoutInterval_boilers (s : State) : s.withoutInterval.boilers = s.boilers := rfl
@[simp] theorem State.withoutInterval_esu (s : State) :
    s.withoutInterval.esu = { s.esu with curtailedSince := none } := rfl
@[simp] theorem State.withoutInterval_hmu (s : State) : s.withoutInterval.hmu = s.hmu := rfl
@[simp] theorem State.withoutInterval_bu (s : State) : s.withoutInterval.bu = s.bu := rfl
@[simp] theorem State.withoutInterval_conditions (s : State) : s.withoutInterval.conditions = s.conditions := rfl
@[simp] theorem State.withoutInterval_hlu (s : State) : s.withoutInterval.hlu = s.hlu := rfl
@[simp] theorem State.withoutInterval_choices (s : State) : s.withoutInterval.choices = s.choices := rfl
@[simp] theorem State.withoutInterval_pending (s : State) : s.withoutInterval.pending = s.pending := rfl

/-! ### putReading -/

@[simp] theorem State.putReading_powered (s : State) (v : Nat) : (s.putReading v).powered = s.powered := rfl
@[simp] theorem State.putReading_resetHeld (s : State) (v : Nat) : (s.putReading v).resetHeld = s.resetHeld := rfl
@[simp] theorem State.putReading_plantRelease (s : State) (v : Nat) :
    (s.putReading v).plantRelease = s.plantRelease := rfl
@[simp] theorem State.putReading_clock (s : State) (v : Nat) :
    (s.putReading v).clock = { s.clock with reading := v, valid := true } := rfl
@[simp] theorem State.putReading_osc (s : State) (v : Nat) : (s.putReading v).osc = s.osc := rfl
@[simp] theorem State.putReading_store (s : State) (v : Nat) : (s.putReading v).store = s.store := rfl
@[simp] theorem State.putReading_marks (s : State) (v : Nat) : (s.putReading v).marks = s.marks := rfl
@[simp] theorem State.putReading_acts (s : State) (v : Nat) : (s.putReading v).acts = s.acts := rfl
@[simp] theorem State.putReading_cfg (s : State) (v : Nat) : (s.putReading v).cfg = s.cfg := rfl
@[simp] theorem State.putReading_acc (s : State) (v : Nat) : (s.putReading v).acc = s.acc := rfl
@[simp] theorem State.putReading_que (s : State) (v : Nat) : (s.putReading v).que = s.que := rfl
@[simp] theorem State.putReading_lines (s : State) (v : Nat) : (s.putReading v).lines = s.lines := rfl
@[simp] theorem State.putReading_channels (s : State) (v : Nat) : (s.putReading v).channels = s.channels := rfl
@[simp] theorem State.putReading_points (s : State) (v : Nat) : (s.putReading v).points = s.points := rfl
@[simp] theorem State.putReading_gas (s : State) (v : Nat) : (s.putReading v).gas = s.gas := rfl
@[simp] theorem State.putReading_dsp (s : State) (v : Nat) : (s.putReading v).dsp = s.dsp := rfl
@[simp] theorem State.putReading_boilers (s : State) (v : Nat) : (s.putReading v).boilers = s.boilers := rfl
@[simp] theorem State.putReading_esu (s : State) (v : Nat) : (s.putReading v).esu = s.esu := rfl
@[simp] theorem State.putReading_hmu (s : State) (v : Nat) :
    (s.putReading v).hmu = { s.hmu with minuteDue := false } := rfl
@[simp] theorem State.putReading_bu (s : State) (v : Nat) :
    (s.putReading v).bu = { s.bu with closedNow := s.bu.closedNow && decide (v = s.clock.reading) } := rfl
@[simp] theorem State.putReading_conditions (s : State) (v : Nat) : (s.putReading v).conditions = s.conditions := rfl
@[simp] theorem State.putReading_hlu (s : State) (v : Nat) : (s.putReading v).hlu = s.hlu := rfl
@[simp] theorem State.putReading_choices (s : State) (v : Nat) : (s.putReading v).choices = s.choices := rfl
@[simp] theorem State.putReading_pending (s : State) (v : Nat) : (s.putReading v).pending = s.pending := rfl

/-! ### writeResult -/

@[simp] theorem State.writeResult_powered (s : State) (r : DispatchResult) :
    (s.writeResult r).powered = s.powered := rfl
@[simp] theorem State.writeResult_resetHeld (s : State) (r : DispatchResult) :
    (s.writeResult r).resetHeld = s.resetHeld := rfl
@[simp] theorem State.writeResult_plantRelease (s : State) (r : DispatchResult) :
    (s.writeResult r).plantRelease = s.plantRelease := rfl
@[simp] theorem State.writeResult_clock (s : State) (r : DispatchResult) : (s.writeResult r).clock = s.clock := rfl
@[simp] theorem State.writeResult_osc (s : State) (r : DispatchResult) : (s.writeResult r).osc = s.osc := rfl
@[simp] theorem State.writeResult_store (s : State) (r : DispatchResult) : (s.writeResult r).store = s.store := rfl
@[simp] theorem State.writeResult_marks (s : State) (r : DispatchResult) : (s.writeResult r).marks = s.marks := rfl
@[simp] theorem State.writeResult_acts (s : State) (r : DispatchResult) : (s.writeResult r).acts = s.acts := rfl
@[simp] theorem State.writeResult_cfg (s : State) (r : DispatchResult) : (s.writeResult r).cfg = s.cfg := rfl
@[simp] theorem State.writeResult_acc (s : State) (r : DispatchResult) : (s.writeResult r).acc = s.acc := rfl
@[simp] theorem State.writeResult_que (s : State) (r : DispatchResult) : (s.writeResult r).que = s.que := rfl
@[simp] theorem State.writeResult_lines (s : State) (r : DispatchResult) : (s.writeResult r).lines = s.lines := rfl
@[simp] theorem State.writeResult_channels (s : State) (r : DispatchResult) :
    (s.writeResult r).channels = s.channels := rfl
@[simp] theorem State.writeResult_points (s : State) (r : DispatchResult) : (s.writeResult r).points = s.points := rfl
@[simp] theorem State.writeResult_gas (s : State) (r : DispatchResult) : (s.writeResult r).gas = s.gas := rfl
@[simp] theorem State.writeResult_boilers (s : State) (r : DispatchResult) :
    (s.writeResult r).boilers = s.boilers := rfl
@[simp] theorem State.writeResult_esu (s : State) (r : DispatchResult) : (s.writeResult r).esu = s.esu := rfl
@[simp] theorem State.writeResult_hmu (s : State) (r : DispatchResult) : (s.writeResult r).hmu = s.hmu := rfl
@[simp] theorem State.writeResult_bu (s : State) (r : DispatchResult) : (s.writeResult r).bu = s.bu := rfl
@[simp] theorem State.writeResult_conditions (s : State) (r : DispatchResult) :
    (s.writeResult r).conditions = s.conditions := rfl
@[simp] theorem State.writeResult_hlu (s : State) (r : DispatchResult) : (s.writeResult r).hlu = s.hlu := rfl
@[simp] theorem State.writeResult_choices (s : State) (r : DispatchResult) :
    (s.writeResult r).choices = s.choices := rfl
@[simp] theorem State.writeResult_pending (s : State) (r : DispatchResult) :
    (s.writeResult r).pending = s.pending := rfl

/-! ### tell -/

@[simp] theorem State.tell_powered (s : State) (a : ConditionAct) : (s.tell a).powered = s.powered := rfl
@[simp] theorem State.tell_resetHeld (s : State) (a : ConditionAct) : (s.tell a).resetHeld = s.resetHeld := rfl
@[simp] theorem State.tell_plantRelease (s : State) (a : ConditionAct) :
    (s.tell a).plantRelease = s.plantRelease := rfl
@[simp] theorem State.tell_clock (s : State) (a : ConditionAct) : (s.tell a).clock = s.clock := rfl
@[simp] theorem State.tell_osc (s : State) (a : ConditionAct) : (s.tell a).osc = s.osc := rfl
@[simp] theorem State.tell_store (s : State) (a : ConditionAct) : (s.tell a).store = s.store := rfl
@[simp] theorem State.tell_marks (s : State) (a : ConditionAct) : (s.tell a).marks = s.marks := rfl
@[simp] theorem State.tell_acts (s : State) (a : ConditionAct) : (s.tell a).acts = s.acts ++ [a] := rfl
@[simp] theorem State.tell_cfg (s : State) (a : ConditionAct) : (s.tell a).cfg = s.cfg := rfl
@[simp] theorem State.tell_acc (s : State) (a : ConditionAct) : (s.tell a).acc = s.acc := rfl
@[simp] theorem State.tell_que (s : State) (a : ConditionAct) : (s.tell a).que = s.que := rfl
@[simp] theorem State.tell_lines (s : State) (a : ConditionAct) : (s.tell a).lines = s.lines := rfl
@[simp] theorem State.tell_channels (s : State) (a : ConditionAct) : (s.tell a).channels = s.channels := rfl
@[simp] theorem State.tell_points (s : State) (a : ConditionAct) : (s.tell a).points = s.points := rfl
@[simp] theorem State.tell_gas (s : State) (a : ConditionAct) : (s.tell a).gas = s.gas := rfl
@[simp] theorem State.tell_dsp (s : State) (a : ConditionAct) : (s.tell a).dsp = s.dsp := rfl
@[simp] theorem State.tell_boilers (s : State) (a : ConditionAct) : (s.tell a).boilers = s.boilers := rfl
@[simp] theorem State.tell_esu (s : State) (a : ConditionAct) : (s.tell a).esu = s.esu := rfl
@[simp] theorem State.tell_hmu (s : State) (a : ConditionAct) : (s.tell a).hmu = s.hmu := rfl
@[simp] theorem State.tell_bu (s : State) (a : ConditionAct) : (s.tell a).bu = s.bu := rfl
@[simp] theorem State.tell_conditions (s : State) (a : ConditionAct) : (s.tell a).conditions = s.conditions := rfl
@[simp] theorem State.tell_hlu (s : State) (a : ConditionAct) : (s.tell a).hlu = s.hlu := rfl
@[simp] theorem State.tell_choices (s : State) (a : ConditionAct) : (s.tell a).choices = s.choices := rfl
@[simp] theorem State.tell_pending (s : State) (a : ConditionAct) : (s.tell a).pending = s.pending := rfl

/-! ### tellRaise -/

@[simp] theorem State.tellRaise_powered (s : State) (c : ConditionClass) (n : Nat) :
    (s.tellRaise c n).powered = s.powered := rfl
@[simp] theorem State.tellRaise_resetHeld (s : State) (c : ConditionClass) (n : Nat) :
    (s.tellRaise c n).resetHeld = s.resetHeld := rfl
@[simp] theorem State.tellRaise_plantRelease (s : State) (c : ConditionClass) (n : Nat) :
    (s.tellRaise c n).plantRelease = s.plantRelease := rfl
@[simp] theorem State.tellRaise_clock (s : State) (c : ConditionClass) (n : Nat) :
    (s.tellRaise c n).clock = s.clock := rfl
@[simp] theorem State.tellRaise_osc (s : State) (c : ConditionClass) (n : Nat) : (s.tellRaise c n).osc = s.osc := rfl
@[simp] theorem State.tellRaise_store (s : State) (c : ConditionClass) (n : Nat) :
    (s.tellRaise c n).store = s.store := rfl
@[simp] theorem State.tellRaise_marks (s : State) (c : ConditionClass) (n : Nat) :
    (s.tellRaise c n).marks = s.marks := rfl
@[simp] theorem State.tellRaise_acts (s : State) (c : ConditionClass) (n : Nat) :
    (s.tellRaise c n).acts = s.acts ++ [.raise { cls := c, source := n } (s.classLatch c)] := rfl
@[simp] theorem State.tellRaise_cfg (s : State) (c : ConditionClass) (n : Nat) : (s.tellRaise c n).cfg = s.cfg := rfl
@[simp] theorem State.tellRaise_acc (s : State) (c : ConditionClass) (n : Nat) : (s.tellRaise c n).acc = s.acc := rfl
@[simp] theorem State.tellRaise_que (s : State) (c : ConditionClass) (n : Nat) : (s.tellRaise c n).que = s.que := rfl
@[simp] theorem State.tellRaise_lines (s : State) (c : ConditionClass) (n : Nat) :
    (s.tellRaise c n).lines = s.lines := rfl
@[simp] theorem State.tellRaise_channels (s : State) (c : ConditionClass) (n : Nat) :
    (s.tellRaise c n).channels = s.channels := rfl
@[simp] theorem State.tellRaise_points (s : State) (c : ConditionClass) (n : Nat) :
    (s.tellRaise c n).points = s.points := rfl
@[simp] theorem State.tellRaise_gas (s : State) (c : ConditionClass) (n : Nat) : (s.tellRaise c n).gas = s.gas := rfl
@[simp] theorem State.tellRaise_dsp (s : State) (c : ConditionClass) (n : Nat) : (s.tellRaise c n).dsp = s.dsp := rfl
@[simp] theorem State.tellRaise_boilers (s : State) (c : ConditionClass) (n : Nat) :
    (s.tellRaise c n).boilers = s.boilers := rfl
@[simp] theorem State.tellRaise_esu (s : State) (c : ConditionClass) (n : Nat) : (s.tellRaise c n).esu = s.esu := rfl
@[simp] theorem State.tellRaise_hmu (s : State) (c : ConditionClass) (n : Nat) : (s.tellRaise c n).hmu = s.hmu := rfl
@[simp] theorem State.tellRaise_bu (s : State) (c : ConditionClass) (n : Nat) : (s.tellRaise c n).bu = s.bu := rfl
@[simp] theorem State.tellRaise_conditions (s : State) (c : ConditionClass) (n : Nat) :
    (s.tellRaise c n).conditions = s.conditions := rfl
@[simp] theorem State.tellRaise_hlu (s : State) (c : ConditionClass) (n : Nat) : (s.tellRaise c n).hlu = s.hlu := rfl
@[simp] theorem State.tellRaise_choices (s : State) (c : ConditionClass) (n : Nat) :
    (s.tellRaise c n).choices = s.choices := rfl
@[simp] theorem State.tellRaise_pending (s : State) (c : ConditionClass) (n : Nat) :
    (s.tellRaise c n).pending = s.pending := rfl

/-! ### tellEnd -/

@[simp] theorem State.tellEnd_powered (s : State) (c : ConditionClass) (n : Nat) :
    (s.tellEnd c n).powered = s.powered := rfl
@[simp] theorem State.tellEnd_resetHeld (s : State) (c : ConditionClass) (n : Nat) :
    (s.tellEnd c n).resetHeld = s.resetHeld := rfl
@[simp] theorem State.tellEnd_plantRelease (s : State) (c : ConditionClass) (n : Nat) :
    (s.tellEnd c n).plantRelease = s.plantRelease := rfl
@[simp] theorem State.tellEnd_clock (s : State) (c : ConditionClass) (n : Nat) :
    (s.tellEnd c n).clock = s.clock := rfl
@[simp] theorem State.tellEnd_osc (s : State) (c : ConditionClass) (n : Nat) : (s.tellEnd c n).osc = s.osc := rfl
@[simp] theorem State.tellEnd_store (s : State) (c : ConditionClass) (n : Nat) :
    (s.tellEnd c n).store = s.store := rfl
@[simp] theorem State.tellEnd_marks (s : State) (c : ConditionClass) (n : Nat) :
    (s.tellEnd c n).marks = s.marks := rfl
@[simp] theorem State.tellEnd_acts (s : State) (c : ConditionClass) (n : Nat) :
    (s.tellEnd c n).acts = s.acts ++ [.endCause { cls := c, source := n }] := rfl
@[simp] theorem State.tellEnd_cfg (s : State) (c : ConditionClass) (n : Nat) : (s.tellEnd c n).cfg = s.cfg := rfl
@[simp] theorem State.tellEnd_acc (s : State) (c : ConditionClass) (n : Nat) : (s.tellEnd c n).acc = s.acc := rfl
@[simp] theorem State.tellEnd_que (s : State) (c : ConditionClass) (n : Nat) : (s.tellEnd c n).que = s.que := rfl
@[simp] theorem State.tellEnd_lines (s : State) (c : ConditionClass) (n : Nat) :
    (s.tellEnd c n).lines = s.lines := rfl
@[simp] theorem State.tellEnd_channels (s : State) (c : ConditionClass) (n : Nat) :
    (s.tellEnd c n).channels = s.channels := rfl
@[simp] theorem State.tellEnd_points (s : State) (c : ConditionClass) (n : Nat) :
    (s.tellEnd c n).points = s.points := rfl
@[simp] theorem State.tellEnd_gas (s : State) (c : ConditionClass) (n : Nat) : (s.tellEnd c n).gas = s.gas := rfl
@[simp] theorem State.tellEnd_dsp (s : State) (c : ConditionClass) (n : Nat) : (s.tellEnd c n).dsp = s.dsp := rfl
@[simp] theorem State.tellEnd_boilers (s : State) (c : ConditionClass) (n : Nat) :
    (s.tellEnd c n).boilers = s.boilers := rfl
@[simp] theorem State.tellEnd_esu (s : State) (c : ConditionClass) (n : Nat) : (s.tellEnd c n).esu = s.esu := rfl
@[simp] theorem State.tellEnd_hmu (s : State) (c : ConditionClass) (n : Nat) : (s.tellEnd c n).hmu = s.hmu := rfl
@[simp] theorem State.tellEnd_bu (s : State) (c : ConditionClass) (n : Nat) : (s.tellEnd c n).bu = s.bu := rfl
@[simp] theorem State.tellEnd_conditions (s : State) (c : ConditionClass) (n : Nat) :
    (s.tellEnd c n).conditions = s.conditions := rfl
@[simp] theorem State.tellEnd_hlu (s : State) (c : ConditionClass) (n : Nat) : (s.tellEnd c n).hlu = s.hlu := rfl
@[simp] theorem State.tellEnd_choices (s : State) (c : ConditionClass) (n : Nat) :
    (s.tellEnd c n).choices = s.choices := rfl
@[simp] theorem State.tellEnd_pending (s : State) (c : ConditionClass) (n : Nat) :
    (s.tellEnd c n).pending = s.pending := rfl

/-! ### tellReport -/

@[simp] theorem State.tellReport_powered (s : State) (c : ConditionClass) (n : Nat) :
    (s.tellReport c n).powered = s.powered := rfl
@[simp] theorem State.tellReport_resetHeld (s : State) (c : ConditionClass) (n : Nat) :
    (s.tellReport c n).resetHeld = s.resetHeld := rfl
@[simp] theorem State.tellReport_plantRelease (s : State) (c : ConditionClass) (n : Nat) :
    (s.tellReport c n).plantRelease = s.plantRelease := rfl
@[simp] theorem State.tellReport_clock (s : State) (c : ConditionClass) (n : Nat) :
    (s.tellReport c n).clock = s.clock := rfl
@[simp] theorem State.tellReport_osc (s : State) (c : ConditionClass) (n : Nat) :
    (s.tellReport c n).osc = s.osc := rfl
@[simp] theorem State.tellReport_store (s : State) (c : ConditionClass) (n : Nat) :
    (s.tellReport c n).store = s.store := rfl
@[simp] theorem State.tellReport_marks (s : State) (c : ConditionClass) (n : Nat) :
    (s.tellReport c n).marks = s.marks := rfl
@[simp] theorem State.tellReport_acts (s : State) (c : ConditionClass) (n : Nat) :
    (s.tellReport c n).acts = s.acts ++ [.report { cls := c, source := n }] := rfl
@[simp] theorem State.tellReport_cfg (s : State) (c : ConditionClass) (n : Nat) :
    (s.tellReport c n).cfg = s.cfg := rfl
@[simp] theorem State.tellReport_acc (s : State) (c : ConditionClass) (n : Nat) :
    (s.tellReport c n).acc = s.acc := rfl
@[simp] theorem State.tellReport_que (s : State) (c : ConditionClass) (n : Nat) :
    (s.tellReport c n).que = s.que := rfl
@[simp] theorem State.tellReport_lines (s : State) (c : ConditionClass) (n : Nat) :
    (s.tellReport c n).lines = s.lines := rfl
@[simp] theorem State.tellReport_channels (s : State) (c : ConditionClass) (n : Nat) :
    (s.tellReport c n).channels = s.channels := rfl
@[simp] theorem State.tellReport_points (s : State) (c : ConditionClass) (n : Nat) :
    (s.tellReport c n).points = s.points := rfl
@[simp] theorem State.tellReport_gas (s : State) (c : ConditionClass) (n : Nat) :
    (s.tellReport c n).gas = s.gas := rfl
@[simp] theorem State.tellReport_dsp (s : State) (c : ConditionClass) (n : Nat) :
    (s.tellReport c n).dsp = s.dsp := rfl
@[simp] theorem State.tellReport_boilers (s : State) (c : ConditionClass) (n : Nat) :
    (s.tellReport c n).boilers = s.boilers := rfl
@[simp] theorem State.tellReport_esu (s : State) (c : ConditionClass) (n : Nat) :
    (s.tellReport c n).esu = s.esu := rfl
@[simp] theorem State.tellReport_hmu (s : State) (c : ConditionClass) (n : Nat) :
    (s.tellReport c n).hmu = s.hmu := rfl
@[simp] theorem State.tellReport_bu (s : State) (c : ConditionClass) (n : Nat) : (s.tellReport c n).bu = s.bu := rfl
@[simp] theorem State.tellReport_conditions (s : State) (c : ConditionClass) (n : Nat) :
    (s.tellReport c n).conditions = s.conditions := rfl
@[simp] theorem State.tellReport_hlu (s : State) (c : ConditionClass) (n : Nat) :
    (s.tellReport c n).hlu = s.hlu := rfl
@[simp] theorem State.tellReport_choices (s : State) (c : ConditionClass) (n : Nat) :
    (s.tellReport c n).choices = s.choices := rfl
@[simp] theorem State.tellReport_pending (s : State) (c : ConditionClass) (n : Nat) :
    (s.tellReport c n).pending = s.pending := rfl

/-! ### answered -/

@[simp] theorem State.answered_powered (s : State) (a : Answer) : (s.answered a).powered = s.powered := rfl
@[simp] theorem State.answered_resetHeld (s : State) (a : Answer) : (s.answered a).resetHeld = s.resetHeld := rfl
@[simp] theorem State.answered_plantRelease (s : State) (a : Answer) :
    (s.answered a).plantRelease = s.plantRelease := rfl
@[simp] theorem State.answered_clock (s : State) (a : Answer) : (s.answered a).clock = s.clock := rfl
@[simp] theorem State.answered_osc (s : State) (a : Answer) : (s.answered a).osc = s.osc := rfl
@[simp] theorem State.answered_store (s : State) (a : Answer) : (s.answered a).store = s.store := rfl
@[simp] theorem State.answered_marks (s : State) (a : Answer) : (s.answered a).marks = s.marks := rfl
@[simp] theorem State.answered_acts (s : State) (a : Answer) : (s.answered a).acts = s.acts := rfl
@[simp] theorem State.answered_cfg (s : State) (a : Answer) : (s.answered a).cfg = s.cfg := rfl
@[simp] theorem State.answered_acc (s : State) (a : Answer) : (s.answered a).acc = s.acc := rfl
@[simp] theorem State.answered_que (s : State) (a : Answer) : (s.answered a).que = s.que := rfl
@[simp] theorem State.answered_lines (s : State) (a : Answer) : (s.answered a).lines = s.lines := rfl
@[simp] theorem State.answered_channels (s : State) (a : Answer) : (s.answered a).channels = s.channels := rfl
@[simp] theorem State.answered_points (s : State) (a : Answer) : (s.answered a).points = s.points := rfl
@[simp] theorem State.answered_gas (s : State) (a : Answer) : (s.answered a).gas = s.gas := rfl
@[simp] theorem State.answered_dsp (s : State) (a : Answer) : (s.answered a).dsp = s.dsp := rfl
@[simp] theorem State.answered_boilers (s : State) (a : Answer) : (s.answered a).boilers = s.boilers := rfl
@[simp] theorem State.answered_esu (s : State) (a : Answer) : (s.answered a).esu = s.esu := rfl
@[simp] theorem State.answered_hmu (s : State) (a : Answer) : (s.answered a).hmu = s.hmu := rfl
@[simp] theorem State.answered_bu (s : State) (a : Answer) : (s.answered a).bu = s.bu := rfl
@[simp] theorem State.answered_conditions (s : State) (a : Answer) : (s.answered a).conditions = s.conditions := rfl
@[simp] theorem State.answered_hlu (s : State) (a : Answer) :
    (s.answered a).hlu = { s.hlu with answer := some a } := rfl
@[simp] theorem State.answered_choices (s : State) (a : Answer) : (s.answered a).choices = s.choices := rfl
@[simp] theorem State.answered_pending (s : State) (a : Answer) : (s.answered a).pending = s.pending := rfl

/-! ### withConfig -/

@[simp] theorem State.withConfig_powered (s : State) (c : ConfigRegion) : (s.withConfig c).powered = s.powered := rfl
@[simp] theorem State.withConfig_resetHeld (s : State) (c : ConfigRegion) :
    (s.withConfig c).resetHeld = s.resetHeld := rfl
@[simp] theorem State.withConfig_plantRelease (s : State) (c : ConfigRegion) :
    (s.withConfig c).plantRelease = s.plantRelease := rfl
@[simp] theorem State.withConfig_clock (s : State) (c : ConfigRegion) : (s.withConfig c).clock = s.clock := rfl
@[simp] theorem State.withConfig_osc (s : State) (c : ConfigRegion) : (s.withConfig c).osc = s.osc := rfl
@[simp] theorem State.withConfig_store (s : State) (c : ConfigRegion) :
    (s.withConfig c).store = if s.hlu.restartDue then s.store else { s.store with config := s.store.config.write c } := rfl
@[simp] theorem State.withConfig_marks (s : State) (c : ConfigRegion) : (s.withConfig c).marks = s.marks := rfl
@[simp] theorem State.withConfig_acts (s : State) (c : ConfigRegion) : (s.withConfig c).acts = s.acts := rfl
@[simp] theorem State.withConfig_cfg (s : State) (c : ConfigRegion) : (s.withConfig c).cfg = c := rfl
@[simp] theorem State.withConfig_acc (s : State) (c : ConfigRegion) : (s.withConfig c).acc = s.acc := rfl
@[simp] theorem State.withConfig_que (s : State) (c : ConfigRegion) : (s.withConfig c).que = s.que := rfl
@[simp] theorem State.withConfig_lines (s : State) (c : ConfigRegion) : (s.withConfig c).lines = s.lines := rfl
@[simp] theorem State.withConfig_channels (s : State) (c : ConfigRegion) :
    (s.withConfig c).channels = s.channels := rfl
@[simp] theorem State.withConfig_points (s : State) (c : ConfigRegion) : (s.withConfig c).points = s.points := rfl
@[simp] theorem State.withConfig_gas (s : State) (c : ConfigRegion) : (s.withConfig c).gas = s.gas := rfl
@[simp] theorem State.withConfig_dsp (s : State) (c : ConfigRegion) : (s.withConfig c).dsp = s.dsp := rfl
@[simp] theorem State.withConfig_boilers (s : State) (c : ConfigRegion) : (s.withConfig c).boilers = s.boilers := rfl
@[simp] theorem State.withConfig_esu (s : State) (c : ConfigRegion) : (s.withConfig c).esu = s.esu := rfl
@[simp] theorem State.withConfig_hmu (s : State) (c : ConfigRegion) : (s.withConfig c).hmu = s.hmu := rfl
@[simp] theorem State.withConfig_bu (s : State) (c : ConfigRegion) : (s.withConfig c).bu = s.bu := rfl
@[simp] theorem State.withConfig_conditions (s : State) (c : ConfigRegion) :
    (s.withConfig c).conditions = s.conditions := rfl
@[simp] theorem State.withConfig_hlu (s : State) (c : ConfigRegion) : (s.withConfig c).hlu = s.hlu := rfl
@[simp] theorem State.withConfig_choices (s : State) (c : ConfigRegion) : (s.withConfig c).choices = s.choices := rfl
@[simp] theorem State.withConfig_pending (s : State) (c : ConfigRegion) : (s.withConfig c).pending = s.pending := rfl

/-! ### withAccounts -/

@[simp] theorem State.withAccounts_powered (s : State) (a : AccountsRegion) :
    (s.withAccounts a).powered = s.powered := rfl
@[simp] theorem State.withAccounts_resetHeld (s : State) (a : AccountsRegion) :
    (s.withAccounts a).resetHeld = s.resetHeld := rfl
@[simp] theorem State.withAccounts_plantRelease (s : State) (a : AccountsRegion) :
    (s.withAccounts a).plantRelease = s.plantRelease := rfl
@[simp] theorem State.withAccounts_clock (s : State) (a : AccountsRegion) : (s.withAccounts a).clock = s.clock := rfl
@[simp] theorem State.withAccounts_osc (s : State) (a : AccountsRegion) : (s.withAccounts a).osc = s.osc := rfl
@[simp] theorem State.withAccounts_store (s : State) (a : AccountsRegion) :
    (s.withAccounts a).store = if s.hlu.restartDue then s.store else { s.store with accounts := s.store.accounts.write a } := rfl
@[simp] theorem State.withAccounts_marks (s : State) (a : AccountsRegion) : (s.withAccounts a).marks = s.marks := rfl
@[simp] theorem State.withAccounts_acts (s : State) (a : AccountsRegion) : (s.withAccounts a).acts = s.acts := rfl
@[simp] theorem State.withAccounts_cfg (s : State) (a : AccountsRegion) : (s.withAccounts a).cfg = s.cfg := rfl
@[simp] theorem State.withAccounts_acc (s : State) (a : AccountsRegion) : (s.withAccounts a).acc = a := rfl
@[simp] theorem State.withAccounts_que (s : State) (a : AccountsRegion) : (s.withAccounts a).que = s.que := rfl
@[simp] theorem State.withAccounts_lines (s : State) (a : AccountsRegion) : (s.withAccounts a).lines = s.lines := rfl
@[simp] theorem State.withAccounts_channels (s : State) (a : AccountsRegion) :
    (s.withAccounts a).channels = s.channels := rfl
@[simp] theorem State.withAccounts_points (s : State) (a : AccountsRegion) :
    (s.withAccounts a).points = s.points := rfl
@[simp] theorem State.withAccounts_gas (s : State) (a : AccountsRegion) : (s.withAccounts a).gas = s.gas := rfl
@[simp] theorem State.withAccounts_dsp (s : State) (a : AccountsRegion) : (s.withAccounts a).dsp = s.dsp := rfl
@[simp] theorem State.withAccounts_boilers (s : State) (a : AccountsRegion) :
    (s.withAccounts a).boilers = s.boilers := rfl
@[simp] theorem State.withAccounts_esu (s : State) (a : AccountsRegion) : (s.withAccounts a).esu = s.esu := rfl
@[simp] theorem State.withAccounts_hmu (s : State) (a : AccountsRegion) : (s.withAccounts a).hmu = s.hmu := rfl
@[simp] theorem State.withAccounts_bu (s : State) (a : AccountsRegion) : (s.withAccounts a).bu = s.bu := rfl
@[simp] theorem State.withAccounts_conditions (s : State) (a : AccountsRegion) :
    (s.withAccounts a).conditions = s.conditions := rfl
@[simp] theorem State.withAccounts_hlu (s : State) (a : AccountsRegion) : (s.withAccounts a).hlu = s.hlu := rfl
@[simp] theorem State.withAccounts_choices (s : State) (a : AccountsRegion) :
    (s.withAccounts a).choices = s.choices := rfl
@[simp] theorem State.withAccounts_pending (s : State) (a : AccountsRegion) :
    (s.withAccounts a).pending = s.pending := rfl

/-! ### withQueues -/

@[simp] theorem State.withQueues_powered (s : State) (q : QueuesRegion) : (s.withQueues q).powered = s.powered := rfl
@[simp] theorem State.withQueues_resetHeld (s : State) (q : QueuesRegion) :
    (s.withQueues q).resetHeld = s.resetHeld := rfl
@[simp] theorem State.withQueues_plantRelease (s : State) (q : QueuesRegion) :
    (s.withQueues q).plantRelease = s.plantRelease := rfl
@[simp] theorem State.withQueues_clock (s : State) (q : QueuesRegion) : (s.withQueues q).clock = s.clock := rfl
@[simp] theorem State.withQueues_osc (s : State) (q : QueuesRegion) : (s.withQueues q).osc = s.osc := rfl
@[simp] theorem State.withQueues_store (s : State) (q : QueuesRegion) :
    (s.withQueues q).store = if s.hlu.restartDue then s.store else { s.store with queues := s.store.queues.write ({ s with que := q } : State).queuesImage } := rfl
@[simp] theorem State.withQueues_marks (s : State) (q : QueuesRegion) : (s.withQueues q).marks = s.marks := rfl
@[simp] theorem State.withQueues_acts (s : State) (q : QueuesRegion) : (s.withQueues q).acts = s.acts := rfl
@[simp] theorem State.withQueues_cfg (s : State) (q : QueuesRegion) : (s.withQueues q).cfg = s.cfg := rfl
@[simp] theorem State.withQueues_acc (s : State) (q : QueuesRegion) : (s.withQueues q).acc = s.acc := rfl
@[simp] theorem State.withQueues_que (s : State) (q : QueuesRegion) : (s.withQueues q).que = q := rfl
@[simp] theorem State.withQueues_lines (s : State) (q : QueuesRegion) : (s.withQueues q).lines = s.lines := rfl
@[simp] theorem State.withQueues_channels (s : State) (q : QueuesRegion) :
    (s.withQueues q).channels = s.channels := rfl
@[simp] theorem State.withQueues_points (s : State) (q : QueuesRegion) : (s.withQueues q).points = s.points := rfl
@[simp] theorem State.withQueues_gas (s : State) (q : QueuesRegion) : (s.withQueues q).gas = s.gas := rfl
@[simp] theorem State.withQueues_dsp (s : State) (q : QueuesRegion) : (s.withQueues q).dsp = s.dsp := rfl
@[simp] theorem State.withQueues_boilers (s : State) (q : QueuesRegion) : (s.withQueues q).boilers = s.boilers := rfl
@[simp] theorem State.withQueues_esu (s : State) (q : QueuesRegion) : (s.withQueues q).esu = s.esu := rfl
@[simp] theorem State.withQueues_hmu (s : State) (q : QueuesRegion) : (s.withQueues q).hmu = s.hmu := rfl
@[simp] theorem State.withQueues_bu (s : State) (q : QueuesRegion) : (s.withQueues q).bu = s.bu := rfl
@[simp] theorem State.withQueues_conditions (s : State) (q : QueuesRegion) :
    (s.withQueues q).conditions = s.conditions := rfl
@[simp] theorem State.withQueues_hlu (s : State) (q : QueuesRegion) : (s.withQueues q).hlu = s.hlu := rfl
@[simp] theorem State.withQueues_choices (s : State) (q : QueuesRegion) : (s.withQueues q).choices = s.choices := rfl
@[simp] theorem State.withQueues_pending (s : State) (q : QueuesRegion) : (s.withQueues q).pending = s.pending := rfl

end Sys2Proof.Machine
end

