-- ==== Sys2Proof/Laws/Ops.lean ====
section
/-! SUPPORT. What each shared operation of `Ops` can do: region writes, the retained store, the
free order, numbered operands, and frames. -/

namespace Sys2Proof.Machine

/-! ### Frames -/

theorem ChangesOnly.refl (l : List Part) (s : State) : ChangesOnly l s s := by
  intro p _; cases p <;> simp [Part.agree]

theorem Part.agree.trans {p : Part} {s t u : State} (h : p.agree s t) (k : p.agree t u) : p.agree s u := by
  cases p <;> simp_all [Part.agree]

theorem ChangesOnly.trans {l : List Part} {s t u : State} (h : ChangesOnly l s t) (k : ChangesOnly l t u) :
    ChangesOnly l s u := fun p hp => (h p hp).trans (k p hp)

theorem ChangesOnly.mono {l m : List Part} {s t : State} (h : ChangesOnly l s t) (sub : ∀ p ∈ l, p ∈ m) :
    ChangesOnly m s t := fun p hp => h p fun hl => hp (sub p hl)

/-! ### The running module between events (R176) -/

theorem State.working_iff (s : State) : s.working = true ↔
    (s.running = true ∧ s.marks = { config := false, accounts := false, queues := false }) ∧ s.acts = [] := by
  simp [State.working]

theorem State.running_of_working {s : State} (h : s.working = true) : s.running = true := (s.working_iff.mp h).1.1

theorem State.marks_of_working {s : State} (h : s.working = true) :
    s.marks = { config := false, accounts := false, queues := false } := (s.working_iff.mp h).1.2

theorem State.acts_of_working {s : State} (h : s.working = true) : s.acts = [] := (s.working_iff.mp h).2

/-! ### The writes of an event (R176) -/

/-- What the store holds after the writes of an event. -/
theorem State.writeMarked_store (s : State) : s.writeMarked.store =
    if s.hlu.restartDue then s.store else
      { config := if s.marks.config then s.store.config.write s.cfg else s.store.config
        accounts := if s.marks.accounts then s.store.accounts.write s.acc else s.store.accounts
        queues := if s.marks.queues then s.store.queues.write s.queuesImage else s.store.queues } := rfl

/-- No region marked, nothing written. -/
theorem State.writeMarked_of_clean {s : State}
    (h : s.marks = { config := false, accounts := false, queues := false }) : s.writeMarked = s := by
  cases s; cases h; simp [State.writeMarked]

theorem State.writeMarked_idem (s : State) : s.writeMarked.writeMarked = s.writeMarked :=
  State.writeMarked_of_clean rfl

/-- A CONFIG change alone, written at the end of the event. -/
theorem State.writeMarked_config {s : State} (c : ConfigRegion)
    (h : s.marks = { config := false, accounts := false, queues := false }) :
    ({ s with cfg := c } : State).markConfig.writeMarked = s.withConfig c := by
  cases s; cases h; simp [State.writeMarked, State.markConfig, State.withConfig]

/-- An ACCOUNTS change alone, written at the end of the event. -/
theorem State.writeMarked_accounts {s : State} (a : AccountsRegion)
    (h : s.marks = { config := false, accounts := false, queues := false }) :
    ({ s with acc := a } : State).markAccounts.writeMarked = s.withAccounts a := by
  cases s; cases h; simp [State.writeMarked, State.markAccounts, State.withAccounts]

/-- A QUEUES change alone, written at the end of the event. -/
theorem State.writeMarked_queues {s : State} (q : QueuesRegion)
    (h : s.marks = { config := false, accounts := false, queues := false }) :
    ({ s with que := q } : State).markQueues.writeMarked = s.withQueues q := by
  cases s; cases h; simp [State.writeMarked, State.markQueues, State.withQueues, State.queuesImage]

/-- The writes of an event change the store and the marks alone. -/
theorem State.writeMarked_changes (s : State) : ChangesOnly [.store, .marks] s s.writeMarked := by
  intro p hp; cases p <;> simp_all [Part.agree, State.writeMarked]

/-! ### The retained store (R176) -/

section Store

variable {α : Type} (r : Retained α) (x : α)

/-- What was written is what the check finds. -/
@[simp] theorem Retained.write_found? : (r.write x).found? = some x := by
  rcases r with ⟨⟨g, a, c⟩, ⟨k, b, d⟩, st⟩
  by_cases le : g ≤ k <;> cases a <;> cases b <;>
    simp [Retained.write, Retained.writesFirst, Retained.found?, le] <;> omega

/-- A cut write leaves what the check would have found before (R176). -/
@[simp] theorem Retained.spoil_found? : r.spoil.found? = r.found? := by
  rcases r with ⟨⟨g, a, c⟩, ⟨k, b, d⟩, st⟩
  by_cases le : g ≤ k <;> cases a <;> cases b <;> simp [Retained.spoil, Retained.writesFirst, Retained.found?, le]

theorem Retained.checked_found? : (r.checked x).found? = some (r.contents x) := by
  unfold Retained.checked Retained.contents
  cases h : r.found? with
  | none => simp [Retained.rewritten, Retained.found?]
  | some y => simpa [Retained.found?] using h

/-- The state of a region after the check. -/
theorem Retained.checked_state : (r.checked x).state = if r.found?.isSome then .sound else .restored := by
  unfold Retained.checked
  cases r.found? <;> rfl

/-- A law of the contents written and of both copies holds of both copies after the write. -/
theorem Retained.write_both {p : α → Prop} (h : r.both p) (k : p x) : (r.write x).both p := by
  unfold Retained.write
  dsimp only
  split
  · exact ⟨k, h.2⟩
  · exact ⟨h.1, k⟩

theorem Retained.spoil_both {p : α → Prop} (h : r.both p) : r.spoil.both p := by
  unfold Retained.spoil; split <;> exact h

theorem Retained.damage_both {p : α → Prop} (c : CopyName) (h : r.both p) : (r.damage c).both p := by
  cases c <;> exact h

theorem Retained.checked_both {p : α → Prop} (h : r.both p) (k : p x) : (r.checked x).both p := by
  unfold Retained.checked
  cases r.found? with
  | some _ => exact h
  | none => exact ⟨k, k⟩

/-- What a region gives its blocks meets a law of both copies and of the default. -/
theorem Retained.contents_law {p : α → Prop} (h : r.both p) (k : p x) : p (r.contents x) := by
  unfold Retained.contents Retained.found?
  rcases h with ⟨h1, h2⟩
  split
  · simp only [Option.getD_some]; split <;> assumption
  · exact h1
  · exact h2
  · exact k

end Store

/-! ### The free order -/

section Order

variable {α : Type}

theorem insertAt_perm (x : α) (l : List α) (n : Nat) : (insertAt x l n).Perm (x :: l) := by
  induction l generalizing n with
  | nil => exact .refl _
  | cons y l ih =>
    unfold insertAt
    split
    · exact .refl _
    · exact ((ih (n - 1)).cons y).trans (.swap x y l)

/-- An arrangement of a list holds the same items. -/
theorem arrange_perm (k : Nat) (l : List α) : (arrange k l).Perm l := by
  induction l generalizing k with
  | nil => exact .refl _
  | cons x l ih => exact (insertAt_perm x _ _).trans ((ih _).cons x)

/-- What holds before, ignores the count of choices, and is kept by each action, holds after all of them. -/
theorem State.inAnyOrder_keeps {p : State → Prop} {s : State} {l : List α} {f : State → α → State}
    (start : p s) (counts : ∀ n, p s → p { s with choices := n }) (keeps : ∀ t, ∀ a ∈ l, p t → p (f t a)) :
    p (s.inAnyOrder l f) := by
  have fold : ∀ (m : List α) (t : State), (∀ a ∈ m, a ∈ l) → p t → p (m.foldl f t) := by
    intro m
    induction m with
    | nil => exact fun _ _ ht => ht
    | cons a m ih =>
      intro t sub ht
      exact ih _ (fun b hb => sub b (.tail _ hb)) (keeps t a (sub a (.head _)) ht)
  unfold State.inAnyOrder
  split
  · exact fold l s (fun _ h => h) start
  · exact fold _ _ (fun a ha => (arrange_perm _ _).mem_iff.mp ha) (counts _ start)

@[simp] theorem State.inAnyOrder_nil (s : State) (f : State → α → State) : s.inAnyOrder [] f = s := rfl

@[simp] theorem State.inAnyOrder_singleton (s : State) (a : α) (f : State → α → State) :
    s.inAnyOrder [a] f = f s a := rfl

/-- A free order changes only what its actions and the count of choices change. -/
theorem State.inAnyOrder_changes {parts : List Part} {s : State} {l : List α} {f : State → α → State}
    (mem : .choices ∈ parts) (keeps : ∀ t, ∀ a ∈ l, ChangesOnly parts t (f t a)) :
    ChangesOnly parts s (s.inAnyOrder l f) := by
  refine State.inAnyOrder_keeps (.refl _ _) (fun n h => h.trans ?_) fun t a ha h => h.trans (keeps t a ha)
  intro p hp
  cases p <;> first | exact absurd mem hp | simp [Part.agree]

end Order

/-! ### Numbered operands -/

theorem numbered_eq_some {n : Nat} {v : Byte} {i : Fin n} : numbered n v = some i ↔ v.toNat = i.val + 1 := by
  unfold numbered
  constructor
  · intro h
    split at h
    · rename_i hv
      have := congrArg (Option.map Fin.val) h
      simp at this
      omega
    · cases h
  · intro h
    have hi := i.isLt
    rw [dif_pos ⟨by omega, by omega⟩]
    congr 1
    exact Fin.ext (by simp [h])

theorem numbered_eq_none {n : Nat} {v : Byte} : numbered n v = none ↔ v.toNat = 0 ∨ n < v.toNat := by
  unfold numbered
  split
  · simp; omega
  · simp; omega

end Sys2Proof.Machine
end

