-- ==== Sys2Proof/Laws/Conditions.lean ====
section
/-! SUPPORT. What a lookup, a raise, a cause end and a removal do to the Condition Table, once each; what the acts of an
event can do; and what an event and a request are. -/

namespace Sys2Proof.Machine

variable {s : State} {k : ConditionKey} {i j : Fin 128} {e : ConditionEntry}

/-! ### Lookups -/

theorem State.placeOf_eq_some (h : s.placeOf k = some i) : ∃ e, s.conditions[i] = some e ∧ e.key = k := by
  have := List.find?_some h
  simpa [Option.any_eq_true] using this

theorem State.placeOf_eq_none : s.placeOf k = none ↔ ∀ i : Fin 128, ∀ e, s.conditions[i] = some e → e.key ≠ k := by
  simp [State.placeOf, List.find?_eq_none, Option.any_eq_false]

/-- Under the law of the table an entry is found at its place. -/
theorem State.placeOf_of_legal (legal : s.ConditionsLegal) (h : s.conditions[i] = some e) : s.placeOf e.key = some i := by
  cases f : s.placeOf e.key with
  | none => exact absurd rfl (State.placeOf_eq_none.mp f i e h)
  | some j =>
    obtain ⟨g, hg, same⟩ := State.placeOf_eq_some f
    exact congrArg some (legal.unique j i g hg e h same)

theorem State.entryOf_of_legal (legal : s.ConditionsLegal) (h : s.conditions[i] = some e) :
    s.entryOf e.key = some e := by rw [State.entryOf, State.placeOf_of_legal legal h, Option.bind_some, h]

theorem State.entryOf_eq_some (h : s.entryOf k = some e) :
    e.key = k ∧ ∃ i, s.placeOf k = some i ∧ s.conditions[i] = some e := by
  obtain ⟨i, hi, he⟩ := Option.bind_eq_some_iff.mp h
  obtain ⟨g, hg, same⟩ := State.placeOf_eq_some hi
  cases hg.symm.trans he
  exact ⟨same, i, hi, he⟩

theorem State.entryOf_eq_none : s.entryOf k = none ↔ s.placeOf k = none := by
  unfold State.entryOf
  cases f : s.placeOf k with
  | none => simp
  | some i =>
    obtain ⟨e, he, _⟩ := State.placeOf_eq_some f
    rw [Option.bind_some, he]
    simp

/-- The lowest free place of 1 to 127. -/
theorem State.freePlace_eq_some (h : s.freePlace = some i) :
    i ≠ fullPlace ∧ s.conditions[i] = none ∧ ∀ j < i, j ≠ fullPlace → s.conditions[j] ≠ none := by
  obtain ⟨hp, before, after, split, none⟩ := List.find?_eq_some_iff_append.mp h
  simp at hp
  refine ⟨hp.1, hp.2, fun j lt notFull free => ?_⟩
  have mem : j ∈ before ++ i :: after := split ▸ List.mem_finRange j
  have sorted : (before ++ i :: after).Pairwise (· < ·) := split ▸ List.pairwise_lt_finRange 128
  rcases List.mem_append.mp mem with m | m
  · simpa [notFull, free] using none j m
  · rcases List.mem_cons.mp m with m | m
    · exact absurd m (ne_of_lt lt)
    · exact absurd (List.rel_of_pairwise_cons (List.pairwise_append.mp sorted).2.1 m) (by omega)

theorem State.freePlace_eq_none : s.freePlace = none ↔ ∀ j : Fin 128, j ≠ fullPlace → s.conditions[j] ≠ none := by
  simp [State.freePlace, List.find?_eq_none]

/-! ### Frames: the table and nothing else -/

theorem State.setPlace_changes (i : Fin 128) (e : Option ConditionEntry) :
    ChangesOnly [.conditions] s (s.setPlace i e) := by
  intro p hp; cases p <;> simp_all [Part.agree]

theorem State.raiseTableFull_changes : ChangesOnly [.conditions] s s.raiseTableFull := by
  unfold State.raiseTableFull; dsimp only; split <;> exact State.setPlace_changes _ _

theorem State.endTableFull_changes : ChangesOnly [.conditions] s s.endTableFull := by
  unfold State.endTableFull
  split
  · split
    · exact State.setPlace_changes _ _
    · exact .refl _ _
  · exact .refl _ _

theorem State.raiseWith_changes (k : ConditionKey) (m : LatchMode) : ChangesOnly [.conditions] s (s.raiseWith k m) := by
  unfold State.raiseWith
  dsimp only
  split
  · exact State.setPlace_changes _ _
  · split
    · exact State.setPlace_changes _ _
    · exact State.raiseTableFull_changes

theorem State.raise_changes (c : ConditionClass) (n : Nat) : ChangesOnly [.conditions] s (s.raise c n) :=
  State.raiseWith_changes _ _

theorem State.removeEntry_changes (i : Fin 128) : ChangesOnly [.conditions] s (s.removeEntry i) := by
  unfold State.removeEntry
  dsimp only
  split
  · exact (State.setPlace_changes _ _).trans State.endTableFull_changes
  · exact State.setPlace_changes _ _

theorem State.endCause_changes (c : ConditionClass) (n : Nat) : ChangesOnly [.conditions] s (s.endCause c n) := by
  unfold State.endCause
  split
  · exact .refl _ _
  · split
    · exact .refl _ _
    · split
      · exact .refl _ _
      · split
        · exact State.removeEntry_changes _
        · split
          · exact State.removeEntry_changes _
          · exact State.setPlace_changes _ _

theorem State.raiseAndEnd_changes (c : ConditionClass) (n : Nat) : ChangesOnly [.conditions] s (s.raiseAndEnd c n) :=
  (State.raise_changes c n).trans (State.endCause_changes c n)

theorem State.tell_changes (a : ConditionAct) : ChangesOnly [.marks] s (s.tell a) := by
  intro p hp; cases p <;> simp_all [Part.agree]

theorem State.tellRaise_changes (c : ConditionClass) (n : Nat) : ChangesOnly [.marks] s (s.tellRaise c n) :=
  State.tell_changes _

theorem State.tellEnd_changes (c : ConditionClass) (n : Nat) : ChangesOnly [.marks] s (s.tellEnd c n) :=
  State.tell_changes _

theorem State.tellReport_changes (c : ConditionClass) (n : Nat) : ChangesOnly [.marks] s (s.tellReport c n) :=
  State.tell_changes _

theorem State.takeAct_changes (a : ConditionAct) : ChangesOnly [.conditions] s (s.takeAct a) := by
  cases a
  · exact State.raiseWith_changes _ _
  · exact State.endCause_changes _ _
  · exact State.raiseAndEnd_changes _ _

theorem State.fetchEntry_changes (e : ConditionEntry) : ChangesOnly [.conditions] s (s.fetchEntry e) := by
  unfold State.fetchEntry
  split
  · exact .refl _ _
  · split
    · exact State.removeEntry_changes _
    · exact State.setPlace_changes _ _

/-! ### The law of the table through each operation -/

/-- An entry written over one of the same key. -/
theorem State.ConditionsLegal.rewrite (legal : s.ConditionsLegal) {f : ConditionEntry}
    (h : s.conditions[i] = some e) (same : f.key = e.key) (low : 1 ≤ f.raises) (high : f.raises ≤ 255) :
    (s.setPlace i (some f)).ConditionsLegal := by
  have get (j : Fin 128) (g : ConditionEntry) (hg : (s.setPlace i (some f)).conditions[j] = some g) :
      ∃ g', s.conditions[j] = some g' ∧ g'.key = g.key ∧ (1 ≤ g.raises ∧ g.raises ≤ 255) := by
    simp only [State.setPlace_conditions, Fin.getElem_fin, Vector.getElem_set] at hg
    split at hg
    · rename_i eq
      cases hg
      have : i = j := Fin.ext eq
      subst this
      exact ⟨e, h, same.symm, low, high⟩
    · exact ⟨g, hg, rfl, legal.counted j g hg⟩
  refine ⟨fun a b x hx y hy eq => ?_, fun a x hx => ?_, fun a x hx => ?_, legal.told⟩
  · obtain ⟨x', hx', kx, _⟩ := get a x hx
    obtain ⟨y', hy', ky, _⟩ := get b y hy
    exact legal.unique a b x' hx' y' hy' (kx.trans (eq.trans ky.symm))
  · obtain ⟨x', hx', kx, _⟩ := get a x hx
    rw [← kx]
    exact legal.place a x' hx'
  · obtain ⟨_, _, _, c⟩ := get a x hx
    exact c

/-- A new entry, under a key that has none, at a free place fit for the key. -/
theorem State.ConditionsLegal.enter (legal : s.ConditionsLegal) {f : ConditionEntry}
    (absent : s.placeOf f.key = none) (fit : i = fullPlace ↔ f.key = conditionTableFullKey) (low : 1 ≤ f.raises)
    (high : f.raises ≤ 255) : (s.setPlace i (some f)).ConditionsLegal := by
  have get (j : Fin 128) (g : ConditionEntry) (hg : (s.setPlace i (some f)).conditions[j] = some g) :
      (j = i ∧ g = f) ∨ s.conditions[j] = some g := by
    simp only [State.setPlace_conditions, Fin.getElem_fin, Vector.getElem_set] at hg
    split at hg
    · rename_i eq
      exact .inl ⟨(Fin.ext eq).symm, by cases hg; rfl⟩
    · exact .inr hg
  have none := State.placeOf_eq_none.mp absent
  refine ⟨fun a b x hx y hy eq => ?_, fun a x hx => ?_, fun a x hx => ?_, legal.told⟩
  · rcases get a x hx with ⟨rfl, rfl⟩ | hx' <;> rcases get b y hy with ⟨rfl, rfl⟩ | hy'
    · rfl
    · exact absurd eq.symm (none b y hy')
    · exact absurd eq (none a x hx')
    · exact legal.unique a b x hx' y hy' eq
  · rcases get a x hx with ⟨rfl, rfl⟩ | hx'
    · exact fit
    · exact legal.place a x hx'
  · rcases get a x hx with ⟨rfl, rfl⟩ | hx'
    · exact ⟨low, high⟩
    · exact legal.counted a x hx'

/-- A place emptied. -/
theorem State.ConditionsLegal.clear (legal : s.ConditionsLegal) (i : Fin 128) :
    (s.setPlace i none).ConditionsLegal := by
  have get (j : Fin 128) (g : ConditionEntry) (hg : (s.setPlace i none).conditions[j] = some g) :
      s.conditions[j] = some g := by
    simp only [State.setPlace_conditions, Fin.getElem_fin, Vector.getElem_set] at hg
    split at hg
    · cases hg
    · exact hg
  exact ⟨fun a b x hx y hy => legal.unique a b x (get a x hx) y (get b y hy), fun a x hx => legal.place a x (get a x hx),
    fun a x hx => legal.counted a x (get a x hx), legal.told⟩

theorem State.ConditionsLegal.raiseTableFull (legal : s.ConditionsLegal) : s.raiseTableFull.ConditionsLegal := by
  unfold State.raiseTableFull
  dsimp only
  split
  · rename_i none
    refine legal.enter (State.placeOf_eq_none.mpr fun j g hg eq => ?_) (by simp [newEntry]) (by simp [newEntry])
      (by simp [newEntry])
    have := (legal.place j g hg).mpr eq
    subst this
    cases none.symm.trans hg
  · rename_i g hg
    exact legal.rewrite hg rfl (by simp [ConditionEntry.raisedAgain]) (by simp [ConditionEntry.raisedAgain])

theorem State.ConditionsLegal.raiseWith (legal : s.ConditionsLegal) (ne : k ≠ conditionTableFullKey) (m : LatchMode) :
    (s.raiseWith k m).ConditionsLegal := by
  unfold State.raiseWith
  dsimp only
  split
  · rename_i i hi
    obtain ⟨g, hg, _⟩ := State.placeOf_eq_some hi
    rw [hg]
    exact legal.rewrite hg rfl (by simp [ConditionEntry.raisedAgain]) (by simp [ConditionEntry.raisedAgain])
  · rename_i absent
    split
    · rename_i i free
      refine legal.enter absent ?_ (by simp [newEntry]) (by simp [newEntry])
      exact ⟨fun h => absurd h (State.freePlace_eq_some free).1, fun h => absurd h ne⟩
    · exact legal.raiseTableFull

theorem State.ConditionsLegal.endTableFull (legal : s.ConditionsLegal) : s.endTableFull.ConditionsLegal := by
  unfold State.endTableFull
  split
  · rename_i g hg
    split
    · exact legal.rewrite hg rfl (legal.counted _ g hg).1 (legal.counted _ g hg).2
    · exact legal
  · exact legal

theorem State.ConditionsLegal.removeEntry (legal : s.ConditionsLegal) (i : Fin 128) :
    (s.removeEntry i).ConditionsLegal := by
  unfold State.removeEntry
  dsimp only
  split
  · exact (legal.clear i).endTableFull
  · exact legal.clear i

theorem State.ConditionsLegal.endCause (legal : s.ConditionsLegal) (c : ConditionClass) (n : Nat) :
    (s.endCause c n).ConditionsLegal := by
  unfold State.endCause
  split
  · exact legal
  · split
    · exact legal
    · rename_i g hg
      split
      · exact legal
      · split
        · exact legal.removeEntry _
        · split
          · exact legal.removeEntry _
          · exact legal.rewrite hg rfl (legal.counted _ g hg).1 (legal.counted _ g hg).2

theorem State.ConditionsLegal.raiseAndEnd (legal : s.ConditionsLegal) {c : ConditionClass}
    {n : Nat} (ne : ({ cls := c, source := n } : ConditionKey) ≠ conditionTableFullKey) :
    (s.raiseAndEnd c n).ConditionsLegal := (legal.raiseWith ne _).endCause c n

theorem State.ConditionsLegal.takeAct (legal : s.ConditionsLegal) {a : ConditionAct}
    (ne : a.key ≠ conditionTableFullKey) : (s.takeAct a).ConditionsLegal := by
  cases a
  · exact legal.raiseWith ne _
  · exact legal.endCause _ _
  · exact legal.raiseAndEnd ne

theorem State.ConditionsLegal.tell (legal : s.ConditionsLegal) {a : ConditionAct}
    (ne : a.key ≠ conditionTableFullKey) : (s.tell a).ConditionsLegal :=
  ⟨legal.unique, legal.place, legal.counted, fun b hb => by
    rcases List.mem_append.mp hb with h | h
    · exact legal.told b h
    · rw [List.mem_singleton.mp h]; exact ne⟩

/-! ### The acts of an event (R154) -/

theorem actsInOrder_sub (keys : List ConditionKey) (acts : List ConditionAct) :
    ∀ a ∈ actsInOrder keys acts, a ∈ acts := by
  induction keys generalizing acts with
  | nil => simp [actsInOrder]
  | cons k keys ih =>
    unfold actsInOrder
    split
    · exact ih acts
    · rename_i b hb
      intro a ha
      rcases List.mem_cons.mp ha with rfl | ha
      · exact List.mem_of_find?_eq_some hb
      · exact List.mem_of_mem_erase (ih _ a ha)

/-- In whatever order their keys are put, the acts are the same ones. -/
theorem actsInOrder_perm (keys : List ConditionKey) (acts : List ConditionAct)
    (h : keys.Perm (acts.map ConditionAct.key)) : (actsInOrder keys acts).Perm acts := by
  induction keys generalizing acts with
  | nil =>
    have : acts = [] := by simpa using h.symm.eq_nil
    rw [this]; exact .refl _
  | cons k keys ih =>
    unfold actsInOrder
    obtain ⟨c, hc, eq⟩ := List.mem_map.mp (h.mem_iff.mp (List.mem_cons_self ..))
    split
    · rename_i none
      exact absurd (List.find?_eq_none.mp none c hc) (by simp [eq])
    · rename_i b hb
      have mem := List.mem_of_find?_eq_some hb
      have key : b.key = k := by simpa using List.find?_some hb
      have split : acts.Perm (b :: acts.erase b) := List.perm_cons_erase mem
      have rest : keys.Perm ((acts.erase b).map ConditionAct.key) := by
        have := h.trans (split.map _)
        rw [List.map_cons, key] at this
        exact this.cons_inv
      exact ((ih _ rest).cons b).trans split.symm

/-- Nothing told, nothing done. -/
theorem State.takeActs_none (h : s.acts = []) : s.takeActs = s := by
  cases s; cases h; rfl

/-- One act told is that act. -/
theorem State.takeActs_tell (h : s.acts = []) (a : ConditionAct) : (s.tell a).takeActs = s.takeAct a := by
  cases s; cases h; rfl

/-- What holds once the acts are put by, ignores the count of choices, and is kept by each act, holds after them. -/
theorem State.takeActs_keeps {p : State → Prop} (start : ∀ n, p { s with acts := [], choices := n })
    (keeps : ∀ t, ∀ a ∈ s.acts, p t → p (t.takeAct a)) : p s.takeActs := by
  have fold : ∀ (m : List ConditionAct) (t : State), (∀ a ∈ m, a ∈ s.acts) → p t → p (m.foldl State.takeAct t) := by
    intro m
    induction m with
    | nil => exact fun _ _ ht => ht
    | cons a m ih =>
      intro t sub ht
      exact ih _ (fun b hb => sub b (.tail _ hb)) (keeps t a (sub a (.head _)) ht)
  unfold State.takeActs
  split
  · exact fold _ _ (fun _ h => h) (start s.choices)
  · exact fold _ _ (actsInOrder_sub _ _) (start _)

/-- The acts of an event reach the table, and the count of choices. -/
theorem State.takeActs_changes : ChangesOnly [.conditions, .choices, .marks] s s.takeActs :=
  State.takeActs_keeps (fun n p hp => by cases p <;> simp_all [Part.agree])
    fun _ a _ h => h.trans ((State.takeAct_changes a).mono (by decide))

theorem State.takeAct_acts (a : ConditionAct) : (s.takeAct a).acts = s.acts := ((State.takeAct_changes a) .marks (by decide)).2

theorem State.takeAct_marks (a : ConditionAct) : (s.takeAct a).marks = s.marks := ((State.takeAct_changes a) .marks (by decide)).1

/-- After the acts of an event none is left. -/
@[simp] theorem State.takeActs_acts : s.takeActs.acts = [] :=
  State.takeActs_keeps (p := fun t => t.acts = []) (fun _ => rfl) fun _ a _ h => (State.takeAct_acts a).trans h

@[simp] theorem State.takeActs_marks : s.takeActs.marks = s.marks :=
  State.takeActs_keeps (p := fun t => t.marks = s.marks) (fun _ => rfl) fun _ a _ h => (State.takeAct_marks a).trans h

theorem State.ConditionsLegal.takeActs (legal : s.ConditionsLegal) : s.takeActs.ConditionsLegal :=
  State.takeActs_keeps (p := State.ConditionsLegal)
    (fun _ => ⟨legal.unique, legal.place, legal.counted, fun _ h => absurd h (List.not_mem_nil)⟩)
    fun _ a ha h => h.takeAct (legal.told a ha)

/-! ### The end of an event -/

/-- After the end of an event nothing is outstanding. -/
@[simp] theorem State.endEvent_acts : s.endEvent.acts = [] := State.takeActs_acts

@[simp] theorem State.endEvent_marks :
    s.endEvent.marks = { config := false, accounts := false, queues := false } := rfl

/-- The end of an event reaches the table, the count of choices and the store. -/
theorem State.endEvent_changes : ChangesOnly [.conditions, .choices, .store, .marks] s s.endEvent :=
  (State.takeActs_changes.mono (by decide)).trans ((State.writeMarked_changes _).mono (by decide))

/-- Nothing told: the end of the event is the writes. -/
theorem State.endEvent_of_untold (h : s.acts = []) : s.endEvent = s.writeMarked := by
  rw [State.endEvent, State.takeActs_none h]

/-- Nothing told and nothing marked: the end of the event is nothing. -/
theorem State.endEvent_of_quiet (h : s.acts = [])
    (k : s.marks = { config := false, accounts := false, queues := false }) : s.endEvent = s := by
  rw [State.endEvent_of_untold h, State.writeMarked_of_clean k]

/-- One act told and nothing marked: the end of the event is that act. -/
theorem State.endEvent_tell (h : s.acts = [])
    (k : s.marks = { config := false, accounts := false, queues := false }) (a : ConditionAct) :
    (s.tell a).endEvent = s.takeAct a := by
  rw [State.endEvent, State.takeActs_tell h, State.writeMarked_of_clean ((State.takeAct_marks a).trans k)]

theorem State.endEvent_idem : s.endEvent.endEvent = s.endEvent :=
  State.endEvent_of_quiet State.endEvent_acts State.endEvent_marks

/-! ### Events and requests -/

theorem duringOperation_running {s : State} (f : State → State) (h : s.running = true) :
    duringOperation s f = .next (f s).endEvent := by simp [duringOperation, h]

theorem duringOperation_stopped {s : State} (f : State → State) (h : s.running = false) :
    duringOperation s f = .next s := by simp [duringOperation, h]

/-- Every event is answered by a next state. -/
theorem duringOperation_next (s : State) (f : State → State) :
    duringOperation s f = .next (if s.running then (f s).endEvent else s) := rfl

/-- An event of the working module that tells the table nothing and marks no region. -/
theorem duringOperation_clean {s : State} (f : State → State) (h : s.working = true)
    (clean : (f s).marks = s.marks) (quiet : (f s).acts = s.acts) : duringOperation s f = .next (f s) := by
  rw [duringOperation_running f (State.running_of_working h), State.endEvent_of_quiet
    (quiet.trans (State.acts_of_working h)) (clean.trans (State.marks_of_working h))]

/-- An event of the working module whose effect `f` marks no region and tells the table one act. -/
theorem duringOperation_tell {s t : State} (f : State → State) (a : ConditionAct) (h : s.working = true)
    (k : f s = t.tell a) (clean : t.marks = s.marks) (quiet : t.acts = s.acts) :
    duringOperation s f = .next (t.takeAct a) := by
  rw [duringOperation_running f (State.running_of_working h), k,
    State.endEvent_tell (quiet.trans (State.acts_of_working h)) (clean.trans (State.marks_of_working h))]

theorem serveRequest_running {s : State} (owner : State → Served) (h : s.running = true) :
    serveRequest s owner = .next (owner s).record.endEvent := duringOperation_running _ h

/-- A refused request leaves all but the answer (section 10.3). -/
theorem serveRequest_refuse {s : State} {owner : State → Served} {c : Status} (h : s.working = true)
    (k : owner s = refuse s c) : serveRequest s owner = .next (s.refusedWith c) := by
  rw [serveRequest_running owner (State.running_of_working h), k]
  exact congrArg _ (State.endEvent_of_quiet (State.acts_of_working h) (State.marks_of_working h))

/-- An answer that changes no region. -/
theorem serveRequest_answer {s t : State} {owner : State → Served} {a : Answer} (h : s.working = true)
    (k : owner s = (a, t)) (clean : t.marks = s.marks) (quiet : t.acts = s.acts) :
    serveRequest s owner = .next (t.answered a) := by
  rw [serveRequest_running owner (State.running_of_working h), k]
  exact congrArg _ (State.endEvent_of_quiet (quiet.trans (State.acts_of_working h))
    (clean.trans (State.marks_of_working h)))

/-- OK with no region changed. -/
theorem serveRequest_done {s t : State} {owner : State → Served} (h : s.working = true) (k : owner s = done t)
    (clean : t.marks = s.marks) (quiet : t.acts = s.acts) : serveRequest s owner = .next t.answeredOk :=
  serveRequest_answer h k clean quiet

/-- OK with new CONFIG contents and nothing else. -/
theorem serveRequest_config {s : State} {owner : State → Served} {c : ConfigRegion} (h : s.working = true)
    (k : owner s = done ({ s with cfg := c } : State).markConfig) :
    serveRequest s owner = .next (s.withConfig c).answeredOk := by
  rw [serveRequest_running owner (State.running_of_working h), k]
  have untold : (done ({ s with cfg := c } : State).markConfig).record.acts = [] := (State.acts_of_working h :)
  rw [State.endEvent_of_untold untold]
  exact congrArg (fun t => Host.Outcome.next (State.answered t Status.ok.answer))
    (State.writeMarked_config c (State.marks_of_working h))

/-- OK with new ACCOUNTS contents and nothing else. -/
theorem serveRequest_accounts {s : State} {owner : State → Served} {a : AccountsRegion} (h : s.working = true)
    (k : owner s = done ({ s with acc := a } : State).markAccounts) :
    serveRequest s owner = .next (s.withAccounts a).answeredOk := by
  rw [serveRequest_running owner (State.running_of_working h), k]
  have untold : (done ({ s with acc := a } : State).markAccounts).record.acts = [] := (State.acts_of_working h :)
  rw [State.endEvent_of_untold untold]
  exact congrArg (fun t => Host.Outcome.next (State.answered t Status.ok.answer))
    (State.writeMarked_accounts a (State.marks_of_working h))

/-- OK with new QUEUES contents and nothing else. -/
theorem serveRequest_queues {s : State} {owner : State → Served} {q : QueuesRegion} (h : s.working = true)
    (k : owner s = done ({ s with que := q } : State).markQueues) :
    serveRequest s owner = .next (s.withQueues q).answeredOk := by
  rw [serveRequest_running owner (State.running_of_working h), k]
  have untold : (done ({ s with que := q } : State).markQueues).record.acts = [] := (State.acts_of_working h :)
  rw [State.endEvent_of_untold untold]
  exact congrArg (fun t => Host.Outcome.next (State.answered t Status.ok.answer))
    (State.writeMarked_queues q (State.marks_of_working h))

/-! ### The table of section 9.1 -/

/-- The largest source of a class by the table of section 9.1. -/
theorem ConditionClass.lastSource_eq (c : ConditionClass) : lastSources[classOrder.idxOf c]? = some c.lastSource := by
  cases c <;> rfl

/-- The latch mode of a class by the table of section 9.1. -/
theorem State.classLatch_eq (s : State) (c : ConditionClass) (m : LatchMode)
    (h : latchModes[classOrder.idxOf c]? = some (some m)) : s.classLatch c = m := by
  cases c <;> cases m <;> first | rfl | exact absurd h (by decide)

end Sys2Proof.Machine
end

