-- ==== Sys2Proof/Laws/Frames.lean ====
section
/-! SUPPORT. What each operation of the blocks may change: one frame lemma per operation, from which the frames of the
commands follow by composition. -/

namespace Sys2Proof.Machine

variable {s : State}

/-- Frames compose: the parts of both steps. -/
theorem ChangesOnly.append {l m : List Part} {s t u : State} (h : ChangesOnly l s t) (k : ChangesOnly m t u) :
    ChangesOnly (l ++ m) s u :=
  (h.mono fun _ hp => List.mem_append_left _ hp).trans (k.mono fun _ hp => List.mem_append_right _ hp)

theorem ChangesOnly.ite {l : List Part} {s t u : State} {c : Prop} [Decidable c] (h : ChangesOnly l s t)
    (k : ChangesOnly l s u) : ChangesOnly l s (if c then t else u) := by split <;> assumption

/-- A fold changes only what each of its actions changes. -/
theorem ChangesOnly.foldl {α : Type} {parts : List Part} {f : State → α → State}
    (keeps : ∀ t a, ChangesOnly parts t (f t a)) (l : List α) (s : State) : ChangesOnly parts s (l.foldl f s) := by
  induction l generalizing s with
  | nil => exact .refl _ _
  | cons a l ih => exact (keeps s a).trans (ih _)

/-! ### Single fields -/

theorem State.setChannel_changes (c : ChannelNo) (x : Channel) : ChangesOnly [.channels] s (s.setChannel c x) := by
  intro p hp; cases p <;> simp_all [Part.agree]

theorem State.setPoint_changes (p : PointNo) (x : Point) : ChangesOnly [.points] s (s.setPoint p x) := by
  intro p hp; cases p <;> simp_all [Part.agree]

theorem State.setBoiler_changes (b : Boiler) (x : Sequencer) : ChangesOnly [.boilers] s (s.setBoiler b x) := by
  intro p hp; cases p <;> simp_all [Part.agree]

theorem State.setAllocation_changes (b : Boiler) (x : Allocation) : ChangesOnly [.dsp] s (s.setAllocation b x) := by
  intro p hp; cases p <;> simp_all [Part.agree]

theorem State.setMeter_changes (k : Substation) (x : SubstationAccount) : ChangesOnly [.acc] s (s.setMeter k x) := by
  intro p hp; cases p <;> simp_all [Part.agree]

theorem State.setLedger_changes (k : Substation) (x : Ledger) : ChangesOnly [.acc] s (s.setLedger k x) := by
  intro p hp; cases p <;> simp_all [Part.agree]

theorem State.setOrder_changes (n : CurtailmentSlot) (x : Option CurtailmentOrder) :
    ChangesOnly [.que] s (s.setOrder n x) := by intro p hp; cases p <;> simp_all [Part.agree]

theorem State.setLastRate_changes (k : Substation) (r : Nat) : ChangesOnly [.hmu] s (s.setLastRate k r) := by
  intro p hp; cases p <;> simp_all [Part.agree]

theorem State.setUnmeasured_changes (n : GasSource) (b : Bool) : ChangesOnly [.gas] s (s.setUnmeasured n b) := by
  intro p hp; cases p <;> simp_all [Part.agree]

theorem State.setLine_changes (l : FieldLineNo) (x : FieldLine) : ChangesOnly [.lines] s (s.setLine l x) := by
  intro p hp; cases p <;> simp_all [Part.agree, State.setLine]

theorem State.setLink_changes (h : HostLink) : ChangesOnly [.hlu] s (s.setLink h) := by
  intro p hp; cases p <;> simp_all [Part.agree, State.setLink]

theorem State.markConfig_changes : ChangesOnly [.marks] s s.markConfig := by
  intro p hp; cases p <;> simp_all [Part.agree]

theorem State.markAccounts_changes : ChangesOnly [.marks] s s.markAccounts := by
  intro p hp; cases p <;> simp_all [Part.agree]

theorem State.markQueues_changes : ChangesOnly [.marks] s s.markQueues := by
  intro p hp; cases p <;> simp_all [Part.agree]

theorem State.cfg_changes (c : ConfigRegion) : ChangesOnly [.cfg, .marks] s ({ s with cfg := c } : State).markConfig := by
  intro p hp; cases p <;> simp_all [Part.agree]

theorem State.que_changes (q : QueuesRegion) : ChangesOnly [.que] s { s with que := q } := by
  intro p hp; cases p <;> simp_all [Part.agree]

theorem State.esu_changes (e : ExportUnit) : ChangesOnly [.esu] s { s with esu := e } := by
  intro p hp; cases p <;> simp_all [Part.agree]

theorem State.gas_changes (g : GasAccount) : ChangesOnly [.gas] s { s with gas := g } := by
  intro p hp; cases p <;> simp_all [Part.agree]

theorem State.dsp_changes (d : Dispatcher) : ChangesOnly [.dsp] s { s with dsp := d } := by
  intro p hp; cases p <;> simp_all [Part.agree]

theorem State.hmu_changes (h : HeatUnit) : ChangesOnly [.hmu] s { s with hmu := h } := by
  intro p hp; cases p <;> simp_all [Part.agree]

theorem State.bu_changes (b : BillingUnit) : ChangesOnly [.bu] s { s with bu := b } := by
  intro p hp; cases p <;> simp_all [Part.agree]

theorem State.choices_changes (n : Nat) : ChangesOnly [.choices] s { s with choices := n } := by
  intro p hp; cases p <;> simp_all [Part.agree]

/-! ### The setpoint line and the Dispatcher's notices (chapter 3) -/

theorem State.queueFrame_changes (b : Boiler) (f : Option Fuel) (n : Nat) :
    ChangesOnly [.dsp] s (s.queueFrame b f n) := by
  unfold State.queueFrame; split <;> exact State.dsp_changes _

theorem State.frameSent_changes : ChangesOnly [.dsp] s s.frameSent := by
  unfold State.frameSent; split <;> first | exact .refl _ _ | exact State.dsp_changes _

theorem State.noticeFiringEntered_changes (b : Boiler) (f : Fuel) :
    ChangesOnly [.dsp] s (s.noticeFiringEntered b f) :=
  (State.setAllocation_changes _ _).trans (State.queueFrame_changes _ _ _)

theorem State.noticeFiringLeft_changes (b : Boiler) (f : Fuel) : ChangesOnly [.dsp] s (s.noticeFiringLeft b f) :=
  (State.setAllocation_changes _ _).trans (State.queueFrame_changes _ _ _)

theorem State.leaveNotice_changes (b : Boiler) (q : Sequencer) : ChangesOnly [.dsp] s (s.leaveNotice b q) := by
  unfold State.leaveNotice
  split
  · exact State.noticeFiringLeft_changes _ _
  · exact State.noticeFiringLeft_changes _ _
  · exact State.queueFrame_changes _ _ _
  · exact .ite (State.queueFrame_changes _ _ _) (.refl _ _)
  · exact .refl _ _

/-! ### The sequencers (chapter 4) -/

theorem State.closePermits_changes (b : Boiler) : ChangesOnly [.boilers] s (s.closePermits b) := by
  unfold State.closePermits; exact .ite (State.setBoiler_changes _ _) (.refl _ _)

theorem State.controlledStop_changes (b : Boiler) : ChangesOnly [.dsp, .boilers] s (s.controlledStop b) :=
  (((State.closePermits_changes b).trans (State.setBoiler_changes _ _)).append (State.leaveNotice_changes _ _)).mono
    (by decide)

theorem State.enterPurge_changes (b : Boiler) (f : Fuel) : ChangesOnly [.boilers] s (s.enterPurge b f) := by
  unfold State.enterPurge; dsimp only; split
  · exact .refl _ _
  · exact State.setBoiler_changes _ _

theorem State.raiseTrip_changes (b : Boiler) : ChangesOnly [.marks] s (s.raiseTrip b) :=
  State.tell_changes _

theorem State.trip_changes (b : Boiler) (cause : TripCause) :
    ChangesOnly [.dsp, .boilers, .marks] s (s.trip b cause) := by
  unfold State.trip
  dsimp only
  have before (x : Sequencer) : ChangesOnly [.dsp, .boilers, .marks] s
      ((((s.closePermits b).setBoiler b x).leaveNotice b s.boilers[b]).raiseTrip b) :=
    ((((State.closePermits_changes b).trans (State.setBoiler_changes _ _)).append
      (State.leaveNotice_changes _ _)).append (State.raiseTrip_changes b)).mono (by decide)
  exact .ite ((before _).trans ((State.tellRaise_changes _ _).mono (by decide))) (before _)

theorem State.release_changes (b : Boiler) : ChangesOnly [.boilers] s (s.release b) := State.setBoiler_changes _ _

theorem State.afterCause_changes (b : Boiler) : ChangesOnly [.boilers] s (s.afterCause b) := by
  unfold State.afterCause
  split
  · split
    · exact State.release_changes b
    · exact .ite (State.release_changes b) (State.enterPurge_changes _ _)
  · exact .ite (State.release_changes b) (.refl _ _)

theorem State.clearMarker_changes (b : Boiler) : ChangesOnly [.boilers, .marks] s (s.clearMarker b) :=
  (State.setBoiler_changes _ _).append (State.tellEnd_changes _ _)

theorem State.evaluateCauses_changes (b : Boiler) : ChangesOnly [.boilers, .marks] s (s.evaluateCauses b) := by
  unfold State.evaluateCauses
  dsimp only
  refine .ite ?_ (.refl _ _)
  split
  · exact .ite ((State.clearMarker_changes b).trans ((State.afterCause_changes b).mono (by decide)))
      (State.clearMarker_changes b)
  · exact (State.setBoiler_changes _ _).append (State.raiseTrip_changes b)
  · exact .refl _ _

theorem State.startChangeover_changes (b : Boiler) (f : Fuel) :
    ChangesOnly [.dsp, .boilers] s (s.startChangeover b f) := by
  unfold State.startChangeover
  dsimp only
  split
  · exact (State.closePermits_changes b).mono (by decide)
  · exact (((State.closePermits_changes b).trans (State.setBoiler_changes _ _)).append
      (State.noticeFiringLeft_changes _ _)).mono (by decide)

theorem State.enterFiring_changes (b : Boiler) (f : Fuel) : ChangesOnly [.dsp, .boilers] s (s.enterFiring b f) :=
  ((State.setBoiler_changes _ _).append (State.noticeFiringEntered_changes _ _)).mono (by decide)

theorem State.takeRequest_changes (b : Boiler) (k : ShedKind) :
    ChangesOnly [.dsp, .boilers] s (s.takeRequest b k) := by
  unfold State.takeRequest
  split
  · exact .ite (State.startChangeover_changes _ _) (State.controlledStop_changes b)
  · exact State.controlledStop_changes b
  · exact State.controlledStop_changes b
  · exact State.controlledStop_changes b
  · exact State.startChangeover_changes _ _
  · exact .refl _ _

theorem State.statusArrival_changes (b : Boiler) (i : Indications) :
    ChangesOnly [.dsp, .boilers, .marks] s (s.statusArrival b i) := by
  have enter (f : Fuel) : ChangesOnly [.dsp, .boilers, .marks] s (s.enterFiring b f) :=
    (State.enterFiring_changes b f).mono (by decide)
  have confirm : ChangesOnly [.dsp, .boilers, .marks] s (s.confirmChangeover b) :=
    (State.setBoiler_changes _ _).mono (by decide)
  unfold State.statusArrival
  dsimp only
  split
  · exact .refl _ _
  · exact (State.evaluateCauses_changes b).mono (by decide)
  · exact (State.evaluateCauses_changes b).mono (by decide)
  · exact .ite (State.trip_changes _ _) (.refl _ _)
  · refine .ite (State.trip_changes _ _) ?_
    split
    · exact .ite (enter _) (.refl _ _)
    · exact .refl _ _
  · exact .ite (State.trip_changes _ _) (.ite (.refl _ _) (State.trip_changes _ _))
  · exact .ite (State.trip_changes _ _) (.ite (.refl _ _) (State.trip_changes _ _))
  · refine .ite (State.trip_changes _ _) ?_
    split
    · exact .ite (enter _) (.refl _ _)
    · exact .ite confirm (.refl _ _)
    · exact .refl _ _

theorem State.statusFailed_changes (b : Boiler) :
    ChangesOnly [.dsp, .boilers, .marks] s (s.statusFailed b) :=
  .ite (State.trip_changes _ _) ((State.evaluateCauses_changes b).mono (by decide))

theorem State.purgeExpiry_changes (b : Boiler) : ChangesOnly [.dsp, .boilers] s (s.purgeExpiry b) := by
  unfold State.purgeExpiry
  dsimp only
  refine .ite ?_ (.refl _ _)
  split
  · exact ((State.setBoiler_changes _ _).append (State.queueFrame_changes _ _ _)).mono (by decide)
  · exact .refl _ _

theorem State.deadExpiry_changes (b : Boiler) : ChangesOnly [.dsp, .boilers] s (s.deadExpiry b) := by
  unfold State.deadExpiry
  dsimp only
  refine .ite ?_ (.refl _ _)
  split
  · exact ((State.setBoiler_changes _ _).append (State.queueFrame_changes _ _ _)).mono (by decide)
  · exact .refl _ _

theorem State.lightOffExpiry_changes (b : Boiler) :
    ChangesOnly [.dsp, .boilers, .marks] s (s.lightOffExpiry b) := .ite (State.trip_changes _ _) (.refl _ _)

theorem State.confirmExpiry_changes (b : Boiler) :
    ChangesOnly [.dsp, .boilers, .marks] s (s.confirmExpiry b) := .ite (State.trip_changes _ _) (.refl _ _)

theorem State.tripAgeing_changes (b : Boiler) : ChangesOnly [.boilers] s (s.tripAgeing b) := by
  unfold State.tripAgeing
  dsimp only
  split
  · exact .ite (State.setBoiler_changes _ _) (.refl _ _)
  · exact .refl _ _

theorem State.releaseLost_changes (b : Boiler) : ChangesOnly [.dsp, .boilers, .marks] s (s.releaseLost b) :=
  .ite (State.trip_changes _ _) ((State.evaluateCauses_changes b).mono (by decide))

theorem State.releaseFall_changes : ChangesOnly [.dsp, .boilers, .marks, .choices] s s.releaseFall :=
  ((State.tellRaise_changes _ _).mono (by decide)).trans
    (State.inAnyOrder_changes (by decide) fun _ b _ => (State.releaseLost_changes b).mono (by decide))

theorem State.releaseRise_changes : ChangesOnly [.boilers, .marks] s s.releaseRise :=
  ((State.tellEnd_changes _ _).mono (by decide)).trans (ChangesOnly.foldl (fun _ b => State.evaluateCauses_changes b) _ _)

/-! ### The Gas Account (chapter 2) -/

theorem State.findUnmeasured_changes (n : GasSource) : ChangesOnly [.gas, .marks] s (s.findUnmeasured n) :=
  .ite (.refl _ _) ((State.setUnmeasured_changes _ _).append (State.tellRaise_changes _ _))

theorem State.clearUnmeasured_changes (n : GasSource) : ChangesOnly [.gas, .marks] s (s.clearUnmeasured n) :=
  .ite ((State.setUnmeasured_changes _ _).append (State.tellEnd_changes _ _)) (.refl _ _)

theorem State.setSource_changes (n : GasSource) (x : SourceSetting) :
    ChangesOnly [.cfg, .marks] s (s.setSource n x) := State.cfg_changes _

theorem State.figuresRequest_changes : ChangesOnly [.gas, .marks] s s.figuresRequest :=
  ChangesOnly.foldl (fun t n => by
    unfold State.figuresSource
    split
    · exact State.findUnmeasured_changes n
    · exact State.clearUnmeasured_changes n
    · exact .refl _ _
    · exact .refl _ _) _ _

theorem State.levelArrival_changes (v : Int) : ChangesOnly [.gas] s (s.levelArrival v) := by
  unfold State.levelArrival; split
  · exact .refl _ _
  · exact State.gas_changes _

theorem State.reevaluate_changes : ChangesOnly [.gas] s s.reevaluate := by
  unfold State.reevaluate; split
  · exact State.gas_changes _
  · exact .refl _ _

theorem State.limitEvent_changes (d : Detector) :
    ChangesOnly [.dsp, .boilers, .choices] s (s.limitEvent d) := by
  cases d with
  | highHigh => exact (State.dsp_changes _).mono (by decide)
  | lowLow =>
    exact State.inAnyOrder_changes (by decide) fun t b _ => (State.takeRequest_changes b _).mono (by decide)

theorem State.filterExpiry_changes (d : Detector) :
    ChangesOnly [.gas, .dsp, .boilers, .marks, .choices] s (s.filterExpiry d) := by
  unfold State.filterExpiry
  dsimp only
  refine .ite ?_ (.refl _ _)
  split
  · exact (((State.gas_changes _).append (State.tellRaise_changes _ _)).append (State.limitEvent_changes d)).mono (by decide)
  · exact ((State.gas_changes _).append (State.tellEnd_changes _ _)).mono (by decide)
  · exact .refl _ _

/-! ### The Export Schedule Unit (chapters 5 and 6) -/

theorem State.setQueues_changes (q : QueuesRegion) : ChangesOnly [.que, .marks] s (s.setQueues q) :=
  .ite (.refl _ _) ((State.que_changes q).append State.markQueues_changes)

theorem State.setInterval_changes (iv : OpenInterval) : ChangesOnly [.que, .marks] s (s.setInterval iv) :=
  State.setQueues_changes _

theorem State.publishLimit_changes : ChangesOnly [.que, .esu, .marks] s s.publishLimit := by
  unfold State.publishLimit
  dsimp only
  split
  · unfold State.curtail
    dsimp only
    refine .ite ?_ ?_ <;>
      exact (((State.esu_changes _).trans (State.esu_changes _)).append (State.setInterval_changes _)).mono (by decide)
  · exact (State.esu_changes _).mono (by decide)

theorem State.reckonMissing_changes : ChangesOnly [.esu, .marks] s s.reckonMissing := by
  unfold State.reckonMissing
  split
  · exact (State.esu_changes _).append (State.tellRaise_changes _ _)
  · exact (State.esu_changes _).append (State.tellEnd_changes _ _)
  · exact .refl _ _

theorem State.takeContract_changes (c : Contract) :
    ChangesOnly [.cfg, .que, .esu, .marks] s (s.takeContract c) := by
  have ends (t : State) : ChangesOnly [.esu] t (if c.length ≠ s.cfg.contract.length ∧ t.que.interval.isSome then
      { t with esu := { t.esu with intervalEnd := t.boundaryAfter t.clock.reading } } else t) :=
    .ite (State.esu_changes _) (.refl _ _)
  unfold State.takeContract
  simp only [decide_eq_true_eq]
  refine ChangesOnly.mono (((ChangesOnly.append ?_ State.publishLimit_changes).append (ends _)).append
    State.reckonMissing_changes) (by decide : ∀ p ∈ ((([.cfg, .marks] ++ [.que, .esu, .marks]) ++ [.esu]) ++
      [.esu, .marks] : List Part), _)
  exact .ite (.refl _ _) (State.cfg_changes _)

theorem State.mapOrders_changes (f : CurtailmentOrder → Option CurtailmentOrder) :
    ChangesOnly [.que] s (s.mapOrders f) := State.que_changes _

theorem State.orderBecomes_changes (n : CurtailmentSlot) (x : OrderState) :
    ChangesOnly [.que] s (s.orderBecomes n x) := State.setOrder_changes _ _

theorem State.emergencyStart_changes (n : CurtailmentSlot) :
    ChangesOnly [.que, .esu, .marks] s (s.emergencyStart n) :=
  ((((State.mapOrders_changes _).trans (State.orderBecomes_changes _ _)).append State.markQueues_changes).append
    State.publishLimit_changes).mono (by decide)

theorem State.ordinaryStart_changes (n : CurtailmentSlot) :
    ChangesOnly [.que, .esu, .marks] s (s.ordinaryStart n) :=
  (((State.orderBecomes_changes _ _).append State.markQueues_changes).append State.publishLimit_changes).mono (by decide)

theorem State.takeStart_changes (n : CurtailmentSlot) : ChangesOnly [.que, .esu, .marks] s (s.takeStart n) := by
  unfold State.takeStart
  split
  · exact .refl _ _
  · split
    · exact State.emergencyStart_changes n
    · exact State.ordinaryStart_changes n

theorem State.chooseActive_changes : ChangesOnly [.que] s s.chooseActive := by
  unfold State.chooseActive
  split
  · exact State.orderBecomes_changes _ _
  · split
    · exact State.orderBecomes_changes _ _
    · exact .refl _ _

theorem State.dropPassed_changes : ChangesOnly [.que] s s.dropPassed :=
  .ite (State.mapOrders_changes _) (.refl _ _)

theorem State.removeActive_changes (n : CurtailmentSlot) : ChangesOnly [.que, .esu, .marks] s (s.removeActive n) :=
  (((((State.setOrder_changes _ _).trans State.dropPassed_changes).trans State.chooseActive_changes).append
    State.markQueues_changes).append State.publishLimit_changes).mono (by decide)

theorem State.removeOrder_changes (n : CurtailmentSlot) : ChangesOnly [.que, .esu, .marks] s (s.removeOrder n) := by
  unfold State.removeOrder
  split
  · exact .refl _ _
  · exact .ite (State.removeActive_changes n)
      (((State.setOrder_changes _ _).append State.markQueues_changes).mono (by decide))

theorem State.takeOrderTime_changes (n : CurtailmentSlot) :
    ChangesOnly [.que, .esu, .marks] s (s.takeOrderTime n) :=
  .ite (State.takeStart_changes n) (State.removeOrder_changes n)

theorem State.takePassed_changes (fuel : Nat) :
    ChangesOnly [.que, .esu, .marks, .choices] s (State.takePassed fuel s) := by
  induction fuel generalizing s with
  | zero => exact .refl _ _
  | succ fuel ih =>
    unfold State.takePassed
    split
    · exact .refl _ _
    · refine ChangesOnly.trans (?_ : ChangesOnly _ s (if _ then _ else _)) (ChangesOnly.trans
        ((State.takeOrderTime_changes _).mono (by decide)) ih)
      exact .ite (.refl _ _) ((State.choices_changes _).mono (by decide))

theorem State.enterOrder_changes (n : CurtailmentSlot) (o : CurtailmentOrder) :
    ChangesOnly [.que, .esu, .marks] s (s.enterOrder n o) :=
  .ite (((State.setOrder_changes _ _).append State.markQueues_changes).append (State.takeStart_changes n) |>.mono
      (by decide))
    (((State.setOrder_changes _ _).append State.markQueues_changes).mono (by decide))

theorem State.queueSettlement_changes (r : SettlementRecord) :
    ChangesOnly [.que, .marks] s (s.queueSettlement r) := by
  have queued := (State.que_changes (s := s) { s.que with
    settlements := (if settlementPlaces ≤ s.que.settlements.length then s.que.settlements.drop 1
      else s.que.settlements) ++ [{ r with sequence := s.que.nextSettlement }]
    nextSettlement := s.que.nextSettlement + 1 }).append State.markQueues_changes
  unfold State.queueSettlement
  simp only [decide_eq_true_eq]
  exact .ite ((queued.append (State.tellReport_changes _ _)).mono (by decide)) (queued.mono (by decide))

theorem State.openWith_changes (t : Int) (flags : IntervalFlags) (current : Option Nat) :
    ChangesOnly [.que, .esu, .marks] s (s.openWith t flags current) := by
  refine ChangesOnly.trans ?_ (State.reckonMissing_changes.mono (by decide))
  intro p hp; cases p <;> simp_all [Part.agree]

theorem State.withoutInterval_changes : ChangesOnly [.que, .esu, .marks] s s.withoutInterval := by
  intro p hp; cases p <;> simp_all [Part.agree, State.withoutInterval]

theorem State.endWait_changes (reading : Option Nat) :
    ChangesOnly [.que, .esu, .marks] s (s.endWait reading) := by
  have ended : ChangesOnly [.que, .esu, .marks] s
      ({ s with esu := { s.esu with wait := none } } : State).markQueues :=
    ((State.esu_changes _).append State.markQueues_changes).mono (by decide)
  have set {t : State} (iv : OpenInterval) : ChangesOnly [.que, .esu, .marks] t (t.setInterval iv) :=
    (State.setInterval_changes iv).mono (by decide)
  have queue {t : State} (r : SettlementRecord) :
      ChangesOnly [.que, .esu, .marks] t (t.queueSettlement r) :=
    (State.queueSettlement_changes r).mono (by decide)
  unfold State.endWait
  split
  · exact .refl _ _
  · dsimp only
    split
    · split
      · exact (ended.trans (queue _)).trans (set _)
      · exact ended.trans (queue _)
    · split
      · exact (ended.trans (queue _)).trans (set _)
      · exact ended.trans (queue _)
    · split
      · exact ended.trans (set _)
      · exact ended
    · exact ended

theorem State.closeInterval_changes (t : Int) (b : Bool) :
    ChangesOnly [.que, .esu, .marks] s (s.closeInterval t b) := by
  unfold State.closeInterval
  dsimp only
  split
  · exact State.endWait_changes none
  · exact (State.endWait_changes none).trans
      (((State.queueSettlement_changes _).append State.withoutInterval_changes).mono (by decide))

theorem State.takeBoundary_changes : ChangesOnly [.que, .esu, .marks] s s.takeBoundary :=
  (State.closeInterval_changes _ _).trans (State.openWith_changes _ _ _)

theorem State.exportArrival_changes (reading : Nat) :
    ChangesOnly [.que, .esu, .marks] s (s.exportArrival reading) := by
  unfold State.exportArrival
  dsimp only
  refine .ite (((State.esu_changes _).mono (by decide)).trans (State.endWait_changes _)) ?_
  split <;> (intro p hp; cases p <;> simp_all [Part.agree])

theorem State.exportFailed_changes : ChangesOnly [.que, .esu] s s.exportFailed := by
  unfold State.exportFailed
  dsimp only
  split <;> (intro p hp; cases p <;> simp_all [Part.agree])

theorem State.integrateExport_changes (exported : Int) (span : Nat) (steamOver : Bool) :
    ChangesOnly [.que, .marks] s (s.integrateExport exported span steamOver) := by
  unfold State.integrateExport
  split
  · exact .refl _ _
  · exact State.setInterval_changes _

theorem State.scheduleStep_changes (u : Nat) :
    ChangesOnly [.que, .esu, .marks, .choices] s (s.scheduleStep u) := by
  have start : ChangesOnly [.que, .esu, .marks, .choices] s s.takePassedOrders.publishLimit :=
    ((State.takePassed_changes 16).mono (by decide)).trans (State.publishLimit_changes.mono (by decide))
  unfold State.scheduleStep
  dsimp only
  refine .ite ?_ ?_
  · refine start.trans (ChangesOnly.trans (?_ : ChangesOnly _ _ (if _ then _ else _))
      (State.reckonMissing_changes.mono (by decide)))
    exact .ite (State.takeBoundary_changes.mono (by decide)) (.refl _ _)
  · exact start.trans ((((State.closeInterval_changes _ _).trans (State.openWith_changes _ _ _)).append
      State.reckonMissing_changes).mono (by decide))

theorem State.scheduleStart_changes :
    ChangesOnly [.que, .esu, .marks, .choices] s s.scheduleStart :=
  ((State.takePassed_changes 16).mono (by decide)).trans
    (((State.publishLimit_changes.append (State.openWith_changes _ _ _)).append State.reckonMissing_changes).mono
      (by decide))

theorem State.scheduleWrap_changes : ChangesOnly [.que, .esu, .marks] s s.scheduleWrap :=
  (State.closeInterval_changes _ _).trans (State.reckonMissing_changes.mono (by decide))

theorem State.scheduleOffset_changes : ChangesOnly [.que, .esu, .marks] s s.scheduleOffset := by
  have ended {t : State} (e : ExportUnit) (c : Prop) [Decidable c] :
      ChangesOnly [.que, .esu, .marks] t (if c then { t with esu := e } else t) :=
    .ite ((State.esu_changes e).mono (by decide)) (.refl _ _)
  have published {t : State} : ChangesOnly [.que, .esu, .marks] t t.publishLimit.reckonMissing :=
    (State.publishLimit_changes.append State.reckonMissing_changes).mono (by decide)
  exact (((State.setQueues_changes _).mono (by decide)).trans (ended _ _)).trans published

/-! ### The Dispatcher (chapter 3) -/

theorem State.cycleFrame_changes (b : Boiler) : ChangesOnly [.dsp] s (s.cycleFrame b) := by
  unfold State.cycleFrame
  dsimp only
  split <;> first
    | exact State.queueFrame_changes _ _ _
    | exact .ite (State.queueFrame_changes _ _ _) (.refl _ _)
    | exact .refl _ _

theorem State.deliver_changes (r : SentRequest) : ChangesOnly [.dsp, .boilers, .choices] s (s.deliver r) := by
  cases r with
  | nothing => exact .refl _ _
  | one k b => exact (State.takeRequest_changes b k).mono (by decide)
  | shedAll l =>
    exact State.inAnyOrder_changes (by decide) fun t b _ => (State.takeRequest_changes b _).mono (by decide)

theorem State.tellMarker_changes (marker found : Bool) (c : ConditionClass) :
    ChangesOnly [.marks] s (s.tellMarker marker found c) := by
  unfold State.tellMarker
  split
  · exact State.tellRaise_changes _ _
  · exact State.tellEnd_changes _ _
  · exact .refl _ _

theorem State.cycleConditions_changes (f : ResultFlags) : ChangesOnly [.marks] s (s.cycleConditions f) :=
  ((State.tellMarker_changes _ _ _).trans (State.tellMarker_changes _ _ _)).trans (State.tellMarker_changes _ _ _)

theorem State.dispatchCycle_changes :
    ChangesOnly [.que, .gas, .dsp, .boilers, .choices, .marks] s s.dispatchCycle := by
  unfold State.dispatchCycle
  dsimp only
  refine ChangesOnly.trans (?_ : ChangesOnly _ s (State.writeResult _ _))
    (ChangesOnly.trans ((State.integrateExport_changes _ _ _).mono (by decide)) (ChangesOnly.trans
      ((ChangesOnly.foldl (fun t b => State.cycleFrame_changes b) _ _).mono (by decide))
      ((State.deliver_changes _).mono (by decide))))
  exact ((State.figuresRequest_changes.append (State.cycleConditions_changes _)).append (State.dsp_changes _)).mono
    (by decide)

theorem State.dispatchExpiry_changes :
    ChangesOnly [.que, .gas, .dsp, .boilers, .choices, .marks] s s.dispatchExpiry :=
  .ite State.dispatchCycle_changes (.refl _ _)

/-! ### The Heat Metering Unit (chapter 7) -/

theorem State.enter_changes (k : Substation) (n : Int) (f : BandFigures → BandFigures) :
    ChangesOnly [.acc, .marks] s (s.enter k n f) :=
  (State.setLedger_changes _ _).append State.markAccounts_changes

theorem State.book_changes (k : Substation) (n : Nat) : ChangesOnly [.acc, .marks] s (s.book k n) :=
  State.enter_changes _ _ _

theorem State.putMeter_changes (k : Substation) (m : SubstationAccount) :
    ChangesOnly [.acc, .marks] s (s.putMeter k m) := (State.setMeter_changes _ _).append State.markAccounts_changes

theorem State.openDispute_changes (k : Substation) (mark : MeterMark) :
    ChangesOnly [.acc, .marks] s (s.openDispute k mark) :=
  ((State.putMeter_changes _ _).append (State.tellRaise_changes _ _)).mono (by decide)

theorem State.checkReading_changes (k : Substation) (mark : MeterMark) :
    ChangesOnly [.acc, .marks] s (s.checkReading k mark) := by
  have put (m : SubstationAccount) : ChangesOnly [.acc, .marks] s (s.putMeter k m) :=
    (State.putMeter_changes k m).mono (by decide)
  unfold State.checkReading
  dsimp only
  refine .ite (put _) ?_
  split
  · exact put _
  · exact .ite (.ite (put _) ((put _).trans ((State.book_changes _ _).mono (by decide)))) (State.openDispute_changes _ _)

theorem State.meterReturn_changes (k : Substation) (mark : MeterMark) :
    ChangesOnly [.acc, .marks] s (s.meterReturn k mark) := by
  have put {t : State} (m : SubstationAccount) : ChangesOnly [.acc, .marks] t (t.putMeter k m) :=
    (State.putMeter_changes k m).mono (by decide)
  unfold State.meterReturn
  dsimp only
  refine ChangesOnly.trans ((put _).trans ((State.tellEnd_changes _ _).mono (by decide))) (.ite (put _) ?_)
  split
  · exact put _
  · exact .ite ((put _).trans ((State.enter_changes _ _ _).mono (by decide))) (State.openDispute_changes _ _)

theorem State.heatArrival_changes (k : Substation) (reading rate time : Nat) :
    ChangesOnly [.acc, .hmu, .marks] s (s.heatArrival k reading rate time) := by
  unfold State.heatArrival
  dsimp only
  split
  · exact .refl _ _
  · exact ((State.setLastRate_changes _ _).append (State.putMeter_changes _ _)).mono (by decide)
  · exact ((State.setLastRate_changes _ _).append (State.checkReading_changes _ _)).mono (by decide)
  · exact ((State.setLastRate_changes _ _).append (State.meterReturn_changes _ _)).mono (by decide)

theorem State.enterEstimating_changes (k : Substation) :
    ChangesOnly [.acc, .hmu, .marks] s (s.enterEstimating k) :=
  (((State.setLastRate_changes _ _).append (State.putMeter_changes _ _)).append (State.tellRaise_changes _ _)).mono (by decide)

theorem State.estimateMinute_changes (k : Substation) : ChangesOnly [.acc, .marks] s (s.estimateMinute k) := by
  have put {t : State} (m : SubstationAccount) (l : Ledger) :
      ChangesOnly [.acc, .marks] t ((t.putMeter k m).setLedger k l) :=
    (State.putMeter_changes k m).trans ((State.setLedger_changes k l).mono (by decide))
  unfold State.estimateMinute
  dsimp only
  exact .ite (.ite ((put _ _).trans (State.enter_changes _ _ _)) (put _ _)) (.refl _ _)

theorem State.estimationMinute_changes : ChangesOnly [.acc, .hmu, .marks] s s.estimationMinute :=
  .ite (((State.hmu_changes _).append
    (ChangesOnly.foldl (fun _ k => State.estimateMinute_changes k) _ _)).mono (by decide)) (.refl _ _)

theorem State.startUpWatchExpiry_changes : ChangesOnly [.acc, .hmu, .marks] s s.startUpWatchExpiry :=
  .ite (((State.hmu_changes _).mono (by decide)).trans
    (ChangesOnly.foldl (fun _ k => State.enterEstimating_changes k) _ _)) (.refl _ _)

/-! ### The Billing Unit (chapter 8) -/

theorem State.afterIssue_changes : ChangesOnly [.bu, .marks] s s.afterIssue :=
  .ite ((State.bu_changes _).append (State.tellEnd_changes _ _)) (.refl _ _)

theorem State.issueBill_changes (k : Substation) (x : AccumulatorSet) :
    ChangesOnly [.acc, .que, .bu, .choices, .marks] s (s.issueBill k x) := by
  unfold State.issueBill
  dsimp only
  refine ChangesOnly.trans (?_ : ChangesOnly _ s (if _ then _ else _)) (ChangesOnly.trans
    ((State.setLedger_changes _ _).mono (by decide)) (ChangesOnly.trans ((State.que_changes _).mono (by decide))
      (ChangesOnly.trans ((State.markQueues_changes.trans State.markAccounts_changes).mono (by decide))
        (State.afterIssue_changes.mono (by decide)))))
  exact .ite ((State.choices_changes _).mono (by decide)) (.refl _ _)

theorem State.issueBills_changes (fuel : Nat) :
    ChangesOnly [.acc, .que, .bu, .choices, .marks] s (State.issueBills fuel s) := by
  induction fuel generalizing s with
  | zero => exact .refl _ _
  | succ fuel ih =>
    unfold State.issueBills
    refine .ite ?_ (.refl _ _)
    split
    · exact .refl _ _
    · split
      · exact .refl _ _
      · exact (State.issueBill_changes _ _).trans ih

theorem State.evaluateQueueFull_changes : ChangesOnly [.bu, .marks] s s.evaluateQueueFull :=
  .ite ((State.bu_changes _).append (State.tellRaise_changes _ _)) (.refl _ _)

theorem State.closePeriods_changes (n : Nat) (finish : Int) :
    ChangesOnly [.cfg, .acc, .bu, .marks] s (s.closePeriods n finish) := by
  intro p hp
  unfold State.closePeriods
  dsimp only
  split <;> cases p <;> simp_all [Part.agree, State.takeStaged]

theorem State.closeWith_changes (n : Nat) (finish : Int) :
    ChangesOnly [.cfg, .acc, .que, .bu, .choices, .marks] s (s.closeWith n finish) :=
  ((State.closePeriods_changes n finish).mono (by decide)).trans
    (((State.issueBills_changes 48).mono (by decide)).trans (State.evaluateQueueFull_changes.mono (by decide)))

theorem State.scheduledClose_changes :
    ChangesOnly [.cfg, .acc, .que, .bu, .choices, .marks] s s.scheduledClose := by
  unfold State.scheduledClose
  split
  · exact .refl _ _
  · split
    · exact .refl _ _
    · exact State.closeWith_changes _ _

theorem State.reckonCloses_changes :
    ChangesOnly [.cfg, .acc, .que, .bu, .choices, .marks] s s.reckonCloses :=
  .ite (State.scheduledClose_changes.trans State.scheduledClose_changes) (.refl _ _)

/-! ### Points and channels (chapter 1) -/

/-- What a point event may reach before the regions are written. -/
def eventParts : List Part := .marks :: fieldParts

theorem State.failedEvent_changes (r : Role) : ChangesOnly eventParts s (s.failedEvent r) := by
  cases r with
  | sourceFlow n | sourceCv n =>
    exact (ChangesOnly.ite (State.findUnmeasured_changes n) (.refl _ _)).mono (by decide)
  | holderLevel => exact (State.gas_changes _).mono (by decide)
  | boilerStatus b => exact (State.statusFailed_changes b).mono (by decide)
  | exportMeter => exact State.exportFailed_changes.mono (by decide)
  | heatMeter k => exact (ChangesOnly.ite (State.enterEstimating_changes k) (.refl _ _)).mono (by decide)
  | worksFlow | networkCv | turbineStatus => exact .refl _ _

theorem State.restoredEvent_changes (r : Role) : ChangesOnly eventParts s (s.restoredEvent r) := by
  cases r with
  | sourceFlow n | sourceCv n =>
    exact (ChangesOnly.ite (State.clearUnmeasured_changes n) (.refl _ _)).mono (by decide)
  | boilerStatus b => exact (State.evaluateCauses_changes b).mono (by decide)
  | holderLevel | exportMeter | heatMeter _ | worksFlow | networkCv | turbineStatus => exact .refl _ _

theorem State.arrival_changes (r : Role) (value : Quantity) (time : Nat) :
    ChangesOnly eventParts s (s.arrival r value time) := by
  unfold State.arrival
  split
  · exact (State.levelArrival_changes _).mono (by decide)
  · exact (State.statusArrival_changes _ _).mono (by decide)
  · exact (State.exportArrival_changes _).mono (by decide)
  · exact (State.heatArrival_changes _ _ _ _).mono (by decide)
  · exact .refl _ _

theorem State.serve_changes (p : PointNo) (c : PointConfig) (rank : Rank) (ch : ChannelNo) :
    ChangesOnly eventParts s (s.serve p c rank ch) := by
  have put (x : Point) : ChangesOnly eventParts s (s.setPoint p x) := (State.setPoint_changes p x).mono (by decide)
  have ended {t : State} (d : Prop) [Decidable d] (cls : ConditionClass) (n : Nat) :
      ChangesOnly eventParts t (if d then t else t.tellEnd cls n) :=
    .ite (.refl _ _) ((State.tellEnd_changes _ _).mono (by decide))
  have restored {t : State} (d : Prop) [Decidable d] :
      ChangesOnly eventParts t (if d then t.restoredEvent c.role else t) :=
    .ite (State.restoredEvent_changes _) (.refl _ _)
  unfold State.serve
  dsimp only
  split
  · exact .refl _ _
  · exact (((put _).trans (ended _ _ _)).trans (restored _)).trans (State.arrival_changes _ _ _)

theorem State.failPoint_changes (p : PointNo) (c : PointConfig) : ChangesOnly eventParts s (s.failPoint p c) :=
  (((State.setPoint_changes _ _).append (State.tellRaise_changes _ _)).mono (by decide)).trans (State.failedEvent_changes _)

theorem State.loseSources_changes (p : PointNo) (c : PointConfig) : ChangesOnly eventParts s (s.loseSources p c) :=
  .ite ((State.setPoint_changes _ _).mono (by decide)) (State.failPoint_changes p c)

theorem State.reselect_changes (p : PointNo) : ChangesOnly eventParts s (s.reselect p) := by
  unfold State.reselect
  dsimp only
  split
  · exact .refl _ _
  · split
    · exact .ite (.refl _ _) (State.serve_changes _ _ _ _)
    · exact .ite (State.loseSources_changes _ _) (.refl _ _)

theorem State.reselectAll_changes (ch : ChannelNo) : ChangesOnly eventParts s (s.reselectAll ch) :=
  State.inAnyOrder_changes (by decide) fun _ p _ => State.reselect_changes p

theorem State.refresh_changes (ch : ChannelNo) (p : PointNo) : ChangesOnly eventParts s (s.refresh ch p) := by
  unfold State.refresh
  split
  · exact .refl _ _
  · split
    · exact .ite (State.serve_changes _ _ _ _) (.refl _ _)
    · exact .refl _ _

theorem State.holdExpiry_changes (p : PointNo) : ChangesOnly eventParts s (s.holdExpiry p) := by
  unfold State.holdExpiry
  split
  · exact .refl _ _
  · exact .ite (State.failPoint_changes _ _) (.refl _ _)

theorem State.sampleArrival_changes (ch : ChannelNo) (x : Sample) :
    ChangesOnly (.channels :: eventParts) s (s.sampleArrival ch x) := by
  have put {t : State} (c : Channel) : ChangesOnly (.channels :: eventParts) t (t.setChannel ch c) :=
    (State.setChannel_changes ch c).mono (by decide)
  have points {t : State} : ChangesOnly (.channels :: eventParts) t (t.reselectAll ch) :=
    (State.reselectAll_changes ch).mono (by decide)
  unfold State.sampleArrival
  split
  · unfold State.goodArrival State.storeSample
    dsimp only
    refine .ite ((put _).trans (State.inAnyOrder_changes (by decide) fun _ p _ =>
      (State.refresh_changes ch p).mono (by decide))) (.ite ((put _).trans (put _)) ?_)
    exact (((put _).trans (put _)).trans ((State.tellEnd_changes _ _).mono (by decide))).trans points
  · unfold State.suspectArrival State.storeSample
    dsimp only
    exact .ite ((put _).trans (put _)) (((put _).trans (put _)).trans points)

theorem State.silenceExpire_changes (ch : ChannelNo) :
    ChangesOnly (.channels :: eventParts) s (s.silenceExpire ch) := by
  have put {t : State} (c : Channel) : ChangesOnly (.channels :: eventParts) t (t.setChannel ch c) :=
    (State.setChannel_changes ch c).mono (by decide)
  unfold State.silenceExpire
  dsimp only
  exact .ite (((put _).trans (put _)).trans (((State.tellRaise_changes _ _).mono (by decide)).trans
    ((State.reselectAll_changes ch).mono (by decide)))) (put _)

/-! ### The start state -/

/-- The start state has every block at its start values (R177). -/
theorem State.atStart_blocks (s : State) : s.atStart.BlocksAtStart := by
  constructor <;> simp [State.atStart, startPoints, Dispatcher.start, GasAccount.start, HeatUnit.start, HostLink.start,
    Channel.start, Sequencer.start, DetectorCell.start, Allocation.zero, Config.startWait]
  intro p
  split <;> simp_all [Point.vacant]

end Sys2Proof.Machine
end

