-- ==== Sys2Proof/Laws/Operands.lean ====
section
/-! SUPPORT. What each reader of a request's operands accepts, and what it makes of it: the ranges and relations of the
rules that name them, in the words the statements use. -/

namespace Sys2Proof.Machine

/-- The plant parameters of R38. -/
theorem readPlant_eq (f : RawPlant) :
    let p : PlantParameters :=
      { period := f.period.toNat, idleLimit := f.idleLimit.toNat, conversion := f.conversion.toNat,
        turbineMax := f.turbineMax.toNat, ownUse := f.ownUse.toNat, exchanger := f.exchanger.toNat,
        loss := f.loss.toNat, stageSize := f.stageSize.toNat }
    readPlant f =
      if (1 ≤ p.period ∧ p.period ≤ 30) ∧ (150 ≤ p.conversion ∧ p.conversion ≤ 450) ∧ p.turbineMax ≤ 2000000 ∧
        p.ownUse ≤ 200000 ∧ p.exchanger ≤ 2000000 ∧ p.loss ≤ 200000 ∧ 1 ≤ p.stageSize ∧ p.stageSize ≤ 1000000
      then some p else none := by
  simp only [readPlant, and_assoc]

/-- The export contract of section 5.1. -/
theorem readContract_eq (limit : Word) (length lead : Byte) :
    let c : Contract := { limit := limit.toNat, length := length.toNat, lead := lead.toNat }
    readContract limit length lead =
      if c.limit ≤ 2000000 ∧ (c.length = 5 ∨ c.length = 15 ∨ c.length = 30 ∨ c.length = 60) ∧ c.lead ≤ 120
      then some c else none := by
  have (v : Byte) (k : Nat) (h : k < 256) : v = BitVec.ofNat 8 k ↔ v.toNat = k := by
    rw [← BitVec.toNat_inj, BitVec.toNat_ofNat, Nat.mod_eq_of_lt h]
  simp only [readContract, ← this _ 5 (by omega), ← this _ 15 (by omega), ← this _ 30 (by omega),
    ← this _ 60 (by omega)]
  rfl

/-- The holder figures of sections 2.2 and 2.3 and R29. -/
theorem readHolderFigures_eq (f : RawHolder) :
    let h : HolderFigures :=
      { capacity := f.capacity.toNat, bandLow := f.bandLow.toNat, bandHigh := f.bandHigh.toNat,
        recovery := f.recovery.toNat, hysteresis := f.hysteresis.toNat, filter := f.filter.toNat,
        normal := { low := f.normalLow.toNat, high := f.normalHigh.toNat },
        reduced := { low := f.reducedLow.toNat, high := f.reducedHigh.toNat } }
    let apart (x : Thresholds) : Prop :=
      x.low < x.high ∧ x.high ≤ h.capacity ∧ 2 * (h.hysteresis : Int) < (x.high : Int) - x.low
    ∀ g, readHolderFigures f = some g ↔ g = h ∧ (1 ≤ h.capacity ∧ h.capacity ≤ 1000000) ∧ h.bandLow < h.bandHigh ∧
      h.bandHigh ≤ h.capacity ∧ (60 ≤ h.recovery ∧ h.recovery ≤ 3600) ∧ (1 ≤ h.hysteresis ∧ h.hysteresis ≤ 10000) ∧
      (1 ≤ h.filter ∧ h.filter ≤ 60) ∧ apart h.normal ∧ apart h.reduced := by
  have (a b c : Nat) : a < b ∧ b ≤ c ∧ 2 * (f.hysteresis.toNat : Int) < (b : Int) - a ↔
      a < b ∧ b ≤ c ∧ 2 * f.hysteresis.toNat < b - a := by omega
  intro h apart g
  simp only [readHolderFigures, Thresholds.fit, decide_eq_true_eq, h, apart, this]
  split <;> simp_all
  all_goals grind

theorem readYesNo_eq (v : Byte) : readYesNo v = if v.toNat ≤ 1 then some (decide (v = 1)) else none := by
  revert v; decide

theorem readReference_eq (v : Byte) :
    readReference v = if v.toNat ≤ 1 then some (if v = 0 then .fromCommand else .fromConfirm) else none := by
  revert v; decide

theorem readRestart_eq (v : Byte) :
    readRestart v = if v.toNat ≤ 1 then some (if v = 0 then .autoRestart else .latched) else none := by
  revert v; decide

/-- The boiler figures of R40. -/
theorem readBoilerFigures_eq (f : RawBoiler) :
    let c : BoilerConfig :=
      { minimum := f.minimum.toNat, maximum := f.maximum.toNat, ramp := f.ramp.toNat, yield := f.yield.toNat,
        auxFitted := decide (f.auxFitted = 1), purge := f.purge.toNat, lightOff := f.lightOff.toNat,
        interval := f.interval.toNat, reference := if f.reference = 0 then .fromCommand else .fromConfirm,
        window := f.window.toNat, tripLimit := f.tripLimit.toNat,
        restart := if f.restart = 0 then .autoRestart else .latched }
    readBoilerFigures f =
      if (1 ≤ c.minimum ∧ c.minimum ≤ 2000000) ∧ (c.minimum ≤ c.maximum ∧ c.maximum ≤ 2000000) ∧
        (1 ≤ c.ramp ∧ c.ramp ≤ c.maximum) ∧ (500 ≤ c.yield ∧ c.yield ≤ 950) ∧ f.auxFitted.toNat ≤ 1 ∧
        (30 ≤ c.purge ∧ c.purge ≤ 600) ∧ (5 ≤ c.lightOff ∧ c.lightOff ≤ 60) ∧ (2 ≤ c.interval ∧ c.interval ≤ 30) ∧
        f.reference.toNat ≤ 1 ∧ (600 ≤ c.window ∧ c.window ≤ 86400) ∧ (1 ≤ c.tripLimit ∧ c.tripLimit ≤ 5) ∧
        f.restart.toNat ≤ 1
      then some c else none := by
  simp only [readBoilerFigures, readYesNo_eq, readReference_eq, readRestart_eq]
  by_cases h : f.auxFitted.toNat ≤ 1 <;> by_cases h' : f.reference.toNat ≤ 1 <;>
    by_cases h'' : f.restart.toNat ≤ 1 <;> simp only [h, h', h'', if_true, if_false, and_false, false_and, and_true,
      true_and, and_assoc]

/-- The figures of Configure Substation, within the ranges of section 7.1. -/
theorem readSubstation_eq (account : Word) (group : Byte) (maxRate estimateRate : Word) (c : SubstationConfig) :
    readSubstation account group maxRate estimateRate = some c ↔ ∃ g : Fin 4, group.toNat = g.val + 1 ∧
      1 ≤ maxRate.toNat ∧ maxRate.toNat ≤ 2000000 ∧ estimateRate.toNat ≤ maxRate.toNat ∧
      c = { account := account.toNat, group := g, staged := g, maxRate := maxRate.toNat,
            estimateRate := estimateRate.toNat } := by
  unfold readSubstation
  cases h : numbered 4 group with
  | none =>
    rw [numbered_eq_none] at h
    simp only [reduceCtorEq, false_iff]
    rintro ⟨g, hg, -⟩
    have := g.isLt
    omega
  | some g =>
    have h' := numbered_eq_some.mp h
    constructor
    · intro k
      obtain ⟨⟨a, b, d⟩, rfl⟩ := by simpa using k
      exact ⟨g, h', a, b, d, rfl⟩
    · rintro ⟨g', hg', a, b, d, rfl⟩
      have : g = g' := Fin.ext (by omega)
      simp [this, a, b, d]

/-- A list of numbered things. -/
theorem mapM_numbered_eq_some {n : Nat} (l : List Byte) (x : List (Fin n)) :
    l.mapM (numbered n) = some x ↔ x.map (fun i => i.val + 1) = l.map BitVec.toNat := by
  induction l generalizing x with
  | nil => cases x <;> simp
  | cons v l ih =>
    simp only [List.mapM_cons, Option.pure_def, Option.bind_eq_bind, Option.bind_eq_some_iff, numbered_eq_some, ih,
      List.map_cons]
    constructor
    · rintro ⟨i, hi, y, hy, h⟩
      cases h
      simp [hi, hy]
    · cases x with
      | nil => simp
      | cons i y =>
        simp only [List.map_cons, List.cons.injEq]
        exact fun ⟨a, b⟩ => ⟨i, a.symm, y, b, rfl⟩

theorem vectorOf_eq_some {α : Type} {n : Nat} (l : List α) (x : Vector α n) :
    vectorOf n l = some x ↔ x.toList = l := by
  unfold vectorOf
  split
  · simp only [Option.some.injEq]
    exact ⟨fun h => by simp [← h, Vector.toList], fun h => by subst h; simp [Vector.toList]⟩
  · rename_i h
    simp only [reduceCtorEq, false_iff]
    rintro rfl
    simp at h

theorem readSchedule_eq_some (l : List Byte) (x : Vector (Fin 4) 24) :
    readSchedule l = some x ↔ x.toList.map (fun b => b.val + 1) = l.map BitVec.toNat := by
  simp only [readSchedule, Option.bind_eq_some_iff, mapM_numbered_eq_some, vectorOf_eq_some]
  exact ⟨fun ⟨y, h, k⟩ => k ▸ h, fun h => ⟨_, h, rfl⟩⟩

theorem readPrices_eq_some (l : List Word) (x : Vector Nat 4) :
    readPrices l = some x ↔ (∀ p ∈ l, p.toNat ≤ 1000000) ∧ x.toList = l.map BitVec.toNat := by
  simp only [readPrices]
  split <;> simp_all [vectorOf_eq_some]

/-- A byte by its number. -/
theorem byte_eq_iff (v : Byte) (n : Nat) (h : n < 256) : v = BitVec.ofNat 8 n ↔ v.toNat = n := by
  rw [← BitVec.toNat_inj, BitVec.toNat_ofNat, Nat.mod_eq_of_lt h]

/-- The role instances of section 1.3 (1), as a request codes them. -/
theorem readRole_eq_some (f : RawPoint) (r : Role) :
    readRole f.role f.instanceNo = some (some r) ↔ r.codedBy f := by
  generalize hn : f.role.toNat = n
  by_cases hi : f.instanceNo.toNat = 1 <;> simp only [readRole, Role.codedBy, hn, hi, if_true, if_false] <;> split <;>
    cases r <;> simp [numbered_eq_some, hi, Role.codes] <;>
    first | exact eq_comm | omega | simp_all

theorem readOptionalChannel_eq_some (v : Byte) (c : Option ChannelNo) :
    readOptionalChannel v = some c ↔ v.toNat = c.elim 255 (fun a => a.val + 1) := by
  have h := byte_eq_iff v 255 (by omega)
  unfold readOptionalChannel
  cases c with
  | none => split <;> simp_all
  | some a =>
    have := a.isLt
    split
    · simp_all; omega
    · simp [numbered_eq_some]

theorem Role.kind_eq (r : Role) : r.kind = r.requiredKind := by cases r <;> rfl

/-- The roles held back by R10. -/
theorem State.roleBusy_iff (s : State) (r : Role) : s.roleBusy r = true ↔ s.HeldBack r := by
  cases r with
  | exportMeter =>
    simp only [State.roleBusy, State.HeldBack, State.usable, State.slotOf, Option.any_eq_true, List.find?_eq_some_iff_append,
      Point.usable, decide_eq_true_eq]
    constructor
    · rintro ⟨p, ⟨⟨c, hc, hr⟩, before, after, hl, none⟩, hs⟩
      refine ⟨p, ⟨c, hc, hr⟩, fun q hq d hd he => ?_, hs⟩
      have mem : q ∈ before := by
        have sorted : (List.finRange 128).Pairwise (· < ·) := List.pairwise_lt_finRange 128
        have all := List.mem_finRange q
        rw [hl] at sorted all
        rcases List.mem_append.mp all with h | h
        · exact h
        · exfalso
          have lt := (List.pairwise_cons.mp (List.pairwise_append.mp sorted).2.1).1
          rcases List.mem_cons.mp h with rfl | h
          · exact absurd hq (Fin.lt_irrefl _)
          · exact absurd hq (Fin.lt_asymm (lt q h))
      have := none q mem
      simp only [Bool.not_eq_true', Option.any_eq_false] at this
      exact absurd he (by simpa using this d hd)
    · rintro ⟨p, ⟨c, hc, hr⟩, first, hs⟩
      obtain ⟨before, after, hl⟩ := List.append_of_mem (List.mem_finRange p)
      refine ⟨p, ⟨⟨c, hc, hr⟩, before, after, hl, fun q hq => ?_⟩, hs⟩
      have sorted : (List.finRange 128).Pairwise (· < ·) := List.pairwise_lt_finRange 128
      rw [hl] at sorted
      have lt := (List.pairwise_append.mp sorted).2.2 q hq p List.mem_cons_self
      cases hd : s.cfg.points[q] with
      | none => simp
      | some d => simpa using first q lt d hd
  | boilerStatus b | heatMeter k | _ => simp [State.roleBusy, State.HeldBack]

theorem State.roleHeldElsewhere_eq_false (s : State) (p : PointNo) (r : Role) :
    s.roleHeldElsewhere p r = false ↔ ∀ q : PointNo, q ≠ p → ∀ d ∈ s.cfg.points[q], d.role ≠ r := by
  simp only [State.roleHeldElsewhere, List.any_eq_false, List.mem_finRange, forall_const, Bool.and_eq_true,
    decide_eq_true_eq, not_and, Bool.not_eq_true, Option.any_eq_false]
  simp

theorem PointConfig.given_nodup (c : PointConfig) : c.given.Nodup ↔
    c.alternateA ≠ some c.primary ∧ c.alternateB ≠ some c.primary ∧ (c.alternateA ≠ none → c.alternateA ≠ c.alternateB) := by
  obtain ⟨r, pr, a, b, m, d, lo, hi, ho⟩ := c
  cases a <;> cases b <;> simp [PointConfig.given, PointConfig.ranked, eq_comm, and_assoc]

theorem PointConfig.mem_given (c : PointConfig) (ch : ChannelNo) :
    ch ∈ c.given ↔ ch = c.primary ∨ c.alternateA = some ch ∨ c.alternateB = some ch := by
  obtain ⟨r, pr, a, b, m, d, lo, hi, ho⟩ := c
  cases a <;> cases b <;> simp [PointConfig.given, PointConfig.ranked, eq_comm]

/-- The relations of R9. -/
theorem State.pointFits_iff (s : State) (p : PointNo) (c : PointConfig) :
    s.pointFits p c = true ↔ s.PointAllowed p c := by
  simp only [State.pointFits, State.PointAllowed, Bool.and_eq_true, Bool.or_eq_true, decide_eq_true_eq,
    Bool.not_eq_true', State.roleHeldElsewhere_eq_false, PointConfig.given_nodup, List.all_eq_true,
    PointConfig.mem_given, Role.kind_eq, Option.isNone_iff_eq_none,
    Option.isSome_iff_ne_none, Decidable.imp_iff_not_or, ne_eq, Decidable.not_not, Nat.one_le_iff_ne_zero,
    and_assoc]

theorem readPointFields_eq_some (f : RawPoint) (r : Role) (c : PointConfig) :
    readPointFields r f = some c ↔ c.role = r ∧ f.primary.toNat = c.primary.val + 1 ∧
      f.alternateA.toNat = c.alternateA.elim 255 (fun a => a.val + 1) ∧
      f.alternateB.toNat = c.alternateB.elim 255 (fun b => b.val + 1) ∧ c.multiplier = f.multiplier.toNat ∧
      c.divisor = f.divisor.toNat ∧ c.low = f.low.toInt ∧ c.high = f.high.toInt ∧ c.hold = f.hold.toNat := by
  obtain ⟨role, p, a, b, m, d, lo, hi, ho⟩ := c
  simp only [← numbered_eq_some, ← readOptionalChannel_eq_some, readPointFields]
  split
  · rename_i p' a' b' hp ha hb
    simp only [hp, ha, hb, Option.some.injEq, PointConfig.mk.injEq, eq_comm]
  · rename_i h
    simp only [reduceCtorEq, false_iff]
    rintro ⟨-, hp, ha, hb, -⟩
    exact h _ _ _ hp ha hb

/-- What Configure Point accepts for slot `p` (R9): the figures it carries, where they are allowed. -/
theorem State.readPointRequest_eq_some (s : State) (p : PointNo) (f : RawPoint) (c : PointConfig) :
    s.readPointRequest p f = some (some c) ↔ c.CarriedBy f ∧ s.PointAllowed p c := by
  have coded := readRole_eq_some f
  unfold State.readPointRequest
  split
  · rename_i h
    simp only [Option.some.injEq, reduceCtorEq, false_iff, not_and]
    intro ⟨k, _⟩
    have := (coded c.role).mpr k
    simp [h, readRole] at this
  · split
    · rename_i r hr
      simp only [Option.map_eq_some_iff, Option.some.injEq, exists_eq_right, Option.filter_eq_some_iff,
        readPointFields_eq_some, State.pointFits_iff]
      refine and_congr_left fun _ => and_congr_left' ?_
      rw [← coded, hr]
      simp [eq_comm]
    · rename_i h
      simp only [reduceCtorEq, false_iff, not_and]
      intro ⟨k, _⟩
      exact absurd ((coded c.role).mpr k) (h _)

theorem State.readPointRequest_eq_none (s : State) (p : PointNo) (f : RawPoint) :
    s.readPointRequest p f = none ↔ f.role ≠ 0xFF ∧ ∀ c : PointConfig, c.CarriedBy f → ¬ s.PointAllowed p c := by
  have accepted (c : PointConfig) := s.readPointRequest_eq_some p f c
  by_cases h : f.role = 0xFF
  · simp [h, State.readPointRequest]
  · have empty : s.readPointRequest p f ≠ some none := by
      unfold State.readPointRequest
      split
      · contradiction
      · split <;> simp
    match hr : s.readPointRequest p f with
    | none =>
      refine ⟨fun _ => ⟨h, fun c hc ha => ?_⟩, fun _ => rfl⟩
      have := (accepted c).mpr ⟨hc, ha⟩
      rw [hr] at this
      cases this
    | some none => exact absurd hr empty
    | some (some c) =>
      have ⟨hc, ha⟩ := (accepted c).mp hr
      exact ⟨fun k => (by cases k), fun k => absurd ha (k.2 c hc)⟩

end Sys2Proof.Machine
end

