-- ==== Sys2Proof/Laws/Settlement.lean ====
section
/-! SUPPORT. What the end of the meter wait, a close and an opening leave in the QUEUES contents and in the ESU (R106,
R110 to R112, R116). -/

namespace Sys2Proof.Machine

variable {s : State}

/-! ### The settlement queue -/

@[simp] theorem State.setQueues_que (q : QueuesRegion) : (s.setQueues q).que = q := by
  unfold State.setQueues; split
  · exact Eq.symm ‹_›
  · rfl

@[simp] theorem State.setInterval_que (iv : OpenInterval) :
    (s.setInterval iv).que = { s.que with interval := some iv } := State.setQueues_que _

@[simp] theorem State.setInterval_esu (iv : OpenInterval) : (s.setInterval iv).esu = s.esu :=
  State.setInterval_changes iv .esu (by decide)

@[simp] theorem State.queueSettlement_que (r : SettlementRecord) : (s.queueSettlement r).que =
    { s.que with
      settlements := joinedBy s.que.settlements { r with sequence := s.que.nextSettlement }
      nextSettlement := s.que.nextSettlement + 1 } := by
  by_cases h : 192 ≤ s.que.settlements.length
  · simp [State.queueSettlement, settlementPlaces, joinedBy, h, Nat.not_lt.mpr h, State.tellReport, State.tell,
      State.markQueues]
  · simp [State.queueSettlement, settlementPlaces, joinedBy, h, Nat.lt_of_not_le h, State.markQueues]

@[simp] theorem State.queueSettlement_esu (r : SettlementRecord) : (s.queueSettlement r).esu = s.esu :=
  State.queueSettlement_changes r .esu (by decide)

/-! ### The end of the meter wait (R116) -/

/-- The end without a reading: a held gap record has joined the queue, and the open interval is then an estimated one. -/
theorem State.endWait_none_que : (s.endWait none).que =
    { s.que with
      interval := if s.gapHeld.isSome then s.que.interval.map fun iv => { iv with reference := none, estimated := true }
        else s.que.interval
      settlements := s.settlementsAfterWait
      nextSettlement := s.numberAfterWait } := by
  rcases hw : s.esu.wait with _ | w
  · simp [State.endWait, hw, State.gapHeld, State.settlementsAfterWait, State.numberAfterWait]
  rcases hg : w.gap with _ | g
  · simp [State.endWait, hw, hg, State.gapHeld, State.settlementsAfterWait, State.numberAfterWait, State.markQueues]
  · cases hi : s.que.interval <;>
      simp [State.endWait, hw, hg, hi, State.gapHeld, State.settlementsAfterWait, State.numberAfterWait, State.markQueues,
        settlementRecord, GapRecord.completed]

theorem State.endWait_none_esu : (s.endWait none).esu = { s.esu with wait := none } := by
  rcases hw : s.esu.wait with _ | w
  · have : s.esu = { s.esu with wait := none } := by rw [← hw]
    simpa [State.endWait, hw] using this
  rcases hg : w.gap with _ | g
  · simp [State.endWait, hw, hg, State.markQueues]
  · cases hi : s.que.interval <;> simp [State.endWait, hw, hg, hi, State.markQueues]

/-! ### A close (R110, R111, R115) -/

theorem State.meterUsable_endWait : (s.endWait none).meterUsable = s.meterUsable := by
  have h := State.endWait_changes (s := s) none
  unfold State.meterUsable State.usable State.slotOf
  rw [show (s.endWait none).cfg = s.cfg from h .cfg (by decide),
    show (s.endWait none).points = s.points from h .points (by decide)]

/-- Everything a close of the open interval leaves. -/
theorem State.closeInterval_closed {iv : OpenInterval} (h : s.que.interval = some iv) (closeTime : Int) (stepped : Bool) :
    ∃ r, s.IntervalClosed (s.closeInterval closeTime stepped) iv closeTime stepped r ∧ r.minLimit = iv.minLimit ∧
      (s.closeInterval closeTime stepped).que =
        { s.que with
          interval := none
          current := none
          settlements := joinedBy s.settlementsAfterWait r
          nextSettlement := s.numberAfterWait + 1 } ∧
      (s.closeInterval closeTime stepped).esu = { s.esu with wait := none, curtailedSince := none } := by
  let kept : OpenInterval := if s.gapHeld.isSome then { iv with reference := none, estimated := true } else iv
  let flagged : OpenInterval := if stepped then { kept with flags := { kept.flags with timeStep := true } } else kept
  have hi : (s.endWait none).que.interval = some kept := by
    rw [State.endWait_none_que]; by_cases hg : s.gapHeld.isSome <;> simp [hg, h, kept]
  have hosc : (s.endWait none).osc = s.osc := State.endWait_changes (s := s) none .osc (by decide)
  have hclose : s.closeInterval closeTime stepped =
      ((s.endWait none).queueSettlement ((s.endWait none).closingRecord flagged closeTime)).withoutInterval := by
    simp only [State.closeInterval, hi]; rfl
  have hque : (s.closeInterval closeTime stepped).que =
      { s.que with
        interval := none
        current := none
        settlements := joinedBy s.settlementsAfterWait
          { (s.endWait none).closingRecord flagged closeTime with sequence := s.numberAfterWait }
        nextSettlement := s.numberAfterWait + 1 } := by
    rw [hclose]; simp [State.withoutInterval, State.markQueues, State.endWait_none_que]
  have hesu : (s.closeInterval closeTime stepped).esu = { s.esu with wait := none, curtailedSince := none } := by
    rw [hclose]; simp [State.withoutInterval, State.markQueues, State.endWait_none_esu]
  have start : flagged.start = iv.start ∧ flagged.computed = iv.computed ∧ flagged.curtailed = iv.curtailed ∧
      flagged.minLimit = iv.minLimit ∧ flagged.flags.timeStep = (iv.flags.timeStep || stepped) ∧
      flagged.flags.powerGap = iv.flags.powerGap ∧ flagged.flags.steamOver = iv.flags.steamOver ∧
      flagged.estimated = (iv.estimated || s.gapHeld.isSome) ∧
      (s.gapHeld = none → flagged.reference = iv.reference) := by
    by_cases hg : s.gapHeld.isSome <;> cases stepped <;> simp_all [flagged, kept]
  obtain ⟨h1, h2, h3, h4, h5, h6, h7, h8, h9⟩ := start
  refine ⟨{ (s.endWait none).closingRecord flagged closeTime with sequence := s.numberAfterWait },
    ⟨⟨rfl, ⟨h1, by simp [State.closingRecord, settlementRecord, h1]⟩, ?_, ?_, ?_, ⟨h5, h6, h7⟩, ?_, ?_, ?_⟩, ?_, ?_, ?_⟩,
    h4, hque, hesu⟩
  · simp [State.closingRecord, settlementRecord, State.endWait_none_que]
  · simp [State.closingRecord, settlementRecord, h2]
  · simp [State.closingRecord, settlementRecord, State.endWait_none_que]
  · intro he
    have : (s.endWait none).meteredNow flagged = none := by
      unfold State.meteredNow
      rw [h8, State.meterUsable_endWait]
      rcases he with he | he | he <;> simp [he]
    simp [State.closingRecord, settlementRecord, this]
  · intro last ref e1 e2 e3 e4 e5 e6 e7
    have : (s.endWait none).meteredNow flagged = some (readingGap last ref) := by
      unfold State.meteredNow
      rw [h8, State.meterUsable_endWait, State.endWait_none_esu, h9 e2]
      simp [e1, e2, e3, e4, e5]
    have : ((readingGap last ref : Nat) : Int) = ((last : Int) - ref) % 100000000 := by
      unfold readingGap Config.meterModulus; omega
    simp_all [State.closingRecord, settlementRecord]
  · simp [State.closingRecord, settlementRecord, State.endWait_none_esu, hosc, h1, h3]
  · rw [hque]
  · rw [hque]
  · rw [hesu]

/-! ### An opening (R90, R106) -/

theorem State.reckonMissing_que : s.reckonMissing.que = s.que := State.reckonMissing_changes .que (by decide)

/-- A reckoning of the missing interval writes of the ESU only whether it is missing (R93). -/
theorem State.reckonMissing_esu : ∃ m, s.reckonMissing.esu = { s.esu with missing := m } := by
  unfold State.reckonMissing
  split
  · exact ⟨true, rfl⟩
  · exact ⟨false, rfl⟩
  · exact ⟨s.esu.missing, rfl⟩

/-- Everything an opening at `start` leaves, with the flags given. -/
theorem State.openInterval_opens (start : Int) (flags : IntervalFlags) (length : 0 < s.cfg.contract.length) :
    (s.openInterval start flags).que.interval = some (s.freshInterval start flags) ∧
      s.Opens (s.openInterval start flags) (s.freshInterval start flags) start flags ∧
      (s.openInterval start flags).que =
        { s.que with
          nominations := laterThan s.que.nominations start
          current := energyAt s.que.nominations start
          interval := some (s.freshInterval start flags) } ∧
      (s.openInterval start flags).esu.wait = s.esu.wait := by
  have hq : (s.openInterval start flags).que = { s.que with
      nominations := laterThan s.que.nominations start
      current := energyAt s.que.nominations start
      interval := some (s.freshInterval start flags) } := State.reckonMissing_que
  obtain ⟨m, he⟩ : ∃ m, (s.openInterval start flags).esu = { s.esu with
      intervalEnd := s.boundaryAfter start
      curtailedSince := if s.esu.effLimit < s.cfg.contract.limit then some s.osc else none
      missing := m } := State.reckonMissing_esu
  have frame := State.openWith_changes (s := s) start flags (energyAt s.que.nominations start)
  have hc : (s.openInterval start flags).cfg = s.cfg := frame .cfg (by decide)
  have hk : (s.openInterval start flags).clock = s.clock := frame .clock (by decide)
  have ho : (s.openInterval start flags).osc = s.osc := frame .osc (by decide)
  refine ⟨by rw [hq], ⟨⟨rfl, rfl, rfl, by rw [he]; rfl, rfl⟩, fun h => ?_, fun h => ?_, ?_, by rw [he, hc, ho], ?_⟩, hq,
    by rw [he]⟩
  · simp [State.freshInterval, h]
  · simp [State.freshInterval, h]
  · rw [hc, hk, he]
    have hl : 0 < ((s.cfg.intervalSeconds : Nat) : Int) := by unfold ConfigRegion.intervalSeconds; omega
    have h0 := Int.emod_nonneg (start + 60 * s.clock.offset) (ne_of_gt hl)
    have h1 := Int.emod_lt_of_pos (start + 60 * s.clock.offset) hl
    simp only [FirstBoundaryAfter, OnGrid, State.boundaryAfter, State.boundaryAtOrBefore]
    refine ⟨by omega, by omega, ?_⟩
    rw [show start - (start + 60 * s.clock.offset) % (s.cfg.intervalSeconds : Int) + s.cfg.intervalSeconds +
        60 * s.clock.offset = (start + 60 * s.clock.offset) - (start + 60 * s.clock.offset) % s.cfg.intervalSeconds +
        s.cfg.intervalSeconds by ring, Int.add_emod_right]
    exact Int.emod_eq_zero_of_dvd (Int.dvd_self_sub_emod)
  · rw [hq]; simp [laterThan]

/-- An opening sees of the state before it the meter, the last reading and the nominations alone. -/
theorem State.Opens.of_same {u t : State} {next : OpenInterval} {start : Int} {flags : IntervalFlags}
    (h : u.Opens t next start flags) (meter : s.meterUsable = u.meterUsable) (last : s.esu.lastReading = u.esu.lastReading)
    (entries : s.que.nominations = u.que.nominations) : s.Opens t next start flags := by
  obtain ⟨a, b, c, d, e, f⟩ := h
  exact ⟨a, by rw [meter, last]; exact b, by rw [meter]; exact c, d, e, by rw [entries]; exact f⟩

end Sys2Proof.Machine
end

