-- ==== Sys2Proof/Laws/Orders.lean ====
section
/-! SUPPORT. What the start, the end and the removal of a curtailment order leave in the table (R96 to R101), that they
keep its law, and that the passed starts and ends of one event are taken one after another (R98, R99, R103 i). -/

namespace Sys2Proof.Machine

variable {s t : State} {n m : CurtailmentSlot} {o a b : CurtailmentOrder}

/-- Slot `n` of the curtailment table holds the order `o`. -/
abbrev State.Holds (s : State) (n : CurtailmentSlot) (o : CurtailmentOrder) : Prop := s.que.orders[n] = some o

/-! ### The orders held and the limit -/

theorem State.mem_ordersHeld : (n, o) ∈ s.ordersHeld ↔ s.Holds n o := by
  simp [State.ordersHeld, State.Holds]

/-- A look over the orders held finds one in the state, or there is none. -/
theorem State.find_ordersHeld (s : State) (p : OrderState) :
    (∃ n o, s.ordersHeld.find? (fun x => decide (x.2.state = p)) = some (n, o) ∧ s.Holds n o ∧ o.state = p) ∨
    (s.ordersHeld.find? (fun x => decide (x.2.state = p)) = none ∧ ∀ n o, s.Holds n o → o.state ≠ p) := by
  cases h : s.ordersHeld.find? fun x => decide (x.2.state = p) with
  | some x =>
    exact .inl ⟨x.1, x.2, rfl, State.mem_ordersHeld.mp (List.mem_of_find?_eq_some h),
      by simpa using List.find?_some h⟩
  | none => exact .inr ⟨rfl, fun n o ho => by simpa using List.find?_eq_none.mp h (n, o) (State.mem_ordersHeld.mpr ho)⟩

theorem State.activeSlot_eq_none : s.activeSlot = none ↔ ∀ n o, s.Holds n o → o.state ≠ .active := by
  unfold State.activeSlot
  obtain ⟨n, o, h, ho, active⟩ | ⟨h, none⟩ := s.find_ordersHeld .active
  · simp only [h, Option.map_some, reduceCtorEq, false_iff]
    exact fun k => k n o ho active
  · simpa only [h, Option.map_none, true_iff] using none

theorem State.limitNow_of_active (h : s.Holds n o) (active : o.state = .active)
    (only : ∀ m a, s.Holds m a → a.state = .active → m = n) : s.limitNow = min s.cfg.contract.limit o.limit := by
  unfold State.limitNow
  obtain ⟨m, a, k, ha, act⟩ | ⟨_, none⟩ := s.find_ordersHeld .active
  · obtain rfl := only m a ha act
    rw [State.Holds, h] at ha; cases ha
    simp only [k, Option.map_some]
  · exact absurd active (none n o h)

theorem State.limitNow_of_none (h : ∀ m a, s.Holds m a → a.state ≠ .active) : s.limitNow = s.cfg.contract.limit := by
  unfold State.limitNow
  obtain ⟨m, a, _, ha, act⟩ | ⟨k, _⟩ := s.find_ordersHeld .active
  · exact absurd act (h m a ha)
  · simp only [k, Option.map_none]

theorem State.publishLimit_que : s.publishLimit.que.orders = s.que.orders ∧
    s.publishLimit.que.nominations = s.que.nominations := by
  unfold State.publishLimit State.curtail
  dsimp only
  split
  · split <;> simp
  · simp

@[simp] theorem State.publishLimit_orders : s.publishLimit.que.orders = s.que.orders := State.publishLimit_que.1

@[simp] theorem State.publishLimit_nominations : s.publishLimit.que.nominations = s.que.nominations :=
  State.publishLimit_que.2

@[simp] theorem State.publishLimit_effLimit : s.publishLimit.esu.effLimit = s.limitNow := by
  unfold State.publishLimit State.curtail
  dsimp only
  split
  · split <;> simp
  · rfl

@[simp] theorem State.publishLimit_cfg : s.publishLimit.cfg = s.cfg := State.publishLimit_changes .cfg (by decide)

@[simp] theorem State.publishLimit_clock : s.publishLimit.clock = s.clock := State.publishLimit_changes .clock (by decide)

/-! ### The table slot by slot -/

theorem State.setOrder_get (x : Option CurtailmentOrder) :
    (s.setOrder n x).que.orders[m] = if m = n then x else s.que.orders[m] := by
  simp only [State.setOrder, Fin.getElem_fin, Vector.getElem_set, Fin.val_inj, eq_comm (a := n)]

theorem State.mapOrders_get (f : CurtailmentOrder → Option CurtailmentOrder) :
    (s.mapOrders f).que.orders[m] = (s.que.orders[m]).bind f := by
  simp [State.mapOrders]

theorem State.orderBecomes_get (x : OrderState) : (s.orderBecomes n x).que.orders[m] =
    if m = n then (s.que.orders[n]).map fun o => { o with state := x } else s.que.orders[m] := State.setOrder_get _

theorem State.holds_orderBecomes (h : s.Holds n o) (x : OrderState) : (s.orderBecomes n x).Holds m a ↔
    (m = n ∧ a = { o with state := x }) ∨ m ≠ n ∧ s.Holds m a := by
  unfold State.Holds
  rw [State.orderBecomes_get]
  split
  · simp [*, eq_comm]
  · simp [*]

/-- Orders that only change their states, or go, keep what the law says of references and ends. -/
theorem QueuesRegion.OrdersLegal.of {q : QueuesRegion} (legal : q.OrdersLegal)
    (left : ∀ m a, s.Holds m a → ∃ b, q.orders[m] = some b ∧ a = { b with state := a.state })
    (oneActive : ∀ m n a b, s.Holds m a → s.Holds n b → a.state = .active → b.state = .active → m = n)
    (oneSuspended : ∀ m n a b, s.Holds m a → s.Holds n b → a.state = .suspended → b.state = .suspended → m = n)
    (underEmergency : ∀ m a, s.Holds m a → a.state = .suspended →
      a.kind = .ordinary ∧ ∃ n b, s.Holds n b ∧ b.state = .active ∧ b.kind = .emergency) : s.que.OrdersLegal where
  oneActive m n a ha b hb := oneActive m n a b ha hb
  oneSuspended m n a ha b hb := oneSuspended m n a b ha hb
  underEmergency m a ha := underEmergency m a ha
  references m n a ha b hb := by
    obtain ⟨x, hx, ex⟩ := left m a ha
    obtain ⟨y, hy, ey⟩ := left n b hb
    rw [ex, ey]
    exact legal.references m n x hx y hy
  ends n a ha := by
    obtain ⟨x, hx, ex⟩ := left n a ha
    rw [ex]
    exact legal.ends n x hx

/-- Where the law of orders holds, the published limit is that of the order in force. -/
theorem State.limitFollows (legal : s.que.OrdersLegal) (h : s.esu.effLimit = s.limitNow) : s.LimitFollows where
  active m a ha act := by
    rw [h, State.limitNow_of_active ha act fun n b hb k => legal.oneActive n m b hb a ha k act]
  nobody none := by rw [h, State.limitNow_of_none none]

/-! ### Starts (R96, R97) -/

theorem CurtailmentOrder.setAside_eq_some : b.setAside = some a ↔
    b.state = .active ∧ b.kind = .ordinary ∧ a = { b with state := .suspended } ∨ b.state ≠ .active ∧ a = b := by
  obtain ⟨r, k, l, st, f, x⟩ := b
  cases x <;> cases k <;> simp [CurtailmentOrder.setAside, eq_comm]

theorem State.holds_emergencyStart (h : s.Holds n o) (pending : o.state = .pending) : (s.emergencyStart n).Holds m a ↔
    (m = n ∧ a = { o with state := .active }) ∨ m ≠ n ∧ ∃ b, s.Holds m b ∧ b.setAside = some a := by
  have put : (s.mapOrders CurtailmentOrder.setAside).Holds n o := by
    rw [State.Holds, State.mapOrders_get, h]; simp [CurtailmentOrder.setAside_eq_some, pending]
  have : (s.emergencyStart n).Holds m a ↔ ((s.mapOrders CurtailmentOrder.setAside).orderBecomes n .active).Holds m a := by
    simp [State.emergencyStart, State.Holds, State.markQueues]
  rw [this, State.holds_orderBecomes put]
  simp [State.Holds, State.mapOrders, Option.bind_eq_some_iff]

theorem State.emergencyStart_clock : (s.emergencyStart n).clock = s.clock ∧ (s.emergencyStart n).cfg = s.cfg :=
  ⟨by simp [State.emergencyStart, State.markQueues, State.mapOrders, State.orderBecomes],
    by simp [State.emergencyStart, State.markQueues, State.mapOrders, State.orderBecomes]⟩

theorem State.emergencyStart_started (h : s.Holds n o) (pending : o.state = .pending) :
    EmergencyStarted s (s.emergencyStart n) n o := by
  have holds (m : CurtailmentSlot) (a : CurtailmentOrder) := State.holds_emergencyStart (m := m) (a := a) h pending
  have none_iff (m : CurtailmentSlot) (k : ∀ a, ¬ (s.emergencyStart n).Holds m a) :
      (s.emergencyStart n).que.orders[m] = none := Option.eq_none_iff_forall_ne_some.mpr k
  have started := (holds n _).mpr (.inl ⟨rfl, rfl⟩)
  refine ⟨started, ?_, fun m a ha ne => ⟨fun act kind => ?_, fun act kind => ?_, fun act => ?_⟩, fun m hm ne => ?_⟩
  · have only (m : CurtailmentSlot) (a : CurtailmentOrder) (ha : (s.emergencyStart n).Holds m a) (act : a.state = .active) :
        m = n := by
      obtain ⟨rfl, -⟩ | ⟨-, b, -, hb⟩ := (holds m a).mp ha
      · rfl
      · obtain ⟨-, -, rfl⟩ | ⟨k, rfl⟩ := CurtailmentOrder.setAside_eq_some.mp hb
        · cases act
        · exact absurd act k
    have := State.limitNow_of_active started rfl only
    rw [State.emergencyStart_clock.2] at this
    rw [← this]
    have lim : (s.emergencyStart n).limitNow =
        ((s.mapOrders CurtailmentOrder.setAside).orderBecomes n .active).limitNow := by
      simp [State.limitNow, State.ordersHeld, State.emergencyStart, State.markQueues]
    rw [lim]
    simp [State.emergencyStart, State.markQueues, State.limitNow, State.ordersHeld]
  · exact (holds m _).mpr (.inr ⟨ne, a, ha, CurtailmentOrder.setAside_eq_some.mpr (.inl ⟨act, kind, rfl⟩)⟩)
  · refine none_iff m fun b hb => ?_
    obtain ⟨rfl, -⟩ | ⟨-, c, hc, k⟩ := (holds m b).mp hb
    · exact ne rfl
    · rw [State.Holds, ha] at hc; cases hc
      simp [CurtailmentOrder.setAside_eq_some, act, kind] at k
  · exact (holds m _).mpr (.inr ⟨ne, a, ha, CurtailmentOrder.setAside_eq_some.mpr (.inr ⟨act, rfl⟩)⟩)
  · refine none_iff m fun b hb => ?_
    obtain ⟨rfl, -⟩ | ⟨-, c, hc, -⟩ := (holds m b).mp hb
    · exact ne rfl
    · rw [State.Holds, hm] at hc; cases hc

theorem State.emergencyStart_legal (legal : s.que.OrdersLegal) (h : s.Holds n o) (pending : o.state = .pending)
    (kind : o.kind = .emergency) : (s.emergencyStart n).que.OrdersLegal := by
  have holds (m : CurtailmentSlot) (a : CurtailmentOrder) (k : (s.emergencyStart n).Holds m a) :
      (m = n ∧ a = { o with state := .active }) ∨ m ≠ n ∧ ∃ b, s.Holds m b ∧
        (b.state = .active ∧ b.kind = .ordinary ∧ a = { b with state := .suspended } ∨ b.state ≠ .active ∧ a = b) := by
    simpa only [CurtailmentOrder.setAside_eq_some] using (State.holds_emergencyStart h pending).mp k
  have active (m : CurtailmentSlot) (a : CurtailmentOrder) (k : (s.emergencyStart n).Holds m a) (act : a.state = .active) :
      m = n := by
    obtain ⟨rfl, -⟩ | ⟨-, b, -, ⟨-, -, rfl⟩ | ⟨ne, rfl⟩⟩ := holds m a k
    · rfl
    · cases act
    · exact absurd act ne
  refine legal.of (fun m a ha => ?_) (fun m k a b ha hb x y => (active m a ha x).trans (active k b hb y).symm)
    (fun m k a b ha hb x y => ?_)
    fun m a ha x => ⟨?_, n, _, (State.holds_emergencyStart h pending).mpr (.inl ⟨rfl, rfl⟩), rfl, kind⟩
  · obtain ⟨rfl, rfl⟩ | ⟨-, b, hb, ⟨-, -, rfl⟩ | ⟨-, rfl⟩⟩ := holds m a ha
    · exact ⟨o, h, rfl⟩
    · exact ⟨b, hb, rfl⟩
    · exact ⟨a, hb, rfl⟩
  · obtain ⟨rfl, rfl⟩ | ⟨-, c, hc, cases1⟩ := holds m a ha
    · cases x
    obtain ⟨rfl, rfl⟩ | ⟨-, d, hd, cases2⟩ := holds k b hb
    · cases y
    obtain ⟨p, p', rfl⟩ | ⟨p, rfl⟩ := cases1 <;> obtain ⟨q, q', rfl⟩ | ⟨q, rfl⟩ := cases2
    · exact legal.oneActive m k c hc d hd p q
    · obtain ⟨-, i, e, he, e1, e2⟩ := legal.underEmergency k b hd y
      obtain rfl := legal.oneActive m i c hc e he p e1
      rw [State.Holds, he] at hc; cases hc
      rw [e2] at p'; cases p'
    · obtain ⟨-, i, e, he, e1, e2⟩ := legal.underEmergency m a hc x
      obtain rfl := legal.oneActive k i d hd e he q e1
      rw [State.Holds, he] at hd; cases hd
      rw [e2] at q'; cases q'
    · exact legal.oneSuspended m k a hc b hd x y
  · obtain ⟨rfl, rfl⟩ | ⟨-, c, hc, ⟨-, k, rfl⟩ | ⟨-, rfl⟩⟩ := holds m a ha
    · cases x
    · exact k
    · exact (legal.underEmergency m a hc x).1

theorem State.ordinaryStart_orders (h : s.Holds n o) : (s.ordinaryStart n).que.orders =
    s.que.orders.set n (some { o with state := if s.activeSlot = none then .active else .waiting }) := by
  have h : s.que.orders[n] = some o := h
  simp [State.ordinaryStart, State.markQueues, State.orderBecomes, State.setOrder, h, Option.isNone_iff_eq_none]

theorem State.ordinaryStart_clock : (s.ordinaryStart n).clock = s.clock ∧ (s.ordinaryStart n).cfg = s.cfg :=
  ⟨by simp [State.ordinaryStart, State.markQueues, State.orderBecomes],
    by simp [State.ordinaryStart, State.markQueues, State.orderBecomes]⟩

theorem State.holds_ordinaryStart (h : s.Holds n o) : (s.ordinaryStart n).Holds m a ↔
    (m = n ∧ a = { o with state := if s.activeSlot = none then .active else .waiting }) ∨ m ≠ n ∧ s.Holds m a := by
  rw [← State.holds_orderBecomes h]
  simp [State.ordinaryStart, State.Holds, State.markQueues, Option.isNone_iff_eq_none]

theorem State.ordinaryStart_legal (legal : s.que.OrdersLegal) (h : s.Holds n o) (pending : o.state = .pending) :
    (s.ordinaryStart n).que.OrdersLegal := by
  have holds (m : CurtailmentSlot) (a : CurtailmentOrder) := State.holds_ordinaryStart (m := m) (a := a) h
  refine legal.of (fun m a ha => ?_) (fun m k a b ha hb x y => ?_) (fun m k a b ha hb x y => ?_) fun m a ha x => ?_
  · obtain ⟨rfl, rfl⟩ | ⟨-, ha⟩ := (holds m a).mp ha
    · exact ⟨o, h, rfl⟩
    · exact ⟨a, ha, rfl⟩
  · obtain ⟨rfl, rfl⟩ | ⟨p, ha'⟩ := (holds m a).mp ha <;> obtain ⟨rfl, rfl⟩ | ⟨q, hb'⟩ := (holds k b).mp hb
    · rfl
    · split at x
      next none => exact absurd y (State.activeSlot_eq_none.mp none k b hb')
      next => cases x
    · split at y
      next none => exact absurd x (State.activeSlot_eq_none.mp none m a ha')
      next => cases y
    · exact legal.oneActive m k a ha' b hb' x y
  · obtain ⟨rfl, rfl⟩ | ⟨p, ha⟩ := (holds m a).mp ha
    · dsimp only at x; split at x <;> cases x
    obtain ⟨rfl, rfl⟩ | ⟨q, hb⟩ := (holds k b).mp hb
    · dsimp only at y; split at y <;> cases y
    exact legal.oneSuspended m k a ha b hb x y
  · obtain ⟨rfl, rfl⟩ | ⟨p, ha⟩ := (holds m a).mp ha
    · dsimp only at x; split at x <;> cases x
    obtain ⟨k, i, e, he, e1, e2⟩ := legal.underEmergency m a ha x
    refine ⟨k, i, e, (holds i e).mpr (.inr ⟨?_, he⟩), e1, e2⟩
    rintro rfl
    rw [State.Holds, he] at h; cases h
    rw [e1] at pending; cases pending

theorem State.ordinaryStart_follows (legal : s.que.OrdersLegal) (h : s.Holds n o) (pending : o.state = .pending) :
    (s.ordinaryStart n).LimitFollows :=
  State.limitFollows (State.ordinaryStart_legal legal h pending)
    (by simp [State.ordinaryStart, State.markQueues, State.limitNow, State.ordersHeld])

/-! ### The end of the ACTIVE order (R98) -/

/-- The choice of R98 iii: the WAITING order of earliest start, the first of the list among equals; none where none
waits. -/
theorem firstWaiting_spec : ∀ l : List (CurtailmentSlot × CurtailmentOrder), l.Pairwise (fun x y => x.1 < y.1) →
    match firstWaiting l with
    | none => ∀ x ∈ l, x.2.state ≠ .waiting
    | some x => x ∈ l ∧ x.2.state = .waiting ∧ ∀ y ∈ l, y.2.state = .waiting → comesFirst x.1 x.2 y.1 y.2
  | [], _ => by simp [firstWaiting]
  | x :: l, sorted => by
    obtain ⟨least, sorted⟩ := List.pairwise_cons.mp sorted
    have rest := firstWaiting_spec l sorted
    rw [firstWaiting]
    cases h : firstWaiting l with
    | none =>
      rw [h] at rest
      by_cases k : x.2.state = .waiting
      · simp only [k, if_true, List.mem_cons, true_or, true_and, forall_eq_or_imp]
        exact ⟨fun _ => .inr ⟨rfl, Nat.le_refl _⟩, fun y hy ky => absurd ky (rest y hy)⟩
      · simp only [k, if_false, List.mem_cons, forall_eq_or_imp]
        exact ⟨k, rest⟩
    | some y =>
      rw [h] at rest
      obtain ⟨mem, waits, first⟩ := rest
      by_cases k : x.2.state = .waiting ∧ x.2.start ≤ y.2.start
      · simp only [k, and_self, if_true, List.mem_cons, true_or, true_and, forall_eq_or_imp]
        refine ⟨fun _ => .inr ⟨rfl, Nat.le_refl _⟩, fun z hz kz => ?_⟩
        have slot := Fin.le_of_lt (least z hz)
        obtain c | ⟨c, -⟩ := first z hz kz
        · exact .inl (Nat.lt_of_le_of_lt k.2 c)
        · obtain lt | eq := Nat.lt_or_eq_of_le (c ▸ k.2)
          · exact .inl lt
          · exact .inr ⟨eq, slot⟩
      · simp only [k, if_false, List.mem_cons, mem, or_true, waits, true_and, forall_eq_or_imp]
        exact ⟨fun kx => .inl (Nat.lt_of_not_le fun le => k ⟨kx, le⟩), first⟩

theorem State.ordersHeld_sorted (s : State) : s.ordersHeld.Pairwise fun x y => x.1 < y.1 := by
  unfold State.ordersHeld
  refine (List.pairwise_filterMap.mpr ?_ : _)
  refine (List.pairwise_lt_finRange 8).imp ?_
  intro i j lt x hx y hy
  simp only [Option.map_eq_some_iff] at hx hy
  obtain ⟨_, _, rfl⟩ := hx
  obtain ⟨_, _, rfl⟩ := hy
  exact lt

/-- What the choice of the next ACTIVE order does, where none is in force and at most one is SUSPENDED (R98 ii to iv). -/
theorem State.chooseActive_cases (s : State) :
    (∃ n o, s.Holds n o ∧ o.state = .suspended ∧ s.chooseActive = s.orderBecomes n .active) ∨
    ((∀ n o, s.Holds n o → o.state ≠ .suspended) ∧
      ((∃ n o, s.Holds n o ∧ o.state = .waiting ∧
          (∀ m a, s.Holds m a → a.state = .waiting → comesFirst n o m a) ∧ s.chooseActive = s.orderBecomes n .active) ∨
        ((∀ n o, s.Holds n o → o.state ≠ .waiting) ∧ s.chooseActive = s))) := by
  unfold State.chooseActive
  obtain ⟨n, o, h, ho, k⟩ | ⟨h, none⟩ := s.find_ordersHeld .suspended
  · exact .inl ⟨n, o, ho, k, by rw [h]⟩
  · refine .inr ⟨none, ?_⟩
    have spec := firstWaiting_spec s.ordersHeld s.ordersHeld_sorted
    rw [h]
    cases w : firstWaiting s.ordersHeld with
    | none =>
      rw [w] at spec
      exact .inr ⟨fun n o ho => spec (n, o) (State.mem_ordersHeld.mpr ho), rfl⟩
    | some x =>
      rw [w] at spec
      exact .inl ⟨x.1, x.2, State.mem_ordersHeld.mp spec.1, spec.2.1,
        fun m a ha k => spec.2.2 (m, a) (State.mem_ordersHeld.mpr ha) k, rfl⟩

/-- The orders left once the one in slot `n` is out and those whose end has passed have been dropped (R98 i). -/
theorem State.holds_dropPassed (valid : s.clock.valid = true) : ((s.setOrder n none).dropPassed).Holds m a ↔
    m ≠ n ∧ s.Holds m a ∧ (a.state = .suspended ∨ a.state = .waiting → ∀ x ∈ a.finish, s.clock.reading < x) := by
  unfold State.Holds State.dropPassed
  rw [if_pos (by simpa using valid), State.mapOrders_get, State.setOrder_get]
  by_cases h : m = n
  · simp [h]
  · simp only [h, if_false, Option.bind_eq_some_iff, not_false_eq_true, true_and, ne_eq]
    constructor
    · rintro ⟨b, hb, k⟩
      split at k
      · cases k
      · next ne =>
        cases k
        refine ⟨hb, fun aside x hx => ?_⟩
        refine Nat.lt_of_not_le fun le => ne ⟨aside, ?_⟩
        simp only [CurtailmentOrder.endPassed, Option.mem_def.mp hx, Option.any_some, decide_eq_true_eq]
        exact le
    · rintro ⟨ha, k⟩
      refine ⟨a, ha, ?_⟩
      rw [if_neg]
      rintro ⟨aside, ended⟩
      cases hf : a.finish with
      | none => simp [CurtailmentOrder.endPassed, hf] at ended
      | some x =>
        have := k aside x hf
        rw [CurtailmentOrder.endPassed, hf] at ended
        have ended : x ≤ s.clock.reading := of_decide_eq_true ended
        omega

/-- The removal of the ACTIVE order: the orders left over, with the next one in force. -/
theorem State.removeActive_orders : (s.removeActive n).que.orders =
    (s.setOrder n none).dropPassed.chooseActive.que.orders := by
  simp [State.removeActive, State.markQueues]

theorem State.removeActive_limit : (s.removeActive n).esu.effLimit = (s.removeActive n).limitNow := by
  simp [State.removeActive, State.markQueues, State.limitNow, State.ordersHeld]

theorem State.removeActive_clock : (s.removeActive n).clock = s.clock ∧ (s.removeActive n).cfg = s.cfg :=
  ⟨State.removeActive_changes n .clock (by decide), State.removeActive_changes n .cfg (by decide)⟩

/-- What the removal of the ACTIVE order leaves, under a VALID clock (R98). -/
theorem State.removeActive_cases (valid : s.clock.valid = true) :
    let stays (m : CurtailmentSlot) (a : CurtailmentOrder) : Prop := m ≠ n ∧ s.Holds m a ∧
      (a.state = .suspended ∨ a.state = .waiting → ∀ x ∈ a.finish, s.clock.reading < x)
    (∃ k x, stays k x ∧ (x.state = .suspended ∨ x.state = .waiting ∧ (∀ m a, stays m a → a.state ≠ .suspended) ∧
        ∀ m a, stays m a → a.state = .waiting → comesFirst k x m a) ∧
      ∀ m a, (s.removeActive n).Holds m a ↔ (m = k ∧ a = { x with state := .active }) ∨ m ≠ k ∧ stays m a) ∨
    (∀ m a, stays m a → a.state ≠ .suspended ∧ a.state ≠ .waiting) ∧
      ∀ m a, (s.removeActive n).Holds m a ↔ stays m a := by
  intro stays
  have left (m : CurtailmentSlot) (a : CurtailmentOrder) : (s.setOrder n none).dropPassed.Holds m a ↔ stays m a :=
    State.holds_dropPassed valid
  have out (m : CurtailmentSlot) (a : CurtailmentOrder) :
      (s.removeActive n).Holds m a ↔ (s.setOrder n none).dropPassed.chooseActive.Holds m a := by
    unfold State.Holds; rw [State.removeActive_orders]
  obtain ⟨k, x, hx, st, eq⟩ | ⟨noneAside, ⟨k, x, hx, st, first, eq⟩ | ⟨noneWaits, eq⟩⟩ :=
    (s.setOrder n none).dropPassed.chooseActive_cases
  · refine .inl ⟨k, x, (left k x).mp hx, .inl st, fun m a => ?_⟩
    rw [out, eq, State.holds_orderBecomes hx, left]
  · refine .inl ⟨k, x, (left k x).mp hx, .inr ⟨st, fun m a ha => noneAside m a ((left m a).mpr ha),
      fun m a ha => first m a ((left m a).mpr ha)⟩, fun m a => ?_⟩
    rw [out, eq, State.holds_orderBecomes hx, left]
  · refine .inr ⟨fun m a ha => ⟨noneAside m a ((left m a).mpr ha), noneWaits m a ((left m a).mpr ha)⟩, fun m a => ?_⟩
    rw [out, eq, left]

theorem State.removeActive_legal (legal : s.que.OrdersLegal) (valid : s.clock.valid = true) (h : s.Holds n o)
    (active : o.state = .active) : (s.removeActive n).que.OrdersLegal := by
  have others {m : CurtailmentSlot} {a : CurtailmentOrder} (ne : m ≠ n) (ha : s.Holds m a) : a.state ≠ .active :=
    fun act => ne (legal.oneActive m n a ha o h act active)
  obtain ⟨k, x, ⟨kn, hx, -⟩, st, holds⟩ | ⟨none, holds⟩ := State.removeActive_cases (n := n) valid
  · have aside (m : CurtailmentSlot) (a : CurtailmentOrder) (ha : (s.removeActive n).Holds m a) : a.state ≠ .suspended := by
      intro sus
      obtain ⟨rfl, rfl⟩ | ⟨ne, stays⟩ := (holds m a).mp ha
      · cases sus
      · obtain st | ⟨-, none, -⟩ := st
        · exact ne (legal.oneSuspended m k a stays.2.1 x hx sus st)
        · exact none m a stays sus
    refine legal.of (fun m a ha => ?_) (fun m i a b ha hb p q => ?_) (fun m i a b ha hb p q => absurd p (aside m a ha))
      fun m a ha p => absurd p (aside m a ha)
    · obtain ⟨rfl, rfl⟩ | ⟨-, -, ha, -⟩ := (holds m a).mp ha
      · exact ⟨x, hx, rfl⟩
      · exact ⟨a, ha, rfl⟩
    · obtain ⟨rfl, -⟩ | ⟨-, ne, ha, -⟩ := (holds m a).mp ha
      · obtain ⟨rfl, -⟩ | ⟨-, ne, hb, -⟩ := (holds i b).mp hb
        · rfl
        · exact absurd q (others ne hb)
      · exact absurd p (others ne ha)
  · refine legal.of (fun m a ha => ⟨a, ((holds m a).mp ha).2.1, rfl⟩)
      (fun m i a b ha hb p q => absurd p (others ((holds m a).mp ha).1 ((holds m a).mp ha).2.1))
      (fun m i a b ha hb p q => absurd p (none m a ((holds m a).mp ha)).1)
      fun m a ha p => absurd p (none m a ((holds m a).mp ha)).1

theorem State.removeActive_removed (legal : s.que.OrdersLegal) (valid : s.clock.valid = true) (h : s.Holds n o)
    (active : o.state = .active) : ActiveRemoved s (s.removeActive n) n := by
  have follows := State.limitFollows (State.removeActive_legal legal valid h active) State.removeActive_limit
  have cfg := (State.removeActive_clock (s := s) (n := n)).2
  have none_iff (m : CurtailmentSlot) (k : ∀ a, ¬ (s.removeActive n).Holds m a) :
      (s.removeActive n).que.orders[m] = none := Option.eq_none_iff_forall_ne_some.mpr k
  have asideNe {m : CurtailmentSlot} {a : CurtailmentOrder} (ha : s.Holds m a) (st : a.state ≠ .active) : m ≠ n := by
    rintro rfl
    rw [State.Holds, ha] at h; cases h
    exact st active
  -- what stays, and what comes after it
  have cases := State.removeActive_cases (n := n) valid
  have from' (m : CurtailmentSlot) (a : CurtailmentOrder) (ha : (s.removeActive n).Holds m a) :
      ∃ b, m ≠ n ∧ s.Holds m b ∧ (b.state = .suspended ∨ b.state = .waiting → ∀ x ∈ b.finish, s.clock.reading < x) := by
    obtain ⟨k, x, hx, -, holds⟩ | ⟨-, holds⟩ := cases
    · obtain ⟨rfl, -⟩ | ⟨-, ha⟩ := (holds m a).mp ha
      · exact ⟨x, hx⟩
      · exact ⟨a, ha⟩
    · exact ⟨a, (holds m a).mp ha⟩
  refine ⟨?_, ?_, ?_, ?_, ?_, ?_, ?_, ?_⟩
  · refine none_iff n fun a ha => ?_
    obtain ⟨b, ne, -⟩ := from' n a ha
    exact ne rfl
  · rintro m a ha st - ⟨e, he, le⟩
    refine none_iff m fun c hc => ?_
    obtain ⟨b, -, hb, k⟩ := from' m c hc
    rw [State.Holds, ha] at hb; cases hb
    exact absurd (k st e he) (by omega)
  · intro m a ha st
    have stays := asideNe ha (by rw [st]; decide)
    obtain ⟨k, x, ⟨-, hx, -⟩, aside, holds⟩ | ⟨-, holds⟩ := cases
    · refine (holds m a).mpr (.inr ⟨?_, stays, ha, by simp [st]⟩)
      rintro rfl
      rw [State.Holds, ha] at hx; cases hx
      simp [st] at aside
    · exact (holds m a).mpr ⟨stays, ha, by simp [st]⟩
  · intro m hm
    refine none_iff m fun a ha => ?_
    obtain ⟨b, -, hb, -⟩ := from' m a ha
    rw [State.Holds, hm] at hb; cases hb
  · rintro m a ha ⟨st, ends⟩
    have stays : m ≠ n ∧ s.Holds m a ∧ (a.state = .suspended ∨ a.state = .waiting → ∀ x ∈ a.finish, s.clock.reading < x) :=
      ⟨asideNe ha (by rw [st]; decide), ha, fun _ => ends valid⟩
    obtain ⟨k, x, ⟨-, hx, -⟩, aside, holds⟩ | ⟨none, -⟩ := cases
    · have : m = k := by
        obtain aside | ⟨-, none, -⟩ := aside
        · exact legal.oneSuspended m k a ha x hx st aside
        · exact absurd st (none m a stays)
      subst this
      rw [State.Holds, ha] at hx; cases hx
      have got := (holds m _).mpr (.inl ⟨rfl, rfl⟩)
      refine ⟨got, by rw [follows.active m _ got rfl, cfg], fun i y hy k => (holds i y).mpr (.inr ⟨?_, ?_⟩)⟩
      · rintro rfl
        cases ha.symm.trans hy
        exact absurd (st.symm.trans k.1) (by decide)
      · exact ⟨asideNe hy (by rw [k.1]; decide), hy, fun _ => k.2 valid⟩
    · exact absurd st (none m a stays).1
  · rintro noneAside m a ha ⟨st, ends⟩ first
    have stays : m ≠ n ∧ s.Holds m a ∧ (a.state = .suspended ∨ a.state = .waiting → ∀ x ∈ a.finish, s.clock.reading < x) :=
      ⟨asideNe ha (by rw [st]; decide), ha, fun _ => ends valid⟩
    obtain ⟨k, x, ⟨kn, hx, fresh⟩, aside, holds⟩ | ⟨none, -⟩ := cases
    · have : m = k := by
        obtain aside | ⟨waits, -, least⟩ := aside
        · exact absurd ⟨aside, fun _ => fresh (.inl aside)⟩ (noneAside k x hx)
        · have c := first k x hx ⟨waits, fun _ => fresh (.inr waits)⟩
          have d := least m a stays st
          obtain c | ⟨c, c'⟩ := c <;> obtain d | ⟨d, d'⟩ := d
          · omega
          · omega
          · omega
          · exact Fin.le_antisymm c' d'
      subst this
      rw [State.Holds, ha] at hx; cases hx
      have got := (holds m _).mpr (.inl ⟨rfl, rfl⟩)
      exact ⟨got, by rw [follows.active m _ got rfl, cfg], fun i y hy ne k => (holds i y).mpr (.inr ⟨ne,
        asideNe hy (by rw [k.1]; decide), hy, fun _ => k.2 valid⟩)⟩
    · exact absurd st (none m a stays).2
  · intro nobody
    refine (follows.nobody fun m a ha act => ?_).trans (by rw [cfg])
    obtain ⟨k, x, ⟨-, hx, fresh⟩, aside, holds⟩ | ⟨-, holds⟩ := cases
    · obtain aside | ⟨aside, -⟩ := aside
      · exact (nobody k x hx).1 ⟨aside, fun _ => fresh (.inl aside)⟩
      · exact (nobody k x hx).2 ⟨aside, fun _ => fresh (.inr aside)⟩
    · obtain ⟨ne, ha, -⟩ := (holds m a).mp ha
      exact ne (legal.oneActive m n a ha o h act active)
  · have kept (u : State) : u.chooseActive.que.nominations = u.que.nominations := by
      unfold State.chooseActive; split
      · rfl
      · split <;> rfl
    simp only [State.removeActive, State.publishLimit_nominations]
    change ((s.setOrder n none).dropPassed.chooseActive).que.nominations = _
    rw [kept]
    unfold State.dropPassed; split <;> rfl


/-! ### The passed starts and ends, one by one (R98, R99, R103 i) -/

theorem CurtailmentOrder.passedTime_eq_some (now x : Nat) :
    o.passedTime now = some x ↔ o.timePassed now ∧ x = o.nextTime := by
  unfold CurtailmentOrder.passedTime CurtailmentOrder.timePassed CurtailmentOrder.nextTime
  by_cases h : o.state = .pending
  · by_cases k : o.start ≤ now <;> simp [h, k, eq_comm]
  · cases o.finish with
    | none => simp [h]
    | some e => by_cases k : e ≤ now <;> simp [h, k, eq_comm, Option.filter]

/-- Slots of `earliestSlots` hold an order whose time is the earliest passed. -/
theorem State.mem_earliestSlots (h : n ∈ earliestSlots s.passedOrders) : ∃ o, s.Holds n o ∧
    o.timePassed s.clock.reading ∧
    ∀ m a, s.Holds m a → a.timePassed s.clock.reading → o.nextTime ≤ a.nextTime := by
  have mem (m : CurtailmentSlot) (x : Nat) : (m, x) ∈ s.passedOrders ↔
      ∃ a, s.Holds m a ∧ a.timePassed s.clock.reading ∧ x = a.nextTime := by
    unfold State.passedOrders
    rw [List.mem_filterMap]
    constructor
    · rintro ⟨⟨k, a⟩, ha, p⟩
      obtain ⟨y, hy, eq⟩ := Option.map_eq_some_iff.mp p
      cases eq
      exact ⟨a, State.mem_ordersHeld.mp ha, (CurtailmentOrder.passedTime_eq_some _ _).mp hy⟩
    · rintro ⟨a, ha, p⟩
      exact ⟨(m, a), State.mem_ordersHeld.mpr ha,
        Option.map_eq_some_iff.mpr ⟨x, (CurtailmentOrder.passedTime_eq_some _ _).mpr p, rfl⟩⟩
  obtain ⟨⟨k, x⟩, hx, rfl⟩ := List.mem_map.mp h
  obtain ⟨hx, least⟩ := List.mem_filter.mp hx
  obtain ⟨o, ho, p, rfl⟩ := (mem k x).mp hx
  refine ⟨o, ho, p, fun m a ha q => ?_⟩
  simpa using List.all_eq_true.mp least _ ((mem m a.nextTime).mpr ⟨a, ha, q, rfl⟩)

theorem State.earliestSlots_eq_nil (h : earliestSlots s.passedOrders = []) (hn : s.Holds n o) :
    ¬ o.timePassed s.clock.reading := by
  intro p
  have mem : (n, o.nextTime) ∈ s.passedOrders := List.mem_filterMap.mpr ⟨(n, o), State.mem_ordersHeld.mpr hn,
    Option.map_eq_some_iff.mpr ⟨_, (CurtailmentOrder.passedTime_eq_some _ _).mpr ⟨p, rfl⟩, rfl⟩⟩
  -- a list that is not empty has an item of the least time
  have least : ∀ l : List (CurtailmentSlot × Nat), l ≠ [] → ∃ x ∈ l, ∀ y ∈ l, x.2 ≤ y.2 := by
    intro l
    induction l with
    | nil => exact fun h => absurd rfl h
    | cons x l ih =>
      intro _
      by_cases e : l = []
      · exact ⟨x, by simp, by simp [e]⟩
      obtain ⟨y, hy, first⟩ := ih e
      by_cases le : x.2 ≤ y.2
      · exact ⟨x, by simp, fun z hz => by
          obtain rfl | hz := List.mem_cons.mp hz
          · exact Nat.le_refl _
          · exact Nat.le_trans le (first z hz)⟩
      · exact ⟨y, by simp [hy], fun z hz => by
          obtain rfl | hz := List.mem_cons.mp hz
          · omega
          · exact first z hz⟩
  obtain ⟨x, hx, first⟩ := least _ (List.ne_nil_of_mem mem)
  have : x.1 ∈ earliestSlots s.passedOrders := List.mem_map.mpr ⟨x, List.mem_filter.mpr ⟨hx,
    List.all_eq_true.mpr fun y hy => decide_eq_true (first y hy)⟩, rfl⟩
  rw [h] at this
  cases this

/-- One taking, by the rule of the order's kind and state; the law of orders stays. -/
theorem State.takeOrderTime_taken (legal : s.que.OrdersLegal) (valid : s.clock.valid = true)
    (h : n ∈ earliestSlots s.passedOrders) :
    (∃ o, OrderTimeTaken s (s.takeOrderTime n) n o) ∧ (s.takeOrderTime n).que.OrdersLegal ∧
      ∃ o, s.Holds n o ∧ ∀ m a, (s.takeOrderTime n).Holds m a → ∃ b, s.Holds m b ∧
        (a.state = .pending → b.state = .pending) ∧ (m = n → a.state ≠ .pending ∧ b.state = .pending) := by
  obtain ⟨o, ho, passed, earliest⟩ := State.mem_earliestSlots h
  have held : s.que.orders[n] = some o := ho
  by_cases pending : o.state = .pending
  · have eq : s.takeOrderTime n = match o.kind with
        | .emergency => s.emergencyStart n
        | .ordinary => s.ordinaryStart n := by
      cases kind : o.kind <;> simp [State.takeOrderTime, State.takeStart, held, pending, kind]
    have aside : ¬ (o.state = .suspended ∨ o.state = .waiting) := by simp [pending]
    have active : o.state ≠ .active := by simp [pending]
    cases kind : o.kind with
    | emergency =>
      rw [eq, kind]
      exact ⟨⟨o, held, passed, earliest, State.emergencyStart_clock, fun _ _ => State.emergencyStart_started ho pending,
        fun _ k => absurd (kind.symm.trans k) (by decide), fun k => absurd k active, fun k => absurd k aside⟩,
        State.emergencyStart_legal legal ho pending kind, o, ho, fun m a ha => by
          obtain ⟨rfl, rfl⟩ | ⟨ne, b, hb, k⟩ := (State.holds_emergencyStart ho pending).mp ha
          · exact ⟨o, ho, fun _ => pending, fun _ => ⟨fun k => (by cases k), pending⟩⟩
          · refine ⟨b, hb, ?_, fun k => absurd k ne⟩
            obtain ⟨-, -, rfl⟩ | ⟨-, rfl⟩ := CurtailmentOrder.setAside_eq_some.mp k
            · exact fun k => by cases k
            · exact id⟩
    | ordinary =>
      rw [eq, kind]
      exact ⟨⟨o, held, passed, earliest, State.ordinaryStart_clock, fun _ k => absurd (kind.symm.trans k) (by decide),
        fun _ _ => ⟨State.ordinaryStart_follows legal ho pending, State.ordinaryStart_orders ho⟩,
        fun k => absurd k active, fun k => absurd k aside⟩, State.ordinaryStart_legal legal ho pending, o, ho,
        fun m a ha => by
          obtain ⟨rfl, rfl⟩ | ⟨ne, ha⟩ := (State.holds_ordinaryStart ho).mp ha
          · exact ⟨o, ho, fun _ => pending, fun _ => ⟨fun k => (by dsimp only at k; split at k <;> cases k), pending⟩⟩
          · exact ⟨a, ha, id, fun k => absurd k ne⟩⟩
  · have eq : s.takeOrderTime n = if o.state = .active then s.removeActive n else (s.setOrder n none).markQueues := by
      simp only [State.takeOrderTime, State.removeOrder, held, Option.any_some, pending, decide_false, Bool.false_eq_true,
        if_false]
    by_cases active : o.state = .active
    · rw [eq, if_pos active]
      exact ⟨⟨o, held, passed, earliest, State.removeActive_clock, fun k => absurd k pending, fun k => absurd k pending,
        fun _ => State.removeActive_removed legal valid ho active, fun k => by simp [active] at k⟩,
        State.removeActive_legal legal valid ho active, o, ho, fun m a ha => by
          obtain ⟨k, x, ⟨kn, hx, -⟩, -, holds⟩ | ⟨-, holds⟩ := State.removeActive_cases (n := n) valid
          · obtain ⟨rfl, rfl⟩ | ⟨-, ne, ha, -⟩ := (holds m a).mp ha
            · exact ⟨x, hx, fun k => (by cases k), fun k => absurd k kn⟩
            · exact ⟨a, ha, id, fun k => absurd k ne⟩
          · obtain ⟨ne, ha, -⟩ := (holds m a).mp ha
            exact ⟨a, ha, id, fun k => absurd k ne⟩⟩
    · rw [eq, if_neg active]
      refine ⟨⟨o, held, passed, earliest, ⟨rfl, rfl⟩, fun k => absurd k pending, fun k => absurd k pending,
        fun k => absurd k active, fun _ => ⟨rfl, rfl⟩⟩, ?_⟩
      have holds (m : CurtailmentSlot) (a : CurtailmentOrder) (k : ((s.setOrder n none).markQueues).Holds m a) :
          m ≠ n ∧ s.Holds m a := by
        change (s.setOrder n none).que.orders[m] = some a at k
        rw [State.setOrder_get] at k
        split at k
        · cases k
        · exact ⟨‹_›, k⟩
      have stays {m : CurtailmentSlot} {a : CurtailmentOrder} (ne : m ≠ n) (k : s.Holds m a) :
          ((s.setOrder n none).markQueues).Holds m a := by
        change (s.setOrder n none).que.orders[m] = some a
        rw [State.setOrder_get, if_neg ne]; exact k
      refine ⟨?_, o, ho, fun m a ha => ⟨a, (holds m a ha).2, id, fun k => absurd k (holds m a ha).1⟩⟩
      refine legal.of (fun m a ha => ⟨a, (holds m a ha).2, rfl⟩)
        (fun m k a b ha hb p q => legal.oneActive m k a (holds m a ha).2 b (holds k b hb).2 p q)
        (fun m k a b ha hb p q => legal.oneSuspended m k a (holds m a ha).2 b (holds k b hb).2 p q) fun m a ha p => ?_
      obtain ⟨k, i, e, he, e1, e2⟩ := legal.underEmergency m a (holds m a ha).2 p
      refine ⟨k, i, e, stays ?_ he, e1, e2⟩
      rintro rfl
      cases ho.symm.trans he
      exact active e1

/-- The takings still to come of the orders of a table: a start and an end of each PENDING order, the end of any other. -/
def State.timesLeft (s : State) : Nat :=
  ((List.finRange 8).map fun n => match s.que.orders[n] with
    | none => 0
    | some o => if o.state = .pending then 2 else 1).sum

theorem State.timesLeft_le (s : State) : s.timesLeft ≤ 16 := by
  refine (List.sum_le_card_nsmul _ 2 fun x hx => ?_).trans (by simp)
  obtain ⟨n, -, rfl⟩ := List.mem_map.mp hx
  split
  · omega
  · split <;> omega

theorem State.timesLeft_lt (ho : s.Holds n o) (h : ∀ m a, t.Holds m a → ∃ b, s.Holds m b ∧
    (a.state = .pending → b.state = .pending) ∧ (m = n → a.state ≠ .pending ∧ b.state = .pending)) :
    t.timesLeft < s.timesLeft := by
  unfold State.timesLeft
  refine List.sum_lt_sum _ _ (fun m _ => ?_) ⟨n, List.mem_finRange n, ?_⟩
  · cases ht : t.que.orders[m] with
    | none => exact Nat.zero_le _
    | some a =>
      obtain ⟨b, hb, k, -⟩ := h m a ht
      simp only [show s.que.orders[m] = some b from hb]
      by_cases p : a.state = .pending
      · simp [p, k p]
      · simp only [p, if_false]; split <;> omega
  · simp only [show s.que.orders[n] = some o from ho]
    cases ht : t.que.orders[n] with
    | none => dsimp only; split <;> omega
    | some a =>
      obtain ⟨b, hb, -, k⟩ := h n a ht
      cases ho.symm.trans hb
      simp [(k rfl).1, (k rfl).2]

/-- The count of free choices made plays no part in a taking. -/
theorem OrderTimeTaken.of_choices {c : Nat} (h : OrderTimeTaken { s with choices := c } t n o) : OrderTimeTaken s t n o :=
  ⟨h.held, h.passed, h.earliest, h.clock,
    fun p k => let e := h.emergency p k; ⟨e.started, e.limit, e.others, e.empty⟩, h.ordinary,
    fun p => let a := h.active p; ⟨a.gone, a.passed, a.pending, a.empty, a.suspended, a.waiting, a.nobody, a.nominations⟩,
    h.aside⟩

/-- The passed starts and ends are taken one by one until none is left, and the law of orders stays. -/
theorem State.takePassed_taken : ∀ (fuel : Nat) (s : State), s.timesLeft ≤ fuel → s.que.OrdersLegal →
    s.clock.valid = true → s.OrderTimesTaken (State.takePassed fuel s) ∧ (State.takePassed fuel s).que.OrdersLegal
  | 0, s, left, legal, _ => by
    refine ⟨.done fun n o ho => ?_, legal⟩
    have : ({ s with que := { s.que with orders := Vector.replicate 8 none } } : State).timesLeft < s.timesLeft :=
      State.timesLeft_lt ho fun m a ha => by simp [State.Holds] at ha
    omega
  | fuel + 1, s, left, legal, valid => by
    rw [State.takePassed]
    have perm := arrange_perm (Config.freeOrder s.choices) (earliestSlots s.passedOrders)
    cases h : arrange (Config.freeOrder s.choices) (earliestSlots s.passedOrders) with
    | nil =>
      rw [h] at perm
      exact ⟨.done fun n o ho => State.earliestSlots_eq_nil perm.nil_eq.symm ho, legal⟩
    | cons n rest =>
      have mem : n ∈ earliestSlots s.passedOrders := perm.mem_iff.mp (by simp [h])
      dsimp only
      have one (u : State) (same : u = s ∨ u = { s with choices := s.choices + 1 }) :
          s.OrderTimesTaken (State.takePassed fuel (u.takeOrderTime n)) ∧
            (State.takePassed fuel (u.takeOrderTime n)).que.OrdersLegal := by
        have got : (∃ o, OrderTimeTaken s (u.takeOrderTime n) n o) ∧ (u.takeOrderTime n).que.OrdersLegal ∧
            (u.takeOrderTime n).timesLeft < s.timesLeft ∧ (u.takeOrderTime n).clock.valid = true := by
          obtain rfl | rfl := same
          · obtain ⟨⟨o, taken⟩, law, x, hx, less⟩ := State.takeOrderTime_taken legal valid mem
            exact ⟨⟨o, taken⟩, law, State.timesLeft_lt hx less, by rw [taken.clock.1]; exact valid⟩
          · obtain ⟨⟨o, taken⟩, law, x, hx, less⟩ :=
              State.takeOrderTime_taken (s := { s with choices := s.choices + 1 }) legal valid mem
            exact ⟨⟨o, taken.of_choices⟩, law, State.timesLeft_lt hx less, by rw [taken.clock.1]; exact valid⟩
        obtain ⟨⟨o, taken⟩, law, less, ok⟩ := got
        obtain ⟨chain, final⟩ := State.takePassed_taken fuel _ (by omega) law ok
        exact ⟨.next taken chain, final⟩
      split
      · exact one s (.inl rfl)
      · exact one _ (.inr rfl)

/-- Every start and end at or before the present second is taken, one after another (R103 i, R105). -/
theorem State.takePassedOrders_taken (legal : s.que.OrdersLegal) (valid : s.clock.valid = true) :
    s.OrderTimesTaken s.takePassedOrders ∧ s.takePassedOrders.que.OrdersLegal :=
  State.takePassed_taken 16 s s.timesLeft_le legal valid

end Sys2Proof.Machine
end

