-- ==== Sys2Proof/Laws/Replies.lean ====
section
/-! SUPPORT. What the writers of reply fields write: each carries the item of its value, and fields one after another carry
their items one after another. -/

namespace Sys2Proof.Machine

theorem carries_cons {i : Item} {items : List Item} {x y : List Byte} (hi : carries [i] x = true)
    (hy : carries items y = true) : carries (i :: items) (x ++ y) = true := by
  simp only [carries, Bool.and_eq_true, decide_eq_true_eq, List.isEmpty_iff, List.drop_eq_nil_iff] at hi ⊢
  have hx : x.length = i.width := by omega
  obtain ⟨⟨_, hv⟩, _⟩ := hi
  rw [List.take_of_length_le (by omega)] at hv
  refine ⟨⟨by simp; omega, ?_⟩, ?_⟩
  · rw [← hx, List.take_left] at *; exact hv
  · rw [← hx, List.drop_left]; exact hy

/-- Fields one after another carry their items one after another. -/
theorem carries_append : ∀ {a b : List Item} {x y : List Byte}, carries a x = true → carries b y = true →
    carries (a ++ b) (x ++ y) = true
  | [], _, x, _, hx, hy => by
    have : x = [] := by simpa [carries] using hx
    simpa [this] using hy
  | i :: a, b, x, y, hx, hy => by
    have hx' := hx
    simp only [carries, Bool.and_eq_true, decide_eq_true_eq] at hx
    have hi : carries [i] (x.take i.width) = true := by
      simp only [carries, Bool.and_eq_true, decide_eq_true_eq, List.isEmpty_iff, List.drop_eq_nil_iff]
      refine ⟨⟨by simp; omega, ?_⟩, by simp⟩
      rw [List.take_take, Nat.min_self]; exact hx.1.2
    have := carries_cons hi (carries_append hx.2 hy)
    rwa [← List.append_assoc, List.take_append_drop] at this

theorem carries_flatMap {α : Type} {items : α → List Item} {bytes : α → List Byte} (xs : List α)
    (h : ∀ a ∈ xs, carries (items a) (bytes a) = true) : carries (xs.flatMap items) (xs.flatMap bytes) = true := by
  induction xs with
  | nil => rfl
  | cons a l ih =>
    simp only [List.flatMap_cons]
    exact carries_append (h a (by simp)) (ih fun b hb => h b (by simp [hb]))

theorem length_leBytes (n v : Nat) : (leBytes n v).length = n := by
  induction n generalizing v with
  | zero => rfl
  | succ n ih => simp [leBytes, ih]

theorem bytesValue_leBytes (n v : Nat) : bytesValue (leBytes n v) = v % 256 ^ n := by
  induction n generalizing v with
  | zero => simp [leBytes, bytesValue, Nat.mod_one]
  | succ n ih =>
    have e : (2 : Nat) ^ 8 = 256 := rfl
    simp only [leBytes, bytesValue, ih, BitVec.toNat_ofNat, e]
    rw [Nat.pow_succ', Nat.mod_mul]

/-- One field, of its width, that carries its value. -/
theorem carries_one {i : Item} {x : List Byte} (hl : x.length = i.width)
    (hv : ∀ v ∈ i.value, i.holds v = true → (bytesValue x : Int) = v % 256 ^ i.width) : carries [i] x = true := by
  simp only [carries, Bool.and_eq_true, decide_eq_true_eq, List.isEmpty_iff, List.drop_eq_nil_iff]
  refine ⟨⟨by omega, ?_⟩, by omega⟩
  rw [List.take_of_length_le (by omega)]
  cases hi : i.value with
  | none => rfl
  | some v =>
    simp only [Option.all_some, Bool.or_eq_true, Bool.not_eq_true', decide_eq_true_eq]
    cases hh : i.holds v with
    | false => exact .inl rfl
    | true => exact .inr (hv v hi hh)

theorem length_wideField (n : Nat) (v : Int) : (wideField n v).length = n := by simp [wideField]

theorem carries_leBytes (n v : Nat) : carries [unsigned n v] (leBytes n v) = true :=
  carries_one (length_leBytes n v) fun w hw _ => by
    cases hw; rw [bytesValue_leBytes]; exact_mod_cast rfl

theorem carries_field (n v : Nat) : carries [unsigned n v] (field n v) = true := by
  unfold field
  split
  · exact carries_leBytes n v
  · refine carries_one (length_wideField n v) fun w hw hh => ?_
    cases hw
    have : v < 256 ^ n := by exact_mod_cast (of_decide_eq_true hh).2
    contradiction

theorem carries_timeField (n : Nat) (v : Int) : carries [unsigned n v] (timeField n v) = true := by
  unfold timeField
  split
  case isTrue h =>
    have := carries_field n v.toNat
    rwa [Int.toNat_of_nonneg h] at this
  case isFalse h =>
    refine carries_one (length_wideField n v) fun w hw hh => ?_
    cases hw
    exact absurd (of_decide_eq_true hh).1 h

theorem carries_signedField (n : Nat) (v : Int) : carries [signed n v] (signedField n v) = true := by
  unfold signedField
  split
  case isTrue h =>
    refine carries_one (length_leBytes n _) fun w hw _ => ?_
    cases hw
    have hp : (0 : Int) < ((256 ^ n : Nat) : Int) := by positivity
    have h0 := Int.emod_nonneg v (ne_of_gt hp)
    have h1 := Int.emod_lt_of_pos v hp
    rw [bytesValue_leBytes, Nat.mod_eq_of_lt (by omega), Int.toNat_of_nonneg h0]
    simp [signed]
  case isFalse h =>
    refine carries_one (length_wideField n v) fun w hw hh => ?_
    cases hw
    exact absurd (by exact_mod_cast of_decide_eq_true hh) h

/-- A byte whose number is the item's value. -/
theorem carries_byte {b : Byte} {v : Nat} (h : b.toNat = v) : carries [unsigned 1 v] [b] = true :=
  carries_one rfl fun w hw _ => by
    cases hw
    have := b.isLt
    simp only [bytesValue, unsigned, h]
    omega

theorem carries_flagByte (b : Bool) : carries [yesNo b] (flagByte b) = true := by cases b <;> decide

theorem carries_numberByte {n : Nat} (i : Fin n) : carries [numberItem i] (numberByte i) = true := by
  have := carries_field 1 (i.val + 1)
  simpa [numberItem, numberByte] using this

/-- A named value of a byte code: `code` gives each name its place in the list. -/
theorem carries_named {α : Type} [DecidableEq α] {names : List α} {code : α → Byte} {x : α}
    (h : (code x).toNat = names.idxOf x) : carries [named names x] [code x] = true := carries_byte h

theorem carries_codeOrNone {α : Type} [DecidableEq α] {names : List α} {code : α → Byte} (x : Option α)
    (h : ∀ a, (code a).toNat = names.idxOf a) : carries [namedOrNone names x] (codeOrNone x code) = true := by
  cases x with
  | none => exact carries_byte (v := 255) rfl
  | some a => exact carries_named (h a)

theorem carries_zeros (n : Nat) : carries (List.replicate n (unsigned 1 0)) (List.replicate n 0) = true := by
  induction n with
  | zero => rfl
  | succ n ih => exact carries_cons (i := unsigned 1 0) (x := [0]) (by decide) ih

theorem carries_optionalItem {α : Type} {width : Nat} {x : Option α} {items : α → List Item} {bytes : α → List Byte}
    (h : ∀ a ∈ x, carries (items a) (bytes a) = true) :
    carries (optionalItems width x items) (optionalItem width x bytes) = true := by
  cases x with
  | none => exact carries_cons (i := yesNo false) (x := [0]) (by decide) (carries_zeros width)
  | some a => exact carries_cons (i := yesNo true) (x := [1]) (by decide) (h a rfl)

theorem carries_countedList {α : Type} {xs : List α} {items : α → List Item} {bytes : α → List Byte}
    (h : ∀ a ∈ xs, carries (items a) (bytes a) = true) :
    carries (countedItems xs items) (countedList xs bytes) = true :=
  carries_cons (carries_field 1 xs.length) (carries_flatMap xs h)

theorem bitsNat_lt (l : List Bool) : bitsNat l < 2 ^ l.length := by
  induction l with
  | nil => simp [bitsNat]
  | cons b l ih => simp only [bitsNat, List.length_cons, Nat.pow_succ]; split <;> omega

theorem bitsNat_eq (l : List Bool) :
    (bitsNat l : Int) = l.foldr (fun b n => (if b then 1 else 0) + 2 * n) 0 := by
  induction l with
  | nil => rfl
  | cons b l ih => simp only [bitsNat, List.foldr_cons, ← ih]; split <;> push_cast <;> rfl

theorem carries_flagsByte (l : List Bool) (h : l.length ≤ 8) : carries [flagBits l] [flagsByte l] = true := by
  have hl := Nat.lt_of_lt_of_le (bitsNat_lt l) (Nat.pow_le_pow_right (by omega) h)
  unfold flagBits
  rw [← bitsNat_eq]
  exact carries_byte (by rw [flagsByte, BitVec.toNat_ofNat, Nat.mod_eq_of_lt hl])

theorem wordBytes_eq (w : Word) : wordBytes w = leBytes 4 w.toNat := by
  have e (i : Nat) : w.extractLsb' i 8 = BitVec.ofNat 8 (w.toNat / 2 ^ i) := by
    apply BitVec.eq_of_toNat_eq; simp [BitVec.extractLsb'_toNat, Nat.shiftRight_eq_div_pow]
  simp only [wordBytes, leBytes, e, Nat.div_div_eq_div_mul]
  norm_num

theorem carries_wordBytes (w : Word) : carries [unsigned 4 w.toNat] (wordBytes w) = true := by
  rw [wordBytes_eq]; exact carries_leBytes 4 w.toNat

/-- Bytes of a two's complement number. -/
theorem carries_toInt (w : BitVec 64) : carries [signed 8 w.toInt] (leBytes 8 w.toNat) = true :=
  carries_one (length_leBytes 8 _) fun v hv _ => by
    cases hv
    have := w.isLt
    simp only [bytesValue_leBytes, signed]
    have e : (w.toNat : Int).bmod (2 ^ 64) % ((2 ^ 64 : Nat) : Int) = (w.toNat : Int) % ((2 ^ 64 : Nat) : Int) :=
      Int.bmod_emod
    rw [BitVec.toInt_eq_toNat_bmod]
    exact_mod_cast e.symm

/-! ### Records and the replies -/

theorem carries_valueBytes (q : Quantity) : carries q.items q.bytes = true := by
  cases q with
  | measure v => exact carries_signedField 4 v
  | status i => exact carries_flagsByte _ (by simp)
  | meter reading rate => exact carries_cons (carries_field 4 reading) (carries_field 4 rate)

theorem carries_bandBytes (bands : Vector BandFigures 4) :
    carries (bandItems bands) (bands.toList.flatMap fun x =>
      field 4 x.recovered ++ field 4 x.auxiliary ++ field 4 x.estimated ++ signedField 4 x.reconciled ++
        signedField 8 x.charge) = true :=
  carries_flatMap _ fun x _ => by
    simpa only [List.append_assoc] using
      carries_cons (carries_field 4 _) (carries_cons (carries_field 4 _) (carries_cons (carries_field 4 _)
        (carries_cons (carries_signedField 4 _) (carries_signedField 8 x.charge))))

/-- The record of 12.5. -/
theorem carries_settlementBytes (r : SettlementRecord) : carries r.items r.bytes = true := by
  simp only [SettlementRecord.bytes, List.append_assoc]
  exact carries_cons (carries_wordBytes _) <| carries_cons (carries_timeField 4 _) <| carries_cons (carries_field 4 _) <|
    carries_cons (carries_field 4 _) <| carries_cons (carries_signedField 4 _) <| carries_cons (carries_signedField 4 _) <|
    carries_cons (carries_signedField 4 _) <| carries_cons (carries_field 4 _) <| carries_cons (carries_field 4 _) <|
    carries_flagsByte _ (by simp)

theorem carries_setFlags (f : SetFlags) : carries [f.item] [f.byte] = true := carries_flagsByte _ (by simp)

/-- The record of 12.6. -/
theorem carries_billBytes (b : Bill) : carries b.items b.bytes = true := by
  have head := carries_cons (carries_wordBytes b.sequence) <| carries_cons (carries_numberByte b.substation) <|
    carries_cons (carries_field 4 b.account) <| carries_cons (carries_field 4 b.first) <|
    carries_cons (carries_field 4 b.last) <| carries_cons (carries_timeField 4 b.start) (carries_timeField 4 b.finish)
  have tail := carries_cons (carries_field 4 b.rejected) <| carries_cons (carries_field 8 b.standing) <|
    carries_cons (carries_signedField 8 b.total) (carries_setFlags b.flags)
  simpa only [Bill.items, Bill.bytes, List.append_assoc] using
    carries_append (carries_append head (carries_bandBytes b.bands)) tail

/-- An accumulator set in a reply (R179 iv). -/
theorem carries_setBytes (x : AccumulatorSet) : carries x.items x.bytes = true := by
  have head := carries_cons (carries_field 4 x.first) <| carries_cons (carries_field 4 (x.last.getD 0)) <|
    carries_cons (carries_timeField 4 (x.start.getD 0)) (carries_timeField 4 (x.finish.getD 0))
  have tail := carries_cons (carries_field 4 x.rejected) <| carries_cons (carries_field 8 x.standing) <|
    carries_cons (carries_setFlags x.flags) (carries_field 4 x.covered)
  simpa only [AccumulatorSet.items, AccumulatorSet.bytes, List.append_assoc] using
    carries_append (carries_append head (carries_bandBytes x.bands)) tail

theorem carries_entryBytes (e : ConditionEntry) : carries e.items e.bytes = true := by
  have number : classOrder.idxOf e.key.cls + 1 = e.key.cls.number := by cases e.key.cls <;> rfl
  have state : carries [named [EntryState.active, .latched] e.state] [e.state.code] = true :=
    carries_named (by cases e.state <;> rfl)
  have latch : carries [named [LatchMode.latching, .selfClearing] e.latch] [e.latch.code] = true :=
    carries_named (by cases e.latch <;> rfl)
  have cls := carries_field 1 e.key.cls.number
  rw [← number] at cls
  have := carries_cons cls <| carries_cons (carries_field 1 e.key.source) <| carries_cons state <| carries_cons latch <|
    carries_cons (carries_flagByte e.notified) <| carries_cons (carries_field 4 e.firstRaised) <|
    carries_cons (carries_field 4 e.lastChange) (carries_field 1 e.raises)
  simpa only [ConditionEntry.items, ConditionEntry.bytes, ← number, List.append_assoc, List.cons_append, List.nil_append,
    Nat.cast_add, Nat.cast_one] using this

end Sys2Proof.Machine
end

