-- ==== Sys2Proof/Laws/Requests.lean ====
section
/-! SUPPORT. The payloads that spell a request: what the readers of a payload's fields and the encoder make of the same
bytes (12.2, R166, R179). -/

namespace Sys2Proof

open Sys2Proof.Machine (requestKinds LengthAllowed CodeNamesNothing Status)

/-! ### The bytes of a payload's fields -/

theorem bytesAt_append (p : List Byte) (i n m : Nat) : bytesAt p i (n + m) = bytesAt p i n ++ bytesAt p (i + n) m := by
  simp [bytesAt, List.range_add, Function.comp_def, Nat.add_assoc]

theorem eq_bytesAt {p : List Byte} {n : Nat} (h : p.length = n) : p = bytesAt p 0 n := by
  subst h
  apply List.ext_getElem <;> simp [bytesAt, byteAt]
  intro i h
  rw [List.getElem?_eq_getElem h]; rfl

@[simp] theorem halfBytes_halfAt (p : List Byte) (i : Nat) :
    halfBytes (halfAt p i) = [byteAt p i, byteAt p (i + 1)] := by
  simp only [halfBytes, halfAt, List.cons.injEq, and_true]
  constructor <;> ext j hj <;> simp <;> grind

@[simp] theorem wordBytes_wordAt (p : List Byte) (i : Nat) :
    wordBytes (wordAt p i) = [byteAt p i, byteAt p (i + 1), byteAt p (i + 2), byteAt p (i + 3)] := by
  simp only [wordBytes, wordAt, halfAt, List.cons.injEq, and_true]
  refine ⟨?_, ?_, ?_, ?_⟩ <;> ext j hj <;> simp <;> grind

theorem wordsAt_bytes (p : List Byte) (i n : Nat) : (wordsAt p i n).flatMap wordBytes = bytesAt p i (4 * n) := by
  induction n with
  | zero => rfl
  | succ n ih =>
    rw [Nat.mul_succ, bytesAt_append, ← ih]
    simp [wordsAt, bytesAt, List.range_succ]

/-- The dates of Set Holidays after the mask byte. -/
theorem rawDatesAt_bytes (l : List Byte) (n : Nat) (h : l.length = 4 * n) :
    (rawDatesAt l).length = n ∧ (rawDatesAt l).flatMap RawDate.bytes = l := by
  induction n generalizing l with
  | zero => obtain rfl := List.length_eq_zero_iff.mp h; exact ⟨rfl, rfl⟩
  | succ n ih =>
    match l, h with
    | y0 :: y1 :: m :: d :: rest, h =>
      obtain ⟨count, same⟩ := ih rest (by simp at h; omega)
      have year : halfBytes (y1 ++ y0) = [y0, y1] := halfBytes_halfAt [y0, y1] 0
      exact ⟨by simp [rawDatesAt, count], by simp [rawDatesAt, same, RawDate.bytes, year]⟩

theorem rawGroupAt_bytes (p : List Byte) (i : Nat) : (rawGroupAt p i).bytes = bytesAt p i 84 := by
  have last : wordBytes (wordAt p (i + 80)) = bytesAt p (i + 80) 4 := by simp [bytesAt, List.range_succ]
  simp only [RawGroup.bytes, rawGroupAt, wordsAt_bytes, last]
  rw [show 84 = 24 + 24 + 4 * 4 + 4 * 4 + 4 from rfl]
  simp only [bytesAt_append, Nat.add_assoc, List.append_assoc]

theorem rawTariffAt_bytes {p : List Byte} (h : p.length = 338) : (rawTariffAt p).bytes = p := by
  have last : [byteAt p 336, byteAt p 337] = bytesAt p 336 2 := rfl
  have whole : p = bytesAt p 0 84 ++ bytesAt p 84 84 ++ bytesAt p 168 84 ++ bytesAt p 252 84 ++ bytesAt p 336 2 := by
    conv_lhs => rw [eq_bytesAt h, show 338 = 84 + 84 + 84 + 84 + 2 from rfl, bytesAt_append, bytesAt_append,
      bytesAt_append, bytesAt_append]
  conv_rhs => rw [whole]
  simp only [RawTariff.bytes, rawTariffAt, rawGroupAt_bytes, last]

/-! ### The requests, kind by kind -/

/-- A well-formed request of the host has the kind and the payload. -/
def Spelled (kind : Byte) (p : List Byte) : Prop :=
  ∃ i : Instr, i.wellFormed = true ∧ encodeRequest i = some (kind, p)

/-- A request whose fields fill a payload of fixed length. -/
theorem spelled_of {kind : Byte} {p q : List Byte} {n : Nat} (i : Instr) (h : p.length = n) (wf : i.wellFormed = true)
    (code : encodeRequest i = some (kind, q)) (whole : q = bytesAt p 0 n) : Spelled kind p :=
  ⟨i, wf, by rw [code, whole, ← eq_bytesAt h]⟩

variable {p : List Byte}

theorem spelled_identify (h : p.length = 0) : Spelled 0x01 p :=
  spelled_of .identify h rfl rfl rfl

theorem spelled_setTime (h : p.length = 4) : Spelled 0x02 p :=
  spelled_of (.setTime (wordAt p 0)) h rfl rfl (by simp [bytesAt, List.range_succ])

theorem spelled_readTime (h : p.length = 0) : Spelled 0x03 p :=
  spelled_of .readTime h rfl rfl rfl

theorem spelled_setLocalOffset (h : p.length = 2) : Spelled 0x04 p :=
  spelled_of (.setLocalOffset (halfAt p 0)) h rfl rfl (by simp [bytesAt, List.range_succ])

theorem spelled_factoryClear (h : p.length = 0) : Spelled 0x06 p :=
  spelled_of .factoryClear h rfl rfl rfl

theorem spelled_configureChannel (h : p.length = 4) : Spelled 0x10 p :=
  spelled_of (.configureChannel (byteAt p 0) (byteAt p 1) (halfAt p 2)) h rfl rfl (by simp [bytesAt, List.range_succ])

theorem spelled_readChannel (h : p.length = 1) : Spelled 0x11 p :=
  spelled_of (.readChannel (byteAt p 0)) h rfl rfl rfl

theorem spelled_configurePoint (h : p.length = 20) : Spelled 0x12 p :=
  spelled_of (.configurePoint (byteAt p 0) (rawPointAt p)) h rfl rfl
    (by simp [RawPoint.bytes, rawPointAt, bytesAt, List.range_succ])

theorem spelled_readPoint (h : p.length = 1) : Spelled 0x13 p :=
  spelled_of (.readPoint (byteAt p 0)) h rfl rfl rfl

theorem spelled_configureSource (h : p.length = 2) : Spelled 0x20 p :=
  spelled_of (.configureSource (byteAt p 0) (byteAt p 1)) h rfl rfl rfl

theorem spelled_setSourceService (h : p.length = 2) : Spelled 0x21 p :=
  spelled_of (.setSourceService (byteAt p 0) (byteAt p 1)) h rfl rfl rfl

theorem spelled_configureHolder (h : p.length = 39) : Spelled 0x22 p :=
  spelled_of (.configureHolder (rawHolderAt p)) h rfl rfl
    (by simp [RawHolder.bytes, rawHolderAt, bytesAt, List.range_succ])

theorem spelled_selectHolderLimits (h : p.length = 1) : Spelled 0x23 p :=
  spelled_of (.selectHolderLimits (byteAt p 0)) h rfl rfl rfl

theorem spelled_setPlantParameters (h : p.length = 24) : Spelled 0x30 p :=
  spelled_of (.setPlantParameters (rawPlantAt p)) h rfl rfl
    (by simp [RawPlant.bytes, rawPlantAt, bytesAt, List.range_succ])

theorem spelled_configureBoiler (h : p.length = 27) : Spelled 0x32 p :=
  spelled_of (.configureBoiler (rawBoilerAt p)) h rfl rfl
    (by simp [RawBoiler.bytes, rawBoilerAt, bytesAt, List.range_succ])

theorem spelled_readDispatch (h : p.length = 0) : Spelled 0x33 p :=
  spelled_of .readDispatch h rfl rfl rfl

theorem spelled_readBoiler (h : p.length = 1) : Spelled 0x41 p :=
  spelled_of (.readBoiler (byteAt p 0)) h rfl rfl rfl

theorem spelled_setExportContract (h : p.length = 6) : Spelled 0x50 p :=
  spelled_of (.setExportContract (wordAt p 0) (byteAt p 4) (byteAt p 5)) h rfl rfl (by simp [bytesAt, List.range_succ])

theorem spelled_submitNomination (h : p.length = 8) : Spelled 0x51 p :=
  spelled_of (.submitNomination (wordAt p 0) (wordAt p 4)) h rfl rfl (by simp [bytesAt, List.range_succ])

theorem spelled_withdrawNomination (h : p.length = 4) : Spelled 0x52 p :=
  spelled_of (.withdrawNomination (wordAt p 0)) h rfl rfl (by simp [bytesAt, List.range_succ])

theorem spelled_readNominations (h : p.length = 0) : Spelled 0x53 p :=
  spelled_of .readNominations h rfl rfl rfl

theorem spelled_submitCurtailment (h : p.length = 17) : Spelled 0x54 p :=
  spelled_of (.submitCurtailment (wordAt p 0) (byteAt p 4) (wordAt p 5) (wordAt p 9) (wordAt p 13)) h rfl rfl
    (by simp [bytesAt, List.range_succ])

theorem spelled_cancelCurtailment (h : p.length = 4) : Spelled 0x55 p :=
  spelled_of (.cancelCurtailment (wordAt p 0)) h rfl rfl (by simp [bytesAt, List.range_succ])

theorem spelled_readCurtailments (h : p.length = 0) : Spelled 0x56 p :=
  spelled_of .readCurtailments h rfl rfl rfl

theorem spelled_fetchSettlementRecord (h : p.length = 0) : Spelled 0x57 p :=
  spelled_of .fetchSettlementRecord h rfl rfl rfl

theorem spelled_releaseSettlementRecord (h : p.length = 4) : Spelled 0x58 p :=
  spelled_of (.releaseSettlementRecord (wordAt p 0)) h rfl rfl (by simp [bytesAt, List.range_succ])

theorem spelled_configureSubstation (h : p.length = 14) : Spelled 0x60 p :=
  spelled_of (.configureSubstation (byteAt p 0) (wordAt p 1) (byteAt p 5) (wordAt p 6) (wordAt p 10)) h rfl rfl
    (by simp [bytesAt, List.range_succ])

theorem spelled_readSubstation (h : p.length = 1) : Spelled 0x63 p :=
  spelled_of (.readSubstation (byteAt p 0)) h rfl rfl rfl

theorem spelled_cancelStagedTariff (h : p.length = 0) : Spelled 0x71 p :=
  spelled_of .cancelStagedTariff h rfl rfl rfl

theorem spelled_closePeriodNow (h : p.length = 0) : Spelled 0x72 p :=
  spelled_of .closePeriodNow h rfl rfl rfl

theorem spelled_fetchBill (h : p.length = 0) : Spelled 0x73 p :=
  spelled_of .fetchBill h rfl rfl rfl

theorem spelled_releaseBill (h : p.length = 4) : Spelled 0x74 p :=
  spelled_of (.releaseBill (wordAt p 0)) h rfl rfl (by simp [bytesAt, List.range_succ])

theorem spelled_fetchCondition (h : p.length = 0) : Spelled 0x78 p :=
  spelled_of .fetchCondition h rfl rfl rfl

theorem spelled_clearCondition (h : p.length = 2) : Spelled 0x79 p :=
  spelled_of (.clearCondition (byteAt p 0) (byteAt p 1)) h rfl rfl rfl

theorem spelled_readConditions (h : p.length = 1) : Spelled 0x7A p :=
  spelled_of (.readConditions (byteAt p 0)) h rfl rfl rfl

theorem spelled_setFaultMask (h : p.length = 4) : Spelled 0x7B p :=
  spelled_of (.setFaultMask (wordAt p 0)) h rfl rfl (by simp [bytesAt, List.range_succ])

theorem spelled_setLatchMode (h : p.length = 2) : Spelled 0x7C p :=
  spelled_of (.setLatchMode (byteAt p 0) (byteAt p 1)) h rfl rfl rfl

theorem rawGroupAt_wellFormed (p : List Byte) (i : Nat) : (rawGroupAt p i).wellFormed = true := by
  simp [rawGroupAt, RawGroup.wellFormed, bytesAt, wordsAt]

theorem spelled_stageTariff (h : p.length = 338) : Spelled 0x70 p :=
  ⟨.stageTariff (rawTariffAt p), by simp [Instr.wellFormed, RawTariff.wellFormed, rawTariffAt, rawGroupAt_wellFormed],
    congrArg (fun x => some (_, x)) (rawTariffAt_bytes h)⟩

theorem spelled_setMeritList (h : p.length ≤ 512) : Spelled 0x31 p :=
  ⟨.setMeritList p, decide_eq_true h, rfl⟩

theorem spelled_setHolidays {n : Nat} (h : p.length = 1 + 4 * n) (short : p.length ≤ 512) :
    Spelled 0x05 p := by
  match p, h with
  | [], h => simp at h; omega
  | m :: l, h =>
    obtain ⟨a, b⟩ := rawDatesAt_bytes l n (by simp at h; omega)
    exact ⟨.setHolidays m (rawDatesAt l), by simp [Instr.wellFormed, maxPayload, a]; omega,
      congrArg (fun x => some (_, m :: x)) b⟩

theorem spelled_command {number code : Byte} :
    (code.toNat ≤ 4 → Spelled 0x40 [number, code]) ∧
    (code.toNat ≤ 1 → Spelled 0x61 [number, code] ∧ Spelled 0x62 [number, code]) := by
  have is (n : Nat) (h : code.toNat = n) : code = BitVec.ofNat 8 n := by rw [← h]; simp
  refine ⟨fun h => ?_, fun h => ?_⟩
  · obtain h | h | h | h | h : code.toNat = 0 ∨ code.toNat = 1 ∨ code.toNat = 2 ∨ code.toNat = 3 ∨
        code.toNat = 4 := by omega
    · exact ⟨.startGas number, rfl, by rw [is _ h]; rfl⟩
    · exact ⟨.startAux number, rfl, by rw [is _ h]; rfl⟩
    · exact ⟨.stop number, rfl, by rw [is _ h]; rfl⟩
    · exact ⟨.changeover number, rfl, by rw [is _ h]; rfl⟩
    · exact ⟨.resetLockout number, rfl, by rw [is _ h]; rfl⟩
  · obtain h | h : code.toNat = 0 ∨ code.toNat = 1 := by omega
    · exact ⟨⟨.connect number, rfl, by rw [is _ h]; rfl⟩, ⟨.accept number, rfl, by rw [is _ h]; rfl⟩⟩
    · exact ⟨⟨.disconnect number, rfl, by rw [is _ h]; rfl⟩, ⟨.reject number, rfl, by rw [is _ h]; rfl⟩⟩

/-- Every payload of an allowed length, whose command, service or action byte names one, spells a request. -/
theorem spelled_of_lengthAllowed {kind : Byte} (h : LengthAllowed kind p) (named : ¬ CodeNamesNothing kind p)
    (short : p.length ≤ 512) : Spelled kind p := by
  obtain ⟨fixed, entry, n, listed, length⟩ := h
  have code (k : Nat) (h : kind.toNat = k) : kind = BitVec.ofNat 8 k := by rw [← h]; simp
  simp only [requestKinds, List.mem_cons, List.not_mem_nil, or_false, Prod.mk.injEq] at listed
  obtain ⟨k, rfl, rfl⟩ | ⟨k, rfl, rfl⟩ | ⟨k, rfl, rfl⟩ | ⟨k, rfl, rfl⟩ | ⟨k, rfl, rfl⟩ | ⟨k, rfl, rfl⟩ |
    ⟨k, rfl, rfl⟩ | ⟨k, rfl, rfl⟩ | ⟨k, rfl, rfl⟩ | ⟨k, rfl, rfl⟩ | ⟨k, rfl, rfl⟩ | ⟨k, rfl, rfl⟩ |
    ⟨k, rfl, rfl⟩ | ⟨k, rfl, rfl⟩ | ⟨k, rfl, rfl⟩ | ⟨k, rfl, rfl⟩ | ⟨k, rfl, rfl⟩ | ⟨k, rfl, rfl⟩ |
    ⟨k, rfl, rfl⟩ | ⟨k, rfl, rfl⟩ | ⟨k, rfl, rfl⟩ | ⟨k, rfl, rfl⟩ | ⟨k, rfl, rfl⟩ | ⟨k, rfl, rfl⟩ |
    ⟨k, rfl, rfl⟩ | ⟨k, rfl, rfl⟩ | ⟨k, rfl, rfl⟩ | ⟨k, rfl, rfl⟩ | ⟨k, rfl, rfl⟩ | ⟨k, rfl, rfl⟩ |
    ⟨k, rfl, rfl⟩ | ⟨k, rfl, rfl⟩ | ⟨k, rfl, rfl⟩ | ⟨k, rfl, rfl⟩ | ⟨k, rfl, rfl⟩ | ⟨k, rfl, rfl⟩ |
    ⟨k, rfl, rfl⟩ | ⟨k, rfl, rfl⟩ | ⟨k, rfl, rfl⟩ | ⟨k, rfl, rfl⟩ | ⟨k, rfl, rfl⟩ | ⟨k, rfl, rfl⟩ |
    ⟨k, rfl, rfl⟩ := listed
  all_goals obtain rfl := code _ k
  · exact spelled_identify (by omega)
  · exact spelled_setTime (by omega)
  · exact spelled_readTime (by omega)
  · exact spelled_setLocalOffset (by omega)
  · exact spelled_setHolidays length short
  · exact spelled_factoryClear (by omega)
  · exact spelled_configureChannel (by omega)
  · exact spelled_readChannel (by omega)
  · exact spelled_configurePoint (by omega)
  · exact spelled_readPoint (by omega)
  · exact spelled_configureSource (by omega)
  · exact spelled_setSourceService (by omega)
  · exact spelled_configureHolder (by omega)
  · exact spelled_selectHolderLimits (by omega)
  · exact spelled_setPlantParameters (by omega)
  · exact spelled_setMeritList short
  · exact spelled_configureBoiler (by omega)
  · exact spelled_readDispatch (by omega)
  · obtain ⟨a, c, rfl⟩ := List.length_eq_two.mp (by omega : p.length = 2)
    exact spelled_command.1 (by by_contra h; exact named ⟨a, c, rfl, .inl ⟨rfl, by omega⟩⟩)
  · exact spelled_readBoiler (by omega)
  · exact spelled_setExportContract (by omega)
  · exact spelled_submitNomination (by omega)
  · exact spelled_withdrawNomination (by omega)
  · exact spelled_readNominations (by omega)
  · exact spelled_submitCurtailment (by omega)
  · exact spelled_cancelCurtailment (by omega)
  · exact spelled_readCurtailments (by omega)
  · exact spelled_fetchSettlementRecord (by omega)
  · exact spelled_releaseSettlementRecord (by omega)
  · exact spelled_configureSubstation (by omega)
  · obtain ⟨a, c, rfl⟩ := List.length_eq_two.mp (by omega : p.length = 2)
    exact (spelled_command.2 (by by_contra h; exact named ⟨a, c, rfl, .inr ⟨.inl rfl, by omega⟩⟩)).1
  · obtain ⟨a, c, rfl⟩ := List.length_eq_two.mp (by omega : p.length = 2)
    exact (spelled_command.2 (by by_contra h; exact named ⟨a, c, rfl, .inr ⟨.inr rfl, by omega⟩⟩)).2
  · exact spelled_readSubstation (by omega)
  · exact spelled_stageTariff (by omega)
  · exact spelled_cancelStagedTariff (by omega)
  · exact spelled_closePeriodNow (by omega)
  · exact spelled_fetchBill (by omega)
  · exact spelled_releaseBill (by omega)
  · exact spelled_fetchCondition (by omega)
  · exact spelled_clearCondition (by omega)
  · exact spelled_readConditions (by omega)
  · exact spelled_setFaultMask (by omega)
  · exact spelled_setLatchMode (by omega)

/-! ### The payloads that are refused -/

set_option maxRecDepth 2000 in
/-- The HLU's lengths are those of the table of 12.2. -/
theorem payloadLength_eq : ∀ k < 256, payloadLength k = (requestKinds.find? fun x => x.1 == k).map fun x =>
    if x.2.2 = 0 then .exactly x.2.1 else .listOf x.2.1 x.2.2 := by decide

theorem requestKinds_once : ∀ x ∈ requestKinds, ∀ y ∈ requestKinds, x.1 = y.1 → x = y := by decide

theorem decodeRequest_unknown {kind : Byte} (h : ¬ ∃ x ∈ requestKinds, x.1 = kind.toNat) :
    decodeRequest kind p = .error .unknownKind := by
  have : requestKinds.find? (fun x => x.1 == kind.toNat) = none := by
    rw [List.find?_eq_none]; intro x hx e; exact h ⟨x, hx, by simpa using e⟩
  simp [decodeRequest, payloadLength_eq _ kind.isLt, this]

theorem decodeRequest_badLength {kind : Byte} (listed : ∃ x ∈ requestKinds, x.1 = kind.toNat)
    (h : ¬ LengthAllowed kind p) : decodeRequest kind p = .error .badLength := by
  obtain ⟨x, hx, e⟩ := listed
  have found : requestKinds.find? (fun x => x.1 == kind.toNat) = some x := by
    cases hf : requestKinds.find? (fun x => x.1 == kind.toNat) with
    | none => exact absurd (by simpa using e) (List.find?_eq_none.mp hf x hx)
    | some y =>
      have := List.find?_some hf
      exact congrArg some (requestKinds_once y (List.mem_of_find?_eq_some hf) x hx (by simp_all))
  have not : (if x.2.2 = 0 then LengthRule.exactly x.2.1 else .listOf x.2.1 x.2.2).allows p.length = false := by
    rw [Bool.eq_false_iff]
    intro allowed
    refine h ⟨x.2.1, x.2.2, (p.length - x.2.1) / x.2.2, e ▸ hx, ?_⟩
    split at allowed <;> simp [LengthRule.allows] at allowed
    · simp [*]
    · rw [Nat.mul_div_cancel' (Nat.dvd_of_mod_eq_zero allowed.2)]; omega
  simp [decodeRequest, payloadLength_eq _ kind.isLt, found, not]

theorem decodeRequest_badField {kind : Byte} (h : CodeNamesNothing kind p) :
    decodeRequest kind p = .error .badField := by
  obtain ⟨number, code, rfl, ⟨rfl, c⟩ | ⟨rfl | rfl, c⟩⟩ := h
  all_goals
    simp only [decodeRequest, payloadLength, LengthRule.allows, requestOf, byteAt, List.length_cons, List.length_nil]
    simp
    split <;> first | omega | rfl

end Sys2Proof
end

