-- ==== Sys2Proof/Laws/Setpoint.lean ====
section
/-! SUPPORT. What a queued frame, a boiler's leaving its state and a trip leave on the setpoint line (R57, R58). -/

namespace Sys2Proof.Machine

variable {s : State}

/-- A queued frame, with the latest cycle number, as the line takes it. -/
theorem State.queueFrame_line (legal : s.SetpointsLegal) (b : Boiler) (fuel : Option Fuel) (demand : Nat) :
    ((s.queueFrame b fuel demand).dsp.sending, (s.queueFrame b fuel demand).dsp.waiting) =
      lineTakes (s.dsp.sending, s.dsp.waiting)
        { boiler := b, fuel := fuel, demand := demand, cycle := s.dsp.cycle } := by
  have join : ∀ (f : SetpointFrame) (l : List SetpointFrame), (l.map (·.boiler)).Nodup → joinWaiting f l =
      if f.boiler ∈ l.map (·.boiler) then l.map fun g => if g.boiler = f.boiler then f else g else l ++ [f] := by
    intro f l
    induction l with
    | nil => simp [joinWaiting]
    | cons g l ih =>
      intro h
      rw [List.map_cons, List.nodup_cons] at h
      by_cases hg : g.boiler = f.boiler
      · have : l.map (fun x => if x.boiler = f.boiler then f else x) = l := by
          refine (List.map_congr_left fun x hx => ?_).trans (List.map_id l)
          rw [if_neg]; · rfl
          intro hx'
          exact h.1 (List.mem_map.mpr ⟨x, hx, by rw [hx', hg]⟩)
        simp [joinWaiting, hg, this]
      · have hg' : ¬ f.boiler = g.boiler := fun h => hg h.symm
        rw [joinWaiting, if_neg hg, ih h.2]
        by_cases hm : f.boiler ∈ l.map (·.boiler) <;> simp [hm, hg, hg']
  unfold State.queueFrame
  rcases hs : s.dsp.sending with _ | f
  · simp [lineTakes]
  · simp [lineTakes, join _ _ legal.onePerBoiler, hs]

@[simp] theorem State.closePermits_dsp (b : Boiler) : (s.closePermits b).dsp = s.dsp := by
  unfold State.closePermits; dsimp only; split <;> rfl

/-- The notice of a boiler that left state `q`: NONE and 0 where it might burn there, no frame where not. -/
theorem State.leaveNotice_line (legal : s.SetpointsLegal) (b : Boiler) (q : Sequencer) :
    ((s.leaveNotice b q).dsp.sending, (s.leaveNotice b q).dsp.waiting) =
      ((if q.mayBurn then [b] else []).map fun b =>
        { boiler := b, fuel := none, demand := 0, cycle := s.dsp.cycle : SetpointFrame }).foldl lineTakes
        (s.dsp.sending, s.dsp.waiting) := by
  have allocated (x : Allocation) : (s.setAllocation b x).SetpointsLegal := ⟨legal.1, legal.2, legal.3⟩
  unfold State.leaveNotice Sequencer.mayBurn
  cases hq : q.state <;> simp
  · exact State.queueFrame_line legal b none 0
  · exact State.queueFrame_line (allocated _) b none 0
  · exact State.queueFrame_line (allocated _) b none 0
  · split
    · simp [*]; exact State.queueFrame_line legal b none 0
    · simp [*]

/-- A trip sends NONE and 0 where the boiler might burn. -/
theorem State.trip_line (b : Boiler) (cause : TripCause) : NoneFrameTaken s (s.trip b cause) b := by
  intro legal
  refine ⟨_, List.Perm.refl _, ?_⟩
  obtain ⟨q, h⟩ : ∃ q, (s.trip b cause).dsp = (((s.closePermits b).setBoiler b q).leaveNotice b s.boilers[b]).dsp := by
    unfold State.trip; dsimp only; split <;> exact ⟨_, rfl⟩
  have left : ((s.closePermits b).setBoiler b q).SetpointsLegal := by
    constructor
    · simpa [State.setBoiler] using legal.1
    · simpa [State.setBoiler] using legal.2
    · simpa [State.setBoiler] using legal.3
  rw [h, State.leaveNotice_line left]
  simp [State.setBoiler]

end Sys2Proof.Machine
end

