-- ==== Sys2Proof/Tests/Slice0.lean ====
section
/-! SUPPORT. Small checks of the model: the checks of WellFormed, the request words of 12.2, the manual's worked figures
(each names its section), and for every statement with hypotheses a witness that meets them. -/

namespace Sys2Proof.Tests

open Sys2Proof.Machine

set_option Elab.async false

/-! ### Helpers -/

/-- The state after some commands. -/
def after (cmds : List Instr) (s : State) : State :=
  match execAll cmds s with
  | .next t => t
  | .fault _ | .refused _ => s

/-- The status code the last request was answered with. -/
def State.status (s : State) : Option Status := s.hlu.answer.map (·.status)

/-- The figures of a boiler. -/
def boiler : BoilerConfig :=
  { minimum := 1000, maximum := 8000, ramp := 500, yield := 850, auxFitted := true, purge := 30, lightOff := 5,
    interval := 2, reference := .fromCommand, window := 3600, tripLimit := 2, restart := .autoRestart }

/-- A point on one channel. -/
def point (r : Role) (c : ChannelNo) : PointConfig :=
  { role := r, primary := c, alternateA := none, alternateB := none, multiplier := 1, divisor := 1, low := 0,
    high := 0, hold := 0 }

/-- The indications of a boiler with its flame in, both valves open. -/
def flameIn : Indications :=
  { flame := true, gasClosed := false, auxClosed := false, tripDemand := false, localControl := false, available := false }

/-- A channel that serves a sample taken at second 0. -/
def liveChannel (x : Quantity) : Channel :=
  { state := .live, goodRun := 0, last := some { body := x, quality := .good }, lastTime := some 0, silenceFrom := some 0 }

/-- A point that serves it. -/
def servingPoint (x : Quantity) : Point :=
  { Point.vacant with state := .serving, rank := some .primary, value := some x, valueTime := some 0 }

/-- Point slot 1 serves channel 1 for a role. -/
def served (s : State) (r : Role) (k : ChannelKind) (x : Quantity) : State :=
  { s with
    cfg := { s.cfg with
      points := s.cfg.points.set 0 (some (point r 0))
      channels := s.cfg.channels.set 0 { kind := k, silence := 10 } }
    channels := s.channels.set 0 (liveChannel x)
    points := s.points.set 0 (servingPoint x) }

/-- Boiler 1 configured, its status point serving, 100 s after power-on. -/
def plant : State :=
  let s := served State.reset (.boilerStatus 0) .status (.status flameIn)
  { s with osc := 100, cfg := { s.cfg with boilers := s.cfg.boilers.set 0 (some boiler) } }

/-- Boiler 1 of the plant in another sequencer state. -/
def plantWith (f : Sequencer → Sequencer) : State := plant.setBoiler 0 (f plant.boilers[0])

/-- Boiler 1 burning gas, with its permit open and an allocation of 2,000 kW. -/
def burning : State :=
  (plantWith fun q => { q with state := .firingGas, run := some .gas, gasPermit := true }).setAllocation 0
    { gas := 2000, aux := 0, idle := 0 }

/-- The clock VALID at a reading, an interval of 15 minutes open from 7200 to 8100. -/
def openAt (reading : Nat) : State :=
  { State.reset with
    clock := { reading := reading, valid := true, offset := 0 }
    que := { State.reset.que with
      current := some 300
      interval := some
        { start := 7200, reference := some 50, estimated := false, computed := 7200, curtailed := 0, minLimit := 0,
          flags := .none } }
    esu := { State.reset.esu with intervalEnd := 8100 } }

/-- An order of 500 kW from 7300 to 7900. -/
def order (kind : OrderKind) (state : OrderState) (reference : Nat) : CurtailmentOrder :=
  { reference := reference, kind := kind, limit := 500, start := 7300, finish := some 7900, state := state }

def withOrders (s : State) (a b : Option CurtailmentOrder) : State :=
  { s with que := { s.que with orders := (s.que.orders.set 0 a).set 1 b } }

/-- An entry of the Condition Table. -/
def entry (c : ConditionClass) (n : Nat) (state : EntryState) (notified : Bool) : ConditionEntry :=
  { key := { cls := c, source := n }, state := state, latch := .latching, notified := notified, firstRaised := 0,
    lastChange := 0, raises := 1 }

/-- Substation 1 configured in a metering state. -/
def substation (m : SubstationAccount) : State :=
  { State.reset with
    cfg := { State.reset.cfg with
      substations := State.reset.cfg.substations.set 0
        (some { account := 7, group := 0, staged := 0, maxRate := 3600, estimateRate := 90 }) }
    acc := { State.reset.acc with meters := State.reset.acc.meters.set 0 m } }

/-- Metering of a substation in service with reference 99,999,950 at second 0. -/
def metered : SubstationAccount :=
  { SubstationAccount.default with state := .inService, reference := some { reading := 99999950, time := 0 } }

/-- A settlement record numbered `n`. -/
def record (n : Word) : SettlementRecord :=
  { settlementRecord 0 900 none 0 none 0 0 .none with sequence := n }

/-- A bill numbered `n`. -/
def bill (n : Word) : Bill :=
  { sequence := n, substation := 0, account := 1, first := 1, last := 1, start := 0, finish := 0,
    bands := Vector.replicate 4 .zero, rejected := 0, standing := 0, total := 0, flags := .none }

/-- The holder figures of section 2.7 with threshold sets of our own. -/
def holder : HolderFigures :=
  { capacity := 120000, bandLow := 60000, bandHigh := 80000, recovery := 600, normal := { low := 10000, high := 99000 }
    reduced := { low := 10000, high := 90000 }, hysteresis := 1000, filter := 5 }

/-! ### WellFormed refuses, check by check -/

theorem test_wellFormed_body : (Instr.fieldSampleFrame 0 1 1 (List.replicate 10 0) 0).wellFormed = false := by decide

theorem test_wellFormed_payload : (Instr.hostFrameValid 1 0 (List.replicate 513 0)).wellFormed = false := by
  decide +kernel

theorem test_wellFormed_holidays :
    (Instr.setHolidays 0 (List.replicate 128 { year := 0, month := 0, day := 0 })).wellFormed = false := by
  decide +kernel

theorem test_wellFormed_merit : (Instr.setMeritList (List.replicate 513 1)).wellFormed = false := by decide +kernel

/-- A tariff group of the right lengths. -/
def rawGroup : RawGroup :=
  { workday := List.replicate 24 1, rest := List.replicate 24 1, recovered := List.replicate 4 10,
    auxiliary := List.replicate 4 20, standing := 1000 }

def rawTariff (g : RawGroup) : RawTariff :=
  { group1 := g, group2 := g, group3 := g, group4 := g, closeDay := 1, closeHour := 0 }

theorem test_wellFormed_tariff :
    (Instr.stageTariff (rawTariff { rawGroup with workday := [] })).wellFormed = false ∧
    (Instr.stageTariff (rawTariff { rawGroup with rest := [] })).wellFormed = false ∧
    (Instr.stageTariff (rawTariff { rawGroup with recovered := [] })).wellFormed = false ∧
    (Instr.stageTariff (rawTariff { rawGroup with auxiliary := [] })).wellFormed = false ∧
    (Instr.stageTariff (rawTariff rawGroup)).wellFormed = true := by decide

/-! ### Payloads written out from 12.2 -/

theorem test_decode_link : decodeRequest 0x01 [] = .ok .identify ∧
    decodeRequest 0x02 [0x10, 0x32, 0x54, 0x76] = .ok (.setTime 0x76543210) ∧
    decodeRequest 0x04 [0x3C, 0x00] = .ok (.setLocalOffset 60) ∧
    decodeRequest 0x7F [] = .error .unknownKind ∧ decodeRequest 0x01 [0] = .error .badLength := by decide

theorem test_decode_fields : decodeRequest 0x10 [3, 1, 0x58, 0x02] = .ok (.configureChannel 3 1 600) ∧
    decodeRequest 0x12 [7, 4, 1, 9, 0xFF, 0xFF, 5, 0, 2, 0, 0, 0, 0, 0, 0xC0, 0xD4, 1, 0, 0x3C, 0] =
      .ok (.configurePoint 7
        { role := 4, instanceNo := 1, primary := 9, alternateA := 0xFF, alternateB := 0xFF, multiplier := 5,
          divisor := 2, low := 0, high := 120000, hold := 60 }) := by decide

theorem test_decode_plant : decodeRequest 0x40 [2, 3] = .ok (.changeover 2) ∧ decodeRequest 0x40 [2, 5] = .error .badField ∧
    decodeRequest 0x31 [2, 1, 3] = .ok (.setMeritList [2, 1, 3]) ∧ decodeRequest 0x21 [1, 0] = .ok (.setSourceService 1 0) := by
  decide

theorem test_decode_export :
    decodeRequest 0x51 [0x20, 0x1C, 0, 0, 0x2C, 1, 0, 0] = .ok (.submitNomination 7200 300) ∧
    decodeRequest 0x54 [9, 0, 0, 0, 1, 0xF4, 1, 0, 0, 0x84, 0x1C, 0, 0, 0xFF, 0xFF, 0xFF, 0xFF] =
      .ok (.submitCurtailment 9 1 500 7300 0xFFFFFFFF) := by decide

theorem test_decode_heat : decodeRequest 0x60 [1, 7, 0, 0, 0, 2, 0x10, 0x0E, 0, 0, 90, 0, 0, 0] =
      .ok (.configureSubstation 1 7 2 3600 90) ∧ decodeRequest 0x61 [1, 1] = .ok (.disconnect 1) ∧
    decodeRequest 0x62 [1, 0] = .ok (.accept 1) ∧ decodeRequest 0x63 [48] = .ok (.readSubstation 48) := by decide

theorem test_decode_billing : decodeRequest 0x74 [1, 0, 0, 0] = .ok (.releaseBill 1) ∧
    decodeRequest 0x05 [0x60, 0xEA, 0x07, 12, 25] = .ok (.setHolidays 0x60 [{ year := 2026, month := 12, day := 25 }]) ∧
    decodeRequest 0x79 [10, 1] = .ok (.clearCondition 10 1) ∧ decodeRequest 0x7C [6, 1] = .ok (.setLatchMode 6 1) := by decide

/-- A valid Identify frame: marker, LENGTH 0, KIND 01h, TAG 22h and the CRC-16 of those four bytes. -/
theorem test_link_frame : (linkFrame 0x01 0x22 []).take 6 = [0xF5, 0x0A, 0, 0, 0x01, 0x22] ∧
    (linkFrame 0x01 0x22 []).length = 8 := by decide +kernel

/-! ### The manual's worked figures -/

/-- The check value of each CRC over the digits 1 to 9, as the parameters of R1 and R163 give it. -/
theorem test_crc_check_values :
    crc8 [0x31, 0x32, 0x33, 0x34, 0x35, 0x36, 0x37, 0x38, 0x39] = 0xF4 ∧
    crc16 [0x31, 0x32, 0x33, 0x34, 0x35, 0x36, 0x37, 0x38, 0x39] = 0x29B1 := by decide +kernel

/-- The scaling figures of R13: multiplier 5, divisor 2, limits 0 to 120,000. -/
theorem test_scaling :
    let c := { point .holderLevel 0 with multiplier := 5, divisor := 2, low := 0, high := 120000 }
    c.valueOf (.measure 36800) = (.measure 92000, false) ∧ c.valueOf (.measure (-40)) = (.measure 0, true) ∧
    ({ c with low := -100 }).valueOf (.measure (-7)) = (.measure (-17), false) := by decide

/-- Section 2.7 (3) and (4) i: the holder correction above and below the band. -/
theorem test_holder_correction :
    let at_ (level : Int) (cv : Nat) : State :=
      let s := served State.reset .holderLevel .measure (.measure level)
      { s with cfg := { s.cfg with holder := some holder, cvDefault := cv } }
    (at_ 92000 4200).holderCorrection = 84000 ∧ (at_ 92000 4200).holderPosition = .above ∧
    (at_ 58333 4210).holderCorrection = -11696 ∧ (at_ 58333 4210).holderPosition = .below := by decide +kernel

/-- Section 2.7 (1): the energy of source 2 is rounded down. -/
theorem test_source_energy : limited 20000 flowLimit * limited 17500 cvLimit / 3600 = 97222 := by decide

/-- Worked by hand from R49's table. -/
theorem test_heat_split :
    heatSplit { PlantParameters.default with ownUse := 12000, conversion := 300 } true 150000 142200 105750 =
      { delivered := 150000, recovered := 142200, auxiliary := 7800, turbine := 97950, power := 29385, exported := 17385,
        fraction := 948 } := by decide

/-- R144: an exact half is taken away from zero in either direction. -/
theorem test_round_half_away : roundHalfAway (-339500) 1000 = -340 ∧ roundHalfAway 339500 1000 = 340 ∧
    roundHalfAway 339499 1000 = 339 := by decide

/-- R124: 14 kWh at a fraction of 998 is 13 recovered and 1 auxiliary. -/
theorem test_booking_split :
    ({ State.reset with dsp := { State.reset.dsp with fraction := 998 } } : State).recoveredPart 14 = 13 := by decide +kernel

/-- R122: reference 99,999,950 and reading 40 give an increment of 90. -/
theorem test_meter_wraps : readingGap 40 99999950 = 90 := by decide

/-- Section 6 (4) of chapter 0 and R139: 2000-01-01 is a Saturday, 2000-02-29 a date, the last reading 2135-12-31. -/
theorem test_calendar : weekday 0 = 5 ∧ localDate (86400 * 59) = { year := 2000, month := 2, day := 29 } ∧
    localDate 4291747199 = { year := 2135, month := 12, day := 31 } ∧
    localDate (-1) = { year := 1999, month := 12, day := 31 } := by decide +kernel

/-- R39: with the list [2, 1, 3, 4] the merit order is 2, 1, 3, 4, 5, 6, 7, 8. -/
theorem test_merit_order :
    ({ State.reset with cfg := { State.reset.cfg with merit := [1, 0, 2, 3] } } : State).meritOrder =
      [1, 0, 2, 3, 4, 5, 6, 7] := by decide +kernel

/-- 12.6: a bill takes 142 bytes; 12.5: a settlement record 37; R180: a setpoint frame 12; Identify's contents 9. -/
theorem test_record_lengths : (bill 1).bytes.length = 142 ∧ (record 1).bytes.length = 37 ∧
    ({ boiler := 0, fuel := some .gas, demand := 2000, cycle := 1 } : SetpointFrame).bytes.length = 12 ∧
    (identifyOwner State.reset).1.contents = [0x46, 0x40, 0x06, 0x03, 0x00, 0x02, 0, 0, 0] := by decide +kernel

/-- 12.4: a dispatch result takes 276 bytes. -/
theorem test_result_length : (plant.cycleResult plant.gasFigures).bytes.length = 276 := by decide +kernel

/-! ### Witnesses: states and operands that meet the hypotheses of the statements, clause by clause -/

/-- A state with an empty Condition Table and nothing told meets the law of the table. -/
theorem empty_legal {s : State} (table : s.conditions = Vector.replicate 128 none) (told : s.acts = []) :
    s.ConditionsLegal :=
  ⟨by simp [table], by simp [table], by simp [table], by simp [told]⟩

theorem test_witness_step : ({ State.reset with pending := [.identify] } : State).pending = .identify :: [] ∧
    State.reset.pending = [] ∧ State.reset.working = true := by decide +kernel

/-- A state with an entry of each kind; its raises and places meet the law. -/
def tabled : State :=
  ((State.reset.setPlace 0 (some (entry .timeStep 1 .latched false))).setPlace 1
    (some (entry .pointFailed 128 .active true))).setPlace 127 (some (entry .conditionTableFull 1 .active false))

theorem test_witness_conditions_law :
    tabled.ConditionsLegal ∧ ∃ t, step { tabled with pending := [.fetchCondition] } = .next t :=
  ⟨⟨by decide +kernel, by decide +kernel, by decide +kernel, by decide⟩, _, rfl⟩

/-- An emergency in force over a suspended ordinary order, at second 7400. -/
def overridden : State :=
  withOrders (openAt 7400) (some (order .ordinary .suspended 1)) (some { order .emergency .active 2 with finish := none })

theorem overridden_orders : overridden.que.OrdersLegal :=
  ⟨by decide, by decide, by decide, by decide, by decide⟩

theorem default_orders : QueuesRegion.default.OrdersLegal := ⟨by decide, by decide, by decide, by decide, by decide⟩

theorem test_witness_orders_law : overridden.OrdersLegal ∧
    (State.reset.running = true → State.reset.esu.effLimit = State.reset.limitNow) ∧
    ∃ t, step { overridden with pending := [.cancelCurtailment 2] } = .next t :=
  ⟨⟨overridden_orders, default_orders, default_orders⟩, by decide +kernel, _, rfl⟩

/-- Two nominations, two records and two bills. -/
def queued : State :=
  { openAt 7400 with que := { (openAt 7400).que with
      nominations := [{ start := 8100, energy := 0 }, { start := 9000, energy := 1000000 }]
      settlements := [record 0xFFFFFFFF, record 0]
      nextSettlement := 1
      bills := [bill 1, bill 2]
      nextBill := 3 } }

theorem queued_legal : queued.que.QueuesLegal :=
  ⟨by decide, by decide, by decide, by decide, by decide, by decide, by decide⟩

theorem default_queues : QueuesRegion.default.QueuesLegal :=
  ⟨by decide, by decide, by decide, by decide, by decide, by decide, by decide⟩

theorem test_witness_queues_law : queued.QueuesLegal ∧
    ∃ t, step { queued with pending := [.releaseBill 1] } = .next t :=
  ⟨⟨queued_legal, default_queues, default_queues⟩, _, rfl⟩

theorem test_witness_allocations_law : burning.AllocationsLegal ∧
    ∃ t, step { burning with pending := [.dispatchExpiry] } = .next t :=
  ⟨⟨by decide +kernel, by decide +kernel, by decide +kernel, by decide +kernel, by decide +kernel⟩, _, rfl⟩

/-- Boiler 1 at the end of its purge: closed at second 68, purged until second 100. -/
def purged : State :=
  plantWith fun q => { q with state := .purge, run := some .gas, lastClose := 68, purgeDue := some 100 }

theorem purged_legal : purged.PermitsLegal :=
  ⟨by decide +kernel, by decide +kernel, by decide +kernel, by decide +kernel, by decide +kernel, by decide +kernel⟩

/-- The permit opens at the purge timer's expiry. -/
theorem test_witness_permits_law : purged.PermitsLegal ∧ ∃ t, step { purged with pending := [.purgeExpiry 0] } = .next t ∧
    (purged.boilers[0]).gasPermit = false ∧ (t.boilers[0]).gasPermit = true :=
  ⟨purged_legal, _, rfl, by decide +kernel, by decide +kernel⟩

/-- The plant after a dispatch cycle, with a frame on the line and one waiting. -/
def dispatched : State :=
  let s := after [.dispatchExpiry] plant
  { s with dsp := { s.dsp with
      sending := some { boiler := 0, fuel := none, demand := 0, cycle := 0 }
      waiting := [{ boiler := 1, fuel := none, demand := 0, cycle := 0 }] } }

theorem test_witness_unit_laws : (dispatched.FlareLegal ∧ dispatched.dsp.result.isSome) ∧ dispatched.SetpointsLegal ∧
    (after [.hostFrameValid 0x01 0 []] plant).LinkLegal ∧
    ∃ t, step { dispatched with pending := [.setpointFrameSent] } = .next t :=
  ⟨⟨⟨by decide +kernel, by decide +kernel, by decide +kernel⟩, by decide +kernel⟩,
    ⟨by decide +kernel, by decide +kernel, by decide +kernel⟩, ⟨by decide +kernel, by decide +kernel⟩, _, rfl⟩

/-- Substation 1 in service after an increment of 14 kWh. -/
def billed : State := (substation metered).heatArrival 0 99999964 100 60

theorem test_witness_accounts_law : billed.AccountsLegal ∧ (billed.acc.ledgers[0]).booked = 14 ∧
    ∃ t, step { billed with pending := [.closePeriodNow] } = .next t :=
  ⟨by decide +kernel, by decide +kernel, _, rfl⟩

theorem test_witness_readings_law : billed.ReadingsLegal ∧
    (billed.acc.meters[0]).reference = some { reading := 99999964, time := 60 } ∧
    ∃ t, step { billed with pending := [.accept 1] } = .next t :=
  ⟨⟨by decide +kernel, by decide +kernel, by decide +kernel, by decide +kernel, by decide +kernel, by decide +kernel⟩,
    by decide +kernel, _, rfl⟩

theorem test_witness_points_law : plant.PointsLegal ∧ (plant.points[0]).state = .serving ∧
    ∃ t, step { plant with pending := [.silenceExpiry 0] } = .next t :=
  ⟨⟨by decide +kernel, by decide +kernel, by decide +kernel⟩, by decide +kernel, _, rfl⟩

theorem test_witness_store_law : State.reset.StoreLegal ∧
    ∃ t, step { State.reset with pending := [.setFaultMask 0] } = .next t :=
  ⟨⟨by decide +kernel, by decide +kernel, by decide +kernel⟩, _, rfl⟩

theorem test_witness_request_decodes :
    (Instr.setHolidays 0x60 [{ year := 2026, month := 12, day := 25 }]).wellFormed = true ∧
    encodeRequest (.setHolidays 0x60 [{ year := 2026, month := 12, day := 25 }]) =
      some (0x05, [0x60, 0xEA, 0x07, 12, 25]) := by decide

theorem test_witness_valid_frame : State.reset.working = true ∧ (Instr.setMeritList [2, 1]).wellFormed = true ∧
    encodeRequest (.setMeritList [2, 1]) = some (0x31, [2, 1]) ∧ State.reset.hlu.slot = none ∧
    State.reset.hlu.transmitter = none ∧ State.status (after [.hostFrameValid 0x31 9 [2, 1]] State.reset) = some .ok := by
  decide +kernel

/-- The bytes of a frame and of a sample frame, one by one, with the longest LENGTH's low byte at its bound. -/
theorem test_witness_frame_bytes : State.reset.working = true ∧ State.reset.hlu.assembler = .hunt false ∧
    (List.replicate 512 (0 : Byte)).length ≤ 512 ∧ State.reset.lines[0] = .hunting ∧
    readFrameKind 3 = some .meter ∧ (List.replicate 9 (0 : Byte)).length = ChannelKind.meter.bodyLength := by decide +kernel

/-- A reply under way, with an empty refusal store and with a BUSY answer waiting; a frame of an unknown kind. -/
theorem test_witness_frame_not_acted_on :
    let busy := after [.hostFrameValid 0x01 1 []] State.reset
    let full := after [.hostFrameValid 0x01 2 []] busy
    busy.working = true ∧ busy.hlu.slot ≠ none ∧ busy.hlu.refusal = none ∧ full.working = true ∧
    full.hlu.refusal ≠ none ∧ decodeRequest 0x7F [] = .error .unknownKind ∧ full.hlu.restartDue = false ∧
    full.hlu.transmitter.isSome ∧ full.hlu.refusal.isSome := by decide +kernel

/-- The assembler in each state the statement names; a LENGTH of 513. -/
theorem test_witness_link_bytes :
    let header := after [.hostLinkByteReceived 0xF5 true, .hostLinkByteReceived 0x0A true] State.reset
    let low := after [.hostLinkByteReceived 0x01 true] header
    State.reset.hlu.assembler.begun = false ∧ header.hlu.assembler.begun = true ∧ header.working = true ∧
    (after [.hostLinkByteReceived 0xF5 true] State.reset).hlu.assembler = .hunt true ∧
    low.hlu.assembler = .header [0x01] ∧ 512 < (0x01 : Byte).toNat + 256 * (0x02 : Byte).toNat ∧
    (after [.hostLinkByteReceived 0x02 true] low).hlu.linkError = true := by decide +kernel

/-- The last byte of a CHECK that matches, and one that does not; 0Ah without the marker's first byte before it. -/
theorem test_witness_link_check :
    let low : Byte := (linkFrame 0x01 0x22 []).getD 6 0
    let high : Byte := (linkFrame 0x01 0x22 []).getD 7 0
    let s := State.reset.setAssembler (.check 0x01 0x22 [] (some low))
    s.working = true ∧ s.hlu.assembler = .check 0x01 0x22 [] (some low) ∧
    low.toNat + 256 * high.toNat = (crc16 (frameCore 0x01 0x22 [])).toNat ∧
    low.toNat + 256 * (high + 1).toNat ≠ (crc16 (frameCore 0x01 0x22 [])).toNat ∧
    State.status (after [.hostLinkByteReceived high true] s) = some .ok ∧
    (after [.hostLinkByteReceived (high + 1) true] s).hlu.linkError = true ∧
    State.reset.hlu.assembler = .hunt false ∧
    (after [.hostLinkByteReceived 0x0A true] State.reset).hlu.assembler = .hunt false := by decide +kernel

/-- The last reading and the one before it, running with an interval open, and dark. -/
theorem test_witness_clock :
    let last := { openAt 4291747199 with que := { queued.que with nextSettlement := 1 } }
    (openAt 4291747198).clock.reading < 4291747199 ∧ 4291747199 ≤ last.clock.reading ∧ last.running = true ∧
    ({ last with powered := false } : State).running = false ∧ last.que.interval.isSome ∧ last.esu.wait = none ∧
    last.HasRoom [{ cls := .timeStep, source := 1 }, { cls := .settlementOverrun, source := 1 }] ∧
    ((after [.clockWrap] last).que.settlements.getLast?.map (·.sequence)) = some 1 ∧ last.acts = [] ∧
    last.ConditionsLegal := by
  refine ⟨?_, ?_, ?_, ?_, ?_, ?_, ?_, ?_, rfl, empty_legal rfl rfl⟩ <;> decide +kernel

theorem test_witness_power : burning.powered = true ∧ burning.running = true ∧
    (after [.powerFailure (some .config)] burning).gasPermitLine 0 = none ∧
    (after [.resetAsserted] burning).gasPermitLine 0 = some false := by decide +kernel

/-- A dark module, one held in reset, and every way a region can be lost. -/
theorem test_witness_restart :
    let dark := after [.powerFailure none] State.reset
    let held := after [.resetAsserted] State.reset
    let bad (r : Region) : List (Region × CopyName) := [(r, .first), (r, .second)]
    dark.powered = false ∧ dark.resetHeld = false ∧ held.powered = true ∧ held.resetHeld = true ∧
    ((bad .config).foldl Store.damage dark.store).config.found? = none ∧
    ((bad .accounts).foldl Store.damage dark.store).accounts.found? = none ∧
    ((bad .queues).foldl Store.damage dark.store).queues.found? = none ∧
    ([(Region.queues, CopyName.first)].foldl Store.damage dark.store).queues.found?.isSome := by decide +kernel

/-- A stored interval from 7200 to 8100 at a power-on before its end, at its end, and with the clock lost; none stored;
an ACCOUNTS copy from whose close mark a month's close is due, and none is. -/
theorem test_witness_restart_schedule :
    let stored (reading : Nat) : State := after [.powerFailure none] ((openAt reading).withQueues (openAt reading).que)
    let marked (mark : Int) : State := after [.powerFailure none]
      ((openAt 0).withAccounts { State.reset.acc with closeMark := some mark })
    let accounts (mark : Int) : Option Int := ((marked mark).store.accounts.found?).bind (·.closeMark)
    (stored 7400).powered = false ∧ (stored 7400).resetHeld = false ∧ (stored 7400).clock.valid = true ∧
    ((stored 7400).store.queues.contents .default).interval.map (·.start) = some 7200 ∧
    (State.reset.store.queues.contents .default).interval = none ∧ 0 < ConfigRegion.default.contract.length ∧
    FirstBoundaryAfter ConfigRegion.default.intervalSeconds 0 7200 8100 ∧
    ((stored 7400).clock.reading : Int) < 8100 ∧ (8100 : Int) ≤ (stored 8100).clock.reading ∧
    (after [.powerOn { batteryLost := true, unsound := [] }] (stored 7400)).clock.valid = false ∧
    accounts 0 = some 0 ∧ ConfigRegion.default.pendingTariff = none ∧
    dueCloses ConfigRegion.default.tariff 0 (86400 * 31) = [86400 * 31] ∧ dueCloses ConfigRegion.default.tariff 0 0 = [] := by
  decide +kernel

/-- A lost QUEUES region is reported as RETAINED_STORE_LOST 3, LATCHED (R176). -/
theorem test_store_lost_is_reported :
    let t := after [.powerFailure none, .powerOn { batteryLost := false, unsound := [(.queues, .first), (.queues, .second)] }]
      State.reset
    t.entries.map (fun e => (e.key.cls, e.key.source, e.state)) = [(.retainedStoreLost, 3, .latched)] ∧
    t.store.queues.state = .restored := by decide +kernel

/-- Readings at and past the last; the first Set Time; steps of 2 and 3 s each way. -/
theorem test_witness_set_time :
    (4291747199 : Word).toNat ≤ 4291747199 ∧ 4291747199 < (4291747200 : Word).toNat ∧
    State.reset.working = true ∧ State.reset.clock.valid = false ∧ 0 < State.reset.cfg.contract.length ∧
    (openAt 7400).working = true ∧ (openAt 7400).clock.valid = true ∧ (openAt 7400).que.interval.isSome ∧
    (openAt 7400).esu.wait = none ∧ (7402 : Word).toNat ≤ (openAt 7400).clock.reading + 2 ∧
    (openAt 7400).clock.reading ≤ (7398 : Word).toNat + 2 ∧ (openAt 7400).clock.reading + 2 < (7403 : Word).toNat ∧
    (7397 : Word).toNat + 2 < (openAt 7400).clock.reading := by decide +kernel

/-- Passed starts and ends: of two ordinary orders the earlier one is in force, beside one in force both wait, an emergency,
an order that starts and ends; a boundary reached by 1 s; a month's close passed; room for what a large step reports. -/
theorem test_witness_set_time_passes :
    let s := openAt 7299
    let now (start : Nat) (kind : OrderKind) : CurtailmentOrder :=
      { order kind .pending 1 with start := start, finish := none }
    let orders (v : Word) (s : State) : List (Option OrderState) := (setTimeOwner v s).2.que.orders.toList.map (·.map (·.state))
    let month : State := { openAt (86400 * 31 - 1) with acc := { State.reset.acc with closeMark := some 0 } }
    (orders 7300 (withOrders s (some (now 7300 .ordinary)) (some { now 7299 .ordinary with reference := 2 }))).take 2 =
      [some .waiting, some .active] ∧
    (orders 7300 (withOrders s (some (now 7300 .ordinary)) (some (order .ordinary .active 2)))).take 2 =
      [some .waiting, some .active] ∧
    (orders 7300 (withOrders s (some (now 7300 .emergency)) (some (order .ordinary .active 2)))).take 2 =
      [some .active, some .suspended] ∧
    (orders 7900 (withOrders s (some (order .ordinary .pending 1)) none)).take 2 = [none, none] ∧
    (orders 7299 (withOrders s (some (now 7300 .ordinary)) none)).take 1 = [some .pending] ∧
    (setTimeOwner 8100 (openAt 8099)).2.que.interval.map (·.start) = some 8100 ∧
    (dueCloses month.cfg.tariff 0 (86400 * 31)).length = 1 ∧ month.cfg.pendingTariff = none ∧ month.working = true ∧
    (setTimeOwner (86400 * 31) month).2.acc.period = 2 ∧
    s.HasRoom [{ cls := .timeStep, source := 1 }, { cls := .settlementOverrun, source := 1 },
      { cls := .nominationMissing, source := 1 }, { cls := .billQueueFull, source := 1 }] ∧ s.ConditionsLegal := by
  refine ⟨?_, ?_, ?_, ?_, ?_, ?_, ?_, ?_, ?_, ?_, ?_, empty_legal rfl rfl⟩ <;> decide +kernel

theorem test_set_time_opens :
    let t := (setTimeOwner 7400 State.reset).2
    t.que.interval.map (·.start) = some 7200 ∧ t.esu.intervalEnd = 8100 := by decide +kernel

theorem test_witness_offset : (-721 : Half).toInt < -720 ∧ -720 ≤ (-720 : Half).toInt ∧ (840 : Half).toInt ≤ 840 ∧
    840 < (841 : Half).toInt ∧ (60 : Half).toInt ≠ (openAt 7400).clock.offset ∧ (openAt 7400).clock.valid = true ∧
    State.reset.clock.valid = false ∧ (openAt 7400).que.interval.isSome := by decide +kernel

theorem test_witness_factory_clear : burning.working = true ∧ (burning.boilers[0]).gasPermit = true ∧
    (∀ b : Boiler, (plant.boilers[b]).gasPermit = false ∧ (plant.boilers[b]).auxPermit = false) ∧
    (after [.factoryClear, .replySent] plant).cfg = .default := by decide +kernel

/-- Every read at the ends of its range, and nothing past them. -/
theorem test_witness_reads : queued.working = true ∧
    ([.identify, .readTime, .readDispatch, .readNominations, .readCurtailments, .readChannel 1, .readChannel 96,
      .readPoint 1, .readPoint 128, .readConditions 1, .readConditions 128, .readBoiler 1, .readBoiler 8, .readSubstation 1,
      .readSubstation 48, .fetchSettlementRecord, .fetchBill] : List Instr).all queued.canRead = true ∧
    ([.readChannel 0, .readChannel 97, .readPoint 129, .readBoiler 9, .readSubstation 49] : List Instr).any queued.canRead =
      false := by decide +kernel

/-! ### Witnesses: field lines, gas, dispatch -/

/-- A MEASURE sample body of raw value 100 at GOOD or SUSPECT quality. -/
def measureBody (quality : Byte) : List Byte := [100, 0, 0, 0, quality]

theorem test_witness_field_line :
    let marked := after [.fieldLineByteReceived 0 0xA6 true] State.reset
    State.reset.lines[(0 : FieldLineNo)] = .hunting ∧ marked.lines[(0 : FieldLineNo)] = .awaitChannel ∧
    marked.working = true ∧ readFrameKind 4 = none ∧ 96 < (97 : Byte).toNat ∧ (0 : Byte) ≠ crc8 (1 :: 1 :: measureBody 0) ∧
    readFrameKind 2 = some .status ∧ numbered 96 96 = some 95 ∧
    (State.reset.cfg.channels[(95 : ChannelNo)]).kind ≠ .status := by decide +kernel

/-- A channel before its run of three, at the third sample, and at a SUSPECT sample while LIVE. -/
theorem test_witness_samples :
    let third := State.reset.setChannel 95 { Channel.start with goodRun := 2 }
    (State.reset.cfg.channels[(95 : ChannelNo)]).kind = .measure ∧ (measureBody 0).length = ChannelKind.measure.bodyLength ∧
    (readBody .measure (measureBody 0)).quality = .good ∧ (readBody .measure (measureBody 1)).quality = .suspect ∧
    (State.reset.channels[(95 : ChannelNo)]).state ≠ .live ∧ (State.reset.channels[(95 : ChannelNo)]).goodRun < 2 ∧
    2 ≤ (third.channels[(95 : ChannelNo)]).goodRun ∧ third.namedBy 95 = [] ∧ third.working = true ∧
    ((after [sampleFrame 3 95 .measure (measureBody 0)] third).channels[(95 : ChannelNo)]).state = .live := by
  decide +kernel

/-- The holder level in slot 1, channel 1 its primary and channel 2 its alternate, in states of their own. -/
def levelled (p : PointState) (primary alternate : ChannelState) (goodRun hold : Nat) : State :=
  let s := served State.reset .holderLevel .measure (.measure 5)
  let channel (x : ChannelState) : Channel := { liveChannel (.measure 5) with state := x, goodRun := goodRun }
  { s with
    cfg := { s.cfg with points := s.cfg.points.set 0 (some { point .holderLevel 0 with alternateA := some 1, hold := hold }) }
    channels := (s.channels.set 0 (channel primary)).set 1 (channel alternate)
    points := s.points.set 0 { servingPoint (.measure 5) with state := p } }

/-- A point whose channel becomes LIVE, SUSPECT or LOST: served from it or from the alternate, held, failed, left alone; and
a GOOD sample at an alternate that does not serve. -/
theorem test_witness_reselection :
    let x : Sample := { body := .measure 0, quality := .good }
    let one (s : State) : Point := s.points[0]
    let suspect (s : State) : Point := (after [sampleFrame 0 0 .measure (measureBody 1)] s).points[0]
    let failed := levelled .failed .lost .lost 2 0
    let third := failed.goodArrival 0 x
    let idle := levelled .serving .live .live 0 0
    failed.working = true ∧ failed.namedBy 0 = [0] ∧ failed.namedBy 1 = [0] ∧ 2 ≤ (failed.channels[0]).goodRun ∧
    (one third).state = .serving ∧ third.acts.map (·.key.cls) = [.channelLost, .pointFailed] ∧
    (one ((levelled .serving .lost .live 2 0).goodArrival 0 x)).rank = some .primary ∧
    (one ((levelled .serving .live .lost 2 0).goodArrival 1 x)).rank = some .primary ∧
    (suspect (levelled .serving .live .lost 0 5)).holdDue = some 5 ∧
    (suspect (levelled .serving .live .lost 0 0)).state = .failed ∧
    (suspect (levelled .serving .live .live 0 0)).rank = some .alternateA ∧
    (suspect (levelled .failed .lost .lost 0 0)).state = .failed ∧
    (one ({ levelled .serving .live .live 0 0 with osc := 10 }.silenceExpiry 0)).rank = some .alternateA ∧
    (one ({ levelled .serving .live .lost 0 5 with osc := 10 }.silenceExpiry 0)).state = .holding ∧
    idle.selection (point .holderLevel 0) = some (.primary, 0) ∧
    one (after [sampleFrame 0 1 .measure (measureBody 0)] idle) = one idle := by decide +kernel

/-- A works flow point scaled by 5/2 and limited to 200 takes raw 100 as 200, CLAMPED. -/
theorem test_witness_serving :
    let s := served State.reset .worksFlow .measure (.measure 0)
    let c := { point .worksFlow 0 with multiplier := 5, divisor := 2, low := 0, high := 200 }
    let s : State := { s with cfg := { s.cfg with points := s.cfg.points.set 0 (some c) } }
    let t := after [sampleFrame 0 0 .measure (measureBody 0)] s
    s.working = true ∧ (s.cfg.channels[(0 : ChannelNo)]).kind = .measure ∧ (s.channels[(0 : ChannelNo)]).state = .live ∧
    s.namedBy 0 = [0] ∧ s.cfg.points[(0 : PointNo)] = some c ∧ s.selection c = some (.primary, 0) ∧
    (s.points[(0 : PointNo)]).state = .serving ∧ (s.points[(0 : PointNo)]).rank = some .primary ∧
    (t.points[(0 : PointNo)]).value = some (.measure 200) ∧ (t.points[(0 : PointNo)]).clamped = true := by decide +kernel

/-- The silence timer on its last second in LIVE and in ABSENT; a hold timer and a waiting timer on theirs. -/
theorem test_witness_timers :
    let live := { plant with osc := 10 }
    let absent := { State.reset.setChannel 5 { Channel.start with silenceFrom := some 0 } with osc := 10 }
    let holding := plant.setPoint 0 { plant.points[0] with state := .holding, holdDue := some 100 }
    let awaiting := plant.setPoint 1 { Point.vacant with state := .awaiting, waitDue := some 100 }
    (live.channels[(0 : ChannelNo)]).silenceFrom = some 0 ∧ 0 + (live.cfg.channels[(0 : ChannelNo)]).silence ≤ live.osc ∧
    (live.channels[(0 : ChannelNo)]).state = .live ∧ (absent.channels[(5 : ChannelNo)]).state = .absent ∧
    absent.namedBy 5 = [] ∧ live.working = true ∧
    (holding.cfg.points[(0 : PointNo)]).isSome ∧ (holding.points[(0 : PointNo)]).holdDue = some 100 ∧ 100 ≤ holding.osc ∧
    (awaiting.points[(1 : PointNo)]).waitDue = some 100 ∧
    (live.silenceExpiry 0).acts.map (·.key.cls) = [.channelLost, .pointFailed] := by decide +kernel

/-- The holder's level on each threshold, and one past it, in each state of the detectors. -/
theorem test_witness_level_arrivals :
    let s (x : DetectorState) : State :=
      { State.reset with
        cfg := { State.reset.cfg with holder := some holder }
        gas := { State.reset.gas with
          highHigh := { state := x, due := some 7 }, lowLow := { state := x, due := some 7 } } }
    let high (x : DetectorState) (v : Int) := ((s x).arrival .holderLevel (.measure v) 0).gas.highHigh.state
    let low (x : DetectorState) (v : Int) := ((s x).arrival .holderLevel (.measure v) 0).gas.lowLow.state
    State.reset.cfg.holder = none ∧ (s .clear).cfg.holder = some holder ∧
    high .clear 99000 = .arming ∧ high .clear 98999 = .clear ∧ high .arming 98999 = .clear ∧
    high .active 98000 = .active ∧ high .active 97999 = .disarming ∧ high .disarming 98000 = .active ∧
    low .clear 10000 = .arming ∧ low .arming 10001 = .clear ∧ low .active 11000 = .active ∧
    low .active 11001 = .disarming ∧ low .disarming 11000 = .active ∧
    ((s .arming).failedEvent .holderLevel).gas.highHigh = { state := .clear, due := none } ∧
    ((s .disarming).failedEvent .holderLevel).gas.lowLow = { state := .active, due := none } := by decide +kernel

/-- A status sample in each state of a sequencer that it moves. -/
theorem test_witness_status_arrivals :
    let moved (s : State) (i : Indications) : Sequencer := (s.arrival (.boilerStatus 0) (.status i) 0).boilers[0]
    let lighting := plantWith fun q => { q with state := .lighting, run := some .gas }
    let phase (p : Phase) : State := plantWith fun q =>
      { q with state := .changeover, phase := some p, target := some .aux, run := some .gas, awaiting := true }
    let demand := { flameIn with tripDemand := true }
    plant.cfg.boilers[(0 : Boiler)] = some boiler ∧ (burning.boilers[0]).state.isActive = true ∧
    moved plant demand = plant.boilers[0] ∧ (moved burning demand).cause = some .tripDemand ∧
    (moved lighting flameIn).state = .firingGas ∧ (moved burning { flameIn with flame := false }).cause = some .flameLost ∧
    (moved (phase .takeover) flameIn).state = .firingAux ∧
    (moved (phase .dead) { flameIn with gasClosed := true }).deadDue = some 102 ∧
    moved (phase .dead) flameIn = (phase .dead).boilers[0] ∧
    ((burning.failedEvent (.boilerStatus 0)).boilers[0]).cause = some .statusLost := by decide +kernel

/-- A standing cause that comes, and one that goes, in each state and restart mode. -/
theorem test_witness_standing_causes :
    let waiting (state : BoilerState) (run : Option Fuel) (marker : Bool) (restart : RestartMode) : State :=
      let s := plantWith fun q => { q with state := state, run := run, marker := marker }
      { s with cfg := { s.cfg with boilers := s.cfg.boilers.set 0 (some { boiler with restart := restart }) } }
    let evaluated (s : State) : Sequencer := (s.restoredEvent (.boilerStatus 0)).boilers[0]
    let held := (waiting .tripped (some .gas) true .latched).setPlace 0 (some (entry .boilerTrip 1 .active false))
    (waiting .tripped none true .latched).standingCause 0 = false ∧
    ({ waiting .tripped none false .latched with plantRelease := false } : State).standingCause 0 = true ∧
    (evaluated { waiting .tripped none false .latched with plantRelease := false }).marker = true ∧
    (evaluated (waiting .lockedOut none true .latched)).state = .lockedOut ∧
    (evaluated (waiting .tripped none true .autoRestart)).state = .off ∧
    (evaluated (waiting .tripped (some .gas) true .autoRestart)).state = .purge ∧
    (waiting .tripped none true .latched).acts = [] ∧
    (waiting .tripped (some .gas) true .latched).entryOf { cls := .boilerTrip, source := 1 } = none ∧
    (evaluated (waiting .tripped (some .gas) true .latched)).state = .off ∧
    (held.entryOf { cls := .boilerTrip, source := 1 }).map (·.latch) = some .latching ∧
    (evaluated held).state = .tripped := by decide +kernel

/-- An export meter reading with no interval, in an open one, and in a meter wait with and without a gap record. -/
theorem test_witness_meter_arrivals :
    let gap (ref : Option Nat) : GapRecord :=
      { start := 0, length := 7200, nominated := none, computed := 7200, curtailed := 0, minLimit := 0, flags := .none,
        reference := ref, estimated := ref.isNone }
    let wait (g : Option GapRecord) : State := { openAt 7400 with
      esu := { (openAt 7400).esu with
        wait := some { due := 60, stored := none, storedCurrent := none, swept := [], gap := g } } }
    let metered (s : State) := (s.arrival .exportMeter (.meter 20 0) 0).que.settlements.map (·.metered)
    State.reset.que.interval = none ∧ State.reset.esu.wait = none ∧ (openAt 7400).que.interval.isSome ∧
    ((State.reset.arrival .exportMeter (.meter 20 0) 0).esu.lastReading = some 20) ∧
    metered (wait none) = [] ∧ metered (wait (some (gap none))) = [2] ∧
    metered (wait (some (gap (some 99999950)))) = [70] ∧
    (((openAt 7400).failedEvent .exportMeter).que.interval.map (·.estimated)) = some true := by decide +kernel

/-- A source in service that is measured and unmeasured, one that is not; both points usable; a substation in service. -/
theorem test_witness_source_events :
    let both : State :=
      let s := served State.reset (.sourceFlow 0) .measure (.measure 5)
      { s with
        cfg := { s.cfg with
          sources := s.cfg.sources.set 0 .inService
          points := s.cfg.points.set 1 (some (point (.sourceCv 0) 1)) }
        points := s.points.set 1 (servingPoint (.measure 7)) }
    both.cfg.sources[(0 : GasSource)] = .inService ∧ both.gas.unmeasured[(0 : GasSource)] = false ∧
    (both.failedEvent (.sourceCv 0)).gas.unmeasured[(0 : GasSource)] = true ∧
    State.reset.cfg.sources[(0 : GasSource)] ≠ .inService ∧ both.usable (.sourceFlow 0) = true ∧
    both.usable (.sourceCv 0) = true ∧ State.reset.usable (.sourceCv 0) = false ∧
    ((both.setUnmeasured 0 true).restoredEvent (.sourceFlow 0)).gas.unmeasured[(0 : GasSource)] = false ∧
    ((substation metered).failedEvent (.heatMeter 0)).acc.meters[(0 : Substation)] =
      { metered with state := .estimating } := by decide +kernel

/-- Ends of the ranges; a channel a point names; the same figures; a new limit at its bound. -/
theorem test_witness_configure_channel : plant.working = true ∧ numbered 96 1 = some 0 ∧ numbered 96 96 = some 95 ∧
    readKind 2 = some .meter ∧ 600 < (601 : Half).toNat ∧ 1 ≤ (1 : Half).toNat ∧ (600 : Half).toNat ≤ 600 ∧
    plant.namedBy 0 ≠ [] ∧ plant.namedBy 95 = [] ∧ (ChannelKind.meter ≠ (plant.cfg.channels[(0 : ChannelNo)]).kind) ∧
    (plant.cfg.channels[(0 : ChannelNo)]) = { kind := .status, silence := 10 } ∧
    plant.osc ≤ 0 + (100 : Half).toNat ∧ State.status (after [.configureChannel 1 2 10] plant) = some .busy := by
  decide +kernel

/-- A silence limit of 5 s at second 20 for a channel last heard at second 0: LIVE with a point that then holds, LIVE without a
point, and LOST. -/
theorem test_witness_silence_at_request :
    let s (x : ChannelState) : State := { levelled .serving x .lost 1 5 with osc := 20 }
    let free := { State.reset.setChannel 5 { liveChannel (.measure 5) with state := .live } with osc := 20 }
    let t (x : ChannelState) : State := after [.configureChannel 1 0 5] (s x)
    (s .live).working = true ∧ (s .live).namedBy 0 = [0] ∧ (s .live).cfg.channels[0] = { kind := .measure, silence := 10 } ∧
    ((s .live).channels[0]).silenceFrom = some 0 ∧ 0 + (5 : Half).toNat < (s .live).osc ∧
    ((t .live).channels[0]).state = .lost ∧ ((t .live).points[0]).holdDue = some 25 ∧
    (t .live).entries.map (·.key) = [{ cls := .channelLost, source := 1 }] ∧ free.namedBy 5 = [] ∧
    (after [.configureChannel 6 0 5] free).entries.map (·.key) = [{ cls := .channelLost, source := 6 }] ∧
    ((t .lost).channels[0]).silenceFrom = none ∧ (t .lost).entries = [] := by decide +kernel

/-- A good request for the export meter on a free channel, a bad one, one held back, and role "none". -/
theorem test_witness_configure_point :
    let s : State := { plant with cfg := { plant.cfg with
      channels := plant.cfg.channels.set 95 { kind := .meter, silence := 10 } } }
    let f : RawPoint :=
      { role := 7, instanceNo := 1, primary := 96, alternateA := 0xFF, alternateB := 0xFF, multiplier := 1, divisor := 1,
        low := 0, high := 0, hold := 0 }
    let works := served State.reset .worksFlow .measure (.measure 0)
    s.working = true ∧ numbered 128 128 = some 127 ∧ s.readPointRequest 127 f = some (some (point .exportMeter 95)) ∧
    s.readPointRequest 127 { f with divisor := 0 } = none ∧ s.cfg.points[(127 : PointNo)] = none ∧
    s.roleBusy .exportMeter = false ∧ s.selection (point .exportMeter 95) = none ∧
    burning.roleBusy (.boilerStatus 0) = true ∧ ({ f with role := 0xFF } : RawPoint).role = 0xFF ∧
    works.cfg.points[(0 : PointNo)] = some (point .worksFlow 0) := by decide +kernel

/-- The holder level reconfigured under its role by point state, with its source lost and LIVE, and with a hold limit of 0 and
of 5 s; its slot given to another role, and emptied. -/
theorem test_witness_point_cases :
    let h := served State.reset .holderLevel .measure (.measure 95000)
    let s (x : PointState) (c : ChannelState) : State := { h with
      points := h.points.set 0 { servingPoint (.measure 95000) with state := x }
      channels := h.channels.set 0 { liveChannel (.measure 95000) with state := c } }
    let f (role : Byte) (hold : Half) : RawPoint :=
      { role := role, instanceNo := 1, primary := 1, alternateA := 0xFF, alternateB := 0xFF, multiplier := 1, divisor := 1,
        low := 0, high := 0, hold := hold }
    let x (p : PointState) (c : ChannelState) (hold : Half) : Point := (after [.configurePoint 1 (f 4 hold)] (s p c)).points[0]
    let kept : PointConfig := { point .holderLevel 0 with hold := 5 }
    (s .serving .lost).working = true ∧ (s .serving .lost).readPointRequest 0 (f 4 5) = some (some kept) ∧
    (s .serving .lost).selection kept = none ∧ (s .failed .live).selection kept = some (.primary, 0) ∧
    (x .serving .lost 5).holdDue = some 5 ∧ (x .serving .lost 0).state = .failed ∧ (x .holding .lost 5).holdDue = some 5 ∧
    (x .holding .lost 0).state = .failed ∧ (x .failed .lost 5).state = .failed ∧ (x .awaiting .lost 5).waitDue = some 60 ∧
    (x .failed .live 5).state = .serving ∧ (x .serving .live 5).state = .serving ∧
    (s .serving .live).readPointRequest 0 (f 2 0) = some (some (point .worksFlow 0)) ∧
    (((s .serving .live).configurePoint 0 (some (point .worksFlow 0))).points[0]).state = .serving ∧
    (after [.configurePoint 1 (f 2 0)] (s .serving .lost)).points[0].state = .awaiting ∧
    (after [.configurePoint 1 (f 0xFF 0)] (s .serving .lost)).points[0].state = .unconfigured ∧
    State.status (after [.configurePoint 0 (f 0xFF 0)] State.reset) = some .badField ∧
    State.status (after [.configurePoint 129 (f 0xFF 0)] State.reset) = some .badField := by decide +kernel

theorem test_witness_configure_point_busy :
    let s := (State.reset.setBoiler 0 { State.reset.boilers[0] with state := .tripped })
    let s : State := { s with cfg := { s.cfg with channels := s.cfg.channels.set 0 { kind := .status, silence := 10 } } }
    let f : RawPoint :=
      { role := 6, instanceNo := 1, primary := 1, alternateA := 0xFF, alternateB := 0xFF, multiplier := 1, divisor := 1,
        low := 0, high := 0, hold := 0 }
    s.readPointRequest 0 f = some (some (point (.boilerStatus 0) 0)) ∧ s.cfg.points[(0 : PointNo)] = none ∧
    s.roleBusy (.boilerStatus 0) = true ∧ State.status (after [.configurePoint 1 f] s) = some .busy := by decide +kernel

/-- The three settings of a source, and the numbers at and past both ends. -/
theorem test_witness_sources :
    let setTo (x : SourceSetting) : State :=
      { State.reset with cfg := { State.reset.cfg with sources := State.reset.cfg.sources.set 5 x } }
    numbered 6 6 = some 5 ∧ 6 < (7 : Byte).toNat ∧ 1 < (2 : Byte).toNat ∧ (setTo .inService).working = true ∧
    (setTo .notDefined).cfg.sources[(5 : GasSource)] = .notDefined ∧
    (setTo .outOfService).cfg.sources[(5 : GasSource)] = .outOfService ∧
    State.status (after [.configureSource 6 0] (setTo .notDefined)) = some .ok ∧
    (after [.setSourceService 6 0] (setTo .outOfService)).gas.unmeasured[(5 : GasSource)] = true := by decide +kernel

/-- Good figures, bad ones, and the selection of each set with the level usable and unusable. -/
theorem test_witness_holder :
    let f : RawHolder :=
      { capacity := 120000, bandLow := 60000, bandHigh := 80000, recovery := 600, normalLow := 10000, normalHigh := 99000,
        reducedLow := 10000, reducedHigh := 90000, hysteresis := 1000, filter := 5, drawFallback := 2000000,
        cvDefault := 40000 }
    let s := served State.reset .holderLevel .measure (.measure 95000)
    let s : State := { s with cfg := { s.cfg with holder := some holder } }
    readHolderFigures f = some holder ∧ readHolderFigures { f with recovery := 59 } = none ∧ f.drawFallback.toNat ≤ 2000000 ∧
    f.cvDefault.toNat ≤ 40000 ∧ s.holderLevel = some 95000 ∧ State.reset.holderLevel = none ∧ readSet 1 = some .reduced ∧
    readSet 0 = some s.cfg.thresholds ∧ 1 < (2 : Byte).toNat ∧ s.gas.highHigh.state = .clear ∧ s.working = true ∧
    (after [.selectHolderLimits 1] s).gas.highHigh.state = .arming := by decide +kernel

/-- Each detector in each state at the selection of another set, at 95,000 and at the LL threshold of 10,000. -/
theorem test_witness_holder_detectors :
    let s (level : Int) (x : DetectorState) : State :=
      let s := served State.reset .holderLevel .measure (.measure level)
      { s with
        cfg := { s.cfg with holder := some holder }
        gas := { s.gas with highHigh := { state := x, due := some 9 }, lowLow := { state := x, due := some 9 } } }
    let chosen (level : Int) (x : DetectorState) := (after [.selectHolderLimits 1] (s level x)).gas
    (chosen 95000 .arming).highHigh = { state := .arming, due := some 5 } ∧ (chosen 89999 .arming).highHigh.state = .clear ∧
    (chosen 89000 .active).highHigh.state = .active ∧ (chosen 88999 .disarming).highHigh.state = .disarming ∧
    (chosen 10000 .clear).lowLow.state = .arming ∧ (chosen 10001 .arming).lowLow.state = .clear ∧
    (chosen 11000 .disarming).lowLow.state = .active ∧ (chosen 11001 .active).lowLow.state = .disarming := by decide +kernel

/-- Each detector state with its filter on its last second; one boiler on gas at the LL event. -/
theorem test_witness_filter :
    let with_ (hh ll : DetectorState) : State :=
      { burning with gas := { burning.gas with
          highHigh := { state := hh, due := some 100 }, lowLow := { state := ll, due := some 100 } } }
    (with_ .arming .arming).working = true ∧ 100 ≤ burning.osc ∧
    burning.HasRoom [{ cls := .holderHighHigh, source := 1 }] ∧ burning.HasRoom [{ cls := .holderLowLow, source := 1 }] ∧
    (with_ .arming .arming).gas.highHigh = { state := .arming, due := some 100 } ∧
    (burning.boilers[0]).state = .firingGas ∧ burning.auxFitted 0 = true ∧
    ((after [.filterExpiry .highHigh] (with_ .arming .arming)).dsp.flareStages = 4) ∧
    ((after [.filterExpiry .lowLow] (with_ .arming .arming)).boilers[0]).state = .changeover ∧
    (after [.filterExpiry .lowLow] (with_ .disarming .disarming)).gas.lowLow.state = .clear := by decide +kernel

theorem test_witness_dispatch : plant.working = true ∧ plant.dsp.lastCycle + plant.cfg.plant.period ≤ plant.osc ∧
    (State.reset.osc < State.reset.dsp.lastCycle + State.reset.cfg.plant.period) ∧ plant.cfg.merit.Nodup ∧
    dispatched.working = true ∧ dispatched.dsp.sending.isSome ∧ dispatched.dsp.waiting.length = 1 ∧
    (plant.cycleResult plant.gasFigures).flags.shortage = false ∧
    (burning.cycleResult burning.gasFigures).flags.shortage = true ∧
    (plant.cycleResult plant.gasFigures).request = .nothing ∧ dispatched.dsp.cycle = 1 := by decide +kernel

/-- Each request of a cycle: shed all, a shortage, steam over on gas and on aux, release, return and none; and room for
the conditions of a cycle. -/
theorem test_witness_requests :
    let lowLow (s : State) : State :=
      { s with gas := { s.gas with lowLow := { state := .active, due := none } } }
    let g (surplus : Int) : GasFigures := { burning.gasFigures with surplus := surplus }
    let plain : PlantParameters := { PlantParameters.default with exchanger := 850, loss := 850, idleLimit := 4 }
    let onAux (idle : Nat) : State :=
      let s := (plantWith fun q => { q with state := .firingAux, run := some .aux }).setAllocation 0
        { gas := 0, aux := 1000, idle := idle }
      { s with cfg := { s.cfg with plant := plain } }
    let steamy := (plantWith fun q => { q with state := .firingAux }).setAllocation 0 { gas := 0, aux := 1000, idle := 0 }
    ((lowLow burning).cycleResult (lowLow burning).gasFigures).request = .shedAll [0] ∧
    (burning.cycleResult (g 0)).request = .one .shedShortage 0 ∧
    (burning.cycleResult (g 5000)).request = .one .shedSteam 0 ∧ (steamy.cycleResult (g 0)).request = .one .shedSteam 0 ∧
    ((onAux 3).cycleResult (g 0)).request = .one .releaseAux 0 ∧
    ((onAux 3).cycleResult (g 1000)).request = .one .returnGas 0 ∧ ((onAux 2).cycleResult (g 0)).request = .nothing ∧
    burning.dsp.lastCycle + burning.cfg.plant.period ≤ burning.osc ∧ (burning.cfg.boilers[(0 : Boiler)]).isSome ∧
    burning.auxFitted 0 = true ∧ State.reset.HasRoom cycleKeys ∧ burning.HasRoom cycleKeys ∧
    ((burning.deliver (.one .shedShortage 0)).boilers[0]).state = .changeover := by decide +kernel

/-- Five MEASURE points and the turbine, one source in service, the holder configured; boilers 1 and 2 on gas, boiler 3 on aux,
with the merit list 2 alone. -/
def dispatching (states : List BoilerState) (loss : Nat) : State :=
  let roles : List (Role × Quantity) :=
    [(.sourceFlow 0, .measure 20000), (.sourceCv 0, .measure 17500), (.worksFlow, .measure 10000), (.networkCv, .measure 18000),
      (.holderLevel, .measure 95000), (.turbineStatus, .status { flameIn with available := true })]
  { State.reset with
    cfg := { State.reset.cfg with
      points := Vector.ofFn fun p => (roles[p.val]?).map fun x => point x.1 0
      sources := State.reset.cfg.sources.set 0 .inService
      holder := some holder
      boilers := State.reset.cfg.boilers.map fun _ => some boiler
      merit := [1]
      plant := { period := 10, idleLimit := 0, conversion := 300, turbineMax := 20000, ownUse := 30, exchanger := 20000,
                 loss := loss, stageSize := 100000 } }
    points := Vector.ofFn fun p => (roles[p.val]?).elim .vacant fun x => servingPoint x.2
    boilers := Vector.ofFn fun b => { State.reset.boilers[b] with state := states.getD b.val .off }
    dsp := { State.reset.dsp with allocations := Vector.ofFn fun b =>
      { gas := if b.val = 0 then 2000 else if b.val = 1 then 1000 else 0, aux := if b.val = 2 then 1000 else 0, idle := 0 } }
    esu := { State.reset.esu with effLimit := 900 } }

/-- The figures of a cycle by hand: 97,222 kW of source energy, 50,000 of draw, 450,000 of correction; a headroom of 4,100 kW
over 2,975 of committed steam, shared out to boiler 2 first; one flare stage toward four. And the aux raise alone. -/
theorem test_witness_cycle_figures :
    let s := dispatching [.firingGas, .firingGas, .firingAux] 1000
    let r := s.cycleResult s.gasFigures
    let aux := dispatching [.off, .off, .firingAux] 2000
    let q := aux.cycleResult aux.gasFigures
    s.cfg.merit.Nodup ∧ s.measured .networkCv = some 18000 ∧ State.reset.measured .networkCv = none ∧
    (r.figures.sourceEnergy, r.figures.draw, r.figures.surplus, r.figures.correction) = (97222, 50000, 47222, 450000) ∧
    (r.early.available, r.early.usable, r.early.turbineLimit, r.early.headroom) = (497222, 1000, 3100, 4100) ∧
    (r.early.committed, r.early.gasFloors) = (2975, 2500) ∧ r.flags.shortage = false ∧ r.flags.steamOver = false ∧
    (r.boilers.toList.take 3).map (fun x => (x.floor, x.gas, x.aux)) =
      [(some 1500, 2323, 0), (some 1000, 1500, 0), (some 1000, 0, 1000)] ∧
    (r.raised.leftover, r.flareDemand, r.flareStages) = (493399, 4, 1) ∧
    ((q.boilers[(2 : Boiler)]).floor, (q.boilers[(2 : Boiler)]).aux, q.raised.shortfall) = (some 1000, 1500, 725) := by
  decide +kernel

/-- A figure at and past its bound; a request that moves the expiry into the past; merit lists. -/
theorem test_witness_plant_and_merit :
    let f : RawPlant :=
      { period := 30, idleLimit := 0, conversion := 300, turbineMax := 0, ownUse := 0, exchanger := 0, loss := 0,
        stageSize := 1 }
    (readPlant f).isSome ∧ readPlant { f with period := 31 } = none ∧ (readPlant f).map (·.period) = some 30 ∧
    State.reset.osc < State.reset.dsp.lastCycle + 30 ∧ plant.dsp.lastCycle + 30 ≤ plant.osc ∧
    ([7, 0] : List Boiler).Nodup ∧ ¬ ([1, 1] : List Byte).Nodup ∧ 8 < (9 : Byte).toNat ∧
    State.status (after [.setMeritList [8, 1]] plant) = some .ok ∧
    (after [.setPlantParameters f] plant).dsp.cycle = 1 := by decide +kernel

/-! ### Witnesses: boilers -/

/-- Figures of R40 at their bounds. -/
def rawBoiler : RawBoiler :=
  { boiler := 1, minimum := 1, maximum := 2000000, ramp := 2000000, yield := 950, auxFitted := 0, purge := 600,
    lightOff := 60, interval := 30, reference := 1, window := 600, tripLimit := 1, restart := 1 }

theorem test_witness_configure_boiler :
    let locked := plantWith fun q => { q with state := .lockedOut, history := [{ second := 90, time := 90 }] }
    let aged := plantWith fun q => { q with history := [{ second := 90, time := 90 }] }
    numbered 8 rawBoiler.boiler = some 0 ∧ (readBoilerFigures rawBoiler).isSome ∧
    readBoilerFigures { rawBoiler with yield := 951 } = none ∧ numbered 8 9 = none ∧ aged.working = true ∧
    (aged.boilers[0]).state = .off ∧ (burning.boilers[0]).state ≠ .off ∧
    ((after [.configureBoiler rawBoiler] aged).boilers[0]).history = [] ∧
    ((after [.configureBoiler { rawBoiler with tripLimit := 2 }] (plantWith fun q =>
      { q with history := [{ second := 80, time := 80 }, { second := 90, time := 90 }] })).boilers[0]).history =
        [{ second := 90, time := 90 }] ∧
    State.status (after [.resetLockout 0] plant) = some .badField ∧
    State.status (after [.resetLockout 9] plant) = some .badField ∧
    (locked.boilers[0]).state = .lockedOut ∧ locked.standingCause 0 = false ∧
    ({ locked with plantRelease := false } : State).standingCause 0 = true ∧ numbered 8 1 = some 0 ∧
    ((after [.resetLockout 1] locked).boilers[0]).state = .off := by decide +kernel

/-- Every ground a start is refused on, and a start that is taken, for the first and the last boiler number. -/
theorem test_witness_start :
    let indicating (i : Indications) : State := served plant (.boilerStatus 0) .status (.status i)
    let latched : State := { plant with
      cfg := { plant.cfg with boilers := plant.cfg.boilers.set 0 (some { boiler with restart := .latched }) }
      conditions := plant.conditions.set 0 (some (entry .boilerTrip 1 .latched true)) }
    let unfitted : State := { plant with
      cfg := { plant.cfg with boilers := plant.cfg.boilers.set 0 (some { boiler with auxFitted := false }) } }
    8 < (9 : Byte).toNat ∧ numbered 8 8 = some 7 ∧ plant.cfg.boilers[(7 : Boiler)] = none ∧ numbered 8 1 = some 0 ∧
    plant.cfg.boilers[(0 : Boiler)] = some boiler ∧ (plant.boilers[0]).state = .off ∧ plant.plantRelease = true ∧
    plant.indicated (.boilerStatus 0) = some flameIn ∧ flameIn.localControl = false ∧ flameIn.tripDemand = false ∧
    State.status (after [.startAux 1] unfitted) = some .badField ∧
    State.status (after [.startGas 1] latched) = some .locked ∧
    State.status (after [.startGas 1] (indicating { flameIn with localControl := true })) = some .locked ∧
    State.status (after [.startGas 1] { plant with plantRelease := false }) = some .locked ∧
    ((after [.startAux 1] plant).boilers[0]).purgeDue = some 130 := by decide +kernel

/-- STOP in each kind of state; CHANGEOVER by both references from both fuels, and where it is refused. -/
theorem test_witness_stop_and_changeover :
    let onAux := (plantWith fun q => { q with state := .firingAux, run := some .aux, auxPermit := true }).setAllocation 0
      { gas := 0, aux := 2000, idle := 3 }
    let confirming : State := { burning with
      cfg := { burning.cfg with boilers := burning.cfg.boilers.set 0 (some { boiler with reference := .fromConfirm }) } }
    let tripped := plantWith fun q => { q with state := .tripped, run := some .gas }
    burning.working = true ∧ onAux.working = true ∧ numbered 8 1 = some 0 ∧ burning.dsp.sending = none ∧
    (plant.boilers[0]).state = .off ∧ ((tripped.boilers[0]).state = .tripped) ∧
    (burning.boilers[0]).state = Fuel.gas.firing ∧ (onAux.boilers[0]).state = Fuel.aux.firing ∧ boiler.auxFitted = true ∧
    ((after [.stop 1] burning).boilers[0]).lastClose = 100 ∧ ((after [.stop 1] burning).dsp.allocations[0]).gas = 0 ∧
    ((after [.changeover 1] burning).boilers[0]).deadDue = some 102 ∧
    ((after [.changeover 1] confirming).boilers[0]).confirmDue = some 110 ∧
    ((after [.changeover 1] onAux).boilers[0]).target = some .gas ∧
    State.status (after [.stop 0] plant) = some .badField ∧ State.status (after [.changeover 9] plant) = some .badField ∧
    State.status (after [.changeover 1] tripped) = some .busy := by decide +kernel

/-- A purge and a dead timer on their last second and one second before. -/
theorem test_witness_timers_open :
    let dead (due : Nat) : State := plantWith fun q =>
      { q with state := .changeover, phase := some .dead, target := some .aux, run := some .gas, deadDue := some due }
    let purge (due : Nat) : State := plantWith fun q => { q with state := .purge, run := some .gas, purgeDue := some due }
    (dead 100).working = true ∧ (dead 100).cfg.boilers[(0 : Boiler)] = some boiler ∧ 100 ≤ (dead 100).osc ∧
    (dead 101).osc < 101 ∧ ((after [.deadExpiry 0] (dead 100)).boilers[0]).auxPermit = true ∧
    (after [.deadExpiry 0] (dead 101)) = dead 101 ∧ ((after [.purgeExpiry 0] (purge 100)).boilers[0]).gasPermit = true ∧
    (after [.purgeExpiry 0] (purge 101)) = purge 101 := by decide +kernel

/-- Light-off and confirm timers on their last second; a second trip in the window, with room for both raises and for
one; an entry at the window's end. -/
theorem test_witness_trips :
    let lighting := plantWith fun q => { q with
      state := .lighting, run := some .gas, gasPermit := true, lightOffDue := some 100,
      history := [{ second := 90, time := 90 }] }
    let takeover := plantWith fun q => { q with
      state := .changeover, phase := some .takeover, target := some .aux, auxPermit := true, lightOffDue := some 100 }
    let awaiting := plantWith fun q => { q with
      state := .changeover, phase := some .dead, target := some .aux, awaiting := true, confirmDue := some 100 }
    let old := { plantWith (fun q => { q with history := [{ second := 0, time := 0 }] }) with osc := 3600 }
    let tight : State := { lighting with conditions := Vector.ofFn fun i =>
        if i.val = 126 then none else some (entry .pointFailed (i.val + 1) .active true) }
    let trip : ConditionKey := { cls := .boilerTrip, source := 1 }
    let lockout : ConditionKey := { cls := .boilerLockout, source := 1 }
    lighting.working = true ∧ lighting.cfg.boilers[(0 : Boiler)] = some boiler ∧ lighting.HasRoom [trip, lockout] ∧
    tight.HasRoom [trip] ∧ ¬ tight.HasRoom [trip, lockout] ∧
    (takeover.boilers[0]).phase = some .takeover ∧ (awaiting.boilers[0]).awaiting = true ∧
    ((lighting.lightOffExpiry 0).boilers[0]).state = .lockedOut ∧ ((tight.lightOffExpiry 0).boilers[0]).state = .lockedOut ∧
    ((after [.lightOffExpiry 0] takeover).boilers[0]).state = .tripped ∧
    ((after [.confirmExpiry 0] awaiting).boilers[0]).cause = some .valveNotClosed ∧
    0 + boiler.window ≤ old.osc ∧ ({ old with osc := 3599 } : State).osc < 0 + boiler.window ∧
    ((after [.tripHistoryAgeingExpiry 0] old).boilers[0]).history = [] := by decide +kernel

/-- The fall and the rise with every boiler OFF, with one burning, and with one waiting to restart. -/
theorem test_witness_release :
    let waiting : State :=
      { plantWith (fun q => { q with state := .tripped, run := some .gas, marker := true }) with plantRelease := false }
    burning.working = true ∧ burning.plantRelease = true ∧ (burning.boilers[0]).state.isActive = true ∧
    burning.cfg.boilers[(0 : Boiler)] = some boiler ∧ waiting.plantRelease = false ∧ (waiting.boilers[0]).state = .tripped ∧
    (waiting.boilers[0]).marker = true ∧ boiler.restart = .autoRestart ∧
    waiting.indicated (.boilerStatus 0) = some flameIn ∧ (waiting.boilers[0]).run = some .gas ∧
    (∀ b : Boiler, (plant.boilers[b]).state = .off) ∧
    (after [.plantReleaseFall] plant).faultOutput = some false ∧
    (after [.plantReleaseFall, .plantReleaseRise] plant).faultOutput = some true := by decide +kernel

theorem burning_permits : burning.PermitsLegal :=
  ⟨by decide +kernel, by decide +kernel, by decide +kernel, by decide +kernel, by decide +kernel, by decide +kernel⟩

/-! ### Witnesses: export schedule and settlement -/

/-- Nominations on and off the grid, at the gate and one second before it, held and not, with 96 held. -/
theorem test_witness_nominations :
    let s := queued
    let full : State := { s with que := { s.que with
      nominations := (List.range 96).map fun i => { start := 9900 + 900 * i, energy := 0 } } }
    s.working = true ∧ s.que.QueuesLegal ∧ OnGrid s.cfg.intervalSeconds s.clock.offset ((9900 : Word).toNat) ∧
    ¬ OnGrid s.cfg.intervalSeconds s.clock.offset ((9901 : Word).toNat) ∧ 1000000 < (1000001 : Word).toNat ∧
    ((9000 : Word).toNat : Int) - 60 * s.cfg.contract.lead ≤ s.clock.reading ∧
    ¬ ((9900 : Word).toNat : Int) - 60 * s.cfg.contract.lead ≤ s.clock.reading ∧
    full.que.nominations.length = 96 ∧ State.status (after [.submitNomination 96300 5] full) = some .full ∧
    State.status (after [.withdrawNomination 9900] full) = some .ok ∧
    State.status (after [.submitNomination 9000 5] s) = some .tooLate ∧
    State.status (after [.withdrawNomination 9900] s) = some .notFound ∧
    (after [.submitNomination 9900 7] s).que.nominations.length = 3 :=
  ⟨by decide +kernel, queued_legal, by decide, by decide, by decide, by decide, by decide, by decide +kernel,
    by decide +kernel, by decide +kernel, by decide +kernel, by decide +kernel, by decide +kernel⟩

/-- Orders before and at their start, past their end, with a known reference and with the table full. -/
theorem test_witness_curtailment :
    let s := openAt 7400
    let full : State := { s with que := { s.que with
      orders := Vector.ofFn fun n => some (order .ordinary .pending (100 + n.val)) } }
    s.working = true ∧ s.emptySlot = some 0 ∧ readOrderKind 1 = some .emergency ∧ readFinish 7900 = some 7900 ∧
    full.emptySlot = none ∧ overridden.clock.valid = true ∧
    State.status (after [.submitCurtailment 1 0 500 7500 7500] s) = some .badField ∧
    State.status (after [.submitCurtailment 1 0 500 7300 7400] s) = some .tooLate ∧
    State.status (after [.submitCurtailment 1 0 500 7500 7900] full) = some .full ∧
    ((after [.submitCurtailment 1 0 500 7401 7900] s).que.orders[(0 : CurtailmentSlot)]).map (·.state) = some .pending ∧
    ((after [.submitCurtailment 1 0 500 7400 7900] s).que.orders[(0 : CurtailmentSlot)]).map (·.state) = some .active ∧
    ((after [.cancelCurtailment 2] overridden).que.orders[(0 : CurtailmentSlot)]).map (·.state) = some .active ∧
    State.status (after [.cancelCurtailment 9] overridden) = some .notFound := by decide +kernel

/-- An order at its start over an ordinary order, over an emergency, and with none in force; ends by state. -/
theorem test_witness_orders :
    let pair (k j : OrderKind) : State := withOrders (openAt 7300) (some (order k .active 1)) (some (order j .pending 2))
    let late : State := withOrders (openAt 7900) (some (order .ordinary .active 1)) (some (order .ordinary .waiting 2))
    (pair .ordinary .emergency).working = true ∧ (pair .ordinary .emergency).clock.valid = true ∧
    (order .emergency .pending 2).start ≤ (pair .ordinary .emergency).clock.reading ∧
    ((after [.emergencyStart 1] (pair .ordinary .emergency)).que.orders[(0 : CurtailmentSlot)]).map (·.state) =
      some .suspended ∧
    ((after [.emergencyStart 1] (pair .emergency .emergency)).que.orders[(0 : CurtailmentSlot)]) = none ∧
    ((after [.ordinaryStart 1] (pair .emergency .ordinary)).que.orders[(1 : CurtailmentSlot)]).map (·.state) =
      some .waiting ∧
    (7299 < (order .ordinary .pending 2).start) ∧ late.working = true ∧ 7900 ≤ late.clock.reading ∧
    (after [.activeOrderEnd] late).que.orders[(0 : CurtailmentSlot)] = none ∧
    (after [.inactiveOrderEnd 1] late).que.orders[(1 : CurtailmentSlot)] = none ∧
    ((after [.activeOrderEnd] { overridden with que := { overridden.que with
      orders := overridden.que.orders.set 1 (some { order .emergency .active 2 with finish := some 7400 }) } }).que.orders[
        (0 : CurtailmentSlot)]).map (·.state) = some .active := by decide +kernel

/-- Two WAITING orders of one start behind the ACTIVE one: the lower slot follows it, at its end and at its cancelling. -/
theorem test_witness_waiting_orders :
    let s (reading : Nat) : State := { openAt reading with que := { (openAt reading).que with
      orders := ((State.reset.que.orders.set 0 (some (order .ordinary .active 1))).set 3
        (some { order .ordinary .waiting 2 with finish := none })).set 5
        (some { order .ordinary .waiting 3 with finish := none }) } }
    let waiting (n : Nat) : CurtailmentOrder := { order .ordinary .waiting n with finish := none }
    (s 7900).MayFollow (waiting 2) .waiting ∧ (s 7900).MayFollow (waiting 3) .waiting ∧
    ¬ (s 7900).MayFollow (order .ordinary .waiting 2) .waiting ∧ comesFirst 3 (waiting 2) 5 (waiting 3) ∧
    ¬ comesFirst 5 (waiting 3) 3 (waiting 2) ∧
    ((after [.activeOrderEnd] (s 7900)).que.orders[(3 : CurtailmentSlot)]).map (·.state) = some .active ∧
    ((after [.cancelCurtailment 1] (s 7400)).que.orders[(3 : CurtailmentSlot)]).map (·.state) = some .active ∧
    ((after [.cancelCurtailment 1] (s 7400)).que.orders[(5 : CurtailmentSlot)]).map (·.state) = some .waiting := by
  decide +kernel

/-- A contract with another length while nominations wait and while none do; a gate at its second. -/
theorem test_witness_contract_and_gate :
    let s := openAt 7200
    let free : State := { s with que := { s.que with nominations := [] } }
    s.working = true ∧ (readContract 2000000 60 120).isSome ∧ readContract 2000000 61 120 = none ∧
    queued.que.nominations ≠ [] ∧ free.que.nominations = [] ∧ s.activeSlot = none ∧ s.clock.valid = true ∧
    s.esu.intervalEnd ≤ (s.clock.reading : Int) + 60 * s.cfg.contract.lead ∧
    OnGrid s.cfg.intervalSeconds s.clock.offset ((s.clock.reading : Int) + 60 * s.cfg.contract.lead) ∧
    OnGrid s.cfg.intervalSeconds s.clock.offset s.esu.intervalEnd ∧ s.esu.missing = false ∧
    State.status (after [.setExportContract 0 60 0] queued) = some .busy ∧
    (after [.setExportContract 0 60 0] free).esu.intervalEnd = 10800 ∧
    (after [.gateExpiry] s).entries.map (·.key.cls) = [.nominationMissing] := by decide +kernel

/-- With a gate lead of 30 minutes at 7200 the open interval and the next ones up to 9000 are gated; two of them have a
nomination. A step back behind the gates leaves none missing. -/
theorem test_witness_missing :
    let s (reading : Nat) : State := { openAt reading with
      cfg := { State.reset.cfg with contract := { limit := 0, length := 15, lead := 30 } }
      que := { (openAt reading).que with nominations := [{ start := 8100, energy := 1 }] } }
    let free (reading : Nat) : State := { s reading with que := { (s reading).que with current := none } }
    (s 7200).missingStarts = [9000] ∧ (free 7200).missingStarts = [7200, 9000] ∧ (s 7199).missingStarts = [] ∧
    (free 5399).missingStarts = [] ∧ State.reset.missingStarts = [] ∧ 0 < (s 7200).cfg.contract.length := by decide +kernel

/-- The boundary at its second and before it, with the meter lost and with it; a meter wait on its last second. -/
theorem test_witness_boundary :
    let s := openAt 8100
    let onMeter := served s .exportMeter .meter (.meter 20 0)
    let onMeter : State := { onMeter with esu := { onMeter.esu with lastReading := some 20 } }
    let gap : GapRecord :=
      { start := 0, length := 7200, nominated := none, computed := 7199, curtailed := 0, minLimit := 0, flags := .none,
        reference := none, estimated := true }
    let wait (g : Option GapRecord) : State := { s with
      osc := 60
      esu := { s.esu with wait := some { due := 60, stored := none, storedCurrent := none, swept := [], gap := g } } }
    s.working = true ∧ s.clock.valid = true ∧ s.que.interval.isSome ∧ s.esu.wait = none ∧ 0 < s.cfg.contract.length ∧
    s.esu.intervalEnd ≤ s.clock.reading ∧ ((openAt 8099).clock.reading : Int) < (openAt 8099).esu.intervalEnd ∧
    s.meterUsable = false ∧ onMeter.meterUsable = true ∧ onMeter.esu.lastReading = some 20 ∧
    ((after [.boundaryExpiry] s).que.settlements.map fun r => (r.metered, r.flags.meterEstimated)) = [(2, true)] ∧
    ((after [.boundaryExpiry] onMeter).que.settlements.map fun r => (r.metered, r.flags.meterEstimated)) =
      [(99999970, false)] ∧
    (wait none).working = true ∧ 60 ≤ (wait none).osc ∧ (after [.meterWaitExpiry] (wait none)).esu.wait = none ∧
    ((after [.meterWaitExpiry] (wait (some gap))).que.settlements.map (·.metered)) = [1] := by decide +kernel

/-- A record that joins a queue of 192, at the boundary and at the end of the meter wait. -/
theorem test_witness_overrun :
    let full (s : State) : State := { s with
      que := { s.que with settlements := (List.range 192).map fun i => record (BitVec.ofNat 32 (i + 1)) }
      esu := { s.esu with missing := true } }
    let gap : GapRecord :=
      { start := 0, length := 7200, nominated := none, computed := 7199, curtailed := 0, minLimit := 0, flags := .none,
        reference := none, estimated := true }
    let s := full (openAt 8100)
    let w := full { openAt 7400 with
      osc := 60
      esu := { State.reset.esu with
        intervalEnd := 8100
        wait := some { due := 60, stored := none, storedCurrent := none, swept := [], gap := some gap } } }
    let overrun : ConditionKey := { cls := .settlementOverrun, source := 1 }
    let joins (t : State) : Prop := t.que.settlements.length = 192 ∧ (t.que.settlements.map (·.sequence)).head? = some 2 ∧
      (t.entryOf overrun).map (fun e => (e.state, e.notified, e.raises)) = some (.latched, false, 1)
    s.working = true ∧ w.working = true ∧ s.que.settlements.length = 192 ∧ s.ConditionsLegal ∧
    s.HasRoom [overrun, { cls := .nominationMissing, source := 1 }] ∧ joins (after [.boundaryExpiry] s) ∧
    joins (after [.meterWaitExpiry] w) := by
  refine ⟨?_, ?_, ?_, empty_legal rfl rfl, ?_, ⟨?_, ?_, ?_⟩, ⟨?_, ?_, ?_⟩⟩ <;> decide +kernel

/-- An interval whose limit lay below the contract for 40 of its seconds: what the boundary records, and what a publication
of the contract limit, and of a lower one, adds. -/
theorem test_witness_curtailed :
    let s : State := { openAt 8100 with
      osc := 100
      cfg := { State.reset.cfg with contract := { State.reset.cfg.contract with limit := 900 } }
      esu := { (openAt 8100).esu with curtailedSince := some 60, effLimit := 500 } }
    let low := withOrders s (some (order .ordinary .active 1)) none
    s.working = true ∧ ¬ s.limitNow < s.cfg.contract.limit ∧ low.limitNow < low.cfg.contract.limit ∧
    ((after [.boundaryExpiry] s).que.settlements.map fun r => (r.imbalance, r.curtailed, r.minLimit, r.flags.curtailed)) =
      [(some (-298), 40, 0, true)] ∧
    (after [.boundaryExpiry] s).esu.curtailedSince = some 100 ∧
    s.publishLimit.que.interval.map (·.curtailed) = some 40 ∧ s.publishLimit.esu.curtailedSince = none ∧
    low.publishLimit.esu.curtailedSince = some 60 := by decide +kernel

/-- Empty queues, the oldest number, another number, and a bill queue of 96 with a closing set that waits. -/
theorem test_witness_queues :
    let led : Ledger := { Ledger.default with closing := some (.opened (some 0) 1) }
    let waiting : State := { queued with
      que := { queued.que with bills := (List.range 96).map fun i => bill (BitVec.ofNat 32 (i + 1)), nextBill := 97 }
      acc := { queued.acc with ledgers := queued.acc.ledgers.set 5 led } }
    queued.working = true ∧ State.reset.que.settlements = [] ∧ State.reset.que.bills = [] ∧
    queued.firstClosing = none ∧ waiting.firstClosing = some 5 ∧ (waiting.que.bills.drop 1).length = 95 ∧
    State.status (after [.releaseSettlementRecord 0xFFFFFFFF] queued) = some .ok ∧
    State.status (after [.releaseSettlementRecord 0] queued) = some .badField ∧
    State.status (after [.releaseBill 2] queued) = some .badField ∧
    State.status (after [.releaseBill 1] queued) = some .ok := by decide +kernel

/-- A release with BILL_QUEUE_FULL standing, where the set that takes the place is the last to wait, and where it is not. -/
theorem test_witness_release_ends_full :
    let led : Ledger := { Ledger.default with closing := some (.opened (some 0) 1) }
    let waiting (l : Ledger) : State := { queued with
      que := { queued.que with bills := (List.range 96).map fun i => bill (BitVec.ofNat 32 (i + 1)), nextBill := 97 }
      acc := { queued.acc with ledgers := (queued.acc.ledgers.set 5 led).set 7 l }
      bu := { queued.bu with queueFull := true }
      conditions := queued.conditions.set 0 (some { entry .billQueueFull 1 .active true with latch := .selfClearing }) }
    let t (l : Ledger) : State := after [.releaseBill 1] (waiting l)
    (waiting led).working = true ∧ (waiting led).firstClosing = some 5 ∧ (t .default).bu.queueFull = false ∧
    (t .default).entries = [] ∧ (t led).bu.queueFull = true ∧ (t led).entries.length = 1 := by decide +kernel

/-! ### Witnesses: heat and billing -/

theorem test_witness_substation_service :
    let s (x : SubstationState) : State := substation { metered with state := x }
    let disputed : State := substation { metered with state := .disconnected, pendingMark := some { reading := 0, time := 1 } }
    numbered 48 1 = some 0 ∧ numbered 48 48 = some 47 ∧ (s .fresh).working = true ∧
    (readSubstation 7 1 2000000 2000000).isSome ∧ readSubstation 7 5 3600 90 = none ∧
    (s .fresh).cfg.substations[(47 : Substation)] = none ∧ (s .fresh).cfg.substations[(0 : Substation)] ≠ none ∧
    State.status (after [.configureSubstation 1 8 1 3600 90] (s .inService)) = some .busy ∧
    State.status (after [.configureSubstation 1 8 1 3600 90] (s .disconnected)) = some .ok ∧
    State.status (after [.connect 1] (s .disconnected)) = some .ok ∧ State.status (after [.connect 1] disputed) = some .busy ∧
    State.status (after [.connect 1] (s .estimating)) = some .busy ∧ State.status (after [.connect 1] (s .fresh)) = some .ok ∧
    State.status (after [.disconnect 1] disputed) = some .busy ∧
    State.status (after [.disconnect 0] disputed) = some .badField ∧
    State.status (after [.connect 49] disputed) = some .badField ∧
    State.status (after [.configureSubstation 49 7 1 3600 90] disputed) = some .badField ∧
    ((after [.disconnect 1] (s .estimating)).acc.meters[(0 : Substation)]).state = .disconnected ∧
    ((after [.disconnect 1] (s .inService)).acc.meters[(0 : Substation)]).state = .disconnected := by decide +kernel

/-- A dispute over a reading of 40 against 99,999,950, with and without a reconciliation of 100 kWh pending. -/
theorem test_witness_meter_jump :
    let m : SubstationAccount := { metered with pendingMark := some { reading := 40, time := 10 }, gapTotal := 100 }
    let s (b : Bool) : State := { substation { m with reconciliation := b } with
      conditions := State.reset.conditions.set 0 (some (entry .meterJump 1 .active false)) }
    (s true).working = true ∧ numbered 48 1 = some 0 ∧ m.pendingMark = some { reading := 40, time := 10 } ∧
    m.reference = some { reading := 99999950, time := 0 } ∧ metered.pendingMark = none ∧ 40 < 100000000 ∧
    ((after [.accept 1] (s false)).acc.ledgers[(0 : Substation)]).booked = 90 ∧
    ((after [.accept 1] (s true)).acc.ledgers[(0 : Substation)]).booked = BitVec.ofInt 64 (-10) ∧
    ((after [.reject 1] (s true)).acc.ledgers[(0 : Substation)]).current.rejected = 90 ∧
    (after [.accept 1] (s true)).entries = [] ∧ (after [.reject 1] (s true)).entries = [] ∧
    (s true).entryOf { cls := .meterJump, source := 1 } = some (entry .meterJump 1 .active false) ∧
    (s true).bookingBand 0 = 0 := by decide +kernel

theorem test_witness_estimation :
    let s : State := { substation { metered with state := .estimating, remainder := 30 } with
      hmu := { State.reset.hmu with minuteDue := true } }
    let watched : State := { substation metered with osc := 60 }
    s.working = true ∧ s.hmu.minuteDue = true ∧ (substation metered).hmu.minuteDue = false ∧
    s.cfg.substations[(0 : Substation)].isSome ∧ watched.hmu.watchDue = some 60 ∧ 60 ≤ watched.osc ∧
    (substation metered).osc < 60 ∧ watched.usable (.heatMeter 0) = false ∧
    ((after [.estimationMinute] s).acc.meters[(0 : Substation)]).gapTotal = 2 ∧
    ((after [.estimationMinute] s).acc.meters[(0 : Substation)]).remainder = 0 ∧
    ((after [.startUpWatchExpiry] watched).acc.meters[(0 : Substation)]).state = .estimating ∧
    ((after [.estimationMinute] s).acc.ledgers[(0 : Substation)]).current.bands[0].estimated = 2 ∧
    (after [.startUpWatchExpiry] watched).entries.map (·.key) = [{ cls := .substationEstimating, source := 1 }] ∧
    watched.HasRoom [{ cls := .substationEstimating, source := 1 }] ∧ watched.ConditionsLegal := by
  refine ⟨?_, ?_, ?_, ?_, ?_, ?_, ?_, ?_, ?_, ?_, ?_, ?_, ?_, ?_, empty_legal rfl rfl⟩ <;> decide +kernel

/-- A reading at the plausibility limit of 60 s at 3,600 kW, 61 kWh, and one above it. -/
theorem test_witness_readings :
    let s := substation metered
    s.cfg.substations[(0 : Substation)].isSome ∧ (s.acc.meters[(0 : Substation)]).state = .inService ∧
    (s.acc.meters[(0 : Substation)]).pendingMark = none ∧ s.dsp.fraction ≤ 1000 ∧
    ((s.arrival (.heatMeter 0) (.meter 11 5) 60).acc.ledgers[(0 : Substation)]).booked = 61 ∧
    ((s.heatArrival 0 12 5 60).acc.meters[(0 : Substation)]).pendingMark = some { reading := 12, time := 60 } ∧
    3600 * (60 - 0) / 3600 + 1 = 61 := by decide +kernel

/-- A reading in each other state: DISCONNECTED, NEW, in a dispute; and at the meter's return, at the limit and above. -/
theorem test_witness_reading_states :
    let s (x : SubstationState) (pending : Option MeterMark) : State :=
      substation { metered with state := x, pendingMark := pending, gapTotal := 100 }
    let mark : MeterMark := { reading := 11, time := 60 }
    (s .disconnected none).heatArrival 0 11 5 60 = s .disconnected none ∧
    (((s .fresh none).heatArrival 0 11 5 60).acc.meters[(0 : Substation)]).reference = some mark ∧
    (((s .inService (some mark)).heatArrival 0 12 5 61).acc.meters[(0 : Substation)]).pendingMark =
      some { reading := 12, time := 61 } ∧
    (((s .estimating (some mark)).heatArrival 0 12 5 61).acc.meters[(0 : Substation)]).reconciliation = true ∧
    (((s .estimating none).heatArrival 0 11 5 60).acc.ledgers[(0 : Substation)]).booked = BitVec.ofInt 64 (-39) ∧
    (((s .estimating none).heatArrival 0 12 5 60).acts.map (·.key.cls)) = [.substationEstimating, .meterJump] ∧
    (s .inService none).clock.valid = false ∧ (openAt 7400).clock.valid = true := by decide +kernel

theorem test_witness_tariff :
    let staged : State := { State.reset with cfg := { State.reset.cfg with pendingTariff := some .default } }
    (readTariff (rawTariff rawGroup)).isSome ∧ readTariff (rawTariff { rawGroup with standing := 100000001 }) = none ∧
    State.reset.cfg.pendingTariff = none ∧ staged.cfg.pendingTariff ≠ none ∧ staged.working = true ∧
    ascendingDates [{ year := 2026, month := 12, day := 25 }, { year := 2026, month := 12, day := 25 }] = false ∧
    (RawDate.date { year := 2100, month := 2, day := 29 }).isReal = false ∧
    State.status (after [.setHolidays 0x60 [{ year := 2026, month := 12, day := 25 }, { year := 2027, month := 1, day := 1 }]]
      State.reset) = some .ok ∧
    State.status (after [.setHolidays 0 [{ year := 2026, month := 2, day := 29 }]] State.reset) = some .badField := by
  decide +kernel

/-- A close a second time in one second, none due, and one month's close due from the close mark on. -/
theorem test_witness_closes :
    let s (reading : Nat) : State := { openAt reading with acc := { State.reset.acc with closeMark := some 0 } }
    let closed : State := { State.reset with bu := { State.reset.bu with closedNow := true } }
    closed.working = true ∧ closed.bu.closedNow = true ∧ State.reset.bu.closedNow = false ∧ State.reset.clock.valid = false ∧
    (s 0).clock.valid = true ∧ (s 0).acc.closeMark = some 0 ∧ (s 0).cfg.pendingTariff = none ∧
    dueCloses (s 0).cfg.tariff 0 (86400 * 31 - 1) = [] ∧ dueCloses (s 0).cfg.tariff 0 (86400 * 31) = [86400 * 31] := by
  decide +kernel

/-- A close due on 1 February by the table in force, and one on 2 February by the staged table it brings into force: two closes
at one expiry, at one Set Time, and at one Set Local Offset. -/
theorem test_witness_second_close :
    let s (reading : Nat) : State := { openAt reading with
      cfg := { State.reset.cfg with pendingTariff := some { Tariff.default with closeDay := 2 } }
      acc := { State.reset.acc with closeMark := some 0 } }
    let now := 86400 * 32 + 10
    let figures (t : State) : Nat × Option Int × Bool := (t.acc.period, t.acc.closeMark, t.cfg.pendingTariff.isSome)
    (s now).working = true ∧ dueCloses (s now).cfg.tariff 0 now = [86400 * 31] ∧
    dueCloses ((s now).cfg.pendingTariff.getD (s now).cfg.tariff) (86400 * 31) now = [86400 * 32] ∧
    figures (after [.closeExpiry] (s now)) = (3, some (86400 * 32), false) ∧
    figures (setTimeOwner (BitVec.ofNat 32 now) (s 7300)).2 = (3, some (86400 * 32), false) ∧
    figures (setLocalOffsetOwner 60 (s (86400 * 32 - 3590))).2 = (3, some (86400 * 32), false) := by decide +kernel

theorem test_close_period_now : (after [.closePeriodNow] billed).acc.period = 2 ∧
    ((after [.closePeriodNow] billed).que.bills.map fun b => (b.sequence, b.first, b.last)) = [(1, 1, 1)] := by
  decide +kernel

/-- A close with the bill queue full: the set waits, and BILL_QUEUE_FULL is raised. -/
theorem test_witness_close_with_full_queue :
    let full : State := { billed with que := { billed.que with
      bills := (List.range 96).map (fun i => bill (BitVec.ofNat 32 (i + 1))), nextBill := 97 } }
    let t := after [.closePeriodNow] full
    full.bu.closedNow = false ∧ heldBy (fun k => (full.closedLedger k 1 0).closing) = [0] ∧
    billedNow full.que.bills (fun k => (full.closedLedger k 1 0).closing) = [] ∧
    billedNow billed.que.bills (fun k => (billed.closedLedger k 1 0).closing) = [0] ∧
    (t.acc.ledgers[(0 : Substation)]).closing.isSome ∧ t.bu.queueFull = true ∧
    t.entries.map (·.key.cls) = [.billQueueFull] := by decide +kernel

/-- A substation that takes part, with and without a closing set, and one that does not. -/
theorem test_witness_close_prices :
    let merged : State := billed.setLedger 0 { billed.acc.ledgers[0] with closing := some (.opened (some 0) 1) }
    billed.takesPart 0 = true ∧ (billed.acc.ledgers[(0 : Substation)]).closing = none ∧ merged.takesPart 0 = true ∧
    (merged.acc.ledgers[(0 : Substation)]).closing.isSome ∧ billed.takesPart 1 = false ∧ 0 < 2 ∧
    ((merged.closedLedger 0 2 9).closing.map fun x => (x.first, x.last, x.finish, x.flags.merged)) =
      some (1, some 2, some 9, true) ∧
    (((billed.setMeter 0 { metered with pendingMark := some { reading := 0, time := 0 } }).closedLedger 0 1 9).closing.map
      (·.flags.disputeOpen)) = some true := by decide +kernel

/-! ### Witnesses: Condition Table -/

theorem tabled_legal : tabled.ConditionsLegal :=
  ⟨by decide +kernel, by decide +kernel, by decide +kernel, by decide⟩

/-- A full table: places 1 to 127 hold entries of classes and sources of their own. -/
def crowded : State :=
  { State.reset with conditions := Vector.ofFn fun i =>
      if i = fullPlace then none else some (entry .pointFailed (i.val + 1) .active true) }

theorem test_witness_raises : tabled.conditions[(0 : Fin 128)] = some (entry .timeStep 1 .latched false) ∧
    ({ cls := .timeStep, source := 1 } : ConditionKey) ≠ conditionTableFullKey ∧
    tabled.conditions[(2 : Fin 128)] = none ∧ tabled.placeOf { cls := .boilerTrip, source := 1 } = none ∧
    (∀ j : Fin 128, j ≠ fullPlace → crowded.conditions[j] ≠ none) ∧
    ((crowded.raise .boilerTrip 1).conditions[fullPlace]).map (·.key) = some conditionTableFullKey := by decide +kernel

/-- The end of a cause: METER_JUMP and a fetched self-clearing entry leave the table, a latching one is LATCHED; the first
entry to leave a full table ends the cause of CONDITION_TABLE_FULL. -/
theorem test_witness_cause_ends :
    let with_ (e : ConditionEntry) : State := State.reset.setPlace 0 (some e)
    let fetched : ConditionEntry := { entry .channelLost 96 .active true with latch := .selfClearing }
    let full := ((crowded.setPlace 5 (some fetched)).setPlace 127 (some (entry .conditionTableFull 1 .active true)))
    let ended := full.endCause .channelLost 96
    ((with_ (entry .meterJump 48 .active false)).endCause .meterJump 48).entries = [] ∧
    ((with_ fetched).endCause .channelLost 96).entries = [] ∧
    (((with_ (entry .timeStep 1 .active true)).endCause .timeStep 1).entries.map (·.state)) = [.latched] ∧
    (with_ (entry .timeStep 1 .latched true)).endCause .timeStep 1 = with_ (entry .timeStep 1 .latched true) ∧
    State.reset.entryOf { cls := .timeStep, source := 1 } = none ∧ full.freePlace = none ∧
    ended.conditions[(5 : Fin 128)] = none ∧ (ended.conditions[fullPlace]).map (·.state) = some .latched ∧
    ended.conditions[fullPlace] = full.fullEntryAfter := by decide +kernel

/-- A fetch and a clear that take the first entry out of a full table. -/
theorem test_witness_full_table_ends :
    let gone : ConditionEntry := { entry .channelLost 96 .latched false with latch := .selfClearing }
    let full := ((crowded.setPlace 5 (some gone)).setPlace 127 (some (entry .conditionTableFull 1 .active true)))
    full.working = true ∧ full.freePlace = none ∧
    ((after [.fetchCondition] full).conditions[fullPlace]).map (·.state) = some .latched ∧
    ((after [.clearCondition 13 96] full).conditions[fullPlace]).map (·.state) = some .latched := by decide +kernel

/-- No entry waits; the one of highest priority does; a fetch that removes; clears of every outcome. -/
theorem test_witness_fetch_and_clear :
    let ended : State := State.reset.setPlace 3 (some { entry .channelLost 96 .latched false with latch := .selfClearing })
    tabled.working = true ∧ tabled.ConditionsLegal ∧ State.status (after [.fetchCondition] State.reset) = some .empty ∧
    ((after [.fetchCondition] tabled).entryOf { cls := .timeStep, source := 1 }).map (·.notified) = some true ∧
    (entry .conditionTableFull 1 .active false).precedes (entry .timeStep 1 .latched false) = false ∧
    (after [.fetchCondition] ended).entries = [] ∧ 20 < (21 : Byte).toNat ∧ readClass 20 = some .conditionTableFull ∧
    readClass 6 = some .pointFailed ∧ ConditionClass.pointFailed.lastSource < (129 : Byte).toNat ∧
    State.status (after [.clearCondition 18 1] tabled) = some .ok ∧
    State.status (after [.clearCondition 6 128] tabled) = some .stillPresent ∧
    State.status (after [.clearCondition 6 127] tabled) = some .notFound :=
  ⟨by decide +kernel, tabled_legal, by decide +kernel, by decide +kernel, by decide +kernel, by decide +kernel, by decide,
    by decide, by decide, by decide, by decide +kernel, by decide +kernel, by decide +kernel⟩

/-- Clearing BOILER_TRIP releases a LATCHED-mode boiler that is TRIPPED (R82). -/
theorem test_witness_clear_releases :
    let s := plantWith fun q => { q with state := .tripped, run := some .gas }
    let s : State := { s with
      cfg := { s.cfg with boilers := s.cfg.boilers.set 0 (some { boiler with restart := .latched }) }
      conditions := s.conditions.set 0 (some (entry .boilerTrip 1 .latched true)) }
    s.restartMode 0 = .latched ∧ (s.boilers[0]).state = .tripped ∧
    ((after [.clearCondition 2 1] s).boilers[0]).state = .off := by decide +kernel

theorem test_witness_mask_and_latch : State.reset.powered = true ∧ State.reset.working = true ∧
    (0x000FFFFF : Word).toNat < 2 ^ 20 ∧ 2 ^ 20 ≤ (0x00100000 : Word).toNat ∧ readLatch 1 = some .selfClearing ∧
    1 < (2 : Byte).toNat ∧ State.status (after [.setLatchMode 5 0] State.reset) = some .badField ∧
    tabled.alertLine = some true ∧ crowded.faultOutput = some true ∧
    (after [.setFaultMask 0x20] crowded).faultOutput = some false := by decide +kernel

/-! ### Witnesses: the ranges of requests, at their bounds and one past them -/

/-- The status of each of some commands at a state. -/
def statuses (s : State) (l : List Instr) : List (Option Status) := l.map fun i => State.status (after [i] s)

/-- R38: each figure at its bounds, and past each bound. -/
theorem test_witness_plant_bounds :
    let f : RawPlant :=
      { period := 1, idleLimit := 255, conversion := 150, turbineMax := 2000000, ownUse := 200000, exchanger := 2000000,
        loss := 200000, stageSize := 1 }
    statuses State.reset ([f, { f with period := 30, conversion := 450, stageSize := 1000000 }].map .setPlantParameters) =
      List.replicate 2 (some .ok) ∧
    statuses State.reset ([{ f with period := 0 }, { f with period := 31 }, { f with conversion := 149 },
      { f with conversion := 451 }, { f with turbineMax := 2000001 }, { f with ownUse := 200001 },
      { f with exchanger := 2000001 }, { f with loss := 200001 }, { f with stageSize := 0 },
      { f with stageSize := 1000001 }].map .setPlantParameters) = List.replicate 10 (some .badField) := by decide +kernel

/-- R40: each figure at its bounds, and past each bound. -/
theorem test_witness_boiler_bounds :
    let f : RawBoiler := { rawBoiler with boiler := 8 }
    let g : RawBoiler :=
      { boiler := 1, minimum := 1, maximum := 1, ramp := 1, yield := 500, auxFitted := 1, purge := 30, lightOff := 5,
        interval := 2, reference := 0, window := 86400, tripLimit := 5, restart := 0 }
    statuses State.reset ([f, g].map .configureBoiler) = List.replicate 2 (some .ok) ∧
    statuses State.reset ([{ f with boiler := 0 }, { f with boiler := 9 }, { f with minimum := 0 },
      { f with maximum := 2000001 }, { f with minimum := 9, maximum := 8, ramp := 1 }, { f with ramp := 0 },
      { f with maximum := 8, ramp := 9 }, { f with yield := 499 }, { f with yield := 951 }, { f with auxFitted := 2 },
      { f with purge := 29 }, { f with purge := 601 }, { f with lightOff := 4 }, { f with lightOff := 61 },
      { f with interval := 1 }, { f with interval := 31 }, { f with reference := 2 }, { f with window := 599 },
      { f with window := 86401 }, { f with tripLimit := 0 }, { f with tripLimit := 6 },
      { f with restart := 2 }].map .configureBoiler) = List.replicate 22 (some .badField) := by decide +kernel

/-- Sections 2.2 and 2.3 and R29: each figure at its bounds, and past each bound. -/
theorem test_witness_holder_bounds :
    let f : RawHolder :=
      { capacity := 1000000, bandLow := 0, bandHigh := 1000000, recovery := 60, normalLow := 0, normalHigh := 1000000,
        reducedLow := 0, reducedHigh := 20001, hysteresis := 10000, filter := 1, drawFallback := 2000000, cvDefault := 40000 }
    let g : RawHolder := { f with recovery := 3600, filter := 60, hysteresis := 1, reducedHigh := 3, cvDefault := 1 }
    statuses State.reset ([f, g].map .configureHolder) = List.replicate 2 (some .ok) ∧
    statuses State.reset ([{ f with capacity := 0 }, { f with capacity := 1000001 }, { f with bandLow := 1000000 },
      { f with bandHigh := 1000001 }, { f with recovery := 59 }, { f with recovery := 3601 }, { f with hysteresis := 0 },
      { f with hysteresis := 10001 }, { f with filter := 0 }, { f with filter := 61 }, { f with normalHigh := 1000001 },
      { f with reducedHigh := 20000 }, { f with normalLow := 1000000 }, { f with drawFallback := 2000001 },
      { f with cvDefault := 0 }, { f with cvDefault := 40001 }].map .configureHolder) = List.replicate 16 (some .badField) := by
  decide +kernel

/-- R9 and R10: requests that carry a configuration, allowed and not, by each of its relations; and a role held back. -/
theorem test_witness_point_bounds :
    let s : State := { plant with cfg := { plant.cfg with
      channels := (plant.cfg.channels.set 94 { kind := .meter, silence := 10 }).set 95 { kind := .meter, silence := 10 } } }
    let f : RawPoint :=
      { role := 4, instanceNo := 1, primary := 2, alternateA := 3, alternateB := 4, multiplier := 65535, divisor := 1,
        low := -5, high := -5, hold := 3600 }
    let status : RawPoint :=
      { role := 5, instanceNo := 1, primary := 1, alternateA := 0xFF, alternateB := 0xFF, multiplier := 1, divisor := 1,
        low := 0, high := 0, hold := 0 }
    let meter : RawPoint := { status with role := 8, instanceNo := 48, primary := 96, hold := 3600 }
    let c : PointConfig := { point .holderLevel 1 with
      alternateA := some 2, alternateB := some 3, multiplier := 65535, low := -5, high := -5, hold := 3600 }
    let answer (x : RawPoint) : Status := (configurePointOwner 128 x s).1.status
    c.CarriedBy f ∧ s.PointAllowed 127 c ∧ ¬ s.PointAllowed 127 { c with divisor := 0 } ∧
    (burning.boilers[(0 : Boiler)]).state ≠ .off ∧
    [f, status, meter, { f with role := 3, alternateB := 0xFF }].map answer = List.replicate 4 .ok ∧
    [{ f with role := 9 }, { f with role := 0, instanceNo := 7 }, { f with instanceNo := 2 },
      { f with primary := 0 }, { f with primary := 97 }, { f with alternateA := 0xFF }, { f with alternateB := 2 },
      { f with alternateA := 2 }, { f with alternateB := 3 }, { f with alternateB := 96 }, { f with multiplier := 0 },
      { f with divisor := 0 }, { f with low := -4 }, { f with hold := 3601 }, { status with hold := 1 },
      { status with high := 1 }, { meter with alternateA := 95 }, { meter with multiplier := 2 },
      { meter with instanceNo := 49 },
      { status with role := 6, instanceNo := 1 }].map answer = List.replicate 20 .badField := by
  refine ⟨?_, ?_, ?_, ?_, ?_, ?_⟩ <;> decide +kernel

/-- Sections 5.1 and 7.1 and R118: contracts and substations at their bounds, and past each bound. -/
theorem test_witness_contract_and_substation_bounds :
    statuses State.reset [.setExportContract 2000000 5 120, .setExportContract 0 15 0, .setExportContract 0 30 0,
      .setExportContract 0 60 0, .configureSubstation 48 0 4 2000000 2000000, .configureSubstation 1 0 1 1 0] =
      List.replicate 6 (some .ok) ∧
    statuses State.reset [.setExportContract 2000001 5 0, .setExportContract 0 10 0, .setExportContract 0 0 0,
      .setExportContract 0 60 121, .configureSubstation 0 0 1 1 0, .configureSubstation 49 0 1 1 0,
      .configureSubstation 1 0 0 1 0, .configureSubstation 1 0 5 1 0, .configureSubstation 1 0 1 0 0,
      .configureSubstation 1 0 1 2000001 0, .configureSubstation 1 0 1 5 6] = List.replicate 11 (some .badField) := by
  decide +kernel

/-- Section 8.1: tables at their bounds, and past each bound. -/
theorem test_witness_tariff_bounds :
    let g : RawGroup :=
      { workday := List.replicate 24 4, rest := List.replicate 24 1, recovered := List.replicate 4 1000000,
        auxiliary := List.replicate 4 0, standing := 100000000 }
    let t : RawTariff := { rawTariff g with closeDay := 28, closeHour := 23 }
    let last (x : RawGroup) : RawTariff := { t with group4 := x }
    statuses State.reset [.stageTariff t] = [some .ok] ∧
    statuses State.reset ([{ t with closeDay := 0 }, { t with closeDay := 29 }, { t with closeHour := 24 },
      last { g with workday := List.replicate 23 4 ++ [5] }, last { g with rest := List.replicate 23 1 ++ [0] },
      last { g with recovered := [0, 0, 0, 1000001] }, last { g with auxiliary := [1000001, 0, 0, 0] },
      last { g with standing := 100000001 }].map .stageTariff) = List.replicate 8 (some .badField) := by decide +kernel

/-! ### Witnesses: replies -/

/-- The contents of the last answer. -/
def contents (s : State) : List Byte := s.hlu.answer.elim [] (·.contents)

/-- R170: 46h, 0640h, 3, 512, three regions SOUND. R173: clock reading 7,400 with offset 0 is Saturday 2000-01-01 02:03:20. -/
theorem test_identify_and_time :
    contents (after [.identify] State.reset) = [0x46, 0x40, 0x06, 3, 0, 2, 0, 0, 0] ∧
    (contents (after [.readTime] (openAt 7400))).take 15 = [0xE8, 0x1C, 0, 0, 0, 0, 0, 0xD0, 7, 1, 1, 2, 3, 20, 5] := by
  decide +kernel

/-- R7, 12.3: a LIVE STATUS channel with silence limit 10 s, its FLAME sample GOOD at reading 0; the timer on its last second.
R19: the BOILER_STATUS point of boiler 1 on it; and an UNCONFIGURED slot. -/
theorem test_channel_and_point :
    contents (after [.readChannel 1] { plant with osc := 3 }) =
      [1, 10, 0, 0, 0] ++ [1, 1, 0] ++ [1, 0, 0, 0, 0] ++ [1, 7, 0, 0, 0] ∧
    contents (after [.readPoint 1] plant) =
      [6, 1, 1, 0xFF, 0xFF, 1, 0, 1, 0] ++ List.replicate 10 0 ++ [2, 0] ++ [1, 1, 0, 0, 0, 0] ++ [0] ++ List.replicate 5 0 ∧
    (contents (after [.readPoint 2] plant)).take 21 = [0xFF, 0, 0xFF, 0xFF, 0xFF] ++ List.replicate 14 0 ++ [0, 0xFF] := by
  decide +kernel

/-- 12.4: the Request part of a result without a request, with one, and under case 1 of the shed choice. -/
theorem test_request_bytes :
    let r := plant.cycleResult plant.gasFigures
    let part (x : SentRequest) : List Byte := ({ r with request := x } : DispatchResult).bytes.drop 273
    part (.one .returnGas 7) = [3, 8, 0] ∧ part (.shedAll [0, 2]) = [0, 0, 5] ∧
    ((part .nothing).take 1, (part .nothing).drop 2) = ([0xFF], [0]) := by decide +kernel

/-- R94: the state of `test_witness_missing` at 7200, whose missing interval starts at 9000, and whose next gate is that of
9900; both spelled as the statement asks for them. -/
theorem test_witness_read_nominations :
    let s : State := { openAt 7200 with
      cfg := { State.reset.cfg with contract := { limit := 0, length := 15, lead := 30 } }
      que := { (openAt 7200).que with nominations := [{ start := 8100, energy := 1 }] } }
    s.working = true ∧ 0 < s.cfg.contract.length ∧ s.clock.valid = true ∧
    OnGrid s.cfg.intervalSeconds s.clock.offset s.esu.intervalEnd ∧ ([9000] : List Int).Pairwise (· < ·) ∧
    (∀ iv, s.que.interval = some iv → iv.start < s.esu.intervalEnd ∧ ∀ t, t ∈ ([9000] : List Int) ↔ s.Missing iv t) ∧
    s.NextGate 9900 ∧ State.reset.que.interval = none ∧
    contents (after [.readNominations] s) = [0, 0, 0, 0, 15, 30, 1] ++ [1, 0x20, 0x1C, 0, 0, 0xA4, 0x1F, 0, 0] ++
      [1, 0x2C, 1, 0, 0] ++ [1, 0xA4, 0x1F, 0, 0, 1, 0, 0, 0] ++ [1, 0xA4, 0x1F, 0, 0, 0xAC, 0x26, 0, 0] ++
      [1, 1, 0x28, 0x23, 0, 0] := by
  refine ⟨by decide +kernel, by decide, by decide, by decide, by decide, fun iv h => ?_, ?_, by decide, by decide +kernel⟩
  · cases h
    refine ⟨by decide, fun t => ?_⟩
    simp [State.Missing, ConfigRegion.intervalSeconds, openAt, State.reset]
    omega
  · refine ⟨by decide, fun u h => ?_⟩
    simp [ConfigRegion.intervalSeconds, openAt, State.reset] at h
    omega

/-- The calendar's dates at the ends of the clock's range, and about the leap day of 2000. -/
theorem test_witness_read_time :
    ({ year := 1999, month := 12, day := 31 } : Date).number = -1 ∧ ({ year := 2000, month := 3, day := 1 } : Date).number = 60 ∧
    ({ year := 2001, month := 1, day := 1 } : Date).number = 366 ∧
    ({ year := 2136, month := 1, day := 1 } : Date).number = (4291747199 + 60 * 840) / 86400 ∧
    ({ year := 2000, month := 1, day := 1 } : Date).number = (7400 + 60 * (openAt 7400).clock.offset) / 86400 := by decide

/-- The replies of a running plant carry the items of their rules, and one with a byte changed does not. -/
theorem test_witness_replies :
    let s := queued
    let entries := { tabled with cfg := { tabled.cfg with faultMask := 0x20 } }
    carries (overridden.curtailmentItems) (contents (after [.readCurtailments] overridden)) = true ∧
    carries (entries.conditionItems 1) (contents (after [.readConditions 2] entries)) = true ∧
    carries (billed.substationItems 0) (contents (after [.readSubstation 1] billed)) = true ∧
    carries (burning.boilerItems 0) (contents (after [.readBoiler 1] burning)) = true ∧
    carries (bill 1).items (contents (after [.fetchBill] s)) = true ∧
    carries (record 0xFFFFFFFF).items (contents (after [.fetchSettlementRecord] s)) = true ∧
    carries State.reset.identifyItems [0x46, 0x40, 0x06, 3, 0, 2, 0, 0, 1] = false ∧
    ReadingFits ((billed.acc.meters[(0 : Substation)]).reference.map (·.reading)) := by decide +kernel

/-- Fetch Condition hands over the entry of highest priority with the number still waiting. -/
theorem test_witness_fetch_reply :
    let ended : State := State.reset.setPlace 3 (some { entry .channelLost 96 .latched false with latch := .selfClearing })
    let two := ended.setPlace 4 (some (entry .timeStep 1 .latched false))
    contents (after [.fetchCondition] two) = [13, 96, 1, 1, 0, 0, 0, 0, 0, 0, 0, 0, 0, 1] ++ [1, 1] := by decide +kernel

/-! ### Witnesses: setpoint frames, PLANT RELEASE, removals, the restart -/

/-- A line that is free, one with a frame of another boiler waiting, and one with a frame of this boiler. -/
theorem test_witness_line :
    let f (b : Boiler) (x : Nat) : SetpointFrame := { boiler := b, fuel := some .gas, demand := x, cycle := 1 }
    lineTakes (none, []) (f 0 5) = (some (f 0 5), []) ∧
    lineTakes (some (f 0 5), [f 1 6]) (f 0 7) = (some (f 0 5), [f 1 6, f 0 7]) ∧
    lineTakes (some (f 0 5), [f 1 6, f 0 7]) (f 1 8) = (some (f 0 5), [f 1 8, f 0 7]) ∧
    burning.SetpointsLegal ∧ burning.dsp.lastCycle + burning.cfg.plant.period ≤ burning.osc ∧
    burning.dispatchCycle.dsp.sending.map (fun x => (x.boiler, x.fuel, x.cycle)) = some (0, some .gas, 1) ∧
    (burning.queueFrame 0 (some .gas) 5).dsp.sending = some { f 0 5 with cycle := 0 } :=
  ⟨by decide, by decide, by decide, ⟨by decide +kernel, by decide +kernel, by decide +kernel⟩, by decide +kernel,
    by decide +kernel, by decide +kernel⟩

/-- TRIPPED and LOCKED_OUT boilers at the edges of PLANT RELEASE, with their marker set and clear, in either restart mode, with
room for every raise. -/
theorem test_witness_release_edges :
    let s (state : BoilerState) (marker release : Bool) (restart : RestartMode) (i : Indications) : State :=
      let u := served (plantWith fun q => { q with state := state, marker := marker, run := some .gas }) (.boilerStatus 0)
        .status (.status i)
      { u with
        plantRelease := release
        cfg := { u.cfg with boilers := u.cfg.boilers.set 0 (some { boiler with restart := restart }) } }
    let trip : ConditionKey := { cls := .boilerTrip, source := 1 }
    let keys : List ConditionKey := [{ cls := .plantReleaseLost, source := 1 }, trip, { cls := .boilerLockout, source := 1 }]
    let demand := { flameIn with tripDemand := true }
    let fallen (x : BoilerState) (m : Bool) : State := { s x m true .latched flameIn with plantRelease := false }.releaseFall
    let risen (x : BoilerState) (m : Bool) (r : RestartMode) (i : Indications) : State :=
      { s x m false r i with plantRelease := true }.releaseRise
    (s .tripped true true .latched flameIn).working = true ∧ (s .tripped true true .latched flameIn).HasRoom keys ∧
    (s .tripped true true .latched flameIn).ConditionsLegal ∧
    (fallen .tripped true).acts.map (·.key) = [{ cls := .plantReleaseLost, source := 1 }] ∧
    (fallen .lockedOut false).acts.map (·.key) = [{ cls := .plantReleaseLost, source := 1 }, trip] ∧
    ((fallen .lockedOut false).boilers[0]).marker = true ∧
    ((risen .lockedOut true .latched flameIn).boilers[0]).state = .lockedOut ∧
    ((risen .lockedOut true .latched flameIn).boilers[0]).marker = false ∧
    ((risen .tripped true .latched flameIn).boilers[0]).state = .off ∧
    ((risen .tripped true .autoRestart flameIn).boilers[0]).state = .purge ∧
    ((risen .tripped false .autoRestart demand).boilers[0]).marker = true ∧
    ((risen .tripped true .autoRestart demand).boilers[0]).state = .tripped := by
  refine ⟨?_, ?_, empty_legal rfl rfl, ?_, ?_, ?_, ?_, ?_, ?_, ?_, ?_, ?_⟩ <;> decide +kernel

/-- The ACTIVE order leaves with a SUSPENDED one and a WAITING one whose end has passed, at its end and at its cancelling; a
third one follows it. -/
theorem test_witness_passed_orders :
    let open_ (k : OrderKind) (x : OrderState) (n : Nat) : CurtailmentOrder := { order k x n with finish := none }
    let s (reading : Nat) : State := { openAt reading with que := { (openAt reading).que with
      orders := (((State.reset.que.orders.set 0 (some (order .emergency .active 1))).set 1
        (some (order .ordinary .suspended 2))).set 2 (some (order .ordinary .waiting 3))).set 3
        (some (open_ .ordinary .waiting 4)) } }
    let states (t : State) : List (Option OrderState) := (t.que.orders.toList.take 4).map (·.map (·.state))
    (s 7900).working = true ∧ (s 7900).que.OrdersLegal ∧ (s 7900).que.orders[(0 : CurtailmentSlot)] =
      some (order .emergency .active 1) ∧ ¬ (s 7900).MayFollow (order .ordinary .suspended 2) .suspended ∧
    (s 7899).MayFollow (order .ordinary .suspended 2) .suspended ∧
    states (after [.activeOrderEnd] (s 7900)) = [none, none, none, some .active] ∧
    states (after [.cancelCurtailment 1] (s 7900)) = [none, none, none, some .active] ∧
    states (after [.cancelCurtailment 1] (s 7899)) = [none, some .active, some .waiting, some .waiting] := by
  refine ⟨?_, ⟨?_, ?_, ?_, ?_, ?_⟩, ?_, ?_, ?_, ?_, ?_, ?_⟩ <;> decide +kernel

/-- SOUND regions at a power-on whose ACCOUNTS copy holds a closing set, where no close is due and where one is, by the table in
force and again by the staged one. -/
theorem test_witness_restart_books :
    let s (reading : Nat) (staged : Option Tariff) : State :=
      let u : State := { billed with
        clock := { reading := reading, valid := true, offset := 0 }, cfg := { billed.cfg with pendingTariff := staged } }
      let l := u.acc.ledgers[0]
      after [.powerFailure none] ((u.withConfig u.cfg).withAccounts { u.acc with
        ledgers := u.acc.ledgers.set 0 { l with closing := some l.current }, closeMark := some 0 })
    let a (t : State) : Option (Option Int × Bool) :=
      (t.store.accounts.found?).map fun a => (a.closeMark, (a.ledgers[(0 : Substation)]).closing.isSome)
    (s 5 none).powered = false ∧ (s 5 none).resetHeld = false ∧ a (s 5 none) = some (some 0, true) ∧
    ((s 5 none).store.config.contents .default).substations[(0 : Substation)].isSome ∧ dueCloses .default 0 5 = [] ∧
    dueCloses .default 0 (86400 * 31 + 5) = [86400 * 31] ∧ dueCloses .default (86400 * 31) (86400 * 31 + 5) = [] ∧
    dueCloses { Tariff.default with closeDay := 2 } (86400 * 31) (86400 * 32 + 5) = [86400 * 32] ∧
    billedNow [] (fun k => if k = 0 then some (.opened none 1) else none) = [0] := by decide +kernel

/-! ### Witnesses: closes during the meter wait, orders passed at a restart -/

/-- The open interval of `openAt` during a meter wait that holds a gap record of two hours, with some records in the queue. -/
def waiting (reading queued : Nat) : State :=
  let s := openAt reading
  let gap : GapRecord :=
    { start := 0, length := 7200, nominated := some 9, computed := 7199, curtailed := 0, minLimit := 0, flags := .afterGap,
      reference := none, estimated := true }
  { s with
    osc := 30
    que := { s.que with settlements := (List.range queued).map fun i => record (BitVec.ofNat 32 (i + 1)) }
    esu := { s.esu with
      missing := true
      wait := some { due := 60, stored := none, storedCurrent := none, swept := [], gap := some gap } } }

/-- What the records of a queue say: start, metered, imbalance, METER_ESTIMATED, TIME_STEP. -/
def recorded (t : State) : List (Int × Int × Option Int × Bool × Bool) :=
  t.que.settlements.map fun r => (r.start, r.metered, r.imbalance, r.flags.meterEstimated, r.flags.timeStep)

/-- R116: a boundary, a large step each way, a small step to the boundary, and the wrap, during the meter wait: the gap record
goes before the interval's, both from their computed figures; a small step back leaves the wait. -/
theorem test_witness_closes_in_the_wait :
    let both (stepped : Bool) : List (Int × Int × Option Int × Bool × Bool) :=
      [(0, 1, some (-8), true, false), (7200, 2, some (-298), true, stepped)]
    (waiting 8100 0).working = true ∧ (waiting 8100 0).gapHeld.isSome ∧ (waiting 8100 0).que.interval.isSome ∧
    recorded (after [.boundaryExpiry] (waiting 8100 0)) = both false ∧
    recorded (after [.setTime 8100] (waiting 8099 0)) = both false ∧
    recorded (after [.setTime 9000] (waiting 7400 0)) = both true ∧
    recorded (after [.setTime 7000] (waiting 7400 0)) = both true ∧
    recorded (waiting 4291747199 0).scheduleWrap = both true ∧
    (after [.boundaryExpiry] (waiting 8100 0)).esu.wait = none ∧ (waiting 4291747199 0).scheduleWrap.esu.wait = none ∧
    (after [.setTime 7399] (waiting 7400 0)).esu.wait.isSome := by
  refine ⟨?_, ?_, ?_, ?_, ?_, ?_, ?_, ?_, ?_, ?_, ?_⟩ <;> decide +kernel

/-- R112: at 190, 191 and 192 queued records, the two of such a boundary drop none, one and two, each counted. -/
theorem test_witness_two_drops :
    let overrun : ConditionKey := { cls := .settlementOverrun, source := 1 }
    let told (n : Nat) : Option Nat :=
      let t := (waiting 8100 n).boundaryExpiry
      ((t.acts.foldl State.takeAct t).entryOf overrun).map (·.raises)
    (waiting 8100 192).ConditionsLegal ∧
    (waiting 8100 192).HasRoom [overrun, { cls := .nominationMissing, source := 1 }] ∧
    told 190 = none ∧ told 191 = some 1 ∧ told 192 = some 2 := by
  refine ⟨empty_legal rfl rfl, ?_, ?_, ?_, ?_⟩ <;> decide +kernel

/-- R105, R116: a power-on at 9100 after the stored interval's end, with an order passed in the outage, one begun in it, and
entries for the intervals of 8100 and 9000: the gap record takes 300 and 40 kWh, the new interval 7 kWh. And a power-on while
RESET is held. -/
theorem test_witness_restart_gap :
    let u := withOrders (openAt 9100) (some (order .ordinary .active 1))
      (some { order .ordinary .pending 2 with start := 8000, finish := none })
    let u : State := { u with
      cfg := { u.cfg with contract := { u.cfg.contract with limit := 900 } }
      que := { u.que with nominations := [{ start := 8100, energy := 40 }, { start := 9000, energy := 7 }] } }
    let dark := after [.powerFailure none] ((u.withConfig u.cfg).withQueues u.que)
    let found : StoreFinding := { batteryLost := false, unsound := [] }
    let t := after [.powerOn found] dark
    let held := after [.powerOn found] { dark with resetHeld := true }
    dark.powered = false ∧ dark.resetHeld = false ∧
    (t.gapHeld.map fun g => (g.start, g.length, g.nominated, g.minLimit)) = some (7200, 1800, some 340, 0) ∧
    t.que.current = some 7 ∧ t.que.interval.map (fun iv => (iv.start, iv.minLimit)) = some (9000, 500) ∧
    (t.que.orders.toList.take 2).map (·.map (·.state)) = [none, some .active] ∧ t.esu.effLimit = 500 ∧
    held.powered = true ∧ held.running = false ∧ held.gasPermitLine 0 = some false ∧ held.faultOutput = some true := by
  refine ⟨?_, ?_, ?_, ?_, ?_, ?_, ?_, ?_, ?_, ?_, ?_⟩ <;> decide +kernel

/-- R175: the offset in force, sent again while the clock is VALID. -/
theorem test_witness_same_offset :
    (0 : Half).toInt = (openAt 7400).clock.offset ∧ (openAt 7400).clock.valid = true ∧
    after [.setLocalOffset 0] (openAt 7400) = (openAt 7400).answeredOk := by decide +kernel

/-! ### Witnesses: frames NONE, bytes of a field frame, lookups -/

/-- R57, R58: what the setpoint line takes at a trip out of LIGHTING, at the LL shed, at a changeover, at a STOP in phase
TAKEOVER, behind a frame under way, and none at a trip in phase DEAD. -/
theorem test_witness_frames_none :
    let none_ : SetpointFrame := { boiler := 0, fuel := none, demand := 0, cycle := 0 }
    let line (t : State) : Option SetpointFrame × List SetpointFrame := (t.dsp.sending, t.dsp.waiting)
    let lighting := plantWith fun q => { q with state := .lighting, run := some .gas, lightOffDue := some 100 }
    let takeover := plantWith fun q => { q with
      state := .changeover, phase := some .takeover, target := some .aux, auxPermit := true, lightOffDue := some 100 }
    let dead := plantWith fun q => { q with
      state := .changeover, phase := some .dead, target := some .aux, awaiting := true, confirmDue := some 100 }
    let other : SetpointFrame := { none_ with boiler := 3 }
    let busy (s : State) : State := { s with dsp := { s.dsp with sending := some other, waiting := [{ none_ with demand := 5 }] } }
    let low : State := { burning with gas := { burning.gas with lowLow := { state := .arming, due := some 100 } } }
    (busy burning).SetpointsLegal ∧ burning.burning = [0] ∧ lighting.burning = [0] ∧ takeover.burning = [0] ∧
    dead.burning = [] ∧
    line (after [.lightOffExpiry 0] lighting) = (some none_, []) ∧
    line (after [.stop 1] takeover) = (some none_, []) ∧ line (after [.stop 1] (busy burning)) = (some other, [none_]) ∧
    line (after [.changeover 1] burning) = (some none_, []) ∧ line (after [.filterExpiry .lowLow] low) = (some none_, []) ∧
    line ({ burning with plantRelease := false } : State).releaseFall = (some none_, []) ∧
    line ((served burning (.boilerStatus 0) .status (.status flameIn)).failedEvent (.boilerStatus 0)) = (some none_, []) ∧
    line (after [.confirmExpiry 0] dead) = (none, []) := by
  refine ⟨⟨?_, ?_, ?_⟩, ?_, ?_, ?_, ?_, ?_, ?_, ?_, ?_, ?_, ?_, ?_, ?_⟩ <;> decide +kernel

/-- R68: RESET_LOCKOUT with the trip marker set, and with it clear. -/
theorem test_witness_reset_lockout_causes :
    let s (marker : Bool) : State :=
      let u := plantWith fun q => { q with state := .lockedOut, marker := marker }
      (u.setPlace 0 (some (entry .boilerTrip 1 .active true))).setPlace 1 (some (entry .boilerLockout 1 .active true))
    let states (t : State) : List (Option EntryState) :=
      let t := t.acts.foldl State.takeAct t
      [t.entryOf { cls := .boilerTrip, source := 1 }, t.entryOf { cls := .boilerLockout, source := 1 }].map (·.map (·.state))
    (s true).working = true ∧ (s true).standingCause 0 = false ∧
    states (resetLockoutOwner 1 (s true)).2 = [some .latched, some .latched] ∧
    states (resetLockoutOwner 1 (s false)).2 = [some .active, some .latched] := by decide +kernel

/-- R1: after a channel byte, the kind bytes 0 and 4 discard the frame, 1 and 3 open its body; the fourth and the fifth byte of
a MEASURE body, and its check byte. -/
theorem test_witness_frame_bytes_kept :
    let line (x : FieldLine) (b : Byte) : FieldLine :=
      (after [.fieldLineByteReceived 0 b true] (State.reset.setLine 0 x)).lines[(0 : FieldLineNo)]
    let body (l : List Byte) : FieldLine := .body 96 1 l
    [0, 1, 3, 4].map (line (.awaitKind 96)) = [.hunting, body [], .body 96 3 [], .hunting] ∧
    line (body [1, 2, 3]) 4 = body [1, 2, 3, 4] ∧ line (body [1, 2, 3, 4]) 5 = body [1, 2, 3, 4, 5] ∧
    line (body [1, 2, 3, 4, 5]) 6 = .hunting := by decide +kernel

/-- 12.3, R2: the value −2 and 2^31 − 1 of a MEASURE body; the indications LOCAL and AVAILABLE; a METER body at its limits, above
the reading's, and above the rate's; the quality code 2. -/
theorem test_witness_bodies :
    readBody .measure [0xFE, 0xFF, 0xFF, 0xFF, 0] = { body := .measure (-2), quality := .good } ∧
    readBody .measure [0xFF, 0xFF, 0xFF, 0x7F, 2] = { body := .measure 2147483647, quality := .suspect } ∧
    readBody .status [0xF0, 0] = { body := .status { flameIn with flame := false, localControl := true, available := true },
                                   quality := .good } ∧
    readBody .meter [0xFF, 0xE0, 0xF5, 0x05, 0x80, 0x84, 0x1E, 0, 0] = { body := .meter 99999999 2000000, quality := .good } ∧
    (readBody .meter [0x00, 0xE1, 0xF5, 0x05, 0, 0, 0, 0, 0]).quality = .suspect ∧
    (readBody .meter [0, 0, 0, 0, 0x81, 0x84, 0x1E, 0, 0]).quality = .suspect := by decide +kernel

/-- R108, R47, R38: a steam-over cycle marks the open interval; Rg and Qr of a cycle with and without a shortage; the result that
new plant parameters publish is the dispatch expiry's under them. -/
theorem test_witness_published :
    let g (surplus : Int) : GasFigures := { burning.gasFigures with surplus := surplus }
    let onAux : State := { (plantWith fun q => { q with state := .firingAux }).setAllocation 0
      { gas := 0, aux := 1000, idle := 0 } with que := (openAt 7400).que }
    let f : RawPlant :=
      { period := 30, idleLimit := 0, conversion := 300, turbineMax := 0, ownUse := 60, exchanger := 0, loss := 0,
        stageSize := 1 }
    let raised (x : Int) : Nat × Nat :=
      ((burning.cycleResult (g x)).raised.remainingGas, (burning.cycleResult (g x)).raised.remainingHeadroom)
    (onAux.cycleResult onAux.gasFigures).flags.steamOver = true ∧ onAux.working = true ∧
    (after [.dispatchExpiry] onAux).que.interval.map (fun iv => (iv.flags.steamOver, iv.start)) = some (true, 7200) ∧
    raised 0 = (0, 0) ∧ (burning.cycleResult (g 0)).flags.shortage = true ∧ raised 5000 = (3500, 0) ∧
    (after [.setPlantParameters f] plant).dsp.result.map (·.heat.exported) = some (-60) := by
  refine ⟨?_, ?_, ?_, ?_, ?_, ?_, ?_⟩ <;> decide +kernel

/-- R139: Saturday 2000-01-01 02:03:20, hour 2 of the schedule of its day type: WORKDAY, REST by the mask's bit 5, and REST by the
holiday list; group 1 of a substation that is not configured, and group 4. -/
theorem test_witness_band :
    let group (work rest : Fin 4) : GroupTariff :=
      { (Tariff.default.groups[(0 : Fin 4)]) with
        workday := (Vector.replicate 24 0).set 2 work, rest := (Vector.replicate 24 0).set 2 rest }
    let s (mask : BitVec 7) (holidays : List Date) : State :=
      { openAt 7400 with cfg := { State.reset.cfg with
        restMask := mask
        holidays := holidays
        tariff := { Tariff.default with groups := (Vector.replicate 4 (group 1 2)).set 3 (group 0 3) }
        substations := State.reset.cfg.substations.set 47
          (some { account := 7, group := 3, staged := 0, maxRate := 3600, estimateRate := 90 }) } }
    let d : Date := { year := 2000, month := 1, day := 1 }
    (s 0 []).clock.valid = true ∧ (d.Proper ∧ d.number = ((s 0 []).clock.reading + 60 * (s 0 []).clock.offset) / 86400) ∧
    [(s 0 []).bookingBand 0, (s 0x20 []).bookingBand 0, (s 0 [d]).bookingBand 0, (s 0x5F []).bookingBand 0] = [1, 2, 2, 1] ∧
    [(s 0 []).bookingBand 47, (s 0x20 []).bookingBand 47] = [0, 3] ∧ (s 0x20 []).lookedUpBand 47 d = 3 := by
  refine ⟨?_, ⟨⟨?_, ?_, ?_, ?_⟩, ?_⟩, ?_, ?_, ?_⟩ <;> decide +kernel

/-- R141: the close times of day 28 and hour 23 about the ends of the clock's range, and at a leap February. -/
theorem test_witness_close_times :
    let x : Tariff := { Tariff.default with closeDay := 28, closeHour := 23 }
    dueCloses x (-43200) (86400 * 58 + 82800) = [86400 * 27 + 82800, 86400 * 58 + 82800] ∧
    dueCloses x 4289000000 4291797599 = [86400 * ({ year := 2135, month := 12, day := 28 } : Date).number + 82800] ∧
    dueCloses { x with closeDay := 1, closeHour := 0 } 4289200000 4291797599 =
      [86400 * ({ year := 2136, month := 1, day := 1 } : Date).number] := by decide +kernel

/-! ### Witnesses: frames the HLU refuses, orders started by a request, what steps and cycles tell the table -/

/-- 12.2, R166, R179 ii: a KIND that is not listed and one of 80h; lengths at and beside those allowed, with a list of none, one
and one and a half entries; the last code that names a command, a service and an action, and the next. -/
theorem test_witness_refused_frames :
    (¬ ∃ x ∈ requestKinds, x.1 = (0x07 : Byte).toNat) ∧ (¬ ∃ x ∈ requestKinds, x.1 = (0x80 : Byte).toNat) ∧
    (∃ x ∈ requestKinds, x.1 = (0x05 : Byte).toNat) ∧ ¬ LengthAllowed 0x01 [0] ∧ ¬ LengthAllowed 0x05 [0x60, 0, 0] ∧
    LengthAllowed 0x05 [0x60] ∧ LengthAllowed 0x05 [0x60, 0xEA, 0x07, 12, 25] ∧ LengthAllowed 0x40 [1, 4] ∧
    CodeNamesNothing 0x40 [1, 5] ∧ CodeNamesNothing 0x61 [1, 2] ∧ CodeNamesNothing 0x62 [1, 2] ∧
    ¬ CodeNamesNothing 0x40 [1, 4] ∧ State.reset.hlu.slot = none ∧ State.reset.hlu.transmitter = none ∧
    [(0x07, []), (0x80, []), (0x01, [0]), (0x05, [0x60, 0, 0]), (0x40, [1, 5]), (0x61, [1, 2]), (0x62, [1, 2])].map
      (fun (x : Byte × List Byte) => State.status (after [.hostFrameValid x.1 9 x.2] State.reset)) =
      [some .unknownKind, some .unknownKind, some .badLength, some .badLength, some .badField, some .badField,
        some .badField] := by
  refine ⟨by decide, by decide, by decide, ?_, ?_, ⟨1, 4, 0, by decide, rfl⟩, ⟨1, 4, 1, by decide, rfl⟩,
    ⟨2, 0, 0, by decide, rfl⟩, ⟨1, 5, rfl, by decide⟩, ⟨1, 2, rfl, by decide⟩, ⟨1, 2, rfl, by decide⟩, ?_, rfl, rfl, ?_⟩
  · rintro ⟨fixed, entry, n, listed, length⟩
    obtain ⟨rfl, rfl⟩ : fixed = 0 ∧ entry = 0 := by simpa [requestKinds] using listed
    simp at length
  · rintro ⟨fixed, entry, n, listed, length⟩
    obtain ⟨rfl, rfl⟩ : fixed = 1 ∧ entry = 4 := by simpa [requestKinds] using listed
    simp at length; omega
  · rintro ⟨number, code, same, h⟩
    obtain ⟨rfl, rfl⟩ : 1 = number ∧ 4 = code := by simpa using same
    revert h; decide
  · decide +kernel

/-- R95 to R97, R101: a submission that starts at the request, an emergency over an ordinary order and over an emergency, an
ordinary order beside one in force and with none: the orders, and the limit in force under a contract of 900 kW. -/
theorem test_witness_curtailment_started :
    let s (a : Option CurtailmentOrder) : State :=
      let u := withOrders (openAt 7400) a none
      { u with cfg := { u.cfg with contract := { u.cfg.contract with limit := 900 } } }
    let t (kind : Byte) (a : Option CurtailmentOrder) : List (Option OrderState) × Nat :=
      let u := (submitCurtailmentOwner 7 kind 200 7400 0xFFFFFFFF (s a)).2
      ((u.que.orders.toList.take 2).map (·.map (·.state)), u.esu.effLimit)
    (s (some (order .ordinary .active 1))).que.OrdersLegal ∧ (s (some (order .ordinary .active 1))).working = true ∧
    (s (some (order .ordinary .active 1))).emptySlot = some 1 ∧
    t 1 (some (order .ordinary .active 1)) = ([some .suspended, some .active], 200) ∧
    t 1 (some (order .emergency .active 1)) = ([none, some .active], 200) ∧
    t 0 (some (order .ordinary .active 1)) = ([some .active, some .waiting], 500) ∧
    t 0 none = ([some .active, none], 200) := by
  refine ⟨⟨?_, ?_, ?_, ?_, ?_⟩, ?_, ?_, ?_, ?_, ?_, ?_⟩ <;> decide +kernel

/-- R25: a source in service without a usable point at a figures request, its flag clear and set; one that is counted with its
flag set; one out of service. -/
theorem test_witness_source_conditions :
    let key : ConditionKey := { cls := .sourceUnmeasured, source := 1 }
    let counted := dispatching [] 0
    let told (s : State) : Option EntryState :=
      let t := s.figuresRequest
      ((t.acts.foldl State.takeAct t).entryOf key).map (·.state)
    let lost : State := { counted with points := State.reset.points }
    let flagged (s : State) : State := (s.setUnmeasured 0 true).setPlace 0 (some (entry .sourceUnmeasured 1 .active false))
    lost.standing 0 = .unmeasured ∧ counted.standing 0 = .counted ∧ State.reset.standing 0 = .notDefined ∧
    counted.working = true ∧ lost.HasRoom cycleKeys ∧ lost.gas.unmeasured[(0 : GasSource)] = false ∧
    told lost = some .active ∧ told (flagged lost) = some .active ∧ told (flagged counted) = some .latched ∧
    told counted = none ∧ told (flagged State.reset) = some .active := by decide +kernel

/-- A month's close at a Set Time of 1 s and at a Set Local Offset, with the bill queue empty and full: the bill issued or the
set that waits, and BILL_QUEUE_FULL by its marker. -/
theorem test_witness_step_issues :
    let s (reading bills : Nat) : State := { billed with
      marks := { config := false, accounts := false, queues := false }
      clock := { reading := reading, valid := true, offset := 0 }
      acc := { billed.acc with closeMark := some 0 }
      que := { billed.que with bills := (List.range bills).map (fun i => bill (BitVec.ofNat 32 (i + 1))), nextBill := 97 } }
    let figures (t : State) : Nat × Nat × Bool × Bool × Option EntryState :=
      (t.acc.period, t.que.bills.length, (t.acc.ledgers[(0 : Substation)]).closing.isSome, t.bu.queueFull,
        ((t.acts.foldl State.takeAct t).entryOf { cls := .billQueueFull, source := 1 }).map (·.state))
    let stepped (bills : Nat) := figures (setTimeOwner (86400 * 31) (s (86400 * 31 - 1) bills)).2
    let moved (bills : Nat) := figures (setLocalOffsetOwner 60 (s (86400 * 31 - 3590) bills)).2
    (s (86400 * 31 - 1) 96).working = true ∧ (s (86400 * 31 - 1) 96).acc.closeMark = some 0 ∧
    (s (86400 * 31 - 1) 96).ConditionsLegal ∧
    (s (86400 * 31 - 1) 96).HasRoom [{ cls := .nominationMissing, source := 1 }, { cls := .billQueueFull, source := 1 }] ∧
    stepped 0 = (2, 1, false, false, none) ∧ stepped 96 = (2, 96, true, true, some .active) ∧
    moved 0 = (2, 1, false, false, none) ∧ moved 96 = (2, 96, true, true, some .active) ∧
    (s (86400 * 31) 95).queueFullAfter 1 (86400 * 31) = false ∧ (s (86400 * 31) 96).queueFullAfter 1 (86400 * 31) = true := by
  refine ⟨?_, rfl, empty_legal rfl rfl, ?_, ?_, ?_, ?_, ?_, ?_, ?_⟩ <;> decide +kernel

/-- R112, R117: a restart with an INVALID clock closes the stored interval into a queue of 191 records and into a full one. -/
theorem test_witness_restart_overrun :
    let dark (records : Nat) : State :=
      let q : QueuesRegion := { (openAt 7400).que with
        settlements := (List.range records).map fun i => record (BitVec.ofNat 32 (i + 1)) }
      after [.powerFailure none] ({ openAt 7400 with clock := State.reset.clock }.withQueues q)
    let t (records : Nat) : State := after [.powerOn { batteryLost := false, unsound := [] }] (dark records)
    (dark 192).powered = false ∧ (dark 192).resetHeld = false ∧ (dark 192).clock.valid = false ∧
    ((dark 192).store.queues.contents .default).settlements.length = 192 ∧
    (t 192).shown .settlementOverrun 1 = some (.latched, 1) ∧ (t 192).que.settlements.length = 192 ∧
    (t 191).shown .settlementOverrun 1 = none := by
  refine ⟨?_, ?_, ?_, ?_, ?_, ?_, ?_⟩ <;> decide +kernel

/-- R82: a clear of BOILER_TRIP leaves the boilers as they were in AUTO_RESTART mode, and in any state but TRIPPED. -/
theorem test_witness_clear_keeps_boilers :
    let s (mode : RestartMode) (state : BoilerState) : State :=
      let u := plantWith fun q => { q with state := state, run := some .gas }
      { u with
        cfg := { u.cfg with boilers := u.cfg.boilers.set 0 (some { boiler with restart := mode }) }
        conditions := u.conditions.set 0 (some (entry .boilerTrip 1 .latched true)) }
    let kept (u : State) : Bool := decide ((clearConditionOwner 2 1 u).2.boilers = u.boilers)
    (s .autoRestart .tripped).restartMode 0 ≠ .latched ∧ kept (s .autoRestart .tripped) = true ∧
    kept (s .latched .lockedOut) = true ∧ kept (s .latched .tripped) = false ∧
    (clearConditionOwner 2 1 (s .latched .lockedOut)).1.status = .ok := by decide +kernel

/-! ### Widened statements: dates, classes, allocations, start values -/

/-- R138: the first and the last date, the day past each, the leap days of 2000 and 2100, a date given twice or after a
later one, 32 dates and 33. -/
theorem test_witness_holiday_dates :
    let d (y : Half) (m x : Byte) : RawDate := { year := y, month := m, day := x }
    let given (l : List RawDate) : Option Status := State.status (after [.setHolidays 0xFF l] State.reset)
    let years (n : Nat) : List RawDate := (List.range n).map fun i => d (BitVec.ofNat 16 (2000 + i)) 2 28
    given [] = some .ok ∧ given [d 2000 1 1, d 2000 2 29, d 2000 3 1, d 2135 12 31] = some .ok ∧
    given [d 1999 12 31] = some .badField ∧ given [d 2136 1 1] = some .badField ∧ given [d 2100 2 29] = some .badField ∧
    given [d 2026 0 1] = some .badField ∧ given [d 2026 13 1] = some .badField ∧ given [d 2026 4 31] = some .badField ∧
    given [d 2026 1 0] = some .badField ∧ given [d 2026 5 1, d 2026 5 1] = some .badField ∧
    given [d 2026 5 2, d 2026 4 3] = some .badField ∧ given (years 32) = some .ok ∧ given (years 33) = some .badField ∧
    (after [.setHolidays 0xFF []] State.reset).cfg.restMask = 0x7F := by decide +kernel

/-- Section 9.1, R159: the largest source of every class is looked up, the next one refused. -/
theorem test_witness_source_ranges :
    (classOrder.zip lastSources).all (fun x =>
      let answer (source : Nat) : Option Status :=
        State.status (after [.clearCondition (BitVec.ofNat 8 (classOrder.idxOf x.1 + 1)) (BitVec.ofNat 8 source)] State.reset)
      x.1 = .meterJump || decide (answer x.2 = some .notFound ∧ answer 1 = some .notFound ∧
        answer (x.2 + 1) = some .badField)) = true := by decide +kernel

/-- R154, R157: a class of each latch mode, the three set one by one, and an entry that keeps the mode of its raise. -/
theorem test_witness_latch_table :
    let set (cls : Byte) : State := after [.setLatchMode cls 1] tabled
    let mode (s : State) (c : ConditionClass) : Option LatchMode :=
      ((s.raise c 1).entryOf { cls := c, source := 1 }).map (·.latch)
    latchModes[classOrder.idxOf .channelLost]? = some (some .selfClearing) ∧ tabled.working = true ∧
    mode tabled .channelLost = some .selfClearing ∧ mode tabled .settlementOverrun = some .latching ∧
    mode tabled .holderHighHigh = some .latching ∧ mode (set 3) .holderHighHigh = some .selfClearing ∧
    mode (set 3) .holderLowLow = some .latching ∧ mode (set 4) .holderLowLow = some .selfClearing ∧
    mode (set 4) .pointFailed = some .latching ∧ mode (set 6) .pointFailed = some .selfClearing ∧
    ((set 6).entryOf { cls := .pointFailed, source := 128 }).map (·.latch) = some .latching := by decide +kernel

/-- R159: an accepted clear leaves the entry of another key as it was. -/
theorem test_witness_clear_leaves_others :
    let t := after [.clearCondition 18 1] tabled
    State.status t = some .ok ∧ t.conditions[(0 : Fin 128)] = none ∧
    t.conditions[(1 : Fin 128)] = some (entry .pointFailed 128 .active true) ∧
    (∀ f, tabled.conditions[(1 : Fin 128)] = some f → f.key ≠ { cls := .timeStep, source := 1 }) := by decide +kernel

/-- R41 i, R55: one boiler shed for steam; the two that go on hold the cycle's figures. -/
theorem test_witness_request_allocations :
    let u := (dispatching [.firingGas, .firingGas, .firingAux] 1000).setAllocation 1 { gas := 1800, aux := 0, idle := 0 }
    let s : State := { u with
      osc := 10
      esu := { u.esu with effLimit := 0 }
      cfg := { u.cfg with plant := { u.cfg.plant with exchanger := 0 } } }
    let r := s.cycleResult s.gasFigures
    let t := s.dispatchCycle
    s.working = true ∧ s.cycleDue = true ∧ r.request = .one .shedSteam 0 ∧
    (t.boilers[(0 : Boiler)]).state = .off ∧
    (List.finRange 8).all (fun b => b = 0 || decide (t.dsp.allocations[b] =
      { gas := (r.boilers[b]).gas, aux := (r.boilers[b]).aux, idle := (r.boilers[b]).idle })) = true ∧
    ((t.dsp.allocations[(0 : Boiler)]).gas, (t.dsp.allocations[(1 : Boiler)]).gas) = (0, 1300) := by decide +kernel

/-- R61, R87, R171: a restart and a held RESET leave every block at its start values. -/
theorem test_witness_start_values :
    let busy := { dispatched with channels := dispatched.channels.set 0 { State.reset.channels[0] with state := .live } }
    let dark := after [.powerFailure none] busy
    let t := after [.powerOn { batteryLost := false, unsound := [] }] dark
    (after [.resetAsserted] busy).BlocksAtStart ∧ busy.dsp.cycle = 1 ∧ dark.powered = false ∧ dark.resetHeld = false ∧
    t.dsp = { cycle := 0, lastCycle := 0, allocations := Vector.replicate 8 { gas := 0, aux := 0, idle := 0 },
              flareDemand := 0, flareStages := 0, fraction := 1000,
              markers := { shortage := false, steamOver := false, heatShort := false }, sending := none, waiting := [],
              result := none } ∧
    t.boilers.all (fun q => q.state = .off && !q.gasPermit && !q.auxPermit) = true := by
  refine ⟨State.atStart_blocks { dispatched with resetHeld := true }, ?_, ?_, ?_, ?_, ?_⟩ <;> decide +kernel

/-! ### Widened statements: order times passed at a step, the wrap, the table at a restart -/

/-- R96 to R99 at a step from 7400 to 8000: the SUSPENDED order resumes; the WAITING order of earliest start is next; of two
passed EMERGENCY starts the later one is in force; an ended order started over it is gone. -/
theorem test_witness_order_times :
    let slots (l : List CurtailmentOrder) : State := { openAt 7400 with
      que := { (openAt 7400).que with orders := Vector.ofFn fun n => l[n.val]? }
      cfg := { State.reset.cfg with contract := { State.reset.cfg.contract with limit := 900 } } }
    let stepped (l : List CurtailmentOrder) : List (Option OrderState) × Nat :=
      let t := (setTimeOwner 8000 (slots l)).2
      (t.que.orders.toList.map (fun o => o.map (·.state)) |>.take 3, t.esu.effLimit)
    let o (kind : OrderKind) (state : OrderState) (limit start : Nat) (finish : Option Nat) : CurtailmentOrder :=
      { reference := start, kind := kind, limit := limit, start := start, finish := finish, state := state }
    (slots [o .ordinary .suspended 500 7300 none, o .emergency .active 100 7350 (some 7900)]).que.OrdersLegal ∧
    (slots []).working = true ∧ (o .emergency .active 100 7350 (some 7900)).timePassed 8000 ∧
    stepped [o .ordinary .suspended 500 7300 none, o .emergency .active 100 7350 (some 7900)] =
      ([some .active, none, none], 500) ∧
    stepped [o .ordinary .waiting 300 7360 none, o .ordinary .active 100 7350 (some 7900), o .ordinary .waiting 400 7355 none] =
      ([some .waiting, none, some .active], 400) ∧
    stepped [o .emergency .pending 200 7700 none, o .emergency .pending 300 7600 none, o .ordinary .active 500 7300 none] =
      ([some .active, none, some .suspended], 200) ∧
    stepped [o .emergency .pending 200 7500 (some 7600), o .ordinary .pending 300 7550 none, o .ordinary .active 500 7300 none] =
      ([none, some .waiting, some .active], 500) := by
  refine ⟨⟨?_, ?_, ?_, ?_, ?_⟩, ?_, by simp [CurtailmentOrder.timePassed], ?_, ?_, ?_, ?_⟩ <;> decide +kernel

/-- R103: the wrap ends NOMINATION_MISSING and leaves the orders and the limit. -/
theorem test_witness_wrap_missing :
    let s : State := { (openAt 4291747199).setPlace 0 (some (entry .nominationMissing 1 .active true)) with
      esu := { (openAt 4291747199).esu with missing := true, effLimit := 500 }
      que := { (openAt 4291747199).que with orders := overridden.que.orders } }
    let t := s.secondPasses.batteryLost.scheduleWrap
    s.working = true ∧ t.que.orders = s.que.orders ∧ t.esu.effLimit = 500 ∧ t.esu.missing = false ∧
    ((t.acts.foldl State.takeAct t).entryOf { cls := .nominationMissing, source := 1 }).map (·.state) = some .latched := by
  decide +kernel

/-- R162: an entry of a class that a restart does not raise is gone, as is CONDITION_TABLE_FULL. -/
theorem test_witness_restart_empties :
    let t := after [.powerFailure none, .powerOn { batteryLost := false, unsound := [] }] tabled
    tabled.entries.length = 3 ∧ t.entries = [] ∧
    ({ cls := .pointFailed, source := 128 } : ConditionKey) ∉ restartKeys ∧ conditionTableFullKey ∉ restartKeys ∧
    ({ cls := .substationEstimating, source := 48 } : ConditionKey) ∈ restartKeys := by decide +kernel

end Sys2Proof.Tests
end

section
/-! SUPPORT. Which operations leave the channels, the points and the points' configuration as they are: all but those of
chapter 1 and the restart. -/

namespace Sys2Proof.Machine

-- The stacks of threads for every theorem of this section at once would pass the memory limit.
set_option Elab.async false

variable {s t u : State}

/-- The channels, the points and what the points are configured as are the same in both states. -/
def KeepsPoints (s t : State) : Prop :=
  t.channels = s.channels ∧ t.points = s.points ∧ t.cfg.points = s.cfg.points

theorem KeepsPoints.refl (s : State) : KeepsPoints s s := ⟨rfl, rfl, rfl⟩

theorem KeepsPoints.trans (h : KeepsPoints s t) (k : KeepsPoints t u) : KeepsPoints s u :=
  ⟨k.1.trans h.1, k.2.1.trans h.2.1, k.2.2.trans h.2.2⟩

theorem KeepsPoints.ite {c : Prop} [Decidable c] (h : KeepsPoints s t) (k : KeepsPoints s u) :
    KeepsPoints s (if c then t else u) := by split <;> assumption

/-- A frame without the channels, the points and CONFIG keeps the points. -/
theorem ChangesOnly.keepsPoints {l : List Part} (h : ChangesOnly l s t)
    (away : ∀ p ∈ [Part.channels, .points, .cfg], p ∉ l := by decide) : KeepsPoints s t :=
  ⟨h .channels (away _ (by simp)), h .points (away _ (by simp)), congrArg (·.points) (h .cfg (away _ (by simp)))⟩

/-! ### The notices at the consumers (R18) -/

/-- What a notice may reach at a point's consumer: not the points themselves. -/
def noticeParts : List Part := [.marks, .acc, .que, .gas, .dsp, .boilers, .esu, .hmu]

theorem State.failedEvent_notice (r : Role) : ChangesOnly noticeParts s (s.failedEvent r) := by
  cases r with
  | sourceFlow n | sourceCv n => exact .ite ((State.findUnmeasured_changes n).mono (by decide)) (.refl _ _)
  | holderLevel => exact (State.gas_changes _).mono (by decide)
  | boilerStatus b => exact (State.statusFailed_changes b).mono (by decide)
  | exportMeter => exact State.exportFailed_changes.mono (by decide)
  | heatMeter k => exact .ite ((State.enterEstimating_changes k).mono (by decide)) (.refl _ _)
  | worksFlow | networkCv | turbineStatus => exact .refl _ _

theorem State.restoredEvent_notice (r : Role) : ChangesOnly noticeParts s (s.restoredEvent r) := by
  cases r with
  | sourceFlow n | sourceCv n => exact .ite ((State.clearUnmeasured_changes n).mono (by decide)) (.refl _ _)
  | boilerStatus b => exact (State.evaluateCauses_changes b).mono (by decide)
  | holderLevel | exportMeter | heatMeter _ | worksFlow | networkCv | turbineStatus => exact .refl _ _

theorem State.arrival_notice (r : Role) (value : Quantity) (time : Nat) :
    ChangesOnly noticeParts s (s.arrival r value time) := by
  unfold State.arrival
  split
  · exact (State.levelArrival_changes _).mono (by decide)
  · exact (State.statusArrival_changes _ _).mono (by decide)
  · exact (State.exportArrival_changes _).mono (by decide)
  · exact (State.heatArrival_changes _ _ _ _).mono (by decide)
  · exact .refl _ _

/-! ### The end of an event -/

theorem State.endEvent_keepsPoints (s : State) : KeepsPoints s s.endEvent := State.endEvent_changes.keepsPoints

theorem Served.record_keepsPoints (r : Served) : KeepsPoints r.2 r.record := ⟨rfl, rfl, rfl⟩

/-! ### The closes of billing periods, which bring CONFIG figures into force (R146) -/

theorem State.closePeriods_keepsPoints (n : Nat) (finish : Int) : KeepsPoints s (s.closePeriods n finish) := by
  unfold State.closePeriods
  dsimp only
  split <;> exact ⟨rfl, rfl, rfl⟩

theorem State.closeWith_keepsPoints (n : Nat) (finish : Int) : KeepsPoints s (s.closeWith n finish) :=
  ((State.closePeriods_keepsPoints n finish).trans (State.issueBills_changes 48).keepsPoints).trans
    State.evaluateQueueFull_changes.keepsPoints

theorem State.scheduledClose_keepsPoints : KeepsPoints s s.scheduledClose := by
  unfold State.scheduledClose
  split
  · exact .refl s
  · split
    · exact .refl s
    · exact State.closeWith_keepsPoints _ _

theorem State.reckonCloses_keepsPoints : KeepsPoints s s.reckonCloses :=
  .ite (State.scheduledClose_keepsPoints.trans State.scheduledClose_keepsPoints) (.refl s)

/-! ### The blocks at a restart (R105, R133, R152) -/

theorem State.scheduleRestart_changes : ChangesOnly [.que, .esu, .marks, .choices] s s.scheduleRestart := by
  have queues {t : State} (q : QueuesRegion) : ChangesOnly [.que, .esu, .marks, .choices] t (t.setQueues q) :=
    (State.setQueues_changes q).mono (by decide)
  have esu {t : State} (e : ExportUnit) : ChangesOnly [.que, .esu, .marks, .choices] t { t with esu := e } :=
    (State.esu_changes e).mono (by decide)
  have published {t : State} : ChangesOnly [.que, .esu, .marks, .choices] t t.publishLimit :=
    State.publishLimit_changes.mono (by decide)
  have opened {t : State} (start : Int) (f : IntervalFlags) (n : Option Nat) :
      ChangesOnly [.que, .esu, .marks, .choices] t (t.openWith start f n).reckonMissing :=
    ((State.openWith_changes _ _ _).trans (State.reckonMissing_changes.mono (by decide))).mono (by decide)
  have orders {t : State} : ChangesOnly [.que, .esu, .marks, .choices] t t.takePassedOrders.publishLimit :=
    (State.takePassed_changes 16).trans published
  have set {t : State} (iv : OpenInterval) : ChangesOnly [.que, .esu, .marks, .choices] t (t.setInterval iv) :=
    (State.setInterval_changes iv).mono (by decide)
  have reckoned {t : State} : ChangesOnly [.que, .esu, .marks, .choices] t t.reckonMissing :=
    State.reckonMissing_changes.mono (by decide)
  have closed {t : State} (r : SettlementRecord) :
      ChangesOnly [.que, .esu, .marks, .choices] t (t.queueSettlement r).withoutInterval :=
    ((State.queueSettlement_changes r).append State.withoutInterval_changes).mono (by decide)
  unfold State.scheduleRestart
  refine .ite ?_ ?_
  · have before (q : QueuesRegion) (e : ExportUnit) : ChangesOnly [.que, .esu, .marks, .choices] s
        ({ s.setQueues q with esu := e } : State).takePassedOrders.publishLimit :=
      ((queues q).trans (esu e)).trans orders
    unfold State.scheduleRestartValid
    dsimp only
    split
    · exact .ite (((before _ _).trans (esu _)).trans (opened _ _ _))
        ((((before _ _).trans (esu _)).trans (set _)).trans reckoned)
    · exact ((before _ _).trans (esu _)).trans (opened _ _ _)
  · unfold State.scheduleRestartInvalid
    dsimp only
    split
    · exact (queues _).trans published
    · exact ((queues _).trans (closed _)).trans published

theorem State.billingRestart_keepsPoints : KeepsPoints s s.billingRestart := by
  have opened : KeepsPoints s s.openAccounts := .ite (.refl s) ⟨rfl, rfl, rfl⟩
  exact ((opened.trans State.reckonCloses_keepsPoints).trans (State.issueBills_changes 48).keepsPoints).trans
    State.evaluateQueueFull_changes.keepsPoints

theorem State.metersRestart_changes (lost : Bool) : ChangesOnly [.acc, .marks] s (s.metersRestart lost) := by
  unfold State.metersRestart
  refine .ite (.refl _ _) ?_
  intro p hp; cases p <;> simp_all [Part.agree]

theorem State.tellHeat_changes : ChangesOnly [.marks] s s.tellHeat :=
  ChangesOnly.foldl (fun t k => by
    have told (d : Bool) (u : State) (c : ConditionClass) (n : Nat) :
        ChangesOnly [.marks] u (if d then u.tellRaise c n else u) := .ite (State.tellRaise_changes _ _) (.refl _ _)
    unfold State.tellMeter
    exact (told _ _ _ _).trans (.ite (State.tellRaise_changes _ _) (.refl _ _))) _ _

theorem State.tellRestart_changes (lost : Bool) : ChangesOnly [.marks] s (s.tellRestart lost) := by
  have region {α : Type} (u : State) (r : Retained α) (n : Nat) : ChangesOnly [.marks] u (u.tellLost r n) :=
    .ite (State.tellReport_changes _ _) (.refl _ _)
  have report : ChangesOnly [.marks] s (if lost then s.tellReport .timeStep 1 else s) :=
    .ite (State.tellReport_changes _ _) (.refl _ _)
  unfold State.tellRestart
  exact (((report.trans (region _ _ _)).trans (region _ _ _)).trans (region _ _ _)).trans
    (.ite (.refl _ _) (State.tellRaise_changes _ _))

/-- What follows the start state at a restart leaves its points alone (R177). -/
theorem State.restart_keepsPoints (found : StoreFinding) : ∃ u : State, KeepsPoints u.atStart (s.restart found) := by
  unfold State.restart
  refine ⟨_, ((((State.tellRestart_changes _).keepsPoints.trans State.scheduleRestart_changes.keepsPoints).trans
    State.billingRestart_keepsPoints).trans (((State.metersRestart_changes _).append
      State.tellHeat_changes).keepsPoints)).trans (State.endEvent_keepsPoints _)⟩

/-! ### The owners of the requests -/

theorem forBoiler_keepsPoints {v : Byte} {f : Boiler → Served} (h : ∀ b, KeepsPoints s (f b).2) :
    KeepsPoints s (forBoiler s v f).2 := by
  unfold forBoiler
  split
  · exact .refl s
  · exact h _

theorem forSubstation_keepsPoints {v : Byte} {f : Substation → Served} (h : ∀ k, KeepsPoints s (f k).2) :
    KeepsPoints s (forSubstation s v f).2 := by
  unfold forSubstation
  split
  · exact .refl s
  · split
    · exact .refl s
    · exact h _

theorem forDispute_keepsPoints {v : Byte} {f : Substation → MeterMark → State} (h : ∀ k m, KeepsPoints s (f k m)) :
    KeepsPoints s (forDispute s v f).2 := by
  unfold forDispute
  split
  · exact .refl s
  · split
    · exact .refl s
    · exact (h _ _).trans (State.tellEnd_changes _ _).keepsPoints

/-- A request that reads leaves the state (R7, R19, R60, R86, R94, R102, R113, R132, R150, R161, R170, R173). -/
theorem owner_state_of_read {i : Instr} {f : State → Served} (h : owner i = some f) (read : footprint i = [.hlu]) :
    (f s).2 = s := by
  cases i with
  | identify | readTime | readDispatch | readNominations | readCurtailments => cases h; rfl
  | readChannel | readPoint | readSubstation | readConditions =>
    cases h
    simp only [readChannelOwner, readPointOwner, readSubstationOwner, readConditionsOwner]
    split <;> rfl
  | readBoiler =>
    cases h
    simp only [readBoilerOwner, forBoiler]
    split <;> rfl
  | fetchSettlementRecord | fetchBill =>
    cases h
    simp only [fetchSettlementOwner, fetchBillOwner]
    split <;> rfl
  | _ => first | cases h; done | exact absurd read (by simp [footprint, closeParts])

/-- The requests that change figures of CONFIG other than the points', and nothing else. -/
theorem setFaultMaskOwner_keepsPoints (m : Word) : KeepsPoints s (setFaultMaskOwner m s).2 := by
  unfold setFaultMaskOwner; split <;> exact ⟨rfl, rfl, rfl⟩

theorem setLatchModeOwner_keepsPoints (c m : Byte) : KeepsPoints s (setLatchModeOwner c m s).2 := by
  unfold setLatchModeOwner
  split
  · split <;> exact ⟨rfl, rfl, rfl⟩
  · exact .refl s

theorem setHolidaysOwner_keepsPoints (m : Byte) (l : List RawDate) : KeepsPoints s (setHolidaysOwner m l s).2 := by
  unfold setHolidaysOwner; dsimp only; split <;> exact ⟨rfl, rfl, rfl⟩

theorem stageTariffOwner_keepsPoints (x : RawTariff) : KeepsPoints s (stageTariffOwner x s).2 := by
  unfold stageTariffOwner; split <;> exact ⟨rfl, rfl, rfl⟩

theorem cancelStagedTariffOwner_keepsPoints : KeepsPoints s (cancelStagedTariffOwner s).2 := by
  unfold cancelStagedTariffOwner; split <;> exact ⟨rfl, rfl, rfl⟩

theorem setMeritListOwner_keepsPoints (l : List Byte) : KeepsPoints s (setMeritListOwner l s).2 := by
  unfold setMeritListOwner
  split
  · exact .refl s
  · split <;> exact ⟨rfl, rfl, rfl⟩

theorem configureSubstationOwner_keepsPoints (k : Byte) (a : Word) (g : Byte) (m e : Word) :
    KeepsPoints s (configureSubstationOwner k a g m e s).2 := by
  unfold configureSubstationOwner
  split
  · dsimp only
    split
    · exact ⟨rfl, rfl, rfl⟩
    · split <;> exact ⟨rfl, rfl, rfl⟩
  · exact .refl s

theorem setPlantParametersOwner_keepsPoints (f : RawPlant) : KeepsPoints s (setPlantParametersOwner f s).2 := by
  unfold setPlantParametersOwner
  split
  · exact .refl s
  · exact KeepsPoints.trans ⟨rfl, rfl, rfl⟩ State.dispatchExpiry_changes.keepsPoints

theorem configureHolderOwner_keepsPoints (f : RawHolder) : KeepsPoints s (configureHolderOwner f s).2 := by
  unfold configureHolderOwner
  dsimp only
  split
  · exact .refl s
  · split
    · exact KeepsPoints.trans ⟨rfl, rfl, rfl⟩ State.reevaluate_changes.keepsPoints
    · exact .refl s

theorem selectHolderLimitsOwner_keepsPoints (v : Byte) : KeepsPoints s (selectHolderLimitsOwner v s).2 := by
  unfold selectHolderLimitsOwner
  split
  · exact .refl s
  · split
    · exact .refl s
    · exact KeepsPoints.trans ⟨rfl, rfl, rfl⟩ State.reevaluate_changes.keepsPoints

theorem State.setSource_keepsPoints (n : GasSource) (x : SourceSetting) : KeepsPoints s (s.setSource n x) :=
  ⟨rfl, rfl, rfl⟩

theorem configureSourceOwner_keepsPoints (n d : Byte) : KeepsPoints s (configureSourceOwner n d s).2 := by
  unfold configureSourceOwner
  split
  · split
    · exact State.setSource_keepsPoints _ _
    · exact .refl s
    · exact .refl s
    · exact (State.setSource_keepsPoints _ _).trans (State.clearUnmeasured_changes _).keepsPoints
  · exact .refl s

theorem setSourceServiceOwner_keepsPoints (n v : Byte) : KeepsPoints s (setSourceServiceOwner n v s).2 := by
  unfold setSourceServiceOwner
  split
  · split
    · exact .refl s
    · exact .refl s
    · exact .refl s
    · exact (State.setSource_keepsPoints _ _).trans (State.clearUnmeasured_changes _).keepsPoints
    · exact (State.setSource_keepsPoints _ _).trans (.ite (.refl _) (State.findUnmeasured_changes _).keepsPoints)
  · exact .refl s

theorem configureBoilerOwner_keepsPoints (f : RawBoiler) : KeepsPoints s (configureBoilerOwner f s).2 := by
  unfold configureBoilerOwner
  split
  · dsimp only
    split <;> exact ⟨rfl, rfl, rfl⟩
  · exact .refl s

theorem State.takeContract_keepsPoints (c : Contract) : KeepsPoints s (s.takeContract c) := by
  have put : KeepsPoints s
      (if c = s.cfg.contract then s else ({ s with cfg := { s.cfg with contract := c } } : State).markConfig) :=
    .ite (.refl s) ⟨rfl, rfl, rfl⟩
  unfold State.takeContract
  exact ((put.trans State.publishLimit_changes.keepsPoints).trans
    (.ite (State.esu_changes _).keepsPoints (.refl _))).trans State.reckonMissing_changes.keepsPoints

theorem setExportContractOwner_keepsPoints (l : Word) (n g : Byte) :
    KeepsPoints s (setExportContractOwner l n g s).2 := by
  unfold setExportContractOwner
  split
  · exact .refl s
  · split
    · exact .refl s
    · exact State.takeContract_keepsPoints _

theorem State.startBoiler_keepsPoints (b : Boiler) (f : Fuel) : KeepsPoints s (s.startBoiler b f).2 := by
  have purge : KeepsPoints s (done (s.enterPurge b f)).2 := (State.enterPurge_changes b f).keepsPoints
  unfold State.startBoiler
  repeat' split
  all_goals first | exact purge | exact .refl s

theorem stopOwner_keepsPoints (b : Byte) : KeepsPoints s (stopOwner b s).2 :=
  forBoiler_keepsPoints fun b => by
    dsimp only
    split
    · exact (State.controlledStop_changes b).keepsPoints
    · split
      · exact (State.setBoiler_changes _ _).keepsPoints
      · exact .refl s

theorem changeoverOwner_keepsPoints (b : Byte) : KeepsPoints s (changeoverOwner b s).2 :=
  forBoiler_keepsPoints fun b => by
    split
    · split
      · exact (State.startChangeover_changes _ _).keepsPoints
      · exact .refl s
    · exact (State.startChangeover_changes _ _).keepsPoints
    · exact .refl s

theorem resetLockoutOwner_keepsPoints (b : Byte) : KeepsPoints s (resetLockoutOwner b s).2 :=
  forBoiler_keepsPoints fun b => by
    dsimp only
    split
    · exact .refl s
    · split
      · exact .refl s
      · exact ((State.setBoiler_changes _ _).append (State.tellEnd_changes _ _)).keepsPoints.trans
          (.ite (State.clearMarker_changes _).keepsPoints (.refl _))

theorem submitNominationOwner_keepsPoints (t e : Word) : KeepsPoints s (submitNominationOwner t e s).2 := by
  have put (l : List Nomination) : KeepsPoints s (done (s.setNominations l)).2 := (State.setQueues_changes _).keepsPoints
  unfold submitNominationOwner
  dsimp only
  repeat' split
  all_goals first | exact put _ | exact .refl s

theorem withdrawNominationOwner_keepsPoints (t : Word) : KeepsPoints s (withdrawNominationOwner t s).2 := by
  have put (l : List Nomination) : KeepsPoints s (done (s.setNominations l)).2 := (State.setQueues_changes _).keepsPoints
  unfold withdrawNominationOwner
  dsimp only
  repeat' split
  all_goals first | exact put _ | exact .refl s

theorem submitCurtailmentOwner_keepsPoints (r : Word) (k : Byte) (l t e : Word) :
    KeepsPoints s (submitCurtailmentOwner r k l t e s).2 := by
  unfold submitCurtailmentOwner
  split
  · exact .refl s
  · dsimp only
    split
    · exact .refl s
    · split
      · exact .refl s
      · split
        · exact .refl s
        · exact (State.enterOrder_changes _ _).keepsPoints

theorem cancelCurtailmentOwner_keepsPoints (r : Word) : KeepsPoints s (cancelCurtailmentOwner r s).2 := by
  unfold cancelCurtailmentOwner
  split
  · exact .refl s
  · exact (State.removeOrder_changes _).keepsPoints

theorem releaseSettlementOwner_keepsPoints (n : Word) : KeepsPoints s (releaseSettlementOwner n s).2 := by
  unfold releaseSettlementOwner
  split
  · exact .refl s
  · split <;> exact ⟨rfl, rfl, rfl⟩

theorem releaseBillOwner_keepsPoints (n : Word) : KeepsPoints s (releaseBillOwner n s).2 := by
  unfold releaseBillOwner
  split
  · exact .refl s
  · split
    · exact KeepsPoints.trans ⟨rfl, rfl, rfl⟩ (State.issueBills_changes 48).keepsPoints
    · exact .refl s

theorem closePeriodNowOwner_keepsPoints : KeepsPoints s (closePeriodNowOwner s).2 := by
  unfold closePeriodNowOwner
  split
  · exact .refl s
  · exact State.closeWith_keepsPoints _ _

theorem connectOwner_keepsPoints (k : Byte) : KeepsPoints s (connectOwner k s).2 :=
  forSubstation_keepsPoints fun k => by
    dsimp only
    split
    · split
      · exact .refl s
      · exact (State.putMeter_changes _ _).keepsPoints
    · exact .refl s
    · exact .refl s
    · exact .refl s

theorem disconnectOwner_keepsPoints (k : Byte) : KeepsPoints s (disconnectOwner k s).2 :=
  forSubstation_keepsPoints fun k => by
    have put (m : SubstationAccount) : KeepsPoints s ((s.setLastRate k 0).putMeter k m) :=
      ((State.setLastRate_changes _ _).append (State.putMeter_changes _ _)).keepsPoints
    dsimp only
    split
    · exact .refl s
    · split
      · exact .refl s
      · exact put _
      · exact put _
      · exact (put _).trans (State.tellEnd_changes _ _).keepsPoints

theorem acceptOwner_keepsPoints (k : Byte) : KeepsPoints s (acceptOwner k s).2 :=
  forDispute_keepsPoints fun k m =>
    (State.putMeter_changes _ _).keepsPoints.trans
      (.ite (State.enter_changes _ _ _).keepsPoints (State.book_changes _ _).keepsPoints)

theorem rejectOwner_keepsPoints (k : Byte) : KeepsPoints s (rejectOwner k s).2 :=
  forDispute_keepsPoints fun k m => ((State.putMeter_changes _ _).append (State.setLedger_changes _ _)).keepsPoints

theorem fetchConditionOwner_keepsPoints : KeepsPoints s (fetchConditionOwner s).2 := by
  unfold fetchConditionOwner
  split
  · exact .refl s
  · exact (State.fetchEntry_changes _).keepsPoints

theorem State.entryCleared_changes (k : ConditionKey) : ChangesOnly [.boilers] s (s.entryCleared k) := by
  unfold State.entryCleared
  split
  · split
    · exact .ite (State.release_changes _) (.refl _ _)
    · exact .refl _ _
  · exact .refl _ _

theorem clearConditionOwner_keepsPoints (c n : Byte) : KeepsPoints s (clearConditionOwner c n s).2 := by
  unfold clearConditionOwner
  split
  · exact .refl s
  · split
    · exact .refl s
    · dsimp only
      split
      · split
        · exact .refl s
        · exact ((State.removeEntry_changes _).append (State.entryCleared_changes _)).keepsPoints
      · exact .refl s

theorem State.putReading_keepsPoints (v : Nat) : KeepsPoints s (s.putReading v) := ⟨rfl, rfl, rfl⟩

theorem setTimeOwner_keepsPoints (v : Word) : KeepsPoints s (setTimeOwner v s).2 := by
  have told {t : State} : KeepsPoints t (t.tellReport .timeStep 1) := (State.tellReport_changes _ _).keepsPoints
  unfold setTimeOwner
  dsimp only
  split
  · exact .refl s
  · split
    · exact (((State.putReading_keepsPoints _).trans told).trans State.scheduleStart_changes.keepsPoints).trans
        ⟨rfl, rfl, rfl⟩
    · split
      · exact .refl s
      · exact (((State.putReading_keepsPoints _).trans (.ite (.refl _) told)).trans
          (State.scheduleStep_changes _).keepsPoints).trans State.reckonCloses_keepsPoints

theorem setLocalOffsetOwner_keepsPoints (m : Half) : KeepsPoints s (setLocalOffsetOwner m s).2 := by
  have moved : KeepsPoints s { s with clock := { s.clock with offset := m.toInt } } := ⟨rfl, rfl, rfl⟩
  unfold setLocalOffsetOwner
  dsimp only
  split
  · exact .refl s
  · split
    · exact .refl s
    · exact moved.trans (.ite (State.scheduleOffset_changes.keepsPoints.trans State.reckonCloses_keepsPoints) (.refl _))

theorem factoryClearOwner_keepsPoints : KeepsPoints s (factoryClearOwner s).2 := by
  unfold factoryClearOwner; split <;> exact ⟨rfl, rfl, rfl⟩

/-- Every request but Configure Channel and Configure Point leaves the points alone. -/
theorem owner_keepsPoints {i : Instr} {f : State → Served} (h : owner i = some f)
    (away : .channels ∉ footprint i ∧ ∀ p g, i ≠ .configurePoint p g) : KeepsPoints s (f s).2 := by
  by_cases read : footprint i = [.hlu]
  · rw [owner_state_of_read h read]; exact .refl s
  cases i with
  | setTime v => cases h; exact setTimeOwner_keepsPoints v
  | setLocalOffset m => cases h; exact setLocalOffsetOwner_keepsPoints m
  | setHolidays m l => cases h; exact setHolidaysOwner_keepsPoints m l
  | factoryClear => cases h; exact factoryClearOwner_keepsPoints
  | configureSource n d => cases h; exact configureSourceOwner_keepsPoints n d
  | setSourceService n v => cases h; exact setSourceServiceOwner_keepsPoints n v
  | configureHolder f => cases h; exact configureHolderOwner_keepsPoints f
  | selectHolderLimits v => cases h; exact selectHolderLimitsOwner_keepsPoints v
  | setPlantParameters f => cases h; exact setPlantParametersOwner_keepsPoints f
  | setMeritList l => cases h; exact setMeritListOwner_keepsPoints l
  | configureBoiler f => cases h; exact configureBoilerOwner_keepsPoints f
  | startGas b | startAux b => cases h; exact forBoiler_keepsPoints fun b => State.startBoiler_keepsPoints b _
  | stop b => cases h; exact stopOwner_keepsPoints b
  | changeover b => cases h; exact changeoverOwner_keepsPoints b
  | resetLockout b => cases h; exact resetLockoutOwner_keepsPoints b
  | setExportContract l n g => cases h; exact setExportContractOwner_keepsPoints l n g
  | submitNomination t e => cases h; exact submitNominationOwner_keepsPoints t e
  | withdrawNomination t => cases h; exact withdrawNominationOwner_keepsPoints t
  | submitCurtailment r k l t e => cases h; exact submitCurtailmentOwner_keepsPoints r k l t e
  | cancelCurtailment r => cases h; exact cancelCurtailmentOwner_keepsPoints r
  | releaseSettlementRecord n => cases h; exact releaseSettlementOwner_keepsPoints n
  | configureSubstation k a g m e => cases h; exact configureSubstationOwner_keepsPoints k a g m e
  | connect k => cases h; exact connectOwner_keepsPoints k
  | disconnect k => cases h; exact disconnectOwner_keepsPoints k
  | accept k => cases h; exact acceptOwner_keepsPoints k
  | reject k => cases h; exact rejectOwner_keepsPoints k
  | stageTariff x => cases h; exact stageTariffOwner_keepsPoints x
  | cancelStagedTariff => cases h; exact cancelStagedTariffOwner_keepsPoints
  | closePeriodNow => cases h; exact closePeriodNowOwner_keepsPoints
  | releaseBill n => cases h; exact releaseBillOwner_keepsPoints n
  | fetchCondition => cases h; exact fetchConditionOwner_keepsPoints
  | clearCondition c n => cases h; exact clearConditionOwner_keepsPoints c n
  | setFaultMask m => cases h; exact setFaultMaskOwner_keepsPoints m
  | setLatchMode c m => cases h; exact setLatchModeOwner_keepsPoints c m
  | configureChannel c k l => exact absurd (by simp [footprint]) away.1
  | configurePoint p g => exact absurd rfl (away.2 p g)
  | _ => first | exact absurd rfl read | cases h

end Sys2Proof.Machine
end

section
/-! SUPPORT. What a point's own operations leave in the points (R12 to R16): a point that serves, fails, re-selects or takes
a new value, alone and among others in any order. -/

namespace Sys2Proof.Machine

variable {s t u : State} {p : PointNo} {c : PointConfig}

/-! ### One point set, and the notices at its consumer -/

/-- The state's channels, configuration and clocks are kept, and of the points slot `p` alone is `x` now. -/
structure SetsPoint (s t : State) (p : PointNo) (x : Point) : Prop where
  rest : ChangesOnly (.points :: noticeParts) s t
  points : t.points = s.points.set p x

theorem State.setPoint_sets (s : State) (p : PointNo) (x : Point) : SetsPoint s (s.setPoint p x) p x :=
  ⟨(State.setPoint_changes p x).mono (by decide), rfl⟩

theorem SetsPoint.notice {x : Point} (h : SetsPoint s t p x) (k : ChangesOnly noticeParts t u) : SetsPoint s u p x :=
  ⟨h.rest.trans (k.mono (by decide)), Eq.trans (k .points (by decide)) h.points⟩

theorem SetsPoint.refl (s : State) (p : PointNo) : SetsPoint s s p s.points[p] :=
  ⟨.refl _ _, by simp⟩

theorem SetsPoint.channels {x : Point} (h : SetsPoint s t p x) : t.channels = s.channels := h.rest .channels (by decide)

theorem SetsPoint.cfg {x : Point} (h : SetsPoint s t p x) : t.cfg = s.cfg := h.rest .cfg (by decide)

theorem SetsPoint.osc {x : Point} (h : SetsPoint s t p x) : t.osc = s.osc := h.rest .osc (by decide)

theorem SetsPoint.same {x : Point} (h : SetsPoint s t p x) : t.points[p] = x := by simp [h.points]

theorem SetsPoint.other {x : Point} (h : SetsPoint s t p x) {q : PointNo} (ne : q ≠ p) : t.points[q] = s.points[q] := by
  have : p.val ≠ q.val := fun e => ne (Fin.ext e.symm)
  simp [h.points, this]

/-! ### Serving and failing -/

/-- A point serves a channel that holds a sample as `servedBy` says (R13). -/
theorem State.serve_eq {r : Rank} {ch : ChannelNo} {x : Sample} (h : (s.channels[ch]).last = some x) :
    s.serve p c r ch = s.servedBy p c r ch x := by
  simp only [State.serve, State.servedBy, State.servingFrom, h, pointNumber]

theorem State.serve_of_empty {r : Rank} {ch : ChannelNo} (h : (s.channels[ch]).last = none) :
    s.serve p c r ch = s := by
  simp only [State.serve, h]

theorem State.failPoint_eq : s.failPoint p c = s.pointFails p c := rfl

theorem State.servedBy_sets (r : Rank) (ch : ChannelNo) (x : Sample) :
    SetsPoint s (s.servedBy p c r ch x) p (s.servingFrom c r ch x) := by
  have ended {v : State} (d : Prop) [Decidable d] :
      ChangesOnly noticeParts v (if d then v else v.tellEnd .pointFailed (p.val + 1)) :=
    .ite (.refl _ _) ((State.tellEnd_changes _ _).mono (by decide))
  have restored {v : State} (d : Prop) [Decidable d] :
      ChangesOnly noticeParts v (if d then v.restoredEvent c.role else v) :=
    .ite (State.restoredEvent_notice _) (.refl _ _)
  exact (State.setPoint_sets s p _).notice (((ended _).trans (restored _)).trans (State.arrival_notice _ _ _))

theorem State.pointFails_sets :
    SetsPoint s (s.pointFails p c) p { s.points[p] with state := .failed, holdDue := none } :=
  (State.setPoint_sets s p _).notice (((State.tellRaise_changes _ _).mono (by decide)).trans (State.failedEvent_notice _))

/-! ### Re-selection (R12) -/

/-- A point's re-selection, in the statements' terms. -/
theorem State.reselect_reselected (h : s.cfg.points[p] = some c) : Reselected s (s.reselect p) p c := by
  constructor
  · intro r ch sel serving rank
    simp only [State.reselect, h, sel, serving, rank, and_self, if_true]
  · intro r ch x sel last other
    rw [← State.serve_eq last]
    have : ¬ ((s.points[p]).state = .serving ∧ (s.points[p]).rank = some r) := fun ⟨a, b⟩ => other.elim (· a) (· b)
    simp only [State.reselect, h, sel, if_neg this]
  · intro sel serving hold
    simp only [State.reselect, h, sel, serving, State.loseSources, hold, if_true]
  · intro sel serving hold
    simp only [State.reselect, h, sel, serving, State.loseSources, hold, State.failPoint_eq, if_true, Nat.lt_irrefl,
      if_false]
  · intro sel serving
    simp only [State.reselect, h, sel, if_neg serving]

theorem State.reselect_sets (h : s.cfg.points[p] = some c) : SetsPoint s (s.reselect p) p (s.pointAfter p c) := by
  have moved := State.reselect_reselected h
  have kept {x : Point} (e : s.reselect p = s) (hx : x = s.points[p]) : SetsPoint s (s.reselect p) p x := by
    rw [e, hx]; exact .refl s p
  unfold State.pointAfter
  dsimp only
  cases sel : s.selection c with
  | some x =>
    obtain ⟨r, ch⟩ := x
    dsimp only
    split
    case isTrue held => exact kept (moved.kept r ch sel held.1 held.2) rfl
    case isFalse held =>
      cases last : (s.channels[ch]).last with
      | none => exact kept (by simp only [State.reselect, h, sel, if_neg held, State.serve_of_empty last]) rfl
      | some x =>
        rw [moved.taken r ch x sel last (by rw [← not_and_or]; exact held)]
        exact State.servedBy_sets r ch x
  | none =>
    dsimp only
    split
    case isTrue idle => exact kept (moved.still sel idle) rfl
    case isFalse serving =>
      have serving := Decidable.not_not.mp serving
      split
      case isTrue zero => rw [moved.failed sel serving zero]; exact State.pointFails_sets
      case isFalse hold => rw [moved.held sel serving (Nat.pos_of_ne_zero hold)]; exact State.setPoint_sets s p _

/-! ### A new value (R13) -/

/-- A point once its channel `ch`, still LIVE, has taken a GOOD sample: a SERVING point whose selected channel it is takes
it, any other is left alone. -/
def State.pointRefreshed (u : State) (ch : ChannelNo) (p : PointNo) (c : PointConfig) : Point :=
  match u.selection c with
  | some (r, selected) =>
    if (u.points[p]).state = .serving ∧ (u.points[p]).rank = some r ∧ selected = ch then
      (u.channels[ch]).last.elim u.points[p] (u.servingFrom c r ch)
    else u.points[p]
  | none => u.points[p]

theorem State.refresh_sets {ch : ChannelNo} (h : s.cfg.points[p] = some c) :
    SetsPoint s (s.refresh ch p) p (s.pointRefreshed ch p c) := by
  simp only [State.refresh, State.pointRefreshed, h]
  cases s.selection c with
  | none => exact .refl s p
  | some x =>
    dsimp only
    split
    · cases last : (s.channels[ch]).last with
      | none => rw [State.serve_of_empty last]; exact .refl s p
      | some x => rw [State.serve_eq last]; exact State.servedBy_sets _ ch x
    · exact .refl s p

/-! ### Several points, in any order -/

/-- What an operation on a point makes of it depends on the channels, the configuration, the oscillator and the point. -/
structure ActsPointwise (f : State → PointNo → State) (after : State → PointNo → PointConfig → Point) : Prop where
  sets : ∀ s p c, s.cfg.points[p] = some c → SetsPoint s (f s p) p (after s p c)
  pointwise : ∀ s t p c, t.channels = s.channels → t.osc = s.osc → t.points[p] = s.points[p] → after t p c = after s p c

theorem State.selection_congr (h : t.channels = s.channels) (c : PointConfig) : t.selection c = s.selection c := by
  simp only [State.selection, h]

theorem State.servingFrom_congr (h : t.channels = s.channels) : t.servingFrom = s.servingFrom := by
  funext c r ch x
  simp only [State.servingFrom, h]

theorem reselect_actsPointwise : ActsPointwise State.reselect State.pointAfter where
  sets _ _ _ h := State.reselect_sets h
  pointwise s t p c hc ho hp := by
    simp only [State.pointAfter, State.selection_congr hc, State.servingFrom_congr hc, hc, ho, hp]

theorem refresh_actsPointwise (ch : ChannelNo) :
    ActsPointwise (State.refresh · ch ·) (State.pointRefreshed · ch · ·) where
  sets _ _ _ h := State.refresh_sets h
  pointwise s t p c hc ho hp := by
    simp only [State.pointRefreshed, State.selection_congr hc, State.servingFrom_congr hc, hc, hp]

/-- Each of several configured points is as its own operation leaves it, and every other point as it was. -/
structure PointsSet (s t : State) (l : List PointNo) (after : State → PointNo → PointConfig → Point) : Prop where
  rest : ChangesOnly (.choices :: .points :: noticeParts) s t
  set : ∀ p ∈ l, ∀ c, s.cfg.points[p] = some c → t.points[p] = after s p c
  other : ∀ p, p ∉ l → t.points[p] = s.points[p]

theorem ActsPointwise.foldl {f : State → PointNo → State} {after : State → PointNo → PointConfig → Point}
    (acts : ActsPointwise f after) {l : List PointNo} (nodup : l.Nodup)
    (configured : ∀ p ∈ l, (s.cfg.points[p]).isSome) : PointsSet s (l.foldl f s) l after := by
  induction l generalizing s with
  | nil => exact ⟨.refl _ _, by simp, by simp⟩
  | cons q l ih =>
    obtain ⟨c, hc⟩ := Option.isSome_iff_exists.mp (configured q (by simp))
    have first := acts.sets s q c hc
    obtain ⟨absent, nodup⟩ := List.nodup_cons.mp nodup
    have next := ih (s := f s q) nodup fun p hp => by rw [first.cfg]; exact configured p (by simp [hp])
    refine ⟨(first.rest.mono (by decide)).trans next.rest, ?_, ?_⟩
    · intro p hp d hd
      rw [List.foldl_cons]
      by_cases e : p = q
      · subst e
        rw [next.other p absent, first.same]
        rw [hc] at hd; cases hd; rfl
      · rw [next.set p ((List.mem_cons.mp hp).resolve_left e) d (by rw [first.cfg]; exact hd)]
        exact acts.pointwise _ _ p d first.channels first.osc (first.other e)
    · intro p hp
      rw [List.foldl_cons, next.other p fun h => hp (by simp [h]), first.other fun h => hp (by simp [h])]

theorem ActsPointwise.inAnyOrder {f : State → PointNo → State} {after : State → PointNo → PointConfig → Point}
    (acts : ActsPointwise f after) {l : List PointNo} (nodup : l.Nodup)
    (configured : ∀ p ∈ l, (s.cfg.points[p]).isSome) : PointsSet s (s.inAnyOrder l f) l after := by
  unfold State.inAnyOrder
  split
  · exact acts.foldl nodup configured
  · have perm := arrange_perm (Config.freeOrder s.choices) l
    have all := acts.foldl (s := { s with choices := s.choices + 1 }) (perm.nodup_iff.mpr nodup)
      fun p hp => configured p (perm.mem_iff.mp hp)
    refine ⟨((State.choices_changes _).mono (by decide)).trans all.rest, fun p hp c hc => ?_, fun p hp => ?_⟩
    · rw [all.set p (perm.mem_iff.mpr hp) c hc]
      exact acts.pointwise _ _ p c rfl rfl rfl
    · exact all.other p fun h => hp (perm.mem_iff.mp h)

theorem State.mem_namedBy {ch : ChannelNo} :
    p ∈ s.namedBy ch ↔ ∃ c, s.cfg.points[p] = some c ∧ c.names ch = true := by
  simp [State.namedBy, Option.any_eq_true]

theorem State.namedBy_nodup (ch : ChannelNo) : (s.namedBy ch).Nodup := (List.nodup_finRange 128).filter _

theorem State.configured_of_named {ch : ChannelNo} (h : p ∈ s.namedBy ch) : (s.cfg.points[p]).isSome := by
  obtain ⟨c, hc, _⟩ := State.mem_namedBy.mp h
  simp [hc]

/-- Every point that names a channel has re-selected, and no other point has changed (R12). -/
theorem State.reselectAll_sets (s : State) (ch : ChannelNo) :
    PointsSet s (s.reselectAll ch) (s.namedBy ch) State.pointAfter :=
  reselect_actsPointwise.inAnyOrder (State.namedBy_nodup ch) fun _ => State.configured_of_named

theorem State.refreshAll_sets (s : State) (ch : ChannelNo) :
    PointsSet s (s.inAnyOrder (s.namedBy ch) (State.refresh · ch ·)) (s.namedBy ch) (State.pointRefreshed · ch · ·) :=
  (refresh_actsPointwise ch).inAnyOrder (State.namedBy_nodup ch) fun _ => State.configured_of_named

end Sys2Proof.Machine
end

section
/-! SUPPORT. What a sample or a silence does to its channel, in the statements' terms (R3 to R6): the channel's new state,
and the points that name it re-selecting or taking the sample. -/

namespace Sys2Proof.Machine

variable {s : State} {ch : ChannelNo} {x : Sample}

theorem State.setChannel_setChannel (c d : Channel) : (s.setChannel ch c).setChannel ch d = s.setChannel ch d := by
  simp [State.setChannel]

@[simp] theorem State.setChannel_same (c : Channel) : (s.setChannel ch c).channels[ch] = c := by simp

theorem State.setChannel_other {d : ChannelNo} (ne : d ≠ ch) (c : Channel) :
    (s.setChannel ch c).channels[d] = s.channels[d] := by
  have : ch.val ≠ d.val := fun e => ne (Fin.ext e.symm)
  simp [this]

theorem State.storeSample_eq : s.storeSample ch x =
    s.setChannel ch (s.sampled x (s.channels[ch]).state (s.channels[ch]).goodRun) := rfl

/-- A GOOD sample at a LIVE channel is stored, and the points that serve from the channel take it (R4, R13). -/
theorem State.goodArrival_of_live (h : (s.channels[ch]).state = .live) : s.goodArrival ch x =
    (s.setChannel ch (s.sampled x .live (s.channels[ch]).goodRun)).inAnyOrder (s.namedBy ch) (State.refresh · ch ·) := by
  simp only [State.goodArrival, State.storeSample_eq, State.setChannel_same, State.sampled, h, if_true]
  rfl

/-- A GOOD sample outside LIVE, before the third, counts (R4). -/
theorem State.goodArrival_counts (h : (s.channels[ch]).state ≠ .live) (few : (s.channels[ch]).goodRun < 2) :
    s.goodArrival ch x = s.setChannel ch (s.sampled x (s.channels[ch]).state ((s.channels[ch]).goodRun + 1)) := by
  simp only [State.goodArrival, State.storeSample_eq, State.setChannel_same, State.sampled, if_neg h, few, if_true,
    State.setChannel_setChannel]

/-- The third GOOD sample of a run makes the channel LIVE (R4). -/
theorem State.goodArrival_third (h : (s.channels[ch]).state ≠ .live) (run : 2 ≤ (s.channels[ch]).goodRun) :
    s.goodArrival ch x =
      ((s.setChannel ch (s.sampled x .live 0)).tellEnd .channelLost (ch.val + 1)).reselectAll ch := by
  simp only [State.goodArrival, State.storeSample_eq, State.setChannel_same, State.sampled, if_neg h,
    if_neg (Nat.not_lt.mpr run), State.setChannel_setChannel, channelNumber]

/-- A SUSPECT sample empties the run, and makes the channel SUSPECT (R5). -/
theorem State.suspectArrival_eq : s.suspectArrival ch x =
    if (s.channels[ch]).state = .suspect then s.setChannel ch (s.sampled x .suspect 0)
    else (s.setChannel ch (s.sampled x .suspect 0)).reselectAll ch := by
  simp only [State.suspectArrival, State.storeSample_eq, State.setChannel_same, State.sampled,
    State.setChannel_setChannel]

/-- A LIVE or SUSPECT channel that falls silent is LOST (R6). -/
theorem State.silenceExpire_of_heard (h : (s.channels[ch]).state = .live ∨ (s.channels[ch]).state = .suspect) :
    s.silenceExpire ch = ((s.setChannel ch { s.channels[ch] with
      state := .lost, goodRun := 0, silenceFrom := none }).tellRaise .channelLost (ch.val + 1)).reselectAll ch := by
  simp only [State.silenceExpire, if_pos h, State.setChannel_same, State.setChannel_setChannel, channelNumber]

theorem State.silenceExpire_of_unheard (h : ¬ ((s.channels[ch]).state = .live ∨ (s.channels[ch]).state = .suspect)) :
    s.silenceExpire ch = s.setChannel ch { s.channels[ch] with goodRun := 0, silenceFrom := none } := by
  simp only [State.silenceExpire, if_neg h]

end Sys2Proof.Machine
end

section
/-! SUPPORT. The law of point selection (R21) under each of the operations of chapter 1: a channel that changes its state, a
channel that takes a sample, a point with a new state or a new configuration. -/

namespace Sys2Proof.Machine

variable {s t u : State} {p : PointNo} {c : PointConfig} {ch : ChannelNo}

/-! ### What the selection finds (R12) -/

theorem State.live_of_selection {x : Rank × ChannelNo} (h : s.selection c = some x) :
    (s.channels[x.2]).state = .live := by simpa using List.find?_some h

/-- A rank names one channel. -/
theorem PointConfig.ranked_unique {r : Rank} {a b : ChannelNo} (ha : (r, a) ∈ c.ranked) (hb : (r, b) ∈ c.ranked) :
    a = b := by
  obtain ⟨role, pr, x, y, m, d, lo, hi, ho⟩ := c
  cases x <;> cases y <;> cases r <;> simp_all [PointConfig.ranked]

/-- A change of a channel that the point does not name, or that is as LIVE as before, leaves the selection. -/
theorem State.selection_setChannel {x : Channel}
    (same : c.names ch = false ∨ (x.state = .live ↔ (s.channels[ch]).state = .live)) :
    (s.setChannel ch x).selection c = s.selection c := by
  have agree : ∀ y ∈ c.ranked, decide (((s.setChannel ch x).channels[y.2]).state = .live) =
      decide ((s.channels[y.2]).state = .live) := by
    rintro ⟨r, d⟩ hy
    by_cases e : d = ch
    · subst e
      cases same with
      | inl unnamed =>
        simp only [PointConfig.names, List.any_eq_false, decide_eq_true_eq] at unnamed
        exact absurd rfl (unnamed _ hy)
      | inr iff => rw [State.setChannel_same]; exact decide_eq_decide.mpr iff
    · rw [State.setChannel_other e]
  unfold State.selection
  generalize c.ranked = l at agree
  induction l with
  | nil => rfl
  | cons y l ih =>
    simp only [List.find?_cons, agree y (by simp), ih fun z hz => agree z (by simp [hz])]

/-! ### A point's own law -/

/-- The law of one point: a slot without a configuration is UNCONFIGURED, a configured one served as R21 says. -/
structure State.PointLegal (s : State) (p : PointNo) : Prop where
  vacant : s.cfg.points[p] = none → (s.points[p]).state = .unconfigured
  served : ∀ c ∈ s.cfg.points[p], s.PointServed p c

/-- Every LIVE channel holds a sample. -/
def State.LiveHeard (s : State) : Prop := ∀ ch : ChannelNo, (s.channels[ch]).state = .live → (s.channels[ch]).last.isSome

theorem State.pointsLegal_iff : s.PointsLegal ↔ s.LiveHeard ∧ ∀ p, s.PointLegal p :=
  ⟨fun h => ⟨h.live, fun p => ⟨h.vacant p, h.served p⟩⟩,
    fun h => ⟨h.1, fun p => (h.2 p).vacant, fun p => (h.2 p).served⟩⟩

theorem State.PointServed.congr (h : s.PointServed p c) (hc : t.channels = s.channels)
    (hp : t.points[p] = s.points[p]) : t.PointServed p c := by
  simpa only [State.PointServed, State.selection_congr hc, hc, hp] using h

theorem State.PointLegal.congr (h : s.PointLegal p) (hc : t.channels = s.channels)
    (hg : t.cfg.points[p] = s.cfg.points[p]) (hp : t.points[p] = s.points[p]) : t.PointLegal p :=
  ⟨fun e => by rw [hp]; exact h.vacant (hg ▸ e), fun c e => (h.served c (hg ▸ e)).congr hc hp⟩

theorem State.PointsLegal.of_keeps (legal : s.PointsLegal) (h : KeepsPoints s t) : t.PointsLegal := by
  obtain ⟨hc, hp, hg⟩ := h
  obtain ⟨live, point⟩ := State.pointsLegal_iff.mp legal
  refine State.pointsLegal_iff.mpr ⟨by rw [State.LiveHeard, hc]; exact live, fun p => (point p).congr hc ?_ ?_⟩
  · rw [hg]
  · rw [hp]

/-- A point of its own is changed, with its configuration; the law asks only about that point. -/
theorem State.PointsLegal.of_point (legal : s.PointsLegal) (hc : t.channels = s.channels)
    (other : ∀ q : PointNo, q ≠ p → t.cfg.points[q] = s.cfg.points[q] ∧ t.points[q] = s.points[q])
    (own : t.PointLegal p) : t.PointsLegal := by
  obtain ⟨live, point⟩ := State.pointsLegal_iff.mp legal
  refine State.pointsLegal_iff.mpr ⟨by rw [State.LiveHeard, hc]; exact live, fun q => ?_⟩
  by_cases e : q = p
  · exact e ▸ own
  · exact (point q).congr hc (other q e).1 (other q e).2

theorem State.PointServed.configured (h : s.PointServed p c) : (s.points[p]).state ≠ .unconfigured := by
  obtain ⟨some_, none_⟩ := h
  cases sel : s.selection c with
  | some x => rw [(some_ x sel).1]; simp
  | none => obtain e | e | e := none_ sel <;> rw [e] <;> simp

/-- Without a LIVE channel any state of a configured point but SERVING meets the law. -/
theorem State.PointServed.of_none (sel : s.selection c = none) (configured : (s.points[p]).state ≠ .unconfigured)
    (idle : (s.points[p]).state ≠ .serving) : s.PointServed p c := by
  refine ⟨fun x hx => by simp [sel] at hx, fun _ => ?_⟩
  cases e : (s.points[p]).state <;> simp_all

theorem State.PointServed.of_servingFrom {r : Rank} {y : Sample} (sel : s.selection c = some (r, ch))
    (last : (s.channels[ch]).last = some y) (hp : s.points[p] = s.servingFrom c r ch y) : s.PointServed p c := by
  refine ⟨fun x hx => ?_, fun e => by simp [sel] at e⟩
  obtain rfl : (r, ch) = x := Option.some.inj (sel.symm.trans hx)
  rw [hp]
  exact ⟨rfl, rfl, rfl, y, last, rfl, rfl⟩

/-! ### Before a re-selection -/

/-- What a re-selection needs of a point: it is configured, and where it serves at the rank of its highest-ranked LIVE
channel it already meets the law. -/
structure State.PointReady (s : State) (p : PointNo) (c : PointConfig) : Prop where
  configured : (s.points[p]).state ≠ .unconfigured
  kept : ∀ r ch, s.selection c = some (r, ch) → (s.points[p]).state = .serving → (s.points[p]).rank = some r →
    s.PointServed p c

/-- A re-selection brings a ready point under the law (R12, R21). -/
theorem State.PointReady.reselected (ready : s.PointReady p c) (live : s.LiveHeard) (hc : t.channels = s.channels)
    (hp : t.points[p] = s.pointAfter p c) : t.PointServed p c := by
  have sel' := State.selection_congr hc c
  simp only [State.pointAfter] at hp
  cases sel : s.selection c with
  | some x =>
    obtain ⟨r, ch⟩ := x
    simp only [sel] at hp
    split at hp
    case isTrue held => exact (ready.kept r ch sel held.1 held.2).congr hc hp
    case isFalse =>
      obtain ⟨y, last⟩ := Option.isSome_iff_exists.mp (live ch (State.live_of_selection sel))
      rw [last, Option.elim_some, ← State.servingFrom_congr hc] at hp
      exact .of_servingFrom (sel'.trans sel) (hc ▸ last) hp
  | none =>
    have configured := ready.configured
    simp only [sel] at hp
    refine .of_none (sel'.trans sel) ?_ ?_ <;> rw [hp]
    · split
      · exact configured
      · split <;> simp
    · split
      · assumption
      · split <;> simp

/-- A channel that ends LIVE, or becomes LIVE, leaves every point ready to re-select. -/
theorem State.PointServed.ready {x : Channel} (served : s.PointServed p c)
    (changed : x.state = .live → (s.channels[ch]).state ≠ .live) : (s.setChannel ch x).PointReady p c := by
  refine ⟨served.configured, fun r a sel serving rank => ?_⟩
  obtain ⟨some_, none_⟩ := served
  cases before : s.selection c with
  | none =>
    have idle := none_ before
    rw [show (s.points[p]).state = .serving from serving] at idle
    simp at idle
  | some y =>
    obtain ⟨q, b⟩ := y
    obtain ⟨_, rankBefore, time, z, last, value⟩ := some_ (q, b) before
    obtain rfl : q = r := Option.some.inj (rankBefore.symm.trans rank)
    obtain rfl : a = b :=
      PointConfig.ranked_unique (List.mem_of_find?_eq_some sel) (List.mem_of_find?_eq_some before)
    have liveBefore := State.live_of_selection before
    have liveNow := State.live_of_selection sel
    have other : a ≠ ch := by
      rintro rfl
      exact changed (by simpa using liveNow) liveBefore
    have same := State.setChannel_other other x (s := s)
    refine ⟨fun w hw => ?_, fun e => by simp [sel] at e⟩
    obtain rfl : (q, a) = w := Option.some.inj (sel.symm.trans hw)
    rw [same]
    exact ⟨serving, rank, time, z, last, value⟩

/-- A change of a channel that the selection neither finds nor misses leaves a point as the law wants it. -/
theorem State.PointServed.setChannel {x : Channel} (served : s.PointServed p c)
    (same : c.names ch = false ∨ (x.state = .live ↔ (s.channels[ch]).state = .live))
    (away : ∀ r, s.selection c ≠ some (r, ch)) : (s.setChannel ch x).PointServed p c := by
  have sel := State.selection_setChannel same
  refine ⟨fun w hw => ?_, fun e => served.2 (sel ▸ e)⟩
  have hw : s.selection c = some w := sel ▸ hw
  have other : w.2 ≠ ch := fun e => away w.1 (by rw [hw, ← e])
  rw [State.setChannel_other other]
  exact served.1 w hw

theorem State.selection_ne_of_unnamed (h : c.names ch = false) (r : Rank) : s.selection c ≠ some (r, ch) := fun e => by
  simp only [PointConfig.names, List.any_eq_false, decide_eq_true_eq] at h
  exact h _ (List.mem_of_find?_eq_some e) rfl

/-! ### A channel's change among all points -/

theorem State.LiveHeard.setChannel {x : Channel} (live : s.LiveHeard) (h : x.state = .live → x.last.isSome) :
    (s.setChannel ch x).LiveHeard := fun d hd => by
  by_cases e : d = ch
  · subst e; rw [State.setChannel_same] at hd ⊢; exact h hd
  · rw [State.setChannel_other e] at hd ⊢; exact live d hd

theorem names_eq_false_of_not_mem (hc : s.cfg.points[p] = some c) (h : p ∉ s.namedBy ch) : c.names ch = false := by
  rw [← Bool.not_eq_true]
  exact fun e => h (State.mem_namedBy.mpr ⟨c, hc, e⟩)

/-- The channel changes its state, and the points that name it re-select: the law holds again (R12, R21). -/
theorem State.PointsLegal.reselectAll {x : Channel} (legal : s.PointsLegal)
    (changed : x.state = .live → (s.channels[ch]).state ≠ .live) (heard : x.state = .live → x.last.isSome)
    (h : KeepsPoints (s.setChannel ch x) u) : (u.reselectAll ch).PointsLegal := by
  obtain ⟨live, point⟩ := State.pointsLegal_iff.mp legal
  obtain ⟨hc, hp, hg⟩ := h
  have live := (live.setChannel heard : (s.setChannel ch x).LiveHeard)
  have liveU : u.LiveHeard := by rw [State.LiveHeard, hc]; exact live
  have set := State.reselectAll_sets u ch
  have channels : (u.reselectAll ch).channels = u.channels := set.rest .channels (by decide)
  have cfg : (u.reselectAll ch).cfg = u.cfg := set.rest .cfg (by decide)
  refine State.pointsLegal_iff.mpr ⟨by rw [State.LiveHeard, channels]; exact liveU, fun p => ⟨fun e => ?_, fun c e => ?_⟩⟩
  · rw [cfg] at e
    rw [set.other p fun named => by simpa [e] using State.configured_of_named named, hp]
    exact (point p).vacant (by rw [hg] at e; exact e)
  · rw [cfg] at e
    have served := (point p).served c (by rw [hg] at e; exact e)
    by_cases named : p ∈ u.namedBy ch
    · have ready : u.PointReady p c := by
        obtain ⟨configured, kept⟩ := served.ready changed
        refine ⟨by rw [hp]; exact configured, fun r a sel serving rank => ?_⟩
        rw [hp] at serving rank
        exact (kept r a (State.selection_congr hc c ▸ sel) serving rank).congr hc (by rw [hp])
      exact ready.reselected liveU channels (set.set p named c e)
    · have unnamed := names_eq_false_of_not_mem e named
      exact (served.setChannel (.inl unnamed) (State.selection_ne_of_unnamed unnamed)).congr (channels.trans hc)
        (by rw [set.other p named, hp])

/-- A channel that is not LIVE, before and after, is no point's source (R21). -/
theorem State.PointsLegal.setChannel {x : Channel} (legal : s.PointsLegal) (before : (s.channels[ch]).state ≠ .live)
    (after : x.state ≠ .live) : (s.setChannel ch x).PointsLegal := by
  obtain ⟨live, point⟩ := State.pointsLegal_iff.mp legal
  refine State.pointsLegal_iff.mpr ⟨live.setChannel fun e => absurd e after, fun p => ⟨(point p).vacant, fun c e => ?_⟩⟩
  exact ((point p).served c e).setChannel (.inr (iff_of_false after before))
    fun r sel => before (State.live_of_selection sel)

/-- A LIVE channel takes a sample, and the points that serve from it take it (R13, R21). -/
theorem State.PointsLegal.refreshAll {x : Channel} (legal : s.PointsLegal) (before : (s.channels[ch]).state = .live)
    (after : x.state = .live) {y : Sample} (last : x.last = some y) :
    ((s.setChannel ch x).inAnyOrder (s.namedBy ch) (State.refresh · ch ·)).PointsLegal := by
  obtain ⟨live, point⟩ := State.pointsLegal_iff.mp legal
  have set : PointsSet (s.setChannel ch x)
      ((s.setChannel ch x).inAnyOrder (s.namedBy ch) (State.refresh · ch ·)) (s.namedBy ch)
      (State.pointRefreshed · ch · ·) := State.refreshAll_sets (s.setChannel ch x) ch
  have channels : _ = (s.setChannel ch x).channels := set.rest .channels (by decide)
  have cfg : _ = s.cfg := set.rest .cfg (by decide)
  have live := live.setChannel (ch := ch) (x := x) fun _ => by simp [last]
  refine State.pointsLegal_iff.mpr ⟨by rw [State.LiveHeard, channels]; exact live, fun p => ⟨fun e => ?_, fun c e => ?_⟩⟩
  · rw [cfg] at e
    rw [set.other p fun named => by
      have := State.configured_of_named named
      rw [show s.cfg.points[p] = none from e] at this
      cases this]
    exact (point p).vacant e
  · rw [cfg] at e
    have served := (point p).served c e
    have sel := State.selection_setChannel (s := s) (c := c) (.inr (iff_of_true after before))
    by_cases named : p ∈ s.namedBy ch
    · have own := set.set p named c e
      by_cases source : ∃ r, s.selection c = some (r, ch)
      · obtain ⟨r, source⟩ := source
        obtain ⟨serving, rank, _⟩ := served.1 _ source
        simp only [State.pointRefreshed, sel, source, State.setChannel_points, serving, rank, and_self, if_true,
          State.setChannel_same, last, Option.elim_some] at own
        rw [← State.servingFrom_congr channels] at own
        exact .of_servingFrom ((State.selection_congr channels c).trans (sel.trans source))
          (by rw [channels, State.setChannel_same]; exact last) own
      · have away : ∀ r, s.selection c ≠ some (r, ch) := fun r e => source ⟨r, e⟩
        refine (served.setChannel (.inr (iff_of_true after before)) away).congr channels (own.trans ?_)
        simp only [State.pointRefreshed, sel]
        split
        · rename_i r selected found
          rw [if_neg]
          rintro ⟨_, _, rfl⟩
          exact away r found
        · rfl
    · have unnamed := names_eq_false_of_not_mem e named
      exact (served.setChannel (.inl unnamed) (State.selection_ne_of_unnamed unnamed)).congr channels
        (set.other p named)

end Sys2Proof.Machine
end

section
/-! SUPPORT. The law of point selection (R21) under each command, and O11. -/

namespace Sys2Proof.Machine

variable {s t u : State} {p : PointNo} {c : PointConfig} {ch : ChannelNo}

/-! ### Samples, silences and timers -/

theorem State.PointsLegal.sampleArrival (legal : s.PointsLegal) (x : Sample) : (s.sampleArrival ch x).PointsLegal := by
  unfold State.sampleArrival
  split
  · by_cases live : (s.channels[ch]).state = .live
    · rw [State.goodArrival_of_live live]
      exact legal.refreshAll live rfl rfl
    · by_cases few : (s.channels[ch]).goodRun < 2
      · rw [State.goodArrival_counts live few]
        exact legal.setChannel live live
      · rw [State.goodArrival_third live (Nat.not_lt.mp few)]
        exact legal.reselectAll (fun _ => live) (fun _ => rfl) (State.tellEnd_changes _ _).keepsPoints
  · rw [State.suspectArrival_eq]
    split
    case isTrue suspect => exact legal.setChannel (by rw [suspect]; simp) (by simp [State.sampled])
    case isFalse => exact legal.reselectAll (by simp [State.sampled]) (by simp [State.sampled]) (.refl _)

theorem State.PointsLegal.silenceExpire (legal : s.PointsLegal) : (s.silenceExpire ch).PointsLegal := by
  by_cases heard : (s.channels[ch]).state = .live ∨ (s.channels[ch]).state = .suspect
  · rw [State.silenceExpire_of_heard heard]
    exact legal.reselectAll (by simp) (by simp) (State.tellRaise_changes _ _).keepsPoints
  · rw [State.silenceExpire_of_unheard heard]
    exact legal.setChannel (fun e => heard (.inl e)) fun e => heard (.inl e)

theorem State.PointsLegal.takeFrame (legal : s.PointsLegal) (channel kind : Byte) (body : List Byte) (check : Byte) :
    (s.takeFrame channel kind body check).PointsLegal := by
  unfold State.takeFrame
  split
  · split
    · exact legal.sampleArrival _
    · exact legal
  · exact legal

theorem State.PointsLegal.setLine (legal : s.PointsLegal) (l : FieldLineNo) (x : FieldLine) :
    (s.setLine l x).PointsLegal := legal.of_keeps (State.setLine_changes l x).keepsPoints

theorem State.PointsLegal.fieldByte (legal : s.PointsLegal) (l : FieldLineNo) (b : Byte) (stop : Bool) :
    (s.fieldByte l b stop).PointsLegal := by
  unfold State.fieldByte
  split
  · exact legal.setLine _ _
  · split
    · split
      · exact legal.setLine _ _
      · exact legal
    · exact legal.setLine _ _
    · split <;> exact legal.setLine _ _
    · split
      · exact legal.setLine _ _
      · exact (legal.setLine _ _).takeFrame _ _ _ _

/-- A configured point without a LIVE channel is set to a state other than SERVING. -/
theorem State.PointsLegal.of_setsPoint {x : Point} (legal : s.PointsLegal) (h : SetsPoint s t p x)
    (hc : s.cfg.points[p] = some c) (sel : s.selection c = none) (configured : x.state ≠ .unconfigured)
    (idle : x.state ≠ .serving) : t.PointsLegal := by
  refine legal.of_point h.channels (fun q ne => ⟨by rw [h.cfg], h.other ne⟩) ⟨fun e => ?_, fun d hd => ?_⟩
  · rw [h.cfg, hc] at e; cases e
  · rw [h.cfg, hc] at hd
    cases hd
    exact .of_none ((State.selection_congr h.channels c).trans sel) (by rw [h.same]; exact configured)
      (by rw [h.same]; exact idle)

theorem State.PointServed.selection_none (served : s.PointServed p c) (idle : (s.points[p]).state ≠ .serving) :
    s.selection c = none := by
  cases sel : s.selection c with
  | none => rfl
  | some x => exact absurd (served.1 x sel).1 idle

theorem State.PointsLegal.holdExpiry (legal : s.PointsLegal) : (s.holdExpiry p).PointsLegal := by
  unfold State.holdExpiry
  split
  · exact legal
  case h_2 c hc =>
    split
    case isTrue held =>
      exact legal.of_setsPoint State.pointFails_sets hc
        ((legal.served p c hc).selection_none (by rw [held.1]; simp)) (by simp) (by simp)
    case isFalse => exact legal

theorem State.PointsLegal.waitingExpiry (legal : s.PointsLegal) : (s.waitingExpiry p).PointsLegal := by
  unfold State.waitingExpiry
  split
  case isTrue waits =>
    obtain ⟨awaiting, _⟩ := waits
    have put : SetsPoint s _ p { s.points[p] with waitDue := none } :=
      (State.setPoint_sets s p _).notice ((State.tellRaise_changes .pointFailed (pointNumber p)).mono (by decide))
    cases hc : s.cfg.points[p] with
    | none => rw [legal.vacant p hc] at awaiting; cases awaiting
    | some c =>
      exact legal.of_setsPoint put hc ((legal.served p c hc).selection_none (by rw [awaiting]; simp))
        (by rw [awaiting]; simp) (by rw [awaiting]; simp)
  case isFalse => exact legal

/-! ### Configure Channel (R3) -/

theorem configureChannelOwner_legal (legal : s.PointsLegal) (n k : Byte) (l : Half) :
    (configureChannelOwner n k l s).2.PointsLegal := by
  have put (ch : ChannelNo) (x : ChannelConfig) : (s.putChannelConfig ch x).PointsLegal :=
    legal.of_keeps ⟨rfl, rfl, rfl⟩
  unfold configureChannelOwner
  split
  case h_2 => exact legal
  case h_1 ch k _ _ =>
    dsimp only
    split
    · exact legal
    split
    · exact legal
    split
    · split
      case isFalse => exact legal
      case isTrue unnamed =>
        have nobody : s.namedBy ch = [] := List.isEmpty_iff.mp unnamed
        have started := (put ch { kind := k, silence := l.toNat }).reselectAll (x := .start) (ch := ch)
          (by simp [Channel.start]) (by simp [Channel.start])
          (State.tellEnd_changes .channelLost (channelNumber ch)).keepsPoints
        have same : (((s.putChannelConfig ch { kind := k, silence := l.toNat }).setChannel ch .start).tellEnd .channelLost
            (channelNumber ch)).namedBy ch = [] := nobody
        rw [State.reselectAll, same] at started
        exact started
    · split
      · exact (put _ _).silenceExpire
      · exact put _ _

/-! ### Configure Point (R11) -/

/-- Slot `p` has the configuration `c` in `t`, and every other slot the one it has in `s`. -/
structure PutsConfig (s t : State) (p : PointNo) (c : Option PointConfig) : Prop where
  channels : t.channels = s.channels
  same : t.cfg.points[p] = c
  other : ∀ q : PointNo, q ≠ p → t.cfg.points[q] = s.cfg.points[q] ∧ t.points[q] = s.points[q]

theorem State.putPointConfig_puts (s : State) (p : PointNo) (c : Option PointConfig) :
    PutsConfig s (s.putPointConfig p c) p c := by
  refine ⟨rfl, by simp [State.putPointConfig], fun q ne => ⟨?_, rfl⟩⟩
  have : p.val ≠ q.val := fun e => ne (Fin.ext e.symm)
  simp [State.putPointConfig, this]

theorem PutsConfig.sets {o : Option PointConfig} {x : Point} (h : PutsConfig s t p o) (k : SetsPoint t u p x) :
    PutsConfig s u p o :=
  ⟨k.channels.trans h.channels, by rw [k.cfg]; exact h.same, fun q ne =>
    ⟨by rw [k.cfg]; exact (h.other q ne).1, (k.other ne).trans (h.other q ne).2⟩⟩

theorem State.PointsLegal.configured (legal : s.PointsLegal) (h : PutsConfig s t p (some c))
    (served : t.PointServed p c) : t.PointsLegal :=
  legal.of_point h.channels h.other ⟨fun e => absurd (h.same.symm.trans e) (by simp), fun d hd => by
    rw [h.same] at hd
    cases hd
    exact served⟩

theorem State.PointsLegal.emptied (legal : s.PointsLegal) (h : PutsConfig s t p none)
    (vacant : (t.points[p]).state = .unconfigured) : t.PointsLegal :=
  legal.of_point h.channels h.other ⟨fun _ => vacant, fun d hd => by
    rw [h.same] at hd
    cases hd⟩

/-- Without a LIVE channel the new configuration's point keeps or gets a state that the law allows. -/
theorem State.PointsLegal.configured_idle {x : Point} (legal : s.PointsLegal) (h : PutsConfig s t p (some c))
    (k : SetsPoint t u p x) (sel : t.selection c = none) (configured : x.state ≠ .unconfigured)
    (idle : x.state ≠ .serving) : u.PointsLegal :=
  legal.configured (h.sets k) (.of_none ((State.selection_congr k.channels c).trans sel)
    (by rw [k.same]; exact configured) (by rw [k.same]; exact idle))

theorem State.loseSources_sets : SetsPoint s (s.loseSources p c) p
    (if 0 < c.hold then { s.points[p] with state := .holding, holdDue := some (s.osc + c.hold) }
      else { s.points[p] with state := .failed, holdDue := none }) := by
  unfold State.loseSources
  split
  · exact State.setPoint_sets s p _
  · exact State.pointFails_sets

theorem State.PointsLegal.reconfigure (legal : s.PointsLegal) (configured : (s.points[p]).state ≠ .unconfigured) :
    (s.reconfigure p c).PointsLegal := by
  have put := State.putPointConfig_puts s p (some c)
  have live : (s.putPointConfig p (some c)).LiveHeard := legal.live
  unfold State.reconfigure
  dsimp only
  split
  case h_1 r ch sel =>
    obtain ⟨y, last⟩ := Option.isSome_iff_exists.mp (live ch (State.live_of_selection sel))
    have set := State.servedBy_sets (s := s.putPointConfig p (some c)) (p := p) (c := c) r ch y
    rw [State.serve_eq last]
    refine legal.configured (put.sets set) (.of_servingFrom ((State.selection_congr set.channels c).trans sel)
      (y := y) ?_ ?_)
    · rw [set.channels]; exact last
    · rw [set.same, State.servingFrom_congr set.channels]
  case h_2 sel =>
    split
    · exact legal.configured_idle put State.loseSources_sets sel (by split <;> simp) (by split <;> simp)
    case h_2 holding =>
      split
      · exact legal.configured_idle put State.pointFails_sets sel (by simp) (by simp)
      · exact legal.configured_idle put (State.setPoint_sets _ p _) sel (by rw [holding]; simp) (by rw [holding]; simp)
    case h_3 awaiting =>
      exact legal.configured_idle put (State.setPoint_sets _ p _) sel (by rw [awaiting]; simp) (by rw [awaiting]; simp)
    case h_4 failed =>
      exact legal.configured_idle put (.refl _ p) sel configured
        (show (s.points[p]).state ≠ .serving by rw [failed]; simp)
    case h_5 vacant => exact absurd vacant configured

theorem State.replacePoint_sets (s : State) (p : PointNo) (old c : Option PointConfig) (x : Point) :
    SetsPoint (s.putPointConfig p c) (s.replacePoint p old c x) p x := by
  refine ((State.setPoint_sets _ p x).notice ?_).notice ((State.tellEnd_changes _ _).mono (by decide))
  cases old with
  | none => exact .refl _ _
  | some o => exact .ite (State.failedEvent_notice _) (.refl _ _)

/-- A fresh point that re-selects at its configuration (R11 ii). -/
theorem State.PointsLegal.replaced (legal : s.PointsLegal) (old : Option PointConfig) :
    ((s.replacePoint p old (some c) s.freshPoint).reselect p).PointsLegal := by
  have set := State.replacePoint_sets s p old (some c) s.freshPoint
  have put := (State.putPointConfig_puts s p (some c)).sets set
  have live : (s.replacePoint p old (some c) s.freshPoint).LiveHeard := by
    rw [State.LiveHeard, put.channels]; exact legal.live
  have ready : (s.replacePoint p old (some c) s.freshPoint).PointReady p c :=
    ⟨by rw [set.same]; simp [State.freshPoint], fun r a _ serving _ => by
      rw [set.same] at serving; simp [State.freshPoint] at serving⟩
  have again := State.reselect_sets put.same
  exact legal.configured (put.sets again) (ready.reselected live again.channels again.same)

theorem State.PointsLegal.configurePoint (legal : s.PointsLegal) (o : Option PointConfig) :
    (s.configurePoint p o).PointsLegal := by
  unfold State.configurePoint
  split
  case h_1 old new hold =>
    split
    · exact legal.reconfigure (legal.served p old hold).configured
    · exact legal.replaced _
  case h_2 => exact legal.replaced _
  case h_3 =>
    have set := State.replacePoint_sets s p s.cfg.points[p] none .vacant
    exact legal.emptied ((State.putPointConfig_puts s p none).sets set) (by rw [set.same]; rfl)

theorem configurePointOwner_legal (legal : s.PointsLegal) (v : Byte) (f : RawPoint) :
    (configurePointOwner v f s).2.PointsLegal := by
  unfold configurePointOwner
  split
  · exact legal
  · split
    · exact legal
    · split
      · exact legal
      · exact legal.configurePoint _

/-! ### The start state and the restart (R177) -/

theorem State.atStart_legal (s : State) : s.atStart.PointsLegal := by
  have start := State.atStart_blocks s
  have quiet (ch : ChannelNo) : (s.atStart.channels[ch]).state ≠ .live := by rw [start.channels]; simp
  refine ⟨fun ch live => absurd live (quiet ch), fun p e => ?_, fun p c e => ?_⟩
  · rw [start.points, e]; rfl
  · refine .of_none ?_ ?_ ?_
    · exact List.find?_eq_none.mpr fun x _ => by simpa using quiet x.2
    all_goals rw [start.points, show s.atStart.cfg.points[p] = some c from e]; simp

theorem State.restart_legal (s : State) (found : StoreFinding) : (s.restart found).PointsLegal := by
  obtain ⟨u, kept⟩ := State.restart_keepsPoints (s := s) found
  exact (State.atStart_legal u).of_keeps kept

/-! ### The host link -/

theorem owner_legal {i : Instr} {f : State → Served} (h : owner i = some f) (legal : s.PointsLegal) :
    (f s).2.PointsLegal := by
  cases i with
  | configureChannel n k l => cases h; exact configureChannelOwner_legal legal n k l
  | configurePoint v g => cases h; exact configurePointOwner_legal legal v g
  | _ => first
    | cases h; done
    | exact legal.of_keeps (owner_keepsPoints h (by simp [footprint, closeParts]))

/-- A request command is its owner's side of the request (R166). -/
theorem exec_of_owner {i : Instr} {f : State → Served} (h : owner i = some f) (s : State) :
    exec i s = serveRequest s f := by
  cases i <;> cases h <;> rfl

theorem State.PointsLegal.takeActs (legal : s.PointsLegal) : s.takeActs.PointsLegal :=
  legal.of_keeps State.takeActs_changes.keepsPoints

theorem handleRequest_legal (legal : s.PointsLegal) (kind : Byte) (payload : List Byte) :
    (handleRequest kind payload s).2.PointsLegal := by
  unfold handleRequest
  split
  · exact legal
  · split
    case h_1 f h => exact owner_legal h legal
    case h_2 => exact legal

theorem State.PointsLegal.setLink (legal : s.PointsLegal) (h : HostLink) : (s.setLink h).PointsLegal :=
  legal.of_keeps (State.setLink_changes h).keepsPoints

theorem State.PointsLegal.validFrame (legal : s.PointsLegal) (kind tag : Byte) (payload : List Byte) :
    (s.validFrame kind tag payload).PointsLegal := by
  have greeted : s.greetFrame.PointsLegal := by
    unfold State.greetFrame
    dsimp only
    split
    · exact (legal.setLink _).of_keeps (State.endCause_changes _ _).keepsPoints
    · exact legal.setLink _
  unfold State.validFrame
  dsimp only
  split
  · exact ((handleRequest_legal greeted kind payload).of_keeps (Served.record_keepsPoints _)).takeActs.setLink _
  · split
    · exact greeted.setLink _
    · exact greeted

theorem State.PointsLegal.abandonFrame (legal : s.PointsLegal) : s.abandonFrame.PointsLegal :=
  (legal.setLink _).of_keeps (State.tellRaise_changes _ _).keepsPoints

theorem State.PointsLegal.headerByte (legal : s.PointsLegal) (taken : List Byte) (b : Byte) :
    (s.headerByte taken b).PointsLegal := by
  unfold State.headerByte
  split
  · split
    · exact legal.abandonFrame
    · exact legal.setLink _
  · exact legal.setLink _
  · exact legal.setLink _

theorem State.PointsLegal.linkByte (legal : s.PointsLegal) (b : Byte) (stop : Bool) :
    (s.linkByte b stop).PointsLegal := by
  unfold State.linkByte
  split
  · unfold State.assemble
    split
    · split <;> exact legal.setLink _
    · exact legal.headerByte _ _
    · exact legal.setLink _
    · exact legal.setLink _
    · split
      · exact legal.validFrame _ _ _
      · exact legal.abandonFrame
  · split
    · exact legal.abandonFrame
    · exact legal.setLink _

theorem State.PointsLegal.replySent (legal : s.PointsLegal) : s.replySent.PointsLegal := by
  unfold State.replySent
  split
  · exact State.restart_legal s nothingLost
  · unfold State.replyEnds
    split
    · exact legal
    · exact legal.setLink _
    · exact legal.setLink _

/-! ### The clock (R172) -/

theorem State.PointsLegal.wrapSecond (legal : s.PointsLegal) : s.wrapSecond.PointsLegal := by
  have note {t : State} (h : KeepsPoints s t) : KeepsPoints s t.noteMinute :=
    h.trans (.ite ⟨rfl, rfl, rfl⟩ (.refl _))
  have passed := note (t := { s.secondPasses with clock := { s.clock with reading := 0, valid := false } }) ⟨rfl, rfl, rfl⟩
  unfold State.wrapSecond
  refine legal.of_keeps ?_
  exact .ite (((passed.trans (State.tellReport_changes _ _).keepsPoints).trans
    State.scheduleWrap_changes.keepsPoints).trans (State.endEvent_keepsPoints _)) passed

theorem State.PointsLegal.clockSecond (legal : s.PointsLegal) : s.clockSecond.PointsLegal := by
  unfold State.clockSecond
  split
  · exact legal.of_keeps (KeepsPoints.trans ⟨rfl, rfl, rfl⟩ (.ite ⟨rfl, rfl, rfl⟩ (.refl _)))
  · exact legal.wrapSecond

/-! ### Every command -/

/-- An event keeps the law where what it does to the running module keeps it. -/
theorem duringOperation_legal {f : State → State} (h : duringOperation s f = .next t) (legal : s.PointsLegal)
    (keeps : (f s).PointsLegal) : t.PointsLegal := by
  rw [duringOperation_next] at h
  cases h
  split
  · exact keeps.of_keeps (State.endEvent_keepsPoints _)
  · exact legal

/-- An event of a block other than chapter 1 keeps the law: it leaves the points alone. -/
theorem duringOperation_legal_of_changes {f : State → State} {l : List Part} (h : duringOperation s f = .next t)
    (legal : s.PointsLegal) (keeps : ChangesOnly l s (f s))
    (away : ∀ p ∈ [Part.channels, .points, .cfg], p ∉ l := by decide) : t.PointsLegal :=
  duringOperation_legal h legal (legal.of_keeps (keeps.keepsPoints away))

theorem exec_keeps_pointsLegal {i : Instr} (legal : s.PointsLegal) (h : exec i s = .next t) : t.PointsLegal := by
  cases served : owner i with
  | some f =>
    rw [exec_of_owner served] at h
    exact duringOperation_legal h legal ((owner_legal served legal).of_keeps (Served.record_keepsPoints _))
  | none =>
  cases i with
  | powerOn found =>
    cases h
    unfold State.powerOn
    split
    · exact legal
    · dsimp only
      split
      · exact State.atStart_legal _
      · exact State.restart_legal _ _
  | resetAsserted =>
    cases h
    unfold State.assertReset
    dsimp only
    split
    · exact State.atStart_legal _
    · exact legal.of_keeps ⟨rfl, rfl, rfl⟩
  | resetReleased found =>
    cases h
    unfold State.releaseReset
    split
    · dsimp only
      split
      · exact State.restart_legal _ _
      · exact legal.of_keeps ⟨rfl, rfl, rfl⟩
    · exact legal
  | powerFailure w =>
    cases h
    unfold State.powerFail
    split
    · exact State.atStart_legal _
    · exact legal
  | clockWrap =>
    cases h
    split
    · exact legal
    · exact legal.wrapSecond
  | calendarClockSecond => cases h; exact legal.clockSecond
  | plantReleaseFall =>
    simp only [exec, execPlantReleaseFall] at h
    have moved : ({ s with plantRelease := false } : State).PointsLegal := legal.of_keeps ⟨rfl, rfl, rfl⟩
    split at h
    · exact duringOperation_legal_of_changes h moved State.releaseFall_changes
    · cases h; exact legal
  | plantReleaseRise =>
    simp only [exec, execPlantReleaseRise] at h
    have moved : ({ s with plantRelease := true } : State).PointsLegal := legal.of_keeps ⟨rfl, rfl, rfl⟩
    split at h
    · cases h; exact legal
    · exact duringOperation_legal_of_changes h moved State.releaseRise_changes
  | fieldSampleFrame l c k b x => exact duringOperation_legal (f := (·.fieldFrame l c k b x)) h legal ((legal.setLine _ _).takeFrame _ _ _ _)
  | fieldFrameGapExpiry l => exact duringOperation_legal (f := (·.setLine l .hunting)) h legal (legal.setLine _ _)
  | fieldLineByteReceived l b stop => exact duringOperation_legal (f := (·.fieldByte l b stop)) h legal (legal.fieldByte l b stop)
  | silenceExpiry ch =>
    refine duringOperation_legal (f := (·.silenceExpiry ch)) h legal ?_
    unfold State.silenceExpiry
    split
    · exact legal.silenceExpire
    · exact legal
  | holdExpiry p => exact duringOperation_legal (f := (·.holdExpiry p)) h legal legal.holdExpiry
  | waitingTimerExpiry p => exact duringOperation_legal (f := (·.waitingExpiry p)) h legal legal.waitingExpiry
  | filterExpiry d => exact duringOperation_legal_of_changes h legal (State.filterExpiry_changes d)
  | dispatchExpiry => exact duringOperation_legal_of_changes h legal State.dispatchExpiry_changes
  | setpointFrameSent => exact duringOperation_legal_of_changes h legal State.frameSent_changes
  | purgeExpiry b => exact duringOperation_legal_of_changes h legal (State.purgeExpiry_changes b)
  | lightOffExpiry b => exact duringOperation_legal_of_changes h legal (State.lightOffExpiry_changes b)
  | confirmExpiry b => exact duringOperation_legal_of_changes h legal (State.confirmExpiry_changes b)
  | deadExpiry b => exact duringOperation_legal_of_changes h legal (State.deadExpiry_changes b)
  | tripHistoryAgeingExpiry b => exact duringOperation_legal_of_changes (f := (·.tripAgeing b)) h legal (State.tripAgeing_changes b)
  | boundaryExpiry =>
    exact duringOperation_legal_of_changes h legal (.ite State.takeBoundary_changes (.refl _ _))
  | gateExpiry => exact duringOperation_legal_of_changes h legal (.ite State.reckonMissing_changes (.refl _ _))
  | emergencyStart n =>
    exact duringOperation_legal_of_changes h legal (.ite (State.emergencyStart_changes n) (.refl _ _))
  | ordinaryStart n =>
    exact duringOperation_legal_of_changes h legal (.ite (State.ordinaryStart_changes n) (.refl _ _))
  | activeOrderEnd =>
    refine duringOperation_legal_of_changes h legal (l := [.que, .esu, .marks]) ?_
    unfold State.activeOrderEnd
    split
    · exact .refl _ _
    · exact .ite (State.removeActive_changes _) (.refl _ _)
  | inactiveOrderEnd n =>
    exact duringOperation_legal_of_changes h legal
      (.ite ((State.setOrder_changes n none).append State.markQueues_changes) (.refl _ _))
  | meterWaitExpiry =>
    exact duringOperation_legal_of_changes h legal (.ite (State.endWait_changes none) (.refl _ _))
  | estimationMinute => exact duringOperation_legal_of_changes h legal State.estimationMinute_changes
  | startUpWatchExpiry => exact duringOperation_legal_of_changes h legal State.startUpWatchExpiry_changes
  | closeExpiry => exact duringOperation_legal h legal (legal.of_keeps State.reckonCloses_keepsPoints)
  | hostFrameValid k g x => exact duringOperation_legal (f := (·.validFrame k g x)) h legal (legal.validFrame k g x)
  | frameAbandoned => exact duringOperation_legal h legal legal.abandonFrame
  | hostGapExpiry =>
    refine duringOperation_legal h legal ?_
    unfold State.linkGap
    split
    · exact legal.abandonFrame
    · exact legal.setLink _
  | replySent => exact duringOperation_legal h legal legal.replySent
  | hostLinkByteReceived b stop => exact duringOperation_legal (f := (·.linkByte b stop)) h legal (legal.linkByte b stop)
  | _ => cases served

/-- Settles O11: the law is a law of each point by itself, and re-selection brings every point that a channel's change
reaches back under it. -/
theorem pointsLawKept : Obligations.PointsLawKept := by
  intro s t legal h
  unfold step at h
  split at h
  case h_1 => cases h; exact legal
  case h_2 rest _ =>
    have queued : ({ s with pending := rest } : State).PointsLegal := legal.of_keeps ⟨rfl, rfl, rfl⟩
    exact exec_keeps_pointsLegal queued h

end Sys2Proof.Machine
end

section
/-! SUPPORT. The field lines byte by byte (R1): what each byte makes of the line, the frames discarded without trace; with
O26 and O16. -/

namespace Sys2Proof.Machine

variable {s : State} {l : FieldLineNo} {x y : FieldLine}

theorem State.setLine_setLine : (s.setLine l x).setLine l y = s.setLine l y := by simp [State.setLine]

theorem State.setLine_same : (s.setLine l x).lines[l] = x := by simp [State.setLine]

/-! ### A byte, by the line's state -/

theorem State.fieldByte_broken (b : Byte) : s.fieldByte l b false = s.setLine l .hunting := by simp [State.fieldByte]

theorem State.fieldByte_hunting (h : s.lines[l] = .hunting) (b : Byte) :
    s.fieldByte l b true = if b = 0xA6 then s.setLine l .awaitChannel else s := by
  simp only [State.fieldByte, h, not_true, if_false]

theorem State.fieldByte_awaitChannel (h : s.lines[l] = .awaitChannel) (b : Byte) :
    s.fieldByte l b true = s.setLine l (.awaitKind b) := by
  simp only [State.fieldByte, h, not_true, if_false]

theorem State.fieldByte_awaitKind {channel : Byte} (h : s.lines[l] = .awaitKind channel) (b : Byte) :
    s.fieldByte l b true =
      s.setLine l (if (readFrameKind b).isSome then .body channel b [] else .hunting) := by
  simp only [State.fieldByte, h, not_true, if_false]
  split <;> rfl

theorem State.fieldByte_body {channel kind : Byte} {taken : List Byte} {k : ChannelKind}
    (h : s.lines[l] = .body channel kind taken) (hk : readFrameKind kind = some k) (more : taken.length < k.bodyLength)
    (b : Byte) : s.fieldByte l b true = s.setLine l (.body channel kind (taken ++ [b])) := by
  simp only [State.fieldByte, h, not_true, if_false, hk, Option.elim_some, if_pos more]

theorem State.fieldByte_check {channel kind : Byte} {taken : List Byte} {k : ChannelKind}
    (h : s.lines[l] = .body channel kind taken) (hk : readFrameKind kind = some k) (full : taken.length = k.bodyLength)
    (b : Byte) : s.fieldByte l b true = s.fieldFrame l channel kind taken b := by
  simp only [State.fieldByte, h, not_true, if_false, hk, Option.elim_some, full, Nat.lt_irrefl]

/-! ### Bytes that move the line alone -/

/-- An event that sets the line and nothing else. -/
theorem duringOperation_setLine {f : State → State} (work : s.working = true) (h : f s = s.setLine l x) :
    duringOperation s f = .next (s.setLine l x) := by
  rw [duringOperation_clean f work (by rw [h]; rfl) (by rw [h]; rfl), h]

theorem exec_byte_setLine {b : Byte} {stop : Bool} (work : s.working = true)
    (h : s.fieldByte l b stop = s.setLine l x) :
    exec (.fieldLineByteReceived l b stop) s = .next (s.setLine l x) :=
  duringOperation_setLine (f := (·.fieldByte l b stop)) work h

/-- The check byte makes the frame whole (R1). -/
theorem exec_byte_check {channel kind : Byte} {taken : List Byte} {k : ChannelKind}
    (h : s.lines[l] = .body channel kind taken) (hk : readFrameKind kind = some k) (full : taken.length = k.bodyLength)
    (b : Byte) : exec (.fieldLineByteReceived l b true) s = exec (.fieldSampleFrame l channel kind taken b) s := by
  change duringOperation s (·.fieldByte l b true) = duringOperation s (·.fieldFrame l channel kind taken b)
  rw [duringOperation_next, duringOperation_next, State.fieldByte_check h hk full]

/-! ### Frames discarded without trace (R1, R2) -/

theorem readFrameKind_eq_some {b : Byte} {k : ChannelKind} : readFrameKind b = some k ↔ b = k.frameCode := by
  revert b; cases k <;> decide

theorem State.takeFrame_discards {channel kind check : Byte} {body : List Byte}
    (h : ∀ (k : ChannelKind) (c : ChannelNo), readFrameKind kind = some k → channel.toNat = c.val + 1 →
      ¬ (body.length = k.bodyLength ∧ check = crc8 (channel :: kind :: body) ∧ (s.cfg.channels[c]).kind = k)) :
    s.takeFrame channel kind body check = s := by
  unfold State.takeFrame
  split
  case h_1 k c hk hc => rw [if_neg (h k c hk (numbered_eq_some.mp hc))]
  case h_2 => rfl

theorem readFrameKind_isSome (b : Byte) : (readFrameKind b).isSome = decide (1 ≤ b.toNat ∧ b.toNat ≤ 3) := by
  revert b; decide

/-- Settles O26, state of the line by state. -/
theorem fieldLineHuntsAndDiscards : Obligations.FieldLineHuntsAndDiscards := by
  intro s l work
  refine ⟨duringOperation_setLine (f := (·.setLine l .hunting)) work rfl, fun b => exec_byte_setLine work (State.fieldByte_broken b),
    fun h => ⟨exec_byte_setLine work (by rw [State.fieldByte_hunting h, if_pos rfl]), fun b ne => ?_⟩,
    fun h b => exec_byte_setLine work (State.fieldByte_awaitChannel h b), fun channel h b => ⟨fun none => ?_, fun low high => ?_⟩,
    fun channel kind length taken h hk b => ?_, fun channel kind check body wrong => ?_⟩
  · have kept : s.fieldByte l b true = s := by rw [State.fieldByte_hunting h, if_neg ne]
    change duringOperation s (·.fieldByte l b true) = _
    rw [duringOperation_clean _ work (by rw [kept]) (by rw [kept]), kept]
  · refine exec_byte_setLine work ?_
    have : ¬ (1 ≤ b.toNat ∧ b.toNat ≤ 3) := by
      rintro ⟨low, high⟩
      obtain rfl | many := none
      · simp at low
      · omega
    rw [State.fieldByte_awaitKind h, readFrameKind_isSome, if_neg (by simpa using this)]
  · refine exec_byte_setLine work ?_
    rw [State.fieldByte_awaitKind h, readFrameKind_isSome, if_pos (by simpa using ⟨low, high⟩)]
  · obtain ⟨k, code, full⟩ : ∃ k, readFrameKind kind = some k ∧ k.bodyLength = length := by
      obtain ⟨rfl, rfl⟩ | ⟨rfl, rfl⟩ | ⟨rfl, rfl⟩ := hk
      · exact ⟨.measure, rfl, rfl⟩
      · exact ⟨.status, rfl, rfl⟩
      · exact ⟨.meter, rfl, rfl⟩
    exact ⟨fun more => exec_byte_setLine work (State.fieldByte_body h code (full ▸ more) b),
      fun whole => exec_byte_check h code (whole.trans full.symm) b⟩
  · refine duringOperation_setLine (f := (·.fieldFrame l channel kind body check)) work ?_
    refine State.takeFrame_discards fun k c hk hc right => ?_
    obtain ⟨size, sum, same⟩ := right
    obtain e | e | e | e | ⟨k', c', hk', hc', e⟩ := wrong
    · rw [hk] at e; cases e
    · rw [e] at hc; simp at hc
    · have := c.isLt; omega
    · exact e sum
    · obtain rfl : k = k' := Option.some.inj (hk.symm.trans hk')
      obtain rfl : c = c' := Fin.ext (by omega)
      exact e.elim (· size) (· same)

/-! ### A frame byte by byte (R1) -/

theorem execAll_singleton (c : Instr) (s : State) : execAll [c] s = exec c s := by
  unfold execAll
  cases exec c s <;> rfl

/-- A whole frame leaves its line hunting, wherever the line was. -/
theorem exec_frame_setLine (work : s.working = true) (channel kind check : Byte) (body : List Byte) :
    exec (.fieldSampleFrame l channel kind body check) (s.setLine l x) =
      exec (.fieldSampleFrame l channel kind body check) s := by
  change duringOperation (s.setLine l x) (·.fieldFrame l channel kind body check) =
    duringOperation s (·.fieldFrame l channel kind body check)
  have runs := State.running_of_working work
  rw [duringOperation_running (s := s) _ runs, duringOperation_running (s := s.setLine l x) _ runs]
  simp only [State.fieldFrame, State.setLine_setLine]

/-- The bytes of a body, after those taken, are kept one by one; the check byte then makes the frame whole. -/
theorem execAll_body {channel kind check : Byte} {k : ChannelKind} (work : s.working = true)
    (hk : readFrameKind kind = some k) (body taken : List Byte) (full : (taken ++ body).length = k.bodyLength) :
    execAll ((body ++ [check]).map fun b => .fieldLineByteReceived l b true)
        (s.setLine l (.body channel kind taken)) =
      exec (.fieldSampleFrame l channel kind (taken ++ body) check) s := by
  induction body generalizing taken with
  | nil =>
    rw [List.append_nil] at full ⊢
    simp only [List.nil_append, List.map_cons, List.map_nil, execAll_singleton]
    rw [exec_byte_check State.setLine_same hk full, exec_frame_setLine work]
  | cons b body ih =>
    have more : taken.length < k.bodyLength := by simp at full; omega
    simp only [List.cons_append, List.map_cons, execAll]
    rw [exec_byte_setLine (s := s.setLine l _) work (State.fieldByte_body State.setLine_same hk more b)]
    simp only [State.setLine_setLine]
    rw [ih (taken ++ [b]) (by simpa using full), List.append_assoc, List.singleton_append]

/-- Settles O16, by induction on the body: each byte leaves the line with one more byte taken. -/
theorem fieldFrameIsItsBytes : Obligations.FieldFrameIsItsBytes := by
  intro s l channel kind check body k work hunting hk full
  simp only [fieldFrameBytes, List.map_cons, execAll]
  rw [exec_byte_setLine work (by rw [State.fieldByte_hunting hunting, if_pos rfl])]
  simp only
  rw [exec_byte_setLine (s := s.setLine l _) work (State.fieldByte_awaitChannel State.setLine_same _)]
  simp only [State.setLine_setLine]
  rw [exec_byte_setLine (s := s.setLine l _) work
    (by rw [State.fieldByte_awaitKind State.setLine_same, hk, Option.isSome_some, if_pos rfl])]
  simp only [State.setLine_setLine]
  exact execAll_body work hk body [] full

end Sys2Proof.Machine
end

section
/-! SUPPORT. The laws at reset: O3. Nothing is queued, live or open there, and the regions hold their defaults. -/

namespace Sys2Proof.Machine

theorem QueuesRegion.default_ordersLegal : QueuesRegion.default.OrdersLegal := by
  constructor <;> simp [QueuesRegion.default]

theorem QueuesRegion.default_queuesLegal : QueuesRegion.default.QueuesLegal := by
  constructor <;> simp [QueuesRegion.default, numberedUpTo]

theorem ConfigRegion.default_figuresFit : ConfigRegion.default.FiguresFit := by
  refine ⟨?_, ?_, ?_⟩ <;> simp [ConfigRegion.default, Contract.default]

theorem Ledger.default_balanced (start : Option Int) : ({ Ledger.default with current := .opened start 1 }).Balanced := by
  have net : (AccumulatorSet.opened start 1).net = 0 := by
    simp [AccumulatorSet.net, AccumulatorSet.opened, BandFigures.net, BandFigures.zero]
  simp [Ledger.Balanced, net, Ledger.default]

theorem AccountsRegion.default_balanced : AccountsRegion.default.Balanced := fun k => by
  have : Ledger.default.Balanced := Ledger.default_balanced none
  simpa [AccountsRegion.default] using this

theorem AccountsRegion.opened_balanced (reading : Nat) : (AccountsRegion.opened reading).Balanced := fun k => by
  simpa [AccountsRegion.opened] using Ledger.default_balanced (some reading)

theorem AccountsRegion.default_readingsFit : AccountsRegion.default.ReadingsFit := fun k => by
  simp [AccountsRegion.default, SubstationAccount.default, ReadingFits]

theorem AccountsRegion.opened_readingsFit (reading : Nat) : (AccountsRegion.opened reading).ReadingsFit :=
  AccountsRegion.default_readingsFit

/-! ### The blocks at reset -/

theorem State.reset_conditionsLegal : State.reset.ConditionsLegal := by
  constructor <;> simp [State.reset]

theorem State.reset_boilers (b : Boiler) : State.reset.boilers[b] = .start 0 := by simp [State.reset]

theorem State.reset_allocationsLegal : State.reset.AllocationsLegal where
  fits := ⟨ConfigRegion.default_figuresFit, ConfigRegion.default_figuresFit, ConfigRegion.default_figuresFit⟩
  configured b h := absurd (by rw [State.reset_boilers]; rfl) h
  onGas b _ _ h := by rw [State.reset_boilers] at h; cases h
  onAux b _ _ h := by rw [State.reset_boilers] at h; cases h
  none b _ _ := by simp [State.reset, Dispatcher.start, Allocation.zero]

theorem State.reset_permitsLegal : State.reset.PermitsLegal where
  never b h := by rw [State.reset_boilers] at h; cases h.1
  only b h := by rw [State.reset_boilers] at h; simp [Sequencer.start] at h
  closed b := by rw [State.reset_boilers]; exact Nat.le_refl 0
  configured b h := absurd (by rw [State.reset_boilers]; rfl) h
  purge b _ _ _ h := by rw [State.reset_boilers] at h; cases h
  dead b _ _ _ h := by rw [State.reset_boilers] at h; cases h

theorem State.reset_flareLegal : State.reset.FlareLegal := by
  constructor <;> simp [State.reset, Dispatcher.start]

theorem State.reset_setpointsLegal : State.reset.SetpointsLegal := by
  constructor <;> simp [State.reset, Dispatcher.start]

theorem State.reset_linkLegal : State.reset.LinkLegal := by
  constructor <;> simp [State.reset, HostLink.start]

theorem State.reset_channels (ch : ChannelNo) : State.reset.channels[ch] = .start := by simp [State.reset]

theorem State.reset_readingsLegal : State.reset.ReadingsLegal where
  live ch h := by rw [State.reset_channels] at h; cases h
  accounts := ⟨AccountsRegion.opened_readingsFit 0, AccountsRegion.opened_readingsFit 0,
    AccountsRegion.default_readingsFit⟩
  intervals := by simp [QueuesRegion.ReadingsFit, State.reset, QueuesRegion.default, Store.default, Retained.rewritten]
  last := by simp [State.reset, ExportUnit.start, ReadingFits]
  stored := by simp [State.reset, ExportUnit.start]
  gap := by simp [State.reset, ExportUnit.start]

theorem State.reset_pointsLegal : State.reset.PointsLegal where
  live ch h := by rw [State.reset_channels] at h; cases h
  vacant p _ := by simp [State.reset, Point.vacant]
  served p c h := by simp [State.reset, ConfigRegion.default] at h

theorem State.reset_storeLegal : State.reset.StoreLegal where
  config := rfl
  accounts := rfl
  quiet := ⟨rfl, rfl⟩

/-- No order is held at reset, so the limit is the contract's (R101). -/
theorem State.reset_limit : State.reset.esu.effLimit = State.reset.limitNow := by
  rw [State.limitNow_of_none fun m a h => by simp [State.Holds, State.reset, QueuesRegion.default] at h]
  rfl

/-- Settles O3, law by law. -/
theorem resetMeetsTheLaws : Obligations.ResetMeetsTheLaws :=
  ⟨State.reset_conditionsLegal,
    ⟨QueuesRegion.default_ordersLegal, QueuesRegion.default_ordersLegal, QueuesRegion.default_ordersLegal⟩,
    ⟨QueuesRegion.default_queuesLegal, QueuesRegion.default_queuesLegal, QueuesRegion.default_queuesLegal⟩,
    State.reset_allocationsLegal, State.reset_permitsLegal, State.reset_flareLegal, State.reset_setpointsLegal,
    State.reset_linkLegal,
    ⟨AccountsRegion.opened_balanced 0, ⟨AccountsRegion.opened_balanced 0, AccountsRegion.default_balanced⟩,
      Nat.le_refl 1000⟩,
    State.reset_readingsLegal, State.reset_pointsLegal, State.reset_storeLegal, State.reset_limit⟩

end Sys2Proof.Machine
end

section
/-! SUPPORT. A sample's way from its frame to the points (R1 to R5, R12 to R15), and O27. -/

namespace Sys2Proof.Machine

variable {s t u : State} {p : PointNo} {pc : PointConfig} {c : ChannelNo} {x : Sample}

/-! ### The sample of a frame (R2, 12.3) -/

theorem wordAt_toNat (p : List Byte) (i : Nat) :
    (wordAt p i).toNat = bytesValue [byteAt p i, byteAt p (i + 1), byteAt p (i + 2), byteAt p (i + 3)] := by
  rw [← wordBytes_wordAt, wordBytes_eq, bytesValue_leBytes, Nat.mod_eq_of_lt (by simpa using (wordAt p i).isLt)]

theorem readBody_measure (b0 b1 b2 b3 code : Byte) :
    readBody .measure [b0, b1, b2, b3, code] =
      { body := .measure (if bytesValue [b0, b1, b2, b3] < 2 ^ 31 then bytesValue [b0, b1, b2, b3]
          else bytesValue [b0, b1, b2, b3] - 2 ^ 32)
        quality := if code = 0 then .good else .suspect } := by
  have value : (wordAt [b0, b1, b2, b3, code] 0).toNat = bytesValue [b0, b1, b2, b3] := wordAt_toNat _ 0
  simp only [readBody, BitVec.toInt_eq_toNat_cond, value, readQuality]
  congr 2
  split <;> split <;> omega

theorem readBody_meter (b0 b1 b2 b3 b4 b5 b6 b7 code : Byte) :
    readBody .meter [b0, b1, b2, b3, b4, b5, b6, b7, code] =
      { body := .meter (bytesValue [b0, b1, b2, b3]) (bytesValue [b4, b5, b6, b7])
        quality := if code = 0 ∧ bytesValue [b0, b1, b2, b3] ≤ 99999999 ∧ bytesValue [b4, b5, b6, b7] ≤ 2000000
          then .good else .suspect } := by
  have reading : (wordAt [b0, b1, b2, b3, b4, b5, b6, b7, code] 0).toNat = bytesValue [b0, b1, b2, b3] := wordAt_toNat _ 0
  have rate : (wordAt [b0, b1, b2, b3, b4, b5, b6, b7, code] 4).toNat = bytesValue [b4, b5, b6, b7] := wordAt_toNat _ 4
  simp only [readBody, reading, rate]
  congr 1
  have last : byteAt [b0, b1, b2, b3, b4, b5, b6, b7, code] 8 = code := rfl
  rw [last]
  by_cases good : code = 0 ∧ bytesValue [b0, b1, b2, b3] ≤ 99999999 ∧ bytesValue [b4, b5, b6, b7] ≤ 2000000
  · rw [if_pos good, if_neg (by omega), good.1]; rfl
  · rw [if_neg good]
    unfold readQuality
    split
    · rfl
    · rw [if_neg fun e => good ⟨e, by omega⟩]

/-! ### A frame that its channel takes (R1, R2) -/

theorem exec_sampleFrame {l : FieldLineNo} {k : ChannelKind} {body : List Byte} (work : s.working = true)
    (kind : (s.cfg.channels[c]).kind = k) (full : body.length = k.bodyLength) :
    exec (sampleFrame l c k body) s = .next ((s.setLine l .hunting).sampleArrival c (readBody k body)).endEvent := by
  have number : numbered 96 (BitVec.ofNat 8 (c.val + 1)) = some c := by
    have := c.isLt
    refine numbered_eq_some.mpr ?_
    rw [BitVec.toNat_ofNat, Nat.mod_eq_of_lt (by omega)]
  have code : readFrameKind k.frameCode = some k := readFrameKind_eq_some.mpr rfl
  refine (duringOperation_running (fun s => s.fieldFrame l _ _ body _) (State.running_of_working work)).trans ?_
  have taken : (s.setLine l .hunting).takeFrame (BitVec.ofNat 8 (c.val + 1)) k.frameCode body
      (crc8 (BitVec.ofNat 8 (c.val + 1) :: k.frameCode :: body)) =
        (s.setLine l .hunting).sampleArrival c (readBody k body) := by
    simp only [State.takeFrame, number, code]
    exact if_pos ⟨full, trivial, kind⟩
  rw [State.fieldFrame, taken]

theorem State.sampleArrival_of_good (h : x.quality = .good) : s.sampleArrival c x = s.goodArrival c x := by
  simp only [State.sampleArrival, h]

theorem State.sampleArrival_of_suspect (h : x.quality = .suspect) : s.sampleArrival c x = s.suspectArrival c x := by
  simp only [State.sampleArrival, h]

/-! ### Which channel a point selects, and which points name a channel (R12) -/

theorem State.selection_of_primary (h : (s.channels[pc.primary]).state = .live) :
    s.selection pc = some (.primary, pc.primary) := by
  simp only [State.selection, PointConfig.ranked, List.find?_cons, h, decide_true]

/-- The selection behind a primary channel that is not LIVE. -/
theorem State.selection_of_alternates (h : (s.channels[pc.primary]).state ≠ .live) : s.selection pc =
    ((pc.alternateA.filter fun a => decide ((s.channels[a]).state = .live)).map fun a => (Rank.alternateA, a)).or
      ((pc.alternateB.filter fun b => decide ((s.channels[b]).state = .live)).map fun b => (Rank.alternateB, b)) := by
  simp only [State.selection, PointConfig.ranked, List.find?_cons, h, decide_false, List.find?_append]
  congr 1
  · cases pc.alternateA with
    | none => rfl
    | some a =>
      simp only [Option.map_some, Option.toList_some, List.find?_cons, List.find?_nil, Option.filter_some]
      split <;> simp_all
  · cases pc.alternateB with
    | none => rfl
    | some b =>
      simp only [Option.map_some, Option.toList_some, List.find?_cons, List.find?_nil, Option.filter_some]
      split <;> simp_all

theorem PointConfig.names_iff : pc.names c = true ↔
    pc.primary = c ∨ pc.alternateA = some c ∨ pc.alternateB = some c := by
  have := pc.mem_given c
  simp only [PointConfig.given, List.mem_map] at this
  simp only [PointConfig.names, List.any_eq_true, decide_eq_true_eq, eq_comm (a := pc.primary)]
  exact this

/-! ### The points after their channel's change -/

theorem State.pointAfter_congr (hc : t.channels = s.channels) (ho : t.osc = s.osc) (hp : t.points = s.points) :
    t.pointAfter p pc = s.pointAfter p pc :=
  reselect_actsPointwise.pointwise s t p pc hc ho (by rw [hp])

/-- What a raise or an end told to the table, and the end of the event, leave of a re-selection. -/
theorem PointsReselected.of_told {v : State} (told : ChangesOnly [.marks] u v) :
    PointsReselected u (v.reselectAll c).endEvent c := by
  have set := State.reselectAll_sets v c
  have cfg : v.cfg = u.cfg := told .cfg (by decide)
  have points : v.points = u.points := told .points (by decide)
  have kept : ((v.reselectAll c).endEvent).points = (v.reselectAll c).points := (State.endEvent_keepsPoints _).2.1
  have named : v.namedBy c = u.namedBy c := by simp only [State.namedBy, cfg]
  refine fun p => ⟨fun away => ?_, fun d hd mem => ?_⟩
  · rw [kept, set.other p (by rw [named]; exact away), points]
  · rw [kept, set.set p (by rw [named]; exact mem) d (by rw [cfg]; exact hd)]
    exact State.pointAfter_congr (told .channels (by decide)) (told .osc (by decide)) points

/-- The channels and the field lines, which re-selecting points leave as they are. -/
theorem State.reselectAll_lines (v : State) (c : ChannelNo) :
    ((v.reselectAll c).endEvent).channels = v.channels ∧ ((v.reselectAll c).endEvent).lines = v.lines := by
  have set := State.reselectAll_sets v c
  exact ⟨(State.endEvent_keepsPoints _).1.trans (set.rest .channels (by decide)),
    Eq.trans (State.endEvent_changes .lines (by decide)) (set.rest .lines (by decide))⟩

theorem State.namedBy_congr (points : u.cfg.points = s.cfg.points) : u.namedBy c = s.namedBy c := by
  simp only [State.namedBy, points]

theorem State.reselectAll_of_unnamed (h : s.namedBy c = []) (points : u.cfg.points = s.cfg.points) :
    u.reselectAll c = u := by
  rw [State.reselectAll, State.namedBy_congr points, h, State.inAnyOrder_nil]

theorem State.reselectAll_of_one (one : s.namedBy c = [p]) (hc : s.cfg.points[p] = some pc)
    (points : u.cfg.points = s.cfg.points) : Reselected u (u.reselectAll c) p pc := by
  rw [State.reselectAll, State.namedBy_congr points, one, State.inAnyOrder_singleton]
  exact State.reselect_reselected (by rw [points]; exact hc)

/-- A point that does not serve from the channel takes nothing (R13). -/
theorem State.refresh_idle (hc : s.cfg.points[p] = some pc)
    (idle : ∀ r, s.selection pc = some (r, c) → (s.points[p]).state ≠ .serving ∨ (s.points[p]).rank ≠ some r) :
    s.refresh c p = s := by
  simp only [State.refresh, hc]
  split
  · rename_i r ch sel
    refine if_neg ?_
    rintro ⟨serving, rank, rfl⟩
    exact (idle r sel).elim (· serving) (· rank)
  · rfl

/-! ### O27 -/

section Sample

variable {l : FieldLineNo} {k : ChannelKind} {body : List Byte} (work : s.working = true)
  (kind : (s.cfg.channels[c]).kind = k) (full : body.length = k.bodyLength)
include work kind full

/-- A GOOD sample that counts toward the run (R4). -/
theorem exec_sample_counts (good : (readBody k body).quality = .good) (dead : (s.channels[c]).state ≠ .live)
    (few : (s.channels[c]).goodRun < 2) : exec (sampleFrame l c k body) s =
      .next ((s.setLine l .hunting).setChannel c
        (s.sampled (readBody k body) (s.channels[c]).state ((s.channels[c]).goodRun + 1))) := by
  rw [exec_sampleFrame work kind full, State.sampleArrival_of_good good,
    State.goodArrival_counts (s := s.setLine l .hunting) dead few]
  exact congrArg _ (State.endEvent_of_quiet (State.acts_of_working work) (State.marks_of_working work))

/-- The GOOD sample that makes the channel LIVE (R4, R12). -/
theorem exec_sample_third (good : (readBody k body).quality = .good) (dead : (s.channels[c]).state ≠ .live)
    (run : 2 ≤ (s.channels[c]).goodRun) : exec (sampleFrame l c k body) s =
      .next ((((s.setLine l .hunting).setChannel c (s.sampled (readBody k body) .live 0)).tellEnd .channelLost
        (c.val + 1)).reselectAll c).endEvent := by
  rw [exec_sampleFrame work kind full, State.sampleArrival_of_good good,
    State.goodArrival_third (s := s.setLine l .hunting) dead run]
  rfl

/-- A SUSPECT sample (R5, R12). -/
theorem exec_sample_suspect (suspect : (readBody k body).quality = .suspect) : exec (sampleFrame l c k body) s =
    .next (if (s.channels[c]).state = .suspect then
        (s.setLine l .hunting).setChannel c (s.sampled (readBody k body) .suspect 0)
      else (((s.setLine l .hunting).setChannel c (s.sampled (readBody k body) .suspect 0)).reselectAll c).endEvent) := by
  rw [exec_sampleFrame work kind full, State.sampleArrival_of_suspect suspect, State.suspectArrival_eq]
  split
  case isTrue already =>
    rw [if_pos (show (s.channels[c]).state = .suspect from already)]
    exact congrArg _ (State.endEvent_of_quiet (State.acts_of_working work) (State.marks_of_working work))
  case isFalse other => rw [if_neg (show ¬ (s.channels[c]).state = .suspect from other)]; rfl

/-- A GOOD sample at a LIVE channel (R4, R13). -/
theorem exec_sample_live (good : (readBody k body).quality = .good) (live : (s.channels[c]).state = .live) :
    exec (sampleFrame l c k body) s =
      .next (((s.setLine l .hunting).setChannel c (s.sampled (readBody k body) .live (s.channels[c]).goodRun)).inAnyOrder
        (s.namedBy c) (State.refresh · c ·)).endEvent := by
  rw [exec_sampleFrame work kind full, State.sampleArrival_of_good good,
    State.goodArrival_of_live (s := s.setLine l .hunting) live]
  rfl

end Sample

/-- Settles O27: the channel's change by its case, then the points that name it. -/
theorem samplesMoveTheirChannel : Obligations.SamplesMoveTheirChannel := by
  refine ⟨fun s l c k body work kind full => ⟨exec_sample_counts work kind full, fun good dead run => ?_, fun suspect => ?_,
      fun good live few idle => ?_⟩,
    ⟨readBody_measure, fun set code => rfl, readBody_meter⟩, fun s c p => ?_, fun s pc => ?_⟩
  · refine ⟨_, exec_sample_third work kind full good dead run, (State.reselectAll_lines _ c).1,
      (State.reselectAll_lines _ c).2, fun unnamed => ?_, fun p pc one hc => ?_, .of_told (State.tellEnd_changes _ _)⟩
    · refine (congrArg State.endEvent (State.reselectAll_of_unnamed unnamed (by rfl))).trans ?_
      exact State.endEvent_tell (s := (s.setLine l .hunting).setChannel c (s.sampled (readBody k body) .live 0))
        (State.acts_of_working work) (State.marks_of_working work) _
    · exact ⟨_, State.reselectAll_of_one one hc rfl, rfl⟩
  · have exec := exec_sample_suspect (l := l) work kind full suspect
    split at exec
    case isTrue already =>
      exact ⟨_, exec, rfl, rfl, fun _ => rfl, fun other => absurd already other⟩
    case isFalse other =>
      refine ⟨_, exec, (State.reselectAll_lines _ c).1, (State.reselectAll_lines _ c).2, fun h => ?_,
        fun _ => ⟨fun p pc one hc => ?_, .of_told (.refl _ _)⟩⟩
      · refine (congrArg State.endEvent (State.reselectAll_of_unnamed (h.resolve_right other) (by rfl))).trans ?_
        exact State.endEvent_of_quiet (State.acts_of_working work) (State.marks_of_working work)
      · exact ⟨_, State.reselectAll_of_one one hc rfl, rfl⟩
  · rw [exec_sample_live work kind full good live]
    have quiet := State.endEvent_of_quiet (s := (s.setLine l .hunting).setChannel c
      (s.sampled (readBody k body) .live (s.channels[c]).goodRun)) (State.acts_of_working work) (State.marks_of_working work)
    match named : s.namedBy c, few with
    | [], _ => rw [State.inAnyOrder_nil, quiet]
    | [p], _ =>
      obtain ⟨pc, hc, _⟩ := State.mem_namedBy.mp (show p ∈ s.namedBy c by simp [named])
      have sel : ((s.setLine l .hunting).setChannel c
          (s.sampled (readBody k body) .live (s.channels[c]).goodRun)).selection pc = s.selection pc :=
        State.selection_setChannel (s := s.setLine l .hunting) (.inr (iff_of_true rfl live))
      have kept := State.refresh_idle (s := (s.setLine l .hunting).setChannel c
        (s.sampled (readBody k body) .live (s.channels[c]).goodRun)) hc
        fun r h => idle p (by simp [named]) pc hc r (sel ▸ h)
      rw [State.inAnyOrder_singleton, kept, quiet]
  · rw [State.mem_namedBy]
    simp only [PointConfig.names_iff]
  · refine ⟨State.selection_of_primary, fun dead => ?_⟩
    have skipped (o : Option ChannelNo) (h : ∀ a, o = some a → ¬ (s.channels[a]).state = .live) :
        o.filter (fun a => decide ((s.channels[a]).state = .live)) = none :=
      Option.filter_eq_none_iff.mpr fun a ha => by simpa using h a ha
    have found (o : Option ChannelNo) (a : ChannelNo) (ha : o = some a) (h : (s.channels[a]).state = .live) :
        o.filter (fun a => decide ((s.channels[a]).state = .live)) = some a := by
      rw [ha, Option.filter_some, if_pos (decide_eq_true h)]
    rw [State.selection_of_alternates dead]
    refine ⟨fun a ha live => ?_, fun deadA b hb live => ?_, fun deadA deadB => ?_⟩
    · rw [found _ a ha live]; rfl
    · rw [skipped _ deadA, found _ b hb live]; rfl
    · rw [skipped _ deadA, skipped _ deadB]; rfl

end Sys2Proof.Machine
end

section
/-! SUPPORT. A boiler's trip and its standing-cause evaluation, in the statements' terms (R78 to R82). -/

namespace Sys2Proof.Machine

variable {s : State} {b : Boiler} {c : BoilerConfig}

/-! ### One boiler set -/

theorem State.setBoiler_same (q : Sequencer) : (s.setBoiler b q).boilers[b] = q := by simp

theorem State.setBoiler_setBoiler (q r : Sequencer) : (s.setBoiler b q).setBoiler b r = s.setBoiler b r := by
  simp [State.setBoiler]

theorem State.setBoiler_self : s.setBoiler b s.boilers[b] = s := by simp [State.setBoiler]

theorem State.closePermits_eq :
    s.closePermits b = s.setBoiler b ((s.boilers[b]).permitsClosed s.osc s.clock.reading) := by
  unfold State.closePermits
  dsimp only
  split
  case isTrue opened => rw [Sequencer.permitsClosed, if_pos opened, if_pos opened]
  case isFalse closed =>
    have same : (s.boilers[b]).permitsClosed s.osc s.clock.reading = s.boilers[b] := by
      rw [Sequencer.permitsClosed, if_neg closed, if_neg closed]
      have := closed
      cases h : s.boilers[b]
      simp_all
    rw [same, State.setBoiler_self]

/-! ### The notice of a boiler that leaves an active state (R57) -/

theorem State.queueFrame_allocations (f : Option Fuel) (n : Nat) :
    (s.queueFrame b f n).dsp.allocations = s.dsp.allocations := by
  unfold State.queueFrame; dsimp only; split <;> rfl

theorem State.noticeFiringLeft_allocations (f : Fuel) : (s.noticeFiringLeft b f).dsp.allocations =
    s.dsp.allocations.set b ((s.dsp.allocations[b]).without f) :=
  State.queueFrame_allocations none 0

/-- The notice zeroes the allocation of the fuel that the boiler was firing, and no other. -/
theorem State.leaveNotice_allocations (q : Sequencer) : (s.leaveNotice b q).dsp.allocations =
    match q.state with
    | .firingGas => s.dsp.allocations.set b ((s.dsp.allocations[b]).without .gas)
    | .firingAux => s.dsp.allocations.set b ((s.dsp.allocations[b]).without .aux)
    | _ => s.dsp.allocations := by
  unfold State.leaveNotice
  cases q.state with
  | firingGas | firingAux => exact State.noticeFiringLeft_allocations _
  | lighting => exact State.queueFrame_allocations none 0
  | changeover =>
    dsimp only
    split
    · exact State.queueFrame_allocations none 0
    · rfl
  | off | purge | tripped | lockedOut => rfl

theorem State.leaveNotice_other {a : Boiler} (ne : a ≠ b) (q : Sequencer) :
    (s.leaveNotice b q).dsp.allocations[a] = s.dsp.allocations[a] := by
  have : b.val ≠ a.val := fun e => ne (Fin.ext e.symm)
  rw [State.leaveNotice_allocations]
  cases q.state <;> simp [this]

/-! ### A trip (R78, R79) -/

/-- A sequencer as a trip leaves it; `limit` is its trip limit. -/
def Sequencer.tripped (q : Sequencer) (osc reading limit : Nat) (cause : TripCause) : Sequencer :=
  let history := q.history ++ [{ second := osc, time := reading }]
  { (q.permitsClosed osc reading).halted with
    history := history, cause := some cause, marker := true
    state := if limit ≤ history.length then .lockedOut else .tripped
    run := if limit ≤ history.length then none else q.run }

theorem Sequencer.tripped_state (q : Sequencer) (osc reading limit : Nat) (cause : TripCause) :
    (q.tripped osc reading limit cause).state =
      if limit ≤ (q.tripped osc reading limit cause).history.length then .lockedOut else .tripped := rfl

theorem State.restartMode_eq (h : s.cfg.boilers[b] = some c) : s.restartMode b = c.restart := by
  simp only [State.restartMode, h, Option.elim_some]

theorem RestartMode.latch_eq (m : RestartMode) :
    m.latch = if m = .latched then .latching else .selfClearing := by cases m <;> rfl

/-- A trip, as the sequencer, the notice, and the two raises. -/
theorem State.trip_eq (h : s.cfg.boilers[b] = some c) (cause : TripCause) :
    let q := (s.boilers[b]).tripped s.osc s.clock.reading c.tripLimit cause
    let u := ((s.setBoiler b q).leaveNotice b s.boilers[b]).raiseTrip b
    s.trip b cause = if c.tripLimit ≤ q.history.length then u.tellRaise .boilerLockout (boilerSource b) else u := by
  dsimp only
  simp only [State.trip, State.closePermits_eq, State.setBoiler_same, State.setBoiler_setBoiler, State.setBoiler_cfg,
    State.setBoiler_osc, State.setBoiler_clock, h, Option.elim_some, decide_eq_true_eq]
  rfl

/-- What a trip tells the table. -/
theorem State.raiseTrip_acts (h : s.cfg.boilers[b] = some c) : (s.raiseTrip b).acts = s.acts ++
    [.raise { cls := .boilerTrip, source := b.val + 1 } (if c.restart = .latched then .latching else .selfClearing)] := by
  rw [State.raiseTrip, State.restartMode_eq h, RestartMode.latch_eq]
  rfl

theorem State.trip_tripsAt (h : s.cfg.boilers[b] = some c) (cause : TripCause) :
    TripsAt s (s.trip b cause) b cause c := by
  have left := State.leaveNotice_changes b s.boilers[b]
    (s := s.setBoiler b ((s.boilers[b]).tripped s.osc s.clock.reading c.tripLimit cause))
  have boilers : (s.trip b cause).boilers =
      s.boilers.set b ((s.boilers[b]).tripped s.osc s.clock.reading c.tripLimit cause) := by
    rw [State.trip_eq h]
    split <;> exact left .boilers (by decide)
  have own : (s.trip b cause).boilers[b] = (s.boilers[b]).tripped s.osc s.clock.reading c.tripLimit cause := by
    simp [boilers]
  have allocations : (s.trip b cause).dsp.allocations =
      ((s.setBoiler b ((s.boilers[b]).tripped s.osc s.clock.reading c.tripLimit cause)).leaveNotice b
        s.boilers[b]).dsp.allocations := by
    rw [State.trip_eq h]
    split <;> rfl
  have allocation : ∀ f, (s.boilers[b]).state = Fuel.firing f →
      (s.trip b cause).dsp.allocations[b] = (s.dsp.allocations[b]).without f := by
    intro f firing
    simp only [allocations, State.leaveNotice_allocations, firing]
    cases f <;> simp [Fuel.firing]
  refine ⟨⟨?_, ?_, ?_, ?_, ?_, ?_, ?_, ?_⟩, State.trip_line b cause, ?_, fun a ne => ⟨?_, ?_⟩⟩
  · rw [own]; exact ⟨rfl, rfl, rfl, rfl, rfl, rfl, rfl⟩
  · rw [own]; exact ⟨rfl, rfl⟩
  · rw [own]; rfl
  · rw [own]; exact ⟨rfl, rfl, rfl⟩
  · rw [own]; rfl
  · rw [own]; rfl
  · intro firing; rw [allocation .gas firing]; exact ⟨rfl, rfl⟩
  · intro firing; rw [allocation .aux firing]; exact ⟨rfl, rfl⟩
  · have told := State.raiseTrip_acts (Eq.trans (congrArg (·.boilers[b]) (left .cfg (by decide))) h)
    rw [(left .marks (by decide)).2] at told
    rw [State.tripTold, own, State.trip_eq h, Sequencer.tripped_state]
    by_cases full : c.tripLimit ≤ ((s.boilers[b]).tripped s.osc s.clock.reading c.tripLimit cause).history.length
    · simp only [if_pos full, State.tellRaise_acts, told, if_true]
      simp [State.classLatch, boilerSource]
    · simp only [if_neg full, told, reduceCtorEq, if_false]
      rfl
  · have : b.val ≠ a.val := fun e => ne (Fin.ext e.symm)
    simp [boilers, this]
  · rw [allocations, State.leaveNotice_other ne]; rfl

/-! ### Standing causes (R80 to R82) -/

/-- The evaluation does nothing but where the marker and the standing causes disagree (R80). -/
theorem State.evaluateCauses_same (h : (s.boilers[b]).marker = s.standingCause b) : s.evaluateCauses b = s := by
  unfold State.evaluateCauses
  dsimp only
  split
  · rw [h]
    cases s.standingCause b <;> rfl
  · rfl

theorem State.evaluateCauses_found
    (down : (s.boilers[b]).state = .tripped ∨ (s.boilers[b]).state = .lockedOut)
    (clear : (s.boilers[b]).marker = false) (cause : s.standingCause b = true) :
    s.evaluateCauses b = (s.setBoiler b { s.boilers[b] with marker := true }).raiseTrip b := by
  simp only [State.evaluateCauses, if_pos down, clear, cause]

/-- The cause has gone: the marker clears, its end is told, and a TRIPPED boiler goes on (R80, R81). -/
theorem State.evaluateCauses_gone (down : (s.boilers[b]).state = .tripped ∨ (s.boilers[b]).state = .lockedOut)
    (marked : (s.boilers[b]).marker = true) (gone : s.standingCause b = false) : s.evaluateCauses b =
      if (s.boilers[b]).state = .tripped then (s.clearMarker b).afterCause b else s.clearMarker b := by
  simp only [State.evaluateCauses, if_pos down, marked, gone]

theorem State.afterCause_sets : s.afterCause b = s.setBoiler b (s.afterCause b).boilers[b] := by
  have put (q : Sequencer) (h : s.afterCause b = s.setBoiler b q) :
      s.afterCause b = s.setBoiler b (s.afterCause b).boilers[b] := by rw [h, State.setBoiler_same]
  have purge (f : Fuel) : ∃ q, s.enterPurge b f = s.setBoiler b q := by
    unfold State.enterPurge
    dsimp only
    split
    · exact ⟨_, State.setBoiler_self.symm⟩
    · exact ⟨_, rfl⟩
  obtain ⟨q, h⟩ : ∃ q, s.afterCause b = s.setBoiler b q := by
    unfold State.afterCause
    split
    · split
      · exact ⟨_, rfl⟩
      · split
        · exact ⟨_, rfl⟩
        · exact purge _
    · split
      · exact ⟨_, rfl⟩
      · exact ⟨_, State.setBoiler_self.symm⟩
  exact put q h

/-- The entry of a key, after the end of its cause, where it stays in the table (R156). -/
theorem State.entryOf_endCause_stays {k : ConditionKey} {e : ConditionEntry} (h : s.entryOf k = some e)
    (other : k.cls ≠ .meterJump) (stays : e.latch = .latching ∨ e.state = .latched ∨ e.notified = false) :
    ((s.endCause k.cls k.source).entryOf k).isSome := by
  obtain ⟨rfl, i, place, entry⟩ := State.entryOf_eq_some h
  have ended : s.endCause e.key.cls e.key.source = s ∨ ∃ f : ConditionEntry, f.key = e.key ∧
      s.endCause e.key.cls e.key.source = s.setPlace i (some f) := by
    simp only [State.endCause, place, entry, if_neg other]
    split
    · exact .inl rfl
    · rename_i active
      refine .inr ⟨{ e with state := .latched, lastChange := s.clock.reading }, rfl, if_neg ?_⟩
      rintro ⟨clearing, notified⟩
      obtain latching | latched | waiting := stays
      · rw [latching] at clearing; cases clearing
      · exact active latched
      · rw [waiting] at notified; cases notified
  obtain same | ⟨f, key, same⟩ := ended
  · rw [same, h]; rfl
  · rw [same, Option.isSome_iff_ne_none, Ne, State.entryOf_eq_none, State.placeOf_eq_none]
    exact fun absent => absent i f (by simp) key

/-- What follows the end of the cause in TRIPPED, by restart mode and run request (R81, R82). -/
theorem State.afterCause_auto_off (auto : s.restartMode b = .autoRestart)
    (stays : (s.boilers[b]).run = none ∨ ∃ i, s.indicated (.boilerStatus b) = some i ∧ i.localControl = true) :
    s.afterCause b = s.release b := by
  unfold State.afterCause
  rw [auto]
  cases run : (s.boilers[b]).run with
  | none => rfl
  | some f =>
    obtain none | ⟨i, status, control⟩ := stays
    · rw [run] at none; cases none
    · simp only [status, Option.any_some, control, if_true]

theorem State.afterCause_auto_purge {f : Fuel} {i : Indications} (auto : s.restartMode b = .autoRestart)
    (run : (s.boilers[b]).run = some f) (status : s.indicated (.boilerStatus b) = some i)
    (remote : i.localControl = false) : s.afterCause b = s.enterPurge b f := by
  unfold State.afterCause
  simp only [auto, run, status, Option.any_some, remote, Bool.false_eq_true, if_false]

theorem State.afterCause_latched (latched : s.restartMode b = .latched) : s.afterCause b =
    if (s.entryAfterActs { cls := .boilerTrip, source := boilerSource b }).isNone then s.release b else s := by
  unfold State.afterCause
  simp only [latched]

/-- The entry of BOILER_TRIP as the end of its cause, told alone, will leave it. -/
theorem State.clearMarker_entry (untold : s.acts = []) :
    (s.clearMarker b).entryAfterActs { cls := .boilerTrip, source := boilerSource b } =
      ((s.clearMarker b).endCause .boilerTrip (boilerSource b)).entryOf
        { cls := .boilerTrip, source := boilerSource b } := by
  have told : (s.clearMarker b).acts = [.endCause { cls := .boilerTrip, source := boilerSource b }] := by
    simp [State.clearMarker, untold]
  simp only [State.entryAfterActs, told, List.filter_cons, ConditionAct.key, decide_true, if_true, List.filter_nil,
    List.foldl_cons, List.foldl_nil, State.takeAct]

/-- What an evaluation in TRIPPED or LOCKED_OUT does, in the statements' terms (R80 to R82). -/
theorem State.evaluateCauses_evaluated (h : s.cfg.boilers[b] = some c)
    (down : (s.boilers[b]).state = .tripped ∨ (s.boilers[b]).state = .lockedOut) :
    CausesEvaluated s (s.evaluateCauses b) b c := by
  have mode := State.restartMode_eq h
  have cleared : (s.clearMarker b).boilers[b] = { s.boilers[b] with marker := false } := State.setBoiler_same _
  have modeAfter : (s.clearMarker b).restartMode b = c.restart := mode
  refine ⟨State.evaluateCauses_same, fun clear cause => ?_, fun marked gone => ?_, fun marked gone locked => ?_,
    fun marked gone tripped auto stays => ?_, fun f i marked gone tripped auto run status remote => ?_,
    fun e marked gone tripped latched untold entry held => ?_, fun marked gone tripped latched untold lost => ?_⟩
  · rw [State.evaluateCauses_found down clear cause, State.raiseTrip, RestartMode.latch_eq]
    have : (s.setBoiler b { s.boilers[b] with marker := true }).restartMode b = c.restart := mode
    rw [this]
    rfl
  · rw [State.evaluateCauses_gone down marked gone]
    split
    · rw [State.afterCause_sets, State.setBoiler_same]
      simp [State.clearMarker, State.setBoiler, State.tellEnd, State.tell, boilerSource]
    · rw [cleared]; rfl
  · rw [State.evaluateCauses_gone down marked gone, if_neg (by rw [locked]; simp), cleared]
  · rw [State.evaluateCauses_gone down marked gone, if_pos tripped,
      State.afterCause_auto_off (modeAfter.trans auto) (by rw [cleared]; exact stays), State.release,
      State.setBoiler_same, cleared]
  · rw [State.evaluateCauses_gone down marked gone, if_pos tripped,
      State.afterCause_auto_purge (modeAfter.trans auto) (by rw [cleared]; exact run) status remote, State.enterPurge]
    simp only [show (s.clearMarker b).cfg.boilers[b] = some c from h, State.setBoiler_same, cleared]
    rfl
  · have stays := State.entryOf_endCause_stays (s := s.clearMarker b) entry (by simp) held
    rw [State.evaluateCauses_gone down marked gone, if_pos tripped, State.afterCause_latched (modeAfter.trans latched),
      State.clearMarker_entry untold, if_neg, cleared]
    rw [Option.isNone_iff_eq_none, ← Ne, ← Option.isSome_iff_ne_none]
    exact stays
  · have absent : (s.clearMarker b).placeOf { cls := .boilerTrip, source := boilerSource b } = none :=
      State.entryOf_eq_none.mp lost
    have ended : (s.clearMarker b).endCause .boilerTrip (boilerSource b) = s.clearMarker b := by
      simp only [State.endCause, absent]
    rw [State.evaluateCauses_gone down marked gone, if_pos tripped, State.afterCause_latched (modeAfter.trans latched),
      State.clearMarker_entry untold, ended, if_pos (by rw [State.entryOf_eq_none.mpr absent]; rfl), State.release,
      State.setBoiler_same, cleared]

end Sys2Proof.Machine
end

section
/-! SUPPORT. The timers of channels and points that have run out, and the failed and restored events at the consumers
(R6, R14, R16, R18); with O29. -/

namespace Sys2Proof.Machine

variable {s : State} {p : PointNo} {pc : PointConfig} {ch : ChannelNo}

theorem State.expired_some {due : Nat} (h : due ≤ s.osc) : s.expired (some due) = true := by
  simp only [State.expired, Option.any_some, decide_eq_true h]

/-! ### The timers -/

/-- The silence timer has run out (R6). -/
theorem State.silenceExpiry_due {t0 : Nat} (started : (s.channels[ch]).silenceFrom = some t0)
    (passed : t0 + (s.cfg.channels[ch]).silence ≤ s.osc) : s.silenceExpiry ch = s.silenceExpire ch := by
  have due : s.silenceDue ch = some (t0 + (s.cfg.channels[ch]).silence) := by
    rw [State.silenceDue, started, Option.map_some]
  rw [State.silenceExpiry, due, if_pos (State.expired_some passed)]

/-- A LIVE or SUSPECT channel falls silent in the working module (R6, R12). -/
theorem exec_silence_lost {t0 : Nat} (work : s.working = true) (started : (s.channels[ch]).silenceFrom = some t0)
    (passed : t0 + (s.cfg.channels[ch]).silence ≤ s.osc)
    (heard : (s.channels[ch]).state = .live ∨ (s.channels[ch]).state = .suspect) :
    exec (.silenceExpiry ch) s = .next ((((s.setChannel ch { s.channels[ch] with
      state := .lost, goodRun := 0, silenceFrom := none }).tellRaise .channelLost (ch.val + 1)).reselectAll ch).endEvent) := by
  refine (duringOperation_running (·.silenceExpiry ch) (State.running_of_working work)).trans ?_
  rw [State.silenceExpiry_due started passed, State.silenceExpire_of_heard heard]

theorem exec_silence_unheard {t0 : Nat} (work : s.working = true) (started : (s.channels[ch]).silenceFrom = some t0)
    (passed : t0 + (s.cfg.channels[ch]).silence ≤ s.osc)
    (unheard : (s.channels[ch]).state = .absent ∨ (s.channels[ch]).state = .lost) :
    exec (.silenceExpiry ch) s = .next (s.setChannel ch { s.channels[ch] with goodRun := 0, silenceFrom := none }) := by
  refine (duringOperation_running (·.silenceExpiry ch) (State.running_of_working work)).trans ?_
  rw [State.silenceExpiry_due started passed, State.silenceExpire_of_unheard
    (by obtain e | e := unheard <;> rw [e] <;> simp)]
  exact congrArg _ (State.endEvent_of_quiet (State.acts_of_working work) (State.marks_of_working work))

/-- One raise told by the working module is that raise. -/
theorem State.endEvent_tellRaise (quiet : s.acts = [])
    (clean : s.marks = { config := false, accounts := false, queues := false }) (c : ConditionClass) (n : Nat) :
    (s.tellRaise c n).endEvent = s.raise c n := State.endEvent_tell quiet clean _

theorem exec_hold_expired {due : Nat} (work : s.working = true) (hc : s.cfg.points[p] = some pc)
    (holding : (s.points[p]).state = .holding) (timer : (s.points[p]).holdDue = some due) (passed : due ≤ s.osc) :
    exec (.holdExpiry p) s = .next (s.pointFails p pc).endEvent := by
  refine (duringOperation_running (·.holdExpiry p) (State.running_of_working work)).trans ?_
  simp only [State.holdExpiry, hc, holding, timer, State.expired_some passed, and_self, if_true, State.failPoint_eq]

theorem exec_waiting_expired {due : Nat} (work : s.working = true) (awaiting : (s.points[p]).state = .awaiting)
    (timer : (s.points[p]).waitDue = some due) (passed : due ≤ s.osc) :
    exec (.waitingTimerExpiry p) s =
      .next ((s.setPoint p { s.points[p] with waitDue := none }).raise .pointFailed (p.val + 1)) := by
  refine (duringOperation_running (·.waitingExpiry p) (State.running_of_working work)).trans ?_
  rw [State.waitingExpiry, if_pos ⟨awaiting, by rw [timer]; exact State.expired_some passed⟩]
  exact congrArg _ (State.endEvent_tellRaise (s := s.setPoint p _) (State.acts_of_working work)
    (State.marks_of_working work) _ _)

/-! ### The events at the consumers (R18) -/

/-- The failed event of a source's flow or CV point (R25). -/
theorem State.sourceFailed_eq (n : GasSource) : s.sourceFailed n =
    if s.cfg.sources[n] = .inService ∧ s.gas.unmeasured[n] = false then
      (s.setUnmeasured n true).tellRaise .sourceUnmeasured (n.val + 1)
    else s := by
  unfold State.sourceFailed State.findUnmeasured
  by_cases service : s.cfg.sources[n] = .inService <;> cases flag : s.gas.unmeasured[n] <;>
    simp only [service, if_true, if_false, true_and, false_and, reduceCtorEq, Bool.false_eq_true, gasSourceNumber]

/-- The restored event of a source's flow or CV point (R25). -/
theorem State.sourceRestored_eq (n : GasSource) : s.sourceRestored n =
    if (s.usable (.sourceFlow n) = true ∧ s.usable (.sourceCv n) = true) ∧ s.gas.unmeasured[n] = true then
      (s.setUnmeasured n false).tellEnd .sourceUnmeasured (n.val + 1)
    else s := by
  unfold State.sourceRestored State.clearUnmeasured State.sourceMeasured
  by_cases measured : s.usable (.sourceFlow n) = true ∧ s.usable (.sourceCv n) = true <;>
    simp only [Bool.and_eq_true, measured, if_true, if_false, true_and, false_and, gasSourceNumber]

theorem sourceEvents (s : State) (n : GasSource) (r : Role) (h : r = .sourceFlow n ∨ r = .sourceCv n) :
    s.failedEvent r = s.sourceFailed n ∧ s.restoredEvent r = s.sourceRestored n := by
  obtain rfl | rfl := h <;> exact ⟨rfl, rfl⟩

/-- A detector frozen at its limit state (R32). -/
theorem DetectorCell.frozen_eq (x : DetectorCell) :
    (x.state = .clear ∨ x.state = .arming → x.frozen = { state := .clear, due := none }) ∧
    (x.state = .active ∨ x.state = .disarming → x.frozen = { state := .active, due := none }) := by
  unfold DetectorCell.frozen
  cases x.state <;> simp

/-- The status point's failed and restored events at a boiler (R77, R80). -/
theorem State.statusFailed_eq (b : Boiler) (h : (s.boilers[b]).state = .off) :
    s.statusFailed b = s ∧ s.statusRestored b = s := by
  have same : s.evaluateCauses b = s := by simp only [State.evaluateCauses, h, reduceCtorEq, or_self, if_false]
  exact ⟨by rw [State.statusFailed, h, if_neg (by simp [BoilerState.isActive]), same], same⟩

theorem State.statusEvents_active (b : Boiler) (h : (s.boilers[b]).state.isActive = true) :
    s.statusFailed b = s.trip b .statusLost ∧ s.statusRestored b = s := by
  refine ⟨by rw [State.statusFailed, if_pos h], ?_⟩
  rw [State.statusRestored, State.evaluateCauses]
  refine if_neg ?_
  rintro (e | e) <;> rw [e] at h <;> cases h

theorem State.statusFailed_down (b : Boiler) (h : (s.boilers[b]).state = .tripped ∨ (s.boilers[b]).state = .lockedOut) :
    s.statusFailed b = s.evaluateCauses b := by
  rw [State.statusFailed, if_neg]
  obtain e | e := h <;> rw [e] <;> simp [BoilerState.isActive]

/-- Settles O29: the timers, then the events consumer by consumer. -/
theorem silenceHoldAndWaitingRunOut : Obligations.SilenceHoldAndWaitingRunOut := by
  refine ⟨fun s work => ⟨fun c t0 started passed => ⟨fun heard => ?_, exec_silence_unheard work started passed⟩,
      fun p pc due hc => exec_hold_expired work hc, fun p due => exec_waiting_expired work⟩,
    fun s n r h => ?_, fun s => ⟨rfl, rfl, DetectorCell.frozen_eq _, DetectorCell.frozen_eq _⟩, fun s b c h => ?_, fun s => ?_,
    fun s k => ?_⟩
  · refine ⟨_, exec_silence_lost work started passed heard, (State.reselectAll_lines _ c).1, fun unnamed => ?_,
      fun p pc one hc => ⟨_, State.reselectAll_of_one one hc rfl, rfl⟩, .of_told (State.tellRaise_changes _ _)⟩
    refine (congrArg State.endEvent (State.reselectAll_of_unnamed unnamed (by rfl))).trans ?_
    exact State.endEvent_tellRaise (s := s.setChannel c _) (State.acts_of_working work) (State.marks_of_working work) _ _
  · rw [(sourceEvents s n r h).1, (sourceEvents s n r h).2, State.sourceFailed_eq, State.sourceRestored_eq]
    refine ⟨fun service clear => if_pos ⟨service, clear⟩, fun other => if_neg ?_,
      fun flow cv set => if_pos ⟨⟨flow, cv⟩, set⟩, fun other => if_neg ?_⟩
    · rintro ⟨service, clear⟩
      exact other.elim (· service) fun set => by rw [set] at clear; cases clear
    · rintro ⟨⟨flow, cv⟩, set⟩
      obtain e | e | e := other
      · rw [e] at flow; cases flow
      · rw [e] at cv; cases cv
      · rw [e] at set; cases set
  · refine ⟨fun active => ?_, fun down => ?_, fun off => State.statusFailed_eq b off⟩
    · obtain ⟨failed, restored⟩ := State.statusEvents_active b active
      exact ⟨by rw [State.failedEvent, failed]; exact State.trip_tripsAt h _, restored⟩
    · refine ⟨?_, State.evaluateCauses_evaluated h down⟩
      rw [State.failedEvent, State.statusFailed_down b down]
      exact State.evaluateCauses_evaluated h down
  · refine ⟨fun none => ?_, fun iv open_ => ?_⟩
    · simp only [State.failedEvent, State.exportFailed, none]
    · simp only [State.failedEvent, State.exportFailed, open_]
  · refine ⟨fun service => ?_, fun other => if_neg other, rfl, rfl, rfl⟩
    rw [State.failedEvent, State.heatFailed, if_pos service]
    rfl

end Sys2Proof.Machine
end

section
/-! SUPPORT. What the arrival of a value does at the consumers (R18): the detectors of the holder, the boilers, a meter reading;
with O28. -/

namespace Sys2Proof.Machine

variable {s : State}

/-! ### The sample a SERVING point takes (R13) -/

/-- A SERVING point takes a sample: no other event at its consumer but the arrival (R13, R18). -/
theorem State.servedBy_of_serving {p : PointNo} {pc : PointConfig} {r : Rank} {c : ChannelNo} {x : Sample}
    (serving : (s.points[p]).state = .serving) : s.servedBy p pc r c x =
      (s.setPoint p (s.servingFrom pc r c x)).arrival pc.role (pc.valueOf x.body).1
        ((s.channels[c]).lastTime.getD 0) := by
  simp only [State.servedBy, serving, if_true, reduceCtorEq, or_self, if_false]

/-- What a point makes of a body (R13): a number is scaled, rounded toward zero and limited; other values pass. -/
theorem PointConfig.valueOf_body (pc : PointConfig) (k : ChannelKind) (body : List Byte) :
    (∀ raw, (readBody k body).body = .measure raw →
      let scaled := (raw * pc.multiplier).tdiv pc.divisor
      let limited := if scaled < pc.low then pc.low else if pc.high < scaled then pc.high else scaled
      (pc.valueOf (readBody k body).body).1 = .measure limited ∧
        (pc.valueOf (readBody k body).body).2 = decide (limited ≠ scaled)) ∧
    (k ≠ .measure → (pc.valueOf (readBody k body).body).1 = (readBody k body).body ∧
      (pc.valueOf (readBody k body).body).2 = false) := by
  refine ⟨fun raw h => ?_, fun other => ?_⟩
  · rw [h]; exact ⟨rfl, rfl⟩
  · cases k with
    | measure => exact absurd rfl other
    | status | meter => exact ⟨rfl, rfl⟩

/-! ### The holder (R30) -/

theorem DetectorCell.arrival_eq (x : DetectorCell) (entering leaving : Bool) (due : Nat) :
    (x.state = .clear → x.arrival entering leaving due = if entering then { state := .arming, due := some due } else x) ∧
    (x.state = .arming → x.arrival entering leaving due = if entering then x else { state := .clear, due := none }) ∧
    (x.state = .active →
      x.arrival entering leaving due = if leaving then { state := .disarming, due := some due } else x) ∧
    (x.state = .disarming →
      x.arrival entering leaving due = if leaving then x else { state := .active, due := none }) := by
  unfold DetectorCell.arrival
  cases x.state <;> simp

/-! ### The boilers (R70 to R76) -/

section Boiler

variable {b : Boiler} {c : BoilerConfig} {i : Indications}

theorem State.statusArrival_trips (active : (s.boilers[b]).state.isActive = true) (demand : i.tripDemand = true) :
    s.statusArrival b i = s.trip b .tripDemand := by
  unfold State.statusArrival
  cases h : (s.boilers[b]).state with
  | off | tripped | lockedOut => rw [h] at active; cases active
  | purge | lighting | firingGas | firingAux | changeover => simp only [h, demand, if_true]

theorem State.statusArrival_off (h : (s.boilers[b]).state = .off) : s.statusArrival b i = s := by
  simp only [State.statusArrival, h]

theorem State.statusArrival_purge (h : (s.boilers[b]).state = .purge) (calm : i.tripDemand = false) :
    s.statusArrival b i = s := by
  simp only [State.statusArrival, h, calm, Bool.false_eq_true, if_false]

theorem State.statusArrival_lighting {f : Fuel} (h : (s.boilers[b]).state = .lighting) (calm : i.tripDemand = false)
    (run : (s.boilers[b]).run = some f) : s.statusArrival b i = if i.flame then s.enterFiring b f else s := by
  simp only [State.statusArrival, h, calm, run, Bool.false_eq_true, if_false]

theorem State.statusArrival_firing (h : (s.boilers[b]).state = .firingGas ∨ (s.boilers[b]).state = .firingAux)
    (calm : i.tripDemand = false) : s.statusArrival b i = if i.flame then s else s.trip b .flameLost := by
  obtain h | h := h <;> simp only [State.statusArrival, h, calm, Bool.false_eq_true, if_false]

theorem State.statusArrival_takeover {f : Fuel} (h : (s.boilers[b]).state = .changeover) (calm : i.tripDemand = false)
    (target : (s.boilers[b]).target = some f) (phase : (s.boilers[b]).phase = some .takeover) :
    s.statusArrival b i = if i.flame then s.enterFiring b f else s := by
  simp only [State.statusArrival, h, calm, target, phase, Bool.false_eq_true, if_false]

theorem State.statusArrival_dead {f : Fuel} (h : (s.boilers[b]).state = .changeover) (calm : i.tripDemand = false)
    (target : (s.boilers[b]).target = some f) (phase : (s.boilers[b]).phase = some .dead) :
    s.statusArrival b i =
      if (s.boilers[b]).awaiting && (if f = .gas then i.auxClosed else i.gasClosed) then s.confirmChangeover b else s := by
  have valve : i.valveClosed f.other = if f = .gas then i.auxClosed else i.gasClosed := by cases f <;> rfl
  simp only [State.statusArrival, h, calm, target, phase, Bool.false_eq_true, if_false, valve]

theorem State.statusArrival_down (h : (s.boilers[b]).state = .tripped ∨ (s.boilers[b]).state = .lockedOut) :
    s.statusArrival b i = s.evaluateCauses b := by
  obtain h | h := h <;> simp only [State.statusArrival, h]

/-- FIRING is entered: the boiler, its allocation, its frame (R41, R57, R70, R74). -/
theorem State.enterFiring_eq (h : s.cfg.boilers[b] = some c) (f : Fuel) : s.enterFiring b f =
    ((s.setBoiler b { s.boilers[b] with
      state := f.firing, run := some f, phase := none, target := none, awaiting := false, purgeDue := none,
      lightOffDue := none, confirmDue := none, deadDue := none }).setAllocation b
        { gas := if f = .gas then c.minimum else 0, aux := if f = .aux then c.minimum else 0, idle := 0 }).queueFrame b
          (some f) c.minimum := by
  have minimum (q : Sequencer) : (s.setBoiler b q).minimumFiring b = c.minimum := by
    simp only [State.minimumFiring, State.setBoiler_cfg, h, Option.elim_some]
  rw [State.enterFiring, State.noticeFiringEntered, minimum]
  cases f <;> rfl

theorem State.standingCause_iff : s.standingCause b = true ↔
    s.plantRelease = false ∨ s.indicated (.boilerStatus b) = none ∨
      ∃ j, s.indicated (.boilerStatus b) = some j ∧ j.tripDemand = true := by
  unfold State.standingCause
  cases s.indicated (.boilerStatus b) with
  | none => simp
  | some j => simp [or_comm]

end Boiler

/-! ### Readings of what is delivered (R107, R116) -/

section Export

variable {reading : Nat}

theorem State.setInterval_acts (iv : OpenInterval) : (s.setInterval iv).acts = s.acts := by
  unfold State.setInterval State.setQueues; split <;> rfl

theorem State.queueSettlement_acts (r : SettlementRecord) : (s.queueSettlement r).acts =
    s.acts ++ (if s.que.settlements.length < 192 then [] else [.report { cls := .settlementOverrun, source := 1 }]) := by
  by_cases h : 192 ≤ s.que.settlements.length
  · rw [if_neg (Nat.not_lt.mpr h)]
    simp [State.queueSettlement, settlementPlaces, h]
  · rw [if_pos (Nat.lt_of_not_le h)]
    simp [State.queueSettlement, settlementPlaces, h]

/-- A reading during the meter wait finishes it (R116). -/
theorem State.exportArrival_waiting {w : MeterWait} (h : s.esu.wait = some w) : s.exportArrival reading =
    ({ s with esu := { s.esu with lastReading := some reading } } : State).endWait (some reading) := by
  simp only [State.exportArrival, h, Option.isSome_some, if_true]

theorem State.exportArrival_open (h : s.esu.wait = none) : s.exportArrival reading =
    { s with
      esu := { s.esu with lastReading := some reading }
      que := { s.que with
        interval := s.que.interval.map fun iv => { iv with reference := some (iv.reference.getD reading) } } } := by
  simp only [State.exportArrival, h, Option.isSome_none, Bool.false_eq_true, if_false]
  cases interval : s.que.interval with
  | some iv => rfl
  | none =>
    have : s.que = { s.que with interval := none } := by rw [← interval]
    rw [Option.map_none, ← this]

/-- The end of the wait without a gap record, by a reading. -/
theorem State.endWait_reading {w : MeterWait} {iv : OpenInterval} (h : s.esu.wait = some w) (gap : w.gap = none)
    (opened : s.que.interval = some iv) :
    (s.endWait (some reading)).esu = { s.esu with wait := none } ∧
      (s.endWait (some reading)).que =
        { s.que with interval := some { iv with reference := some (iv.reference.getD reading) } } := by
  simp [State.endWait, h, gap, opened, State.markQueues]

/-- The end of the wait with a gap record, which the reading completes and queues (R110, R116). -/
theorem State.endWait_gap {w : MeterWait} {iv : OpenInterval} {g : GapRecord} (h : s.esu.wait = some w)
    (gap : w.gap = some g) (opened : s.que.interval = some iv) :
    (s.endWait (some reading)).esu = { s.esu with wait := none } ∧
      (s.endWait (some reading)).que = { s.que with
        interval := some { iv with reference := some reading, estimated := false }
        settlements := joinedBy s.que.settlements
          (g.completed s.que.nextSettlement (if g.estimated then none else g.reference.map (readingGap reading)))
        nextSettlement := s.que.nextSettlement + 1 } ∧
      (s.endWait (some reading)).acts = s.acts ++ (if s.que.settlements.length < 192 then [] else
        [.report { cls := .settlementOverrun, source := 1 }]) := by
  have ended : s.endWait (some reading) = (({ s with esu := { s.esu with wait := none } } : State).markQueues.queueSettlement
      (g.completed 0 (if g.estimated then none else g.reference.map (readingGap reading)))).setInterval
        { iv with reference := some reading, estimated := false } := by
    unfold State.endWait
    simp only [h, gap, State.queueSettlement_que, State.markQueues_que, opened]
    rfl
  rw [ended, State.setInterval_esu, State.queueSettlement_esu, State.setInterval_que, State.queueSettlement_que,
    State.setInterval_acts, State.queueSettlement_acts]
  exact ⟨rfl, rfl, rfl⟩

/-- The two readings' gap as the rules write it. -/
theorem readingGap_eq {later earlier : Nat} (h : later < 100000000) (h' : earlier < 100000000) :
    readingGap later earlier = (((later : Int) - earlier) % 100000000).toNat := by
  unfold readingGap Config.meterModulus
  omega

end Export

/-! ### The arrivals, consumer by consumer -/

/-- A GOOD sample at the LIVE channel that a SERVING point serves from is what the point serves then. -/
theorem State.refresh_serving {p : PointNo} {pc : PointConfig} {r : Rank} {c : ChannelNo} {x : Sample} {g : Nat}
    (conf : s.cfg.points[p] = some pc) (live : (s.channels[c]).state = .live) (sel : s.selection pc = some (r, c))
    (serving : (s.points[p]).state = .serving) (rank : (s.points[p]).rank = some r) :
    (s.setChannel c (s.sampled x .live g)).refresh c p =
      ((s.setChannel c (s.sampled x .live g)).setPoint p
        { state := .serving, rank := some r, value := some (pc.valueOf x.body).1, clamped := (pc.valueOf x.body).2,
          valueTime := some s.clock.reading, holdDue := none, waitDue := none }).arrival pc.role (pc.valueOf x.body).1
        s.clock.reading := by
  have last : ((s.setChannel c (s.sampled x .live g)).channels[c]).last = some x := by rw [State.setChannel_same]; rfl
  have time : ((s.setChannel c (s.sampled x .live g)).channels[c]).lastTime = some s.clock.reading := by
    rw [State.setChannel_same]; rfl
  have same : (s.setChannel c (s.sampled x .live g)).selection pc = some (r, c) :=
    (State.selection_setChannel (.inr (iff_of_true rfl live))).trans sel
  have points : (s.setChannel c (s.sampled x .live g)).points = s.points := rfl
  simp only [State.refresh, State.setChannel_cfg, conf, same, points, serving, rank, and_self, if_true]
  rw [State.serve_eq last, State.servedBy_of_serving (s := s.setChannel c _) serving]
  simp only [State.servingFrom, time, Option.getD_some]

theorem State.arrival_level {h : HolderFigures} (holder : s.cfg.holder = some h) (v : Int) (time : Nat) :
    s.arrival .holderLevel (.measure v) time = s.testDetectors h (min v.toNat h.capacity) .arrival := by
  simp only [State.arrival, State.levelArrival, holder, limited]

/-- The fourth part of O28, where the meter wait ends. -/
theorem State.exportArrival_ends {w : MeterWait} {iv : OpenInterval} {reading : Nat} (wait : s.esu.wait = some w)
    (opened : s.que.interval = some iv) :
    let t := s.exportArrival reading
    t.esu = { s.esu with lastReading := some reading, wait := none } ∧
      (w.gap = none → t.que.settlements = s.que.settlements ∧
        t.que.interval = some { iv with reference := some (iv.reference.getD reading) }) ∧
      ∀ g, w.gap = some g → t.que.interval = some { iv with reference := some reading, estimated := false } ∧
        t.que.nextSettlement = s.que.nextSettlement + 1 ∧
        t.acts = s.acts ++ (if s.que.settlements.length < 192 then [] else
          [.report { cls := .settlementOverrun, source := 1 }]) ∧
        t.que.settlements = joinedBy s.que.settlements
          (g.completed s.que.nextSettlement (if g.estimated then none else g.reference.map (readingGap reading))) := by
  dsimp only
  rw [State.exportArrival_waiting wait]
  cases gap : w.gap with
  | none =>
    obtain ⟨esu, que⟩ := State.endWait_reading (reading := reading)
      (s := { s with esu := { s.esu with lastReading := some reading } }) wait gap opened
    rw [esu, que]
    exact ⟨rfl, fun _ => ⟨rfl, rfl⟩, nofun⟩
  | some g =>
    obtain ⟨esu, que, acts⟩ := State.endWait_gap (reading := reading)
      (s := { s with esu := { s.esu with lastReading := some reading } }) wait gap opened
    rw [esu, que, acts]
    refine ⟨rfl, nofun, fun g' hg => ?_⟩
    cases hg
    exact ⟨rfl, rfl, rfl, rfl⟩

/-- Settles O28: the frame's way to the point, then the arrival consumer by consumer. -/
theorem servingPointTakesTheSample : Obligations.ServingPointTakesTheSample := by
  refine ⟨?_, fun s v time => ⟨fun absent => ?_, fun h holder => ?_⟩, fun s b c i time h => ?_, fun s reading rate time => ?_⟩
  · intro s l c k body p pc r work kind full good live one conf sel serving rank
    refine ⟨_, _, (pc.valueOf_body k body).1, (pc.valueOf_body k body).2, ?_⟩
    rw [exec_sample_live work kind full good live, one, State.inAnyOrder_singleton]
    exact congrArg (fun t : State => Host.Outcome.next t.endEvent)
      (State.refresh_serving (s := s.setLine l .hunting) conf live sel serving rank)
  · simp only [State.arrival, State.levelArrival, absent]
  · rw [State.arrival_level holder]
    exact ⟨rfl, rfl, DetectorCell.arrival_eq .., DetectorCell.arrival_eq ..⟩
  · have arrival : s.arrival (.boilerStatus b) (.status i) time = s.statusArrival b i := rfl
    have fires (f : Fuel) := State.enterFiring_eq h f
    simp only [arrival, State.standingCause_iff, iff_self, and_true]
    refine ⟨State.statusArrival_off, fun active demand => State.statusArrival_trips active demand ▸ State.trip_tripsAt h _,
      fun calm => ⟨(State.statusArrival_purge · calm), fun f standing run => ?_, fun standing => ?_, fun f standing target =>
        ⟨fun phase => ?_, fun phase => ?_⟩⟩,
      fun down => State.statusArrival_down down ▸ State.evaluateCauses_evaluated h down⟩
    · rw [State.statusArrival_lighting standing calm run]
      exact ⟨fun flame => by rw [flame, if_pos rfl, fires], fun flame => by rw [flame]; rfl⟩
    · rw [State.statusArrival_firing standing calm]
      exact ⟨fun flame => by rw [flame, if_pos rfl], fun flame => by rw [flame]; exact State.trip_tripsAt h _⟩
    · rw [State.statusArrival_takeover standing calm target phase]
      exact ⟨fun flame => by rw [flame, if_pos rfl, fires], fun flame => by rw [flame]; rfl⟩
    · rw [State.statusArrival_dead standing calm target phase]
      refine ⟨fun awaiting closed => ?_, fun still => ?_⟩
      · rw [awaiting, closed, Bool.and_self, if_pos rfl, State.confirmChangeover, h]
        rfl
      · rw [if_neg]
        obtain no | no := still
        · rw [no, Bool.false_and]; exact Bool.false_ne_true
        · rw [no, Bool.and_false]; exact Bool.false_ne_true
  · have arrival : s.arrival .exportMeter (.meter reading rate) time = s.exportArrival reading := rfl
    rw [arrival]
    refine ⟨fun idle => ⟨fun shut => ?_, fun iv opened => ?_⟩, fun w iv wait opened => ?_⟩
    · rw [State.exportArrival_open idle, shut, Option.map_none, ← shut]
    · rw [State.exportArrival_open idle, opened, Option.map_some]
    · obtain ⟨esu, plain, held⟩ := State.exportArrival_ends (reading := reading) wait opened
      refine ⟨esu, plain, fun g gap => ?_⟩
      obtain ⟨interval, number, acts, records⟩ := held g gap
      refine ⟨interval, number, acts, fun lost => ?_, fun ref sound known small small' => ?_⟩
      · obtain lost | lost := lost <;> simpa [lost] using records
      · rw [records, sound, known, Option.map_some, readingGap_eq small small']
        rfl

end Sys2Proof.Machine
end

section
/-! SUPPORT. Requests answered OK that change CONFIG and tell the Condition Table one act, and Configure Channel
(R3, R6, R154, R176); with O30. -/

namespace Sys2Proof.Machine

variable {s : State}

/-! ### A request with new CONFIG contents and one act -/

section Act

/-- The state with another host link, store and marks: what the acts of the table do not read. -/
def State.apart (s : State) (l : HostLink) (r : Store) (m : WriteMarks) : State :=
  { s with hlu := l, store := r, marks := m }

variable {l : HostLink} {r : Store} {m : WriteMarks}

theorem State.raiseTableFull_apart : (s.apart l r m).raiseTableFull = s.raiseTableFull.apart l r m := by
  have entry : (s.apart l r m).conditions = s.conditions := rfl
  unfold State.raiseTableFull
  rw [entry]
  cases s.conditions[fullPlace] <;> rfl

theorem State.endTableFull_apart : (s.apart l r m).endTableFull = s.endTableFull.apart l r m := by
  have entry : (s.apart l r m).conditions = s.conditions := rfl
  unfold State.endTableFull
  rw [entry]
  cases s.conditions[fullPlace] with
  | none => rfl
  | some e => dsimp only; split <;> rfl

theorem State.raiseWith_apart (k : ConditionKey) (mode : LatchMode) :
    (s.apart l r m).raiseWith k mode = (s.raiseWith k mode).apart l r m := by
  have place : (s.apart l r m).placeOf k = s.placeOf k := rfl
  have free : (s.apart l r m).freePlace = s.freePlace := rfl
  unfold State.raiseWith
  rw [place, free]
  cases s.placeOf k with
  | some i => rfl
  | none =>
    cases s.freePlace with
    | some i => rfl
    | none => exact State.raiseTableFull_apart

theorem State.removeEntry_apart (i : Fin 128) : (s.apart l r m).removeEntry i = (s.removeEntry i).apart l r m := by
  have free : (s.apart l r m).freePlace = s.freePlace := rfl
  unfold State.removeEntry
  rw [free]
  dsimp only
  split
  · exact State.endTableFull_apart (s := s.setPlace i none)
  · rfl

theorem State.endCause_apart (c : ConditionClass) (n : Nat) :
    (s.apart l r m).endCause c n = (s.endCause c n).apart l r m := by
  have place : (s.apart l r m).placeOf { cls := c, source := n } = s.placeOf { cls := c, source := n } := rfl
  have entry : (s.apart l r m).conditions = s.conditions := rfl
  unfold State.endCause
  rw [place, entry]
  cases s.placeOf { cls := c, source := n } with
  | none => rfl
  | some i =>
    dsimp only
    cases s.conditions[i] with
    | none => rfl
    | some e =>
      dsimp only
      split
      · rfl
      · split
        · exact State.removeEntry_apart i
        · split
          · exact State.removeEntry_apart i
          · rfl

theorem State.takeAct_apart (a : ConditionAct) : (s.apart l r m).takeAct a = (s.takeAct a).apart l r m := by
  cases a with
  | raise k mode => exact State.raiseWith_apart k mode
  | endCause k => exact State.endCause_apart k.cls k.source
  | report k =>
    have latch : (s.apart l r m).classLatch k.cls = s.classLatch k.cls := by cases k.cls <;> rfl
    simp only [State.takeAct, State.raiseAndEnd, State.raise, latch, State.raiseWith_apart, State.endCause_apart]

/-- The state with its CONFIG region written (R176). -/
def State.configWritten (s : State) : State :=
  s.apart s.hlu (if s.hlu.restartDue then s.store else { s.store with config := s.store.config.write s.cfg })
    { config := false, accounts := false, queues := false }

/-- CONFIG marked and one act told: the region is written and the act carried out. -/
theorem endEvent_config_tell {t : State} (quiet : t.acts = [])
    (marked : t.marks = { config := true, accounts := false, queues := false }) (a : ConditionAct) :
    (t.tell a).answeredOk.endEvent = (t.configWritten.takeAct a).answeredOk := by
  have taken : t.answeredOk.takeAct a = (t.takeAct a).answeredOk := by
    have hlu : (t.takeAct a).hlu = t.hlu := State.takeAct_changes a .hlu (by decide)
    have store : (t.takeAct a).store = t.store := State.takeAct_changes a .store (by decide)
    have marks := State.takeAct_marks a (s := t)
    refine (State.takeAct_apart (l := { t.hlu with answer := some Status.ok.answer }) (r := t.store) (m := t.marks) a).trans ?_
    rw [← store, ← marks, ← hlu]
    rfl
  have told : (t.tell a).answeredOk.endEvent = (t.takeAct a).answeredOk.writeMarked := by
    rw [← taken]
    exact congrArg State.writeMarked (State.takeActs_tell (s := t.answeredOk) quiet a)
  have cfg : (t.takeAct a).cfg = t.cfg := State.takeAct_changes a .cfg (by decide)
  have store : (t.takeAct a).store = t.store := State.takeAct_changes a .store (by decide)
  have hlu : (t.takeAct a).hlu = t.hlu := State.takeAct_changes a .hlu (by decide)
  have marks : (t.takeAct a).marks = { config := true, accounts := false, queues := false } :=
    (State.takeAct_marks a).trans marked
  rw [told, State.configWritten, State.takeAct_apart]
  simp only [State.writeMarked, State.answeredOk, State.answered, State.apart, marks, cfg, store, hlu, if_true,
    Bool.false_eq_true, if_false]

/-- CONFIG marked and nothing told: the region is written. -/
theorem endEvent_config {t : State} (quiet : t.acts = [])
    (marked : t.marks = { config := true, accounts := false, queues := false }) :
    t.answeredOk.endEvent = t.configWritten.answeredOk := by
  rw [State.endEvent_of_untold (s := t.answeredOk) quiet]
  simp only [State.writeMarked, State.answeredOk, State.answered, State.configWritten, State.apart, marked, if_true,
    Bool.false_eq_true, if_false]

/-- New CONFIG contents, written. -/
theorem State.configWritten_markConfig (clean : s.marks = { config := false, accounts := false, queues := false })
    (c : ConfigRegion) : ({ s with cfg := c } : State).markConfig.configWritten = s.withConfig c := by
  cases s; cases clean; rfl

end Act

/-! ### Requests, by what their owner makes of them -/

/-- A request that its owner answers OK. -/
theorem exec_done {i : Instr} {f : State → Served} {t : State} (owned : owner i = some f) (work : s.working = true)
    (h : f s = done t) : exec i s = .next t.answeredOk.endEvent := by
  rw [exec_of_owner owned, serveRequest_running f (State.running_of_working work), h]
  rfl

/-- A request that its owner refuses. -/
theorem exec_refuse {i : Instr} {f : State → Served} {c : Status} (owned : owner i = some f) (work : s.working = true)
    (h : f s = refuse s c) : exec i s = .next (s.refusedWith c) := by
  rw [exec_of_owner owned]
  exact serveRequest_refuse work h

/-- The answer does not reach the points. -/
theorem PointsReselected.answered {u v : State} {c : ChannelNo} (told : ChangesOnly [.marks] u v) :
    PointsReselected u (v.reselectAll c).answeredOk.endEvent c := by
  have same : (v.reselectAll c).answeredOk.endEvent.points = (v.reselectAll c).endEvent.points :=
    (State.endEvent_keepsPoints (v.reselectAll c).answeredOk).2.1.trans
      (State.endEvent_keepsPoints (v.reselectAll c)).2.1.symm
  have plain := PointsReselected.of_told (c := c) told
  intro p
  rw [same]
  exact plain p

/-! ### Configure Channel (R3) -/

section Channel

variable {c : ChannelNo} {k : ChannelKind} {n kind : Byte} {silence : Half}

theorem readKind_eq_some : readKind kind = some k ↔
    kind = 0 ∧ k = .measure ∨ kind = 1 ∧ k = .status ∨ kind = 2 ∧ k = .meter := by
  have zero : kind = 0 ↔ kind.toNat = 0 := byte_eq_iff kind 0 (by decide)
  have one : kind = 1 ↔ kind.toNat = 1 := byte_eq_iff kind 1 (by decide)
  have two : kind = 2 ↔ kind.toNat = 2 := byte_eq_iff kind 2 (by decide)
  rw [zero, one, two]
  unfold readKind
  split
  · rename_i h; simp [h, eq_comm]
  · rename_i h; simp [h, eq_comm]
  · rename_i h; simp [h, eq_comm]
  · rename_i n0 n1 n2
    exact iff_of_false nofun (by rintro (⟨e, -⟩ | ⟨e, -⟩ | ⟨e, -⟩) <;> contradiction)

theorem readKind_eq_none (h : 2 < kind.toNat) : readKind kind = none := by
  unfold readKind
  split <;> first | rfl | omega

theorem configureChannelOwner_out (h : n = 0 ∨ 96 < n.toNat ∨ 2 < kind.toNat ∨ silence = 0 ∨ 600 < silence.toNat) :
    configureChannelOwner n kind silence s = refuse s .badField := by
  unfold configureChannelOwner
  split
  · rename_i c k number code
    have inside := numbered_eq_some.mp number
    have known : ¬ 2 < kind.toNat := fun big => by rw [readKind_eq_none big] at code; cases code
    have nonzero : n ≠ 0 := fun e => by rw [e] at inside; simp at inside
    have small : silence.toNat < 1 ∨ 600 < silence.toNat := by
      obtain h | h | h | h | h := h
      · exact absurd h nonzero
      · omega
      · exact absurd h known
      · rw [h]; exact .inl (by decide)
      · exact .inr h
    exact if_pos small
  · rfl

/-- Configure Channel with its fields in range. -/
theorem configureChannelOwner_eq (number : n.toNat = c.val + 1) (code : readKind kind = some k)
    (low : 1 ≤ silence.toNat) (high : silence.toNat ≤ 600) : configureChannelOwner n kind silence s =
      let new : ChannelConfig := { kind := k, silence := silence.toNat }
      if new = s.cfg.channels[c] then done s
      else if k ≠ (s.cfg.channels[c]).kind then
        if (s.namedBy c).isEmpty then
          done (((s.putChannelConfig c new).setChannel c .start).tellEnd .channelLost (c.val + 1))
        else refuse s .busy
      else
        let s := s.putChannelConfig c new
        done (if (s.silenceDue c).any fun t => decide (t < s.osc) then s.silenceExpire c else s) := by
  simp only [configureChannelOwner, numbered_eq_some.mpr number, code, channelNumber]
  rw [if_neg (by omega)]

/-- The marks of the working module, CONFIG's set by new contents. -/
theorem State.putChannelConfig_marked (work : s.working = true) (x : ChannelConfig) :
    (s.putChannelConfig c x).marks = { config := true, accounts := false, queues := false } :=
  congrArg (fun m : WriteMarks => { m with config := true }) (State.marks_of_working work)

theorem State.putChannelConfig_written (work : s.working = true) (x : ChannelConfig) (y : Channel) :
    ((s.putChannelConfig c x).setChannel c y).configWritten =
      (s.withConfig { s.cfg with channels := s.cfg.channels.set c x }).setChannel c y := by
  have written := State.configWritten_markConfig (State.marks_of_working work)
    { s.cfg with channels := s.cfg.channels.set c x }
  exact congrArg (State.setChannel · c y) written

/-- The silence limit as the new figures set it. -/
theorem State.silenceDue_putChannelConfig (x : ChannelConfig) : (s.putChannelConfig c x).silenceDue c =
    (s.channels[c]).silenceFrom.map (· + x.silence) := by
  simp [State.silenceDue, State.putChannelConfig, State.markConfig]

end Channel

/-- Settles O30: the branches of the owner in their order. -/
theorem configureChannelByCase : Obligations.ConfigureChannelByCase := by
  intro s n kind silence work
  have owned : owner (.configureChannel n kind silence) = some (configureChannelOwner n kind silence) := rfl
  refine ⟨fun out => exec_refuse owned work (configureChannelOwner_out out), fun c k number code low high => ?_⟩
  have owner_eq := configureChannelOwner_eq (s := s) number (readKind_eq_some.mpr code) low high
  dsimp only at owner_eq ⊢
  generalize new_eq : ({ kind := k, silence := silence.toNat } : ChannelConfig) = new at owner_eq ⊢
  have kind_eq : new.kind = k := by rw [← new_eq]
  have silence_eq : new.silence = silence.toNat := by rw [← new_eq]
  have differs : k ≠ (s.cfg.channels[c]).kind → new ≠ s.cfg.channels[c] := fun h e => h (by rw [← e, kind_eq])
  have acts : (s.putChannelConfig c new).acts = [] := (State.acts_of_working work :)
  have marks := State.putChannelConfig_marked (c := c) work new
  refine ⟨fun same => ?_, fun other named => ?_, fun other unnamed => ?_, fun same ne early => ?_,
    fun t0 same started passed changed => ?_⟩
  · rw [if_pos same.symm] at owner_eq
    rw [exec_of_owner owned]
    exact serveRequest_done work owner_eq rfl rfl
  · rw [if_neg (differs other), if_pos other, if_neg (by rw [List.isEmpty_iff]; exact named)] at owner_eq
    exact exec_refuse owned work owner_eq
  · rw [if_neg (differs other), if_pos other, if_pos (by rw [unnamed]; rfl)] at owner_eq
    rw [exec_done owned work owner_eq]
    refine congrArg Host.Outcome.next ((endEvent_config_tell (t := (s.putChannelConfig c new).setChannel c _) acts marks _).trans ?_)
    rw [State.putChannelConfig_written work]
    rfl
  · have due : ((s.putChannelConfig c new).silenceDue c).any (fun t => decide (t < (s.putChannelConfig c new).osc)) = false := by
      rw [State.silenceDue_putChannelConfig]
      cases started : (s.channels[c]).silenceFrom with
      | none => rfl
      | some t0 => exact decide_eq_false (Nat.not_lt.mpr (by rw [silence_eq]; exact early t0 started))
    rw [if_neg (fun e => ne (by rw [← e, silence_eq])), if_neg (not_not_intro same), due] at owner_eq
    rw [exec_of_owner owned]
    exact serveRequest_config work owner_eq
  · have due : ((s.putChannelConfig c new).silenceDue c).any (fun t => decide (t < (s.putChannelConfig c new).osc)) = true := by
      rw [State.silenceDue_putChannelConfig, started]
      exact decide_eq_true (by rw [silence_eq]; exact passed)
    rw [if_neg changed, if_neg (not_not_intro same), due, if_pos rfl] at owner_eq
    have answer := exec_done owned work owner_eq
    refine ⟨fun unheard => ?_, fun heard => ?_⟩
    · rw [answer, State.silenceExpire_of_unheard (by
        rw [State.putChannelConfig_channels]
        obtain e | e := unheard <;> rw [e] <;> simp)]
      refine congrArg Host.Outcome.next ((endEvent_config (t := (s.putChannelConfig c new).setChannel c _) acts marks).trans ?_)
      rw [State.putChannelConfig_written work]
      rfl
    · rw [State.silenceExpire_of_heard (s := s.putChannelConfig c new) heard] at answer
      generalize told_eq : ((s.putChannelConfig c new).setChannel c _).tellRaise .channelLost (c.val + 1) = v at answer
      have moved := State.reselectAll_sets v c
      have kept := State.endEvent_changes (s := (v.reselectAll c).answeredOk)
      refine ⟨_, answer, ?_, ?_, ?_, fun unnamed => ?_, fun p pc one conf => ?_, ?_⟩
      · have hlu : (v.reselectAll c).hlu = s.hlu := Eq.trans (moved.rest .hlu (by decide)) (by rw [← told_eq]; rfl)
        exact Eq.trans (kept .hlu (by decide)) (congrArg (fun h => { h with answer := some Status.ok.answer }) hlu)
      · exact Eq.trans (kept .cfg (by decide)) (Eq.trans (moved.rest .cfg (by decide)) (by rw [← told_eq]; rfl))
      · exact Eq.trans (kept .channels (by decide)) (Eq.trans (moved.rest .channels (by decide)) (by rw [← told_eq]; rfl))
      · rw [State.reselectAll_of_unnamed unnamed (by rw [← told_eq]; rfl), ← told_eq]
        refine (endEvent_config_tell (t := (s.putChannelConfig c new).setChannel c _) acts marks _).trans ?_
        rw [State.putChannelConfig_written work]
        rfl
      · exact ⟨_, told_eq ▸ State.reselectAll_of_one one conf rfl, rfl⟩
      · exact PointsReselected.answered (told_eq ▸ State.tellRaise_changes _ _)

end Sys2Proof.Machine
end

section
/-! SUPPORT. Configure Point (R9 to R11), by what the slot holds and what the request carries; with O31. -/

namespace Sys2Proof.Machine

variable {s : State} {slot : Byte} {f : RawPoint} {p : PointNo} {pc old : PointConfig} {o : Option PointConfig}

theorem owner_configurePoint : owner (.configurePoint slot f) = some (configurePointOwner slot f) := rfl

/-! ### Refused or accepted (R9, R10) -/

theorem configurePointOwner_unknown (h : slot = 0 ∨ 128 < slot.toNat) :
    configurePointOwner slot f s = refuse s .badField := by
  have absent : numbered 128 slot = none := numbered_eq_none.mpr (h.imp (fun e => by rw [e]; rfl) id)
  simp only [configurePointOwner, absent]

section Known

variable (number : slot.toNat = p.val + 1)
include number

theorem configurePointOwner_unfit (h : s.readPointRequest p f = none) :
    configurePointOwner slot f s = refuse s .badField := by
  simp only [configurePointOwner, numbered_eq_some.mpr number, h]

/-- A role held back, of the slot or of the request (R10). -/
theorem configurePointOwner_busy (h : s.readPointRequest p f = some o)
    (held : (∃ x, s.cfg.points[p] = some x ∧ s.HeldBack x.role) ∨ ∃ x, o = some x ∧ s.HeldBack x.role) :
    configurePointOwner slot f s = refuse s .busy := by
  simp only [configurePointOwner, numbered_eq_some.mpr number, h]
  refine if_pos (held.imp ?_ ?_)
  · rintro ⟨x, hx, back⟩
    rw [hx]
    exact (s.roleBusy_iff _).mpr back
  · rintro ⟨x, rfl, back⟩
    exact (s.roleBusy_iff _).mpr back

/-- No role held back. -/
theorem configurePointOwner_free (h : s.readPointRequest p f = some o)
    (slotFree : ∀ x, s.cfg.points[p] = some x → ¬ s.HeldBack x.role) (free : ∀ x, o = some x → ¬ s.HeldBack x.role) :
    configurePointOwner slot f s = done (s.configurePoint p o) := by
  simp only [configurePointOwner, numbered_eq_some.mpr number, h]
  refine if_neg ?_
  rintro (busy | busy)
  · obtain ⟨x, hx, back⟩ := (Option.any_eq_true ..).mp busy
    exact slotFree x hx ((s.roleBusy_iff _).mp back)
  · obtain ⟨x, hx, back⟩ := (Option.any_eq_true ..).mp busy
    exact free x hx ((s.roleBusy_iff _).mp back)

end Known

/-! ### A new role, or none (R11 ii and iii) -/

theorem State.replacePoint_eq (c : Option PointConfig) (x : Point) : s.replacePoint p o c x =
    ((o.elim ((s.putPointConfig p c).setPoint p x) fun old =>
      if (s.points[p]).usable then ((s.putPointConfig p c).setPoint p x).failedEvent old.role
      else (s.putPointConfig p c).setPoint p x).tellEnd .pointFailed (p.val + 1)) := by
  cases o <;> rfl

/-- The slot has taken its new configuration, and re-selects as a fresh point (R11 ii, R12, R16). -/
theorem State.replaced_selection (c : PointConfig) (x : Point) :
    (s.replacePoint p o (some pc) x).selection c = s.selection c :=
  State.selection_congr (State.replacePoint_sets s p o (some pc) x).channels c

theorem State.replaced_reselected : Reselected (s.replacePoint p o (some pc) s.freshPoint)
    ((s.replacePoint p o (some pc) s.freshPoint).reselect p) p pc :=
  State.reselect_reselected (by
    rw [(State.replacePoint_sets s p o (some pc) s.freshPoint).cfg]; exact (State.putPointConfig_puts s p (some pc)).same)

theorem State.replaced_awaiting : ((s.replacePoint p o (some pc) s.freshPoint).points[p]).state ≠ .serving := by
  rw [(State.replacePoint_sets s p o (some pc) s.freshPoint).same]
  exact nofun

theorem State.replaced_unselected (sel : s.selection pc = none) :
    (s.replacePoint p o (some pc) s.freshPoint).reselect p = s.replacePoint p o (some pc) s.freshPoint :=
  State.replaced_reselected.still ((State.replaced_selection pc _).trans sel) State.replaced_awaiting

theorem State.replaced_selected {r : Rank} {ch : ChannelNo} {y : Sample} (sel : s.selection pc = some (r, ch))
    (last : (s.channels[ch]).last = some y) : (s.replacePoint p o (some pc) s.freshPoint).reselect p =
      (s.replacePoint p o (some pc) s.freshPoint).servedBy p pc r ch y := by
  refine State.replaced_reselected.taken r ch y ((State.replaced_selection pc _).trans sel) ?_ (.inl State.replaced_awaiting)
  rw [(State.replacePoint_sets s p o (some pc) s.freshPoint).channels]
  exact last

theorem State.configurePoint_new (other : ∀ x, s.cfg.points[p] = some x → x.role ≠ pc.role) :
    s.configurePoint p (some pc) = (s.replacePoint p s.cfg.points[p] (some pc) s.freshPoint).reselect p := by
  unfold State.configurePoint
  cases held : s.cfg.points[p] with
  | none => rfl
  | some x => exact if_neg (other x held)

theorem State.configurePoint_none : s.configurePoint p none = s.replacePoint p s.cfg.points[p] none .vacant := by
  unfold State.configurePoint
  cases s.cfg.points[p] <;> rfl

/-! ### The same role (R11 i) -/

theorem State.configurePoint_same (held : s.cfg.points[p] = some old) (same : old.role = pc.role) :
    s.configurePoint p (some pc) = s.reconfigure p pc := by
  simp only [State.configurePoint, held, if_pos same]

theorem State.reconfigure_selected {r : Rank} {ch : ChannelNo} {y : Sample} (sel : s.selection pc = some (r, ch))
    (last : (s.channels[ch]).last = some y) :
    s.reconfigure p pc = (s.putPointConfig p (some pc)).servedBy p pc r ch y := by
  have found : (s.putPointConfig p (some pc)).selection pc = some (r, ch) := sel
  simp only [State.reconfigure, found]
  exact State.serve_eq last

theorem State.reconfigure_unselected (sel : s.selection pc = none) : s.reconfigure p pc =
    let u := s.putPointConfig p (some pc)
    match (s.points[p]).state with
    | .serving => u.loseSources p pc
    | .holding =>
      if pc.hold = 0 then u.pointFails p pc else u.setPoint p { s.points[p] with holdDue := some (s.osc + pc.hold) }
    | .awaiting => u.setPoint p { s.points[p] with waitDue := some (s.osc + 60) }
    | .failed | .unconfigured => u := by
  have found : (s.putPointConfig p (some pc)).selection pc = none := sel
  simp only [State.reconfigure, found]
  rfl

/-! ### The emptied slot (R11 iii) -/

theorem State.putPointConfig_marked (work : s.working = true) (c : Option PointConfig) :
    (s.putPointConfig p c).marks = { config := true, accounts := false, queues := false } :=
  congrArg (fun m : WriteMarks => { m with config := true }) (State.marks_of_working work)

/-- A slot with new contents, CONFIG written, the cause of POINT_FAILED ended, and no other notice. -/
theorem endEvent_pointConfig (work : s.working = true) (c : Option PointConfig) (x : Point) :
    (((s.putPointConfig p c).setPoint p x).tellEnd .pointFailed (p.val + 1)).answeredOk.endEvent =
      (((s.withConfig { s.cfg with points := s.cfg.points.set p c }).setPoint p x).endCause .pointFailed
        (p.val + 1)).answeredOk := by
  have written := State.configWritten_markConfig (State.marks_of_working work) { s.cfg with points := s.cfg.points.set p c }
  refine (endEvent_config_tell (t := (s.putPointConfig p c).setPoint p x) (State.acts_of_working work :)
    (State.putPointConfig_marked work c) _).trans ?_
  rw [show ((s.putPointConfig p c).setPoint p x).configWritten = (s.putPointConfig p c).configWritten.setPoint p x from rfl]
  exact congrArg (fun u : State => ((u.setPoint p x).endCause .pointFailed (p.val + 1)).answeredOk) written

/-- Settles O31: the owner's branches, then the slot by its contents. -/
theorem configurePointByCase : Obligations.ConfigurePointByCase := by
  refine ⟨fun s slot f work out => exec_refuse owner_configurePoint work (configurePointOwner_unknown out),
    fun s slot f p work number => ?_⟩
  have emptied (e : f.role = 0xFF) : s.readPointRequest p f = some none := by rw [State.readPointRequest, if_pos e]
  have accepted {c : PointConfig} (carried : c.CarriedBy f) (allowed : s.PointAllowed p c) :=
    (s.readPointRequest_eq_some p f c).mpr ⟨carried, allowed⟩
  have answers {o : Option PointConfig} (read : s.readPointRequest p f = some o)
      (slotFree : ∀ x, s.cfg.points[p] = some x → ¬ s.HeldBack x.role) (free : ∀ x, o = some x → ¬ s.HeldBack x.role) :=
    exec_done owner_configurePoint work (configurePointOwner_free number read slotFree free)
  have busy {o : Option PointConfig} (read : s.readPointRequest p f = some o)
      (held : (∃ x, s.cfg.points[p] = some x ∧ s.HeldBack x.role) ∨ ∃ x, o = some x ∧ s.HeldBack x.role) :=
    exec_refuse owner_configurePoint work (configurePointOwner_busy number read held)
  dsimp only
  refine ⟨fun role unfit => ?_, fun pc carried allowed vacant => ⟨fun held => ?_, fun free sel => ?_⟩,
    fun pc carried allowed free others => ?_, fun pc old carried allowed slotted => ⟨fun held => ?_, fun free same => ?_⟩,
    fun role => ⟨fun old slotted held => ?_, fun free => ?_⟩, fun old role slotted quiet => ?_⟩
  · exact exec_refuse owner_configurePoint work
      (configurePointOwner_unfit number ((s.readPointRequest_eq_none p f).mpr ⟨role, unfit⟩))
  · exact busy (accepted carried allowed) (.inr ⟨pc, rfl, held⟩)
  · have answer := answers (accepted carried allowed) (by rw [vacant]; nofun) (by rintro x ⟨⟩; exact free)
    rw [State.configurePoint_new (by rw [vacant]; nofun), State.replaced_unselected sel, vacant] at answer
    exact answer.trans (congrArg _ (endEvent_pointConfig work (some pc) s.freshPoint))
  · have answer := answers (accepted carried allowed) (fun x hx => (others x hx).2) (by rintro x ⟨⟩; exact free)
    rw [State.configurePoint_new fun x hx => (others x hx).1] at answer
    refine ⟨fun sel => ?_, fun r ch y sel last => ?_⟩
    · rw [State.replaced_unselected sel, State.replacePoint_eq] at answer
      exact answer
    · rw [State.replaced_selected sel last, State.replacePoint_eq] at answer
      exact answer
  · exact busy (accepted carried allowed) (held.imp (fun back => ⟨old, slotted, back⟩) fun back => ⟨pc, rfl, back⟩)
  · have answer := answers (accepted carried allowed) (by rw [slotted]; rintro x ⟨⟩; exact free)
      (by rintro x ⟨⟩; rw [← same]; exact free)
    rw [State.configurePoint_same slotted same] at answer
    refine ⟨fun r ch y sel last => by rw [State.reconfigure_selected sel last] at answer; exact answer, fun sel => ?_⟩
    rw [State.reconfigure_unselected sel] at answer
    refine ⟨fun serving hold => ?_, fun usable zero => ?_, fun holding hold => ?_, fun awaiting => ?_, fun failed => ?_⟩
    · simp only [serving, State.loseSources, if_pos hold] at answer
      exact answer
    · obtain serving | holding := usable
      · simp only [serving, State.loseSources, zero, Nat.lt_irrefl, if_false, State.failPoint_eq] at answer
        exact answer
      · simp only [holding, zero, if_true] at answer
        exact answer
    · simp only [holding, if_neg (Nat.ne_of_gt hold)] at answer
      exact answer.trans (by rw [holding]; rfl)
    · simp only [awaiting] at answer
      exact answer.trans (by rw [awaiting]; rfl)
    · simp only [failed] at answer
      exact answer
  · exact busy (emptied role) (.inl ⟨old, slotted, held⟩)
  · have answer := answers (emptied role) free nofun
    rw [State.configurePoint_none, State.replacePoint_eq] at answer
    exact answer
  · have idle (u : State) : u.failedEvent old.role = u := by obtain e | e | e := quiet <;> rw [e] <;> rfl
    have free : ¬ s.HeldBack old.role := by obtain e | e | e := quiet <;> rw [e] <;> exact id
    have answer := answers (emptied role) (by rw [slotted]; rintro x ⟨⟩; exact free) nofun
    rw [State.configurePoint_none, State.replacePoint_eq, slotted] at answer
    simp only [Option.elim_some, idle, ite_self] at answer
    exact answer.trans (congrArg _ (endEvent_pointConfig work none .vacant))

end Sys2Proof.Machine
end

section
/-! SUPPORT. What the replies of the requests that read carry, reply by reply (R7, R19, R60, R86, R102, R132, R161, R170);
with O25. -/

namespace Sys2Proof.Machine

variable {s : State}

/-! ### The codes of named values (R179 i) -/

theorem carries_boilerState (x : BoilerState) : carries [named boilerStates x] [x.code] = true :=
  carries_named (by cases x <;> rfl)

theorem carries_phase (x : Option Phase) :
    carries [namedOrNone [Phase.dead, .takeover] x] (codeOrNone x Phase.code) = true :=
  carries_codeOrNone x fun a => by cases a <;> rfl

theorem carries_fuel (x : Option Fuel) : carries [namedOrNone [Fuel.gas, .aux] x] (codeOrNone x Fuel.code) = true :=
  carries_codeOrNone x fun a => by cases a <;> rfl

theorem carries_regionState (x : RegionState) : carries [named [RegionState.sound, .restored] x] [x.code] = true :=
  carries_named (by cases x <;> rfl)

theorem carries_latchMode (x : LatchMode) : carries [named [LatchMode.latching, .selfClearing] x] [x.code] = true :=
  carries_named (by cases x <;> rfl)

/-- A number given apart from its byte. -/
theorem carries_literal {n : Nat} (h : n < 256) : carries [unsigned 1 n] [BitVec.ofNat 8 n] = true :=
  carries_byte (by rw [BitVec.toNat_ofNat, Nat.mod_eq_of_lt h])

/-- A field whose value is written in another way. -/
theorem carries_fieldOf (n : Nat) {v : Nat} {w : Int} (h : (v : Int) = w) : carries [unsigned n w] (field n v) = true :=
  h ▸ carries_field n v

theorem carries_remaining (due : Option Nat) : carries (s.remaining due) (s.remainingBytes due) = true :=
  carries_optionalItem fun t _ => carries_field 4 (t - s.osc)

/-! ### Identify (R170) -/

theorem carries_identify : carries s.identifyItems (identifyOwner s).1.contents = true := by
  simp only [State.identifyItems, identifyOwner, okWith, List.append_assoc]
  exact carries_cons (carries_fieldOf 1 rfl) <| carries_cons (carries_fieldOf 2 rfl) <|
    carries_cons (carries_fieldOf 1 rfl) <| carries_cons (carries_fieldOf 2 rfl) <|
    carries_cons (x := [_]) (carries_regionState _) <| carries_cons (x := [_]) (carries_regionState _) <|
    carries_regionState _

/-! ### Read Channel and Read Point (R7, R19) -/

theorem ChannelKind.bodyLength_eq (k : ChannelKind) : k.bodyLength = k.valueWidth + 1 := by cases k <;> rfl

/-- The contents of a Read Channel reply. -/
def State.channelBytes (s : State) (ch : ChannelNo) : List Byte :=
  let x := s.channels[ch]
  let c := s.cfg.channels[ch]
  [c.kind.code] ++ field 2 c.silence ++ [x.state.code] ++ field 1 x.goodRun ++
    optionalItem c.kind.bodyLength x.last Sample.bytes ++ optionalItem 4 x.lastTime (field 4) ++
    s.remainingBytes (s.silenceDue ch)

theorem carries_sample (y : Sample) :
    carries (y.body.items ++ [named [Quality.good, .suspect] y.quality]) y.bytes = true :=
  carries_append (carries_valueBytes y.body) (carries_named (by cases y.quality <;> rfl))

theorem carries_channel (ch : ChannelNo) : carries (s.channelItems ch) (s.channelBytes ch) = true := by
  have kind : carries [named [ChannelKind.measure, .status, .meter] (s.cfg.channels[ch]).kind]
      [(s.cfg.channels[ch]).kind.code] = true := carries_named (by cases (s.cfg.channels[ch]).kind <;> rfl)
  have state : carries [named [ChannelState.live, .suspect, .lost, .absent] (s.channels[ch]).state]
      [(s.channels[ch]).state.code] = true := carries_named (by cases (s.channels[ch]).state <;> rfl)
  simp only [State.channelItems, List.cons_append, List.nil_append, List.append_assoc]
  simp only [State.channelBytes, ChannelKind.bodyLength_eq, List.append_assoc]
  exact carries_cons kind <| carries_cons (carries_field 2 _) <| carries_cons state <| carries_cons (carries_field 1 _) <|
    carries_append (carries_optionalItem fun y _ => carries_sample y) <|
    carries_append (carries_optionalItem fun t _ => carries_field 4 t) (carries_remaining _)

/-- The contents of a Read Point reply. -/
def State.pointBytes (s : State) (p : PointNo) : List Byte :=
  let x := s.points[p]
  pointConfigBytes s.cfg.points[p] ++ [x.state.code] ++ codeOrNone x.rank Rank.code ++
    optionalItem ((s.cfg.points[p]).elim 4 fun c => c.valueWidth + 4) x.value
      (fun v => v.bytes ++ field 4 (x.valueTime.getD 0)) ++
    flagByte x.clamped ++ s.remainingBytes (x.holdDue.or x.waitDue)

theorem carries_role (r : Role) : carries [unsigned 1 r.codes.1, unsigned 1 r.codes.2] r.bytes = true := by
  have numbered {n : Nat} (c : Nat) (i : Fin n) (small : c < 256) :
      carries [unsigned 1 c, unsigned 1 (i.val + 1 : Nat)] (BitVec.ofNat 8 c :: numberByte i) = true :=
    carries_cons (x := [_]) (carries_literal small) (carries_field 1 (i.val + 1))
  cases r with
  | sourceFlow n => exact numbered 0 n (by decide)
  | sourceCv n => exact numbered 1 n (by decide)
  | boilerStatus b => exact numbered 6 b (by decide)
  | heatMeter k => exact numbered 8 k (by decide)
  | worksFlow | networkCv | holderLevel | turbineStatus | exportMeter => decide

theorem carries_optionalChannel (a : Option ChannelNo) :
    carries [a.elim (unsigned 1 0xFF) numberItem] (a.elim [0xFF] numberByte) = true := by
  cases a with
  | none => decide
  | some c => exact carries_numberByte c

theorem carries_pointConfig (c : PointConfig) :
    carries [unsigned 1 c.role.codes.1, unsigned 1 c.role.codes.2, numberItem c.primary,
      c.alternateA.elim (unsigned 1 0xFF) numberItem, c.alternateB.elim (unsigned 1 0xFF) numberItem,
      unsigned 2 c.multiplier, unsigned 2 c.divisor, signed 4 c.low, signed 4 c.high, unsigned 2 c.hold]
      (pointConfigBytes (some c)) = true := by
  simp only [pointConfigBytes, List.append_assoc]
  exact carries_append (carries_role c.role) <| carries_cons (carries_numberByte _) <|
    carries_cons (carries_optionalChannel _) <| carries_cons (carries_optionalChannel _) <|
    carries_cons (carries_field 2 _) <| carries_cons (carries_field 2 _) <| carries_cons (carries_signedField 4 _) <|
    carries_cons (carries_signedField 4 _) <| carries_field 2 _

theorem PointConfig.valueWidth_eq (c : PointConfig) : c.valueWidth = c.role.requiredKind.valueWidth := by
  rw [PointConfig.valueWidth, Role.kind_eq, ChannelKind.bodyLength_eq, Nat.add_sub_cancel]

theorem carries_point (p : PointNo) : carries (s.pointItems p) (s.pointBytes p) = true := by
  have state : carries [named [PointState.unconfigured, .awaiting, .serving, .holding, .failed] (s.points[p]).state]
      [(s.points[p]).state.code] = true := carries_named (by cases (s.points[p]).state <;> rfl)
  have rank : carries [namedOrNone [Rank.primary, .alternateA, .alternateB] (s.points[p]).rank]
      (codeOrNone (s.points[p]).rank Rank.code) = true := carries_codeOrNone _ fun a => by cases a <;> rfl
  have tail (width : Nat) := carries_cons state <| carries_cons rank <|
    carries_append (carries_optionalItem (width := width) (x := (s.points[p]).value) fun v _ =>
      carries_append (carries_valueBytes v) (carries_field 4 ((s.points[p]).valueTime.getD 0))) <|
    carries_cons (carries_flagByte (s.points[p]).clamped)
      (carries_remaining (s := s) ((s.points[p]).holdDue.or (s.points[p]).waitDue))
  simp only [State.pointItems, List.cons_append, List.nil_append, List.append_assoc]
  simp only [State.pointBytes, PointConfig.valueWidth_eq, List.append_assoc]
  refine carries_append ?_ (tail _)
  cases s.cfg.points[p] with
  | none => decide
  | some c => exact carries_pointConfig c

/-! ### Read Boiler (R86) -/

theorem carries_boilerConfig (c : BoilerConfig) :
    carries [unsigned 4 c.minimum, unsigned 4 c.maximum, unsigned 4 c.ramp, unsigned 2 c.yield, yesNo c.auxFitted,
      unsigned 2 c.purge, unsigned 1 c.lightOff, unsigned 1 c.interval,
      named [ChangeoverReference.fromCommand, .fromConfirm] c.reference, unsigned 4 c.window, unsigned 1 c.tripLimit,
      named [RestartMode.autoRestart, .latched] c.restart] c.bytes = true := by
  have reference : carries [named [ChangeoverReference.fromCommand, .fromConfirm] c.reference] [c.reference.code] = true :=
    carries_named (by cases c.reference <;> rfl)
  have restart : carries [named [RestartMode.autoRestart, .latched] c.restart] [c.restart.code] = true :=
    carries_named (by cases c.restart <;> rfl)
  simp only [BoilerConfig.bytes, List.append_assoc]
  exact carries_cons (carries_field 4 _) <| carries_cons (carries_field 4 _) <| carries_cons (carries_field 4 _) <|
    carries_cons (carries_field 2 _) <| carries_cons (carries_flagByte _) <| carries_cons (carries_field 2 _) <|
    carries_cons (carries_field 1 _) <| carries_cons (carries_field 1 _) <| carries_cons reference <|
    carries_cons (carries_field 4 _) <| carries_cons (carries_field 1 _) restart

/-- The contents of a Read Boiler reply. -/
def State.boilerBytes (s : State) (b : Boiler) : List Byte :=
  let q := s.boilers[b]
  let window := (s.cfg.boilers[b]).elim 0 (·.window)
  flagByte (s.cfg.boilers[b]).isSome ++ optionalItem 26 (s.cfg.boilers[b]) BoilerConfig.bytes ++
    [q.state.code] ++ codeOrNone q.phase Phase.code ++ codeOrNone q.target Fuel.code ++ flagByte q.awaiting ++
    codeOrNone q.run Fuel.code ++ flagByte q.gasPermit ++ flagByte q.auxPermit ++
    s.remainingBytes q.purgeDue ++ s.remainingBytes q.lightOffDue ++ s.remainingBytes q.confirmDue ++
    s.remainingBytes q.deadDue ++
    countedList q.history (fun e => field 4 e.time ++ field 4 (e.second + window - s.osc)) ++
    codeOrNone q.cause TripCause.code ++ flagByte q.marker ++ flagByte (s.standingCause b) ++
    field 4 q.lastCloseTime ++ flagByte s.plantRelease

theorem State.standingCause_elim (b : Boiler) : s.standingCause b =
    (s.indicated (.boilerStatus b)).elim true fun i => i.tripDemand || !s.plantRelease := by
  unfold State.standingCause
  cases s.indicated (.boilerStatus b) <;> rfl

theorem carries_boiler (b : Boiler) : carries (s.boilerItems b) (s.boilerBytes b) = true := by
  have cause : carries [namedOrNone [TripCause.tripDemand, .flameLost, .statusLost, .releaseLost, .lightOffFailed,
      .valveNotClosed] (s.boilers[b]).cause] (codeOrNone (s.boilers[b]).cause TripCause.code) = true :=
    carries_codeOrNone _ fun a => by cases a <;> rfl
  simp only [State.boilerItems, List.cons_append, List.nil_append, List.append_assoc]
  simp only [State.boilerBytes, ← State.standingCause_elim, List.append_assoc]
  exact carries_cons (carries_flagByte _) <| carries_append (carries_optionalItem fun c _ => carries_boilerConfig c) <|
    carries_cons (carries_boilerState _) <| carries_cons (carries_phase _) <| carries_cons (carries_fuel _) <|
    carries_cons (carries_flagByte _) <| carries_cons (carries_fuel _) <| carries_cons (carries_flagByte _) <|
    carries_cons (carries_flagByte _) <| carries_append (carries_remaining _) <| carries_append (carries_remaining _) <|
    carries_append (carries_remaining _) <| carries_append (carries_remaining _) <|
    carries_append (carries_countedList fun e _ => carries_cons (carries_field 4 _) (carries_field 4 _)) <|
    carries_cons cause <| carries_cons (carries_flagByte _) <| carries_cons (carries_flagByte _) <|
    carries_cons (carries_field 4 _) (carries_flagByte _)

/-! ### Read Dispatch (R60) -/

theorem carries_boilerResult (b : BoilerResult) :
    carries [named boilerStates b.state, namedOrNone [Phase.dead, .takeover] b.phase, unsigned 4 (b.floor.getD 0 : Nat),
      unsigned 4 b.gas, unsigned 4 b.aux, unsigned 1 b.idle] b.bytes = true := by
  simp only [BoilerResult.bytes, List.append_assoc]
  exact carries_cons (carries_boilerState _) <| carries_cons (carries_phase _) <| carries_cons (carries_field 4 _) <|
    carries_cons (carries_field 4 _) <| carries_cons (carries_field 4 _) (carries_field 1 _)

theorem carries_map {α : Type} {item : α → Item} {byte : α → Byte} (h : ∀ a, carries [item a] [byte a] = true)
    (l : List α) : carries (l.map item) (l.map byte) = true := by
  rw [← List.flatMap_pure_eq_map item l, ← List.flatMap_pure_eq_map byte l]
  exact carries_flatMap l fun a _ => h a

theorem carries_mapField {α : Type} {item : α → Item} {bytes : α → List Byte} (h : ∀ a, carries [item a] (bytes a) = true)
    (l : List α) : carries (l.map item) (l.flatMap bytes) = true := by
  rw [← List.flatMap_pure_eq_map item l]
  exact carries_flatMap l fun a _ => h a

theorem carries_request (r : SentRequest) :
    carries (match r with
      | .nothing => [unsigned 1 0xFF, openByte, unsigned 1 0]
      | .one kind b =>
        [named [ShedKind.shedShortage, .shedSteam, .releaseAux, .returnGas] kind, numberItem b, unsigned 1 0]
      | .shedAll shed => [unsigned 1 0, unsigned 1 0, flagBits ((List.finRange 8).map fun b => decide (b ∈ shed))])
      r.bytes = true := by
  have anyByte (b : Byte) : carries [openByte] [b] = true := carries_one rfl nofun
  cases r with
  | nothing => exact carries_cons (x := [0xFF]) (by decide) (carries_cons (anyByte _) (carries_literal (n := 0) (by decide)))
  | one k b =>
    exact carries_cons (x := [k.code]) (carries_named (by cases k <;> rfl)) <| carries_cons (carries_numberByte b) <|
      carries_literal (n := 0) (by decide)
  | shedAll l =>
    exact carries_cons (x := [0]) (by decide) <| carries_cons (x := [0]) (by decide) <|
      carries_flagsByte _ (by rw [List.length_map, List.length_finRange])

end Sys2Proof.Machine
end

section
/-! SUPPORT. What the longer replies carry: the dispatch result, the curtailment table, a substation, the Condition Table
(R60, R102, R132, R161); with O25. -/

namespace Sys2Proof.Machine

variable {s : State}

/-! ### Read Dispatch (R60) -/

theorem carries_marks (g : GasFigures) :
    carries [flagBits [g.cvDefault, g.drawFallback, decide (g.level = none), g.highHigh, g.lowLow,
      decide (g.inForce = .reduced)]] [g.marks] = true := by
  have level : decide (g.level = none) = g.level.isNone := by cases g.level <;> rfl
  rw [level]
  exact carries_flagsByte _ (by simp)

theorem carries_gasFigures (g : GasFigures) :
    carries (g.energies.toList.map (fun (e : Nat) => unsigned 4 e) ++
      g.standings.toList.map (named [SourceStanding.counted, .unmeasured, .outOfService, .notDefined]) ++
      [unsigned 4 g.sourceEnergy, unsigned 2 g.networkCv, unsigned 4 g.draw, signed 4 g.surplus,
        unsigned 4 (g.level.getD 0 : Nat), named [HolderPosition.above, .below, .inBand, .levelFailed] g.position,
        signed 4 g.correction, flagBits [g.cvDefault, g.drawFallback, decide (g.level = none), g.highHigh, g.lowLow,
          decide (g.inForce = .reduced)]]) g.bytes = true := by
  have standing (x : SourceStanding) :
      carries [named [SourceStanding.counted, .unmeasured, .outOfService, .notDefined] x] [x.code] = true :=
    carries_named (by cases x <;> rfl)
  have position : carries [named [HolderPosition.above, .below, .inBand, .levelFailed] g.position] [g.position.code] = true :=
    carries_named (by cases g.position <;> rfl)
  simp only [GasFigures.bytes, List.append_assoc]
  exact carries_append (carries_mapField (carries_field 4) _) <| carries_append (carries_map standing _) <|
    carries_cons (carries_field 4 _) <| carries_cons (carries_field 2 _) <| carries_cons (carries_field 4 _) <|
    carries_cons (carries_signedField 4 _) <| carries_cons (carries_field 4 _) <| carries_cons position <|
    carries_cons (carries_signedField 4 _) (carries_marks g)

theorem carries_early (e : EarlyFigures) :
    carries [unsigned 4 e.available, unsigned 4 e.demand, unsigned 4 e.usable, unsigned 4 e.effLimit,
      unsigned 4 e.turbineLimit, unsigned 4 e.headroom, unsigned 4 e.committed, unsigned 4 e.gasFloors] e.bytes = true := by
  simp only [EarlyFigures.bytes, List.append_assoc]
  exact carries_cons (carries_field 4 _) <| carries_cons (carries_field 4 _) <| carries_cons (carries_field 4 _) <|
    carries_cons (carries_field 4 _) <| carries_cons (carries_field 4 _) <| carries_cons (carries_field 4 _) <|
    carries_cons (carries_field 4 _) (carries_field 4 _)

theorem carries_raised (r : RaiseFigures) :
    carries [unsigned 4 r.remainingGas, unsigned 4 r.remainingHeadroom, unsigned 4 r.leftover, unsigned 4 r.gasSteam,
      unsigned 4 r.auxFloorSteam, unsigned 4 r.shortfall, unsigned 4 r.auxSteam] r.bytes = true := by
  simp only [RaiseFigures.bytes, List.append_assoc]
  exact carries_cons (carries_field 4 _) <| carries_cons (carries_field 4 _) <| carries_cons (carries_field 4 _) <|
    carries_cons (carries_field 4 _) <| carries_cons (carries_field 4 _) <| carries_cons (carries_field 4 _)
    (carries_field 4 _)

theorem carries_heat (h : HeatFigures) :
    carries [unsigned 4 h.delivered, unsigned 4 h.recovered, unsigned 4 h.auxiliary, unsigned 4 h.turbine,
      unsigned 4 h.power, signed 4 h.exported, unsigned 2 h.fraction] h.bytes = true := by
  simp only [HeatFigures.bytes, List.append_assoc]
  exact carries_cons (carries_field 4 _) <| carries_cons (carries_field 4 _) <| carries_cons (carries_field 4 _) <|
    carries_cons (carries_field 4 _) <| carries_cons (carries_field 4 _) <| carries_cons (carries_signedField 4 _)
    (carries_field 2 _)

/-- The record of 12.4. -/
theorem carries_result (r : DispatchResult) : carries r.items r.bytes = true := by
  have head := carries_cons (carries_wordBytes r.cycle) <| carries_cons (carries_field 4 r.time) <|
    carries_cons (carries_field 1 r.span) (carries_field 1 r.period)
  have flags : carries [flagBits [r.flags.shortage, r.flags.steamOver, r.flags.holderFailed, r.flags.turbineUnavailable,
      r.flags.heatShort]] [r.flags.byte] = true := carries_flagsByte _ (by simp)
  have boilers := carries_flatMap r.boilers.toList fun b _ => carries_boilerResult b
  have tail := carries_cons (carries_field 1 r.flareDemand) <| carries_cons (carries_field 1 r.flareStages) <|
    carries_append boilers (carries_cons flags (carries_request r.request))
  have all := carries_append head <| carries_append (carries_gasFigures r.figures) <| carries_append (carries_early r.early) <|
    carries_append (carries_raised r.raised) <| carries_append (carries_heat r.heat) tail
  simp only [List.append_assoc, List.cons_append, List.nil_append] at all
  simp only [DispatchResult.items, DispatchResult.bytes, List.append_assoc, List.cons_append, List.nil_append]
  exact all

theorem carries_allocation (a : Allocation) :
    carries [unsigned 4 a.gas, unsigned 4 a.aux, unsigned 1 a.idle] a.bytes = true := by
  simp only [Allocation.bytes, List.append_assoc]
  exact carries_cons (carries_field 4 _) (carries_cons (carries_field 4 _) (carries_field 1 _))

theorem carries_plant (p : PlantParameters) :
    carries [unsigned 1 p.period, unsigned 1 p.idleLimit, unsigned 2 p.conversion, unsigned 4 p.turbineMax,
      unsigned 4 p.ownUse, unsigned 4 p.exchanger, unsigned 4 p.loss, unsigned 4 p.stageSize] p.bytes = true := by
  simp only [PlantParameters.bytes, List.append_assoc]
  exact carries_cons (carries_field 1 _) <| carries_cons (carries_field 1 _) <| carries_cons (carries_field 2 _) <|
    carries_cons (carries_field 4 _) <| carries_cons (carries_field 4 _) <| carries_cons (carries_field 4 _) <|
    carries_cons (carries_field 4 _) (carries_field 4 _)

theorem carries_dispatch : carries s.dispatchItems (readDispatchOwner s).1.contents = true := by
  simp only [State.dispatchItems, List.cons_append, List.nil_append, List.append_assoc]
  simp only [readDispatchOwner, okWith, List.append_assoc]
  exact carries_append (carries_optionalItem fun r _ => carries_result r) <| carries_cons (carries_wordBytes _) <|
    carries_cons (carries_field 4 _) <| carries_append (carries_flatMap _ fun a _ => carries_allocation a) <|
    carries_cons (carries_field 1 _) <| carries_cons (carries_field 2 _) <|
    carries_append (carries_countedList fun b _ => carries_numberByte b) (carries_plant _)

/-! ### Read Curtailments (R102) -/

theorem carries_order (o : CurtailmentOrder) :
    carries [unsigned 4 o.reference, named [OrderKind.ordinary, .emergency] o.kind, unsigned 4 o.limit, unsigned 4 o.start,
      unsigned 4 (o.finish.getD 0xFFFFFFFF : Nat), named [OrderState.pending, .active, .suspended, .waiting] o.state]
      o.bytes = true := by
  have kind : carries [named [OrderKind.ordinary, .emergency] o.kind] [o.kind.code] = true :=
    carries_named (by cases o.kind <;> rfl)
  have state : carries [named [OrderState.pending, .active, .suspended, .waiting] o.state] [o.state.code] = true :=
    carries_named (by cases o.state <;> rfl)
  simp only [CurtailmentOrder.bytes, List.append_assoc]
  exact carries_cons (carries_field 4 _) <| carries_cons kind <| carries_cons (carries_field 4 _) <|
    carries_cons (carries_field 4 _) <| carries_cons (carries_field 4 _) state

/-- The slot of the order in force, as a search of the slots. -/
theorem State.activeSlot_eq : s.activeSlot =
    (List.finRange 8).find? fun n => (s.que.orders[n]).any fun o => decide (o.state = .active) := by
  have search (l : List CurtailmentSlot) :
      ((l.filterMap fun n => (s.que.orders[n]).map fun o => (n, o)).find? fun x => decide (x.2.state = .active)).map (·.1) =
        l.find? fun n => (s.que.orders[n]).any fun o => decide (o.state = .active) := by
    induction l with
    | nil => rfl
    | cons n l ih =>
      rw [List.filterMap_cons, List.find?_cons]
      cases s.que.orders[n] with
      | none => exact ih
      | some o =>
        simp only [Option.map_some, Option.any_some, List.find?_cons]
        cases decide (o.state = .active) with
        | true => rfl
        | false => exact ih
  exact search _

theorem carries_curtailments : carries s.curtailmentItems (readCurtailmentsOwner s).1.contents = true := by
  simp only [State.curtailmentItems, ← State.activeSlot_eq, List.cons_append, List.nil_append]
  simp only [readCurtailmentsOwner, okWith, List.append_assoc]
  exact carries_cons (carries_field 4 _) <| carries_cons (carries_field 4 _) <| carries_cons (carries_flagByte _) <|
    carries_append (carries_flatMap _ fun slot _ => carries_optionalItem fun o _ => carries_order o) <|
    carries_optionalItem fun n _ => carries_numberByte n

/-! ### Read Substation (R132) -/

theorem carries_substationConfig (c : SubstationConfig) :
    carries [unsigned 4 c.account, numberItem c.group, numberItem c.staged, unsigned 4 c.maxRate, unsigned 4 c.estimateRate]
      c.bytes = true := by
  simp only [SubstationConfig.bytes, List.append_assoc]
  exact carries_cons (carries_field 4 _) <| carries_cons (carries_numberByte _) <| carries_cons (carries_numberByte _) <|
    carries_cons (carries_field 4 _) (carries_field 4 _)

theorem carries_mark (m : MeterMark) : carries [unsigned 4 m.reading, unsigned 4 m.time] m.bytes = true :=
  carries_cons (carries_field 4 m.reading) (carries_field 4 m.time)

theorem readingGap_cast (later : Nat) {earlier : Nat} (h : earlier < Config.meterModulus) :
    ((readingGap later earlier : Nat) : Int) = ((later : Int) - earlier) % 100000000 := by
  unfold readingGap Config.meterModulus
  unfold Config.meterModulus at h
  omega

/-- The Δ of R126, against a reference that a meter can show. -/
theorem SubstationAccount.disputed_eq {m : SubstationAccount} (fits : ReadingFits (m.reference.map (·.reading)))
    (x : MeterMark) : ((m.disputed x : Nat) : Int) =
      m.reference.elim 0 fun ref => ((x.reading : Int) - ref.reading) % 100000000 := by
  unfold SubstationAccount.disputed
  cases h : m.reference with
  | none => rw [Option.elim_none, Option.elim_none, Nat.cast_zero]
  | some ref => rw [Option.elim_some, Option.elim_some, readingGap_cast _ (fits ref.reading (by rw [h]; rfl))]

theorem State.heatTerm_eq (k : Substation) : s.heatTerm k =
    if (s.acc.meters[k]).state = .inService then s.hmu.lastRates[k]
    else if (s.acc.meters[k]).state = .estimating then (s.cfg.substations[k]).elim 0 (·.estimateRate)
    else 0 := by
  unfold State.heatTerm
  cases (s.acc.meters[k]).state <;> rfl

/-- The contents of a Read Substation reply. -/
def State.substationBytes (s : State) (k : Substation) : List Byte :=
  let m := s.acc.meters[k]
  let l := s.acc.ledgers[k]
  flagByte (s.cfg.substations[k]).isSome ++
    optionalItem 14 (s.cfg.substations[k]) SubstationConfig.bytes ++ [m.state.code] ++
    optionalItem 8 m.reference MeterMark.bytes ++
    flagByte m.pendingMark.isSome ++ optionalItem 12 m.pendingMark (fun mark => mark.bytes ++ field 4 (m.disputed mark)) ++
    flagByte m.reconciliation ++ field 4 m.gapTotal ++ field 4 m.remainder ++ field 4 s.hmu.lastRates[k] ++
    field 4 s.heatDemand ++
    l.current.bytes ++ optionalItem 129 l.closing AccumulatorSet.bytes ++
    leBytes 8 l.booked.toNat ++ leBytes 8 l.issued.toNat

theorem carries_substation {k : Substation} (fits : ReadingFits ((s.acc.meters[k]).reference.map (·.reading))) :
    carries (s.substationItems k) (s.substationBytes k) = true := by
  have state : carries [named [SubstationState.fresh, .inService, .estimating, .disconnected] (s.acc.meters[k]).state]
      [(s.acc.meters[k]).state.code] = true := carries_named (by cases (s.acc.meters[k]).state <;> rfl)
  simp only [State.substationItems, ← State.heatTerm_eq, ← SubstationAccount.disputed_eq fits, List.cons_append,
    List.nil_append, List.append_assoc]
  simp only [State.substationBytes, List.append_assoc]
  exact carries_cons (carries_flagByte _) <| carries_append (carries_optionalItem fun c _ => carries_substationConfig c) <|
    carries_cons state <| carries_append (carries_optionalItem fun m _ => carries_mark m) <|
    carries_cons (carries_flagByte _) <|
    carries_append (carries_optionalItem fun x _ => carries_append (carries_mark x) (carries_field 4 _)) <|
    carries_cons (carries_flagByte _) <| carries_cons (carries_field 4 _) <| carries_cons (carries_field 4 _) <|
    carries_cons (carries_field 4 _) <| carries_cons (carries_field 4 _) <| carries_append (carries_setBytes _) <|
    carries_append (carries_optionalItem fun x _ => carries_setBytes x) <|
    carries_cons (carries_toInt _) (carries_toInt _)

/-! ### Read Conditions (R161) -/

/-- The places with their entries, from a place on. -/
theorem State.occupiedFrom_eq (first : Fin 128) : s.occupiedFrom first.val =
    ((List.finRange 128).filterMap fun i => (s.conditions[i]).map fun e => (i, e)).filter
      fun x => decide (first ≤ x.1) := by
  rw [List.filter_filterMap]
  refine List.filterMap_congr fun i _ => ?_
  cases s.conditions[i] with
  | none => simp
  | some e =>
    by_cases after : first ≤ i
    · simp [after, Option.filter]
    · simp [after, Option.filter]

theorem State.entries_eq : s.entries =
    ((List.finRange 128).filterMap fun i => (s.conditions[i]).map fun e => (i, e)).map (·.2) := by
  have list : s.conditions.toList = (List.finRange 128).map fun i => s.conditions[i] := by
    apply List.ext_getElem <;> simp
  rw [State.entries, list, List.filterMap_map, List.map_filterMap]
  refine List.filterMap_congr fun i _ => ?_
  cases h : s.conditions[i] <;> simp_all

/-- The contents of a Read Conditions reply. -/
def State.conditionBytes (s : State) (first : Fin 128) : List Byte :=
  let places := s.occupiedFrom first.val
  field 1 s.entries.length ++ field 1 s.waitingEntries.length ++ flagByte s.alert ++ flagByte s.faultLine ++
    field 4 s.cfg.faultMask.toNat ++
    [s.cfg.latchModes.highHigh.code, s.cfg.latchModes.lowLow.code, s.cfg.latchModes.pointFailed.code] ++
    countedList (places.take 16) (fun x => numberByte x.1 ++ x.2.bytes) ++
    optionalItem 1 (places.drop 16).head? (fun x => numberByte x.1)

theorem carries_conditions (first : Fin 128) : carries (s.conditionItems first) (s.conditionBytes first) = true := by
  have number (c : ConditionClass) : c.number - 1 = classOrder.idxOf c := by cases c <;> rfl
  generalize places : ((List.finRange 128).filterMap fun i => (s.conditions[i]).map fun e => (i, e)) = occupied
  have entries : s.entries = occupied.map (·.2) := by rw [← places]; exact State.entries_eq
  have after : s.occupiedFrom first.val = occupied.filter fun x => decide (first ≤ x.1) := by
    rw [← places]; exact State.occupiedFrom_eq first
  have count : s.waitingEntries.length = occupied.countP fun x => !x.2.notified := by
    rw [State.waitingEntries, entries, ← List.countP_eq_length_filter, List.countP_map]; rfl
  have alert : s.alert = decide ((occupied.countP fun x => !x.2.notified) ≠ 0) := by
    rw [← count, State.alert]
    cases s.waitingEntries <;> simp
  have fault : s.faultLine = !occupied.any fun x => decide (x.2.state = .active) &&
      s.cfg.faultMask.getLsbD (classOrder.idxOf x.2.key.cls) := by
    rw [State.faultLine, entries, List.any_map]
    simp only [ConfigRegion.faultEnabled, number, Function.comp_def]
  simp only [State.conditionItems, places, List.cons_append, List.nil_append]
  rw [← fault, ← alert, ← after]
  simp only [State.conditionBytes, entries, List.length_map, count, List.append_assoc]
  exact carries_cons (carries_field 1 _) <| carries_cons (carries_field 1 _) <| carries_cons (carries_flagByte _) <|
    carries_cons (carries_flagByte _) <| carries_cons (carries_field 4 _) <|
    carries_cons (x := [_]) (carries_latchMode _) <| carries_cons (x := [_]) (carries_latchMode _) <|
    carries_cons (x := [_]) (carries_latchMode _) <|
    carries_append (carries_countedList fun x _ => carries_cons (carries_numberByte x.1) (carries_entryBytes x.2)) <|
    carries_optionalItem fun x _ => carries_numberByte x.1

end Sys2Proof.Machine
end

section
/-! SUPPORT. What Read Time and Read Nominations carry (R94, R173), and the requests that read, one and all; with O25. -/

namespace Sys2Proof.Machine

variable {s : State}

/-! ### Read Time (R173) -/

theorem carries_time {d : Date} (last : s.clock.reading ≤ 4291747199) (west : -720 ≤ s.clock.offset)
    (east : s.clock.offset ≤ 840) (day : s.LocalDate d) :
    carries (s.timeItems d) (readTimeOwner s).1.contents = true := by
  obtain ⟨proper, number⟩ := day
  have date : d = localDate s.clock.localTime :=
    eq_localDate (by unfold Clock.localTime; omega) (by unfold Clock.localTime; omega) proper number
  have valid : carries [named [true, false] s.clock.valid] [if s.clock.valid then 0 else 1] = true :=
    carries_byte (by cases s.clock.valid <;> rfl)
  have second : (secondOfDay s.clock.localTime : Int) = s.clock.localTime % 86400 :=
    Int.toNat_of_nonneg (Int.emod_nonneg _ (by decide))
  have type : carries [named [DayType.workday, .rest] (if s.cfg.Rests s.clock.localTime d then .rest else .workday)]
      [(s.cfg.dayType s.clock.localTime).code] = true := by
    have same : (if s.cfg.Rests s.clock.localTime d then DayType.rest else .workday) =
        s.cfg.dayType s.clock.localTime := by
      rw [date, ConfigRegion.dayType]
      exact if_congr (by simp [ConfigRegion.Rests, weekdayOf, weekday, localDay]) rfl rfl
    rw [same]
    exact carries_named (by cases s.cfg.dayType s.clock.localTime <;> rfl)
  have hour : carries [unsigned 1 (s.clock.localTime % 86400 / 3600)] (field 1 (localHour s.clock.localTime)) = true :=
    carries_fieldOf 1 (by rw [← second]; rfl)
  have minute : carries [unsigned 1 (s.clock.localTime % 86400 / 60 % 60)]
      (field 1 (secondOfDay s.clock.localTime / 60 % 60)) = true := carries_fieldOf 1 (by rw [← second]; rfl)
  have rest : carries [unsigned 1 (s.clock.localTime % 86400 % 60)] (field 1 (secondOfDay s.clock.localTime % 60)) = true :=
    carries_fieldOf 1 (by rw [← second]; rfl)
  rw [readTimeOwner, ← date]
  simp only [okWith, List.append_assoc]
  exact carries_cons (carries_field 4 _) <| carries_cons valid <| carries_cons (carries_signedField 2 _) <|
    carries_cons (carries_field 2 _) <| carries_cons (carries_field 1 _) <| carries_cons (carries_field 1 _) <|
    carries_cons hour <| carries_cons minute <| carries_cons rest <| carries_cons (carries_field 1 _) type

/-! ### The settlement grid (R89) -/

section Grid

variable {length : Nat} {offset : Int}

/-- Two boundaries lie a whole number of lengths apart. -/
theorem OnGrid.iff_add {x t : Int} (h : OnGrid length offset x) : OnGrid length offset t ↔ (length : Int) ∣ t - x := by
  have apart : t - x = (t + 60 * offset) - (x + 60 * offset) := by ring
  rw [OnGrid, ← Int.dvd_iff_emod_eq_zero, apart]
  exact ⟨fun k => Int.dvd_sub k (Int.dvd_of_emod_eq_zero h), fun k => (Int.dvd_iff_dvd_of_dvd_sub k).mpr (Int.dvd_of_emod_eq_zero h)⟩

end Grid

/-- The boundary at or before a second is a boundary, at most one length before it. -/
theorem State.boundaryAtOrBefore_spec (length : 0 < s.cfg.contract.length) (t : Int) :
    OnGrid s.cfg.intervalSeconds s.clock.offset (s.boundaryAtOrBefore t) ∧ s.boundaryAtOrBefore t ≤ t ∧
      t < s.boundaryAtOrBefore t + s.cfg.intervalSeconds := by
  have positive : (0 : Int) < s.cfg.intervalSeconds := by unfold ConfigRegion.intervalSeconds; omega
  have low := Int.emod_nonneg (t + 60 * s.clock.offset) (ne_of_gt positive)
  have high := Int.emod_lt_of_pos (t + 60 * s.clock.offset) positive
  unfold State.boundaryAtOrBefore
  refine ⟨?_, by omega, by omega⟩
  have apart : t - (t + 60 * s.clock.offset) % s.cfg.intervalSeconds + 60 * s.clock.offset =
      (t + 60 * s.clock.offset) - (t + 60 * s.clock.offset) % s.cfg.intervalSeconds := by ring
  rw [OnGrid, apart]
  exact Int.emod_eq_zero_of_dvd Int.dvd_self_sub_emod

/-! ### The missing intervals (R93) -/

theorem State.mem_gatedStarts (length : 0 < s.cfg.contract.length)
    (grid : OnGrid s.cfg.intervalSeconds s.clock.offset s.esu.intervalEnd) (t : Int) : t ∈ s.gatedStarts ↔
      t - 60 * s.cfg.contract.lead ≤ s.clock.reading ∧ OnGrid s.cfg.intervalSeconds s.clock.offset t ∧
        s.esu.intervalEnd ≤ t := by
  have positive : (0 : Int) < s.cfg.intervalSeconds := by unfold ConfigRegion.intervalSeconds; omega
  have lead : ((s.leadSeconds : Nat) : Int) = 60 * s.cfg.contract.lead := by unfold State.leadSeconds; omega
  rw [grid.iff_add]
  unfold State.gatedStarts
  dsimp only
  rw [lead]
  generalize (s.cfg.intervalSeconds : Int) = l at *
  split
  next reached =>
    rw [List.mem_map]
    constructor
    · rintro ⟨k, mem, rfl⟩
      have small : (k : Int) ≤ (s.clock.reading + 60 * s.cfg.contract.lead - s.esu.intervalEnd) / l := by
        have := List.mem_range.mp mem; omega
      have covered := (Int.le_ediv_iff_mul_le positive).mp small
      have nonneg : 0 ≤ (k : Int) * l := Int.mul_nonneg (by omega) (by omega)
      exact ⟨by omega, ⟨k, by ring⟩, by omega⟩
    · rintro ⟨gate, ⟨k, apart⟩, later⟩
      have nonneg : 0 ≤ k := by
        by_contra neg
        have : l * k < 0 := Int.mul_neg_of_pos_of_neg positive (by omega)
        omega
      have small : k ≤ (s.clock.reading + 60 * s.cfg.contract.lead - s.esu.intervalEnd) / l :=
        (Int.le_ediv_iff_mul_le positive).mpr (by rw [Int.mul_comm]; omega)
      exact ⟨k.toNat, List.mem_range.mpr (by omega), by rw [Int.toNat_of_nonneg nonneg, Int.mul_comm]; omega⟩
  next ahead => exact iff_of_false (List.not_mem_nil) (by rintro ⟨gate, -, later⟩; omega)

theorem State.gatedStarts_pairwise (length : 0 < s.cfg.contract.length) : s.gatedStarts.Pairwise (· < ·) := by
  have positive : (0 : Int) < s.cfg.intervalSeconds := by unfold ConfigRegion.intervalSeconds; omega
  unfold State.gatedStarts
  dsimp only
  split
  · refine List.pairwise_lt_range.map _ fun a b less => ?_
    have : (a : Int) * s.cfg.intervalSeconds < b * s.cfg.intervalSeconds :=
      Int.mul_lt_mul_of_pos_right (by exact_mod_cast less) positive
    omega
  · exact List.Pairwise.nil

theorem State.missingStarts_eq {iv : OpenInterval} (opened : s.que.interval = some iv)
    (length : 0 < s.cfg.contract.length) (grid : OnGrid s.cfg.intervalSeconds s.clock.offset s.esu.intervalEnd)
    (before : iv.start < s.esu.intervalEnd) {missing : List Int} (rising : missing.Pairwise (· < ·))
    (mem : ∀ t, t ∈ missing ↔ s.Missing iv t) : s.missingStarts = missing := by
  have lead : ((s.leadSeconds : Nat) : Int) = 60 * s.cfg.contract.lead := by unfold State.leadSeconds; omega
  have gated := State.mem_gatedStarts length grid
  have nominated (t : Int) : (!s.nominated t) = true ↔ ∀ n ∈ s.que.nominations, (n.start : Int) ≠ t := by
    simp [State.nominated]
  unfold State.missingStarts
  rw [opened]
  refine List.Pairwise.eq_of_mem_iff (r := (· < ·)) ?_ rising fun t => ?_
  · refine List.pairwise_append.mpr ⟨?_, (State.gatedStarts_pairwise length).filter _, fun a ha b hb => ?_⟩
    · split
      · exact List.pairwise_singleton _ _
      · exact List.Pairwise.nil
    · have later := ((gated b).mp (List.mem_filter.mp hb).1).2.2
      split at ha
      · rw [List.mem_singleton] at ha; omega
      · cases ha
  · rw [mem, State.Missing, List.mem_append, List.mem_filter, gated, nominated]
    split
    next now => rw [List.mem_singleton]; rw [lead] at now; grind
    next not => rw [lead] at not; simp only [List.not_mem_nil, false_or]; grind

/-! ### The next gate (R93) -/

theorem State.nextGated_eq {iv : OpenInterval} (valid : s.clock.valid = true) (opened : s.que.interval = some iv)
    (length : 0 < s.cfg.contract.length) (grid : OnGrid s.cfg.intervalSeconds s.clock.offset s.esu.intervalEnd)
    {t : Int} (next : s.NextGate t) : s.nextGated = some t := by
  have lead : ((s.leadSeconds : Nat) : Int) = 60 * s.cfg.contract.lead := by unfold State.leadSeconds; omega
  obtain ⟨boundary, low, high⟩ := s.boundaryAtOrBefore_spec length (s.clock.reading + s.leadSeconds)
  have after : s.boundaryAfter (s.clock.reading + s.leadSeconds) =
      s.boundaryAtOrBefore (s.clock.reading + s.leadSeconds) + s.cfg.intervalSeconds := rfl
  have first (u : Int) (onGrid : OnGrid s.cfg.intervalSeconds s.clock.offset u)
      (ahead : s.clock.reading + s.leadSeconds < u) : s.boundaryAfter (s.clock.reading + s.leadSeconds) ≤ u := by
    have := Int.le_of_dvd (by omega) (boundary.iff_add.mp onGrid)
    omega
  have afterGrid : OnGrid s.cfg.intervalSeconds s.clock.offset (s.boundaryAfter (s.clock.reading + s.leadSeconds)) := by
    rw [boundary.iff_add, after, add_sub_cancel_left]
  obtain ⟨⟨onGrid, later, ahead⟩, least⟩ := next
  have upper : t ≤ max s.esu.intervalEnd (s.boundaryAfter (s.clock.reading + s.leadSeconds)) := by
    refine least _ ⟨?_, by omega, by omega⟩
    obtain e | e := max_choice s.esu.intervalEnd (s.boundaryAfter (s.clock.reading + s.leadSeconds)) <;> rw [e]
    · exact grid
    · exact afterGrid
  have lower := first t onGrid (by omega)
  rw [State.nextGated, if_pos ⟨valid, by rw [opened]; rfl⟩]
  exact congrArg some (by omega)

theorem State.nextGated_none (h : s.clock.valid = false ∨ s.que.interval = none) : s.nextGated = none := by
  rw [State.nextGated, if_neg]
  obtain h | h := h <;> simp [h]

theorem carries_nominations :
    carries (s.nominationItems s.nextGated s.missingStarts) (readNominationsOwner s).1.contents = true := by
  have lead : ((s.leadSeconds : Nat) : Int) = 60 * s.cfg.contract.lead := by unfold State.leadSeconds; omega
  have gate (t : Int) : carries [unsigned 4 (t - 60 * s.cfg.contract.lead), unsigned 4 t]
      (timeField 4 (t - s.leadSeconds) ++ timeField 4 t) = true := by
    rw [← lead]
    exact carries_cons (carries_timeField 4 _) (carries_timeField 4 t)
  simp only [State.nominationItems, List.cons_append, List.nil_append, List.append_assoc]
  simp only [readNominationsOwner, okWith, List.append_assoc]
  exact carries_cons (carries_field 4 _) <| carries_cons (carries_field 1 _) <| carries_cons (carries_field 1 _) <|
    carries_cons (carries_flagByte _) <|
    carries_append (carries_optionalItem fun iv _ => carries_cons (carries_timeField 4 _) (carries_timeField 4 _)) <|
    carries_append (carries_optionalItem fun e _ => carries_field 4 e) <|
    carries_append (carries_countedList fun n _ => carries_cons (carries_field 4 _) (carries_field 4 _)) <|
    carries_append (carries_optionalItem fun t _ => gate t) <| carries_cons (carries_field 1 _) <|
    carries_optionalItem fun t _ => carries_timeField 4 t

/-! ### The requests that read -/

section Reads

variable {i : Instr} {f : State → Served} {v : Byte}

/-- A request whose owner reads changes nothing but the answer. -/
theorem exec_read {a : Answer} (owned : owner i = some f) (work : s.working = true) (h : f s = (a, s)) :
    exec i s = .next (s.answered a) := by
  rw [exec_of_owner owned]
  exact serveRequest_answer work h rfl rfl

theorem State.gives_of {items : List Item} {bytes : List Byte} (owned : owner i = some f) (work : s.working = true)
    (h : f s = (okWith bytes, s)) (carried : carries items bytes = true) : s.Gives i items :=
  ⟨bytes, exec_read owned work h, carried⟩

theorem readChannelOwner_eq {ch : ChannelNo} (number : v.toNat = ch.val + 1) :
    readChannelOwner v s = (okWith (s.channelBytes ch), s) := by
  simp only [readChannelOwner, numbered_eq_some.mpr number]; rfl

theorem readPointOwner_eq {p : PointNo} (number : v.toNat = p.val + 1) :
    readPointOwner v s = (okWith (s.pointBytes p), s) := by
  simp only [readPointOwner, numbered_eq_some.mpr number]; rfl

theorem readBoilerOwner_eq {b : Boiler} (number : v.toNat = b.val + 1) :
    readBoilerOwner v s = (okWith (s.boilerBytes b), s) := by
  simp only [readBoilerOwner, forBoiler, numbered_eq_some.mpr number]; rfl

theorem readSubstationOwner_eq {k : Substation} (number : v.toNat = k.val + 1) :
    readSubstationOwner v s = (okWith (s.substationBytes k), s) := by
  simp only [readSubstationOwner, numbered_eq_some.mpr number]; rfl

theorem readConditionsOwner_eq {p : Fin 128} (number : v.toNat = p.val + 1) :
    readConditionsOwner v s = (okWith (s.conditionBytes p), s) := by
  simp only [readConditionsOwner, numbered_eq_some.mpr number]; rfl

/-- A number of the manual's numbering has its index. -/
theorem exists_index {n : Nat} (h : 1 ≤ v.toNat ∧ v.toNat ≤ n) : ∃ i : Fin n, v.toNat = i.val + 1 :=
  ⟨⟨v.toNat - 1, by omega⟩, by dsimp only; omega⟩

/-- Every request that reads has contents, and leaves the state. -/
theorem owner_of_canRead (h : s.canRead i = true) : ∃ f bytes, owner i = some f ∧ f s = (okWith bytes, s) := by
  cases i with
  | identify | readTime | readDispatch | readNominations | readCurtailments => exact ⟨_, _, rfl, rfl⟩
  | readChannel n => obtain ⟨ch, e⟩ := exists_index (of_decide_eq_true h); exact ⟨_, _, rfl, readChannelOwner_eq e⟩
  | readPoint n => obtain ⟨p, e⟩ := exists_index (of_decide_eq_true h); exact ⟨_, _, rfl, readPointOwner_eq e⟩
  | readConditions n => obtain ⟨p, e⟩ := exists_index (of_decide_eq_true h); exact ⟨_, _, rfl, readConditionsOwner_eq e⟩
  | readBoiler n => obtain ⟨b, e⟩ := exists_index (of_decide_eq_true h); exact ⟨_, _, rfl, readBoilerOwner_eq e⟩
  | readSubstation n => obtain ⟨k, e⟩ := exists_index (of_decide_eq_true h); exact ⟨_, _, rfl, readSubstationOwner_eq e⟩
  | fetchSettlementRecord =>
    obtain ⟨r, rest, e⟩ := List.exists_cons_of_ne_nil (l := s.que.settlements) fun e => by simp [State.canRead, e] at h
    exact ⟨_, r.bytes, rfl, by simp only [fetchSettlementOwner, e]⟩
  | fetchBill =>
    obtain ⟨b, rest, e⟩ := List.exists_cons_of_ne_nil (l := s.que.bills) fun e => by simp [State.canRead, e] at h
    exact ⟨_, b.bytes, rfl, by simp only [fetchBillOwner, e]⟩
  | _ => cases h

/-- A number out of range is refused. -/
theorem exec_unknown {n : Nat} (owned : owner i = some f) (work : s.working = true) (out : v = 0 ∨ n < v.toNat)
    (h : numbered n v = none → f s = refuse s .badField) : exec i s = .next (s.refusedWith .badField) :=
  exec_refuse owned work (h (numbered_eq_none.mpr (out.imp (fun e => by rw [e]; rfl) id)))

end Reads

/-- Settles O25: each reply by what its contents carry, each number out of range by the refusal. -/
theorem readsChangeNothing : Obligations.ReadsChangeNothing := by
  refine ⟨fun s i work reads => ?_, fun s work => ⟨?_, fun d last west east day => ?_, ?_, ?_, fun shut => ?_,
    fun iv opened length grid before missing rising mem => ⟨fun invalid => ?_, fun t valid next => ?_⟩,
    fun r rest e => ?_, fun b rest e => ?_⟩, fun s v work => ⟨fun ch e => ?_, fun p e => ?_, fun b e => ?_,
    fun k e fits => ?_, fun p e => ?_, fun out => ?_, fun out => ⟨?_, ?_⟩, fun out => ?_, fun out => ?_⟩⟩
  · obtain ⟨f, bytes, owned, h⟩ := owner_of_canRead reads
    exact ⟨bytes, exec_read owned work h⟩
  · exact State.gives_of rfl work rfl carries_identify
  · exact State.gives_of rfl work rfl (carries_time last west east day)
  · exact State.gives_of rfl work rfl carries_dispatch
  · exact State.gives_of rfl work rfl carries_curtailments
  · have carried := carries_nominations (s := s)
    rw [State.nextGated_none (.inr shut), show s.missingStarts = [] by rw [State.missingStarts, shut]] at carried
    exact State.gives_of rfl work rfl carried
  · have carried := carries_nominations (s := s)
    rw [State.nextGated_none (.inl invalid), State.missingStarts_eq opened length grid before rising mem] at carried
    exact State.gives_of rfl work rfl carried
  · have carried := carries_nominations (s := s)
    rw [State.nextGated_eq valid opened length grid next,
      State.missingStarts_eq opened length grid before rising mem] at carried
    exact State.gives_of rfl work rfl carried
  · exact State.gives_of rfl work (by simp only [fetchSettlementOwner, e]) (carries_settlementBytes r)
  · exact State.gives_of rfl work (by simp only [fetchBillOwner, e]) (carries_billBytes b)
  · exact State.gives_of rfl work (readChannelOwner_eq e) (carries_channel ch)
  · exact State.gives_of rfl work (readPointOwner_eq e) (carries_point p)
  · exact State.gives_of rfl work (readBoilerOwner_eq e) (carries_boiler b)
  · exact State.gives_of rfl work (readSubstationOwner_eq e) (carries_substation fits)
  · exact State.gives_of rfl work (readConditionsOwner_eq e) (carries_conditions p)
  · exact exec_unknown rfl work out fun absent => by simp only [readChannelOwner, absent]
  · exact exec_unknown rfl work out fun absent => by simp only [readPointOwner, absent]
  · exact exec_unknown rfl work out fun absent => by simp only [readConditionsOwner, absent]
  · exact exec_unknown rfl work out fun absent => by simp only [readBoilerOwner, forBoiler, absent]
  · exact exec_unknown rfl work out fun absent => by simp only [readSubstationOwner, absent]

end Sys2Proof.Machine
end

section
/-! SUPPORT. The passed starts and ends of a curtailment table that need not keep its law, taken one after another, and what
they touch of the QUEUES contents and the ESU besides the orders (R98, R99, R103 i, R105, R109); with O21. -/

namespace Sys2Proof.Machine

variable {s t u : State} {n m : CurtailmentSlot} {o a b : CurtailmentOrder}

/-- The order's end is not OPEN and is at or before `now`. -/
def CurtailmentOrder.Ended (o : CurtailmentOrder) (now : Nat) : Prop := ∃ e, o.finish = some e ∧ e ≤ now

/-! ### One taking -/

/-- The start or the end of the order `o` in slot `n`, the earliest of those passed, is taken between `s` and `t`, under a
VALID clock: what each slot of `t` holds comes from the same slot of `s` with at most its state changed. -/
structure TimeTaken (s t : State) (n : CurtailmentSlot) (o : CurtailmentOrder) : Prop where
  held : s.Holds n o
  passed : o.timePassed s.clock.reading
  earliest : ∀ m a, s.Holds m a → a.timePassed s.clock.reading → o.nextTime ≤ a.nextTime
  clock : t.clock = s.clock
  cfg : t.cfg = s.cfg
  source : ∀ m a, t.Holds m a → ∃ b, s.Holds m b ∧ a = { b with state := a.state } ∧
    (a.state = .pending → b.state = .pending) ∧ (m = n → a.state ≠ .pending ∧ b.state = .pending)
  ahead : ∀ m a, s.Holds m a → a.state = .pending → m ≠ n → t.Holds m a
  removed : ∀ m a, s.Holds m a → t.que.orders[m] = none → a.Ended s.clock.reading ∨ a.kind = .emergency
  ordinary : o.state = .pending → o.kind = .ordinary → ∀ m a, t.Holds m a ↔
    (m = n ∧ a = { o with state := if s.activeSlot = none then .active else .waiting }) ∨ m ≠ n ∧ s.Holds m a
  emergency : o.state = .pending → o.kind = .emergency → ∀ m a, t.Holds m a ↔
    (m = n ∧ a = { o with state := .active }) ∨ m ≠ n ∧ ∃ b, s.Holds m b ∧ b.setAside = some a

theorem State.holds_or_none (s : State) (m : CurtailmentSlot) : s.que.orders[m] = none ∨ ∃ a, s.Holds m a := by
  cases h : s.que.orders[m] with
  | none => exact .inl rfl
  | some a => exact .inr ⟨a, h⟩

theorem State.not_holds_of_none (h : s.que.orders[m] = none) : ¬ s.Holds m a := fun k => by
  rw [State.Holds, h] at k; cases k

theorem State.holds_setOrder_none : (s.setOrder n none).markQueues.Holds m a ↔ m ≠ n ∧ s.Holds m a := by
  have get : (s.setOrder n none).markQueues.que.orders[m] = if m = n then none else s.que.orders[m] := State.setOrder_get _
  unfold State.Holds
  rw [get]
  by_cases e : m = n <;> simp [e]

theorem State.emergencyStart_taken (h : s.Holds n o) (pending : o.state = .pending) (kind : o.kind = .emergency)
    (passed : o.timePassed s.clock.reading)
    (earliest : ∀ m a, s.Holds m a → a.timePassed s.clock.reading → o.nextTime ≤ a.nextTime) :
    TimeTaken s (s.emergencyStart n) n o := by
  have holds (m : CurtailmentSlot) (a : CurtailmentOrder) := State.holds_emergencyStart (m := m) (a := a) h pending
  refine ⟨h, passed, earliest, State.emergencyStart_clock.1, State.emergencyStart_clock.2, fun m a k => ?_,
    fun m a ha p ne => ?_, fun m a ha gone => ?_, fun _ k => absurd (kind.symm.trans k) (by decide), fun _ _ => holds⟩
  · obtain ⟨rfl, rfl⟩ | ⟨ne, b, hb, aside⟩ := (holds m a).mp k
    · exact ⟨o, h, rfl, nofun, fun _ => ⟨nofun, pending⟩⟩
    · refine ⟨b, hb, ?_⟩
      obtain ⟨-, -, rfl⟩ | ⟨-, rfl⟩ := CurtailmentOrder.setAside_eq_some.mp aside
      · exact ⟨rfl, nofun, fun e => absurd e ne⟩
      · exact ⟨rfl, id, fun e => absurd e ne⟩
  · exact (holds m a).mpr (.inr ⟨ne, a, ha, CurtailmentOrder.setAside_eq_some.mpr (.inr ⟨by rw [p]; decide, rfl⟩)⟩)
  · by_cases e : m = n
    · exact absurd ((holds m _).mpr (.inl ⟨e, rfl⟩)) (State.not_holds_of_none gone)
    · refine .inr ?_
      have lost (x : CurtailmentOrder) : a.setAside ≠ some x := fun k =>
        State.not_holds_of_none gone ((holds m x).mpr (.inr ⟨e, a, ha, k⟩))
      cases k : a.kind with
      | emergency => rfl
      | ordinary =>
        by_cases act : a.state = .active
        · exact absurd (CurtailmentOrder.setAside_eq_some.mpr (.inl ⟨act, k, rfl⟩)) (lost _)
        · exact absurd (CurtailmentOrder.setAside_eq_some.mpr (.inr ⟨act, rfl⟩)) (lost _)

theorem State.ordinaryStart_taken (h : s.Holds n o) (pending : o.state = .pending) (kind : o.kind = .ordinary)
    (passed : o.timePassed s.clock.reading)
    (earliest : ∀ m a, s.Holds m a → a.timePassed s.clock.reading → o.nextTime ≤ a.nextTime) :
    TimeTaken s (s.ordinaryStart n) n o := by
  have holds (m : CurtailmentSlot) (a : CurtailmentOrder) := State.holds_ordinaryStart (m := m) (a := a) h
  refine ⟨h, passed, earliest, State.ordinaryStart_clock.1, State.ordinaryStart_clock.2, fun m a k => ?_,
    fun m a ha p ne => (holds m a).mpr (.inr ⟨ne, ha⟩), fun m a ha gone => ?_, fun _ _ => holds,
    fun _ k => absurd (kind.symm.trans k) (by decide)⟩
  · obtain ⟨rfl, rfl⟩ | ⟨ne, ha⟩ := (holds m a).mp k
    · have started : (if s.activeSlot = none then OrderState.active else .waiting) ≠ .pending := by split <;> nofun
      exact ⟨o, h, rfl, fun e => absurd e started, fun _ => ⟨started, pending⟩⟩
    · exact ⟨a, ha, rfl, id, fun e => absurd e ne⟩
  · by_cases e : m = n
    · exact absurd ((holds m _).mpr (.inl ⟨e, rfl⟩)) (State.not_holds_of_none gone)
    · exact absurd ((holds m a).mpr (.inr ⟨e, ha⟩)) (State.not_holds_of_none gone)

/-- The end of an order that is not PENDING is passed when its finish is. -/
theorem CurtailmentOrder.ended_of_passed {now : Nat} (started : o.state ≠ .pending) (passed : o.timePassed now) :
    o.Ended now := by
  rw [CurtailmentOrder.timePassed, if_neg started] at passed
  exact passed

theorem State.removeActive_taken (valid : s.clock.valid = true) (h : s.Holds n o) (active : o.state = .active)
    (passed : o.timePassed s.clock.reading)
    (earliest : ∀ m a, s.Holds m a → a.timePassed s.clock.reading → o.nextTime ≤ a.nextTime) :
    TimeTaken s (s.removeActive n) n o := by
  have started : o.state ≠ .pending := by rw [active]; decide
  have cases := State.removeActive_cases (n := n) valid
  dsimp only at cases
  have source (m : CurtailmentSlot) (a : CurtailmentOrder) (k : (s.removeActive n).Holds m a) :
      m ≠ n ∧ ∃ b, s.Holds m b ∧ a = { b with state := a.state } ∧ (a.state = .pending → b.state = .pending) := by
    obtain ⟨i, x, ⟨ne, hx, -⟩, -, holds⟩ | ⟨-, holds⟩ := cases
    · obtain ⟨rfl, rfl⟩ | ⟨-, ne', ha, -⟩ := (holds m a).mp k
      · exact ⟨ne, x, hx, rfl, nofun⟩
      · exact ⟨ne', a, ha, rfl, id⟩
    · obtain ⟨ne', ha, -⟩ := (holds m a).mp k
      exact ⟨ne', a, ha, rfl, id⟩
  have stays (m : CurtailmentSlot) (a : CurtailmentOrder) (ne : m ≠ n) (ha : s.Holds m a)
      (fresh : a.state = .suspended ∨ a.state = .waiting → ∀ x ∈ a.finish, s.clock.reading < x) :
      (s.removeActive n).Holds m a ∨ (s.removeActive n).Holds m { a with state := .active } ∧
        (a.state = .suspended ∨ a.state = .waiting) := by
    obtain ⟨i, x, ⟨-, hx, -⟩, aside, holds⟩ | ⟨-, holds⟩ := cases
    · by_cases e : m = i
      · subst e
        cases ha.symm.trans hx
        exact .inr ⟨(holds m _).mpr (.inl ⟨rfl, rfl⟩), aside.imp id And.left⟩
      · exact .inl ((holds m a).mpr (.inr ⟨e, ne, ha, fresh⟩))
    · exact .inl ((holds m a).mpr ⟨ne, ha, fresh⟩)
  refine ⟨h, passed, earliest, State.removeActive_clock.1, State.removeActive_clock.2, fun m a k => ?_,
    fun m a ha p ne => ?_, fun m a ha gone => ?_, fun p => absurd p started, fun p => absurd p started⟩
  · obtain ⟨ne, b, hb, same, back⟩ := source m a k
    exact ⟨b, hb, same, back, fun e => absurd e ne⟩
  · obtain k | ⟨-, k⟩ := stays m a ne ha (by rw [p]; nofun)
    · exact k
    · rw [p] at k
      obtain k | k := k <;> cases k
  · by_cases e : m = n
    · subst e
      cases ha.symm.trans h
      exact .inl (CurtailmentOrder.ended_of_passed started passed)
    · by_cases fresh : a.state = .suspended ∨ a.state = .waiting → ∀ x ∈ a.finish, s.clock.reading < x
      · obtain k | ⟨k, -⟩ := stays m a e ha fresh <;> exact absurd k (State.not_holds_of_none gone)
      · push Not at fresh
        obtain ⟨-, x, hx, late⟩ := fresh
        exact .inl ⟨x, hx, late⟩

theorem State.setOrder_none_taken (h : s.Holds n o) (started : o.state ≠ .pending) (passed : o.timePassed s.clock.reading)
    (earliest : ∀ m a, s.Holds m a → a.timePassed s.clock.reading → o.nextTime ≤ a.nextTime) :
    TimeTaken s (s.setOrder n none).markQueues n o := by
  refine ⟨h, passed, earliest, rfl, rfl, fun m a k => ?_, fun m a ha p ne => State.holds_setOrder_none.mpr ⟨ne, ha⟩,
    fun m a ha gone => ?_, fun p => absurd p started, fun p => absurd p started⟩
  · obtain ⟨ne, ha⟩ := State.holds_setOrder_none.mp k
    exact ⟨a, ha, rfl, id, fun e => absurd e ne⟩
  · by_cases e : m = n
    · subst e
      cases ha.symm.trans h
      exact .inl (CurtailmentOrder.ended_of_passed started passed)
    · exact absurd (State.holds_setOrder_none.mpr ⟨e, ha⟩) (State.not_holds_of_none gone)

theorem State.takeOrderTime_eq (h : s.Holds n o) : s.takeOrderTime n =
    if o.state = .pending then (match o.kind with | .emergency => s.emergencyStart n | .ordinary => s.ordinaryStart n)
    else if o.state = .active then s.removeActive n else (s.setOrder n none).markQueues := by
  have held : s.que.orders[n] = some o := h
  by_cases pending : o.state = .pending
  · cases kind : o.kind <;> simp [State.takeOrderTime, State.takeStart, held, pending, kind]
  · simp only [State.takeOrderTime, State.removeOrder, held, Option.any_some, pending, decide_false, Bool.false_eq_true,
      if_false]

theorem State.takeOrderTime_timeTaken (valid : s.clock.valid = true) (h : n ∈ earliestSlots s.passedOrders) :
    ∃ o, TimeTaken s (s.takeOrderTime n) n o := by
  obtain ⟨o, held, passed, earliest⟩ := State.mem_earliestSlots h
  refine ⟨o, ?_⟩
  rw [State.takeOrderTime_eq held]
  split
  next pending =>
    cases kind : o.kind with
    | emergency => exact State.emergencyStart_taken held pending kind passed earliest
    | ordinary => exact State.ordinaryStart_taken held pending kind passed earliest
  next started =>
    split
    next active => exact State.removeActive_taken valid held active passed earliest
    next => exact State.setOrder_none_taken held started passed earliest

/-! ### One after another -/

/-- The passed starts and ends are taken until none is passed. -/
inductive TimesTaken : State → State → Prop where
  | done {s : State} (none : ∀ n o, s.Holds n o → ¬ o.timePassed s.clock.reading) : TimesTaken s s
  | next {s t u : State} {n : CurtailmentSlot} {o : CurtailmentOrder} (first : TimeTaken s t n o)
      (rest : TimesTaken t u) : TimesTaken s u

theorem TimeTaken.of_choices {c : Nat} (h : TimeTaken { s with choices := c } t n o) : TimeTaken s t n o :=
  ⟨h.held, h.passed, h.earliest, h.clock, h.cfg, h.source, h.ahead, h.removed, h.ordinary, h.emergency⟩

theorem State.takePassed_timesTaken : ∀ (fuel : Nat) (s : State), s.timesLeft ≤ fuel → s.clock.valid = true →
    TimesTaken s (State.takePassed fuel s)
  | 0, s, left, _ => by
    refine .done fun n o ho => ?_
    have : ({ s with que := { s.que with orders := Vector.replicate 8 none } } : State).timesLeft < s.timesLeft :=
      State.timesLeft_lt ho fun m a ha => by simp [State.Holds] at ha
    omega
  | fuel + 1, s, left, valid => by
    rw [State.takePassed]
    have perm := arrange_perm (Config.freeOrder s.choices) (earliestSlots s.passedOrders)
    cases h : arrange (Config.freeOrder s.choices) (earliestSlots s.passedOrders) with
    | nil =>
      rw [h] at perm
      exact .done fun n o ho => State.earliestSlots_eq_nil perm.nil_eq.symm ho
    | cons n rest =>
      have mem : n ∈ earliestSlots s.passedOrders := perm.mem_iff.mp (by simp [h])
      have one {v : State} {o : CurtailmentOrder} (taken : TimeTaken s v n o) :
          TimesTaken s (State.takePassed fuel v) := by
        have less : v.timesLeft < s.timesLeft := State.timesLeft_lt taken.held fun m a ha =>
          let ⟨b, hb, _, back, slot⟩ := taken.source m a ha
          ⟨b, hb, back, slot⟩
        exact .next taken (State.takePassed_timesTaken fuel v (by omega) (by rw [taken.clock]; exact valid))
      dsimp only
      split
      · obtain ⟨o, taken⟩ := State.takeOrderTime_timeTaken valid mem
        exact one taken
      · obtain ⟨o, taken⟩ := State.takeOrderTime_timeTaken (s := { s with choices := s.choices + 1 }) valid mem
        exact one taken.of_choices

theorem State.takePassedOrders_timesTaken (valid : s.clock.valid = true) : TimesTaken s s.takePassedOrders :=
  State.takePassed_timesTaken 16 s s.timesLeft_le valid

/-! ### What is left (R105) -/

theorem TimesTaken.clock (h : TimesTaken s t) : t.clock = s.clock := by
  induction h with
  | done => rfl
  | next first _ ih => exact ih.trans first.clock

theorem TimesTaken.cfg (h : TimesTaken s t) : t.cfg = s.cfg := by
  induction h with
  | done => rfl
  | next first _ ih => exact ih.trans first.cfg

theorem TimesTaken.none_passed (h : TimesTaken s t) : ∀ m a, t.Holds m a → ¬ a.timePassed s.clock.reading := by
  induction h with
  | done none => exact none
  | next first _ ih => rw [← first.clock]; exact ih

/-- What a slot holds in the end it held from the first, with at most its state changed. -/
theorem TimesTaken.source (h : TimesTaken s t) : ∀ m a, t.Holds m a → ∃ b, s.Holds m b ∧ a = { b with state := a.state } ∧
    (a.state = .pending → b.state = .pending) := by
  induction h with
  | done => exact fun m a ha => ⟨a, ha, rfl, id⟩
  | next first _ ih =>
    intro m a ha
    obtain ⟨b, hb, same, back⟩ := ih m a ha
    obtain ⟨c, hc, same', back', -⟩ := first.source m b hb
    exact ⟨c, hc, by rw [same, same'], back' ∘ back⟩

theorem TimesTaken.ahead (h : TimesTaken s t) : ∀ m a, s.Holds m a → a.state = .pending → s.clock.reading < a.start →
    t.Holds m a := by
  induction h with
  | done => exact fun m a ha _ _ => ha
  | @next s v u n o first _ ih =>
    intro m a ha pending later
    refine ih m a (first.ahead m a ha pending ?_) pending (by rw [first.clock]; exact later)
    rintro rfl
    have passed := first.passed
    rw [State.Holds, first.held] at ha
    cases ha
    rw [CurtailmentOrder.timePassed, if_pos pending] at passed
    omega

theorem TimesTaken.removed (h : TimesTaken s t) : ∀ m a, s.Holds m a → t.que.orders[m] = none →
    a.Ended s.clock.reading ∨ a.kind = .emergency := by
  induction h with
  | done => exact fun m a ha gone => absurd ha (State.not_holds_of_none gone)
  | @next s v u n o first _ ih =>
    intro m a ha gone
    obtain out | ⟨b, hb⟩ := v.holds_or_none m
    · exact first.removed m a ha out
    · obtain ⟨c, hc, same, -⟩ := first.source m b hb
      cases ha.symm.trans hc
      obtain ended | kind := ih m b hb gone
      · rw [first.clock, same] at ended
        exact .inl ended
      · rw [same] at kind
        exact .inr kind

/-! ### Orders that only start, and are ordinary (R97) -/

/-- No order of the table has ended, and those that have begun are ordinary. -/
def State.OnlyOrdinary (s : State) : Prop := ∀ m a, s.Holds m a → ¬ a.Ended s.clock.reading ∧
  (a.state = .pending ∧ a.start ≤ s.clock.reading → a.kind = .ordinary)

/-- Some order is ACTIVE. -/
def State.SomeActive (s : State) : Prop := ∃ m a, s.Holds m a ∧ a.state = .active

theorem State.activeSlot_ne_none : s.activeSlot ≠ none ↔ s.SomeActive := by
  rw [ne_eq, State.activeSlot_eq_none, State.SomeActive]
  push Not
  rfl

/-- Such a table takes starts alone. -/
theorem TimeTaken.begun (h : TimeTaken s t n o) (only : s.OnlyOrdinary) :
    o.state = .pending ∧ o.start ≤ s.clock.reading ∧ o.kind = .ordinary := by
  have passed := h.passed
  by_cases pending : o.state = .pending
  · rw [CurtailmentOrder.timePassed, if_pos pending] at passed
    exact ⟨pending, passed, (only n o h.held).2 ⟨pending, passed⟩⟩
  · exact absurd (CurtailmentOrder.ended_of_passed pending passed) (only n o h.held).1

theorem TimeTaken.onlyOrdinary (h : TimeTaken s t n o) (only : s.OnlyOrdinary) : t.OnlyOrdinary := by
  intro m a ha
  obtain ⟨b, hb, same, back, -⟩ := h.source m a ha
  rw [h.clock]
  obtain ⟨fresh, kind⟩ := only m b hb
  rw [same]
  exact ⟨fresh, fun begun => kind ⟨back begun.1, begun.2⟩⟩

/-- An order that has not begun stays as it is. -/
theorem TimesTaken.unbegun (h : TimesTaken s t) (only : s.OnlyOrdinary) : ∀ m a, s.Holds m a →
    ¬ (a.state = .pending ∧ a.start ≤ s.clock.reading) → t.Holds m a := by
  induction h with
  | done => exact fun m a ha _ => ha
  | @next s v u n o first _ ih =>
    intro m a ha waits
    obtain ⟨pending, start, kind⟩ := first.begun only
    refine ih (first.onlyOrdinary only) m a ((first.ordinary pending kind m a).mpr (.inr ⟨?_, ha⟩))
      (by rw [first.clock]; exact waits)
    rintro rfl
    cases ha.symm.trans first.held
    exact waits ⟨pending, start⟩

/-- Behind an ACTIVE order, one that has begun comes to wait. -/
theorem TimesTaken.waits (h : TimesTaken s t) (only : s.OnlyOrdinary) (active : s.SomeActive) : ∀ m a, s.Holds m a →
    a.state = .pending ∧ a.start ≤ s.clock.reading → t.Holds m { a with state := .waiting } := by
  induction h with
  | done none =>
    intro m a ha begun
    exact absurd (by rw [CurtailmentOrder.timePassed, if_pos begun.1]; exact begun.2) (none m a ha)
  | @next s v u n o first rest ih =>
    intro m a ha begun
    obtain ⟨pending, start, kind⟩ := first.begun only
    have holds := first.ordinary pending kind
    by_cases e : m = n
    · subst e
      cases ha.symm.trans first.held
      have put := (holds m _).mpr (.inl ⟨rfl, rfl⟩)
      rw [if_neg (State.activeSlot_ne_none.mpr active)] at put
      exact rest.unbegun (first.onlyOrdinary only) m _ put nofun
    · obtain ⟨i, x, hx, act⟩ := active
      refine ih (first.onlyOrdinary only) ⟨i, x, (holds i x).mpr (.inr ⟨?_, hx⟩), act⟩ m a ((holds m a).mpr (.inr ⟨e, ha⟩))
        (by rw [first.clock]; exact begun)
      rintro rfl
      cases hx.symm.trans first.held
      rw [pending] at act
      cases act

/-- With none ACTIVE, the one that begins first takes effect alone, and the others come to wait. -/
theorem TimesTaken.first_begins (h : TimesTaken s t) (only : s.OnlyOrdinary) (nobody : ¬ s.SomeActive)
    (held : s.Holds n o) (begun : o.state = .pending ∧ o.start ≤ s.clock.reading)
    (first : ∀ m a, s.Holds m a → m ≠ n → a.state = .pending ∧ a.start ≤ s.clock.reading → o.start < a.start) :
    t.Holds n { o with state := .active } ∧ (∀ m a, t.Holds m a → a.state = .active → m = n) ∧
      ∀ m a, s.Holds m a → m ≠ n → a.state = .pending ∧ a.start ≤ s.clock.reading →
        t.Holds m { a with state := .waiting } := by
  cases h with
  | done none => exact absurd (by rw [CurtailmentOrder.timePassed, if_pos begun.1]; exact begun.2) (none n o held)
  | @next _ v _ i x taken rest =>
    obtain ⟨pending, start, kind⟩ := taken.begun only
    have same : i = n := by
      by_contra ne
      have early := first i x taken.held ne ⟨pending, start⟩
      have late := taken.earliest n o held (by rw [CurtailmentOrder.timePassed, if_pos begun.1]; exact begun.2)
      rw [CurtailmentOrder.nextTime, CurtailmentOrder.nextTime, if_pos pending, if_pos begun.1] at late
      omega
    subst same
    cases held.symm.trans taken.held
    have holds := taken.ordinary pending kind
    have none : s.activeSlot = none := by
      by_contra some
      exact nobody (State.activeSlot_ne_none.mp some)
    rw [if_pos none] at holds
    have put := (holds i _).mpr (.inl ⟨rfl, rfl⟩)
    have only' := taken.onlyOrdinary only
    have active : v.SomeActive := ⟨i, _, put, rfl⟩
    have clock := taken.clock
    refine ⟨rest.unbegun only' i _ put nofun, fun m a ha act => ?_, fun m a ha ne later => ?_⟩
    · obtain ⟨b, hb, same, -⟩ := rest.source m a ha
      by_cases later : b.state = .pending ∧ b.start ≤ v.clock.reading
      · have waits := rest.waits only' active m b hb later
        cases ha.symm.trans waits
        cases act
      · cases ha.symm.trans (rest.unbegun only' m b hb later)
        obtain ⟨e, -⟩ | ⟨-, ha⟩ := (holds m a).mp hb
        · exact e
        · exact absurd ⟨m, a, ha, act⟩ nobody
    · exact rest.waits only' active m a ((holds m a).mpr (.inr ⟨ne, ha⟩)) (by rw [clock]; exact later)

/-! ### One order alone whose time has passed -/

section Alone

variable (h : TimesTaken s t) (held : s.Holds n o)
  (others : ∀ m a, s.Holds m a → m ≠ n → ¬ a.timePassed s.clock.reading)
include h held others

/-- An EMERGENCY that has begun and not ended takes effect, alone. -/
theorem TimesTaken.emergency_begins (pending : o.state = .pending) (start : o.start ≤ s.clock.reading)
    (kind : o.kind = .emergency) (fresh : ∀ e ∈ o.finish, s.clock.reading < e) :
    t.Holds n { o with state := .active } ∧ ∀ m a, t.Holds m a → a.state = .active → m = n := by
  cases h with
  | done none => exact absurd (by rw [CurtailmentOrder.timePassed, if_pos pending]; exact start) (none n o held)
  | @next _ v _ i x taken rest =>
    have same : i = n := by
      by_contra ne
      exact others i x taken.held ne taken.passed
    subst same
    cases held.symm.trans taken.held
    have holds := taken.emergency pending kind
    have none (m : CurtailmentSlot) (a : CurtailmentOrder) (ha : v.Holds m a) : ¬ a.timePassed v.clock.reading := by
      rw [taken.clock]
      obtain ⟨rfl, rfl⟩ | ⟨ne, b, hb, aside⟩ := (holds m a).mp ha
      · rw [CurtailmentOrder.timePassed, if_neg (by nofun)]
        rintro ⟨e, he, late⟩
        exact absurd late (Nat.not_le.mpr (fresh e he))
      · have still := others m b hb ne
        obtain ⟨act, -, rfl⟩ | ⟨-, rfl⟩ := CurtailmentOrder.setAside_eq_some.mp aside
        · rw [CurtailmentOrder.timePassed, if_neg (by rw [act]; nofun)] at still
          rw [CurtailmentOrder.timePassed, if_neg (by nofun)]
          exact still
        · exact still
    cases rest with
    | next taken' => exact absurd taken'.passed (none _ _ taken'.held)
    | done =>
      refine ⟨(holds i _).mpr (.inl ⟨rfl, rfl⟩), fun m a ha act => ?_⟩
      obtain ⟨e, -⟩ | ⟨-, b, -, aside⟩ := (holds m a).mp ha
      · exact e
      · obtain ⟨-, -, rfl⟩ | ⟨inactive, rfl⟩ := CurtailmentOrder.setAside_eq_some.mp aside
        · cases act
        · exact absurd act inactive

end Alone

/-- An order whose end has passed, and its start if it is PENDING, is gone in the end. -/
theorem TimesTaken.ended_gone (h : TimesTaken s t) (held : s.Holds n o) (ended : o.Ended s.clock.reading)
    (started : o.state ≠ .pending ∨ o.start ≤ s.clock.reading) : t.que.orders[n] = none := by
  obtain gone | ⟨a, ha⟩ := t.holds_or_none n
  · exact gone
  · obtain ⟨b, hb, same, back⟩ := h.source n a ha
    cases held.symm.trans hb
    refine absurd ?_ (h.none_passed n a ha)
    rw [CurtailmentOrder.timePassed]
    split
    next pending =>
      rw [same]
      exact started.resolve_left (not_not_intro (back pending))
    next =>
      rw [same]
      exact ended

/-- Every start and end at or before the present second has been taken, and the limit published (R101, R105). -/
theorem State.takePassedOrders_ordersTaken (valid : s.clock.valid = true) :
    OrdersTaken s.que.orders s.clock.reading s.cfg.contract.limit s.takePassedOrders.publishLimit := by
  have h := State.takePassedOrders_timesTaken valid
  have orders : s.takePassedOrders.publishLimit.que.orders = s.takePassedOrders.que.orders := State.publishLimit_orders
  have limit : s.takePassedOrders.publishLimit.esu.effLimit = s.takePassedOrders.limitNow := State.publishLimit_effLimit
  have contract : s.takePassedOrders.cfg.contract.limit = s.cfg.contract.limit := by rw [h.cfg]
  refine ⟨fun n o ho => ?_, fun n o ho pending later => ?_, fun n o ho gone => ?_, fun q same legal => ?_, ?_, ?_⟩
  · rw [orders] at ho
    obtain ⟨b, hb, same, -⟩ := h.source n o ho
    exact ⟨h.none_passed n o ho, b, hb, same⟩
  · rw [orders]; exact h.ahead n o ho pending later
  · rw [orders] at gone; exact h.removed n o ho gone
  · have law : s.que.OrdersLegal := ⟨by simpa only [← same] using legal.oneActive, by simpa only [← same] using legal.oneSuspended,
      by simpa only [← same] using legal.underEmergency, by simpa only [← same] using legal.references,
      by simpa only [← same] using legal.ends⟩
    obtain ⟨chain, final⟩ := State.takePassedOrders_taken law valid
    refine ⟨s, s.takePassedOrders, ⟨rfl, valid, rfl, rfl⟩, chain, orders, State.limitFollows ?_ ?_⟩
    · exact ⟨by rw [orders]; exact final.oneActive, by rw [orders]; exact final.oneSuspended,
        by rw [orders]; exact final.underEmergency, by rw [orders]; exact final.references, by rw [orders]; exact final.ends⟩
    · rw [limit]
      simp only [State.limitNow, State.ordersHeld, orders, State.publishLimit_cfg]
  · intro ended begun active all n o ho
    have only : s.OnlyOrdinary := fun m a ha => all m a ha
    refine ⟨fun waits => ?_, fun begun act => ?_, fun begun nobody first => ?_⟩
    · rw [orders]; exact h.unbegun only n o ho waits
    · rw [orders]; exact h.waits only act n o ho begun
    · obtain ⟨put, alone, rest⟩ := h.first_begins only nobody ho begun fun m a ha ne later => first m a ha ne later
      rw [orders, limit, State.limitNow_of_active put rfl alone, contract]
      exact ⟨put, rfl, fun m a ha ne later => rest m a ha ne later⟩
  · intro n o ho others
    refine ⟨fun pending start kind fresh => ?_, fun ended started => ?_⟩
    · obtain ⟨put, alone⟩ := h.emergency_begins ho (fun m a ha ne => others m a ha ne) pending start kind fresh
      rw [orders, limit, State.limitNow_of_active put rfl alone, contract]
      exact ⟨put, rfl⟩
    · rw [orders]; exact h.ended_gone ho ended started

end Sys2Proof.Machine
end

section
/-! SUPPORT. What the starts and ends of orders, and a publication of the limit, touch of the QUEUES contents and the ESU
besides the orders: the open interval's least limit and curtailed seconds (R101, R109); with O21. -/

namespace Sys2Proof.Machine

variable {s t u : State}

/-! ### A publication -/

/-- The open interval as a publication of the limit leaves it (R109). -/
def State.intervalPublished (s : State) (iv : OpenInterval) : OpenInterval :=
  { iv with
    minLimit := min iv.minLimit s.limitNow
    curtailed := iv.curtailed +
      if s.limitNow < s.cfg.contract.limit then 0 else s.esu.curtailedSince.elim 0 (s.osc - ·) }

theorem State.setQueues_esu (q : QueuesRegion) : (s.setQueues q).esu = s.esu := by
  unfold State.setQueues; split <;> rfl

theorem State.setQueues_acts (q : QueuesRegion) : (s.setQueues q).acts = s.acts := by
  unfold State.setQueues; split <;> rfl

theorem State.publishLimit_que_eq : s.publishLimit.que =
    { s.que with interval := s.que.interval.map s.intervalPublished } := by
  unfold State.publishLimit State.curtail State.intervalPublished
  dsimp only
  cases opened : s.que.interval with
  | none =>
    show s.que = { s.que with interval := none }
    rw [← opened]
  | some iv =>
    dsimp only
    split
    · rw [State.setInterval_que, Option.map_some, Nat.add_zero]
    · rw [State.setInterval_que, Option.map_some]

theorem State.publishLimit_esu_eq : s.publishLimit.esu =
    { s.esu with
      effLimit := s.limitNow
      curtailedSince := if s.que.interval = none then s.esu.curtailedSince
        else if s.limitNow < s.cfg.contract.limit then some (s.esu.curtailedSince.getD s.osc) else none } := by
  unfold State.publishLimit State.curtail
  dsimp only
  cases opened : s.que.interval with
  | none => rfl
  | some iv =>
    dsimp only
    rw [if_neg (Option.some_ne_none _)]
    split <;> rw [State.setInterval_esu]

theorem State.publishLimit_acts : s.publishLimit.acts = s.acts := by
  unfold State.publishLimit State.curtail
  dsimp only
  cases s.que.interval with
  | none => rfl
  | some iv => dsimp only; split <;> exact State.setQueues_acts _

/-! ### What the starts and ends of orders touch -/

/-- Between `s` and `t`, within one second, starts and ends of orders were taken and the limit published: of the QUEUES
contents the orders and the open interval's least limit changed, of the ESU the limit and the start of a curtailment. -/
structure LimitMoves (s t : State) : Prop where
  que : t.que = { s.que with orders := t.que.orders, interval := t.que.interval }
  esu : t.esu = { s.esu with effLimit := t.esu.effLimit, curtailedSince := t.esu.curtailedSince }
  osc : t.osc = s.osc
  acts : t.acts = s.acts
  since : (∀ x ∈ s.esu.curtailedSince, x = s.osc) → ∀ x ∈ t.esu.curtailedSince, x = s.osc
  shut : s.que.interval = none → t.que.interval = none
  opened : (∀ x ∈ s.esu.curtailedSince, x = s.osc) → ∀ iv, s.que.interval = some iv →
    ∃ l, l ≤ iv.minLimit ∧ t.que.interval = some { iv with minLimit := l }

theorem LimitMoves.of_orders (que : t.que = { s.que with orders := t.que.orders }) (esu : t.esu = s.esu)
    (osc : t.osc = s.osc) (acts : t.acts = s.acts) : LimitMoves s t where
  que := by rw [que]
  esu := by rw [esu]
  osc := osc
  acts := acts
  since h := by rw [esu]; exact h
  shut h := by rw [que]; exact h
  opened _ iv h := ⟨iv.minLimit, Nat.le_refl _, by rw [que]; exact h⟩

theorem LimitMoves.refl (s : State) : LimitMoves s s := .of_orders rfl rfl rfl rfl

theorem LimitMoves.trans (h : LimitMoves s t) (k : LimitMoves t u) : LimitMoves s u where
  que := by rw [k.que, h.que]
  esu := by rw [k.esu, h.esu]
  osc := k.osc.trans h.osc
  acts := k.acts.trans h.acts
  since x := by rw [← h.osc]; exact k.since (by rw [h.osc]; exact h.since x)
  shut x := k.shut (h.shut x)
  opened x iv hi := by
    obtain ⟨l, le, hl⟩ := h.opened x iv hi
    obtain ⟨l', le', hl'⟩ := k.opened (by rw [h.osc]; exact h.since x) _ hl
    exact ⟨l', Nat.le_trans le' le, hl'⟩

theorem LimitMoves.ite {c : Prop} [Decidable c] (h : LimitMoves s t) (k : LimitMoves s u) :
    LimitMoves s (if c then t else u) := by split <;> assumption

theorem State.intervalPublished_eq (now : ∀ x ∈ s.esu.curtailedSince, x = s.osc) (iv : OpenInterval) :
    s.intervalPublished iv = { iv with minLimit := min iv.minLimit s.limitNow } := by
  have none : (if s.limitNow < s.cfg.contract.limit then 0 else s.esu.curtailedSince.elim 0 (s.osc - ·)) = 0 := by
    split
    · rfl
    · cases h : s.esu.curtailedSince with
      | none => rfl
      | some x => rw [Option.elim_some, now x h, Nat.sub_self]
  rw [State.intervalPublished, none, Nat.add_zero]

theorem State.publishLimit_moves : LimitMoves s s.publishLimit where
  que := by rw [State.publishLimit_que_eq]
  esu := by rw [State.publishLimit_esu_eq]
  osc := State.publishLimit_changes .osc (by decide)
  acts := State.publishLimit_acts
  since h := by
    rw [State.publishLimit_esu_eq]
    dsimp only
    split
    · exact h
    · split
      · rintro x hx
        cases since : s.esu.curtailedSince with
        | none => rw [since] at hx; cases hx; rfl
        | some y => rw [since] at hx; cases hx; exact h _ since
      · nofun
  shut h := by rw [State.publishLimit_que_eq, h]; rfl
  opened h iv hi := ⟨min iv.minLimit s.limitNow, Nat.min_le_left .., by
    rw [State.publishLimit_que_eq, hi, Option.map_some, State.intervalPublished_eq h]⟩

theorem State.orderBecomes_moves (n : CurtailmentSlot) (x : OrderState) : LimitMoves s (s.orderBecomes n x) :=
  .of_orders rfl rfl rfl rfl

theorem State.markQueues_moves : LimitMoves s s.markQueues := .of_orders rfl rfl rfl rfl

theorem State.emergencyStart_moves (n : CurtailmentSlot) : LimitMoves s (s.emergencyStart n) :=
  have aside : LimitMoves s (s.mapOrders CurtailmentOrder.setAside) := .of_orders rfl rfl rfl rfl
  ((aside.trans (State.orderBecomes_moves n .active)).trans State.markQueues_moves).trans State.publishLimit_moves

theorem State.ordinaryStart_moves (n : CurtailmentSlot) : LimitMoves s (s.ordinaryStart n) :=
  ((State.orderBecomes_moves n _).trans State.markQueues_moves).trans State.publishLimit_moves

theorem State.chooseActive_moves : LimitMoves s s.chooseActive := by
  obtain ⟨n, o, -, -, eq⟩ | ⟨-, ⟨n, o, -, -, -, eq⟩ | ⟨-, eq⟩⟩ := s.chooseActive_cases
  · rw [eq]; exact State.orderBecomes_moves n _
  · rw [eq]; exact State.orderBecomes_moves n _
  · rw [eq]; exact .refl s

theorem State.removeOrder_moves (n : CurtailmentSlot) : LimitMoves s (s.removeOrder n) := by
  have out : LimitMoves s (s.setOrder n none) := .of_orders rfl rfl rfl rfl
  unfold State.removeOrder
  cases s.que.orders[n] with
  | none => exact .refl s
  | some o =>
    have dropped : LimitMoves (s.setOrder n none) (s.setOrder n none).dropPassed :=
      .ite (.of_orders rfl rfl rfl rfl) (.refl _)
    exact .ite ((((out.trans dropped).trans State.chooseActive_moves).trans State.markQueues_moves).trans
      State.publishLimit_moves) (out.trans State.markQueues_moves)

theorem State.takeOrderTime_moves (n : CurtailmentSlot) : LimitMoves s (s.takeOrderTime n) := by
  have start : LimitMoves s (s.takeStart n) := by
    unfold State.takeStart
    split
    · exact .refl s
    · split
      · exact State.emergencyStart_moves n
      · exact State.ordinaryStart_moves n
  exact .ite start (State.removeOrder_moves n)

theorem State.takePassed_moves : ∀ (fuel : Nat) (s : State), LimitMoves s (State.takePassed fuel s)
  | 0, s => .refl s
  | fuel + 1, s => by
    rw [State.takePassed]
    cases arrange (Config.freeOrder s.choices) (earliestSlots s.passedOrders) with
    | nil => exact .refl s
    | cons n rest =>
      have counted : LimitMoves s (if rest.isEmpty then s else { s with choices := s.choices + 1 }) :=
        .ite (.refl s) (.of_orders rfl rfl rfl rfl)
      exact (counted.trans (State.takeOrderTime_moves n)).trans (State.takePassed_moves fuel _)

theorem State.takePassedOrders_moves : LimitMoves s s.takePassedOrders := State.takePassed_moves 16 s

/-- Nothing is taken where no start or end has passed. -/
theorem State.takePassedOrders_of_none (none : ∀ n o, s.Holds n o → ¬ o.timePassed s.clock.reading) :
    s.takePassedOrders = s := by
  have empty : earliestSlots s.passedOrders = [] := by
    refine List.eq_nil_iff_forall_not_mem.mpr fun n mem => ?_
    obtain ⟨o, held, passed, -⟩ := State.mem_earliestSlots mem
    exact none n o held passed
  rw [State.takePassedOrders, State.takePassed, empty]
  rfl

end Sys2Proof.Machine
end

section
/-! SUPPORT. The Export Scheduling Unit at a restart, the clock VALID or INVALID (R105, R116, R117); with O21. -/

namespace Sys2Proof.Machine

variable {s t u : State}

/-! ### Reckonings of the missing intervals (R93) -/

theorem State.missingStarts_congr (que : t.que = s.que) (finish : t.esu.intervalEnd = s.esu.intervalEnd)
    (clock : t.clock = s.clock) (cfg : t.cfg = s.cfg) : t.missingStarts = s.missingStarts := by
  have gated : t.gatedStarts = s.gatedStarts := by
    unfold State.gatedStarts State.leadSeconds
    rw [finish, clock, cfg]
  have named : t.nominated = s.nominated := by funext x; rw [State.nominated, State.nominated, que]
  unfold State.missingStarts State.leadSeconds
  rw [gated, named, que, clock, cfg]

/-- What the reckoning looks at, it leaves. -/
theorem State.reckonMissing_missingStarts : s.reckonMissing.missingStarts = s.missingStarts := by
  obtain ⟨m, esu⟩ := s.reckonMissing_esu
  exact State.missingStarts_congr State.reckonMissing_que (by rw [esu])
    (State.reckonMissing_changes .clock (by decide)) (State.reckonMissing_changes .cfg (by decide))

theorem State.reckonMissing_missing : s.reckonMissing.esu.missing = !s.missingStarts.isEmpty := by
  unfold State.reckonMissing
  cases hm : s.esu.missing <;> cases he : s.missingStarts.isEmpty <;> simp [hm]

theorem State.reckonMissing_of_reckoned (h : s.esu.missing = !s.missingStarts.isEmpty) : s.reckonMissing = s := by
  unfold State.reckonMissing
  rw [h]
  cases s.missingStarts.isEmpty <;> rfl

theorem State.reckonMissing_reckonMissing : s.reckonMissing.reckonMissing = s.reckonMissing :=
  State.reckonMissing_of_reckoned (by rw [State.reckonMissing_missing, State.reckonMissing_missingStarts])

/-- The acts of a reckoning after which intervals are missing, or none is. -/
def missingActs (missing : Bool) : List ConditionAct :=
  if missing then [.raise { cls := .nominationMissing, source := 1 } .selfClearing] else []

theorem State.reckonMissing_acts (h : s.esu.missing = false) :
    s.reckonMissing.acts = s.acts ++ missingActs s.reckonMissing.esu.missing := by
  rw [State.reckonMissing_missing]
  unfold State.reckonMissing
  rw [h]
  cases s.missingStarts.isEmpty
  · rfl
  · exact (List.append_nil _).symm

/-! ### The stored region read with the clock VALID -/

/-- The entries on the grid, those an earlier power-on swept among them (R116). -/
def State.restartPool (s : State) : List Nomination :=
  (s.que.swept ++ s.que.nominations).filter fun n => s.isBoundary n.start

/-- The stored region with its nominations on the grid, and the end of its interval (R105). -/
def State.regridded (s : State) : State :=
  let kept := s.setQueues { s.que with
    nominations := s.que.nominations.filter fun n => s.isBoundary n.start, swept := [] }
  { kept with esu := { kept.esu with intervalEnd := s.que.interval.elim 0 fun iv => kept.boundaryAfter iv.start } }

/-- The passed starts and ends of orders then taken, and the limit published (R105 i). -/
def State.ordersReckoned (s : State) : State := s.regridded.takePassedOrders.publishLimit

/-- The boundary at which a restart opens an interval. -/
def State.restartStart (s : State) : Int := s.boundaryAtOrBefore s.clock.reading

theorem ExportUnit.eq_of_parts {x y : ExportUnit} (finish : x.intervalEnd = y.intervalEnd)
    (since : x.curtailedSince = y.curtailedSince) (last : x.lastReading = y.lastReading) (limit : x.effLimit = y.effLimit)
    (missing : x.missing = y.missing) (wait : x.wait = y.wait) : x = y := by
  cases x
  cases y
  simp_all only

/-- The meter wait that a restart starts (R116). -/
def State.restartWait (s : State) (swept : List Nomination) (gap : Option GapRecord) : MeterWait :=
  { due := s.osc + Config.startWait, stored := s.que.interval, storedCurrent := s.que.current, swept := swept, gap := gap }

/-- A restart opens an interval, with the gap record of the stored one or none (R106, R116). -/
def State.restartOpens (s : State) (gap : Option GapRecord) : State :=
  (s.ordersReckoned.startWait s.que (s.restartPool.filter fun n => decide ((n.start : Int) ≤ s.restartStart)) gap).openWith
    s.restartStart .afterGap (energyAt s.restartPool s.restartStart)

/-- A restart continues the stored interval `iv` (R116 i). -/
def State.restartContinues (s : State) (iv : OpenInterval) : State :=
  ((s.ordersReckoned.startWait s.que s.que.swept none).setInterval
    { iv with flags := { iv.flags with powerGap := true } }).reckonMissing

theorem State.regridded_changes : ChangesOnly [.que, .esu, .marks] s s.regridded :=
  ((State.setQueues_changes _).mono (by decide)).trans ((State.esu_changes _).mono (by decide))

theorem State.regridded_que : s.regridded.que =
    { s.que with nominations := s.que.nominations.filter fun n => s.isBoundary n.start, swept := [] } :=
  State.setQueues_que _

theorem State.regridded_esu : s.regridded.esu =
    { s.esu with intervalEnd := s.que.interval.elim 0 fun iv => s.boundaryAfter iv.start } := by
  unfold State.regridded State.setQueues
  split <;> rfl

theorem State.regridded_acts : s.regridded.acts = s.acts := State.setQueues_acts _

theorem State.regridded_clock : s.regridded.clock = s.clock := State.regridded_changes .clock (by decide)

theorem State.regridded_cfg : s.regridded.cfg = s.cfg := State.regridded_changes .cfg (by decide)

theorem State.regridded_osc : s.regridded.osc = s.osc := State.regridded_changes .osc (by decide)

theorem State.ordersReckoned_moves : LimitMoves s.regridded s.ordersReckoned :=
  State.takePassedOrders_moves.trans State.publishLimit_moves

theorem State.takePassedOrders_changes : ChangesOnly [.que, .esu, .marks, .choices] s s.takePassedOrders :=
  State.takePassed_changes 16

theorem State.ordersReckoned_changes : ChangesOnly [.que, .esu, .marks, .choices] s s.ordersReckoned :=
  (State.regridded_changes.mono (by decide)).trans
    ((State.takePassedOrders_changes.mono (by decide)).trans (State.publishLimit_changes.mono (by decide)))

theorem State.ordersReckoned_clock : s.ordersReckoned.clock = s.clock := State.ordersReckoned_changes .clock (by decide)

theorem State.ordersReckoned_cfg : s.ordersReckoned.cfg = s.cfg := State.ordersReckoned_changes .cfg (by decide)

theorem State.ordersReckoned_osc : s.ordersReckoned.osc = s.osc := State.ordersReckoned_changes .osc (by decide)

theorem State.ordersReckoned_acts : s.ordersReckoned.acts = s.acts :=
  State.ordersReckoned_moves.acts.trans State.regridded_acts

theorem State.ordersReckoned_que : s.ordersReckoned.que =
    { s.que with
      nominations := s.que.nominations.filter fun n => s.isBoundary n.start
      swept := []
      orders := s.ordersReckoned.que.orders
      interval := s.ordersReckoned.que.interval } := by
  conv_lhs => rw [State.ordersReckoned_moves.que, State.regridded_que]

theorem State.ordersReckoned_esu : s.ordersReckoned.esu =
    { s.esu with
      intervalEnd := s.que.interval.elim 0 fun iv => s.boundaryAfter iv.start
      effLimit := s.ordersReckoned.esu.effLimit
      curtailedSince := s.ordersReckoned.esu.curtailedSince } := by
  conv_lhs => rw [State.ordersReckoned_moves.esu, State.regridded_esu]

theorem State.ordersReckoned_shut (h : s.que.interval = none) : s.ordersReckoned.que.interval = none :=
  State.ordersReckoned_moves.shut (by rw [State.regridded_que]; exact h)

/-- No start and no end of an order has passed. -/
def State.NonePassed (s : State) : Prop :=
  ∀ (n : CurtailmentSlot) (o : CurtailmentOrder), s.que.orders[n] = some o → ¬ o.timePassed s.clock.reading

theorem State.regridded_nonePassed (h : s.NonePassed) : s.regridded.takePassedOrders = s.regridded :=
  State.takePassedOrders_of_none fun n o held => by
    rw [State.Holds, State.regridded_que] at held
    rw [State.regridded_clock]
    exact h n o held

theorem State.ordersReckoned_orders (h : s.NonePassed) : s.ordersReckoned.que.orders = s.que.orders := by
  rw [State.ordersReckoned, State.regridded_nonePassed h, State.publishLimit_orders, State.regridded_que]

/-- The stored interval keeps its figures but the least limit, which a publication lowers to the limit in force. -/
theorem State.ordersReckoned_open {iv : OpenInterval} (since : s.esu.curtailedSince = none) (h : s.que.interval = some iv) :
    ∃ l, s.ordersReckoned.que.interval = some { iv with minLimit := l } ∧ l ≤ min iv.minLimit s.ordersReckoned.esu.effLimit ∧
      (s.NonePassed → l = min iv.minLimit s.ordersReckoned.esu.effLimit) := by
  have none : ∀ x ∈ s.regridded.esu.curtailedSince, x = s.regridded.osc := by
    rw [State.regridded_esu]; dsimp only; rw [since]; nofun
  have held : s.regridded.que.interval = some iv := by rw [State.regridded_que]; exact h
  obtain ⟨l, le, taken⟩ := State.takePassedOrders_moves.opened none iv held
  have still : ∀ x ∈ s.regridded.takePassedOrders.esu.curtailedSince, x = s.regridded.takePassedOrders.osc := by
    rw [State.takePassedOrders_moves.osc]; exact State.takePassedOrders_moves.since none
  have limit : s.ordersReckoned.esu.effLimit = s.regridded.takePassedOrders.limitNow := State.publishLimit_effLimit
  refine ⟨min l s.ordersReckoned.esu.effLimit, ?_, by omega, fun quiet => ?_⟩
  · rw [State.ordersReckoned, State.publishLimit_que_eq, taken, Option.map_some, State.intervalPublished_eq still,
      State.publishLimit_effLimit]
  · rw [State.regridded_nonePassed quiet, held] at taken
    have same : iv.minLimit = l := congrArg OpenInterval.minLimit (Option.some.inj taken)
    rw [same]

/-- With an interval open, a limit below the contract's counts from the present second. -/
theorem State.ordersReckoned_since {iv : OpenInterval} (since : s.esu.curtailedSince = none)
    (h : s.que.interval = some iv) : s.ordersReckoned.esu.curtailedSince =
      if s.ordersReckoned.esu.effLimit < s.cfg.contract.limit then some s.osc else none := by
  have none : ∀ x ∈ s.regridded.esu.curtailedSince, x = s.regridded.osc := by
    rw [State.regridded_esu]; dsimp only; rw [since]; nofun
  have held : s.regridded.que.interval = some iv := by rw [State.regridded_que]; exact h
  obtain ⟨l, -, taken⟩ := State.takePassedOrders_moves.opened none iv held
  have now := State.takePassedOrders_moves.since none
  have cfg : s.regridded.takePassedOrders.cfg = s.cfg :=
    Eq.trans (State.takePassedOrders_changes .cfg (by decide)) State.regridded_cfg
  have osc : s.regridded.takePassedOrders.osc = s.osc := State.takePassedOrders_moves.osc.trans State.regridded_osc
  rw [State.ordersReckoned, State.publishLimit_effLimit, State.publishLimit_esu_eq, taken, if_neg (Option.some_ne_none _), cfg,
    osc]
  cases counted : s.regridded.takePassedOrders.esu.curtailedSince with
  | none => rfl
  | some x => rw [now x counted, State.regridded_osc]; rfl

theorem State.ordersReckoned_taken (valid : s.clock.valid = true) :
    OrdersTaken s.que.orders s.clock.reading s.cfg.contract.limit s.ordersReckoned := by
  have taken := State.takePassedOrders_ordersTaken (s := s.regridded) (by rw [State.regridded_clock]; exact valid)
  rwa [State.regridded_que, State.regridded_clock, State.regridded_cfg] at taken

theorem State.ordersReckoned_limitNow : s.ordersReckoned.esu.effLimit = s.ordersReckoned.limitNow := by
  rw [State.ordersReckoned, State.publishLimit_effLimit]
  simp only [State.limitNow, State.ordersHeld, State.publishLimit_orders, State.publishLimit_cfg]

/-! ### The three outcomes with the clock VALID -/

theorem State.restartStart_eq : s.ordersReckoned.boundaryAtOrBefore s.clock.reading = s.restartStart := by
  unfold State.restartStart State.boundaryAtOrBefore
  rw [State.ordersReckoned_clock, State.ordersReckoned_cfg]

theorem State.openWith_reckoned (x : Int) (flags : IntervalFlags) (current : Option Nat) :
    (s.openWith x flags current).reckonMissing = s.openWith x flags current := State.reckonMissing_reckonMissing

theorem State.scheduleRestartValid_shut (h : s.que.interval = none) : s.scheduleRestartValid = s.restartOpens none := by
  have shut : s.regridded.takePassedOrders.publishLimit.que.interval = none := State.ordersReckoned_shut h
  unfold State.scheduleRestartValid
  change (match s.regridded.takePassedOrders.publishLimit.que.interval with | some _ => _ | none => _) = _
  rw [shut]
  dsimp only
  rw [State.openWith_reckoned]
  unfold State.restartOpens
  rw [← State.restartStart_eq]
  rfl

theorem State.scheduleRestartValid_ended {iv kept : OpenInterval} (h : s.que.interval = some iv)
    (left : s.ordersReckoned.que.interval = some kept) (ended : s.boundaryAfter iv.start ≤ s.clock.reading) :
    s.scheduleRestartValid =
      s.restartOpens (some (s.ordersReckoned.gapRecord kept s.restartPool s.restartStart)) := by
  have open' : s.regridded.takePassedOrders.publishLimit.que.interval = some kept := left
  have finish : s.ordersReckoned.esu.intervalEnd ≤ s.clock.reading := by
    rw [State.ordersReckoned_esu, h]; exact ended
  unfold State.scheduleRestartValid
  change (match s.regridded.takePassedOrders.publishLimit.que.interval with | some _ => _ | none => _) = _
  rw [open']
  refine (if_pos finish).trans ?_
  rw [State.openWith_reckoned]
  unfold State.restartOpens
  rw [← State.restartStart_eq]
  rfl

theorem State.scheduleRestartValid_continued {iv kept : OpenInterval} (h : s.que.interval = some iv)
    (left : s.ordersReckoned.que.interval = some kept) (runs : s.clock.reading < s.boundaryAfter iv.start) :
    s.scheduleRestartValid = s.restartContinues kept := by
  have open' : s.regridded.takePassedOrders.publishLimit.que.interval = some kept := left
  have finish : ¬ s.ordersReckoned.esu.intervalEnd ≤ s.clock.reading := by
    rw [State.ordersReckoned_esu, h]; exact Int.not_le.mpr runs
  unfold State.scheduleRestartValid
  change (match s.regridded.takePassedOrders.publishLimit.que.interval with | some _ => _ | none => _) = _
  rw [open']
  exact if_neg finish

/-! ### What each outcome leaves -/

theorem State.openWith_que (x : Int) (flags : IntervalFlags) (current : Option Nat) : (s.openWith x flags current).que =
    { s.que with
      nominations := laterThan s.que.nominations x
      current := current
      interval := some (s.freshInterval x flags) } := State.reckonMissing_que

theorem State.openWith_esu (x : Int) (flags : IntervalFlags) (current : Option Nat) :
    ∃ m, (s.openWith x flags current).esu =
      { s.esu with
        intervalEnd := s.boundaryAfter x
        curtailedSince := if s.esu.effLimit < s.cfg.contract.limit then some s.osc else none
        missing := m } := State.reckonMissing_esu

theorem State.restartOpens_que (gap : Option GapRecord) : (s.restartOpens gap).que =
    { s.ordersReckoned.que with
      nominations := s.que.nominations.filter fun n => s.isBoundary n.start && decide (s.restartStart < n.start)
      current := energyAt s.restartPool s.restartStart
      interval := some (s.ordersReckoned.freshInterval s.restartStart .afterGap) } := by
  have left : laterThan s.ordersReckoned.que.nominations s.restartStart =
      s.que.nominations.filter fun n => s.isBoundary n.start && decide (s.restartStart < n.start) := by
    rw [State.ordersReckoned_que]
    simp only [laterThan, List.filter_filter, Bool.and_comm]
  rw [State.restartOpens, State.openWith_que, ← left]
  rfl

theorem State.ordersReckoned_boundaryAfter (x : Int) : s.ordersReckoned.boundaryAfter x = s.boundaryAfter x := by
  unfold State.boundaryAfter State.boundaryAtOrBefore
  rw [State.ordersReckoned_clock, State.ordersReckoned_cfg]

theorem State.startWait_openWith_esu (q : QueuesRegion) (swept : List Nomination) (gap : Option GapRecord) (x : Int)
    (flags : IntervalFlags) (current : Option Nat) : ∃ m, ((s.startWait q swept gap).openWith x flags current).esu =
      { s.esu with
        intervalEnd := s.boundaryAfter x
        curtailedSince := if s.esu.effLimit < s.cfg.contract.limit then some s.osc else none
        wait := some (MeterWait.mk (s.osc + Config.startWait) q.interval q.current swept gap)
        missing := m } := State.openWith_esu x flags current

theorem State.startWait_setInterval_esu (q : QueuesRegion) (swept : List Nomination) (gap : Option GapRecord)
    (iv : OpenInterval) : ∃ m, ((s.startWait q swept gap).setInterval iv).reckonMissing.esu =
      { s.esu with
        wait := some (MeterWait.mk (s.osc + Config.startWait) q.interval q.current swept gap)
        missing := m } := by
  obtain ⟨m, esu⟩ := ((s.startWait q swept gap).setInterval iv).reckonMissing_esu
  rw [State.setInterval_esu] at esu
  exact ⟨m, esu⟩

theorem State.restartOpens_esu (gap : Option GapRecord) : ∃ m, (s.restartOpens gap).esu =
    { s.esu with
      intervalEnd := s.boundaryAfter s.restartStart
      effLimit := s.ordersReckoned.esu.effLimit
      curtailedSince := if s.ordersReckoned.esu.effLimit < s.cfg.contract.limit then some s.osc else none
      wait := some (s.restartWait (s.restartPool.filter fun n => decide ((n.start : Int) ≤ s.restartStart)) gap)
      missing := m } := by
  obtain ⟨m, esu⟩ := State.startWait_openWith_esu (s := s.ordersReckoned) s.que
    (s.restartPool.filter fun n => decide ((n.start : Int) ≤ s.restartStart)) gap s.restartStart .afterGap
    (energyAt s.restartPool s.restartStart)
  rw [State.ordersReckoned_boundaryAfter, State.ordersReckoned_cfg, State.ordersReckoned_osc] at esu
  have last : s.ordersReckoned.esu.lastReading = s.esu.lastReading := by rw [State.ordersReckoned_esu]
  exact ⟨m, esu.trans (ExportUnit.eq_of_parts rfl rfl last rfl rfl rfl)⟩

theorem State.restartContinues_que (iv : OpenInterval) : (s.restartContinues iv).que =
    { s.ordersReckoned.que with interval := some { iv with flags := { iv.flags with powerGap := true } } } :=
  State.reckonMissing_que.trans (State.setInterval_que _)

theorem State.restartContinues_esu (iv : OpenInterval) : ∃ m, (s.restartContinues iv).esu =
    { s.ordersReckoned.esu with
      wait := some (s.restartWait s.que.swept none)
      missing := m } := by
  obtain ⟨m, esu⟩ := State.startWait_setInterval_esu (s := s.ordersReckoned) s.que s.que.swept none
    { iv with flags := { iv.flags with powerGap := true } }
  rw [State.ordersReckoned_osc] at esu
  exact ⟨m, esu⟩

end Sys2Proof.Machine
end

section
/-! SUPPORT. What a restart leaves of the schedule, read from the state at its end (R105, R116, R117); with O21. -/

namespace Sys2Proof.Machine

variable {s t u : State}

/-! ### The acts told and the interval reckoned missing -/

theorem State.publishLimit_limitNow : s.publishLimit.limitNow = s.limitNow := by
  simp only [State.limitNow, State.ordersHeld, State.publishLimit_orders, State.publishLimit_cfg]

/-- The reckoning is up to date. -/
def State.Reckoned (s : State) : Prop := s.esu.missing = !s.missingStarts.isEmpty

theorem State.reckonMissing_reckoned : s.reckonMissing.Reckoned := by
  rw [State.Reckoned, State.reckonMissing_missing, State.reckonMissing_missingStarts]

theorem State.startWait_openWith_acts (h : s.esu.missing = false) (q : QueuesRegion) (swept : List Nomination)
    (gap : Option GapRecord) (x : Int) (flags : IntervalFlags) (current : Option Nat) :
    ((s.startWait q swept gap).openWith x flags current).acts =
      s.acts ++ missingActs ((s.startWait q swept gap).openWith x flags current).esu.missing :=
  State.reckonMissing_acts h

theorem State.ordersReckoned_unreckoned (h : s.esu.missing = false) : s.ordersReckoned.esu.missing = false := by
  rw [State.ordersReckoned_esu]; exact h

theorem State.restartOpens_acts (h : s.esu.missing = false) (gap : Option GapRecord) :
    (s.restartOpens gap).acts = s.acts ++ missingActs (s.restartOpens gap).esu.missing := by
  rw [← State.ordersReckoned_acts (s := s)]
  exact State.startWait_openWith_acts (State.ordersReckoned_unreckoned h) _ _ _ _ _ _

theorem State.setInterval_reckoned_acts (h : s.esu.missing = false) (q : QueuesRegion) (swept : List Nomination)
    (gap : Option GapRecord) (iv : OpenInterval) : ((s.startWait q swept gap).setInterval iv).reckonMissing.acts =
      s.acts ++ missingActs ((s.startWait q swept gap).setInterval iv).reckonMissing.esu.missing := by
  have unset : ((s.startWait q swept gap).setInterval iv).esu.missing = false := by rw [State.setInterval_esu]; exact h
  rw [State.reckonMissing_acts unset, State.setInterval_acts]
  rfl

theorem State.restartContinues_acts (h : s.esu.missing = false) (iv : OpenInterval) :
    (s.restartContinues iv).acts = s.acts ++ missingActs (s.restartContinues iv).esu.missing := by
  rw [← State.ordersReckoned_acts (s := s)]
  exact State.setInterval_reckoned_acts (State.ordersReckoned_unreckoned h) _ _ _ _

/-! ### The clock INVALID (R105 ii, R117) -/

/-- The record of a stored interval closed with length 0 (R117). -/
def OpenInterval.closedUnknown (iv : OpenInterval) (current : Option Nat) : GapRecord :=
  { start := iv.start, length := 0, nominated := current, computed := iv.computed, curtailed := iv.curtailed,
    minLimit := iv.minLimit, flags := { timeStep := true, powerGap := true, steamOver := iv.flags.steamOver },
    reference := iv.reference, estimated := true }

/-- The acts of a record that joins a queue of `places` records. -/
def overrunActs (places : Nat) : List ConditionAct :=
  if 192 ≤ places then [.report { cls := .settlementOverrun, source := 1 }] else []

/-- The QUEUES contents on the grid. -/
def State.gridQueues (s : State) : QueuesRegion :=
  { s.que with nominations := s.que.nominations.filter fun n => s.isBoundary n.start, swept := [] }

theorem State.scheduleRestartInvalid_shut (h : s.que.interval = none) :
    s.scheduleRestartInvalid = (s.setQueues s.gridQueues).publishLimit := by
  unfold State.scheduleRestartInvalid
  change State.publishLimit (match (s.setQueues s.gridQueues).que.interval with | none => _ | some _ => _) = _
  have shut : (s.setQueues s.gridQueues).que.interval = none := by rw [State.setQueues_que]; exact h
  rw [shut]
  rfl

theorem State.scheduleRestartInvalid_open {iv : OpenInterval} (h : s.que.interval = some iv) :
    s.scheduleRestartInvalid = (((s.setQueues s.gridQueues).queueSettlement (settlementRecord iv.start 0 s.que.current
      iv.computed none iv.curtailed iv.minLimit { iv.flags with powerGap := true, timeStep := true })).withoutInterval
      ).publishLimit := by
  unfold State.scheduleRestartInvalid
  change State.publishLimit (match (s.setQueues s.gridQueues).que.interval with | none => _ | some _ => _) = _
  have held : (s.setQueues s.gridQueues).que.interval = some iv := by rw [State.setQueues_que]; exact h
  have current : (s.setQueues s.gridQueues).que.current = s.que.current := by rw [State.setQueues_que]; rfl
  rw [held]
  exact congrArg (fun c => (((s.setQueues s.gridQueues).queueSettlement (settlementRecord iv.start 0 c iv.computed none
    iv.curtailed iv.minLimit { iv.flags with powerGap := true, timeStep := true })).withoutInterval).publishLimit) current

/-- Without an interval a publication only works out the limit (R101). -/
theorem State.publishLimit_of_shut (h : s.que.interval = none) :
    s.publishLimit = { s with esu := { s.esu with effLimit := s.limitNow } } := by
  unfold State.publishLimit
  dsimp only
  rw [h]

theorem State.scheduleRestartInvalid_shut_que (h : s.que.interval = none) : s.scheduleRestartInvalid.que = s.gridQueues := by
  have shut : (s.setQueues s.gridQueues).que.interval = none := by rw [State.setQueues_que]; exact h
  rw [State.scheduleRestartInvalid_shut h, State.publishLimit_of_shut shut]
  exact State.setQueues_que _

theorem State.scheduleRestartInvalid_open_que {iv : OpenInterval} (h : s.que.interval = some iv) :
    s.scheduleRestartInvalid.que =
      { s.gridQueues with
        interval := none
        current := none
        settlements := joinedBy s.que.settlements ((iv.closedUnknown s.que.current).completed s.que.nextSettlement none)
        nextSettlement := s.que.nextSettlement + 1 } := by
  rw [State.scheduleRestartInvalid_open h, State.publishLimit_of_shut rfl]
  simp only [State.withoutInterval_que, State.queueSettlement_que, State.setQueues_que]
  rfl

theorem State.scheduleRestartInvalid_acts : s.scheduleRestartInvalid.acts =
    s.acts ++ if s.que.interval.isSome then overrunActs s.que.settlements.length else [] := by
  cases h : s.que.interval with
  | none =>
    rw [State.scheduleRestartInvalid_shut h, State.publishLimit_acts, State.setQueues_acts]
    exact (List.append_nil _).symm
  | some iv =>
    rw [State.scheduleRestartInvalid_open h, State.publishLimit_acts, State.withoutInterval_acts, State.queueSettlement_acts,
      State.setQueues_acts, State.setQueues_que]
    by_cases full : 192 ≤ s.que.settlements.length
    · simp [overrunActs, State.gridQueues, full, Nat.not_lt.mpr full]
    · simp [overrunActs, State.gridQueues, full, Nat.lt_of_not_le full]

/-- With the clock INVALID the ESU keeps its start values but the limit. -/
theorem State.scheduleRestartInvalid_esu : s.scheduleRestartInvalid.esu =
    { s.esu with
      effLimit := s.scheduleRestartInvalid.limitNow
      curtailedSince := s.scheduleRestartInvalid.esu.curtailedSince } := by
  cases h : s.que.interval with
  | none =>
    have shut : (s.setQueues s.gridQueues).que.interval = none := by rw [State.setQueues_que]; exact h
    rw [State.scheduleRestartInvalid_shut h, State.publishLimit_limitNow, State.publishLimit_of_shut shut]
    simp only [State.setQueues_esu]
  | some iv =>
    rw [State.scheduleRestartInvalid_open h, State.publishLimit_limitNow, State.publishLimit_of_shut rfl]
    simp only [State.withoutInterval_esu, State.queueSettlement_esu, State.setQueues_esu]

end Sys2Proof.Machine
end

section
/-! SUPPORT. The interval, the gap record and the queues a restart leaves, clause by clause (R105, R116, R117); with O21. -/

namespace Sys2Proof.Machine

variable {s t u r : State}

/-! ### From the ESU's part of the restart to its end -/

/-- After the ESU's part of a restart, which left `r`, the blocks that follow change of the schedule the bills alone. -/
structure ScheduleKept (r t : State) : Prop where
  que : t.que = { r.que with bills := t.que.bills, nextBill := t.que.nextBill }
  esu : t.esu = r.esu
  clock : t.clock = r.clock
  contract : t.cfg.contract = r.cfg.contract

theorem ScheduleKept.orders (kept : ScheduleKept r t) : t.que.orders = r.que.orders := by rw [kept.que]

theorem ScheduleKept.intervalSeconds (kept : ScheduleKept r t) : t.cfg.intervalSeconds = r.cfg.intervalSeconds := by
  rw [ConfigRegion.intervalSeconds, kept.contract, ConfigRegion.intervalSeconds]

theorem ScheduleKept.limitNow (kept : ScheduleKept r t) : t.limitNow = r.limitNow := by
  simp only [State.limitNow, State.ordersHeld, kept.orders, kept.contract]

theorem ScheduleKept.missingStarts (kept : ScheduleKept r t) : t.missingStarts = r.missingStarts := by
  have interval : t.que.interval = r.que.interval := by rw [kept.que]
  have current : t.que.current = r.que.current := by rw [kept.que]
  have named : t.nominated = r.nominated := by funext x; rw [State.nominated, State.nominated, kept.que]
  have gated : t.gatedStarts = r.gatedStarts := by
    unfold State.gatedStarts State.leadSeconds
    rw [kept.esu, kept.clock, kept.intervalSeconds, kept.contract]
  unfold State.missingStarts State.leadSeconds
  rw [interval, current, named, gated, kept.clock, kept.contract]

theorem State.LimitFollows.congr (h : r.LimitFollows) (orders : t.que.orders = r.que.orders)
    (limit : t.esu.effLimit = r.esu.effLimit) (contract : t.cfg.contract.limit = r.cfg.contract.limit) : t.LimitFollows where
  active m a := by rw [orders, limit, contract]; exact h.active m a
  nobody := by rw [orders, limit, contract]; exact h.nobody

theorem OrdersTaken.congr {orders : Vector (Option CurtailmentOrder) 8} {now contract : Nat}
    (h : OrdersTaken orders now contract r) (same : t.que.orders = r.que.orders)
    (limit : t.esu.effLimit = r.esu.effLimit) (figure : t.cfg.contract.limit = r.cfg.contract.limit) :
    OrdersTaken orders now contract t where
  left := by rw [same]; exact h.left
  ahead := by rw [same]; exact h.ahead
  removed := by rw [same]; exact h.removed
  inOrder q hq legal := by
    obtain ⟨u, v, start, chain, left, follows⟩ := h.inOrder q hq legal
    exact ⟨u, v, start, chain, same.trans left, follows.congr same limit figure⟩
  ordinary := by rw [same, limit]; exact h.ordinary
  alone := by rw [same, limit]; exact h.alone

/-! ### Boundaries -/

theorem FirstBoundaryAfter.unique {length : Nat} {offset x a b : Int} (ha : FirstBoundaryAfter length offset x a)
    (hb : FirstBoundaryAfter length offset x b) : a = b := by
  obtain ⟨a1, a2, a3⟩ := ha
  obtain ⟨b1, b2, b3⟩ := hb
  obtain ⟨k, apart⟩ := a3.iff_add.mp b3
  have near : |b - a| < length := abs_lt.mpr (by omega)
  have zero : b - a = 0 := Int.eq_zero_of_abs_lt_dvd ⟨k, apart⟩ near
  omega

theorem State.boundaryAfter_first (length : 0 < s.cfg.contract.length) (x : Int) :
    FirstBoundaryAfter s.cfg.intervalSeconds s.clock.offset x (s.boundaryAfter x) := by
  obtain ⟨grid, before, after⟩ := State.boundaryAtOrBefore_spec length x
  refine ⟨after, by unfold State.boundaryAfter; omega, ?_⟩
  exact grid.iff_add.mpr ⟨1, by unfold State.boundaryAfter; ring⟩

theorem State.boundaryAfter_of_grid {x : Int} (h : OnGrid s.cfg.intervalSeconds s.clock.offset x) :
    s.boundaryAfter x = x + s.cfg.intervalSeconds := by
  have whole : (x + 60 * s.clock.offset) % s.cfg.intervalSeconds = 0 := h
  rw [State.boundaryAfter, State.boundaryAtOrBefore, whole, Int.sub_zero]

theorem State.isBoundary_iff (x : Int) : s.isBoundary x = decide (OnGrid s.cfg.intervalSeconds s.clock.offset x) := by
  rw [State.isBoundary, Bool.beq_eq_decide_eq]

/-! ### The interval opened at a restart (R105, R106) -/

/-- Between the boundary at or before the present second and the next one, `next` has opened with the figures of an interval
after a power gap, and the nomination queue, read from the contents `q` found, has its later entries. -/
def State.OpensAtRestart (t : State) (q : QueuesRegion) (next : OpenInterval) : Prop :=
  OnGrid t.cfg.intervalSeconds t.clock.offset next.start ∧ next.start ≤ t.clock.reading ∧
    (t.clock.reading : Int) < t.esu.intervalEnd ∧ next.computed = 0 ∧ next.curtailed = 0 ∧
    next.minLimit = t.esu.effLimit ∧ next.flags = { timeStep := false, powerGap := true, steamOver := false } ∧
    next.reference = none ∧ next.estimated = true ∧ t.que.current = energyAt (q.swept ++ q.nominations) next.start ∧
    t.que.nominations = q.nominations.filter (fun n =>
      decide (OnGrid t.cfg.intervalSeconds t.clock.offset n.start ∧ next.start < n.start))

/-- The least limit of a stored interval `kept` once a restart has published the limit: exact where no order's time has
passed. -/
def State.LeastLimit (t : State) (q : QueuesRegion) (kept : OpenInterval) (limit : Nat) : Prop :=
  limit ≤ min kept.minLimit t.esu.effLimit ∧
    ((∀ (n : CurtailmentSlot) (o : CurtailmentOrder), q.orders[n] = some o → ¬ o.timePassed t.clock.reading) →
      limit = min kept.minLimit t.esu.effLimit)

/-- The entry of a boundary is among those on the grid. -/
theorem energyAt_grid {p : Int → Bool} {x : Int} (h : p x = true) (l : List Nomination) :
    energyAt (l.filter fun n => p n.start) x = energyAt l x := by
  rw [energyAt, energyAt, List.find?_filter]
  congr 2
  funext n
  by_cases same : (n.start : Int) = x
  · simp [same, h]
  · simp [same]

/-- The state a restart hands the ESU: start values, the oscillator at 0, and the meter not usable. -/
structure State.EsuAtStart (s : State) : Prop where
  esu : s.esu = .start
  osc : s.osc = 0
  meter : s.meterUsable = false

theorem State.EsuAtStart.freshInterval (start : s.EsuAtStart) (x : Int) :
    s.ordersReckoned.freshInterval x .afterGap =
      { start := x, reference := none, estimated := true, computed := 0, curtailed := 0,
        minLimit := s.ordersReckoned.esu.effLimit,
        flags := { timeStep := false, powerGap := true, steamOver := false } } := by
  have unmetered : s.ordersReckoned.meterUsable = false := by
    have points : s.ordersReckoned.points = s.points := State.ordersReckoned_changes .points (by decide)
    rw [← start.meter]
    unfold State.meterUsable State.usable State.slotOf
    rw [State.ordersReckoned_cfg, points]
  rw [State.freshInterval, unmetered]
  rfl

theorem State.restartOpens_changes (gap : Option GapRecord) :
    ChangesOnly [.que, .esu, .marks, .choices] s (s.restartOpens gap) :=
  (State.ordersReckoned_changes.trans ((State.esu_changes _).mono (by decide))).trans
    ((State.openWith_changes _ _ _).mono (by decide))

/-- What an opening at a restart leaves, read at its end. -/
theorem ScheduleKept.opens {gap : Option GapRecord} (kept : ScheduleKept (s.restartOpens gap) t) (start : s.EsuAtStart)
    (length : 0 < s.cfg.contract.length) : ∃ next w, t.que.interval = some next ∧ t.esu.wait = some w ∧
      next.start = s.restartStart ∧ w = s.restartWait w.swept gap ∧ t.OpensAtRestart s.que next ∧
      FirstBoundaryAfter t.cfg.intervalSeconds t.clock.offset next.start t.esu.intervalEnd ∧
      t.esu.curtailedSince = (if t.esu.effLimit < t.cfg.contract.limit then some 0 else none) := by
  have que := kept.que
  rw [State.restartOpens_que, start.freshInterval] at que
  obtain ⟨m, esu⟩ := State.restartOpens_esu (s := s) gap
  rw [← kept.esu] at esu
  have clock : t.clock = s.clock := kept.clock.trans (State.restartOpens_changes gap .clock (by decide))
  have contract : t.cfg.contract = s.cfg.contract :=
    kept.contract.trans (congrArg _ (State.restartOpens_changes gap .cfg (by decide)))
  have seconds : t.cfg.intervalSeconds = s.cfg.intervalSeconds := congrArg (60 * ·.length) contract
  obtain ⟨grid, before, after⟩ := State.boundaryAtOrBefore_spec length s.clock.reading
  have finish : t.esu.intervalEnd = s.boundaryAfter s.restartStart := by rw [esu]
  have limit : t.esu.effLimit = s.ordersReckoned.esu.effLimit := by rw [esu]
  have first := State.boundaryAfter_first length s.restartStart
  have current : t.que.current = energyAt s.restartPool s.restartStart := by rw [que]
  refine ⟨_, _, by rw [que], by rw [esu], rfl, rfl, ?_, by rw [seconds, clock, finish]; exact first, ?_⟩
  · refine ⟨by rw [seconds, clock]; exact grid, by rw [clock]; exact before, ?_, rfl, rfl, limit.symm, rfl, rfl, rfl, ?_, ?_⟩
    · rw [clock, finish, State.boundaryAfter_of_grid (x := s.restartStart) grid]; exact after
    · rw [current]
      exact energyAt_grid (by rw [State.isBoundary_iff]; exact decide_eq_true grid) _
    · rw [que, seconds, clock]
      simp only [State.isBoundary_iff, Bool.decide_and]
  · rw [limit, contract, esu, start.osc]

/-! ### The gap record (R116 ii) -/

theorem energiesFound_eq (current : Option Nat) (l : List Nomination) : energiesFound current l =
    if current = none ∧ l = [] then none else some (current.getD 0 + (l.map (·.energy)).sum) := by
  cases current <;> cases l <;> simp [energiesFound]

/-- The record a restart holds for a stored interval that ended in the outage, up to the start of the next one. -/
def State.GapHeld (t : State) (q : QueuesRegion) (iv next : OpenInterval) (g : GapRecord) : Prop :=
  g.start = iv.start ∧ g.length = (next.start - iv.start).toNat ∧ g.computed = iv.computed ∧
    g.flags = { iv.flags with powerGap := true } ∧ g.reference = iv.reference ∧ g.estimated = iv.estimated ∧
    g.curtailed = min iv.curtailed g.length ∧ t.LeastLimit q iv g.minLimit ∧
    let covered := (q.swept ++ q.nominations).filter fun n =>
      decide (OnGrid t.cfg.intervalSeconds t.clock.offset n.start ∧ iv.start < n.start ∧ n.start < next.start)
    g.nominated = (if q.current = none ∧ covered = [] then none
      else some (q.current.getD 0 + (covered.map (·.energy)).sum))

/-- The stored interval goes on (R116 i). -/
def State.Continues (t : State) (q : QueuesRegion) (iv next : OpenInterval) : Prop :=
  next.start = iv.start ∧ next.computed = iv.computed ∧ next.curtailed = iv.curtailed ∧
    next.reference = iv.reference ∧ next.estimated = iv.estimated ∧
    next.flags = { iv.flags with powerGap := true } ∧ t.LeastLimit q iv next.minLimit ∧
    t.que.nominations = q.nominations.filter (fun n =>
      decide (OnGrid t.cfg.intervalSeconds t.clock.offset n.start))

theorem State.gapRecord_held {iv kept next : OpenInterval} {l : Nat} (same : kept = { iv with minLimit := l })
    (start : next.start = s.restartStart) (least : t.LeastLimit s.que iv l) (clock : t.clock = s.clock)
    (seconds : t.cfg.intervalSeconds = s.cfg.intervalSeconds) :
    t.GapHeld s.que iv next (s.ordersReckoned.gapRecord kept s.restartPool s.restartStart) := by
  subst same
  refine ⟨rfl, by rw [start]; rfl, rfl, rfl, rfl, rfl, rfl, least, ?_⟩
  have current : s.ordersReckoned.que.current = s.que.current := by rw [State.ordersReckoned_que]
  have covered : (s.restartPool.filter fun n => decide (iv.start < n.start ∧ (n.start : Int) < s.restartStart)) =
      (s.que.swept ++ s.que.nominations).filter fun n =>
        decide (OnGrid t.cfg.intervalSeconds t.clock.offset n.start ∧ iv.start < n.start ∧ n.start < next.start) := by
    rw [State.restartPool, List.filter_filter, seconds, clock, start]
    simp only [State.isBoundary_iff, Bool.decide_and, Bool.and_comm]
  rw [← covered, ← current]
  exact energiesFound_eq _ _

theorem State.ordersReckoned_least {iv : OpenInterval} (start : s.EsuAtStart) (h : s.que.interval = some iv)
    (clock : t.clock = s.clock) (limit : t.esu.effLimit = s.ordersReckoned.esu.effLimit) :
    ∃ l, s.ordersReckoned.que.interval = some { iv with minLimit := l } ∧ t.LeastLimit s.que iv l := by
  obtain ⟨l, held, least, exact'⟩ := State.ordersReckoned_open (by rw [start.esu]; rfl) h
  rw [← limit] at least exact'
  exact ⟨l, held, least, fun none => exact' fun n o ho => by rw [← clock]; exact none n o ho⟩

/-- What a restart that continues the stored interval leaves, read at its end. -/
theorem ScheduleKept.continues {iv : OpenInterval} {l : Nat}
    (kept : ScheduleKept (s.restartContinues { iv with minLimit := l }) t) (start : s.EsuAtStart)
    (h : s.que.interval = some iv) (least : t.LeastLimit s.que iv l) (length : 0 < s.cfg.contract.length)
    (clock : t.clock = s.clock) (contract : t.cfg.contract = s.cfg.contract) :
    ∃ next w, t.que.interval = some next ∧ t.esu.wait = some w ∧ w = s.restartWait w.swept none ∧
      t.Continues s.que iv next ∧ t.que.current = s.que.current ∧
      FirstBoundaryAfter t.cfg.intervalSeconds t.clock.offset iv.start t.esu.intervalEnd ∧
      t.esu.curtailedSince = (if t.esu.effLimit < t.cfg.contract.limit then some 0 else none) := by
  have que := kept.que
  rw [State.restartContinues_que, State.ordersReckoned_que] at que
  obtain ⟨m, esu⟩ := State.restartContinues_esu (s := s) { iv with minLimit := l }
  rw [← kept.esu] at esu
  have seconds : t.cfg.intervalSeconds = s.cfg.intervalSeconds := congrArg (60 * ·.length) contract
  have limit : t.esu.effLimit = s.ordersReckoned.esu.effLimit := by rw [esu]
  have finish : t.esu.intervalEnd = s.boundaryAfter iv.start := by rw [esu, State.ordersReckoned_esu, h]; rfl
  have opened : t.que.interval =
      some { iv with minLimit := l, flags := { iv.flags with powerGap := true } } := by rw [que]
  have waits : t.esu.wait = some (s.restartWait s.que.swept none) := by rw [esu]
  refine ⟨_, _, opened, waits, rfl, ⟨rfl, rfl, rfl, rfl, rfl, rfl, least, ?_⟩, by rw [que], ?_, ?_⟩
  · rw [que, seconds, clock]
    simp only [State.isBoundary_iff]
  · rw [seconds, clock, finish]
    exact State.boundaryAfter_first length _
  · rw [limit, contract, esu]
    dsimp only
    rw [State.ordersReckoned_since (by rw [start.esu]; rfl) h, start.osc]

/-! ### The outcomes together -/

theorem State.restartContinues_changes (iv : OpenInterval) :
    ChangesOnly [.que, .esu, .marks, .choices] s (s.restartContinues iv) :=
  ((State.ordersReckoned_changes.trans ((State.esu_changes _).mono (by decide))).trans
    ((State.setInterval_changes _).mono (by decide))).trans (State.reckonMissing_changes.mono (by decide))

/-- With the clock VALID a restart opens an interval or continues the stored one (R105 i). -/
theorem State.scheduleRestartValid_outcome (start : s.EsuAtStart) :
    (∃ gap, s.scheduleRestartValid = s.restartOpens gap) ∨ ∃ iv, s.scheduleRestartValid = s.restartContinues iv := by
  cases h : s.que.interval with
  | none => exact .inl ⟨_, State.scheduleRestartValid_shut h⟩
  | some iv =>
    obtain ⟨l, held, -⟩ := State.ordersReckoned_least (t := s.ordersReckoned) start h State.ordersReckoned_clock rfl
    by_cases ended : s.boundaryAfter iv.start ≤ s.clock.reading
    · exact .inl ⟨_, State.scheduleRestartValid_ended h held ended⟩
    · exact .inr ⟨_, State.scheduleRestartValid_continued h held (Int.not_le.mp ended)⟩

/-- What every restart with the clock VALID leaves of the orders, the limit and the settlement queue. -/
structure State.ScheduleTaken (s r : State) : Prop where
  clock : r.clock = s.clock
  cfg : r.cfg = s.cfg
  orders : r.que.orders = s.ordersReckoned.que.orders
  limit : r.esu.effLimit = s.ordersReckoned.esu.effLimit
  last : r.esu.lastReading = none
  settlements : r.que.settlements = s.que.settlements ∧ r.que.nextSettlement = s.que.nextSettlement
  reckoned : r.Reckoned
  acts : r.acts = s.acts ++ missingActs r.esu.missing

theorem State.scheduleRestartValid_taken (start : s.EsuAtStart) : s.ScheduleTaken s.scheduleRestartValid := by
  have unset : s.esu.missing = false := by rw [start.esu]; rfl
  obtain ⟨gap, eq⟩ | ⟨iv, eq⟩ := State.scheduleRestartValid_outcome start
  · obtain ⟨m, esu⟩ := State.restartOpens_esu (s := s) gap
    have settled := State.restartOpens_que (s := s) gap
    rw [State.ordersReckoned_que] at settled
    rw [eq]
    exact ⟨State.restartOpens_changes gap .clock (by decide), State.restartOpens_changes gap .cfg (by decide),
      by rw [State.restartOpens_que], by rw [esu], by rw [esu, start.esu]; rfl, ⟨by rw [settled], by rw [settled]⟩,
      State.reckonMissing_reckoned, State.restartOpens_acts unset gap⟩
  · obtain ⟨m, esu⟩ := State.restartContinues_esu (s := s) iv
    have settled := State.restartContinues_que (s := s) iv
    rw [State.ordersReckoned_que] at settled
    rw [eq]
    exact ⟨State.restartContinues_changes iv .clock (by decide), State.restartContinues_changes iv .cfg (by decide),
      by rw [State.restartContinues_que], by rw [esu], by rw [esu, State.ordersReckoned_esu, start.esu]; rfl,
      ⟨by rw [settled], by rw [settled]⟩, State.reckonMissing_reckoned, State.restartContinues_acts unset iv⟩

theorem State.ScheduleTaken.limitNow (taken : s.ScheduleTaken r) : r.esu.effLimit = r.limitNow := by
  have cfg : r.cfg = s.ordersReckoned.cfg := taken.cfg.trans State.ordersReckoned_cfg.symm
  rw [taken.limit, State.ordersReckoned_limitNow]
  simp only [State.limitNow, State.ordersHeld, taken.orders, cfg]

/-- What every restart leaves of the ESU's figures. -/
structure State.ScheduleReckoned (r : State) : Prop where
  limit : r.esu.effLimit = r.limitNow
  last : r.esu.lastReading = none
  missing : r.Reckoned

theorem State.scheduleRestart_reckoned (start : s.EsuAtStart) : s.scheduleRestart.ScheduleReckoned := by
  unfold State.scheduleRestart
  split
  · have taken := State.scheduleRestartValid_taken start
    exact ⟨taken.limitNow, taken.last, taken.reckoned⟩
  · have esu := State.scheduleRestartInvalid_esu (s := s)
    have shut : s.scheduleRestartInvalid.que.interval = none := by
      cases h : s.que.interval with
      | none => rw [State.scheduleRestartInvalid_shut_que h]; exact h
      | some iv => rw [State.scheduleRestartInvalid_open_que h]
    refine ⟨by rw [esu], by rw [esu, start.esu]; rfl, ?_⟩
    rw [State.Reckoned, esu, start.esu, State.missingStarts, shut]
    rfl

/-- The interval after a restart with the clock VALID (R105 i, R116). -/
theorem ScheduleKept.interval (kept : ScheduleKept s.scheduleRestart t) (start : s.EsuAtStart)
    (valid : s.clock.valid = true) (length : 0 < s.cfg.contract.length) : ∃ next w, t.que.interval = some next ∧
      t.esu.wait = some w ∧ w.due = 60 ∧ w.stored = s.que.interval ∧ w.storedCurrent = s.que.current ∧
      FirstBoundaryAfter t.cfg.intervalSeconds t.clock.offset next.start t.esu.intervalEnd ∧
      t.esu.curtailedSince = (if t.esu.effLimit < t.cfg.contract.limit then some 0 else none) ∧
      (s.que.interval = none → t.OpensAtRestart s.que next ∧ w.gap = none) ∧
      ∀ iv last, s.que.interval = some iv →
        FirstBoundaryAfter t.cfg.intervalSeconds t.clock.offset iv.start last →
        ((t.clock.reading : Int) < last → w.gap = none ∧ t.esu.intervalEnd = last ∧ t.que.current = s.que.current ∧
          t.Continues s.que iv next) ∧
        (last ≤ t.clock.reading → t.OpensAtRestart s.que next ∧ ∃ g, w.gap = some g ∧ t.GapHeld s.que iv next g) := by
  rw [State.scheduleRestart, if_pos valid] at kept
  have taken := State.scheduleRestartValid_taken start
  have clock : t.clock = s.clock := kept.clock.trans taken.clock
  have contract : t.cfg.contract = s.cfg.contract := kept.contract.trans (by rw [taken.cfg])
  have seconds : t.cfg.intervalSeconds = s.cfg.intervalSeconds := congrArg (60 * ·.length) contract
  have limit : t.esu.effLimit = s.ordersReckoned.esu.effLimit := by rw [kept.esu]; exact taken.limit
  have due {swept : List Nomination} {gap : Option GapRecord} : (s.restartWait swept gap).due = 60 := by
    rw [State.restartWait, start.osc]; rfl
  cases h : s.que.interval with
  | none =>
    rw [State.scheduleRestartValid_shut h] at kept
    obtain ⟨next, w, opened, waits, -, eq, opens, first, since⟩ := kept.opens start length
    exact ⟨next, w, opened, waits, eq ▸ due, eq ▸ h, eq ▸ rfl, first, since, fun _ => ⟨opens, eq ▸ rfl⟩, nofun⟩
  | some iv =>
    obtain ⟨l, held, least⟩ := State.ordersReckoned_least (t := t) start h clock limit
    have finish := State.boundaryAfter_first length iv.start
    rw [← seconds, ← clock] at finish
    by_cases ended : s.boundaryAfter iv.start ≤ s.clock.reading
    · rw [State.scheduleRestartValid_ended h held ended] at kept
      obtain ⟨next, w, opened, waits, begun, eq, opens, first, since⟩ := kept.opens start length
      refine ⟨next, w, opened, waits, eq ▸ due, eq ▸ h, eq ▸ rfl, first, since, nofun, ?_⟩
      rintro _ last ⟨⟩ isLast
      obtain rfl := finish.unique isLast
      refine ⟨fun runs => absurd ended (by rw [← clock]; exact Int.not_le.mpr runs), fun _ => ⟨opens, _, congrArg MeterWait.gap eq, ?_⟩⟩
      exact State.gapRecord_held rfl begun least clock seconds
    · rw [State.scheduleRestartValid_continued h held (Int.not_le.mp ended)] at kept
      obtain ⟨next, w, opened, waits, eq, goes, current, first, since⟩ := kept.continues start h least length clock contract
      refine ⟨next, w, opened, waits, eq ▸ due, eq ▸ h, eq ▸ rfl, by rw [goes.1]; exact first, since, nofun, ?_⟩
      rintro _ last ⟨⟩ isLast
      exact ⟨fun _ => ⟨eq ▸ rfl, first.unique isLast, current, goes⟩,
        fun past => absurd (finish.unique isLast ▸ past) (by rw [clock]; exact ended)⟩

/-- The orders, the limit and the settlement queue after a restart with the clock VALID (R105 i). -/
theorem ScheduleKept.orders_taken (kept : ScheduleKept s.scheduleRestart t) (start : s.EsuAtStart)
    (valid : s.clock.valid = true) : t.que.settlements = s.que.settlements ∧ t.que.nextSettlement = s.que.nextSettlement ∧
      OrdersTaken s.que.orders t.clock.reading t.cfg.contract.limit t ∧
      ((∀ (n : CurtailmentSlot) (o : CurtailmentOrder), s.que.orders[n] = some o → ¬ o.timePassed t.clock.reading) →
        t.que.orders = s.que.orders) := by
  rw [State.scheduleRestart, if_pos valid] at kept
  have taken := State.scheduleRestartValid_taken start
  have clock : t.clock = s.clock := kept.clock.trans taken.clock
  have contract : t.cfg.contract = s.cfg.contract := kept.contract.trans (by rw [taken.cfg])
  have orders : t.que.orders = s.ordersReckoned.que.orders := kept.orders.trans taken.orders
  have limit : t.esu.effLimit = s.ordersReckoned.esu.effLimit := by rw [kept.esu]; exact taken.limit
  refine ⟨by rw [kept.que]; exact taken.settlements.1, by rw [kept.que]; exact taken.settlements.2, ?_, fun none => ?_⟩
  · rw [clock, contract]
    exact (State.ordersReckoned_taken valid).congr orders limit (by rw [contract, State.ordersReckoned_cfg])
  · rw [orders]
    exact State.ordersReckoned_orders fun n o ho => by rw [← clock]; exact none n o ho

/-- The schedule after a restart with the clock INVALID (R105 ii, R117). -/
theorem ScheduleKept.invalid (kept : ScheduleKept s.scheduleRestart t) (start : s.EsuAtStart)
    (invalid : s.clock.valid = false) : t.que.interval = none ∧ t.esu.wait = none ∧ t.que.orders = s.que.orders ∧
      t.que.nominations = s.que.nominations.filter (fun n =>
        decide (OnGrid t.cfg.intervalSeconds t.clock.offset n.start)) ∧
      (s.que.interval = none → t.que.settlements = s.que.settlements ∧ t.que.nextSettlement = s.que.nextSettlement) ∧
      ∀ iv, s.que.interval = some iv →
        t.que.settlements =
          joinedBy s.que.settlements ((iv.closedUnknown s.que.current).completed s.que.nextSettlement none) ∧
        t.que.nextSettlement = s.que.nextSettlement + 1 ∧ t.que.current = none := by
  have clock : t.clock = s.clock := kept.clock.trans (State.scheduleRestart_changes .clock (by decide))
  have contract : t.cfg.contract = s.cfg.contract :=
    kept.contract.trans (congrArg _ (State.scheduleRestart_changes .cfg (by decide)))
  have seconds : t.cfg.intervalSeconds = s.cfg.intervalSeconds := congrArg (60 * ·.length) contract
  have grid : s.gridQueues.nominations = s.que.nominations.filter (fun n =>
      decide (OnGrid t.cfg.intervalSeconds t.clock.offset n.start)) := by
    rw [State.gridQueues, seconds, clock]
    simp only [State.isBoundary_iff]
  have shut : ¬ s.clock.valid = true := by rw [invalid]; decide
  rw [State.scheduleRestart, if_neg shut] at kept
  have que := kept.que
  have wait : t.esu.wait = none := by rw [kept.esu, State.scheduleRestartInvalid_esu, start.esu]; rfl
  rw [← grid]
  cases h : s.que.interval with
  | none =>
    rw [State.scheduleRestartInvalid_shut_que h] at que
    exact ⟨by rw [que]; exact h, wait, by rw [que]; rfl, by rw [que], fun _ => ⟨by rw [que]; rfl, by rw [que]; rfl⟩, nofun⟩
  | some iv =>
    rw [State.scheduleRestartInvalid_open_que h] at que
    refine ⟨by rw [que], wait, by rw [que]; rfl, by rw [que], nofun, ?_⟩
    rintro _ ⟨⟩
    exact ⟨by rw [que], by rw [que], by rw [que]⟩

/-- The acts the ESU tells at a restart. -/
theorem State.scheduleRestart_acts (start : s.EsuAtStart) : s.scheduleRestart.acts = s.acts ++
    if s.clock.valid then missingActs s.scheduleRestart.esu.missing
    else if s.que.interval.isSome then overrunActs s.que.settlements.length else [] := by
  by_cases valid : s.clock.valid = true
  · rw [State.scheduleRestart, if_pos valid, if_pos valid, (State.scheduleRestartValid_taken start).acts]
  · rw [State.scheduleRestart, if_neg valid, if_neg valid, State.scheduleRestartInvalid_acts]

end Sys2Proof.Machine
end

section
/-! SUPPORT. A run of issuing: the bills formed, the ledgers and the marker it leaves (R148, R149); with O21. -/

namespace Sys2Proof.Machine

variable {s t u : State} {k : Substation} {x : AccumulatorSet}

/-! ### The sets that wait (R148) -/

/-- The closing sets, substation by substation. -/
def State.closing (s : State) (k : Substation) : Option AccumulatorSet := (s.acc.ledgers[k]).closing

theorem State.firstClosing_eq : s.firstClosing = (heldBy s.closing).head? := List.head?_filter.symm

theorem mem_heldBy {closing : Substation → Option AccumulatorSet} : k ∈ heldBy closing ↔ (closing k).isSome = true := by
  simp [heldBy]

theorem heldBy_nodup (closing : Substation → Option AccumulatorSet) : (heldBy closing).Nodup :=
  (List.nodup_finRange 48).filter _

/-- Without its first substation the rest wait. -/
theorem heldBy_rest {closing rest : Substation → Option AccumulatorSet} {l : List Substation}
    (h : heldBy closing = k :: l) (taken : ∀ j, rest j = if j = k then none else closing j) : heldBy rest = l := by
  have parts : heldBy rest = (heldBy closing).filter fun j => decide (j ≠ k) := by
    rw [heldBy, heldBy, List.filter_filter]
    refine List.filter_congr fun j _ => ?_
    rw [taken]
    by_cases same : j = k <;> simp [same]
  have nodup := h ▸ heldBy_nodup closing
  have out : k ∉ l := (List.nodup_cons.mp nodup).1
  rw [parts, h, List.filter_cons_of_neg (by simp)]
  exact List.filter_eq_self.mpr fun j mem => decide_eq_true fun same => out (same ▸ mem)

/-! ### One bill -/

theorem getElem_set_fin {α : Type} {n : Nat} (v : Vector α n) (i j : Fin n) (a : α) :
    (v.set i a)[j] = if j = i then a else v[j] := by
  rw [Fin.getElem_fin, Vector.getElem_set, Fin.getElem_fin]
  exact if_congr (by rw [Fin.ext_iff, eq_comm]) rfl rfl

/-- A ledger whose closing set has been issued. -/
def Ledger.billed (l : Ledger) : Ledger :=
  { l with closing := none, issued := l.issued + BitVec.ofInt 64 (l.closing.elim 0 AccumulatorSet.net) }

/-- The figures of a bill are those of a set (R148). -/
structure Bill.FormedFrom (b : Bill) (x : AccumulatorSet) : Prop where
  contents : b.bands = x.bands ∧ b.rejected = x.rejected ∧ b.standing = x.standing ∧ b.flags = x.flags ∧
    b.first = x.first ∧ b.total = (x.bands.toList.map (·.charge)).sum + x.standing
  times : (∀ p ∈ x.last, b.last = p) ∧ (∀ i ∈ x.start, b.start = i) ∧ ∀ i ∈ x.finish, b.finish = i

theorem State.formBill_formed (k : Substation) (x : AccumulatorSet) : (s.formBill k x).FormedFrom x where
  contents := ⟨rfl, rfl, rfl, rfl, rfl, rfl⟩
  times := ⟨fun _ h => by rw [State.formBill, h]; rfl, fun _ h => by rw [State.formBill, h]; rfl,
    fun _ h => by rw [State.formBill, h]; rfl⟩

theorem State.formBill_account {c : SubstationConfig} (h : s.cfg.substations[k] = some c) :
    (s.formBill k x).account = c.account := by
  simp only [State.formBill, State.billAccount, h]

theorem State.afterIssue_que : s.afterIssue.que = s.que := State.afterIssue_changes .que (by decide)

theorem State.afterIssue_acc : s.afterIssue.acc = s.acc := State.afterIssue_changes .acc (by decide)

theorem State.afterIssue_of_unmarked (h : s.bu.queueFull = false) : s.afterIssue = s :=
  if_neg fun full => by simp [h] at full

theorem State.issueBill_que : (s.issueBill k x).que =
    { s.que with bills := s.que.bills ++ [s.formBill k x], nextBill := s.que.nextBill + 1 } := by
  unfold State.issueBill
  rw [State.afterIssue_que]
  dsimp only
  split <;> rfl

theorem State.issueBill_acc (h : s.closing k = some x) : (s.issueBill k x).acc =
    { s.acc with ledgers := s.acc.ledgers.set k (s.acc.ledgers[k]).billed } := by
  have set : (s.acc.ledgers[k]).closing = some x := h
  unfold State.issueBill
  rw [State.afterIssue_acc, Ledger.billed, set]
  dsimp only
  split <;> rfl

theorem State.issueBill_unmarked (h : s.bu.queueFull = false) :
    (s.issueBill k x).bu = s.bu ∧ (s.issueBill k x).acts = s.acts := by
  unfold State.issueBill
  dsimp only
  rw [State.afterIssue_of_unmarked (by split <;> exact h)]
  split <;> exact ⟨rfl, rfl⟩

theorem State.issueBill_closing (h : s.closing k = some x) (j : Substation) :
    (s.issueBill k x).closing j = if j = k then none else s.closing j := by
  rw [State.closing, State.issueBill_acc h]
  dsimp only
  rw [getElem_set_fin]
  split <;> rfl

/-! ### A run of issuing -/

/-- A run of issuing between `s` and `t` has formed the bills `news`. -/
structure Issues (s t : State) (news : List Bill) : Prop where
  que : t.que = { s.que with bills := s.que.bills ++ news, nextBill := t.que.nextBill }
  who : news.map (·.substation) = billedNow s.que.bills s.closing
  numbers : news.map (·.sequence) = (List.range news.length).map fun i => s.que.nextBill + BitVec.ofNat 32 i
  next : t.que.nextBill = s.que.nextBill + BitVec.ofNat 32 news.length
  formed : ∀ b ∈ news, ∃ x, s.closing b.substation = some x ∧ b.FormedFrom x
  account : ∀ b ∈ news, ∀ c ∈ s.cfg.substations[b.substation], b.account = c.account
  acc : t.acc = { s.acc with ledgers := t.acc.ledgers }
  ledgers : ∀ k : Substation, t.acc.ledgers[k] =
    if k ∈ billedNow s.que.bills s.closing then (s.acc.ledgers[k]).billed else s.acc.ledgers[k]
  unmarked : s.bu.queueFull = false → t.bu = s.bu ∧ t.acts = s.acts

theorem Issues.nothing (h : billedNow s.que.bills s.closing = []) : Issues s s [] where
  que := by rw [List.append_nil]
  who := h.symm
  numbers := rfl
  next := (BitVec.add_zero _).symm
  formed := nofun
  account := nofun
  acc := rfl
  ledgers k := by rw [h, if_neg (List.not_mem_nil)]
  unmarked _ := ⟨rfl, rfl⟩

theorem State.issueBills_of_none (h : billedNow s.que.bills s.closing = []) : ∀ fuel, State.issueBills fuel s = s
  | 0 => rfl
  | fuel + 1 => by
    rw [State.issueBills]
    split
    next room =>
      have empty : heldBy s.closing = [] := by
        have open' : 96 - s.que.bills.length ≠ 0 := by unfold billPlaces at room; omega
        exact (List.take_eq_nil_iff.mp h).resolve_left open'
      have first : s.firstClosing = .none := by rw [State.firstClosing_eq, empty]; rfl
      rw [first]
    next => rfl

theorem billedNow_cons {closing : Substation → Option AccumulatorSet} {bills : List Bill} {l : List Substation}
    (h : heldBy closing = k :: l) (room : bills.length < 96) :
    billedNow bills closing = k :: l.take (96 - (bills.length + 1)) := by
  obtain ⟨n, left⟩ : ∃ n, 96 - bills.length = n + 1 := ⟨95 - bills.length, by omega⟩
  rw [billedNow, h, left, List.take_succ_cons]
  congr 2
  omega

theorem word_succ (w : Word) (i : Nat) : w + 1 + BitVec.ofNat 32 i = w + BitVec.ofNat 32 (i + 1) := by
  rw [BitVec.add_assoc, Nat.add_comm, BitVec.ofNat_add]
  rfl

theorem Issues.cons {l : List Substation} {news : List Bill} (held : heldBy s.closing = k :: l)
    (room : s.que.bills.length < 96) (set : s.closing k = some x) (h : Issues (s.issueBill k x) t news) :
    Issues s t (s.formBill k x :: news) := by
  have bills : (s.issueBill k x).que.bills = s.que.bills ++ [s.formBill k x] := by rw [State.issueBill_que]
  have number : (s.issueBill k x).que.nextBill = s.que.nextBill + 1 := by rw [State.issueBill_que]
  have cfg : (s.issueBill k x).cfg = s.cfg := State.issueBill_changes k x .cfg (by decide)
  have closing : (s.issueBill k x).closing = fun j => if j = k then .none else s.closing j :=
    funext (State.issueBill_closing set)
  have rest : billedNow (s.issueBill k x).que.bills (s.issueBill k x).closing = l.take (96 - (s.que.bills.length + 1)) := by
    rw [billedNow, heldBy_rest held fun j => congrFun closing j, bills, List.length_append, List.length_singleton]
  have now := billedNow_cons held room
  have out : k ∉ l.take (96 - (s.que.bills.length + 1)) := fun mem =>
    (List.nodup_cons.mp (held ▸ heldBy_nodup s.closing)).1 (List.mem_of_mem_take mem)
  refine ⟨?_, ?_, ?_, ?_, ?_, ?_, ?_, fun j => ?_, fun unmarked => ?_⟩
  · rw [h.que, State.issueBill_que, List.append_assoc]
    rfl
  · rw [List.map_cons, h.who, rest, now]
    rfl
  · rw [List.map_cons, h.numbers, number, List.length_cons, List.range_succ_eq_map, List.map_cons, List.map_map]
    congr 1
    · exact (BitVec.add_zero _).symm
    · refine List.map_congr_left fun i _ => ?_
      exact word_succ _ i
  · rw [h.next, number, List.length_cons, word_succ]
  · intro b mem
    rcases List.mem_cons.mp mem with rfl | later
    · exact ⟨x, set, State.formBill_formed k x⟩
    · obtain ⟨y, hy, formed⟩ := h.formed b later
      rw [closing] at hy
      dsimp only at hy
      split at hy
      · cases hy
      · exact ⟨y, hy, formed⟩
  · intro b mem c hc
    rcases List.mem_cons.mp mem with rfl | later
    · exact State.formBill_account hc
    · exact h.account b later c (by rw [cfg]; exact hc)
  · rw [h.acc, State.issueBill_acc set]
  · rw [h.ledgers j, rest, now, State.issueBill_acc set]
    dsimp only
    rw [getElem_set_fin]
    by_cases same : j = k
    · rw [same, if_neg out, if_pos rfl, if_pos (List.mem_cons_self)]
    · rw [if_neg same]
      exact if_congr (by rw [List.mem_cons, or_iff_right same]) rfl rfl
  · obtain ⟨bu, acts⟩ := State.issueBill_unmarked (k := k) (x := x) unmarked
    obtain ⟨bu', acts'⟩ := h.unmarked (by rw [bu]; exact unmarked)
    exact ⟨bu'.trans bu, acts'.trans acts⟩

/-- A run of issuing of enough steps (R148). -/
theorem State.issueBills_issues : ∀ (fuel : Nat) (s : State), (billedNow s.que.bills s.closing).length ≤ fuel →
    ∃ news, Issues s (State.issueBills fuel s) news := by
  intro fuel
  induction fuel with
  | zero =>
    intro s none
    exact ⟨[], .nothing (List.length_eq_zero_iff.mp (Nat.le_zero.mp none))⟩
  | succ fuel ih =>
    intro s enough
    by_cases room : s.que.bills.length < 96
    case neg =>
      have none : billedNow s.que.bills s.closing = [] := by
        rw [billedNow, Nat.sub_eq_zero_of_le (Nat.not_lt.mp room), List.take_zero]
      exact ⟨[], by rw [State.issueBills_of_none none]; exact .nothing none⟩
    cases held : heldBy s.closing with
    | nil =>
      have none : billedNow s.que.bills s.closing = [] := by rw [billedNow, held, List.take_nil]
      exact ⟨[], by rw [State.issueBills_of_none none]; exact .nothing none⟩
    | cons k l =>
      obtain ⟨x, set⟩ := Option.isSome_iff_exists.mp (mem_heldBy.mp (held ▸ List.mem_cons_self : k ∈ heldBy s.closing))
      have step : State.issueBills (fuel + 1) s = State.issueBills fuel (s.issueBill k x) := by
        have first : s.firstClosing = some k := by rw [State.firstClosing_eq, held]; rfl
        have waits : (s.acc.ledgers[k]).closing = some x := set
        rw [State.issueBills, if_pos (show s.que.bills.length < billPlaces from room), first]
        dsimp only
        rw [waits]
      obtain ⟨news, issues⟩ := ih (s.issueBill k x) (by
        have rest : heldBy (s.issueBill k x).closing = l := heldBy_rest held (State.issueBill_closing set)
        rw [billedNow_cons held room, List.length_cons] at enough
        rw [billedNow, rest, State.issueBill_que]
        dsimp only
        rw [List.length_append, List.length_singleton]
        omega)
      exact ⟨_, by rw [step]; exact issues.cons held room set⟩

/-- A run issues at most the 48 sets there are. -/
theorem State.runIssue_issues (s : State) : ∃ news, Issues s s.runIssue news := by
  refine State.issueBills_issues 48 s ?_
  calc (billedNow s.que.bills s.closing).length ≤ (heldBy s.closing).length := List.length_take_le' _ _
    _ ≤ (List.finRange 48).length := List.length_filter_le _ _
    _ = 48 := List.length_finRange

/-! ### What a run leaves waiting -/

/-- No bill can be issued: no set waits, or the queue is full. -/
def State.Exhausted (s : State) : Prop := s.firstClosing.isSome → 96 ≤ s.que.bills.length

theorem State.Exhausted.runIssue (h : s.Exhausted) : s.runIssue = s := by
  refine State.issueBills_of_none (List.eq_nil_iff_forall_not_mem.mpr fun k mem => ?_) 48
  have waits : s.firstClosing.isSome := by
    rw [State.firstClosing_eq]
    cases held : heldBy s.closing with
    | nil => rw [billedNow, held, List.take_nil] at mem; cases mem
    | cons j l => rfl
  rw [billedNow, Nat.sub_eq_zero_of_le (h waits), List.take_zero] at mem
  cases mem

theorem Issues.closing_after {news : List Bill} (h : Issues s t news) (k : Substation) :
    t.closing k = if k ∈ billedNow s.que.bills s.closing then none else s.closing k := by
  rw [State.closing, h.ledgers k]
  split <;> rfl

theorem Issues.exhausted {news : List Bill} (h : Issues s t news) : t.Exhausted := by
  intro waits
  rw [State.firstClosing_eq] at waits
  obtain ⟨k, hk⟩ := Option.isSome_iff_exists.mp waits
  have left := mem_heldBy.mp (List.mem_of_head? hk)
  rw [h.closing_after] at left
  have out : k ∉ billedNow s.que.bills s.closing := fun mem => by rw [if_pos mem] at left; cases left
  rw [if_neg out] at left
  have cut : 96 - s.que.bills.length < (heldBy s.closing).length := by
    by_contra all
    exact out (by rw [billedNow, List.take_of_length_le (Nat.not_lt.mp all)]; exact mem_heldBy.mpr left)
  have count : news.length = 96 - s.que.bills.length := by
    rw [← List.length_map (f := Bill.substation), h.who, billedNow, List.length_take, Nat.min_eq_left (Nat.le_of_lt cut)]
  rw [h.que]
  dsimp only
  rw [List.length_append, count]
  omega

/-- What the run leaves is what `BillsIssued` says, read later where the bills, the ledgers and the accounts still stand. -/
theorem Issues.billsIssued {news : List Bill} (h : Issues s t news) (bills : u.que.bills = t.que.bills)
    (next : u.que.nextBill = t.que.nextBill) (ledgers : u.acc.ledgers = t.acc.ledgers) (cfg : u.cfg = s.cfg) :
    BillsIssued s.que.bills s.que.nextBill s.acc.ledgers u s.closing := by
  have all : u.que.bills = s.que.bills ++ news := by rw [bills, h.que]
  have new : u.que.bills.drop s.que.bills.length = news := by rw [all, List.drop_left]
  have count : news.length = (billedNow s.que.bills s.closing).length := by rw [← h.who, List.length_map]
  have formed : ∀ b ∈ u.que.bills.drop s.que.bills.length, ∀ x ∈ s.closing b.substation, b.FormedFrom x := by
    intro b mem x hx
    obtain ⟨y, hy, is⟩ := h.formed b (by rwa [new] at mem)
    rw [Option.mem_def, hy] at hx
    cases hx
    exact is
  refine ⟨by rw [all, List.take_left], by rw [new]; exact h.who, by rw [new, ← count]; exact h.numbers,
    by rw [next, ← count]; exact h.next, fun b mem x hx => (formed b mem x hx).contents, ?_,
    fun b mem x hx => (formed b mem x hx).times, fun k => ?_, fun k => ?_⟩
  · rw [new, cfg]; exact h.account
  · rw [ledgers]; exact h.closing_after k
  · rw [ledgers, h.ledgers k]
    split
    · rfl
    · exact (BitVec.add_zero _).symm

end Sys2Proof.Machine
end

section
/-! SUPPORT. The closes, the issuing and the marker of BILL_QUEUE_FULL at a restart (R141, R144 to R149, R152); with O21. -/

namespace Sys2Proof.Machine

variable {s t u r : State} {k : Substation} {n : Nat} {finish : Int}

/-! ### The marker of BILL_QUEUE_FULL (R149) -/

/-- The marker is set only while a set waits before a full queue. -/
def State.MarkerKnown (s : State) : Prop := s.bu.queueFull = true → s.firstClosing.isSome ∧ 96 ≤ s.que.bills.length

/-- The acts with which BILL_QUEUE_FULL follows a marker that does not clear. -/
def fullActs (before after : Bool) : List ConditionAct :=
  if !before && after then [.raise { cls := .billQueueFull, source := 1 } .selfClearing] else []

/-- Between `s` and `t` bills were issued until none could be, and BILL_QUEUE_FULL followed. -/
structure FullReckoned (s t : State) : Prop where
  full : t.bu.queueFull = t.firstClosing.isSome
  exhausted : t.Exhausted
  stays : s.bu.queueFull = true → t.bu.queueFull = true
  acts : t.acts = s.acts ++ fullActs s.bu.queueFull t.bu.queueFull

theorem FullReckoned.known (h : FullReckoned s t) : t.MarkerKnown := fun marked => by
  have waits : t.firstClosing.isSome = true := by rw [← h.full]; exact marked
  exact ⟨waits, h.exhausted waits⟩

theorem FullReckoned.trans (h : FullReckoned s t) (k : FullReckoned t u) : FullReckoned s u where
  full := k.full
  exhausted := k.exhausted
  stays x := k.stays (h.stays x)
  acts := by
    rw [k.acts, h.acts, List.append_assoc]
    congr 1
    cases hs : s.bu.queueFull with
    | true => rw [h.stays hs, k.stays (h.stays hs)]; rfl
    | false =>
      cases ht : t.bu.queueFull with
      | true => rw [k.stays ht]; rfl
      | false => rfl

theorem State.evaluateQueueFull_que : s.evaluateQueueFull.que = s.que := State.evaluateQueueFull_changes .que (by decide)

theorem State.evaluateQueueFull_acc : s.evaluateQueueFull.acc = s.acc := State.evaluateQueueFull_changes .acc (by decide)

theorem State.evaluateQueueFull_cfg : s.evaluateQueueFull.cfg = s.cfg := State.evaluateQueueFull_changes .cfg (by decide)

theorem State.evaluateQueueFull_of_known (h : s.firstClosing.isSome → s.bu.queueFull = true) : s.evaluateQueueFull = s :=
  if_neg fun raises => raises.2 (h raises.1)

theorem State.runIssue_evaluate_reckoned (known : s.MarkerKnown) : FullReckoned s s.runIssue.evaluateQueueFull := by
  cases marked : s.bu.queueFull with
  | true =>
    obtain ⟨waits, full⟩ := known marked
    rw [State.Exhausted.runIssue fun _ => full, State.evaluateQueueFull_of_known fun _ => marked]
    exact ⟨marked.trans waits.symm, fun _ => full, id, by rw [marked]; exact (List.append_nil _).symm⟩
  | false =>
    obtain ⟨news, issues⟩ := s.runIssue_issues
    obtain ⟨bu, acts⟩ := issues.unmarked marked
    have unmarked : s.runIssue.bu.queueFull = false := by rw [bu]; exact marked
    by_cases waits : s.runIssue.firstClosing.isSome = true
    · have raises : s.runIssue.evaluateQueueFull =
          ({ s.runIssue with bu := { s.runIssue.bu with queueFull := true } } : State).tellRaise .billQueueFull 1 :=
        if_pos ⟨waits, by rw [unmarked]; decide⟩
      rw [raises]
      exact ⟨waits.symm, issues.exhausted, fun _ => rfl, by rw [marked, State.tellRaise_acts, ← acts]; rfl⟩
    · rw [State.evaluateQueueFull_of_known fun w => absurd w waits]
      refine ⟨unmarked.trans (Bool.eq_false_iff.mpr waits).symm, issues.exhausted, fun set => ?_, ?_⟩
      · rw [marked] at set; cases set
      · rw [acts, marked, unmarked]; exact (List.append_nil _).symm

/-! ### One close (R143 to R146) -/

theorem State.closePeriods_acc : (s.closePeriods n finish).acc =
    { s.acc with
      ledgers := Vector.ofFn fun k => s.closedLedger k n (finish - 60 * s.clock.offset)
      period := s.acc.period + n
      closeMark := some finish } := by
  unfold State.closePeriods
  dsimp only
  split <;> rfl

theorem State.closePeriods_cfg : (s.closePeriods n finish).cfg = s.takeStaged.cfg := by
  unfold State.closePeriods
  dsimp only
  split
  next same => exact same.symm
  next => rfl

theorem State.closePeriods_bu : (s.closePeriods n finish).bu = { s.bu with closedNow := true } := by
  unfold State.closePeriods
  dsimp only
  split <;> rfl

theorem State.closePeriods_acts : (s.closePeriods n finish).acts = s.acts := by
  unfold State.closePeriods
  dsimp only
  split <;> rfl

theorem State.closePeriods_que : (s.closePeriods n finish).que = s.que := State.closePeriods_changes n finish .que (by decide)

theorem State.closePeriods_ledger (k : Substation) : (s.closePeriods n finish).acc.ledgers[k] =
    s.closedLedger k n (finish - 60 * s.clock.offset) := by
  rw [State.closePeriods_acc]
  exact Vector.getElem_ofFn _

theorem State.closePeriods_closing : (s.closePeriods n finish).closing = fun k =>
    (s.closedLedger k n (finish - 60 * s.clock.offset)).closing := by
  funext k
  rw [State.closing, State.closePeriods_ledger]

/-- A close leaves the totals, and opens the next set. -/
theorem State.closedLedger_parts (k : Substation) (n : Nat) (second : Int) :
    (s.closedLedger k n second).booked = (s.acc.ledgers[k]).booked ∧
      (s.closedLedger k n second).issued = (s.acc.ledgers[k]).issued ∧
      (s.closedLedger k n second).current = .opened (some second) (s.acc.period + n) ∧
      ((s.closing k).isSome = true → (s.closedLedger k n second).closing.isSome = true) := by
  unfold State.closedLedger
  dsimp only
  split
  · exact ⟨rfl, rfl, rfl, fun _ => rfl⟩
  · exact ⟨rfl, rfl, rfl, id⟩

theorem State.firstClosing_isSome : s.firstClosing.isSome = true ↔ ∃ k, (s.closing k).isSome = true := by
  rw [State.firstClosing, List.find?_isSome]
  exact ⟨fun ⟨k, _, h⟩ => ⟨k, h⟩, fun ⟨k, h⟩ => ⟨k, List.mem_finRange k, h⟩⟩

theorem State.MarkerKnown.closePeriods (known : s.MarkerKnown) : (s.closePeriods n finish).MarkerKnown := fun marked => by
  rw [State.closePeriods_bu] at marked
  obtain ⟨waits, full⟩ := known marked
  obtain ⟨k, held⟩ := State.firstClosing_isSome.mp waits
  refine ⟨State.firstClosing_isSome.mpr ⟨k, ?_⟩, by rw [State.closePeriods_que]; exact full⟩
  rw [State.closePeriods_closing]
  exact (State.closedLedger_parts k n _).2.2.2 held

theorem State.closeWith_reckoned (known : s.MarkerKnown) : FullReckoned s (s.closeWith n finish) := by
  have h := State.runIssue_evaluate_reckoned (s := s.closePeriods n finish) known.closePeriods
  have bu : (s.closePeriods n finish).bu.queueFull = s.bu.queueFull := by rw [State.closePeriods_bu]
  exact ⟨h.full, h.exhausted, by rw [← bu]; exact h.stays, by rw [← bu, ← State.closePeriods_acts (s := s) (n := n) (finish := finish)]; exact h.acts⟩

/-! ### The books after a close -/

/-- From `r` to `t` nothing of the books has changed but the meters. -/
structure BooksKept (r t : State) : Prop where
  cfg : t.cfg = r.cfg
  acc : t.acc = { r.acc with meters := t.acc.meters }
  bills : t.que.bills = r.que.bills
  nextBill : t.que.nextBill = r.que.nextBill

theorem BooksKept.refl (s : State) : BooksKept s s := ⟨rfl, rfl, rfl, rfl⟩

theorem BooksKept.ledgers (kept : BooksKept r t) : t.acc.ledgers = r.acc.ledgers := by rw [kept.acc]

theorem BooksKept.of_evaluate : BooksKept s s.evaluateQueueFull :=
  ⟨State.evaluateQueueFull_cfg, by rw [State.evaluateQueueFull_acc], by rw [State.evaluateQueueFull_que],
    by rw [State.evaluateQueueFull_que]⟩

theorem BooksKept.trans (h : BooksKept s r) (k : BooksKept r t) : BooksKept s t :=
  ⟨k.cfg.trans h.cfg, by rw [k.acc, h.acc], k.bills.trans h.bills, k.nextBill.trans h.nextBill⟩

theorem BillsIssued.of_totals {bills : List Bill} {next : Word} {ledgers ledgers' : Vector Ledger 48}
    {closing : Substation → Option AccumulatorSet} (h : BillsIssued bills next ledgers t closing)
    (same : ∀ k : Substation, (ledgers[k]).issued = (ledgers'[k]).issued) : BillsIssued bills next ledgers' t closing where
  kept := h.kept
  order := h.order
  numbers := h.numbers
  next := h.next
  contents := h.contents
  account := h.account
  times := h.times
  sets := h.sets
  totals k := by rw [h.totals k, same]

theorem State.closeWith_closedBooks (kept : BooksKept (s.closeWith n finish) t) : ClosedBooks s t n finish := by
  have kept' : BooksKept (s.closePeriods n finish).runIssue t := BooksKept.of_evaluate.trans kept
  obtain ⟨news, issues⟩ := (s.closePeriods n finish).runIssue_issues
  have cfg : t.cfg = (s.closePeriods n finish).cfg :=
    kept'.cfg.trans (State.issueBills_changes 48 .cfg (by decide))
  have acc : t.acc = { (s.closePeriods n finish).acc with meters := t.acc.meters, ledgers := t.acc.ledgers } := by
    conv_lhs => rw [kept'.acc, issues.acc]
    rw [kept'.ledgers]
  have issued := issues.billsIssued kept'.bills kept'.nextBill kept'.ledgers cfg
  rw [State.closePeriods_closing, State.closePeriods_que] at issued
  refine ⟨by rw [acc, State.closePeriods_acc], by rw [acc, State.closePeriods_acc], by rw [cfg, State.closePeriods_cfg]; rfl,
    fun k => ?_, ?_⟩
  · rw [kept'.ledgers, issues.ledgers k, State.closePeriods_ledger]
    obtain ⟨booked, -, current, -⟩ := State.closedLedger_parts (s := s) k n (finish - 60 * s.clock.offset)
    split
    · exact ⟨booked, current⟩
    · exact ⟨booked, current⟩
  · exact issued.of_totals fun k => by
      rw [State.closePeriods_ledger, (State.closedLedger_parts k n _).2.1]

end Sys2Proof.Machine
end

section
/-! SUPPORT. The Billing Unit at a restart: the closes due, the bills, the marker (R141, R146, R152); with O21. -/

namespace Sys2Proof.Machine

variable {s t u r : State}

/-! ### The accounts opened (R153 i) -/

/-- The ledgers with a start for every current set. -/
def State.openLedgers (s : State) : Vector Ledger 48 :=
  s.acc.ledgers.map fun l =>
    { l with current := { l.current with start := some (l.current.start.getD s.clock.reading) } }

/-- The close mark a restart works with, the clock VALID. -/
def State.restartMark (s : State) : Int := s.acc.closeMark.getD s.clock.localTime

/-- The accounts with every set opened, and a close mark while the clock is VALID. -/
def State.openedAccounts (s : State) : AccountsRegion :=
  { s.acc with
    ledgers := s.openLedgers
    closeMark := if s.clock.valid then some s.restartMark else s.acc.closeMark }

theorem State.openAccounts_eq : s.openAccounts =
    if s.openedAccounts = s.acc then s else ({ s with acc := s.openedAccounts } : State).markAccounts := rfl

theorem State.openAccounts_changes : ChangesOnly [.acc, .marks] s s.openAccounts := by
  intro p hp
  rw [State.openAccounts_eq]
  split <;> cases p <;> simp_all [Part.agree]

theorem State.openAccounts_acc : s.openAccounts.acc = s.openedAccounts := by
  rw [State.openAccounts_eq]
  split
  next same => exact same.symm
  next => rfl

theorem State.openAccounts_bu : s.openAccounts.bu = s.bu := State.openAccounts_changes .bu (by decide)

theorem State.openAccounts_que : s.openAccounts.que = s.que := State.openAccounts_changes .que (by decide)

theorem State.openAccounts_cfg : s.openAccounts.cfg = s.cfg := State.openAccounts_changes .cfg (by decide)

theorem State.openAccounts_clock : s.openAccounts.clock = s.clock := State.openAccounts_changes .clock (by decide)

theorem State.openAccounts_acts : s.openAccounts.acts = s.acts := by
  rw [State.openAccounts_eq]
  split <;> rfl

theorem State.openLedgers_parts (k : Substation) : (s.openLedgers[k]).closing = s.closing k ∧
    (s.openLedgers[k]).booked = (s.acc.ledgers[k]).booked ∧ (s.openLedgers[k]).issued = (s.acc.ledgers[k]).issued := by
  unfold State.openLedgers
  rw [Fin.getElem_fin, Vector.getElem_map]
  exact ⟨rfl, rfl, rfl⟩

theorem State.openAccounts_closing : s.openAccounts.closing = s.closing := by
  funext k
  rw [State.closing, State.openAccounts_acc]
  exact (State.openLedgers_parts k).1

/-! ### The closes taken one after another (R141, R146) -/

/-- The close times due under the table of `s` after `mark`. -/
def State.dueAfter (s : State) (mark : Int) : List Int := dueCloses s.cfg.tariff mark s.clock.localTime

theorem State.scheduledClose_eq {mark : Int} (h : s.acc.closeMark = some mark) : s.scheduledClose =
    match (s.dueAfter mark).getLast? with
    | none => s
    | some finish => s.closeWith (s.dueAfter mark).length finish := by
  unfold State.scheduledClose
  rw [h]
  rfl

theorem State.scheduledClose_of_none {mark : Int} (h : s.acc.closeMark = some mark) (none : s.dueAfter mark = []) :
    s.scheduledClose = s := by
  rw [State.scheduledClose_eq h, none]
  rfl

theorem State.scheduledClose_of_some {mark last : Int} (h : s.acc.closeMark = some mark)
    (due : (s.dueAfter mark).getLast? = some last) : s.scheduledClose = s.closeWith (s.dueAfter mark).length last := by
  rw [State.scheduledClose_eq h, due]

theorem State.closeWith_clock (n : Nat) (finish : Int) : (s.closeWith n finish).clock = s.clock :=
  State.closeWith_changes n finish .clock (by decide)

theorem State.closeWith_meters (n : Nat) (finish : Int) : (s.closeWith n finish).acc.meters = s.acc.meters := by
  obtain ⟨news, issues⟩ := (s.closePeriods n finish).runIssue_issues
  rw [State.closeWith, State.evaluateQueueFull_acc, issues.acc, State.closePeriods_acc]

/-- With nothing left to issue, the last run of a restart does nothing. -/
theorem FullReckoned.settled (h : FullReckoned s t) : t.runIssue.evaluateQueueFull = t := by
  rw [h.exhausted.runIssue, State.evaluateQueueFull_of_known fun waits => h.full.trans waits]

/-- What the closes of a restart come to, the clock VALID. -/
inductive State.ClosesAtRestart (s t : State) : Prop where
  | none (due : s.dueAfter s.restartMark = []) (same : t = s.openAccounts.runIssue.evaluateQueueFull)
  | one {last : Int} (due : (s.dueAfter s.restartMark).getLast? = some last)
      (later : (s.openAccounts.closeWith (s.dueAfter s.restartMark).length last).dueAfter last = [])
      (same : t = s.openAccounts.closeWith (s.dueAfter s.restartMark).length last)
  | two {last second : Int} (due : (s.dueAfter s.restartMark).getLast? = some last)
      (later : ((s.openAccounts.closeWith (s.dueAfter s.restartMark).length last).dueAfter last).getLast? = some second)
      (same : t = (s.openAccounts.closeWith (s.dueAfter s.restartMark).length last).closeWith
        ((s.openAccounts.closeWith (s.dueAfter s.restartMark).length last).dueAfter last).length second)

theorem State.openAccounts_known (unmarked : s.bu.queueFull = false) : s.openAccounts.MarkerKnown := fun marked => by
  rw [State.openAccounts_bu, unmarked] at marked
  cases marked

theorem State.billingRestart_closes (unmarked : s.bu.queueFull = false) (valid : s.clock.valid = true) :
    s.ClosesAtRestart s.billingRestart := by
  have known := State.openAccounts_known unmarked
  have mark : s.openAccounts.acc.closeMark = some s.restartMark := by rw [State.openAccounts_acc]; exact if_pos valid
  have due : s.openAccounts.dueAfter s.restartMark = s.dueAfter s.restartMark := by
    rw [State.dueAfter, State.openAccounts_cfg, State.openAccounts_clock, State.dueAfter]
  have reckons : s.billingRestart = s.openAccounts.scheduledClose.scheduledClose.runIssue.evaluateQueueFull := by
    rw [State.billingRestart, State.reckonCloses, if_pos (by rw [State.openAccounts_clock]; exact valid)]
  cases h : (s.dueAfter s.restartMark).getLast? with
  | none =>
    have empty := List.getLast?_eq_none_iff.mp h
    refine .none empty ?_
    have same : s.openAccounts.scheduledClose = s.openAccounts := State.scheduledClose_of_none mark (due.trans empty)
    rw [reckons, same, same]
  | some last =>
    have first := State.scheduledClose_of_some mark (due ▸ h)
    rw [due] at first
    have reckoned := State.closeWith_reckoned (n := (s.dueAfter s.restartMark).length) (finish := last) known
    have closed := State.closeWith_closedBooks (BooksKept.refl (s.openAccounts.closeWith (s.dueAfter s.restartMark).length last))
    rw [reckons, first]
    cases h' : ((s.openAccounts.closeWith (s.dueAfter s.restartMark).length last).dueAfter last).getLast? with
    | none =>
      have empty := List.getLast?_eq_none_iff.mp h'
      exact .one h empty (by rw [State.scheduledClose_of_none closed.mark empty, reckoned.settled])
    | some second =>
      refine .two h h' ?_
      rw [State.scheduledClose_of_some closed.mark h', (State.closeWith_reckoned reckoned.known).settled]

theorem State.billingRestart_invalid (invalid : s.clock.valid = false) :
    s.billingRestart = s.openAccounts.runIssue.evaluateQueueFull := by
  rw [State.billingRestart, State.reckonCloses, if_neg (by rw [State.openAccounts_clock, invalid]; decide)]

theorem State.billingRestart_reckoned (unmarked : s.bu.queueFull = false) : FullReckoned s s.billingRestart := by
  have known := State.openAccounts_known unmarked
  have from' {t : State} (h : FullReckoned s.openAccounts t) : FullReckoned s t := by
    have stays := h.stays
    have acts := h.acts
    rw [State.openAccounts_bu] at stays acts
    rw [State.openAccounts_acts] at acts
    exact ⟨h.full, h.exhausted, stays, acts⟩
  refine from' ?_
  by_cases valid : s.clock.valid = true
  · obtain ⟨-, same⟩ | ⟨-, -, same⟩ | ⟨-, -, same⟩ := State.billingRestart_closes unmarked valid
    · rw [same]; exact State.runIssue_evaluate_reckoned known
    · rw [same]; exact State.closeWith_reckoned known
    · rw [same]
      exact (State.closeWith_reckoned known).trans (State.closeWith_reckoned (State.closeWith_reckoned known).known)
  · rw [State.billingRestart_invalid (Bool.eq_false_iff.mpr valid)]
    exact State.runIssue_evaluate_reckoned known

/-! ### What it leaves of the books -/

/-- No close: the bills of the sets that waited are issued, and everything else stands. -/
structure State.BooksUnclosed (s t : State) : Prop where
  cfg : t.cfg = s.cfg
  period : t.acc.period = s.acc.period
  ledgers : ∀ k : Substation, (t.acc.ledgers[k]).current = (s.openLedgers[k]).current ∧
    (t.acc.ledgers[k]).booked = (s.acc.ledgers[k]).booked
  issued : BillsIssued s.que.bills s.que.nextBill s.acc.ledgers t s.closing
  mark : t.acc.closeMark = if s.clock.valid then some s.restartMark else s.acc.closeMark

theorem State.openAccounts_unclosed (kept : BooksKept s.openAccounts.runIssue.evaluateQueueFull t) : s.BooksUnclosed t := by
  obtain ⟨news, issues⟩ := s.openAccounts.runIssue_issues
  have kept' : BooksKept s.openAccounts.runIssue t := BooksKept.of_evaluate.trans kept
  have cfg : t.cfg = s.openAccounts.cfg := kept'.cfg.trans (State.issueBills_changes 48 .cfg (by decide))
  have acc : t.acc = { s.openAccounts.acc with meters := t.acc.meters, ledgers := t.acc.ledgers } := by
    conv_lhs => rw [kept'.acc, issues.acc]
    rw [kept'.ledgers]
  have issued := issues.billsIssued kept'.bills kept'.nextBill kept'.ledgers cfg
  rw [State.openAccounts_closing, State.openAccounts_que] at issued
  refine ⟨cfg.trans State.openAccounts_cfg, by rw [acc, State.openAccounts_acc]; rfl, fun k => ?_,
    issued.of_totals fun k => ?_, by rw [acc, State.openAccounts_acc]; rfl⟩
  · rw [kept'.ledgers, issues.ledgers k, State.openAccounts_acc]
    have booked := (State.openLedgers_parts (s := s) k).2.1
    split
    · exact ⟨rfl, booked⟩
    · exact ⟨rfl, booked⟩
  · rw [State.openAccounts_acc]
    exact (State.openLedgers_parts k).2.2

/-- The books after a close follow from the period, the accounts, the configuration and the bills before it. -/
theorem ClosedBooks.of_same {n : Nat} {finish : Int} (h : ClosedBooks s t n finish) (period : u.acc.period = s.acc.period)
    (ledgers : u.acc.ledgers = s.acc.ledgers) (meters : u.acc.meters = s.acc.meters) (cfg : u.cfg = s.cfg)
    (clock : u.clock = s.clock) (bills : u.que.bills = s.que.bills) (next : u.que.nextBill = s.que.nextBill) :
    ClosedBooks u t n finish := by
  have closed : ∀ k n second, u.closedLedger k n second = s.closedLedger k n second := by
    intro k n second
    have part : u.takesPart k = s.takesPart k := by unfold State.takesPart; rw [ledgers, meters]
    unfold State.closedLedger
    rw [part, period, ledgers, meters]
    simp only [cfg]
  refine ⟨by rw [period]; exact h.period, h.mark, by rw [cfg]; exact h.cfg, by rw [ledgers, clock, period]; exact h.ledgers, ?_⟩
  simp only [closed, bills, next, clock, ledgers]
  exact h.issued

/-- The books after the closes of a restart: one close, and one more where the table it brings into force has a close time
due (R141, R146). -/
structure State.BooksClosed (s t : State) (due : List Int) (last : Int) (later : List Int) : Prop where
  period : t.acc.period = s.acc.period + due.length + later.length
  mark : t.acc.closeMark = some (later.getLast?.getD last)
  one : later = [] → ClosedBooks s.openAccounts t due.length last
  two : ∀ second, later.getLast? = some second → ∃ u : State, u.clock = s.clock ∧ u.acc.meters = s.acc.meters ∧
    ClosedBooks s.openAccounts u due.length last ∧ ClosedBooks u t later.length second

theorem BooksKept.closed {last : Int} (kept : BooksKept s.billingRestart t) (unmarked : s.bu.queueFull = false)
    (valid : s.clock.valid = true) (due : (s.dueAfter s.restartMark).getLast? = some last) :
    s.BooksClosed t (s.dueAfter s.restartMark) last
      (dueCloses (s.cfg.pendingTariff.getD s.cfg.tariff) last s.clock.localTime) := by
  have period : s.openAccounts.acc.period = s.acc.period := by rw [State.openAccounts_acc]; rfl
  have first := State.closeWith_closedBooks (BooksKept.refl (s.openAccounts.closeWith (s.dueAfter s.restartMark).length last))
  have table : (s.openAccounts.closeWith (s.dueAfter s.restartMark).length last).dueAfter last =
      dueCloses (s.cfg.pendingTariff.getD s.cfg.tariff) last s.clock.localTime := by
    rw [State.dueAfter, first.cfg, State.closeWith_clock, State.openAccounts_clock, State.openAccounts_cfg]
  obtain ⟨empty, -⟩ | ⟨due', later, same⟩ | ⟨due', later, same⟩ := State.billingRestart_closes unmarked valid
  · rw [empty] at due
    cases due
  · cases due.symm.trans due'
    rw [same] at kept
    rw [table] at later
    have closed := State.closeWith_closedBooks kept
    rw [later]
    exact ⟨closed.period.trans (by rw [period]; rfl), closed.mark, fun _ => closed, nofun⟩
  · cases due.symm.trans due'
    rw [same] at kept
    rw [table] at later kept
    have closed := State.closeWith_closedBooks kept
    refine ⟨by rw [closed.period, first.period, period], by rw [later]; exact closed.mark, fun none => ?_, ?_⟩
    · rw [none] at later
      cases later
    · intro second isLast
      cases later.symm.trans isLast
      refine ⟨_, by rw [State.closeWith_clock, State.openAccounts_clock], ?_, first, closed⟩
      rw [State.closeWith_meters, State.openAccounts_acc]
      rfl

/-- Without a close due, or with the clock INVALID, the books stay unclosed. -/
theorem BooksKept.unclosed (kept : BooksKept s.billingRestart t) (unmarked : s.bu.queueFull = false)
    (none : s.clock.valid = true → s.dueAfter s.restartMark = []) : s.BooksUnclosed t := by
  by_cases valid : s.clock.valid = true
  · obtain ⟨-, same⟩ | ⟨due, -, -⟩ | ⟨due, -, -⟩ := State.billingRestart_closes unmarked valid
    · exact State.openAccounts_unclosed (same ▸ kept)
    · rw [none valid] at due
      cases due
    · rw [none valid] at due
      cases due
  · exact State.openAccounts_unclosed (State.billingRestart_invalid (Bool.eq_false_iff.mpr valid) ▸ kept)

theorem State.billingRestart_meters (unmarked : s.bu.queueFull = false) : s.billingRestart.acc.meters = s.acc.meters := by
  have opened : s.openAccounts.acc.meters = s.acc.meters := by rw [State.openAccounts_acc]; rfl
  have issued : s.openAccounts.runIssue.evaluateQueueFull.acc.meters = s.openAccounts.acc.meters := by
    obtain ⟨news, issues⟩ := s.openAccounts.runIssue_issues
    rw [State.evaluateQueueFull_acc, issues.acc]
  by_cases valid : s.clock.valid = true
  · obtain ⟨-, same⟩ | ⟨-, -, same⟩ | ⟨-, -, same⟩ := State.billingRestart_closes unmarked valid
    · rw [same, issued, opened]
    · rw [same, State.closeWith_meters, opened]
    · rw [same, State.closeWith_meters, State.closeWith_meters, opened]
  · rw [State.billingRestart_invalid (Bool.eq_false_iff.mpr valid), issued, opened]

end Sys2Proof.Machine
end

section
/-! SUPPORT. The Condition Table after one event's raises and reports of different keys, from an empty table (R154, R156);
with O21. -/

namespace Sys2Proof.Machine

variable {s t u : State} {a : ConditionAct} {e : ConditionEntry} {i : Fin 128} {done : List ConditionAct}

/-- An act that raises: a raise, or a report under a class whose entries latch. -/
inductive ConditionAct.Raises : ConditionAct → Prop where
  | raise (k : ConditionKey) (m : LatchMode) : (ConditionAct.raise k m).Raises
  | report (k : ConditionKey) (class' : k.cls = .timeStep ∨ k.cls = .settlementOverrun ∨ k.cls = .retainedStoreLost) :
    (ConditionAct.report k).Raises

/-- The state an act leaves its new entry in. -/
def ConditionAct.leaves : ConditionAct → EntryState
  | .report _ => .latched
  | _ => .active

/-- `e` is the new entry that the act leaves. -/
structure ConditionEntry.LeftBy (e : ConditionEntry) (a : ConditionAct) : Prop where
  key : e.key = a.key
  state : e.state = a.leaves
  raises : e.raises = 1

/-- The acts done have filled the table from its first place on. -/
structure Filled (t : State) (done : List ConditionAct) : Prop where
  taken : ∀ (i : Fin 128) (a : ConditionAct), done[i.val]? = some a → ∃ e, t.conditions[i] = some e ∧ e.LeftBy a
  free : ∀ i : Fin 128, done.length ≤ i.val → t.conditions[i] = none

theorem Filled.of_place (h : Filled t done) (held : t.conditions[i] = some e) :
    ∃ a, done[i.val]? = some a ∧ e.LeftBy a := by
  cases ha : done[i.val]? with
  | none => rw [h.free i (List.getElem?_eq_none_iff.mp ha)] at held; cases held
  | some a =>
    obtain ⟨e', held', left⟩ := h.taken i a ha
    cases held.symm.trans held'
    exact ⟨a, rfl, left⟩

theorem Filled.placeOf_new {k : ConditionKey} (h : Filled t done) (new : k ∉ done.map ConditionAct.key) :
    t.placeOf k = none :=
  State.placeOf_eq_none.mpr fun i e held same => by
    obtain ⟨a, ha, left⟩ := h.of_place held
    exact new (same ▸ left.key ▸ List.mem_map_of_mem (List.mem_of_getElem? ha))

theorem Filled.freePlace (h : Filled t done) (room : done.length < 127) :
    t.freePlace = some ⟨done.length, by omega⟩ := by
  cases f : t.freePlace with
  | none =>
    refine absurd (h.free ⟨done.length, by omega⟩ (Nat.le_refl _)) (State.freePlace_eq_none.mp f _ ?_)
    exact fun same => by have := congrArg Fin.val same; simp [fullPlace] at this; omega
  | some i =>
    obtain ⟨-, free, before⟩ := State.freePlace_eq_some f
    have notBelow : ¬ i.val < done.length := fun lt => by
      obtain ⟨e, held, -⟩ := h.taken i done[i.val] (List.getElem?_eq_getElem lt)
      rw [free] at held
      cases held
    have notAbove : ¬ done.length < i.val := fun lt =>
      before ⟨done.length, by omega⟩ lt (fun same => by have := congrArg Fin.val same; simp [fullPlace] at this; omega)
        (h.free _ (Nat.le_refl _))
    exact congrArg some (Fin.ext (by dsimp only; omega))

/-- One more entry in the first free place. -/
theorem Filled.setPlace (h : Filled t done) (room : done.length < 127) (left : e.LeftBy a) :
    Filled (t.setPlace ⟨done.length, by omega⟩ (some e)) (done ++ [a]) where
  taken i b hb := by
    rw [State.setPlace_conditions, getElem_set_fin]
    rcases Nat.lt_trichotomy i.val done.length with lt | same | gt
    · rw [if_neg fun eq => Nat.ne_of_lt lt (congrArg Fin.val eq)]
      rw [List.getElem?_append_left lt] at hb
      exact h.taken i b hb
    · rw [if_pos (Fin.ext same)]
      rw [same, List.getElem?_concat_length] at hb
      cases hb
      exact ⟨e, rfl, left⟩
    · rw [List.getElem?_eq_none (by rw [List.length_append, List.length_singleton]; omega)] at hb
      cases hb
  free i past := by
    rw [List.length_append, List.length_singleton] at past
    rw [State.setPlace_conditions, getElem_set_fin, if_neg fun eq => by have := congrArg Fin.val eq; dsimp only at this; omega]
    exact h.free i (by omega)

theorem Filled.placeOf (h : Filled t done) (nodup : (done.map ConditionAct.key).Nodup) (ha : done[i.val]? = some a) :
    t.placeOf a.key = some i := by
  obtain ⟨e, held, left⟩ := h.taken i a ha
  cases f : t.placeOf a.key with
  | none => exact absurd left.key (State.placeOf_eq_none.mp f i e held)
  | some j =>
    obtain ⟨e', held', same⟩ := State.placeOf_eq_some f
    obtain ⟨b, hb, left'⟩ := h.of_place held'
    have keys : (done.map ConditionAct.key)[j.val]? = (done.map ConditionAct.key)[i.val]? := by
      rw [List.getElem?_map, List.getElem?_map, ha, hb, Option.map_some, Option.map_some, ← same, left'.key]
    have within : j.val < (done.map ConditionAct.key).length := by
      rw [List.length_map]; exact (List.getElem?_eq_some_iff.mp hb).1
    exact congrArg some (Fin.ext ((List.getElem?_inj within nodup).mp keys))

theorem Filled.raiseWith {k : ConditionKey} (h : Filled t done) (room : done.length < 127)
    (new : k ∉ done.map ConditionAct.key) (m : LatchMode) :
    t.raiseWith k m = t.setPlace ⟨done.length, by omega⟩ (some (newEntry k m t.clock.reading)) := by
  unfold State.raiseWith
  dsimp only
  rw [h.placeOf_new new, h.freePlace room]

theorem State.setPlace_setPlace (x y : Option ConditionEntry) : (s.setPlace i x).setPlace i y = s.setPlace i y := by
  rw [State.setPlace, State.setPlace_conditions, Vector.set_set]
  rfl

/-- The cause of a new entry under a latching class ends at once: the entry is LATCHED. -/
theorem State.endCause_newest {k : ConditionKey}
    (place : (t.setPlace i (some (newEntry k .latching t.clock.reading))).placeOf k = some i) (plain : k.cls ≠ .meterJump) :
    (t.setPlace i (some (newEntry k .latching t.clock.reading))).endCause k.cls k.source =
      t.setPlace i (some { newEntry k .latching t.clock.reading with state := .latched }) := by
  have held : (t.setPlace i (some (newEntry k .latching t.clock.reading))).conditions[i] =
      some (newEntry k .latching t.clock.reading) := by
    rw [State.setPlace_conditions, getElem_set_fin, if_pos rfl]
  unfold State.endCause
  rw [place]
  dsimp only
  rw [held]
  dsimp only
  rw [if_neg (nofun : (newEntry k .latching t.clock.reading).state ≠ .latched), if_neg plain, if_neg (by simp [newEntry]),
    State.setPlace_setPlace]
  rfl

theorem Filled.takeAct (h : Filled t done) (room : done.length < 127) (raises : a.Raises)
    (nodup : ((done ++ [a]).map ConditionAct.key).Nodup) : Filled (t.takeAct a) (done ++ [a]) := by
  have new : a.key ∉ done.map ConditionAct.key := by
    rw [List.map_append, List.nodup_append] at nodup
    exact fun mem => nodup.2.2 _ mem _ (List.mem_singleton_self _) rfl
  cases raises with
  | raise k m =>
    rw [State.takeAct, h.raiseWith (k := k) room new]
    exact h.setPlace room ⟨rfl, rfl, rfl⟩
  | report k latching =>
    have mode : t.classLatch k.cls = .latching := by rcases latching with c | c | c <;> rw [c] <;> rfl
    have plain : k.cls ≠ .meterJump := by rcases latching with c | c | c <;> rw [c] <;> decide
    have raise : t.raise k.cls k.source =
        t.setPlace ⟨done.length, by omega⟩ (some (newEntry k .latching t.clock.reading)) := by
      rw [State.raise, mode]
      exact h.raiseWith (k := k) room new .latching
    have raised := h.setPlace (a := .raise k .latching) (e := newEntry k .latching t.clock.reading) room ⟨rfl, rfl, rfl⟩
    have place := raised.placeOf (a := .raise k .latching) (i := ⟨done.length, by omega⟩)
      (by rw [List.map_append] at nodup ⊢; exact nodup) (List.getElem?_concat_length ..)
    have latched : t.takeAct (.report k) = t.setPlace ⟨done.length, by omega⟩
        (some { newEntry k .latching t.clock.reading with state := .latched }) := by
      rw [State.takeAct, State.raiseAndEnd, raise]
      exact State.endCause_newest place plain
    rw [latched]
    exact h.setPlace room ⟨rfl, rfl, rfl⟩

/-- Acts that raise different keys fill an empty table. -/
theorem Filled.foldl : ∀ (acts done : List ConditionAct) {t : State}, Filled t done → (∀ a ∈ acts, a.Raises) →
    ((done ++ acts).map ConditionAct.key).Nodup → (done ++ acts).length ≤ 127 →
    Filled (acts.foldl State.takeAct t) (done ++ acts)
  | [], done, t, h, _, _, _ => by rw [List.append_nil]; exact h
  | a :: acts, done, t, h, raises, nodup, room => by
    have split : done ++ a :: acts = (done ++ [a]) ++ acts := List.append_cons ..
    have short : done.length < 127 := by rw [List.length_append, List.length_cons] at room; omega
    rw [split] at nodup room ⊢
    refine Filled.foldl acts (done ++ [a]) (h.takeAct short (raises a List.mem_cons_self) ?_)
      (fun b hb => raises b (List.mem_cons_of_mem _ hb)) nodup room
    rw [List.map_append] at nodup
    exact (List.nodup_append.mp nodup).1

/-! ### The acts of one event -/

/-- The acts of an event are taken in some order. -/
theorem State.takeActs_eq (s : State) : ∃ (l : List ConditionAct) (n : Nat), l.Perm s.acts ∧
    s.takeActs = l.foldl State.takeAct { s with acts := [], choices := n } := by
  unfold State.takeActs
  split
  · exact ⟨s.acts, s.choices, .refl _, rfl⟩
  · exact ⟨_, _, actsInOrder_perm _ _ (arrange_perm _ _), rfl⟩

/-- What the acts of one event, each a raise of its own key, leave of an empty table. -/
structure State.TableShows (t : State) (acts : List ConditionAct) : Prop where
  entry : ∀ a ∈ acts, ∃ e, t.entryOf a.key = some e ∧ e.LeftBy a
  only : ∀ (i : Fin 128) (e : ConditionEntry), t.conditions[i] = some e → e.key ∈ acts.map ConditionAct.key

theorem State.TableShows.unshown {k : ConditionKey} {acts : List ConditionAct} (h : t.TableShows acts) (out : k ∉ acts.map ConditionAct.key) :
    t.entryOf k = none :=
  State.entryOf_eq_none.mpr (State.placeOf_eq_none.mpr fun i e held same => out (same ▸ h.only i e held))

theorem State.endEvent_shows (empty : s.conditions = Vector.replicate 128 none) (raises : ∀ a ∈ s.acts, a.Raises)
    (nodup : (s.acts.map ConditionAct.key).Nodup) (room : s.acts.length ≤ 127) : s.endEvent.TableShows s.acts := by
  obtain ⟨l, n, perm, eq⟩ := s.takeActs_eq
  have keys := perm.map ConditionAct.key
  have start : Filled ({ s with acts := [], choices := n } : State) [] :=
    ⟨nofun, fun i _ => by rw [empty, Fin.getElem_fin, Vector.getElem_replicate]⟩
  have filled := start.foldl l [] (fun a ha => raises a (perm.mem_iff.mp ha)) (keys.nodup_iff.mpr nodup)
    (perm.length_eq ▸ room)
  rw [List.nil_append, ← eq] at filled
  have same : s.endEvent.conditions = s.takeActs.conditions := rfl
  refine ⟨fun a ha => ?_, fun i e held => ?_⟩
  · obtain ⟨i, short, hi⟩ := List.getElem_of_mem (perm.mem_iff.mpr ha)
    have within : i < 128 := by have := perm.length_eq; omega
    have at' : l[(⟨i, within⟩ : Fin 128).val]? = some a := List.getElem?_eq_some_iff.mpr ⟨short, hi⟩
    obtain ⟨e, held, left⟩ := filled.taken ⟨i, within⟩ a at'
    refine ⟨e, ?_, left⟩
    have place : s.endEvent.placeOf a.key = some ⟨i, within⟩ := filled.placeOf (keys.nodup_iff.mpr nodup) at'
    rw [State.entryOf, place, Option.bind_some, same, held]
  · rw [same] at held
    obtain ⟨a, ha, left⟩ := filled.of_place held
    rw [left.key]
    exact List.mem_map_of_mem (perm.mem_iff.mp (List.mem_of_getElem? ha))

end Sys2Proof.Machine
end

section
/-! SUPPORT. The acts a restart tells the Condition Table, one for each key it may raise (R84, R133, R152, R172, R176); with
O21. -/

namespace Sys2Proof.Machine

variable {s t u : State}

/-! ### Acts told or not -/

/-- Of the acts that may be told, those that are. -/
def told (l : List (Bool × ConditionAct)) : List ConditionAct := (l.filter (·.1)).map (·.2)

theorem told_append (l m : List (Bool × ConditionAct)) : told (l ++ m) = told l ++ told m := by
  rw [told, List.filter_append, List.map_append, told, told]

theorem told_singleton (b : Bool) (a : ConditionAct) : told [(b, a)] = if b then [a] else [] := by cases b <;> rfl

theorem told_sublist (l : List (Bool × ConditionAct)) : (told l).Sublist (l.map (·.2)) := List.filter_sublist.map _

theorem mem_told {l : List (Bool × ConditionAct)} {a : ConditionAct} : a ∈ told l ↔ (true, a) ∈ l := by
  simp [told]

/-- Each act that may be told has a key of its own: its entry is there exactly where it was told. -/
theorem State.TableShows.shown_told {l : List (Bool × ConditionAct)} {b : Bool} {a : ConditionAct}
    (h : t.TableShows (told l)) (nodup : (l.map (·.2.key)).Nodup) (mem : (b, a) ∈ l) :
    t.shown a.key.cls a.key.source = if b then some (a.leaves, 1) else none := by
  have entry : t.shown a.key.cls a.key.source = (t.entryOf a.key).map fun e => (e.state, e.raises) := rfl
  rw [entry]
  cases b with
  | true =>
    obtain ⟨e, held, left⟩ := h.entry a (mem_told.mpr mem)
    rw [held, Option.map_some, left.state, left.raises]
    rfl
  | false =>
    rw [h.unshown]
    · rfl
    · intro raised
      obtain ⟨a', ha', same⟩ := List.mem_map.mp raised
      have twice := List.inj_on_of_nodup_map nodup (mem_told.mp ha') mem same
      cases congrArg Prod.fst twice

/-! ### The acts of a restart -/

def reportOf (c : ConditionClass) (n : Nat) : ConditionAct := .report { cls := c, source := n }

def raiseOf (c : ConditionClass) (n : Nat) (m : LatchMode) : ConditionAct := .raise { cls := c, source := n } m

/-- What a restart finds or leaves that a condition reports. -/
structure RestartCauses where
  battery : Bool
  config : Bool
  accounts : Bool
  queues : Bool
  release : Bool
  missing : Bool
  overrun : Bool
  full : Bool
  meters : Vector SubstationAccount 48

/-- The acts of the CRS and the first sequencer. -/
def RestartCauses.first (c : RestartCauses) : List (Bool × ConditionAct) :=
  [(c.battery, reportOf .timeStep 1), (c.config, reportOf .retainedStoreLost 1), (c.accounts, reportOf .retainedStoreLost 2),
    (c.queues, reportOf .retainedStoreLost 3), (c.release, raiseOf .plantReleaseLost 1 .selfClearing)]

/-- The acts of the ESU. -/
def RestartCauses.schedule (c : RestartCauses) : List (Bool × ConditionAct) :=
  [(c.missing, raiseOf .nominationMissing 1 .selfClearing), (c.overrun, reportOf .settlementOverrun 1)]

/-- The acts of the HMU for one substation. -/
def meterActs (meters : Vector SubstationAccount 48) (k : Substation) : List (Bool × ConditionAct) :=
  [((meters[k]).pendingMark.isSome, raiseOf .meterJump (k.val + 1) .latching),
    (decide ((meters[k]).state = .estimating), raiseOf .substationEstimating (k.val + 1) .selfClearing)]

/-- All the acts a restart may tell, in the order of the blocks. -/
def RestartCauses.all (c : RestartCauses) : List (Bool × ConditionAct) :=
  c.first ++ c.schedule ++ [(c.full, raiseOf .billQueueFull 1 .selfClearing)] ++
    (List.finRange 48).flatMap (meterActs c.meters)

/-- Their keys. -/
def restartOrder : List ConditionKey :=
  [{ cls := .timeStep, source := 1 }, { cls := .retainedStoreLost, source := 1 }, { cls := .retainedStoreLost, source := 2 },
    { cls := .retainedStoreLost, source := 3 }, { cls := .plantReleaseLost, source := 1 },
    { cls := .nominationMissing, source := 1 }, { cls := .settlementOverrun, source := 1 },
    { cls := .billQueueFull, source := 1 }] ++
    (List.finRange 48).flatMap fun k =>
      [{ cls := .meterJump, source := k.val + 1 }, { cls := .substationEstimating, source := k.val + 1 }]

theorem RestartCauses.all_keys (c : RestartCauses) : c.all.map (·.2.key) = restartOrder := by
  rw [RestartCauses.all, List.map_append, List.map_flatMap]
  rfl

theorem restartOrder_nodup : restartOrder.Nodup := by decide +kernel

theorem restartOrder_sub : ∀ k ∈ restartOrder, k ∈ restartKeys := by decide +kernel

theorem restartOrder_length : restartOrder.length = 104 := by decide +kernel

theorem RestartCauses.all_nodup (c : RestartCauses) : (c.all.map (·.2.key)).Nodup := by
  rw [RestartCauses.all_keys]; exact restartOrder_nodup

theorem RestartCauses.told_keys (c : RestartCauses) : ((told c.all).map ConditionAct.key).Sublist restartOrder := by
  have keys := (told_sublist c.all).map ConditionAct.key
  rw [List.map_map] at keys
  exact c.all_keys ▸ keys

theorem RestartCauses.told_raises (c : RestartCauses) : ∀ a ∈ told c.all, a.Raises := by
  intro a mem
  have mem := mem_told.mp mem
  simp only [RestartCauses.all, RestartCauses.first, RestartCauses.schedule, meterActs, List.mem_append, List.mem_cons,
    List.mem_flatMap, List.not_mem_nil, or_false, Prod.mk.injEq] at mem
  rcases mem with ((((⟨-, rfl⟩ | ⟨-, rfl⟩ | ⟨-, rfl⟩ | ⟨-, rfl⟩ | ⟨-, rfl⟩) | ⟨-, rfl⟩ | ⟨-, rfl⟩) | ⟨-, rfl⟩) |
    ⟨k, -, ⟨-, rfl⟩ | ⟨-, rfl⟩⟩)
  exacts [.report _ (.inl rfl), .report _ (.inr (.inr rfl)), .report _ (.inr (.inr rfl)), .report _ (.inr (.inr rfl)),
    .raise _ _, .raise _ _, .report _ (.inr (.inl rfl)), .raise _ _, .raise _ _, .raise _ _]

/-- The table after a restart that told these acts alone. -/
theorem RestartCauses.shows (c : RestartCauses) (empty : s.conditions = Vector.replicate 128 none) (acts : s.acts = told c.all) :
    s.endEvent.TableShows (told c.all) := by
  have nodup := restartOrder_nodup.sublist c.told_keys
  have short := c.told_keys.length_le
  rw [List.length_map, restartOrder_length] at short
  rw [← acts] at nodup short ⊢
  exact State.endEvent_shows empty (acts ▸ c.told_raises) nodup (by omega)

end Sys2Proof.Machine
end

section
/-! SUPPORT. The stages of a restart, what each keeps, and the acts told by their end (R177); with O21. -/

namespace Sys2Proof.Machine

variable {s t u : State} {found : StoreFinding}

/-! ### The stages -/

/-- The copies as the check finds them (R176). -/
def State.foundStore (s : State) (found : StoreFinding) : Store := found.unsound.foldl Store.damage s.store

/-- The battery domain as it is found (R172). -/
def State.foundClock (s : State) (found : StoreFinding) : State := if found.batteryLost then s.batteryLost else s

/-- The start state of a restart, its regions checked. -/
def State.started (s : State) (found : StoreFinding) : State :=
  ({ s.foundClock found with
    store := (s.foundStore found).checked .default ((s.foundClock found).accountsRestored (s.foundStore found)) .default
    : State }).atStart

/-- The CRS and the first sequencer have reported. -/
def State.reported (s : State) (found : StoreFinding) : State := (s.started found).tellRestart found.batteryLost

/-- The ESU has worked. -/
def State.rescheduled (s : State) (found : StoreFinding) : State := (s.reported found).scheduleRestart

/-- The BU has worked. -/
def State.rebilled (s : State) (found : StoreFinding) : State := (s.rescheduled found).billingRestart

/-- The HMU has worked. -/
def State.remetered (s : State) (found : StoreFinding) : State :=
  ((s.rebilled found).metersRestart (decide ((s.rebilled found).store.config.state = .restored))).tellHeat

theorem State.restart_eq : s.restart found = (s.remetered found).endEvent := by
  have store : (s.foundClock found).store = s.store := by unfold State.foundClock; split <;> rfl
  unfold State.remetered State.rebilled State.rescheduled State.reported State.started State.foundStore
  rw [← store]
  rfl

/-! ### What the stages leave -/

/-- What the work of a restart after its start state may reach. -/
def workParts : List Part := [.que, .esu, .marks, .choices, .cfg, .acc, .bu, .conditions, .store]

theorem State.billingRestart_changes : ChangesOnly [.cfg, .acc, .que, .bu, .choices, .marks] s s.billingRestart := by
  have opened : ChangesOnly [.cfg, .acc, .que, .bu, .choices, .marks] s s.openAccounts :=
    State.openAccounts_changes.mono (by decide)
  exact ((opened.trans State.reckonCloses_changes).trans ((State.issueBills_changes 48).mono (by decide))).trans
    (State.evaluateQueueFull_changes.mono (by decide))

theorem State.reported_changes : ChangesOnly [.marks] (s.started found) (s.reported found) := State.tellRestart_changes _

theorem State.rebilled_changes : ChangesOnly [.que, .esu, .marks, .choices, .cfg, .acc, .bu] (s.started found) (s.rebilled found) :=
  (((State.tellRestart_changes _).mono (by decide)).trans (State.scheduleRestart_changes.mono (by decide))).trans
    (State.billingRestart_changes.mono (by decide))

theorem State.remetered_changes :
    ChangesOnly [.que, .esu, .marks, .choices, .cfg, .acc, .bu] (s.started found) (s.remetered found) :=
  (State.rebilled_changes.trans ((State.metersRestart_changes _).mono (by decide))).trans
    (State.tellHeat_changes.mono (by decide))

theorem State.restart_changes : ChangesOnly workParts (s.started found) (s.restart found) := by
  rw [State.restart_eq]
  exact (State.remetered_changes.mono (by decide)).trans (State.endEvent_changes.mono (by decide))

theorem State.BlocksAtStart.kept (h : u.BlocksAtStart) (frame : ChangesOnly workParts u t)
    (points : t.cfg.points = u.cfg.points) : t.BlocksAtStart where
  lines := by rw [show t.lines = u.lines from frame .lines (by decide)]; exact h.lines
  channels := by rw [show t.channels = u.channels from frame .channels (by decide)]; exact h.channels
  points := by rw [show t.points = u.points from frame .points (by decide), points]; exact h.points
  sources := by rw [show t.gas = u.gas from frame .gas (by decide)]; exact h.sources
  detectors := by rw [show t.gas = u.gas from frame .gas (by decide)]; exact h.detectors
  cycle := by rw [show t.dsp = u.dsp from frame .dsp (by decide)]; exact h.cycle
  allocations := by rw [show t.dsp = u.dsp from frame .dsp (by decide)]; exact h.allocations
  setpoints := by rw [show t.dsp = u.dsp from frame .dsp (by decide)]; exact h.setpoints
  boilers := by
    rw [show t.boilers = u.boilers from frame .boilers (by decide), show t.clock = u.clock from frame .clock (by decide)]
    exact h.boilers
  heat := by rw [show t.hmu = u.hmu from frame .hmu (by decide)]; exact h.heat
  link := by rw [show t.hlu = u.hlu from frame .hlu (by decide)]; exact h.link

theorem State.restart_points : (s.restart found).cfg.points = (s.started found).cfg.points := by
  have billed : KeepsPoints (s.started found) (s.rebilled found) :=
    ((State.tellRestart_changes _).keepsPoints.trans State.scheduleRestart_changes.keepsPoints).trans
      State.billingRestart_keepsPoints
  have metered : KeepsPoints (s.rebilled found) (s.remetered found) :=
    ((State.metersRestart_changes _).append State.tellHeat_changes).keepsPoints
  obtain ⟨-, -, points⟩ := (billed.trans metered).trans (State.endEvent_keepsPoints _)
  rw [State.restart_eq]
  exact points

theorem State.started_blocks : (s.started found).BlocksAtStart := State.atStart_blocks _

theorem State.restart_blocks : (s.restart found).BlocksAtStart :=
  State.started_blocks.kept State.restart_changes State.restart_points

/-! ### The regions found -/

theorem Retained.checked_contents {α : Type} (r : Retained α) (x y : α) : (r.checked x).contents y = r.contents x := by
  rw [Retained.contents, Retained.checked_found?, Option.getD_some]

theorem State.started_cfg : (s.started found).cfg = (s.foundStore found).config.contents .default :=
  Retained.checked_contents _ _ _

theorem State.started_que : (s.started found).que = (s.foundStore found).queues.contents .default :=
  Retained.checked_contents _ _ _

theorem State.started_acc : (s.started found).acc =
    (s.foundStore found).accounts.contents ((s.foundClock found).accountsRestored (s.foundStore found)) :=
  Retained.checked_contents _ _ _

theorem State.started_store : (s.started found).store =
    (s.foundStore found).checked .default ((s.foundClock found).accountsRestored (s.foundStore found)) .default := rfl

theorem State.foundClock_clock : (s.foundClock found).clock =
    if found.batteryLost then { reading := 0, valid := false, offset := 0 } else s.clock := by
  unfold State.foundClock; split <;> rfl

theorem State.foundClock_power : (s.foundClock found).powered = s.powered ∧ (s.foundClock found).resetHeld = s.resetHeld ∧
    (s.foundClock found).plantRelease = s.plantRelease := by
  unfold State.foundClock; split <;> exact ⟨rfl, rfl, rfl⟩

/-- The ESU's part of the restart starts from its start values. -/
theorem State.reported_esuAtStart : (s.reported found).EsuAtStart := by
  have frame := State.tellRestart_changes (s := s.started found) found.batteryLost
  refine ⟨frame .esu (by decide), frame .osc (by decide), ?_⟩
  have points : (s.reported found).points = (s.started found).points := frame .points (by decide)
  have unserved (p : PointNo) : ((s.started found).points[p]).usable = false := by
    rw [State.started_blocks.points p]
    split <;> rfl
  rw [State.meterUsable, State.usable, points, Option.any_eq_false]
  exact fun p _ => by rw [unserved p]

/-! ### The acts told -/

theorem State.tellLost_acts {α : Type} (r : Retained α) (n : Nat) : (s.tellLost r n).acts =
    s.acts ++ told [(decide (r.state = .restored), reportOf .retainedStoreLost n)] := by
  rw [told_singleton, State.tellLost]
  by_cases lost : r.state = .restored
  · rw [if_pos lost, if_pos (decide_eq_true lost)]; rfl
  · rw [if_neg lost, if_neg (by simpa using lost), List.append_nil]

theorem State.tellLost_plantRelease {α : Type} (r : Retained α) (n : Nat) :
    (s.tellLost r n).plantRelease = s.plantRelease := by
  unfold State.tellLost; split <;> rfl

/-- The battery domain's report. -/
def State.tellBattery (s : State) (lost : Bool) : State := if lost then s.tellReport .timeStep 1 else s

/-- The reports of the CRS. -/
def State.tellStore (s : State) : State :=
  ((s.tellLost s.store.config 1).tellLost s.store.accounts 2).tellLost s.store.queues 3

theorem State.tellStore_acts : s.tellStore.acts = s.acts ++
    told [(decide (s.store.config.state = .restored), reportOf .retainedStoreLost 1),
      (decide (s.store.accounts.state = .restored), reportOf .retainedStoreLost 2),
      (decide (s.store.queues.state = .restored), reportOf .retainedStoreLost 3)] := by
  rw [State.tellStore, State.tellLost_acts, State.tellLost_acts, State.tellLost_acts, List.append_assoc, List.append_assoc,
    ← told_append, ← told_append]
  rfl

theorem State.tellRestart_acts (lost : Bool) : (s.tellRestart lost).acts = s.acts ++
    told [(lost, reportOf .timeStep 1), (decide (s.store.config.state = .restored), reportOf .retainedStoreLost 1),
      (decide (s.store.accounts.state = .restored), reportOf .retainedStoreLost 2),
      (decide (s.store.queues.state = .restored), reportOf .retainedStoreLost 3),
      (!s.plantRelease, raiseOf .plantReleaseLost 1 .selfClearing)] := by
  have battery : (s.tellBattery lost).acts = s.acts ++ told [(lost, reportOf .timeStep 1)] := by
    cases lost
    · exact (List.append_nil _).symm
    · rfl
  have same : (s.tellBattery lost).store = s.store := by cases lost <;> rfl
  have stored := State.tellStore_acts (s := s.tellBattery lost)
  rw [battery, same] at stored
  have level : (s.tellBattery lost).tellStore.plantRelease = s.plantRelease := by
    rw [State.tellStore, State.tellLost_plantRelease, State.tellLost_plantRelease, State.tellLost_plantRelease]
    cases lost <;> rfl
  have release : (s.tellRestart lost).acts = (s.tellBattery lost).tellStore.acts ++
      told [(!s.plantRelease, raiseOf .plantReleaseLost 1 .selfClearing)] := by
    rw [← level]
    have eq : s.tellRestart lost = if (s.tellBattery lost).tellStore.plantRelease then (s.tellBattery lost).tellStore
        else (s.tellBattery lost).tellStore.tellRaise .plantReleaseLost 1 := rfl
    rw [eq]
    cases (s.tellBattery lost).tellStore.plantRelease
    · rfl
    · exact (List.append_nil _).symm
  rw [release, stored, List.append_assoc, List.append_assoc, ← told_append, ← told_append]
  rfl

/-- The acts of the ESU, the clock VALID or not. -/
theorem State.scheduleRestart_told (start : s.EsuAtStart) : s.scheduleRestart.acts = s.acts ++
    told [(s.scheduleRestart.esu.missing, raiseOf .nominationMissing 1 .selfClearing),
      (!s.clock.valid && s.que.interval.isSome && decide (192 ≤ s.que.settlements.length),
        reportOf .settlementOverrun 1)] := by
  rw [State.scheduleRestart_acts start]
  congr 1
  cases valid : s.clock.valid with
  | true =>
    rw [if_pos rfl, missingActs]
    cases s.scheduleRestart.esu.missing <;> rfl
  | false =>
    have known : s.scheduleRestart.esu.missing = false := by
      rw [State.scheduleRestart, if_neg (by rw [valid]; decide), State.scheduleRestartInvalid_esu, start.esu]
      rfl
    rw [known, if_neg (by decide), overrunActs]
    by_cases opened : s.que.interval.isSome = true <;> by_cases full : 192 ≤ s.que.settlements.length <;>
      simp [opened, full, told, reportOf]

theorem State.metersRestart_acts (lost : Bool) : (s.metersRestart lost).acts = s.acts := by
  unfold State.metersRestart
  dsimp only
  split <;> split <;> rfl

theorem State.tellMeter_acts (k : Substation) : (s.tellMeter k).acts = s.acts ++ told (meterActs s.acc.meters k) := by
  unfold State.tellMeter meterActs
  generalize s.acc.meters[k] = m
  by_cases jump : m.pendingMark.isSome = true <;> by_cases estimates : m.state = .estimating <;>
    simp [jump, estimates, told, raiseOf, State.classLatch, substationNumber]

theorem State.tellMeter_acc (k : Substation) : (s.tellMeter k).acc = s.acc := by
  unfold State.tellMeter
  dsimp only
  split <;> split <;> rfl

theorem State.tellMeters_acts : ∀ (l : List Substation) (s : State), (l.foldl State.tellMeter s).acts =
    s.acts ++ told (l.flatMap (meterActs s.acc.meters))
  | [], s => (List.append_nil _).symm
  | k :: l, s => by
    rw [List.foldl_cons, State.tellMeters_acts l, State.tellMeter_acts, State.tellMeter_acc, List.flatMap_cons, told_append,
      List.append_assoc]

theorem State.tellHeat_acts : s.tellHeat.acts = s.acts ++ told ((List.finRange 48).flatMap (meterActs s.acc.meters)) :=
  State.tellMeters_acts _ s

end Sys2Proof.Machine
end

section
/-! SUPPORT. The state at the end of a restart, stage by stage: the schedule, the books, the meters, the store, the table
(R133, R135, R152, R153, R176, R177); with O21. -/

namespace Sys2Proof.Machine

variable {s t u : State} {found : StoreFinding}

/-! ### What the billing leaves of the schedule -/

/-- Of the QUEUES contents only the bills changed, of the configuration not the contract. -/
structure BillsOnly (s t : State) : Prop where
  que : t.que = { s.que with bills := t.que.bills, nextBill := t.que.nextBill }
  contract : t.cfg.contract = s.cfg.contract

theorem BillsOnly.trans (h : BillsOnly s t) (k : BillsOnly t u) : BillsOnly s u :=
  ⟨by rw [k.que, h.que], k.contract.trans h.contract⟩

theorem State.runIssue_billsOnly : BillsOnly s s.runIssue := by
  obtain ⟨news, issues⟩ := s.runIssue_issues
  exact ⟨by rw [issues.que], congrArg _ (State.issueBills_changes (s := s) 48 .cfg (by decide))⟩

theorem State.evaluateQueueFull_billsOnly : BillsOnly s s.evaluateQueueFull :=
  ⟨by rw [State.evaluateQueueFull_que], by rw [State.evaluateQueueFull_cfg]⟩

theorem State.closeWith_billsOnly (n : Nat) (finish : Int) : BillsOnly s (s.closeWith n finish) := by
  have closed : BillsOnly s (s.closePeriods n finish) :=
    ⟨by rw [State.closePeriods_que], by rw [State.closePeriods_cfg]; rfl⟩
  exact (closed.trans State.runIssue_billsOnly).trans State.evaluateQueueFull_billsOnly

theorem State.openAccounts_billsOnly : BillsOnly s s.openAccounts :=
  ⟨by rw [State.openAccounts_que], by rw [State.openAccounts_cfg]⟩

theorem State.billingRestart_billsOnly (unmarked : s.bu.queueFull = false) : BillsOnly s s.billingRestart := by
  have issued := (State.openAccounts_billsOnly (s := s)).trans
    (State.runIssue_billsOnly.trans State.evaluateQueueFull_billsOnly)
  by_cases valid : s.clock.valid = true
  · obtain ⟨-, same⟩ | ⟨-, -, same⟩ | ⟨-, -, same⟩ := State.billingRestart_closes unmarked valid
    · rw [same]; exact issued
    · rw [same]; exact State.openAccounts_billsOnly.trans (State.closeWith_billsOnly _ _)
    · rw [same]
      exact (State.openAccounts_billsOnly.trans (State.closeWith_billsOnly _ _)).trans (State.closeWith_billsOnly _ _)
  · rw [State.billingRestart_invalid (Bool.eq_false_iff.mpr valid)]
    exact issued

theorem State.scheduleRestart_bills (start : s.EsuAtStart) :
    s.scheduleRestart.que.bills = s.que.bills ∧ s.scheduleRestart.que.nextBill = s.que.nextBill ∧
      (s.que.nominations = [] → s.scheduleRestart.que.nominations = []) := by
  unfold State.scheduleRestart
  split
  · obtain ⟨gap, eq⟩ | ⟨iv, eq⟩ := State.scheduleRestartValid_outcome start
    · have que := State.restartOpens_que (s := s) gap
      rw [State.ordersReckoned_que] at que
      rw [eq, que]
      exact ⟨rfl, rfl, fun none => by rw [none]; rfl⟩
    · have que := State.restartContinues_que (s := s) iv
      rw [State.ordersReckoned_que] at que
      rw [eq, que]
      exact ⟨rfl, rfl, fun none => by dsimp only; rw [none]; rfl⟩
  · cases h : s.que.interval with
    | none =>
      rw [State.scheduleRestartInvalid_shut_que h]
      exact ⟨rfl, rfl, fun none => by rw [State.gridQueues, none]; rfl⟩
    | some iv =>
      rw [State.scheduleRestartInvalid_open_que h]
      exact ⟨rfl, rfl, fun none => by rw [State.gridQueues]; dsimp only; rw [none]; rfl⟩

/-! ### From stage to stage -/

theorem State.reported_que : (s.reported found).que = (s.started found).que := State.reported_changes .que (by decide)

theorem State.reported_clock : (s.reported found).clock = (s.started found).clock := State.reported_changes .clock (by decide)

theorem State.rescheduled_changes : ChangesOnly [.que, .esu, .marks, .choices] (s.started found) (s.rescheduled found) :=
  (State.reported_changes.mono (by decide)).trans State.scheduleRestart_changes

theorem State.rescheduled_cfg : (s.rescheduled found).cfg = (s.started found).cfg :=
  State.rescheduled_changes .cfg (by decide)

theorem State.rescheduled_acc : (s.rescheduled found).acc = (s.started found).acc :=
  State.rescheduled_changes .acc (by decide)

theorem State.rescheduled_clock : (s.rescheduled found).clock = (s.started found).clock :=
  State.rescheduled_changes .clock (by decide)

theorem State.rescheduled_unmarked : (s.rescheduled found).bu.queueFull = false :=
  congrArg BillingUnit.queueFull (State.rescheduled_changes (s := s) (found := found) .bu (by decide))

theorem State.rescheduled_bills : (s.rescheduled found).que.bills = (s.started found).que.bills ∧
    (s.rescheduled found).que.nextBill = (s.started found).que.nextBill := by
  obtain ⟨bills, next, -⟩ := State.scheduleRestart_bills (State.reported_esuAtStart (s := s) (found := found))
  rw [State.reported_que] at bills next
  exact ⟨bills, next⟩

/-- The work of the HMU at a restart reaches the meters alone. -/
theorem State.metersRestart_acc (lost : Bool) : (s.metersRestart lost).acc =
    { s.acc with meters := if lost then s.acc.meters.map SubstationAccount.configLost else s.acc.meters } := by
  unfold State.metersRestart
  generalize (if lost = true then s.acc.meters.map SubstationAccount.configLost else s.acc.meters) = meters
  by_cases same : meters = s.acc.meters
  · rw [if_pos same, same]
  · rw [if_neg same]
    rfl

theorem State.tellHeat_acc : s.tellHeat.acc = s.acc := State.tellHeat_changes .acc (by decide)

/-- The configuration was lost. -/
def State.configLost (s : State) (found : StoreFinding) : Bool := !(s.foundStore found).config.found?.isSome

theorem Retained.restored_iff {α : Type} (r : Retained α) (x : α) :
    decide ((r.checked x).state = .restored) = !r.found?.isSome := by
  rw [Retained.checked_state]
  cases r.found?.isSome <;> rfl

theorem State.rebilled_store : (s.rebilled found).store = (s.started found).store :=
  State.rebilled_changes .store (by decide)

theorem State.rebilled_configLost : decide ((s.rebilled found).store.config.state = .restored) = s.configLost found := by
  rw [State.rebilled_store]
  exact Retained.restored_iff _ _

theorem State.restart_acc : (s.restart found).acc =
    { (s.rebilled found).acc with
      meters := if s.configLost found then (s.started found).acc.meters.map SubstationAccount.configLost
        else (s.started found).acc.meters } := by
  have same : (s.restart found).acc = (s.remetered found).acc := by
    rw [State.restart_eq]; exact State.endEvent_changes .acc (by decide)
  rw [same, State.remetered, State.tellHeat_acc, State.metersRestart_acc, State.rebilled_configLost, State.rebilled,
    State.billingRestart_meters State.rescheduled_unmarked, State.rescheduled_acc]

theorem State.restart_after_billing :
    ChangesOnly [.acc, .marks, .conditions, .choices, .store] (s.rebilled found) (s.restart found) := by
  rw [State.restart_eq]
  exact (((State.metersRestart_changes _).mono (by decide)).trans (State.tellHeat_changes.mono (by decide))).trans
    (State.endEvent_changes.mono (by decide))

theorem State.restart_que : (s.restart found).que = (s.rebilled found).que := State.restart_after_billing .que (by decide)

theorem State.restart_cfg : (s.restart found).cfg = (s.rebilled found).cfg := State.restart_after_billing .cfg (by decide)

theorem State.restart_bu : (s.restart found).bu = (s.rebilled found).bu := State.restart_after_billing .bu (by decide)

theorem State.restart_clock : (s.restart found).clock = (s.started found).clock := State.restart_changes .clock (by decide)

/-- The books at the end of a restart are those the BU leaves. -/
theorem State.restart_books : BooksKept (s.rebilled found) (s.restart found) :=
  ⟨State.restart_cfg, by rw [State.restart_acc], by rw [State.restart_que], by rw [State.restart_que]⟩

/-- The schedule at the end of a restart is the one the ESU leaves. -/
theorem State.restart_schedule : ScheduleKept (s.reported found).scheduleRestart (s.restart found) := by
  have bills := State.billingRestart_billsOnly (State.rescheduled_unmarked (s := s) (found := found))
  have esu : (s.rebilled found).esu = (s.rescheduled found).esu := State.billingRestart_changes .esu (by decide)
  refine ⟨by rw [State.restart_que]; exact bills.que, ?_, ?_, by rw [State.restart_cfg]; exact bills.contract⟩
  · exact Eq.trans (State.restart_after_billing .esu (by decide)) esu
  · exact State.restart_clock.trans State.rescheduled_clock.symm

end Sys2Proof.Machine
end

section
/-! SUPPORT. A restart that found a region lost, the store it leaves, and the table (R135, R153, R176); with O21. -/

namespace Sys2Proof.Machine

variable {s t u : State} {found : StoreFinding}

/-! ### The CONFIG region lost -/

theorem ConfigRegion.default_staged : { ConfigRegion.default with
    tariff := ConfigRegion.default.pendingTariff.getD ConfigRegion.default.tariff
    pendingTariff := none
    substations := ConfigRegion.default.substations.map fun x => x.map fun c => { c with group := c.staged } } =
      ConfigRegion.default := by
  have none : ConfigRegion.default.substations.map (fun x => x.map fun c => { c with group := c.staged }) =
      ConfigRegion.default.substations := by
    rw [ConfigRegion.default, Vector.map_replicate]
    rfl
  rw [none]
  rfl

theorem ClosedBooks.cfg_default {n : Nat} {finish : Int} (h : ClosedBooks s t n finish) (lost : s.cfg = .default) :
    t.cfg = .default := by
  rw [h.cfg, lost]
  exact ConfigRegion.default_staged

theorem State.billingRestart_cfg_default (unmarked : s.bu.queueFull = false) (lost : s.cfg = .default) :
    s.billingRestart.cfg = .default := by
  have kept := BooksKept.refl s.billingRestart
  have opened : s.openAccounts.cfg = .default := State.openAccounts_cfg.trans lost
  by_cases none : s.clock.valid = true → s.dueAfter s.restartMark = []
  · exact (kept.unclosed unmarked none).cfg.trans lost
  · obtain ⟨valid, some⟩ := Classical.not_imp.mp none
    obtain ⟨last, due⟩ := Option.isSome_iff_exists.mp (List.getLast?_isSome.mpr some)
    have closed := kept.closed unmarked valid due
    cases later : (dueCloses (s.cfg.pendingTariff.getD s.cfg.tariff) last s.clock.localTime).getLast? with
    | none => exact (closed.one (List.getLast?_eq_none_iff.mp later)).cfg_default opened
    | some second =>
      obtain ⟨u, -, -, first, again⟩ := closed.two second later
      exact again.cfg_default (first.cfg_default opened)

/-! ### The ACCOUNTS region lost -/

theorem dueCloses_self (x : Tariff) (mark : Int) : dueCloses x mark mark = [] :=
  List.filter_eq_nil_iff.mpr fun t _ => by simp only [decide_eq_true_eq]; omega

/-- The accounts a restart works with are those it restored. -/
def State.AccountsFresh (s : State) : Prop :=
  s.acc = .restored s.cfg s.clock.reading (if s.clock.valid then some s.clock.localTime else none)

theorem State.AccountsFresh.ledger (fresh : s.AccountsFresh) (k : Substation) : s.acc.ledgers[k] =
    { current := .opened (some s.clock.reading) 1, closing := none, booked := 0, issued := 0 } := by
  rw [fresh, AccountsRegion.restored, AccountsRegion.opened, Fin.getElem_fin, Vector.getElem_replicate]
  rfl

theorem State.AccountsFresh.period (fresh : s.AccountsFresh) : s.acc.period = 1 := by rw [fresh]; rfl

theorem State.AccountsFresh.mark (fresh : s.AccountsFresh) :
    s.acc.closeMark = if s.clock.valid then some s.clock.localTime else none := by rw [fresh]; rfl

theorem State.AccountsFresh.meter (fresh : s.AccountsFresh) (k : Substation) : s.acc.meters[k] =
    { SubstationAccount.default with state := if (s.cfg.substations[k]).isSome then .fresh else .disconnected } := by
  rw [fresh, AccountsRegion.restored, Fin.getElem_fin, Vector.getElem_map]
  rfl

theorem State.AccountsFresh.openLedgers (fresh : s.AccountsFresh) : s.openLedgers = s.acc.ledgers := by
  refine Vector.ext fun i hi => ?_
  have ledger := fresh.ledger ⟨i, hi⟩
  rw [Fin.getElem_fin] at ledger
  rw [State.openLedgers, Vector.getElem_map, ledger]
  rfl

theorem State.AccountsFresh.openAccounts (fresh : s.AccountsFresh) : s.openAccounts = s := by
  have mark : (if s.clock.valid then some s.restartMark else s.acc.closeMark) = s.acc.closeMark := by
    cases valid : s.clock.valid with
    | false => rfl
    | true => rw [if_pos rfl, State.restartMark, fresh.mark, valid]; rfl
  rw [State.openAccounts_eq]
  exact if_pos (by rw [State.openedAccounts, fresh.openLedgers, mark])

theorem State.AccountsFresh.billingRestart (fresh : s.AccountsFresh) : s.billingRestart = s := by
  have waits : s.firstClosing = none := by
    refine List.find?_eq_none.mpr fun k _ => ?_
    rw [fresh.ledger k]
    exact Bool.false_ne_true
  have issued : s.runIssue.evaluateQueueFull = s := by
    rw [State.Exhausted.runIssue fun some => by rw [waits] at some; cases some]
    exact State.evaluateQueueFull_of_known fun some => by rw [waits] at some; cases some
  rw [State.billingRestart, fresh.openAccounts, State.reckonCloses]
  cases valid : s.clock.valid with
  | false => exact issued
  | true =>
    have mark : s.acc.closeMark = some s.clock.localTime := by rw [fresh.mark, valid]; rfl
    have closed : s.scheduledClose = s := State.scheduledClose_of_none mark (dueCloses_self _ _)
    rw [if_pos rfl, closed, closed]
    exact issued

/-- A meter without a configuration has nothing a loss of CONFIG could take. -/
theorem State.AccountsFresh.metersLost (fresh : s.AccountsFresh) (lost : s.cfg = .default) :
    s.acc.meters.map SubstationAccount.configLost = s.acc.meters := by
  refine Vector.ext fun i hi => ?_
  have meter := fresh.meter ⟨i, hi⟩
  have none : (s.cfg.substations[(⟨i, hi⟩ : Substation)]).isSome = false := by
    rw [lost, ConfigRegion.default, Fin.getElem_fin, Vector.getElem_replicate]
    rfl
  rw [none, Fin.getElem_fin] at meter
  rw [Vector.getElem_map, meter]
  rfl

theorem State.rescheduled_fresh (lost : (s.foundStore found).accounts.found? = none) : (s.rescheduled found).AccountsFresh := by
  rw [State.AccountsFresh, State.rescheduled_acc, State.rescheduled_cfg, State.rescheduled_clock, State.started_acc,
    State.started_cfg, Retained.contents, lost]
  rfl

theorem State.configLost_cfg (lost : s.configLost found = true) : (s.started found).cfg = .default := by
  have none : (s.foundStore found).config.found? = none :=
    Option.not_isSome_iff_eq_none.mp (by simpa [State.configLost] using lost)
  rw [State.started_cfg, Retained.contents, none]
  rfl

/-- The accounts restored are those the restart ends with. -/
theorem State.restart_acc_lost (lost : (s.foundStore found).accounts.found? = none) :
    (s.restart found).acc = (s.started found).acc := by
  have fresh := State.rescheduled_fresh lost
  rw [State.restart_acc, State.rebilled, fresh.billingRestart, State.rescheduled_acc]
  cases config : s.configLost found with
  | false => rfl
  | true =>
    have none := fresh.metersLost (State.rescheduled_cfg.trans (State.configLost_cfg config))
    rw [State.rescheduled_acc] at none
    rw [if_pos rfl, none]

/-! ### The store at the end -/

theorem Retained.write_state {α : Type} (r : Retained α) (x : α) : (r.write x).state = r.state := by
  unfold Retained.write
  dsimp only
  split <;> rfl

/-- A region as it was, or written once. -/
theorem Retained.write_if_state {α : Type} (r : Retained α) (x : α) (b : Bool) :
    (if b then r.write x else r).state = r.state := by
  cases b
  · rfl
  · exact Retained.write_state r x

theorem Retained.write_if_both {α : Type} (r : Retained α) (x : α) (b : Bool) (h : r.both (· = x)) :
    (if b then r.write x else r).both (· = x) := by
  cases b
  · exact h
  · exact Retained.write_both r x h rfl

theorem Retained.checked_lost {α : Type} {r : Retained α} (x : α) (lost : r.found? = none) :
    (r.checked x).both (· = x) := by
  rw [Retained.checked, lost]
  exact ⟨rfl, rfl⟩

/-- The end of a restart writes each region once or not at all. -/
theorem State.restart_store : ∃ (config accounts queues : Bool) (image : QueuesRegion), (s.restart found).store =
    { config := if config then (s.started found).store.config.write (s.restart found).cfg else (s.started found).store.config
      accounts := if accounts then (s.started found).store.accounts.write (s.restart found).acc
        else (s.started found).store.accounts
      queues := if queues then (s.started found).store.queues.write image else (s.started found).store.queues } := by
  have store : (s.remetered found).takeActs.store = (s.started found).store :=
    Eq.trans (State.takeActs_changes .store (by decide)) (State.remetered_changes .store (by decide))
  have link : (s.remetered found).takeActs.hlu = (s.started found).hlu :=
    Eq.trans (State.takeActs_changes .hlu (by decide)) (State.remetered_changes .hlu (by decide))
  have cfg : (s.restart found).cfg = (s.remetered found).takeActs.cfg := by
    rw [State.restart_eq]; exact State.writeMarked_changes _ .cfg (by decide)
  have acc : (s.restart found).acc = (s.remetered found).takeActs.acc := by
    rw [State.restart_eq]; exact State.writeMarked_changes _ .acc (by decide)
  refine ⟨(s.remetered found).takeActs.marks.config, (s.remetered found).takeActs.marks.accounts,
    (s.remetered found).takeActs.marks.queues, (s.remetered found).takeActs.queuesImage, ?_⟩
  rw [cfg, acc, ← store]
  conv_lhs => rw [State.restart_eq, State.endEvent, State.writeMarked_store]
  rw [if_neg]
  rw [link]
  exact Bool.false_ne_true

end Sys2Proof.Machine
end

section
/-! SUPPORT. The restart, clause by clause (R105, R152, R176, R177); with O21. -/

namespace Sys2Proof.Machine

variable {s t u r : State} {found : StoreFinding}

/-! ### The table (R84, R133, R162, R172, R176) -/

/-- What the restart of `s` finds and leaves that its conditions report. -/
def State.restartCauses (s : State) (found : StoreFinding) : RestartCauses where
  battery := found.batteryLost
  config := !(s.foundStore found).config.found?.isSome
  accounts := !(s.foundStore found).accounts.found?.isSome
  queues := !(s.foundStore found).queues.found?.isSome
  release := !s.plantRelease
  missing := (s.restart found).esu.missing
  overrun := !(s.restart found).clock.valid && (s.started found).que.interval.isSome &&
    decide (192 ≤ (s.started found).que.settlements.length)
  full := (s.restart found).bu.queueFull
  meters := (s.restart found).acc.meters

section Causes

variable (s : State) (found : StoreFinding)

theorem State.restartCauses_config : (s.restartCauses found).config = !(s.foundStore found).config.found?.isSome := by
  rw [State.restartCauses]

theorem State.restartCauses_accounts :
    (s.restartCauses found).accounts = !(s.foundStore found).accounts.found?.isSome := by rw [State.restartCauses]

theorem State.restartCauses_queues : (s.restartCauses found).queues = !(s.foundStore found).queues.found?.isSome := by
  rw [State.restartCauses]

theorem State.restartCauses_release : (s.restartCauses found).release = !s.plantRelease := by rw [State.restartCauses]

theorem State.restartCauses_missing : (s.restartCauses found).missing = (s.restart found).esu.missing := by
  rw [State.restartCauses]

theorem State.restartCauses_full : (s.restartCauses found).full = (s.restart found).bu.queueFull := by
  rw [State.restartCauses]

theorem State.restartCauses_meters : (s.restartCauses found).meters = (s.restart found).acc.meters := by
  rw [State.restartCauses]

end Causes

theorem State.started_plantRelease : (s.started found).plantRelease = s.plantRelease := by
  obtain ⟨-, -, level⟩ := s.foundClock_power (found := found)
  exact level

theorem State.reported_acts : (s.reported found).acts = told (s.restartCauses found).first := by
  have store := State.started_store (s := s) (found := found)
  rw [State.reported, State.tellRestart_acts, State.started_plantRelease, store]
  unfold Store.checked
  dsimp only
  rw [Retained.restored_iff, Retained.restored_iff, Retained.restored_iff]
  exact List.nil_append _

theorem State.rescheduled_acts : (s.rescheduled found).acts =
    told ((s.restartCauses found).first ++ (s.restartCauses found).schedule) := by
  have missing : (s.restart found).esu.missing = (s.reported found).scheduleRestart.esu.missing :=
    congrArg ExportUnit.missing State.restart_schedule.esu
  have clock : (s.restart found).clock = (s.reported found).clock := State.restart_clock.trans State.reported_clock.symm
  rw [told_append, ← State.reported_acts, RestartCauses.schedule, State.restartCauses, missing, clock, ← State.reported_que]
  exact State.scheduleRestart_told State.reported_esuAtStart

theorem fullActs_told (after : Bool) : fullActs false after = told [(after, raiseOf .billQueueFull 1 .selfClearing)] := by
  cases after <;> rfl

theorem State.rebilled_reckoned : FullReckoned (s.rescheduled found) (s.rebilled found) :=
  State.billingRestart_reckoned State.rescheduled_unmarked

theorem State.rebilled_acts : (s.rebilled found).acts =
    told ((s.restartCauses found).first ++ (s.restartCauses found).schedule ++
      [((s.restart found).bu.queueFull, raiseOf .billQueueFull 1 .selfClearing)]) := by
  rw [told_append, ← State.rescheduled_acts, ← fullActs_told, State.rebilled_reckoned.acts, State.rescheduled_unmarked,
    State.restart_bu]

theorem State.remetered_acts : (s.remetered found).acts = told (s.restartCauses found).all := by
  have same : (s.restart found).acc = (s.remetered found).acc := by
    rw [State.restart_eq]; exact State.endEvent_changes .acc (by decide)
  have meters : (s.restart found).acc =
      ((s.rebilled found).metersRestart (decide ((s.rebilled found).store.config.state = .restored))).acc := by
    rw [same, State.remetered, State.tellHeat_acc]
  rw [RestartCauses.all, told_append, State.restartCauses_full, State.restartCauses_meters, ← State.rebilled_acts, meters, State.remetered, State.tellHeat_acts,
    State.metersRestart_acts]

theorem State.restart_shows : (s.restart found).TableShows (told (s.restartCauses found).all) := by
  have empty : (s.remetered found).conditions = (s.started found).conditions :=
    State.remetered_changes .conditions (by decide)
  rw [State.restart_eq]
  exact RestartCauses.shows _ (empty.trans rfl) State.remetered_acts

theorem State.restart_only (i : Fin 128) (e : ConditionEntry) (held : (s.restart found).conditions[i] = some e) :
    e.key ∈ restartKeys :=
  restartOrder_sub _ ((RestartCauses.told_keys _).subset (State.restart_shows.only i e held))

/-- The entries that a restart leaves, cause by cause. -/
structure RestartCauses.Shown (c : RestartCauses) (t : State) : Prop where
  release : t.shown .plantReleaseLost 1 = if c.release then some (.active, 1) else none
  battery : t.shown .timeStep 1 = if c.battery then some (.latched, 1) else none
  overrun : t.shown .settlementOverrun 1 = if c.overrun then some (.latched, 1) else none
  config : t.shown .retainedStoreLost 1 = if c.config then some (.latched, 1) else none
  accounts : t.shown .retainedStoreLost 2 = if c.accounts then some (.latched, 1) else none
  queues : t.shown .retainedStoreLost 3 = if c.queues then some (.latched, 1) else none
  missing : t.shown .nominationMissing 1 = if c.missing then some (.active, 1) else none
  full : t.shown .billQueueFull 1 = if c.full then some (.active, 1) else none
  jump : ∀ k : Substation, t.shown .meterJump (k.val + 1) =
    if (c.meters[k]).pendingMark.isSome then some (.active, 1) else none
  estimating : ∀ k : Substation, t.shown .substationEstimating (k.val + 1) =
    if decide ((c.meters[k]).state = .estimating) then some (.active, 1) else none

theorem RestartCauses.mem_meters (c : RestartCauses) (k : Substation) {x : Bool × ConditionAct}
    (mem : x ∈ meterActs c.meters k) : x ∈ c.all :=
  List.mem_append_right _ (List.mem_flatMap.mpr ⟨k, List.mem_finRange k, mem⟩)

theorem RestartCauses.shown (c : RestartCauses) (h : t.TableShows (told c.all)) : c.Shown t := by
  have entry {b : Bool} {a : ConditionAct} (mem : (b, a) ∈ c.all) := h.shown_told c.all_nodup mem
  have first {x : Bool × ConditionAct} (mem : x ∈ c.first) : x ∈ c.all :=
    List.mem_append_left _ (List.mem_append_left _ (List.mem_append_left _ mem))
  have schedule {x : Bool × ConditionAct} (mem : x ∈ c.schedule) : x ∈ c.all :=
    List.mem_append_left _ (List.mem_append_left _ (List.mem_append_right _ mem))
  have full : (c.full, raiseOf .billQueueFull 1 .selfClearing) ∈ c.all :=
    List.mem_append_left _ (List.mem_append_right _ (List.mem_singleton_self _))
  exact {
    release := entry (a := raiseOf .plantReleaseLost 1 .selfClearing) (first (by simp [RestartCauses.first]))
    battery := entry (a := reportOf .timeStep 1) (first (by simp [RestartCauses.first]))
    overrun := entry (a := reportOf .settlementOverrun 1) (schedule (by simp [RestartCauses.schedule]))
    config := entry (a := reportOf .retainedStoreLost 1) (first (by simp [RestartCauses.first]))
    accounts := entry (a := reportOf .retainedStoreLost 2) (first (by simp [RestartCauses.first]))
    queues := entry (a := reportOf .retainedStoreLost 3) (first (by simp [RestartCauses.first]))
    missing := entry (a := raiseOf .nominationMissing 1 .selfClearing) (schedule (by simp [RestartCauses.schedule]))
    full := entry full
    jump := fun k => entry (c.mem_meters k List.mem_cons_self)
    estimating := fun k => entry (c.mem_meters k (List.mem_cons_of_mem _ List.mem_cons_self)) }

theorem State.restart_shown : (s.restartCauses found).Shown (s.restart found) := RestartCauses.shown _ State.restart_shows

/-! ### The books (R152) -/

/-- What no close leaves, in the words of the ACCOUNTS contents found. -/
theorem State.BooksUnclosed.read {a : AccountsRegion} (h : r.BooksUnclosed t) (acc : r.acc = a) :
    (t.cfg = r.cfg ∧ t.acc.period = a.period ∧
      (∀ k : Substation, (t.acc.ledgers[k]).current = (r.openLedgers[k]).current ∧
        (t.acc.ledgers[k]).booked = (a.ledgers[k]).booked) ∧
      BillsIssued r.que.bills r.que.nextBill a.ledgers t fun k => (a.ledgers[k]).closing) ∧
    t.acc.closeMark = if r.clock.valid then some (a.closeMark.getD r.clock.localTime) else a.closeMark := by
  subst acc
  exact ⟨⟨h.cfg, h.period, h.ledgers, h.issued⟩, h.mark⟩

/-- A close from the opened accounts, from any state that shows the same books. -/
theorem ClosedBooks.from_opened {before : State} {n : Nat} {finish : Int} (h : ClosedBooks r.openAccounts u n finish)
    (acc : before.acc = { r.acc with ledgers := r.openLedgers }) (cfg : before.cfg = r.cfg) (clock : before.clock = r.clock)
    (bills : before.que.bills = r.que.bills) (next : before.que.nextBill = r.que.nextBill) :
    ClosedBooks before u n finish :=
  h.of_same (by rw [acc, State.openAccounts_acc]; rfl) (by rw [acc, State.openAccounts_acc]; rfl)
    (by rw [acc, State.openAccounts_acc]; rfl) (cfg.trans State.openAccounts_cfg.symm)
    (clock.trans State.openAccounts_clock.symm) (by rw [bills, State.openAccounts_que]) (by rw [next, State.openAccounts_que])

end Sys2Proof.Machine
end

section
/-! SUPPORT. The restart starts every block (R177); settles O21. -/

namespace Sys2Proof.Machine

variable {s t u r : State} {found : StoreFinding}

/-! ### The regions (R135, R153, R176) -/

theorem State.restart_regionStates :
    (s.restart found).store.config.state = (if (s.foundStore found).config.found?.isSome then .sound else .restored) ∧
    (s.restart found).store.accounts.state =
      (if (s.foundStore found).accounts.found?.isSome then .sound else .restored) ∧
    (s.restart found).store.queues.state = (if (s.foundStore found).queues.found?.isSome then .sound else .restored) := by
  obtain ⟨config, accounts, queues, image, eq⟩ := State.restart_store (s := s) (found := found)
  rw [eq]
  dsimp only
  rw [Retained.write_if_state, Retained.write_if_state, Retained.write_if_state, State.started_store]
  exact ⟨Retained.checked_state _ _, Retained.checked_state _ _, Retained.checked_state _ _⟩

theorem State.restart_configLost (lost : (s.foundStore found).config.found? = none) :
    (s.restart found).cfg = .default ∧ (s.restart found).store.config.both (· = .default) := by
  have given : (s.rescheduled found).cfg = .default := by
    rw [State.rescheduled_cfg, State.started_cfg, Retained.contents, lost]
    rfl
  have cfg : (s.restart found).cfg = .default :=
    State.restart_cfg.trans (State.billingRestart_cfg_default State.rescheduled_unmarked given)
  obtain ⟨config, accounts, queues, image, eq⟩ := State.restart_store (s := s) (found := found)
  refine ⟨cfg, ?_⟩
  rw [eq, cfg]
  exact Retained.write_if_both _ _ _ (Retained.checked_lost _ lost)

theorem State.started_fresh (lost : (s.foundStore found).accounts.found? = none) : (s.started found).AccountsFresh := by
  have fresh := State.rescheduled_fresh lost
  rwa [State.AccountsFresh, State.rescheduled_acc, State.rescheduled_cfg, State.rescheduled_clock] at fresh

theorem State.restart_cfg_lost (lost : (s.foundStore found).accounts.found? = none) :
    (s.restart found).cfg = (s.started found).cfg := by
  rw [State.restart_cfg, State.rebilled, (State.rescheduled_fresh lost).billingRestart, State.rescheduled_cfg]

theorem State.restart_accountsLost (lost : (s.foundStore found).accounts.found? = none) :
    (s.restart found).store.accounts.both (· = (s.restart found).acc) ∧ (s.restart found).acc.period = 1 ∧
      (s.restart found).acc.closeMark = (if (s.restart found).clock.valid
        then some ((s.restart found).clock.reading + 60 * (s.restart found).clock.offset) else none) ∧
      ∀ k : Substation, ((s.restart found).acc.ledgers[k]) =
          { current := .opened (some (s.restart found).clock.reading) 1, closing := none, booked := 0, issued := 0 } ∧
        (s.restart found).acc.meters[k] =
          { SubstationAccount.default with
            state := if ((s.restart found).cfg.substations[k]).isSome then .fresh else .disconnected } := by
  have fresh := State.started_fresh lost
  have acc := State.restart_acc_lost lost
  have both : (s.started found).store.accounts.both (· = (s.restart found).acc) := by
    rw [acc, State.started_acc, Retained.contents, lost]
    exact Retained.checked_lost _ lost
  obtain ⟨config, accounts, queues, image, eq⟩ := State.restart_store (s := s) (found := found)
  refine ⟨?_, ?_, ?_, fun k => ⟨?_, ?_⟩⟩
  · rw [eq]
    exact Retained.write_if_both _ _ _ both
  · rw [acc]
    exact fresh.period
  · rw [acc, State.restart_clock]
    exact fresh.mark
  · rw [acc, State.restart_clock]
    exact fresh.ledger k
  · rw [acc, State.restart_cfg_lost lost]
    exact fresh.meter k

/-! ### The schedule (R105, R116, R117) -/

theorem State.reported_found : (s.reported found).que = (s.foundStore found).queues.contents .default :=
  State.reported_que.trans State.started_que

theorem State.restart_reported_clock : (s.restart found).clock = (s.reported found).clock :=
  State.restart_clock.trans State.reported_clock.symm

theorem State.restart_contract : (s.restart found).cfg.contract = (s.reported found).cfg.contract :=
  State.restart_schedule.contract.trans (congrArg _ (State.scheduleRestart_changes .cfg (by decide)))

theorem State.restart_limit : (s.restart found).esu.effLimit = (s.restart found).limitNow ∧
    (s.restart found).esu.lastReading = none ∧
    (s.restart found).esu.missing = !(s.restart found).missingStarts.isEmpty := by
  have kept := State.restart_schedule (s := s) (found := found)
  have reckoned := State.scheduleRestart_reckoned (State.reported_esuAtStart (s := s) (found := found))
  rw [kept.limitNow, kept.missingStarts, kept.esu]
  exact ⟨reckoned.limit, reckoned.last, reckoned.missing⟩

theorem State.restart_queuesLost (lost : (s.foundStore found).queues.found? = none) :
    (s.restart found).que.nominations = [] ∧ (s.restart found).que.settlements = [] ∧
      (s.restart found).que.nextSettlement = 1 ∧ (s.restart found).que.orders = Vector.replicate 8 none := by
  have kept := State.restart_schedule (s := s) (found := found)
  have start := State.reported_esuAtStart (s := s) (found := found)
  have found' : (s.reported found).que = .default := by
    rw [State.reported_found, Retained.contents, lost]
    rfl
  have nominations : (s.restart found).que.nominations = [] := by
    rw [kept.que]
    exact (State.scheduleRestart_bills start).2.2 (by rw [found']; rfl)
  by_cases valid : (s.reported found).clock.valid = true
  · obtain ⟨settlements, next, -, orders⟩ := kept.orders_taken start valid
    rw [found'] at settlements next orders
    refine ⟨nominations, settlements, next, orders fun n o held => ?_⟩
    rw [QueuesRegion.default, Fin.getElem_fin, Vector.getElem_replicate] at held
    cases held
  · obtain ⟨-, -, orders, -, shut, -⟩ := kept.invalid start (Bool.eq_false_iff.mpr valid)
    rw [found'] at orders shut
    exact ⟨nominations, (shut rfl).1, (shut rfl).2, orders⟩

/-! ### The books (R152) -/

theorem State.rescheduled_found {a : AccountsRegion} (sound : (s.foundStore found).accounts.found? = some a) :
    (s.rescheduled found).acc = a := by
  rw [State.rescheduled_acc, State.started_acc, Retained.contents, sound, Option.getD_some]

theorem State.rescheduled_config : (s.rescheduled found).cfg = (s.foundStore found).config.contents .default :=
  State.rescheduled_cfg.trans State.started_cfg

theorem State.rescheduled_clock_end : (s.rescheduled found).clock = (s.restart found).clock :=
  State.rescheduled_clock.trans State.restart_clock.symm

theorem State.rescheduled_queues :
    (s.rescheduled found).que.bills = ((s.foundStore found).queues.contents .default).bills ∧
      (s.rescheduled found).que.nextBill = ((s.foundStore found).queues.contents .default).nextBill := by
  rw [← State.started_que]
  exact State.rescheduled_bills

theorem State.restart_books_lost (lost : (s.foundStore found).accounts.found? = none) :
    (s.restart found).cfg = (s.foundStore found).config.contents .default ∧
      (s.restart found).que.bills = ((s.foundStore found).queues.contents .default).bills ∧
      (s.restart found).que.nextBill = ((s.foundStore found).queues.contents .default).nextBill := by
  have same : (s.restart found).que = (s.rescheduled found).que := by
    rw [State.restart_que, State.rebilled, (State.rescheduled_fresh lost).billingRestart]
  rw [State.restart_cfg_lost lost, State.started_cfg, same]
  exact ⟨rfl, State.rescheduled_queues⟩

theorem State.restart_full : (s.restart found).bu.queueFull = (s.restart found).firstClosing.isSome ∧
    ((s.restart found).firstClosing.isSome → 96 ≤ (s.restart found).que.bills.length) := by
  have reckoned := State.rebilled_reckoned (s := s) (found := found)
  have first : (s.restart found).firstClosing = (s.rebilled found).firstClosing := by
    simp only [State.firstClosing, State.restart_books.ledgers]
  rw [State.restart_bu, State.restart_que, first]
  exact ⟨reckoned.full, reckoned.exhausted⟩

end Sys2Proof.Machine
end

section
/-! SUPPORT. The books after the closes of a restart, the held RESET (R152, R177); settles O21. -/

namespace Sys2Proof.Machine

variable {s t u r : State} {found : StoreFinding}

/-! ### The books with the ACCOUNTS region sound (R152) -/

theorem State.restart_unclosed {a : AccountsRegion} (sound : (s.foundStore found).accounts.found? = some a)
    (none : (s.restart found).clock.valid = true → dueCloses ((s.foundStore found).config.contents .default).tariff
      (a.closeMark.getD (s.restart found).clock.localTime) (s.restart found).clock.localTime = []) :
    (s.rescheduled found).BooksUnclosed (s.restart found) := by
  refine State.restart_books.unclosed State.rescheduled_unmarked fun valid => ?_
  rw [State.dueAfter, State.restartMark, State.rescheduled_found sound, State.rescheduled_config, State.rescheduled_clock_end]
  rw [State.rescheduled_clock_end] at valid
  exact none valid

theorem State.restart_closed {a : AccountsRegion} {last : Int} (sound : (s.foundStore found).accounts.found? = some a)
    (valid : (s.restart found).clock.valid = true)
    (due : (dueCloses ((s.foundStore found).config.contents .default).tariff
      (a.closeMark.getD (s.restart found).clock.localTime) (s.restart found).clock.localTime).getLast? = some last) :
    (s.rescheduled found).BooksClosed (s.restart found)
      (dueCloses ((s.foundStore found).config.contents .default).tariff
        (a.closeMark.getD (s.restart found).clock.localTime) (s.restart found).clock.localTime) last
      (dueCloses (((s.foundStore found).config.contents .default).pendingTariff.getD
        ((s.foundStore found).config.contents .default).tariff) last (s.restart found).clock.localTime) := by
  have after : (s.rescheduled found).dueAfter (s.rescheduled found).restartMark =
      dueCloses ((s.foundStore found).config.contents .default).tariff
        (a.closeMark.getD (s.restart found).clock.localTime) (s.restart found).clock.localTime := by
    rw [State.dueAfter, State.restartMark, State.rescheduled_found sound, State.rescheduled_config,
      State.rescheduled_clock_end]
  have valid' : (s.rescheduled found).clock.valid = true := by rw [State.rescheduled_clock_end]; exact valid
  rw [← after] at due
  have closed := State.restart_books.closed (State.rescheduled_unmarked (s := s) (found := found)) valid' due
  rwa [after, State.rescheduled_config, State.rescheduled_clock_end] at closed

/-! ### RESET held (R177) -/

theorem State.standsInReset (held : s.resetHeld = true) :
    s.StandsInReset ({ s with powered := true } : State).atStart := by
  have start := State.atStart_blocks ({ s with powered := true } : State)
  have idle : ({ s with powered := true } : State).atStart.running = false := by
    rw [State.running]
    exact (congrArg _ (congrArg _ held)).trans (Bool.and_false _)
  have entries : ({ s with powered := true } : State).atStart.entries = [] := by
    simp [State.entries, State.atStart]
  have on (x : Bool) : ({ s with powered := true } : State).atStart.driven x = some x := rfl
  refine ⟨⟨rfl, held⟩, ⟨rfl, rfl, rfl⟩, fun b => ?_, fun n positive => ?_, ?_, ⟨rfl, rfl, start⟩, fun b stop => ?_,
    fun l b stop => ?_⟩
  · rw [State.gasPermitLine, State.auxPermitLine, start.boilers b, on]
    exact ⟨rfl, rfl⟩
  · obtain ⟨-, -, -, -, -, stages, -⟩ := start.cycle
    rw [State.flareLine, stages, on, decide_eq_false (by omega)]
  · rw [State.alertLine, State.faultOutput, on, on, State.alert, State.waitingEntries, State.faultLine, entries]
    exact ⟨rfl, rfl⟩
  · exact congrArg Host.Outcome.next (if_neg (by rw [idle]; exact Bool.false_ne_true))
  · exact congrArg Host.Outcome.next (if_neg (by rw [idle]; exact Bool.false_ne_true))

end Sys2Proof.Machine
end

section
/-! SUPPORT. The restart at a return of power and at a release of RESET (R177); settles O21. -/

namespace Sys2Proof.Machine

variable {s t u r : State} {found : StoreFinding}

theorem ite_not_bool {α : Type} (b : Bool) (x y : α) : (if (!b) = true then x else y) = if b = true then y else x := by
  cases b <;> rfl

/-- A return of power and a release of RESET restart the module, powered and released. -/
theorem exec_restarts {c : Instr} (begins : c = .powerOn found ∧ s.powered = false ∧ s.resetHeld = false ∨
    c = .resetReleased found ∧ s.powered = true ∧ s.resetHeld = true) :
    ∃ u : State, exec c s = .next (u.restart found) ∧ u.powered = true ∧ u.resetHeld = false ∧ u.store = s.store ∧
      u.clock = s.clock ∧ u.plantRelease = s.plantRelease := by
  rcases begins with ⟨rfl, dark, free⟩ | ⟨rfl, lit, held⟩
  · refine ⟨{ s with powered := true }, ?_, rfl, free, rfl, rfl, rfl⟩
    have on : s.powerOn found = ({ s with powered := true } : State).restart found := by
      rw [State.powerOn, if_neg (by rw [dark]; decide)]
      exact if_neg (by rw [free]; decide)
    exact congrArg Host.Outcome.next on
  · refine ⟨{ s with resetHeld := false }, ?_, lit, rfl, rfl, rfl, rfl⟩
    have freed : s.releaseReset found = ({ s with resetHeld := false } : State).restart found := by
      rw [State.releaseReset, if_pos held]
      exact if_pos lit
    exact congrArg Host.Outcome.next freed

theorem State.restart_power : (s.restart found).powered = s.powered ∧ (s.restart found).resetHeld = s.resetHeld := by
  obtain ⟨on, held⟩ := State.restart_changes (s := s) (found := found) .power (by decide)
  obtain ⟨on', held', -⟩ := s.foundClock_power (found := found)
  exact ⟨on.trans on', held.trans held'⟩

theorem State.restart_plantRelease : (s.restart found).plantRelease = s.plantRelease :=
  Eq.trans (State.restart_changes .plantRelease (by decide)) State.started_plantRelease

theorem State.restart_foundClock : (s.restart found).clock =
    if found.batteryLost then { reading := 0, valid := false, offset := 0 } else s.clock :=
  State.restart_clock.trans State.foundClock_clock

theorem State.restart_osc : (s.restart found).osc = 0 := State.restart_changes .osc (by decide)

theorem State.restart_meters {a : AccountsRegion} (sound : (s.foundStore found).accounts.found? = some a) :
    (s.restart found).acc.meters = if (s.foundStore found).config.found?.isSome then a.meters
      else a.meters.map SubstationAccount.configLost := by
  have acc : (s.started found).acc = a := by rw [State.started_acc, Retained.contents, sound, Option.getD_some]
  rw [State.restart_acc, State.configLost, acc]
  exact ite_not_bool _ _ _

/-- Without a close due, in the words of the ACCOUNTS contents found. -/
theorem State.restart_unclosed_found {a : AccountsRegion} (sound : (s.foundStore found).accounts.found? = some a)
    (none : (s.restart found).clock.valid = true → dueCloses ((s.foundStore found).config.contents .default).tariff
      (a.closeMark.getD (s.restart found).clock.localTime) (s.restart found).clock.localTime = []) :
    let q := (s.foundStore found).queues.contents .default
    let taken : Vector Ledger 48 := a.ledgers.map fun l =>
      { l with current := { l.current with start := some (l.current.start.getD (s.restart found).clock.reading) } }
    ((s.restart found).cfg = (s.foundStore found).config.contents .default ∧ (s.restart found).acc.period = a.period ∧
      (∀ k : Substation, ((s.restart found).acc.ledgers[k]).current = (taken[k]).current ∧
        ((s.restart found).acc.ledgers[k]).booked = (a.ledgers[k]).booked) ∧
      BillsIssued q.bills q.nextBill a.ledgers (s.restart found) fun k => (a.ledgers[k]).closing) ∧
    (s.restart found).acc.closeMark = if (s.restart found).clock.valid
      then some (a.closeMark.getD (s.restart found).clock.localTime) else a.closeMark := by
  have clause := (State.restart_unclosed sound none).read (State.rescheduled_found sound)
  obtain ⟨bills, next⟩ := State.rescheduled_queues (s := s) (found := found)
  rwa [State.openLedgers, State.rescheduled_found sound, State.rescheduled_config, State.rescheduled_clock_end, bills,
    next] at clause

/-- A close from the opened accounts, from a state that shows the books found. -/
theorem State.from_rescheduled {a : AccountsRegion} {before : State} {n : Nat} {finish : Int}
    (sound : (s.foundStore found).accounts.found? = some a)
    (h : ClosedBooks (s.rescheduled found).openAccounts t n finish)
    (acc : before.acc = { a with
      ledgers := a.ledgers.map fun l =>
        { l with current := { l.current with start := some (l.current.start.getD (s.restart found).clock.reading) } } })
    (cfg : before.cfg = (s.foundStore found).config.contents .default) (clock : before.clock = (s.restart found).clock)
    (bills : before.que.bills = ((s.foundStore found).queues.contents .default).bills)
    (next : before.que.nextBill = ((s.foundStore found).queues.contents .default).nextBill) :
    ClosedBooks before t n finish := by
  obtain ⟨bills', next'⟩ := State.rescheduled_queues (s := s) (found := found)
  refine h.from_opened ?_ (cfg.trans State.rescheduled_config.symm) (clock.trans State.rescheduled_clock_end.symm)
    (bills.trans bills'.symm) (next.trans next'.symm)
  rw [acc, State.openLedgers, State.rescheduled_found sound, State.rescheduled_clock_end]

/-- Settles O21: the restart stage by stage, the ESU's work by LimitMoves and OrdersTaken, the BU's by its runs of issuing,
and the table by the one raise of each key. -/
theorem restartStartsEveryBlock : Obligations.RestartStartsEveryBlock := by
  refine ⟨fun s found dark held => ⟨({ s with powered := true } : State).atStart, ?_, State.standsInReset held⟩, ?_⟩
  · have waits : s.powerOn found = ({ s with powered := true } : State).atStart := by
      rw [State.powerOn, if_neg (by rw [dark]; decide)]
      exact if_pos held
    exact congrArg Host.Outcome.next waits
  intro s found c begins
  obtain ⟨u, runs, powered, free, store, clock, level⟩ := exec_restarts begins
  rw [← store, ← clock, ← level, runs]
  have kept := State.restart_schedule (s := u) (found := found)
  have start := State.reported_esuAtStart (s := u) (found := found)
  refine ⟨_, rfl, ?frames, ?regions, ?schedule, ?books, State.restart_only, ?_⟩
  case frames =>
    obtain ⟨on, released⟩ := State.restart_power (s := u) (found := found)
    exact ⟨on.trans powered, released.trans free, State.restart_plantRelease, State.restart_foundClock, State.restart_osc,
      State.restart_blocks⟩
  case regions =>
    obtain ⟨config, accounts, queues⟩ := State.restart_regionStates (s := u) (found := found)
    exact ⟨config, accounts, queues, State.restart_configLost, State.restart_accountsLost, State.restart_queuesLost⟩
  case schedule =>
    obtain ⟨limit, last, missing⟩ := State.restart_limit (s := u) (found := found)
    refine ⟨limit, last, missing, fun invalid => ?_, fun valid => ?_, fun valid length => ?_⟩
    · rw [State.restart_reported_clock] at invalid
      have clause := kept.invalid start invalid
      rw [State.reported_found] at clause
      exact clause
    · rw [State.restart_reported_clock] at valid
      have clause := kept.orders_taken start valid
      rw [State.reported_found] at clause
      exact clause
    · rw [State.restart_reported_clock] at valid
      rw [State.restart_contract] at length
      have clause := kept.interval start valid length
      rw [State.reported_found] at clause
      exact clause
  case books =>
    refine ⟨State.restart_books_lost, fun a sound => ⟨State.restart_meters sound, fun invalid => ?_, fun valid => ⟨?_, ?_⟩⟩,
      State.restart_full⟩
    · have none : ¬ (u.restart found).clock.valid = true := by rw [invalid]; decide
      have clause := State.restart_unclosed_found sound fun valid => absurd valid none
      rw [if_neg none] at clause
      exact clause
    · intro due
      have clause := State.restart_unclosed_found sound fun _ => due
      rw [if_pos valid] at clause
      exact clause
    · intro last due
      have closed := State.restart_closed sound valid due
      have period := closed.period
      rw [State.rescheduled_found sound] at period
      refine ⟨period, closed.mark, fun none => State.from_rescheduled sound (closed.one none) rfl rfl (by dsimp only) rfl rfl,
        fun second isLast => ?_⟩
      obtain ⟨v, clock', meters, first, again⟩ := closed.two second isLast
      rw [State.rescheduled_clock_end] at clock'
      rw [State.rescheduled_found sound] at meters
      exact ⟨v, clock', meters, State.from_rescheduled sound first rfl rfl (by dsimp only) rfl rfl, again⟩
  obtain ⟨release, battery, overrun, config, accounts, queues, missing, full, jump, estimating⟩ :=
    State.restart_shown (s := u) (found := found)
  rw [State.restartCauses_release] at release
  rw [State.restartCauses_config] at config
  rw [State.restartCauses_accounts] at accounts
  rw [State.restartCauses_queues] at queues
  rw [State.restartCauses_missing] at missing
  rw [State.restartCauses_full] at full
  rw [State.restartCauses_meters] at jump estimating
  have overran : (u.restartCauses found).overrun = true ↔ (u.restart found).clock.valid = false ∧
      ((found.unsound.foldl Store.damage u.store).queues.contents .default).interval.isSome = true ∧
      192 ≤ ((found.unsound.foldl Store.damage u.store).queues.contents .default).settlements.length := by
    rw [State.restartCauses, State.started_que, State.foundStore]
    simp only [Bool.and_eq_true, Bool.not_eq_true', decide_eq_true_eq, and_assoc]
  rw [if_congr overran rfl rfl] at overrun
  exact ⟨release.trans (ite_not_bool _ _ _), battery, overrun, config.trans (ite_not_bool _ _ _),
    accounts.trans (ite_not_bool _ _ _), queues.trans (ite_not_bool _ _ _),
    missing, full, fun k => ⟨jump k, (estimating k).trans (if_congr decide_eq_true_iff rfl rfl)⟩⟩

end Sys2Proof.Machine
end

section
/-! SUPPORT. Configure Source and Set Source Service, by the source's setting (R22, R23, R25); settles O32. -/

namespace Sys2Proof.Machine

variable {s : State} {v x : Byte} {n : GasSource} {i : Instr} {f : State → Served}

/-! ### The operand bytes (R22, R23) -/

theorem readDefined_eq_none (h : 1 < x.toNat) : readDefined x = none := by
  unfold readDefined
  split
  · omega
  · omega
  · rfl

theorem readService_eq_none (h : 1 < x.toNat) : readService x = none := by
  unfold readService
  split
  · omega
  · omega
  · rfl

/-! ### A source's new setting, written, with what it tells the table -/

/-- The state with a new setting of source `n`, written to CONFIG. -/
def State.sourceWritten (s : State) (n : GasSource) (x : SourceSetting) : State :=
  s.withConfig { s.cfg with sources := s.cfg.sources.set n x }

/-- A request that sets a source and tells the table nothing. -/
theorem exec_setSource {x : SourceSetting} (owned : owner i = some f) (work : s.working = true)
    (h : f s = done (s.setSource n x)) : exec i s = .next (s.sourceWritten n x).answeredOk := by
  rw [exec_of_owner owned]
  exact serveRequest_config work h

/-- A request that sets a source and its unmeasured flag, and tells the table one act. -/
theorem exec_setSource_tell {x : SourceSetting} {flag : Bool} {a : ConditionAct} (owned : owner i = some f)
    (work : s.working = true) (h : f s = done (((s.setSource n x).setUnmeasured n flag).tell a)) :
    exec i s = .next ((((s.sourceWritten n x).setUnmeasured n flag).takeAct a).answeredOk) := by
  have quiet : ((s.setSource n x).setUnmeasured n flag).acts = [] := State.acts_of_working (s := s) work
  have marked : ((s.setSource n x).setUnmeasured n flag).marks = { config := true, accounts := false, queues := false } := by
    have clean := State.marks_of_working work
    simp [State.setSource, State.markConfig, clean]
  have written : ((s.setSource n x).setUnmeasured n flag).configWritten = (s.sourceWritten n x).setUnmeasured n flag :=
    congrArg (·.setUnmeasured n flag) (State.configWritten_markConfig (State.marks_of_working work) _)
  rw [exec_done owned work h, endEvent_config_tell quiet marked, written]

/-- A request that sets a source and clears its unmeasured flag (R22, R23, R25). -/
theorem exec_setSource_clear {x : SourceSetting} (owned : owner i = some f) (work : s.working = true)
    (h : f s = done ((s.setSource n x).clearUnmeasured n)) :
    exec i s = .next (if s.gas.unmeasured[n] then
      ((s.sourceWritten n x).setUnmeasured n false).endCause .sourceUnmeasured (n.val + 1)
      else s.sourceWritten n x).answeredOk := by
  by_cases flag : s.gas.unmeasured[n] = true
  · have told : (s.setSource n x).clearUnmeasured n =
        ((s.setSource n x).setUnmeasured n false).tellEnd .sourceUnmeasured (n.val + 1) := if_pos flag
    rw [if_pos flag]
    exact exec_setSource_tell owned work (h.trans (congrArg done told))
  · have untold : (s.setSource n x).clearUnmeasured n = s.setSource n x := if_neg flag
    rw [if_neg flag]
    exact exec_setSource owned work (h.trans (congrArg done untold))

/-- A request that puts a source in service and finds it measured or not (R23, R25). -/
theorem exec_setSource_find (owned : owner i = some f) (work : s.working = true)
    (h : f s = done (if (s.setSource n .inService).sourceMeasured n then s.setSource n .inService
      else (s.setSource n .inService).findUnmeasured n)) :
    exec i s = .next (if s.sourceMeasured n ∨ s.gas.unmeasured[n] then s.sourceWritten n .inService
      else ((s.sourceWritten n .inService).setUnmeasured n true).raise .sourceUnmeasured (n.val + 1)).answeredOk := by
  have measured : (s.setSource n .inService).sourceMeasured n = s.sourceMeasured n := rfl
  rw [measured] at h
  by_cases known : s.sourceMeasured n = true ∨ s.gas.unmeasured[n] = true
  · have untold : (if s.sourceMeasured n = true then s.setSource n .inService
        else (s.setSource n .inService).findUnmeasured n) = s.setSource n .inService := by
      obtain usable | flag := known
      · exact if_pos usable
      · exact ite_eq_left_iff.mpr fun _ => if_pos flag
    rw [if_pos known]
    exact exec_setSource owned work (h.trans (congrArg done untold))
  · obtain ⟨unusable, flag⟩ := not_or.mp known
    have told : (s.setSource n .inService).findUnmeasured n =
        ((s.setSource n .inService).setUnmeasured n true).tellRaise .sourceUnmeasured (n.val + 1) := if_neg flag
    rw [if_neg unusable, told] at h
    rw [if_neg known]
    exact exec_setSource_tell owned work h

/-! ### The owners, by the operands and the source's setting -/

/-- A number or a code out of range is refused. -/
theorem sourceOwners_badField (h : numbered 6 v = none ∨ 1 < x.toNat) :
    configureSourceOwner v x s = refuse s .badField ∧ setSourceServiceOwner v x s = refuse s .badField := by
  unfold configureSourceOwner setSourceServiceOwner
  obtain unknown | code := h
  · rw [unknown]
    exact ⟨rfl, rfl⟩
  · rw [readDefined_eq_none code, readService_eq_none code]
    cases numbered 6 v <;> exact ⟨rfl, rfl⟩

/-- Configure Source for a known source (R22). -/
theorem configureSourceOwner_eq (number : v.toNat = n.val + 1) :
    configureSourceOwner v 0 s =
      (if s.cfg.sources[n] = .notDefined then done (s.setSource n .outOfService) else done s) ∧
    configureSourceOwner v 1 s = (if s.cfg.sources[n] = .notDefined then done s
      else done ((s.setSource n .notDefined).clearUnmeasured n)) := by
  have defined : readDefined 0 = some true := rfl
  have undefined : readDefined 1 = some false := rfl
  unfold configureSourceOwner
  rw [numbered_eq_some.mpr number, defined, undefined]
  dsimp only
  cases s.cfg.sources[n] <;> exact ⟨rfl, rfl⟩

/-- Set Source Service for a known source (R23). -/
theorem setSourceServiceOwner_eq (number : v.toNat = n.val + 1) :
    setSourceServiceOwner v 0 s = (match s.cfg.sources[n] with
      | .notDefined => refuse s .notFound
      | .inService => done s
      | .outOfService => done (if (s.setSource n .inService).sourceMeasured n then s.setSource n .inService
          else (s.setSource n .inService).findUnmeasured n)) ∧
    setSourceServiceOwner v 1 s = (match s.cfg.sources[n] with
      | .notDefined => refuse s .notFound
      | .outOfService => done s
      | .inService => done ((s.setSource n .outOfService).clearUnmeasured n)) := by
  have into : readService 0 = some true := rfl
  have out : readService 1 = some false := rfl
  unfold setSourceServiceOwner
  rw [numbered_eq_some.mpr number, into, out]
  dsimp only
  cases s.cfg.sources[n] <;> exact ⟨rfl, rfl⟩

theorem exec_sources_refused (work : s.working = true) (h : numbered 6 v = none ∨ 1 < x.toNat) :
    exec (.configureSource v x) s = .next (s.refusedWith .badField) ∧
      exec (.setSourceService v x) s = .next (s.refusedWith .badField) :=
  ⟨exec_refuse rfl work (sourceOwners_badField h).1, exec_refuse rfl work (sourceOwners_badField h).2⟩

/-- OK, nothing changed. -/
theorem exec_done_same (owned : owner i = some f) (work : s.working = true) (h : f s = done s) :
    exec i s = .next s.answeredOk := by
  rw [exec_of_owner owned]
  exact serveRequest_done work h rfl rfl

/-- Settles O32: the operands, then the source's setting. -/
theorem sourceRequestsByCase : Obligations.SourceRequestsByCase := by
  intro s v work
  refine ⟨fun out x => exec_sources_refused work (.inl ?_), fun n number => ?_⟩
  · exact numbered_eq_none.mpr (out.imp (congrArg BitVec.toNat) id)
  dsimp only
  obtain ⟨define, undefine⟩ := configureSourceOwner_eq (s := s) number
  obtain ⟨serve, unserve⟩ := setSourceServiceOwner_eq (s := s) number
  refine ⟨fun x code => exec_sources_refused work (.inr code), fun setting => ?_, fun setting => ?_, fun setting => ?_,
    fun setting => ?_⟩
  · rw [setting] at define undefine serve unserve
    exact ⟨exec_setSource rfl work define, exec_done_same rfl work undefine, exec_refuse rfl work serve,
      exec_refuse rfl work unserve⟩
  · rw [if_neg setting] at define undefine
    exact ⟨exec_done_same rfl work define, exec_setSource_clear rfl work undefine⟩
  · rw [setting] at serve unserve
    exact ⟨exec_done_same rfl work serve, exec_setSource_clear rfl work unserve⟩
  · rw [setting] at serve unserve
    exact ⟨exec_done_same rfl work unserve, exec_setSource_find rfl work serve⟩

end Sys2Proof.Machine
end

section
/-! SUPPORT. Configure Holder and Select Holder Limits: the ranges, the figures stored, and both detectors on the level
(R28 to R33); settles O33. -/

namespace Sys2Proof.Machine

variable {s : State} {c : ConfigRegion} {i : Instr} {f : State → Served}

/-! ### The level and the detectors (R28, R33) -/

/-- A value limited to 0 to `top`, as the statements write it. -/
theorem limited_eq (v : Int) (top : Nat) : limited v top = (max 0 (min v top)).toNat := by
  unfold limited
  omega

theorem State.holderLevel_eq {h : HolderFigures} {v : Int} (holder : s.cfg.holder = some h)
    (level : s.measured .holderLevel = some v) : s.holderLevel = some (max 0 (min v h.capacity)).toNat := by
  rw [State.holderLevel, holder, level, ← limited_eq]

theorem State.holderLevel_none (h : s.cfg.holder = none ∨ s.measured .holderLevel = none) : s.holderLevel = none := by
  unfold State.holderLevel
  obtain e | e := h <;> rw [e]
  cases s.cfg.holder <;> rfl

/-- A detector at a re-evaluation, by its state (R33). -/
theorem DetectorCell.reevaluated_eq (x : DetectorCell) (p q : Prop) [Decidable p] [Decidable q] (due : Nat) :
    (x.state = .clear ∨ x.state = .arming → x.reevaluated (decide p) (decide q) due =
      if p then { state := .arming, due := some due } else { state := .clear, due := none }) ∧
    (x.state = .active ∨ x.state = .disarming → x.reevaluated (decide p) (decide q) due =
      if q then { state := .disarming, due := some due } else { state := .active, due := none }) := by
  unfold DetectorCell.reevaluated
  cases x.state <;> simp

/-- A re-evaluation reaches the Gas Account alone. -/
theorem State.reevaluate_eq : s.reevaluate = { s with gas := s.reevaluate.gas } := by
  unfold State.reevaluate
  split <;> rfl

theorem State.reevaluate_unmeasured : s.reevaluate.gas.unmeasured = s.gas.unmeasured := by
  unfold State.reevaluate
  split <;> rfl

/-- Without a level the detectors stay as they are (R33). -/
theorem State.reevaluate_of_unusable (h : s.cfg.holder = none ∨ s.measured .holderLevel = none) : s.reevaluate = s := by
  unfold State.reevaluate
  rw [State.holderLevel_none h]
  cases s.cfg.holder <;> rfl

/-- On a level both detectors are tested with the thresholds in force, each filter starting afresh (R33). -/
theorem State.reevaluate_of_level {h : HolderFigures} {v : Int} (holder : s.cfg.holder = some h)
    (level : s.measured .holderLevel = some v) :
    s.reevaluate = s.testDetectors h (max 0 (min v h.capacity)).toNat .reevaluated := by
  rw [State.reevaluate, State.holderLevel_eq holder level, holder]

/-- What a re-evaluation makes of the Gas Account, detector by detector and state by state (R33). -/
theorem State.reevaluate_retested :
    s.reevaluate.gas.unmeasured = s.gas.unmeasured ∧
      (s.cfg.holder = none ∨ s.measured .holderLevel = none → s.reevaluate.gas = s.gas) ∧
      ∀ h v, s.cfg.holder = some h → s.measured .holderLevel = some v →
        let level := (max 0 (min v h.capacity)).toNat
        let limits := h.inForce s.cfg.thresholds
        ((s.gas.highHigh.state = .clear ∨ s.gas.highHigh.state = .arming) →
          s.reevaluate.gas.highHigh = if limits.high ≤ level then { state := .arming, due := some (s.osc + h.filter) }
            else { state := .clear, due := none }) ∧
        ((s.gas.highHigh.state = .active ∨ s.gas.highHigh.state = .disarming) →
          s.reevaluate.gas.highHigh = if level + h.hysteresis < limits.high then
              { state := .disarming, due := some (s.osc + h.filter) }
            else { state := .active, due := none }) ∧
        ((s.gas.lowLow.state = .clear ∨ s.gas.lowLow.state = .arming) →
          s.reevaluate.gas.lowLow = if level ≤ limits.low then { state := .arming, due := some (s.osc + h.filter) }
            else { state := .clear, due := none }) ∧
        ((s.gas.lowLow.state = .active ∨ s.gas.lowLow.state = .disarming) →
          s.reevaluate.gas.lowLow = if limits.low + h.hysteresis < level then
              { state := .disarming, due := some (s.osc + h.filter) }
            else { state := .active, due := none }) := by
  refine ⟨State.reevaluate_unmeasured, fun unusable => by rw [State.reevaluate_of_unusable unusable],
    fun h v holder level => ?_⟩
  rw [State.reevaluate_of_level holder level]
  exact ⟨(s.gas.highHigh.reevaluated_eq _ _ _).1, (s.gas.highHigh.reevaluated_eq _ _ _).2,
    (s.gas.lowLow.reevaluated_eq _ _ _).1, (s.gas.lowLow.reevaluated_eq _ _ _).2⟩

/-! ### A request that re-evaluates the detectors under new CONFIG contents -/

theorem exec_reevaluate (owned : owner i = some f) (work : s.working = true)
    (h : f s = done (({ s with cfg := c } : State).markConfig).reevaluate) : exec i s = .next
      ({ s.withConfig c with gas := (({ s with cfg := c } : State).markConfig).reevaluate.gas } : State).answeredOk := by
  rw [State.reevaluate_eq] at h
  rw [exec_done owned work h]
  generalize (({ s with cfg := c } : State).markConfig).reevaluate.gas = g
  have quiet : ({ ({ s with cfg := c } : State).markConfig with gas := g } : State).acts = [] :=
    State.acts_of_working (s := s) work
  have marked : ({ ({ s with cfg := c } : State).markConfig with gas := g } : State).marks =
      { config := true, accounts := false, queues := false } := by
    simp [State.markConfig, State.marks_of_working work]
  have written : ({ ({ s with cfg := c } : State).markConfig with gas := g } : State).configWritten =
      { s.withConfig c with gas := g } :=
    congrArg (fun u : State => ({ u with gas := g } : State))
      (State.configWritten_markConfig (State.marks_of_working work) c)
  rw [endEvent_config quiet marked, written]

/-! ### The owners, by their operands -/

/-- Configure Holder outside its ranges (R29). -/
theorem configureHolderOwner_unfit {r : RawHolder} (h : ¬ ((readHolderFigures r).isSome ∧
    r.drawFallback.toNat ≤ 2000000 ∧ 1 ≤ r.cvDefault.toNat ∧ r.cvDefault.toNat ≤ 40000)) : configureHolderOwner r s = refuse s .badField := by
  unfold configureHolderOwner
  cases figures : readHolderFigures r with
  | none => rfl
  | some g => exact if_neg fun fits => h ⟨by rw [figures]; rfl, fits⟩

/-- Configure Holder within its ranges (R29). -/
theorem configureHolderOwner_fit {r : RawHolder} {g : HolderFigures} (figures : readHolderFigures r = some g)
    (fits : r.drawFallback.toNat ≤ 2000000 ∧ 1 ≤ r.cvDefault.toNat ∧ r.cvDefault.toNat ≤ 40000) :
    configureHolderOwner r s = done (({ s with cfg := { s.cfg with
      holder := some g, drawFallback := r.drawFallback.toNat, cvDefault := r.cvDefault.toNat } } : State).markConfig).reevaluate := by
  rw [configureHolderOwner, figures]
  exact if_pos fits

theorem readSet_eq_none {v : Byte} (h : 1 < v.toNat) : readSet v = none := by
  unfold readSet
  split
  · omega
  · omega
  · rfl

theorem readSet_cases {v : Byte} {x : ThresholdSet} (h : v = 0 ∧ x = .normal ∨ v = 1 ∧ x = .reduced) :
    readSet v = some x := by
  obtain ⟨rfl, rfl⟩ | ⟨rfl, rfl⟩ := h <;> rfl

/-- Settles O33: the ranges, then the figures stored and the detectors by the level. -/
theorem holderRequestsByCase : Obligations.HolderRequestsByCase := by
  intro s work
  dsimp only
  refine ⟨fun r => ⟨fun unfit => ?_, fun fits => ?_⟩, fun v out => ?_, fun v x code => ⟨fun same => ?_, fun new => ?_⟩⟩
  · refine exec_refuse rfl work (configureHolderOwner_unfit fun ⟨read, fits⟩ => unfit ?_)
    obtain ⟨g, figures⟩ := Option.isSome_iff_exists.mp read
    obtain ⟨-, capacity, band, top, recovery, hysteresis, filter, normal, reduced⟩ := (readHolderFigures_eq r g).mp figures
    exact ⟨capacity, band, top, recovery, hysteresis, filter, normal, reduced, fits⟩
  · obtain ⟨capacity, band, top, recovery, hysteresis, filter, normal, reduced, fits⟩ := fits
    have figures := (readHolderFigures_eq r _).mpr ⟨rfl, capacity, band, top, recovery, hysteresis, filter, normal, reduced⟩
    exact ⟨_, exec_reevaluate rfl work (configureHolderOwner_fit figures fits), rfl, State.reevaluate_retested⟩
  · exact exec_refuse rfl work (by rw [selectHolderLimitsOwner, readSet_eq_none out])
  · refine exec_done_same rfl work ?_
    rw [selectHolderLimitsOwner, readSet_cases code]
    exact if_pos same
  · refine ⟨_, exec_reevaluate rfl work ?_, rfl, State.reevaluate_retested⟩
    rw [selectHolderLimitsOwner, readSet_cases code]
    exact if_neg new

end Sys2Proof.Machine
end

section
/-! SUPPORT. The raise that one event tells the table, and boilers on gas shed in any order, with the frames they are sent
(R53, R56 to R58, R75, R154). -/

namespace Sys2Proof.Machine

variable {s t u v : State} {b : Boiler} {k : ConditionKey}

/-! ### A raise with room in the table (R154) -/

/-- The table's lookups read the places alone. -/
theorem State.entryOf_congr (same : u.conditions = s.conditions) (k : ConditionKey) : u.entryOf k = s.entryOf k := by
  unfold State.entryOf State.placeOf
  rw [same]

theorem State.freePlaces_congr (same : u.conditions = s.conditions) : u.freePlaces = s.freePlaces := by
  unfold State.freePlaces
  rw [same]

/-- With room for its key and no entry of it, the table has a free place. -/
theorem State.freePlace_of_room (room : s.HasRoom [k]) (absent : s.placeOf k = none) : ∃ i, s.freePlace = some i := by
  cases free : s.freePlace with
  | some i => exact ⟨i, rfl⟩
  | none =>
    have full : s.freePlaces = [] := List.filter_eq_nil_iff.mpr (List.find?_eq_none.mp free)
    have entry : s.entryOf k = none := State.entryOf_eq_none.mpr absent
    simp [State.HasRoom, full, entry] at room

/-- A raise with room for its key leaves the entry ACTIVE and waiting (R154). -/
theorem State.raiseWith_reported (legal : s.ConditionsLegal) (room : s.HasRoom [k]) (ne : k ≠ conditionTableFullKey)
    (m : LatchMode) : (s.raiseWith k m).Reported k.cls k.source := by
  have after := legal.raiseWith ne m
  suffices placed : ∃ (i : Fin 128) (e : ConditionEntry), (s.raiseWith k m).conditions[i] = some e ∧ e.key = k ∧
      e.state = .active ∧ e.notified = false by
    obtain ⟨i, e, held, rfl, active, waiting⟩ := placed
    exact ⟨e, State.entryOf_of_legal after held, active, waiting⟩
  cases place : s.placeOf k with
  | some i =>
    obtain ⟨g, held, key⟩ := State.placeOf_eq_some place
    refine ⟨i, g.raisedAgain m s.clock.reading, ?_, key, rfl, rfl⟩
    simp [State.raiseWith, place, held, State.setPlace]
  | none =>
    obtain ⟨i, free⟩ := State.freePlace_of_room room place
    refine ⟨i, newEntry k m s.clock.reading, ?_, rfl, rfl, rfl⟩
    simp [State.raiseWith, place, free, State.setPlace]

/-- One raise told at an event whose blocks left the table alone. -/
theorem State.endEvent_reported {m : LatchMode} (legal : s.ConditionsLegal) (room : s.HasRoom [k])
    (ne : k ≠ conditionTableFullKey) (same : u.conditions = s.conditions) (told : u.acts = [.raise k m]) :
    u.endEvent.Reported k.cls k.source := by
  have split : u = ({ u with acts := [] } : State).tell (.raise k m) := by cases u; cases told; rfl
  have taken : u.takeActs = ({ u with acts := [] } : State).raiseWith k m := by
    rw [split]; exact State.takeActs_tell rfl _
  have legal' : ({ u with acts := [] } : State).ConditionsLegal := by
    obtain ⟨unique, place, counted, -⟩ := legal
    rw [← same] at unique place counted
    exact ⟨unique, place, counted, nofun⟩
  have room' : ({ u with acts := [] } : State).HasRoom [k] := by
    have entry : (fun k => (({ u with acts := [] } : State).entryOf k).isNone) = fun k => (s.entryOf k).isNone :=
      funext fun k => congrArg _ (State.entryOf_congr (u := { u with acts := [] }) same k)
    rw [State.HasRoom, entry, State.freePlaces_congr (u := { u with acts := [] }) same]
    exact room
  obtain ⟨e, entry, active, waiting⟩ := State.raiseWith_reported legal' room' ne m
  refine ⟨e, ?_, active, waiting⟩
  rw [← entry, ← taken]
  exact State.entryOf_congr (State.writeMarked_changes _ .conditions (by decide)) _

/-! ### The setpoint line's law under a queued frame (R58) -/

theorem joinWaiting_boilers (f : SetpointFrame) (l : List SetpointFrame) : (joinWaiting f l).map (·.boiler) =
    if f.boiler ∈ l.map (·.boiler) then l.map (·.boiler) else l.map (·.boiler) ++ [f.boiler] := by
  induction l with
  | nil => rfl
  | cons g l ih =>
    by_cases own : g.boiler = f.boiler
    · simp [joinWaiting, own]
    · by_cases later : f.boiler ∈ l.map (·.boiler)
      · rw [if_pos later] at ih
        rw [joinWaiting, if_neg own, List.map_cons, ih]
        exact (if_pos (List.mem_cons_of_mem _ later)).symm
      · rw [if_neg later] at ih
        rw [joinWaiting, if_neg own, List.map_cons, ih]
        exact (if_neg (by simp [Ne.symm own, later])).symm

/-- At most one frame waits for each of the eight boilers. -/
theorem State.SetpointsLegal.of_nodup (one : (s.dsp.waiting.map (·.boiler)).Nodup)
    (busy : s.dsp.sending = none → s.dsp.waiting = []) : s.SetpointsLegal :=
  ⟨one, by simpa using one.length_le_card, busy⟩

theorem State.SetpointsLegal.congr (legal : s.SetpointsLegal) (sending : t.dsp.sending = s.dsp.sending)
    (waiting : t.dsp.waiting = s.dsp.waiting) : t.SetpointsLegal := by
  obtain ⟨one, -, busy⟩ := legal
  exact .of_nodup (by rw [waiting]; exact one) (by rw [sending, waiting]; exact busy)

theorem State.SetpointsLegal.queueFrame (legal : s.SetpointsLegal) (b : Boiler) (fuel : Option Fuel) (demand : Nat) :
    (s.queueFrame b fuel demand).SetpointsLegal := by
  obtain ⟨one, -, busy⟩ := legal
  unfold State.queueFrame
  cases sending : s.dsp.sending with
  | none => exact .of_nodup one nofun
  | some g =>
    refine .of_nodup ?_ (fun idle => by cases sending.symm.trans idle)
    rw [joinWaiting_boilers]
    split
    · exact one
    · next absent => exact one.append (List.nodup_singleton _) (by simpa using absent)

/-! ### The notice of a boiler that leaves FIRING (R41 iii, R57) -/

theorem State.noticeFiringLeft_line (legal : s.SetpointsLegal) (b : Boiler) (f : Fuel) :
    ((s.noticeFiringLeft b f).dsp.sending, (s.noticeFiringLeft b f).dsp.waiting) =
      lineTakes (s.dsp.sending, s.dsp.waiting) { boiler := b, fuel := none, demand := 0, cycle := s.dsp.cycle } :=
  State.queueFrame_line (s := s.setAllocation b _) (legal.congr rfl rfl) b none 0

theorem State.SetpointsLegal.noticeFiringLeft (legal : s.SetpointsLegal) (b : Boiler) (f : Fuel) :
    (s.noticeFiringLeft b f).SetpointsLegal :=
  State.SetpointsLegal.queueFrame (s := s.setAllocation b _) (legal.congr rfl rfl) b none 0

theorem State.queueFrame_cycle (f : Option Fuel) (n : Nat) : (s.queueFrame b f n).dsp.cycle = s.dsp.cycle := by
  unfold State.queueFrame
  dsimp only
  split <;> rfl

theorem State.noticeFiringLeft_cycle (f : Fuel) : (s.noticeFiringLeft b f).dsp.cycle = s.dsp.cycle :=
  State.queueFrame_cycle none 0

/-- The notice reads and writes the Dispatcher alone. -/
theorem State.noticeFiringLeft_dsp_congr (same : t.dsp = s.dsp) (f : Fuel) :
    (t.noticeFiringLeft b f).dsp = (s.noticeFiringLeft b f).dsp := by
  unfold State.noticeFiringLeft State.queueFrame State.setAllocation
  rw [same]
  dsimp only
  split <;> rfl

/-! ### A changeover and a controlled stop, as sequencer and notice (R63, R71) -/

/-- The sequencer of a boiler that starts a changeover to a fuel (R71). -/
def Sequencer.changing (q : Sequencer) (osc reading : Nat) (c : BoilerConfig) (target : Fuel) : Sequencer :=
  let q := { q.permitsClosed osc reading with state := .changeover, phase := some .dead, target := some target }
  match c.reference with
  | .fromCommand => { q with awaiting := false, deadDue := some (osc + c.interval) }
  | .fromConfirm => { q with awaiting := true, confirmDue := some (osc + 10) }

/-- What a changeover's two references have in common. -/
theorem Sequencer.changing_parts (q : Sequencer) (osc reading : Nat) (c : BoilerConfig) (target : Fuel) :
    ∃ awaiting confirm dead, q.changing osc reading c target = { q.permitsClosed osc reading with
      state := .changeover, phase := some .dead, target := some target, awaiting := awaiting, confirmDue := confirm,
      deadDue := dead } := by
  unfold Sequencer.changing
  cases c.reference with
  | fromCommand | fromConfirm => exact ⟨_, _, _, rfl⟩

/-- The sequencer of a boiler in a controlled stop (R63). -/
def Sequencer.stopped (q : Sequencer) (osc reading : Nat) : Sequencer :=
  { (q.permitsClosed osc reading).halted with run := none, state := .off }

theorem State.startChangeover_eq {c : BoilerConfig} (conf : s.cfg.boilers[b] = some c) (old : Fuel) :
    s.startChangeover b old =
      (s.setBoiler b ((s.boilers[b]).changing s.osc s.clock.reading c old.other)).noticeFiringLeft b old := by
  unfold State.startChangeover Sequencer.changing
  simp only [State.closePermits_eq, State.setBoiler_cfg, State.setBoiler_same, State.setBoiler_setBoiler, conf,
    State.setBoiler_osc]
  cases c.reference <;> rfl

theorem State.controlledStop_eq : s.controlledStop b =
    (s.setBoiler b ((s.boilers[b]).stopped s.osc s.clock.reading)).leaveNotice b s.boilers[b] := by
  simp only [State.controlledStop, State.closePermits_eq, State.setBoiler_same, State.setBoiler_setBoiler]
  rfl

theorem State.startChangeover_boiler {c : BoilerConfig} (conf : s.cfg.boilers[b] = some c) (old : Fuel) :
    (s.startChangeover b old).boilers[b] = (s.boilers[b]).changing s.osc s.clock.reading c old.other := by
  have kept := State.noticeFiringLeft_changes b old .boilers (by decide)
    (s := s.setBoiler b ((s.boilers[b]).changing s.osc s.clock.reading c old.other))
  rw [State.startChangeover_eq conf, kept, State.setBoiler_same]

theorem State.controlledStop_boiler :
    (s.controlledStop b).boilers[b] = (s.boilers[b]).stopped s.osc s.clock.reading := by
  have kept := State.leaveNotice_changes b s.boilers[b] .boilers (by decide)
    (s := s.setBoiler b ((s.boilers[b]).stopped s.osc s.clock.reading))
  rw [State.controlledStop_eq, kept, State.setBoiler_same]

theorem State.startChangeover_changingTo {c : BoilerConfig} (conf : s.cfg.boilers[b] = some c) (old : Fuel) :
    ChangingTo s (s.startChangeover b old) b old.other := by
  have own := State.startChangeover_boiler conf old
  have left : (s.startChangeover b old).dsp.allocations[b] = (s.dsp.allocations[b]).without old := by
    rw [State.startChangeover_eq conf, State.noticeFiringLeft_allocations]
    simp
  obtain ⟨awaiting, confirm, dead, parts⟩ :=
    (s.boilers[b]).changing_parts s.osc s.clock.reading c old.other
  rw [parts] at own
  refine ⟨?_, ?_, ?_, ?_, fun c' conf' => ?_, fun target => ?_, fun target => ?_⟩
  · rw [own]; exact ⟨rfl, rfl, rfl⟩
  · rw [own]; rfl
  · rw [own]; exact ⟨rfl, rfl⟩
  · rw [own]; rfl
  · cases conf.symm.trans conf'
    rw [own, ← parts, Sequencer.changing]
    exact ⟨fun reference => by rw [reference]; exact ⟨rfl, rfl⟩, fun reference => by rw [reference]; exact ⟨rfl, rfl⟩⟩
  · rw [left]
    cases old with
    | gas => rfl
    | aux => cases target
  · rw [left]
    cases old with
    | gas => cases target
    | aux => rfl

theorem State.controlledStop_stopped : Stopped s (s.controlledStop b) b := by
  have own := State.controlledStop_boiler (s := s) (b := b)
  have left : (s.controlledStop b).dsp.allocations =
      ((s.setBoiler b ((s.boilers[b]).stopped s.osc s.clock.reading)).leaveNotice b s.boilers[b]).dsp.allocations := by
    rw [State.controlledStop_eq]
  rw [State.leaveNotice_allocations] at left
  refine ⟨?_, ?_, ?_, ?_, fun firing => ?_, fun firing => ?_⟩
  · rw [own]; exact ⟨rfl, rfl⟩
  · rw [own]; exact ⟨rfl, rfl⟩
  · rw [own]; rfl
  · rw [own]; exact ⟨rfl, rfl, rfl, rfl, rfl, rfl, rfl⟩
  · rw [left, firing]; simp [Allocation.without]
  · rw [left, firing]; simp [Allocation.without]

/-! ### A boiler on gas is shed (R56, R75) -/

/-- A boiler on gas at the LL event or a request SHED_SHORTAGE: to a changeover or to OFF (R75). -/
structure GasShed (s t : State) (b : Boiler) : Prop where
  fitted : s.auxFitted b = true → ChangingTo s t b .aux
  unfitted : s.auxFitted b = false → Stopped s t b

theorem State.takeRequest_shed (firing : (s.boilers[b]).state = .firingGas) : s.takeRequest b .shedShortage =
    if s.auxFitted b then s.startChangeover b .gas else s.controlledStop b := by
  simp only [State.takeRequest, firing]

/-- Aux fuel is fitted to configured boilers alone. -/
theorem State.configured_of_auxFitted (h : s.auxFitted b = true) : ∃ c, s.cfg.boilers[b] = some c := by
  unfold State.auxFitted at h
  cases conf : s.cfg.boilers[b] with
  | none => rw [conf] at h; cases h
  | some c => exact ⟨c, rfl⟩

theorem State.takeRequest_gasShed (firing : (s.boilers[b]).state = .firingGas) :
    GasShed s (s.takeRequest b .shedShortage) b := by
  rw [State.takeRequest_shed firing]
  refine ⟨fun fitted => ?_, fun unfitted => ?_⟩
  · obtain ⟨c, conf⟩ := State.configured_of_auxFitted fitted
    rw [if_pos fitted]
    exact State.startChangeover_changingTo conf .gas
  · rw [if_neg (by rw [unfitted]; decide)]
    exact State.controlledStop_stopped

/-- A boiler shed: its sequencer set, and the notice of the gas it leaves. -/
theorem State.takeRequest_shed_eq (firing : (s.boilers[b]).state = .firingGas) :
    ∃ q, s.takeRequest b .shedShortage = (s.setBoiler b q).noticeFiringLeft b .gas := by
  rw [State.takeRequest_shed firing]
  by_cases fitted : s.auxFitted b = true
  · obtain ⟨c, conf⟩ := State.configured_of_auxFitted fitted
    exact ⟨_, by rw [if_pos fitted, State.startChangeover_eq conf]⟩
  · refine ⟨(s.boilers[b]).stopped s.osc s.clock.reading, ?_⟩
    rw [if_neg fitted, State.controlledStop_eq, State.leaveNotice, firing]

/-- The other boilers and their allocations stay. -/
theorem State.takeRequest_shed_other {a : Boiler} (firing : (s.boilers[b]).state = .firingGas) (ne : a ≠ b) :
    (s.takeRequest b .shedShortage).boilers[a] = s.boilers[a] ∧
      (s.takeRequest b .shedShortage).dsp.allocations[a] = s.dsp.allocations[a] := by
  obtain ⟨q, eq⟩ := State.takeRequest_shed_eq firing
  have apart : b.val ≠ a.val := fun e => ne (Fin.ext e.symm)
  have kept : ((s.setBoiler b q).noticeFiringLeft b .gas).boilers = (s.setBoiler b q).boilers :=
    State.noticeFiringLeft_changes b .gas .boilers (by decide)
  rw [eq, kept, State.noticeFiringLeft_allocations]
  simp [apart]

theorem State.takeRequest_shed_line (legal : s.SetpointsLegal) (firing : (s.boilers[b]).state = .firingGas) :
    let t := s.takeRequest b .shedShortage
    (t.dsp.sending, t.dsp.waiting) = lineTakes (s.dsp.sending, s.dsp.waiting)
      { boiler := b, fuel := none, demand := 0, cycle := s.dsp.cycle } ∧
    t.SetpointsLegal ∧ t.dsp.cycle = s.dsp.cycle := by
  obtain ⟨q, eq⟩ := State.takeRequest_shed_eq firing
  have legal' : (s.setBoiler b q).SetpointsLegal := legal.congr rfl rfl
  dsimp only
  rw [eq]
  exact ⟨State.noticeFiringLeft_line legal' b .gas, legal'.noticeFiringLeft b .gas, State.noticeFiringLeft_cycle .gas⟩

/-! ### Several boilers on gas, in any order (R56, R57) -/

/-- What GasShed reads of the two states. -/
theorem GasShed.congr (h : GasShed u t b) (osc : u.osc = s.osc) (cfg : u.cfg = s.cfg)
    (before : u.boilers[b] = s.boilers[b]) (after : v.boilers[b] = t.boilers[b])
    (allocation : v.dsp.allocations[b] = t.dsp.allocations[b]) : GasShed s v b := by
  obtain ⟨fitted, unfitted⟩ := h
  refine ⟨fun aux => ?_, fun none => ?_⟩
  · rw [State.auxFitted, ← cfg] at aux
    obtain ⟨state, run, closed, lastClose, timers, gasLeft, auxLeft⟩ := fitted aux
    rw [← after, before, osc] at lastClose
    rw [← after] at state run closed
    rw [← after, cfg, osc] at timers
    rw [← allocation] at gasLeft auxLeft
    rw [before] at run
    exact ⟨state, run, closed, lastClose, timers, gasLeft, auxLeft⟩
  · rw [State.auxFitted, ← cfg] at none
    obtain ⟨state, closed, lastClose, idle, gasLeft, auxLeft⟩ := unfitted none
    rw [← after, before, osc] at lastClose
    rw [← after] at state closed idle
    rw [← allocation, before] at gasLeft auxLeft
    exact ⟨state, closed, lastClose, idle, gasLeft, auxLeft⟩

/-- The boilers of `order`, each on gas, shed one after another between `s` and `t`: each of them, its frame, and no
other boiler. -/
structure AllShed (s t : State) (order : List Boiler) : Prop where
  rest : ChangesOnly [.dsp, .boilers, .choices] s t
  shed : ∀ b ∈ order, GasShed s t b
  other : ∀ b ∉ order, t.boilers[b] = s.boilers[b] ∧ t.dsp.allocations[b] = s.dsp.allocations[b]
  line : s.SetpointsLegal → (t.dsp.sending, t.dsp.waiting) =
    (order.map fun b => { boiler := b, fuel := none, demand := 0, cycle := s.dsp.cycle : SetpointFrame }).foldl lineTakes
      (s.dsp.sending, s.dsp.waiting)

theorem allShed_foldl {order : List Boiler} : ∀ {s : State}, order.Nodup →
    (∀ b ∈ order, (s.boilers[b]).state = .firingGas) → AllShed s (order.foldl (fun s b => s.takeRequest b .shedShortage) s) order := by
  induction order with
  | nil => exact fun _ _ => ⟨.refl _ _, nofun, fun _ _ => ⟨rfl, rfl⟩, fun _ => rfl⟩
  | cons b l ih =>
    intro s nodup firing
    obtain ⟨new, nodup⟩ := List.nodup_cons.mp nodup
    have first := firing b (.head _)
    have kept (a : Boiler) (ne : a ≠ b) := State.takeRequest_shed_other first ne
    have step : ChangesOnly [.dsp, .boilers, .choices] s (s.takeRequest b .shedShortage) :=
      (State.takeRequest_changes b .shedShortage).mono (by decide)
    have later (a : Boiler) (mem : a ∈ l) : a ≠ b := fun e => new (e ▸ mem)
    have all := ih nodup fun a mem => (congrArg Sequencer.state (kept a (later a mem)).1).trans (firing a (.tail _ mem))
    refine ⟨step.trans all.rest, fun a mem => ?_, fun a out => ?_, fun legal => ?_⟩
    · obtain rfl | mem := List.mem_cons.mp mem
      · obtain ⟨own, allocation⟩ := all.other a new
        exact (State.takeRequest_gasShed first).congr rfl rfl rfl own allocation
      · exact (all.shed a mem).congr (step .osc (by decide)) (step .cfg (by decide)) (kept a (later a mem)).1 rfl rfl
    · rw [List.mem_cons, not_or] at out
      obtain ⟨ne, out⟩ := out
      obtain ⟨own, allocation⟩ := all.other a out
      obtain ⟨own', allocation'⟩ := kept a ne
      exact ⟨own.trans own', allocation.trans allocation'⟩
    · obtain ⟨line, legal', cycle⟩ := State.takeRequest_shed_line legal first
      have rest := all.line legal'
      rw [line, cycle] at rest
      exact rest

/-- Actions in a free order are the actions one after another, in some order. -/
theorem State.inAnyOrder_eq {α : Type} (s : State) (l : List α) (f : State → α → State) :
    ∃ (order : List α) (n : Nat), order.Perm l ∧ s.inAnyOrder l f = order.foldl f { s with choices := n } := by
  unfold State.inAnyOrder
  split
  · exact ⟨l, s.choices, .refl _, rfl⟩
  · exact ⟨_, _, arrange_perm _ _, rfl⟩

/-- Boilers on gas shed in any order (R56, R57). -/
theorem State.inAnyOrder_allShed {l : List Boiler} (nodup : l.Nodup)
    (firing : ∀ b ∈ l, (s.boilers[b]).state = .firingGas) :
    ∃ order, order.Perm l ∧ AllShed s (s.inAnyOrder l fun s b => s.takeRequest b .shedShortage) order := by
  obtain ⟨order, n, perm, eq⟩ := s.inAnyOrder_eq l fun s b => s.takeRequest b .shedShortage
  have all := allShed_foldl (s := { s with choices := n }) (perm.nodup_iff.mpr nodup)
    fun b mem => firing b (perm.mem_iff.mp mem)
  rw [eq]
  exact ⟨order, perm, ((State.choices_changes n).mono (by decide)).trans all.rest,
    fun b mem => (all.shed b mem).congr rfl rfl rfl rfl rfl, all.other, fun legal => all.line (legal.congr rfl rfl)⟩

end Sys2Proof.Machine
end

section
/-! SUPPORT. The filter timer's expiry, by detector and state (R31, R53, R56); settles O34. -/

namespace Sys2Proof.Machine

variable {s : State} {d : Detector} {due : Nat}

/-- Detector `d` has become ACTIVE, and its condition is raised (R31). -/
def State.limitEntered (s : State) (d : Detector) : State :=
  ({ s with gas := s.gas.setCell d { state := .active, due := none } } : State).tellRaise (limitClass d) 1

theorem State.filterExpiry_arming (cell : s.gas.cell d = { state := .arming, due := some due }) (passed : due ≤ s.osc) :
    s.filterExpiry d = (s.limitEntered d).limitEvent d := by
  simp only [State.filterExpiry, cell, State.expired_some passed, if_true, State.limitEntered]

theorem State.limitEntered_acts (work : s.working = true) : ∃ m,
    (s.limitEntered d).acts = [.raise { cls := limitClass d, source := 1 } m] :=
  ⟨_, congrArg (· ++ _) (State.acts_of_working work)⟩

/-- A limit entered: the raise, and what the event leaves of boilers and Dispatcher (R31). -/
theorem exec_filter_arming (work : s.working = true) (cell : s.gas.cell d = { state := .arming, due := some due })
    (passed : due ≤ s.osc) : ∃ t, exec (.filterExpiry d) s = .next t ∧
      t.gas = s.gas.setCell d { state := .active, due := none } ∧ t.dsp = ((s.limitEntered d).limitEvent d).dsp ∧
      t.boilers = ((s.limitEntered d).limitEvent d).boilers ∧
      (s.HasRoom [{ cls := limitClass d, source := 1 }] → s.ConditionsLegal → t.Reported (limitClass d) 1) := by
  have event := State.limitEvent_changes (s := s.limitEntered d) d
  have after := State.endEvent_changes (s := (s.limitEntered d).limitEvent d)
  refine ⟨((s.limitEntered d).limitEvent d).endEvent, ?_, ?_, after .dsp (by decide), after .boilers (by decide),
    fun room legal => ?_⟩
  · refine (duringOperation_running (·.filterExpiry d) (State.running_of_working work)).trans ?_
    rw [State.filterExpiry_arming cell passed]
  · exact Eq.trans (after .gas (by decide)) (event .gas (by decide))
  · obtain ⟨m, told⟩ := State.limitEntered_acts (d := d) work
    have kept : ((s.limitEntered d).limitEvent d).acts = _ := (event .marks (by decide)).2.trans told
    refine State.endEvent_reported (k := { cls := limitClass d, source := 1 }) legal room ?_
      (event .conditions (by decide)) kept
    cases d <;> decide

/-- A limit left: the cause of its condition ends (R31). -/
theorem exec_filter_disarming (work : s.working = true)
    (cell : s.gas.cell d = { state := .disarming, due := some due }) (passed : due ≤ s.osc) :
    exec (.filterExpiry d) s = .next (({ s with gas := s.gas.setCell d { state := .clear, due := none } } : State).endCause
      (limitClass d) 1) := by
  have told : s.filterExpiry d = ({ s with gas := s.gas.setCell d { state := .clear, due := none } } : State).tellEnd
      (limitClass d) 1 := by
    simp only [State.filterExpiry, cell, State.expired_some passed, if_true]
  exact duringOperation_tell (·.filterExpiry d) _ work told rfl rfl

/-- The boilers on gas. -/
def State.onGas (s : State) : List Boiler := (List.finRange 8).filter fun b => decide ((s.boilers[b]).state = .firingGas)

theorem State.mem_onGas {b : Boiler} : b ∈ s.onGas ↔ (s.boilers[b]).state = .firingGas := by simp [State.onGas]

/-- The LL event sheds every boiler on gas, in any order (R56). -/
theorem State.lowLowEvent_allShed :
    ∃ order, order.Perm s.onGas ∧ AllShed (s.limitEntered .lowLow) ((s.limitEntered .lowLow).limitEvent .lowLow) order :=
  State.inAnyOrder_allShed (s := s.limitEntered .lowLow) (l := s.onGas) ((List.nodup_finRange 8).filter _)
    fun _ mem => State.mem_onGas.mp mem

/-- Settles O34: the arming expiry by its event, the LL event by the boilers shed in any order. -/
theorem filterExpiryActsByState : Obligations.FilterExpiryActsByState := by
  intro s due work passed
  refine ⟨fun cell => ?_, fun cell => exec_filter_disarming (d := .highHigh) work cell passed,
    fun cell => exec_filter_disarming (d := .lowLow) work cell passed, fun cell => ?_⟩
  · obtain ⟨t, runs, gas, dsp, boilers, reported⟩ := exec_filter_arming (d := .highHigh) work cell passed
    exact ⟨t, runs, gas, dsp, boilers, reported⟩
  · obtain ⟨t, runs, gas, dsp, boilers, reported⟩ := exec_filter_arming (d := .lowLow) work cell passed
    obtain ⟨order, perm, all⟩ := s.lowLowEvent_allShed
    have shed (b : Boiler) : b ∈ order ↔ (s.boilers[b]).state = .firingGas := perm.mem_iff.trans State.mem_onGas
    refine ⟨t, runs, gas, reported, fun legal => ⟨order, perm, ?_⟩, fun b => ⟨fun off => ?_, fun firing => ?_⟩⟩
    · rw [dsp]
      exact all.line (legal.congr rfl rfl)
    · rw [dsp, boilers]
      exact all.other b ((shed b).not.mpr off)
    · obtain ⟨fitted, unfitted⟩ := (all.shed b ((shed b).mpr firing)).congr (s := s) (v := t) rfl rfl rfl
        (by rw [boilers]) (by rw [dsp])
      exact ⟨fitted, unfitted⟩

end Sys2Proof.Machine
end

section
/-! SUPPORT. The Gas Account's figures (R24, R26 to R28), as the statements write them; with O36. -/

namespace Sys2Proof.Machine

variable {s : State} {n : GasSource} {r : Role}

/-! ### Usable roles and their numbers (R18) -/

/-- A role that gives a number is usable. -/
theorem State.usable_of_measured {v : Int} (h : s.measured r = some v) : s.usable r = true := by
  unfold State.measured State.valueOf at h
  unfold State.usable
  cases slot : s.slotOf r with
  | none => rw [slot] at h; cases h
  | some p =>
    rw [slot] at h
    rw [Option.any_some]
    by_contra unusable
    rw [Option.bind_some, if_neg unusable] at h
    cases h

/-! ### The sources (R24) -/

theorem State.source_of_uncounted (h : s.standing n ≠ .counted) :
    s.gasFigures.energies[n] = 0 ∧ s.gasFigures.standings[n] = s.standing n := by
  simp [State.gasFigures, State.sourceEnergy, h]

theorem State.source_notDefined (h : s.cfg.sources[n] = .notDefined) :
    s.gasFigures.energies[n] = 0 ∧ s.gasFigures.standings[n] = .notDefined := by
  have standing : s.standing n = .notDefined := by rw [State.standing, h]
  rw [← standing]
  exact State.source_of_uncounted (by rw [standing]; decide)

theorem State.source_outOfService (h : s.cfg.sources[n] = .outOfService) :
    s.gasFigures.energies[n] = 0 ∧ s.gasFigures.standings[n] = .outOfService := by
  have standing : s.standing n = .outOfService := by rw [State.standing, h]
  rw [← standing]
  exact State.source_of_uncounted (by rw [standing]; decide)

theorem State.source_unmeasured (h : s.cfg.sources[n] = .inService)
    (unusable : s.usable (.sourceFlow n) = false ∨ s.usable (.sourceCv n) = false) :
    s.gasFigures.energies[n] = 0 ∧ s.gasFigures.standings[n] = .unmeasured := by
  have unmeasured : s.sourceMeasured n = false := by rwa [State.sourceMeasured, Bool.and_eq_false_iff]
  have standing : s.standing n = .unmeasured := by simp only [State.standing, h, unmeasured, Bool.false_eq_true, if_false]
  rw [← standing]
  exact State.source_of_uncounted (by rw [standing]; decide)

theorem State.source_counted {flow cv : Int} (h : s.cfg.sources[n] = .inService)
    (hf : s.measured (.sourceFlow n) = some flow) (hc : s.measured (.sourceCv n) = some cv) :
    s.gasFigures.energies[n] = (max 0 (min flow (500000 : Nat))).toNat * (max 0 (min cv (40000 : Nat))).toNat / 3600 ∧
      s.gasFigures.standings[n] = .counted := by
  have measured : s.sourceMeasured n = true := by
    rw [State.sourceMeasured, State.usable_of_measured hf, State.usable_of_measured hc]; rfl
  have standing : s.standing n = .counted := by simp only [State.standing, h, measured, if_true]
  simp only [← limited_eq]
  simp [State.gasFigures, State.sourceEnergy, standing, hf, hc, flowLimit, cvLimit]

/-! ### The network CV and the works draw (R26) -/

theorem State.networkCv_measured {v : Int} (h : s.measured .networkCv = some v) :
    s.gasFigures.networkCv = (max 0 (min v (40000 : Nat))).toNat ∧ s.gasFigures.cvDefault = false := by
  rw [← limited_eq]
  simp [State.gasFigures, State.networkCvNow, h, cvLimit]

theorem State.networkCv_default (h : s.measured .networkCv = none) :
    s.gasFigures.networkCv = s.cfg.cvDefault ∧ s.gasFigures.cvDefault = true := by
  simp [State.gasFigures, State.networkCvNow, h]

theorem State.draw_measured {v : Int} (h : s.measured .worksFlow = some v) :
    s.gasFigures.draw = (max 0 (min v (500000 : Nat))).toNat * s.gasFigures.networkCv / 3600 ∧
      s.gasFigures.drawFallback = false := by
  rw [← limited_eq]
  simp [State.gasFigures, State.worksDraw, h, flowLimit]

theorem State.draw_fallback (h : s.measured .worksFlow = none) :
    s.gasFigures.draw = s.cfg.drawFallback ∧ s.gasFigures.drawFallback = true := by
  simp [State.gasFigures, State.worksDraw, h]

/-! ### The holder (R28) -/

theorem State.holder_unusable (h : s.cfg.holder = none ∨ s.measured .holderLevel = none) :
    s.gasFigures.level = none ∧ s.gasFigures.position = .levelFailed ∧ s.gasFigures.correction = 0 := by
  have level := State.holderLevel_none h
  unfold State.gasFigures State.holderPosition State.holderCorrection
  rw [level]
  cases s.cfg.holder <;> exact ⟨rfl, rfl, rfl⟩

/-- The position and the correction of a level, in the branches of R28. -/
theorem State.holder_usable {h : HolderFigures} {v : Int} (holder : s.cfg.holder = some h)
    (measured : s.measured .holderLevel = some v) :
    let level := (max 0 (min v h.capacity)).toNat
    let g := s.gasFigures
    g.level = some level ∧
    (h.bandHigh < level → g.position = .above ∧
      g.correction = ((level - h.bandHigh) * g.networkCv / h.recovery : Nat)) ∧
    (level ≤ h.bandHigh → level < h.bandLow → g.position = .below ∧
      g.correction = -((h.bandLow - level) * g.networkCv / h.recovery : Nat)) ∧
    (level ≤ h.bandHigh → h.bandLow ≤ level → g.position = .inBand ∧ g.correction = 0) := by
  have level := State.holderLevel_eq holder measured
  unfold State.gasFigures State.holderPosition State.holderCorrection
  rw [level, holder]
  refine ⟨rfl, fun above => ?_, fun within below => ?_, fun within reaches => ?_⟩
  · exact ⟨if_pos above, if_pos above⟩
  · simp only [if_neg (Nat.not_lt.mpr within), if_pos below]
    exact ⟨trivial, trivial⟩
  · simp only [if_neg (Nat.not_lt.mpr within), if_neg (Nat.not_lt.mpr reaches)]
    exact ⟨trivial, trivial⟩

theorem DetectorCell.limitActive_iff (d : DetectorCell) :
    d.limitActive = true ↔ d.state = .active ∨ d.state = .disarming := decide_eq_true_iff

end Sys2Proof.Machine
end

section
/-! SUPPORT. The stages of a dispatch cycle that raise boilers one after another (R47, R48): each boiler's figure from what
the boilers before it left; and the stage's list read boiler by boiler. With O36. -/

namespace Sys2Proof.Machine

variable {l before after : List (FiringFigures × Nat)} {x : FiringFigures} {n : Nat}

/-! ### What a stage's boilers take of the gas and of the headroom -/

/-- What the boilers of a stage's list take above their floors (R47). -/
def raisedTotal (l : List (FiringFigures × Nat)) : Nat := (l.map fun y => y.2 - y.1.floor).sum

/-- The steam that the boilers of a stage's list raise above that of their floors (R47, R48). -/
def raisedSteam (l : List (FiringFigures × Nat)) : Nat := (l.map fun y => y.1.steam y.2 - y.1.steam y.1.floor).sum

theorem raisedTotal_cons (y : FiringFigures × Nat) (l : List (FiringFigures × Nat)) :
    raisedTotal (y :: l) = y.2 - y.1.floor + raisedTotal l := rfl

theorem raisedSteam_cons (y : FiringFigures × Nat) (l : List (FiringFigures × Nat)) :
    raisedSteam (y :: l) = y.1.steam y.2 - y.1.steam y.1.floor + raisedSteam l := rfl

/-! ### The gas raise (R47) -/

theorem raiseGas_figures (l : List FiringFigures) (gas headroom : Nat) :
    (raiseGas l gas headroom).1.map Prod.fst = l := by
  induction l generalizing gas headroom with
  | nil => rfl
  | cons y l ih => exact congrArg (y :: ·) (ih _ _)

theorem raiseGas_left (l : List FiringFigures) (gas headroom : Nat) :
    (raiseGas l gas headroom).2 = gas - raisedTotal (raiseGas l gas headroom).1 := by
  induction l generalizing gas headroom with
  | nil => rfl
  | cons y l ih =>
    rw [raiseGas, raisedTotal_cons, ← Nat.sub_sub]
    exact ih _ _

/-- Each boiler's gas, from the gas and the headroom that the boilers before it left. -/
theorem raiseGas_at {l : List FiringFigures} {gas headroom : Nat}
    (h : (raiseGas l gas headroom).1 = before ++ (x, n) :: after) :
    n = x.raisedGas (gas - raisedTotal before) (headroom - raisedSteam before) := by
  induction l generalizing gas headroom before with
  | nil => simp [raiseGas] at h
  | cons y l ih =>
    rw [raiseGas] at h
    cases before with
    | nil =>
      obtain ⟨first, -⟩ := List.cons.inj h
      cases first
      rfl
    | cons z before =>
      obtain ⟨rfl, rest⟩ := List.cons.inj h
      rw [raisedTotal_cons, raisedSteam_cons, ← Nat.sub_sub, ← Nat.sub_sub]
      exact ih rest

/-- The floors and the gas raised over them are the allocations and the gas left. -/
theorem raiseGas_total (l : List FiringFigures) (gas headroom : Nat) :
    ((raiseGas l gas headroom).1.map Prod.snd).sum + (raiseGas l gas headroom).2 =
      (l.map FiringFigures.floor).sum + gas := by
  induction l generalizing gas headroom with
  | nil => rfl
  | cons y l ih =>
    obtain ⟨raise, within, new⟩ : ∃ raise, raise ≤ gas ∧ y.raisedGas gas headroom = y.floor + raise :=
      ⟨_, Nat.min_le_right _ _, rfl⟩
    have rest := ih (gas - (y.raisedGas gas headroom - y.floor))
      (headroom - (y.steam (y.raisedGas gas headroom) - y.steam y.floor))
    simp only [raiseGas, List.map_cons, List.sum_cons]
    omega

/-! ### The aux raise (R48) -/

theorem raiseAux_figures (l : List FiringFigures) (heat : Nat) : (raiseAux l heat).1.map Prod.fst = l := by
  induction l generalizing heat with
  | nil => rfl
  | cons y l ih => exact congrArg (y :: ·) (ih _)

theorem raiseAux_left (l : List FiringFigures) (heat : Nat) :
    (raiseAux l heat).2 = heat - raisedSteam (raiseAux l heat).1 := by
  induction l generalizing heat with
  | nil => rfl
  | cons y l ih =>
    rw [raiseAux, raisedSteam_cons, ← Nat.sub_sub]
    exact ih _

/-- Each boiler's aux fuel, from the heat that the boilers before it left uncovered. -/
theorem raiseAux_at {l : List FiringFigures} {heat : Nat} (h : (raiseAux l heat).1 = before ++ (x, n) :: after) :
    n = if heat - raisedSteam before = 0 then x.floor else x.raisedAux (heat - raisedSteam before) := by
  induction l generalizing heat before with
  | nil => simp [raiseAux] at h
  | cons y l ih =>
    rw [raiseAux] at h
    cases before with
    | nil =>
      obtain ⟨first, -⟩ := List.cons.inj h
      cases first
      rfl
    | cons z before =>
      obtain ⟨rfl, rest⟩ := List.cons.inj h
      rw [raisedSteam_cons, ← Nat.sub_sub]
      exact ih rest

/-! ### A stage's list, boiler by boiler -/

/-- A search by a key that no two members share finds the member. -/
theorem find?_of_key {α κ : Type} [DecidableEq κ] {key : α → κ} {l : List α} {a : α} (nodup : (l.map key).Nodup)
    (mem : a ∈ l) : l.find? (fun y => decide (key y = key a)) = some a := by
  induction l with
  | nil => cases mem
  | cons y l ih =>
    obtain ⟨new, nodup⟩ := List.nodup_cons.mp nodup
    obtain rfl | mem := List.mem_cons.mp mem
    · exact List.find?_cons_of_pos (decide_eq_true rfl)
    · have other : key y ≠ key a := fun e => new (e ▸ List.mem_map_of_mem mem)
      rw [List.find?_cons_of_neg (by simpa using other)]
      exact ih nodup mem

theorem allocated_of_mem (nodup : (l.map fun y => y.1.boiler).Nodup) (mem : (x, n) ∈ l) : allocated l x.boiler = n := by
  rw [allocated, find?_of_key (key := fun y : FiringFigures × Nat => y.1.boiler) nodup mem]
  rfl

theorem allocated_of_not_mem {b : Boiler} (h : b ∉ l.map fun y => y.1.boiler) : allocated l b = 0 := by
  have missing : l.find? (fun y => decide (y.1.boiler = b)) = none :=
    List.find?_eq_none.mpr fun y mem => by simpa using fun e => h (List.mem_map.mpr ⟨y, mem, e⟩)
  rw [allocated, missing]
  rfl

/-- A stage's list over boilers `bs`, as a map of them. -/
theorem stage_eq_map {bs : List Boiler} {fig : Boiler → FiringFigures} (own : ∀ b, (fig b).boiler = b) (nodup : bs.Nodup)
    (figures : l.map Prod.fst = bs.map fig) : l = bs.map fun b => (fig b, allocated l b) := by
  have names : l.map (fun y => y.1.boiler) = bs := by
    have := congrArg (List.map FiringFigures.boiler) figures
    rw [List.map_map, List.map_map] at this
    exact this.trans ((List.map_congr_left fun b _ => own b).trans (List.map_id bs))
  calc l = l.map fun y => (y.1, allocated l y.1.boiler) := by
        refine ((List.map_congr_left fun y mem => ?_).trans (List.map_id l)).symm
        rw [allocated_of_mem (x := y.1) (n := y.2) (by rw [names]; exact nodup) mem]
        rfl
    _ = (l.map Prod.fst).map fun f => (f, allocated l f.boiler) := by rw [List.map_map]; rfl
    _ = bs.map fun b => (fig b, allocated l b) := by
        rw [figures, List.map_map]
        exact List.map_congr_left fun b _ => by rw [Function.comp_apply, own]

end Sys2Proof.Machine
end

section
/-! SUPPORT. The firing boilers of a cycle in merit order, their floors, and the sums over them (R39, R44); with O36. -/

namespace Sys2Proof.Machine

variable {s : State} {g : GasFigures} {b : Boiler} {c : BoilerConfig} {present : Allocation → Nat}

/-! ### The merit order (R39) -/

theorem State.mem_meritOrder (s : State) (b : Boiler) : b ∈ s.meritOrder := by
  by_cases listed : b ∈ s.cfg.merit <;> simp [State.meritOrder, listed]

theorem State.meritOrder_nodup (nodup : s.cfg.merit.Nodup) : s.meritOrder.Nodup :=
  nodup.append ((List.nodup_finRange 8).filter _) fun b listed unlisted => by simp [listed] at unlisted

/-- The merit order arranges the eight boilers. -/
theorem State.meritOrder_perm (nodup : s.cfg.merit.Nodup) : s.meritOrder.Perm (List.finRange 8) :=
  (List.perm_ext_iff_of_nodup (State.meritOrder_nodup nodup) (List.nodup_finRange 8)).mpr
    fun b => iff_of_true (s.mem_meritOrder b) (List.mem_finRange b)

theorem State.mem_gasFiring : b ∈ s.gasFiring ↔ (s.boilers[b]).state = .firingGas := by
  simp [State.gasFiring, s.mem_meritOrder b]

theorem State.mem_auxFiring : b ∈ s.auxFiring ↔ (s.boilers[b]).state = .firingAux := by
  simp [State.auxFiring, s.mem_meritOrder b]

theorem State.gasFiring_nodup (nodup : s.cfg.merit.Nodup) : s.gasFiring.Nodup := (State.meritOrder_nodup nodup).filter _

theorem State.auxFiring_nodup (nodup : s.cfg.merit.Nodup) : s.auxFiring.Nodup := (State.meritOrder_nodup nodup).filter _

/-- A sum over a list, of a figure that is 0 outside two parts of it that share no member. -/
theorem sum_map_two_filters {α : Type} {p q : α → Bool} {f : α → Nat} (apart : ∀ a, p a = true → q a = false)
    (idle : ∀ a, p a = false → q a = false → f a = 0) (l : List α) :
    (l.map f).sum = ((l.filter p).map f).sum + ((l.filter q).map f).sum := by
  induction l with
  | nil => rfl
  | cons a l ih =>
    rw [List.map_cons, List.sum_cons, ih]
    cases hp : p a with
    | true => simp [hp, apart a hp, Nat.add_assoc]
    | false =>
      cases hq : q a with
      | true => simp [hp, hq, Nat.add_left_comm]
      | false => simp [hp, hq, idle a hp hq]

/-- A sum over the eight boilers of a figure that only firing boilers have. -/
theorem State.sum_firing (nodup : s.cfg.merit.Nodup) (f : Boiler → Nat)
    (idle : ∀ b : Boiler, (s.boilers[b]).state ≠ .firingGas → (s.boilers[b]).state ≠ .firingAux → f b = 0) :
    ((List.finRange 8).map f).sum = (s.gasFiring.map f).sum + (s.auxFiring.map f).sum := by
  rw [← ((State.meritOrder_perm nodup).map f).sum_eq]
  refine sum_map_two_filters (fun b gas => ?_) (fun b gas aux => ?_) s.meritOrder
  · rw [of_decide_eq_true gas]
    rfl
  · exact idle b (of_decide_eq_false gas) (of_decide_eq_false aux)

/-! ### The figures of a firing boiler (R44) -/

/-- The steam of a boiler at a fuel rate (R44). -/
def State.steamAt (s : State) (b : Boiler) (rate : Nat) : Nat := rate * (s.cfg.boilers[b]).elim 0 (·.yield) / 1000

theorem State.firingFigures_boiler (present : Allocation → Nat) (b : Boiler) : (s.firingFigures present b).boiler = b := by
  unfold State.firingFigures
  cases s.cfg.boilers[b] <;> rfl

theorem State.firingFigures_steam (present : Allocation → Nat) (b : Boiler) (rate : Nat) :
    (s.firingFigures present b).steam rate = s.steamAt b rate := by
  unfold State.firingFigures State.steamAt
  cases s.cfg.boilers[b] <;> rfl

theorem State.firingFigures_of (conf : s.cfg.boilers[b] = some c) : s.firingFigures present b =
    { boiler := b, present := present s.dsp.allocations[b], minimum := c.minimum, maximum := c.maximum, ramp := c.ramp,
      yield := c.yield } := by
  unfold State.firingFigures
  rw [conf]

theorem State.gasFigured_names (s : State) : s.gasFigured.map FiringFigures.boiler = s.gasFiring := by
  rw [State.gasFigured, List.map_map]
  exact (List.map_congr_left fun b _ => State.firingFigures_boiler _ b).trans (List.map_id _)

theorem State.auxFigured_names (s : State) : s.auxFigured.map FiringFigures.boiler = s.auxFiring := by
  rw [State.auxFigured, List.map_map]
  exact (List.map_congr_left fun b _ => State.firingFigures_boiler _ b).trans (List.map_id _)

theorem State.figured_nodup (nodup : s.cfg.merit.Nodup) :
    ((s.gasFigured ++ s.auxFigured).map FiringFigures.boiler).Nodup := by
  rw [List.map_append, State.gasFigured_names, State.auxFigured_names]
  refine (State.gasFiring_nodup nodup).append (State.auxFiring_nodup nodup) fun b gas aux => ?_
  rw [State.mem_gasFiring] at gas
  rw [State.mem_auxFiring, gas] at aux
  cases aux

/-! ### The floors in the result (R44) -/

/-- The floor of a boiler in a result, 0 where it has none. -/
def DispatchResult.floorAt (r : DispatchResult) (b : Boiler) : Nat := (r.boilers[b]).floor.getD 0

theorem State.cycleResult_floor (g : GasFigures) (b : Boiler) : ((s.cycleResult g).boilers[b]).floor =
    ((s.gasFigured ++ s.auxFigured).find? fun x => decide (x.boiler = b)).map FiringFigures.floor := by
  simp [State.cycleResult]

theorem State.floor_of_figured (nodup : s.cfg.merit.Nodup)
    (mem : s.firingFigures present b ∈ s.gasFigured ++ s.auxFigured) :
    ((s.cycleResult g).boilers[b]).floor = some (s.firingFigures present b).floor := by
  have found := find?_of_key (State.figured_nodup nodup) mem
  rw [State.firingFigures_boiler] at found
  rw [State.cycleResult_floor, found]
  rfl

theorem State.floor_of_gas (nodup : s.cfg.merit.Nodup) (firing : (s.boilers[b]).state = .firingGas) :
    ((s.cycleResult g).boilers[b]).floor = some (s.firingFigures (·.gas) b).floor :=
  State.floor_of_figured nodup
    (List.mem_append_left _ (List.mem_map_of_mem (State.mem_gasFiring.mpr firing)))

theorem State.floor_of_aux (nodup : s.cfg.merit.Nodup) (firing : (s.boilers[b]).state = .firingAux) :
    ((s.cycleResult g).boilers[b]).floor = some (s.firingFigures (·.aux) b).floor :=
  State.floor_of_figured nodup
    (List.mem_append_right _ (List.mem_map_of_mem (State.mem_auxFiring.mpr firing)))

theorem State.floor_of_idle (gas : (s.boilers[b]).state ≠ .firingGas) (aux : (s.boilers[b]).state ≠ .firingAux) :
    ((s.cycleResult g).boilers[b]).floor = none := by
  have missing : (s.gasFigured ++ s.auxFigured).find? (fun x => decide (x.boiler = b)) = none := by
    refine List.find?_eq_none.mpr fun x mem => ?_
    have named : x.boiler ∈ s.gasFiring ++ s.auxFiring := by
      rw [← State.gasFigured_names, ← State.auxFigured_names, ← List.map_append]
      exact List.mem_map_of_mem mem
    rw [List.mem_append, State.mem_gasFiring, State.mem_auxFiring] at named
    simp only [decide_eq_true_eq]
    rintro rfl
    exact named.elim gas aux
  rw [State.cycleResult_floor, missing]
  rfl

theorem State.floorAt_of_gas (nodup : s.cfg.merit.Nodup) (firing : (s.boilers[b]).state = .firingGas) :
    (s.cycleResult g).floorAt b = (s.firingFigures (·.gas) b).floor := by
  rw [DispatchResult.floorAt, State.floor_of_gas nodup firing, Option.getD_some]

theorem State.floorAt_of_aux (nodup : s.cfg.merit.Nodup) (firing : (s.boilers[b]).state = .firingAux) :
    (s.cycleResult g).floorAt b = (s.firingFigures (·.aux) b).floor := by
  rw [DispatchResult.floorAt, State.floor_of_aux nodup firing, Option.getD_some]

/-! ### The sums of stage 3 (R44) -/

/-- The floors of the boilers on gas, in their merit order. -/
theorem State.gasFigured_floors (nodup : s.cfg.merit.Nodup) (g : GasFigures) :
    s.gasFigured.map FiringFigures.floor = s.gasFiring.map (s.cycleResult g).floorAt := by
  rw [State.gasFigured, List.map_map]
  exact List.map_congr_left fun b mem => (State.floorAt_of_gas nodup (State.mem_gasFiring.mp mem)).symm

theorem State.gasFigured_steam (nodup : s.cfg.merit.Nodup) (g : GasFigures) :
    s.gasFigured.map (fun x => x.steam x.floor) = s.gasFiring.map fun b => s.steamAt b ((s.cycleResult g).floorAt b) := by
  rw [State.gasFigured, List.map_map]
  refine List.map_congr_left fun b mem => ?_
  rw [Function.comp_apply, State.firingFigures_steam, State.floorAt_of_gas nodup (State.mem_gasFiring.mp mem)]

theorem State.auxFigured_steam (nodup : s.cfg.merit.Nodup) (g : GasFigures) :
    s.auxFigured.map (fun x => x.steam x.floor) = s.auxFiring.map fun b => s.steamAt b ((s.cycleResult g).floorAt b) := by
  rw [State.auxFigured, List.map_map]
  refine List.map_congr_left fun b mem => ?_
  rw [Function.comp_apply, State.firingFigures_steam, State.floorAt_of_aux nodup (State.mem_auxFiring.mp mem)]

/-- The committed steam is that of every boiler's floor (R44). -/
theorem State.committed_eq (nodup : s.cfg.merit.Nodup) (g : GasFigures) : (s.cycleResult g).early.committed =
    ((List.finRange 8).map fun b => s.steamAt b ((s.cycleResult g).floorAt b)).sum := by
  rw [State.sum_firing nodup]
  · rw [← State.gasFigured_steam nodup, ← State.auxFigured_steam nodup, ← List.sum_append, ← List.map_append]
    rfl
  · intro b gas aux
    rw [DispatchResult.floorAt, State.floor_of_idle gas aux, Option.getD_none, State.steamAt, Nat.zero_mul, Nat.zero_div]

/-- The gas floors are those of the boilers on gas (R44). -/
theorem State.gasFloors_eq (nodup : s.cfg.merit.Nodup) (g : GasFigures) : (s.cycleResult g).early.gasFloors =
    (((List.finRange 8).filter fun b => decide ((s.boilers[b]).state = .firingGas)).map (s.cycleResult g).floorAt).sum := by
  have perm : s.gasFiring.Perm ((List.finRange 8).filter fun b => decide ((s.boilers[b]).state = .firingGas)) :=
    (State.meritOrder_perm nodup).filter _
  rw [← (perm.map _).sum_eq, ← State.gasFigured_floors nodup]
  rfl

/-- A firing boiler's floor, from its configuration (R44). -/
theorem State.floor_configured (nodup : s.cfg.merit.Nodup) (g : GasFigures) (conf : s.cfg.boilers[b] = some c) :
    ((s.boilers[b]).state = .firingGas → ((s.cycleResult g).boilers[b]).floor =
      some (max c.minimum ((s.dsp.allocations[b]).gas - c.ramp))) ∧
    ((s.boilers[b]).state = .firingAux → ((s.cycleResult g).boilers[b]).floor =
      some (max c.minimum ((s.dsp.allocations[b]).aux - c.ramp))) := by
  refine ⟨fun firing => ?_, fun firing => ?_⟩
  · rw [State.floor_of_gas nodup firing, State.firingFigures_of conf]
    rfl
  · rw [State.floor_of_aux nodup firing, State.firingFigures_of conf]
    rfl

end Sys2Proof.Machine
end

section
/-! SUPPORT. The stages of a cycle, as its result shows them (R42 to R54); settles O36. -/

namespace Sys2Proof.Machine

variable {s : State} {g : GasFigures} {b : Boiler} {c : BoilerConfig} {present : Allocation → Nat}

/-! ### Stages 1 and 2 (R42, R43) -/

theorem State.turbineAvailable_of {i : Indications} (indicated : s.indicated .turbineStatus = some i)
    (available : i.available = true) : s.turbineAvailable = true := by
  rw [State.turbineAvailable, indicated, Option.any_some, available]

theorem State.turbine_unavailable (h : ∀ i, s.indicated .turbineStatus = some i → i.available = false) :
    s.turbineAvailable = false := by
  unfold State.turbineAvailable
  cases indicated : s.indicated .turbineStatus with
  | none => rfl
  | some i => rw [Option.any_some, h i indicated]

/-- The turbine steam limit and its mark (R43 iii). -/
theorem State.turbineLimit_cases (s : State) (g : GasFigures) :
    ((∃ i, s.indicated .turbineStatus = some i ∧ i.available = true) →
      (s.cycleResult g).early.turbineLimit =
        min s.cfg.plant.turbineMax ((s.esu.effLimit + s.cfg.plant.ownUse) * 1000 / s.cfg.plant.conversion) ∧
      (s.cycleResult g).flags.turbineUnavailable = false) ∧
    ((∀ i, s.indicated .turbineStatus = some i → i.available = false) →
      (s.cycleResult g).early.turbineLimit = 0 ∧ (s.cycleResult g).flags.turbineUnavailable = true) := by
  refine ⟨fun ⟨i, indicated, available⟩ => ?_, fun dark => ?_⟩
  · have on := State.turbineAvailable_of indicated available
    exact ⟨if_pos on, congrArg (! ·) on⟩
  · have off := State.turbine_unavailable dark
    exact ⟨if_neg (by rw [off]; decide), congrArg (! ·) off⟩

/-! ### Stage 4: the grounds (R45) -/

theorem State.shortage_iff (s : State) (g : GasFigures) : (s.cycleResult g).flags.shortage = true ↔
    g.surplus + g.correction < 0 ∨ (s.cycleResult g).early.available < (s.cycleResult g).early.gasFloors ∨
      g.lowLow = true := by
  refine (Bool.or_eq_true _ _).to_iff.trans ?_
  rw [decide_eq_true_iff, or_assoc]
  rfl

/-! ### The lists of stages 5 and 6 -/

/-- The gas stage of a cycle: the new allocations and the leftover gas (R47). -/
def State.gasStaged (s : State) (g : GasFigures) : List (FiringFigures × Nat) × Nat :=
  gasStage (isShortage g (s.earlyFigures g)) (s.earlyFigures g) s.gasFigured

/-- The heat that the aux stage finds uncovered (R48 (1)). -/
def State.auxHeat (s : State) (g : GasFigures) : Nat :=
  let r := s.cycleResult g
  r.early.usable - min r.early.usable (r.raised.gasSteam + r.raised.auxFloorSteam)

/-- The aux stage of a cycle: the new allocations and the heat still uncovered (R48). -/
def State.auxStaged (s : State) (g : GasFigures) : List (FiringFigures × Nat) × Nat := raiseAux s.auxFigured (s.auxHeat g)

theorem State.cycleResult_raised (s : State) (g : GasFigures) : (s.cycleResult g).raised =
    { remainingGas := if (s.cycleResult g).flags.shortage then 0
        else (s.cycleResult g).early.available - (s.cycleResult g).early.gasFloors
      remainingHeadroom := if (s.cycleResult g).flags.shortage then 0
        else (s.cycleResult g).early.headroom - (s.cycleResult g).early.committed
      leftover := (s.gasStaged g).2
      gasSteam := totalSteam (s.gasStaged g).1
      auxFloorSteam := (s.auxFigured.map fun x => x.steam x.floor).sum
      shortfall := (s.auxStaged g).2
      auxSteam := totalSteam (s.auxStaged g).1 } := rfl

theorem State.cycleResult_gas (s : State) (g : GasFigures) (b : Boiler) :
    ((s.cycleResult g).boilers[b]).gas = allocated (s.gasStaged g).1 b := by
  simp only [State.cycleResult, Fin.getElem_fin, Vector.getElem_ofFn]
  rfl

theorem State.cycleResult_aux (s : State) (g : GasFigures) (b : Boiler) :
    ((s.cycleResult g).boilers[b]).aux = allocated (s.auxStaged g).1 b := by
  simp only [State.cycleResult, Fin.getElem_fin, Vector.getElem_ofFn]
  rfl

/-- In a shortage cycle the gas stage leaves each boiler its floor, and no gas (R45 i). -/
theorem State.gasStaged_short (short : (s.cycleResult g).flags.shortage = true) :
    s.gasStaged g = (s.gasFigured.map fun x => (x, x.floor), 0) := if_pos short

theorem State.gasStaged_raised (plain : (s.cycleResult g).flags.shortage = false) : s.gasStaged g =
    raiseGas s.gasFigured ((s.cycleResult g).early.available - (s.cycleResult g).early.gasFloors)
      ((s.cycleResult g).early.headroom - (s.cycleResult g).early.committed) :=
  if_neg (Bool.eq_false_iff.mp plain)

theorem State.gasStaged_figures (s : State) (g : GasFigures) : (s.gasStaged g).1.map Prod.fst = s.gasFigured := by
  cases mark : (s.cycleResult g).flags.shortage with
  | true =>
    rw [State.gasStaged_short mark, List.map_map]
    exact List.map_id _
  | false => rw [State.gasStaged_raised mark, raiseGas_figures]

/-- The gas stage, boiler by boiler, as the result shows it. -/
theorem State.gasStaged_eq (nodup : s.cfg.merit.Nodup) (g : GasFigures) : (s.gasStaged g).1 =
    s.gasFiring.map fun b => (s.firingFigures (·.gas) b, ((s.cycleResult g).boilers[b]).gas) := by
  simp only [State.cycleResult_gas]
  exact stage_eq_map (State.firingFigures_boiler _) (State.gasFiring_nodup nodup) (s.gasStaged_figures g)

/-- The aux stage, boiler by boiler, as the result shows it. -/
theorem State.auxStaged_eq (nodup : s.cfg.merit.Nodup) (g : GasFigures) : (s.auxStaged g).1 =
    s.auxFiring.map fun b => (s.firingFigures (·.aux) b, ((s.cycleResult g).boilers[b]).aux) := by
  simp only [State.cycleResult_aux]
  exact stage_eq_map (State.firingFigures_boiler _) (State.auxFiring_nodup nodup) (raiseAux_figures _ _)

/-- A boiler that does not fire a fuel has no allocation of it. -/
theorem State.unallocated (s : State) (g : GasFigures) (b : Boiler) :
    ((s.boilers[b]).state ≠ .firingGas → ((s.cycleResult g).boilers[b]).gas = 0) ∧
      ((s.boilers[b]).state ≠ .firingAux → ((s.cycleResult g).boilers[b]).aux = 0) := by
  refine ⟨fun other => ?_, fun other => ?_⟩
  · rw [State.cycleResult_gas]
    refine allocated_of_not_mem fun mem => other (State.mem_gasFiring.mp ?_)
    rwa [← State.gasFigured_names, ← s.gasStaged_figures g, List.map_map]
  · rw [State.cycleResult_aux]
    refine allocated_of_not_mem fun mem => other (State.mem_auxFiring.mp ?_)
    have figures : (s.auxStaged g).1.map Prod.fst = s.auxFigured := raiseAux_figures _ _
    rwa [← State.auxFigured_names, ← figures, List.map_map]

/-! ### Sums over a stage's boilers, by their allocations and floors -/

section Sums

variable {bs : List Boiler} {amount floor : Boiler → Nat}

theorem raisedTotal_map (floors : ∀ b ∈ bs, floor b = (s.firingFigures present b).floor) :
    raisedTotal (bs.map fun b => (s.firingFigures present b, amount b)) = (bs.map fun b => amount b - floor b).sum := by
  rw [raisedTotal, List.map_map]
  exact congrArg List.sum (List.map_congr_left fun b mem => by rw [floors b mem]; rfl)

theorem raisedSteam_map (floors : ∀ b ∈ bs, floor b = (s.firingFigures present b).floor) :
    raisedSteam (bs.map fun b => (s.firingFigures present b, amount b)) =
      (bs.map fun b => s.steamAt b (amount b) - s.steamAt b (floor b)).sum := by
  rw [raisedSteam, List.map_map]
  exact congrArg List.sum (List.map_congr_left fun b mem => by
    rw [floors b mem, Function.comp_apply, State.firingFigures_steam, State.firingFigures_steam])

theorem totalSteam_map : totalSteam (bs.map fun b => (s.firingFigures present b, amount b)) =
    (bs.map fun b => s.steamAt b (amount b)).sum := by
  rw [totalSteam, List.map_map]
  exact congrArg List.sum (List.map_congr_left fun b _ => State.firingFigures_steam present b (amount b))

end Sums

/-! ### Stage 5 (R47) -/

/-- What the boilers `before` leave of the gas above the floors (R47). -/
def DispatchResult.gasAfter (r : DispatchResult) (before : List Boiler) : Nat :=
  r.early.available - r.early.gasFloors - (before.map fun b => (r.boilers[b]).gas - r.floorAt b).sum

/-- What the boilers `before` leave of the headroom above the committed steam (R47). -/
def State.headroomAfter (s : State) (r : DispatchResult) (before : List Boiler) : Nat :=
  r.early.headroom - r.early.committed -
    (before.map fun b => s.steamAt b (r.boilers[b]).gas - s.steamAt b (r.floorAt b)).sum

/-- In a shortage cycle each boiler's gas is its floor, and none is left (R45 i). -/
theorem State.shortage_floors (nodup : s.cfg.merit.Nodup) (short : (s.cycleResult g).flags.shortage = true) :
    (s.cycleResult g).raised.leftover = 0 ∧ ∀ b : Boiler, (s.boilers[b]).state = .firingGas →
      ((s.cycleResult g).boilers[b]).floor = some ((s.cycleResult g).boilers[b]).gas := by
  refine ⟨congrArg Prod.snd (State.gasStaged_short short), fun b firing => ?_⟩
  have staged := State.gasStaged_eq nodup g
  rw [State.gasStaged_short short, State.gasFigured, List.map_map] at staged
  have own := List.map_inj_left.mp staged b (State.mem_gasFiring.mpr firing)
  rw [State.floor_of_gas nodup firing]
  exact congrArg (some ∘ Prod.snd) own

theorem State.gas_left (nodup : s.cfg.merit.Nodup) (plain : (s.cycleResult g).flags.shortage = false) :
    (s.cycleResult g).raised.leftover = (s.cycleResult g).gasAfter s.gasFiring := by
  have left : (s.cycleResult g).raised.leftover = _ := (congrArg Prod.snd (State.gasStaged_raised plain)).trans
    (raiseGas_left _ _ _)
  rw [left, ← State.gasStaged_raised plain, State.gasStaged_eq nodup g,
    raisedTotal_map fun b mem => State.floorAt_of_gas nodup (State.mem_gasFiring.mp mem)]
  rfl

/-- The gas allocations do not exceed the available gas (R47). -/
theorem State.gas_within (nodup : s.cfg.merit.Nodup) (plain : (s.cycleResult g).flags.shortage = false) :
    ((s.cycleResult g).boilers.toList.map (·.gas)).sum ≤ (s.cycleResult g).early.available := by
  have listed : (s.cycleResult g).boilers.toList = (List.finRange 8).map fun b => (s.cycleResult g).boilers[b] :=
    List.ext_getElem (by simp) fun i _ _ => by simp
  have sums : (s.cycleResult g).boilers.toList.map (·.gas) =
      (List.finRange 8).map fun b => ((s.cycleResult g).boilers[b]).gas := by
    rw [listed, List.map_map]
    rfl
  have none : (s.auxFiring.map fun b => ((s.cycleResult g).boilers[b]).gas).sum = 0 := by
    refine List.sum_eq_zero fun n mem => ?_
    obtain ⟨b, aux, rfl⟩ := List.mem_map.mp mem
    refine (s.unallocated g b).1 fun gas => ?_
    rw [State.mem_auxFiring, gas] at aux
    cases aux
  have total := raiseGas_total s.gasFigured ((s.cycleResult g).early.available - (s.cycleResult g).early.gasFloors)
    ((s.cycleResult g).early.headroom - (s.cycleResult g).early.committed)
  rw [← State.gasStaged_raised plain, State.gasStaged_eq nodup g, List.map_map] at total
  have floors : (s.gasFigured.map FiringFigures.floor).sum = (s.cycleResult g).early.gasFloors := rfl
  have enough : ¬ (s.cycleResult g).early.available < (s.cycleResult g).early.gasFloors := fun short => by
    have marked := (s.shortage_iff g).mpr (.inr (.inl short))
    rw [plain] at marked
    cases marked
  rw [sums, State.sum_firing nodup _ fun b gas _ => (s.unallocated g b).1 gas, none]
  have same : (s.gasFiring.map (Prod.snd ∘ fun b => (s.firingFigures (·.gas) b, ((s.cycleResult g).boilers[b]).gas))) =
      s.gasFiring.map fun b => ((s.cycleResult g).boilers[b]).gas := rfl
  rw [same, floors] at total
  omega

/-- A boiler's gas, from what the boilers before it in merit order left (R47). -/
theorem State.gas_raised {before after : List Boiler} (nodup : s.cfg.merit.Nodup)
    (plain : (s.cycleResult g).flags.shortage = false) (split : s.gasFiring = before ++ b :: after)
    (conf : s.cfg.boilers[b] = some c) :
    let r := s.cycleResult g
    let cap := (s.steamAt b (r.floorAt b) + s.headroomAfter r before) * 1000 / c.yield
    let ceiling := min c.maximum (min ((s.dsp.allocations[b]).gas + c.ramp) cap)
    (r.boilers[b]).gas = r.floorAt b + min (ceiling - r.floorAt b) (r.gasAfter before) := by
  have firing (a : Boiler) (mem : a ∈ s.gasFiring) :
      (s.cycleResult g).floorAt a = (s.firingFigures (·.gas) a).floor :=
    State.floorAt_of_gas nodup (State.mem_gasFiring.mp mem)
  have earlier (a : Boiler) (mem : a ∈ before) : (s.cycleResult g).floorAt a = (s.firingFigures (·.gas) a).floor :=
    firing a (split ▸ List.mem_append_left _ mem)
  have own : (s.cycleResult g).floorAt b = (s.firingFigures (·.gas) b).floor :=
    firing b (split ▸ List.mem_append_right _ (.head _))
  have staged := State.gasStaged_eq nodup g
  rw [State.gasStaged_raised plain, split, List.map_append, List.map_cons] at staged
  have raised := raiseGas_at staged
  rw [raisedTotal_map earlier, raisedSteam_map earlier, FiringFigures.raisedGas, ← own, State.firingFigures_steam,
    State.firingFigures_of conf] at raised
  exact raised

/-! ### Stage 6 (R48) -/

/-- The heat that the boilers `before` leave uncovered (R48). -/
def State.heatAfter (s : State) (r : DispatchResult) (before : List Boiler) : Nat :=
  r.early.usable - min r.early.usable (r.raised.gasSteam + r.raised.auxFloorSteam) -
    (before.map fun b => s.steamAt b (r.boilers[b]).aux - s.steamAt b (r.floorAt b)).sum

theorem State.gasSteam_eq (nodup : s.cfg.merit.Nodup) (g : GasFigures) : (s.cycleResult g).raised.gasSteam =
    (s.gasFiring.map fun b => s.steamAt b ((s.cycleResult g).boilers[b]).gas).sum := by
  rw [State.cycleResult_raised, State.gasStaged_eq nodup g]
  exact totalSteam_map

theorem State.auxSteam_eq (nodup : s.cfg.merit.Nodup) (g : GasFigures) : (s.cycleResult g).raised.auxSteam =
    (s.auxFiring.map fun b => s.steamAt b ((s.cycleResult g).boilers[b]).aux).sum := by
  rw [State.cycleResult_raised, State.auxStaged_eq nodup g]
  exact totalSteam_map

theorem State.auxFloorSteam_eq (nodup : s.cfg.merit.Nodup) (g : GasFigures) : (s.cycleResult g).raised.auxFloorSteam =
    (s.auxFiring.map fun b => s.steamAt b ((s.cycleResult g).floorAt b)).sum := by
  rw [← State.auxFigured_steam nodup]
  rfl

theorem State.heat_left (nodup : s.cfg.merit.Nodup) (g : GasFigures) :
    (s.cycleResult g).raised.shortfall = s.heatAfter (s.cycleResult g) s.auxFiring := by
  have left : (s.cycleResult g).raised.shortfall = s.auxHeat g - raisedSteam (s.auxStaged g).1 := raiseAux_left _ _
  rw [left, State.auxStaged_eq nodup g,
    raisedSteam_map fun b mem => State.floorAt_of_aux nodup (State.mem_auxFiring.mp mem)]
  rfl

/-- A boiler's aux fuel, from the heat that the boilers before it in merit order left uncovered (R48). -/
theorem State.aux_raised {before after : List Boiler} (nodup : s.cfg.merit.Nodup) (g : GasFigures)
    (split : s.auxFiring = before ++ b :: after) (conf : s.cfg.boilers[b] = some c) :
    let r := s.cycleResult g
    let heat := s.heatAfter r before
    let need := (heat * 1000 + c.yield - 1) / c.yield
    let ceiling := min c.maximum ((s.dsp.allocations[b]).aux + c.ramp)
    (heat = 0 → (r.boilers[b]).aux = r.floorAt b) ∧
      (0 < heat → (r.boilers[b]).aux = r.floorAt b + min (ceiling - r.floorAt b) need) := by
  have firing (a : Boiler) (mem : a ∈ s.auxFiring) :
      (s.cycleResult g).floorAt a = (s.firingFigures (·.aux) a).floor :=
    State.floorAt_of_aux nodup (State.mem_auxFiring.mp mem)
  have earlier (a : Boiler) (mem : a ∈ before) : (s.cycleResult g).floorAt a = (s.firingFigures (·.aux) a).floor :=
    firing a (split ▸ List.mem_append_left _ mem)
  have own : (s.cycleResult g).floorAt b = (s.firingFigures (·.aux) b).floor :=
    firing b (split ▸ List.mem_append_right _ (.head _))
  have staged := State.auxStaged_eq nodup g
  rw [split, List.map_append, List.map_cons] at staged
  have raised := raiseAux_at staged
  rw [raisedSteam_map earlier, FiringFigures.raisedAux, ← own, State.firingFigures_of conf] at raised
  exact ⟨fun covered => raised.trans (if_pos covered), fun uncovered => raised.trans (if_neg uncovered.ne')⟩

/-! ### Stages 7 and 9 (R49, R54) -/

/-- The turbine gives power only where it is available (R49). -/
theorem State.power_eq (s : State) (g : GasFigures) : (s.cycleResult g).heat.power =
    if (s.cycleResult g).flags.turbineUnavailable then 0
      else (s.cycleResult g).heat.turbine * s.cfg.plant.conversion / 1000 := by
  have mark : (s.cycleResult g).flags.turbineUnavailable = !s.turbineAvailable := rfl
  rw [mark]
  exact (ite_not_bool s.turbineAvailable _ _).symm

/-- The flare demand, by the HH detector and the holder's position (R54). -/
theorem flareDemand_cases (g : GasFigures) (leftover stageSize : Nat) :
    (g.highHigh = true → flareDemand g leftover stageSize = 4) ∧
    (g.highHigh = false → g.position = .above ∨ g.position = .levelFailed →
      flareDemand g leftover stageSize = min ((leftover + stageSize - 1) / stageSize) 4) ∧
    (g.highHigh = false → g.position = .inBand ∨ g.position = .below → flareDemand g leftover stageSize = 0) := by
  refine ⟨fun high => if_pos high, fun low vents => ?_, fun low holds => ?_⟩
  · exact (if_neg (Bool.eq_false_iff.mp low)).trans (if_pos vents)
  · refine (if_neg (Bool.eq_false_iff.mp low)).trans (if_neg ?_)
    obtain position | position := holds <;> rw [position] <;> decide

/-- Settles O36: the Gas Account's figures, then the result stage by stage. -/
theorem gasAllocationLaw : Obligations.GasAllocationLaw := by
  intro s nodup
  refine ⟨⟨rfl, fun n => ⟨State.source_notDefined, State.source_outOfService, State.source_unmeasured,
      fun _ _ => State.source_counted⟩, rfl, fun _ => State.networkCv_measured, State.networkCv_default,
      fun _ => State.draw_measured, State.draw_fallback, rfl, State.holder_unusable, fun _ _ => State.holder_usable,
      DetectorCell.limitActive_iff _, DetectorCell.limitActive_iff _⟩,
    ⟨?available, rfl, rfl, rfl, (s.turbineLimit_cases _).1, (s.turbineLimit_cases _).2, rfl,
      fun b c conf => State.floor_configured nodup _ conf, fun b gas aux => State.floor_of_idle gas aux,
      State.committed_eq nodup _, State.gasFloors_eq nodup _⟩,
    ⟨s.shortage_iff _, decide_eq_true_iff, decide_eq_true_iff, decide_eq_true_iff⟩,
    ⟨s.unallocated _, rfl, rfl, State.shortage_floors nodup, fun plain => ⟨State.gas_within nodup plain,
      State.gas_left nodup plain, fun before after b c split conf => State.gas_raised nodup plain split conf⟩⟩,
    ⟨State.gasSteam_eq nodup _, State.auxFloorSteam_eq nodup _, State.auxSteam_eq nodup _, State.heat_left nodup _,
      fun before after b c split conf => State.aux_raised nodup _ split conf⟩,
    ⟨rfl, rfl, rfl, rfl, s.power_eq _, rfl, rfl⟩, ?flare⟩
  case available =>
    have trimmed (x : Int) : x.toNat = (max 0 x).toNat := by omega
    exact trimmed _
  case flare =>
    obtain ⟨high, vents, holds⟩ := flareDemand_cases s.gasFigures (s.cycleResult s.gasFigures).raised.leftover
      s.cfg.plant.stageSize
    exact ⟨high, vents, holds, fun less => if_pos less, fun enough => if_neg (Nat.not_lt.mpr enough)⟩

end Sys2Proof.Machine
end

section
/-! SUPPORT. The kinds of act by which a command reaches the Dispatcher, the boilers, the figures they rest on and the host
link, and every operation of the blocks as a run of such acts; with O7 and O9. -/

namespace Sys2Proof.Machine

-- The stacks of threads for every theorem of this section at once would pass the memory limit.
set_option Elab.async false

variable {s t u : State} {b : Boiler}

/-! ### The kinds of act -/

/-- The sequencer fires neither fuel. -/
def Sequencer.Unfired (q : Sequencer) : Prop := q.state ≠ .firingGas ∧ q.state ≠ .firingAux

/-- The figures of R39, R40 and R88 are within their ranges, in the working region and in both copies. -/
abbrev State.FiguresFit (s : State) : Prop := s.cfg.FiguresFit ∧ s.store.config.both ConfigRegion.FiguresFit

/-- Between `s` and `t` the Dispatcher, the sequencers and the boilers' figures stay; the other figures, the stored copies
and the host link may change, within their laws. -/
structure Aside (s t : State) : Prop where
  dsp : t.dsp = s.dsp
  boilers : t.boilers = s.boilers
  figures : t.cfg.boilers = s.cfg.boilers
  fit : s.FiguresFit → t.FiguresFit
  link : s.LinkLegal → t.LinkLegal

/-- One act on the Dispatcher, the sequencers, the figures they rest on or the host link. -/
inductive UnitAct : State → State → Prop where
  /-- Whatever leaves them alone, or within their laws. -/
  | aside {s t : State} (h : Aside s t) : UnitAct s t
  /-- A sequencer set, its state kept, or with no firing before or after. -/
  | boiler (s : State) (b : Boiler) (q : Sequencer) (h : q.state = (s.boilers[b]).state ∨
      ((s.boilers[b]).Unfired ∧ q.Unfired ∧
        (q.state = .off ∨ (s.boilers[b]).state ≠ .off ∨ (s.cfg.boilers[b]).isSome))) : UnitAct s (s.setBoiler b q)
  /-- A boiler leaves its state for one that is no firing state, with the notice of R57; `old` is its sequencer before. -/
  | leave (s : State) (b : Boiler) (q old : Sequencer) (same : old.state = (s.boilers[b]).state) (idle : q.Unfired)
      (next : q.state = .off ∨ (s.boilers[b]).state ≠ .off) : UnitAct s ((s.setBoiler b q).leaveNotice b old)
  /-- A boiler that is not OFF enters FIRING (R41 ii). -/
  | fire (s : State) (b : Boiler) (f : Fuel) (active : (s.boilers[b]).state ≠ .off) : UnitAct s (s.enterFiring b f)
  /-- A setpoint frame queued (R58). -/
  | frame (s : State) (b : Boiler) (f : Option Fuel) (n : Nat) : UnitAct s (s.queueFrame b f n)
  /-- A setpoint frame sent (R58). -/
  | sent (s : State) : UnitAct s s.frameSent
  /-- The HH event (R53). -/
  | flare (s : State) : UnitAct s { s with dsp := { s.dsp with flareStages := 4 } }
  /-- The result of a cycle, worked out of the present figures, written (R41 i, R59). -/
  | cycle (s u : State) (g : GasFigures) (dsp : u.dsp = s.dsp) (boilers : u.boilers = s.boilers) (cfg : u.cfg = s.cfg) :
      UnitAct s (s.writeResult (u.cycleResult g))
  /-- The figures of a boiler that is OFF (R40). -/
  | figures (s : State) (b : Boiler) (c : BoilerConfig) (off : (s.boilers[b]).state = .off) (fit : c.minimum ≤ c.maximum) :
      UnitAct s { s with cfg := { s.cfg with boilers := s.cfg.boilers.set b (some c) } }
  /-- Every block at its start values (R177). -/
  | start (s : State) : UnitAct s s.atStart

/-- A run of acts. -/
abbrev UnitActs : State → State → Prop := Relation.ReflTransGen UnitAct

/-! ### Acts aside -/

theorem Aside.refl (s : State) : Aside s s := ⟨rfl, rfl, rfl, id, id⟩

theorem Aside.trans (h : Aside s t) (k : Aside t u) : Aside s u :=
  ⟨k.dsp.trans h.dsp, k.boilers.trans h.boilers, k.figures.trans h.figures, k.fit ∘ h.fit, k.link ∘ h.link⟩

theorem Aside.ite {c : Prop} [Decidable c] (h : Aside s t) (k : Aside s u) : Aside s (if c then t else u) := by
  split <;> assumption

theorem Aside.acts (h : Aside s t) : UnitActs s t := .single (.aside h)

/-- The law of the host link reads the slot, the refusal store and the transmitter alone. -/
theorem State.LinkLegal.congr (legal : s.LinkLegal) (slot : t.hlu.slot = s.hlu.slot)
    (refusal : t.hlu.refusal = s.hlu.refusal) (transmitter : t.hlu.transmitter = s.hlu.transmitter) : t.LinkLegal := by
  obtain ⟨held, stored⟩ := legal
  exact ⟨by rwa [slot, transmitter], by rwa [refusal, transmitter]⟩

/-- A change of other parts of the state. -/
theorem Aside.of_same (dsp : t.dsp = s.dsp := by rfl) (boilers : t.boilers = s.boilers := by rfl)
    (cfg : t.cfg = s.cfg := by rfl) (store : t.store = s.store := by rfl) (hlu : t.hlu = s.hlu := by rfl) : Aside s t :=
  ⟨dsp, boilers, by rw [cfg], by rw [State.FiguresFit, State.FiguresFit, cfg, store]; exact id,
    fun legal => legal.congr (by rw [hlu]) (by rw [hlu]) (by rw [hlu])⟩

/-- A frame without the Dispatcher, the sequencers, CONFIG, the store and the host link. -/
theorem ChangesOnly.aside {l : List Part} (h : ChangesOnly l s t)
    (away : ∀ p ∈ [Part.dsp, .boilers, .cfg, .store, .hlu], p ∉ l := by decide) : Aside s t :=
  .of_same (h .dsp (away _ (by simp))) (h .boilers (away _ (by simp))) (h .cfg (away _ (by simp)))
    (h .store (away _ (by simp))) (h .hlu (away _ (by simp)))

/-- New CONFIG contents with the same boilers and with figures within their ranges. -/
theorem State.config_aside {c : ConfigRegion} (boilers : c.boilers = s.cfg.boilers)
    (fit : s.cfg.FiguresFit → c.FiguresFit) : Aside s ({ s with cfg := c } : State).markConfig :=
  ⟨rfl, rfl, boilers, fun ⟨working, stored⟩ => ⟨fit working, stored⟩, fun legal => legal.congr rfl rfl rfl⟩

/-- A change of the link that keeps its law. -/
theorem State.setLink_aside {h : HostLink} (legal : s.LinkLegal → (s.setLink h).LinkLegal) : Aside s (s.setLink h) :=
  ⟨rfl, rfl, rfl, id, legal⟩

theorem State.choices_aside (n : Nat) : Aside s { s with choices := n } := (State.choices_changes n).aside

theorem State.tellRaise_aside (c : ConditionClass) (n : Nat) : Aside s (s.tellRaise c n) :=
  (State.tellRaise_changes c n).aside

theorem State.tellEnd_aside (c : ConditionClass) (n : Nat) : Aside s (s.tellEnd c n) := (State.tellEnd_changes c n).aside

theorem State.setPoint_aside (p : PointNo) (x : Point) : Aside s (s.setPoint p x) := (State.setPoint_changes p x).aside

theorem State.setChannel_aside (c : ChannelNo) (x : Channel) : Aside s (s.setChannel c x) :=
  (State.setChannel_changes c x).aside

theorem State.writeMarked_aside (s : State) : Aside s s.writeMarked := by
  refine ⟨rfl, rfl, rfl, fun ⟨working, stored⟩ => ⟨working, ?_⟩, fun legal => legal.congr rfl rfl rfl⟩
  rw [State.writeMarked_store]
  split
  · exact stored
  · dsimp only
    split
    · exact Retained.write_both _ _ stored working
    · exact stored

theorem State.endEvent_aside (s : State) : Aside s s.endEvent :=
  State.takeActs_changes.aside.trans (State.writeMarked_aside _)

theorem Served.record_aside (r : Served) : Aside r.2 r.record :=
  ⟨rfl, rfl, rfl, id, fun legal => legal.congr rfl rfl rfl⟩

/-! ### Runs of acts -/

theorem UnitActs.ite {c : Prop} [Decidable c] (h : UnitActs s t) (k : UnitActs s u) :
    UnitActs s (if c then t else u) := by split <;> assumption

theorem UnitActs.foldl {α : Type} {f : State → α → State} (act : ∀ t a, UnitActs t (f t a)) (l : List α) (s : State) :
    UnitActs s (l.foldl f s) := by
  induction l generalizing s with
  | nil => exact .refl
  | cons a l ih => exact (act s a).trans (ih _)

theorem State.inAnyOrder_unitActs {α : Type} {l : List α} {f : State → α → State}
    (act : ∀ t a, UnitActs t (f t a)) : UnitActs s (s.inAnyOrder l f) :=
  State.inAnyOrder_keeps (p := UnitActs s) .refl (fun n h => h.tail (.aside (State.choices_aside n)))
    fun t a _ h => h.trans (act t a)

/-! ### The sequencers (chapter 4) -/

/-- A sequencer set in its state. -/
theorem State.setBoiler_unitActs {q : Sequencer} (same : q.state = (s.boilers[b]).state) : UnitActs s (s.setBoiler b q) :=
  .single (.boiler s b q (.inl same))

theorem State.unfired_of_down (down : (s.boilers[b]).state = .tripped ∨ (s.boilers[b]).state = .lockedOut) :
    (s.boilers[b]).Unfired := by
  obtain state | state := down <;> exact ⟨by rw [state]; simp, by rw [state]; simp⟩

theorem State.controlledStop_unitActs (s : State) (b : Boiler) : UnitActs s (s.controlledStop b) := by
  rw [State.controlledStop_eq]
  exact .single (.leave s b _ _ rfl ⟨nofun, nofun⟩ (.inl rfl))

theorem State.trip_unitActs (active : (s.boilers[b]).state ≠ .off) (cause : TripCause) : UnitActs s (s.trip b cause) := by
  have left {q : Sequencer} (idle : q.Unfired) : UnitActs s (((s.setBoiler b q).leaveNotice b s.boilers[b]).raiseTrip b) :=
    .trans (.single (.leave s b q _ rfl idle (.inr active))) (State.raiseTrip_changes b).aside.acts
  unfold State.trip
  simp only [State.closePermits_eq, State.setBoiler_same, State.setBoiler_setBoiler]
  refine .ite ((left ?_).trans (State.tellRaise_aside _ _).acts) (left ?_) <;>
    exact ⟨by dsimp only; split <;> simp, by dsimp only; split <;> simp⟩

theorem State.enterPurge_unitActs (idle : (s.boilers[b]).Unfired) (f : Fuel) : UnitActs s (s.enterPurge b f) := by
  unfold State.enterPurge
  dsimp only
  split
  · exact .refl
  · next c conf => exact .single (.boiler s b _ (.inr ⟨idle, ⟨nofun, nofun⟩, .inr (.inr (by rw [conf]; rfl))⟩))

theorem State.release_unitActs (idle : (s.boilers[b]).Unfired) : UnitActs s (s.release b) :=
  .single (.boiler s b _ (.inr ⟨idle, ⟨nofun, nofun⟩, .inl rfl⟩))

theorem State.afterCause_unitActs (idle : (s.boilers[b]).Unfired) : UnitActs s (s.afterCause b) := by
  unfold State.afterCause
  split
  · split
    · exact State.release_unitActs idle
    · exact .ite (State.release_unitActs idle) (State.enterPurge_unitActs idle _)
  · exact .ite (State.release_unitActs idle) .refl

theorem State.clearMarker_unitActs (s : State) (b : Boiler) : UnitActs s (s.clearMarker b) :=
  .tail (.single (.boiler s b { s.boilers[b] with marker := false } (.inl rfl))) (.aside (State.tellEnd_aside _ _))

theorem State.evaluateCauses_unitActs (s : State) (b : Boiler) : UnitActs s (s.evaluateCauses b) := by
  unfold State.evaluateCauses
  dsimp only
  split
  case isFalse => exact .refl
  case isTrue down =>
    have idle : ((s.clearMarker b).boilers[b]).Unfired := by
      have cleared : (s.clearMarker b).boilers[b] = { s.boilers[b] with marker := false } := State.setBoiler_same _
      rw [cleared]
      exact State.unfired_of_down down
    split
    · exact .ite ((State.clearMarker_unitActs s b).trans (State.afterCause_unitActs idle)) (State.clearMarker_unitActs s b)
    · exact .tail (.single (.boiler s b { s.boilers[b] with marker := true } (.inl rfl)))
        (.aside (State.raiseTrip_changes b).aside)
    · exact .refl

/-- A changeover away from the fuel that is fired (R71). -/
theorem State.startChangeover_unitActs {old : Fuel} (firing : (s.boilers[b]).state = old.firing) :
    UnitActs s (s.startChangeover b old) := by
  cases conf : s.cfg.boilers[b] with
  | none =>
    have same : s.startChangeover b old = s.closePermits b := by
      simp only [State.startChangeover, State.closePermits_eq, State.setBoiler_cfg, conf]
    rw [same, State.closePermits_eq]
    exact State.setBoiler_unitActs rfl
  | some c =>
    obtain ⟨awaiting, confirm, dead, parts⟩ := (s.boilers[b]).changing_parts s.osc s.clock.reading c old.other
    have notice (v : State) : v.noticeFiringLeft b old = v.leaveNotice b s.boilers[b] := by
      rw [State.leaveNotice, firing]
      cases old <;> rfl
    rw [State.startChangeover_eq conf, notice, parts]
    exact .single (.leave s b _ _ rfl ⟨nofun, nofun⟩ (.inr (by rw [firing]; cases old <;> simp [Fuel.firing])))

theorem State.takeRequest_unitActs (s : State) (b : Boiler) (k : ShedKind) : UnitActs s (s.takeRequest b k) := by
  unfold State.takeRequest
  split
  case h_1 _ firing => exact .ite (State.startChangeover_unitActs (old := .gas) firing) (State.controlledStop_unitActs s b)
  case h_5 _ firing => exact State.startChangeover_unitActs (old := .aux) firing
  case h_6 => exact .refl
  all_goals exact State.controlledStop_unitActs s b

theorem State.statusArrival_unitActs (s : State) (b : Boiler) (i : Indications) : UnitActs s (s.statusArrival b i) := by
  unfold State.statusArrival
  dsimp only
  split
  case h_1 => exact .refl
  case h_2 | h_3 => exact State.evaluateCauses_unitActs s b
  all_goals
    next state =>
      have active : (s.boilers[b]).state ≠ .off := by rw [state]; simp
      have trips (cause : TripCause) : UnitActs s (s.trip b cause) := State.trip_unitActs active cause
      have fires (f : Fuel) : UnitActs s (s.enterFiring b f) := .single (.fire s b f active)
      have confirms : UnitActs s (s.confirmChangeover b) := State.setBoiler_unitActs rfl
      repeat' split
      all_goals first | exact trips _ | exact fires _ | exact confirms | exact .refl

theorem BoilerState.ne_off_of_active {x : BoilerState} (active : x.isActive = true) : x ≠ .off := by
  rintro rfl
  cases active

theorem State.statusFailed_unitActs (s : State) (b : Boiler) : UnitActs s (s.statusFailed b) := by
  unfold State.statusFailed
  split
  case isTrue active => exact State.trip_unitActs (BoilerState.ne_off_of_active active) _
  case isFalse => exact State.evaluateCauses_unitActs s b

theorem State.releaseLost_unitActs (s : State) (b : Boiler) : UnitActs s (s.releaseLost b) := by
  unfold State.releaseLost
  split
  case isTrue active => exact State.trip_unitActs (BoilerState.ne_off_of_active active) _
  case isFalse => exact State.evaluateCauses_unitActs s b

/-- The state of a sequencer whose permit opens. -/
theorem Sequencer.openPermit_state (q : Sequencer) (f : Fuel) : (q.openPermit f).state = q.state := by cases f <;> rfl

theorem State.purgeExpiry_unitActs (s : State) (b : Boiler) : UnitActs s (s.purgeExpiry b) := by
  unfold State.purgeExpiry
  dsimp only
  split
  case isFalse => exact .refl
  case isTrue due =>
    have purging := due.1
    have idle : (s.boilers[b]).Unfired := ⟨by rw [purging]; simp, by rw [purging]; simp⟩
    split
    · refine .tail (.single (.boiler s b _ (.inr ⟨idle, ?_, .inr (.inl (by rw [purging]; simp))⟩))) (.frame _ b _ _)
      exact ⟨by rw [Sequencer.openPermit_state]; simp, by rw [Sequencer.openPermit_state]; simp⟩
    · exact .refl

theorem State.deadExpiry_unitActs (s : State) (b : Boiler) : UnitActs s (s.deadExpiry b) := by
  unfold State.deadExpiry
  dsimp only
  refine .ite ?_ .refl
  split
  · refine .tail (.single (.boiler s b _ (.inl ?_))) (.frame _ b _ _)
    exact Sequencer.openPermit_state _ _
  · exact .refl

theorem State.lightOffExpiry_unitActs (s : State) (b : Boiler) : UnitActs s (s.lightOffExpiry b) := by
  unfold State.lightOffExpiry
  dsimp only
  split
  case isFalse => exact .refl
  case isTrue due =>
    refine State.trip_unitActs ?_ _
    obtain ⟨state | ⟨state, -⟩, -⟩ := due <;> rw [state] <;> simp

theorem State.confirmExpiry_unitActs (s : State) (b : Boiler) : UnitActs s (s.confirmExpiry b) := by
  unfold State.confirmExpiry
  dsimp only
  split
  case isFalse => exact .refl
  case isTrue due => exact State.trip_unitActs (by rw [due.1]; simp) _

theorem State.tripAgeing_unitActs (s : State) (b : Boiler) : UnitActs s (s.tripAgeing b) := by
  unfold State.tripAgeing
  dsimp only
  split
  · exact .ite (State.setBoiler_unitActs rfl) .refl
  · exact .refl

theorem State.releaseFall_unitActs (s : State) : UnitActs s s.releaseFall :=
  (State.tellRaise_aside _ _).acts.trans (State.inAnyOrder_unitActs State.releaseLost_unitActs)

theorem State.releaseRise_unitActs (s : State) : UnitActs s s.releaseRise :=
  (State.tellEnd_aside _ _).acts.trans (UnitActs.foldl State.evaluateCauses_unitActs _ _)

/-! ### The Dispatcher and the Gas Account's events (chapters 2 and 3) -/

theorem State.limitEvent_unitActs (s : State) (d : Detector) : UnitActs s (s.limitEvent d) := by
  cases d with
  | highHigh => exact .single (.flare s)
  | lowLow => exact State.inAnyOrder_unitActs fun t b => State.takeRequest_unitActs t b _

theorem State.filterExpiry_unitActs (s : State) (d : Detector) : UnitActs s (s.filterExpiry d) := by
  unfold State.filterExpiry
  dsimp only
  refine .ite ?_ .refl
  split
  · exact ((State.gas_changes _).append (State.tellRaise_changes _ _)).aside.acts.trans (State.limitEvent_unitActs _ d)
  · exact ((State.gas_changes _).append (State.tellEnd_changes _ _)).aside.acts
  · exact .refl

theorem State.cycleFrame_unitActs (s : State) (b : Boiler) : UnitActs s (s.cycleFrame b) := by
  have queued (f : Option Fuel) (n : Nat) : UnitActs s (s.queueFrame b f n) := .single (.frame s b f n)
  unfold State.cycleFrame
  dsimp only
  split
  case h_4 => exact .ite (queued _ _) .refl
  all_goals first | exact queued _ _ | exact .refl

theorem State.deliver_unitActs (s : State) (r : SentRequest) : UnitActs s (s.deliver r) := by
  cases r with
  | nothing => exact .refl
  | one k b => exact State.takeRequest_unitActs s b k
  | shedAll l => exact State.inAnyOrder_unitActs fun t b => State.takeRequest_unitActs t b _

/-- What the cycle does before it writes its result: the sources' flags and the conditions (R25, R52). -/
theorem State.cycleTold_changes (f : ResultFlags) : ChangesOnly [.gas, .marks] s (s.figuresRequest.cycleConditions f) :=
  State.figuresRequest_changes.trans ((State.cycleConditions_changes f).mono (by decide))

theorem State.dispatchCycle_unitActs (s : State) : UnitActs s s.dispatchCycle := by
  have told := State.cycleTold_changes (s := s) (s.cycleResult s.gasFigures).flags
  unfold State.dispatchCycle
  dsimp only
  refine told.aside.acts.trans (.trans (.single (.cycle _ s s.gasFigures (told .dsp (by decide)).symm
    (told .boilers (by decide)).symm (told .cfg (by decide)).symm)) ?_)
  exact (State.integrateExport_changes _ _ _).aside.acts.trans
    ((UnitActs.foldl State.cycleFrame_unitActs _ _).trans (State.deliver_unitActs _ _))

theorem State.dispatchExpiry_unitActs (s : State) : UnitActs s s.dispatchExpiry := .ite s.dispatchCycle_unitActs .refl

/-! ### Points and channels (chapter 1) -/

theorem State.failedEvent_unitActs (s : State) (r : Role) : UnitActs s (s.failedEvent r) := by
  cases r with
  | sourceFlow n | sourceCv n => exact (Aside.ite (State.findUnmeasured_changes n).aside (.refl _)).acts
  | holderLevel => exact (State.gas_changes _).aside.acts
  | boilerStatus b => exact State.statusFailed_unitActs s b
  | exportMeter => exact State.exportFailed_changes.aside.acts
  | heatMeter k => exact (Aside.ite (State.enterEstimating_changes k).aside (.refl _)).acts
  | worksFlow | networkCv | turbineStatus => exact .refl

theorem State.restoredEvent_unitActs (s : State) (r : Role) : UnitActs s (s.restoredEvent r) := by
  cases r with
  | sourceFlow n | sourceCv n => exact (Aside.ite (State.clearUnmeasured_changes n).aside (.refl _)).acts
  | boilerStatus b => exact State.evaluateCauses_unitActs s b
  | holderLevel | exportMeter | heatMeter _ | worksFlow | networkCv | turbineStatus => exact .refl

theorem State.arrival_unitActs (s : State) (r : Role) (value : Quantity) (time : Nat) :
    UnitActs s (s.arrival r value time) := by
  unfold State.arrival
  split
  · exact (State.levelArrival_changes _).aside.acts
  · exact State.statusArrival_unitActs _ _ _
  · exact (State.exportArrival_changes _).aside.acts
  · exact (State.heatArrival_changes _ _ _ _).aside.acts
  · exact .refl

theorem State.serve_unitActs (s : State) (p : PointNo) (c : PointConfig) (rank : Rank) (ch : ChannelNo) :
    UnitActs s (s.serve p c rank ch) := by
  unfold State.serve
  dsimp only
  split
  · exact .refl
  · exact (((State.setPoint_aside p _).trans (.ite (.refl _) (State.tellEnd_aside _ _))).acts.trans
      (UnitActs.ite (State.restoredEvent_unitActs _ _) .refl)).trans (State.arrival_unitActs _ _ _ _)

theorem State.failPoint_unitActs (s : State) (p : PointNo) (c : PointConfig) : UnitActs s (s.failPoint p c) :=
  ((State.setPoint_aside p _).trans (State.tellRaise_aside _ _)).acts.trans (State.failedEvent_unitActs _ _)

theorem State.loseSources_unitActs (s : State) (p : PointNo) (c : PointConfig) : UnitActs s (s.loseSources p c) :=
  .ite (State.setPoint_aside p _).acts (s.failPoint_unitActs p c)

theorem State.reselect_unitActs (s : State) (p : PointNo) : UnitActs s (s.reselect p) := by
  unfold State.reselect
  dsimp only
  split
  · exact .refl
  · split
    · exact .ite .refl (State.serve_unitActs _ _ _ _ _)
    · exact .ite (State.loseSources_unitActs _ _ _) .refl

theorem State.reselectAll_unitActs (s : State) (ch : ChannelNo) : UnitActs s (s.reselectAll ch) :=
  State.inAnyOrder_unitActs State.reselect_unitActs

theorem State.refresh_unitActs (ch : ChannelNo) (s : State) (p : PointNo) : UnitActs s (s.refresh ch p) := by
  unfold State.refresh
  split
  · exact .refl
  · split
    · exact .ite (State.serve_unitActs _ _ _ _ _) .refl
    · exact .refl

theorem State.holdExpiry_unitActs (s : State) (p : PointNo) : UnitActs s (s.holdExpiry p) := by
  unfold State.holdExpiry
  split
  · exact .refl
  · exact .ite (State.failPoint_unitActs _ _ _) .refl

theorem State.sampleArrival_unitActs (s : State) (ch : ChannelNo) (x : Sample) : UnitActs s (s.sampleArrival ch x) := by
  have put {t : State} (c : Channel) : Aside t (t.setChannel ch c) := State.setChannel_aside ch c
  unfold State.sampleArrival
  split
  · unfold State.goodArrival State.storeSample
    dsimp only
    refine .ite ((put _).acts.trans (State.inAnyOrder_unitActs (State.refresh_unitActs ch)))
      (.ite ((put _).trans (put _)).acts ?_)
    exact (((put _).trans (put _)).trans (State.tellEnd_aside _ _)).acts.trans (State.reselectAll_unitActs _ ch)
  · unfold State.suspectArrival State.storeSample
    dsimp only
    exact .ite ((put _).trans (put _)).acts (((put _).trans (put _)).acts.trans (State.reselectAll_unitActs _ ch))

theorem State.silenceExpire_unitActs (s : State) (ch : ChannelNo) : UnitActs s (s.silenceExpire ch) := by
  have put {t : State} (c : Channel) : Aside t (t.setChannel ch c) := State.setChannel_aside ch c
  unfold State.silenceExpire
  dsimp only
  exact .ite ((((put _).trans (put _)).trans (State.tellRaise_aside _ _)).acts.trans (State.reselectAll_unitActs _ ch))
    (put _).acts

theorem State.takeFrame_unitActs (s : State) (channel kind : Byte) (body : List Byte) (check : Byte) :
    UnitActs s (s.takeFrame channel kind body check) := by
  unfold State.takeFrame
  split
  · exact .ite (State.sampleArrival_unitActs _ _ _) .refl
  · exact .refl

theorem State.setLine_aside (l : FieldLineNo) (x : FieldLine) : Aside s (s.setLine l x) := (State.setLine_changes l x).aside

theorem State.fieldFrame_unitActs (s : State) (l : FieldLineNo) (channel kind : Byte) (body : List Byte) (check : Byte) :
    UnitActs s (s.fieldFrame l channel kind body check) :=
  (State.setLine_aside l _).acts.trans (State.takeFrame_unitActs _ _ _ _ _)

theorem State.fieldByte_unitActs (s : State) (l : FieldLineNo) (byte : Byte) (stop : Bool) :
    UnitActs s (s.fieldByte l byte stop) := by
  have line (x : FieldLine) : UnitActs s (s.setLine l x) := (State.setLine_aside l x).acts
  unfold State.fieldByte
  refine .ite (line _) ?_
  split
  · exact .ite (line _) .refl
  · exact line _
  · exact .ite (line _) (line _)
  · exact .ite (line _) (State.fieldFrame_unitActs _ _ _ _ _ _)

end Sys2Proof.Machine
end

section
/-! SUPPORT. The requests and the events of the link, the clock and the restart as runs of acts on the Dispatcher, the
boilers, the figures they rest on and the host link; every command as such a run; with O7 and O9. -/

namespace Sys2Proof.Machine

-- The stacks of threads for every theorem of this section at once would pass the memory limit.
set_option Elab.async false

variable {s t u : State} {b : Boiler}

/-! ### Configure Channel and Configure Point (R3, R11) -/

theorem configureChannelOwner_unitActs (n k : Byte) (l : Half) : UnitActs s (configureChannelOwner n k l s).2 := by
  have put {t : State} (ch : ChannelNo) (x : ChannelConfig) : Aside t (t.putChannelConfig ch x) :=
    State.config_aside rfl fun fit => fit
  unfold configureChannelOwner
  split
  case h_2 => exact .refl
  case h_1 ch k _ _ =>
    dsimp only
    split
    · exact .refl
    split
    · exact .refl
    split
    · split
      · exact (((put _ _).trans (State.setChannel_aside _ _)).trans (State.tellEnd_aside _ _)).acts
      · exact .refl
    · refine (put ch { kind := k, silence := l.toNat }).acts.trans ?_
      exact UnitActs.ite (State.silenceExpire_unitActs _ _) .refl

theorem State.putPointConfig_aside (p : PointNo) (c : Option PointConfig) : Aside s (s.putPointConfig p c) :=
  State.config_aside rfl fun fit => fit

theorem State.reconfigure_unitActs (s : State) (p : PointNo) (c : PointConfig) : UnitActs s (s.reconfigure p c) := by
  refine (State.putPointConfig_aside p (some c)).acts.trans ?_
  unfold State.reconfigure
  dsimp only
  split
  · exact State.serve_unitActs _ _ _ _ _
  · split
    · exact State.loseSources_unitActs _ _ _
    · exact UnitActs.ite (State.failPoint_unitActs _ _ _) (State.setPoint_aside _ _).acts
    · exact (State.setPoint_aside _ _).acts
    · exact .refl
    · exact .refl

theorem State.replacePoint_unitActs (s : State) (p : PointNo) (old c : Option PointConfig) (x : Point) :
    UnitActs s (s.replacePoint p old c x) := by
  refine (((State.putPointConfig_aside p c).trans (State.setPoint_aside p x)).acts.trans ?_).trans
    (State.tellEnd_aside .pointFailed (pointNumber p)).acts
  cases old with
  | none => exact .refl
  | some o => exact UnitActs.ite (State.failedEvent_unitActs _ _) .refl

theorem State.configurePoint_unitActs (s : State) (p : PointNo) (c : Option PointConfig) :
    UnitActs s (s.configurePoint p c) := by
  unfold State.configurePoint
  split
  · exact .ite (State.reconfigure_unitActs _ _ _)
      ((State.replacePoint_unitActs _ _ _ _ _).trans (State.reselect_unitActs _ _))
  · exact (State.replacePoint_unitActs _ _ _ _ _).trans (State.reselect_unitActs _ _)
  · exact State.replacePoint_unitActs _ _ _ _ _

theorem configurePointOwner_unitActs (v : Byte) (f : RawPoint) : UnitActs s (configurePointOwner v f s).2 := by
  unfold configurePointOwner
  split
  · exact .refl
  · split
    · exact .refl
    · split
      · exact .refl
      · exact State.configurePoint_unitActs _ _ _

/-! ### Requests to the Gas Account, the Dispatcher and the boilers (chapters 2 to 4) -/

theorem State.setSource_aside (n : GasSource) (x : SourceSetting) : Aside s (s.setSource n x) :=
  State.config_aside rfl fun fit => fit

theorem configureSourceOwner_aside (n d : Byte) : Aside s (configureSourceOwner n d s).2 := by
  unfold configureSourceOwner
  split
  · split
    · exact State.setSource_aside _ _
    · exact .refl s
    · exact .refl s
    · exact (State.setSource_aside _ _).trans (State.clearUnmeasured_changes _).aside
  · exact .refl s

theorem setSourceServiceOwner_aside (n v : Byte) : Aside s (setSourceServiceOwner n v s).2 := by
  unfold setSourceServiceOwner
  split
  · split
    · exact .refl s
    · exact .refl s
    · exact .refl s
    · exact (State.setSource_aside _ _).trans (State.clearUnmeasured_changes _).aside
    · exact (State.setSource_aside _ _).trans (.ite (.refl _) (State.findUnmeasured_changes _).aside)
  · exact .refl s

theorem configureHolderOwner_aside (f : RawHolder) : Aside s (configureHolderOwner f s).2 := by
  unfold configureHolderOwner
  dsimp only
  split
  · exact .refl s
  · split
    · refine Aside.trans (State.config_aside ?_ ?_) (State.reevaluate_changes (s := State.markConfig _)).aside
      · rfl
      · exact fun fit => fit
    · exact .refl s

theorem selectHolderLimitsOwner_aside (v : Byte) : Aside s (selectHolderLimitsOwner v s).2 := by
  unfold selectHolderLimitsOwner
  split
  · exact .refl s
  · split
    · exact .refl s
    · refine Aside.trans (State.config_aside ?_ ?_) (State.reevaluate_changes (s := State.markConfig _)).aside
      · rfl
      · exact fun fit => fit

theorem setPlantParametersOwner_unitActs (f : RawPlant) : UnitActs s (setPlantParametersOwner f s).2 := by
  unfold setPlantParametersOwner
  split
  · exact .refl
  · refine .trans (Aside.acts (State.config_aside ?_ ?_)) (State.dispatchExpiry_unitActs (State.markConfig _))
    · rfl
    · exact fun fit => fit

/-- A merit list that is taken names no boiler twice (R39). -/
theorem setMeritListOwner_aside (l : List Byte) : Aside s (setMeritListOwner l s).2 := by
  unfold setMeritListOwner
  split
  · exact .refl s
  · split
    case isTrue fits => exact State.config_aside rfl fun ⟨_, length, range⟩ => ⟨fits.2, length, range⟩
    case isFalse => exact .refl s

/-- The figures that Configure Boiler takes have m at most M (R40). -/
theorem readBoilerFigures_fit {f : RawBoiler} {c : BoilerConfig} (h : readBoilerFigures f = some c) :
    c.minimum ≤ c.maximum := by
  obtain ⟨⟨-, ⟨ordered, -⟩, -⟩, same⟩ := Option.ite_none_right_eq_some.mp ((readBoilerFigures_eq f).symm.trans h)
  cases same
  exact ordered

theorem configureBoilerOwner_unitActs (f : RawBoiler) : UnitActs s (configureBoilerOwner f s).2 := by
  unfold configureBoilerOwner
  split
  case h_2 => exact .refl
  case h_1 b c _ figures =>
    dsimp only
    split
    case isTrue => exact .refl
    case isFalse off =>
      have state : (s.boilers[b]).state = .off := not_not.mp off
      refine .tail (.tail (.single (.figures s b c state (readBoilerFigures_fit figures))) (.boiler _ b _ (.inl ?_)))
        (.aside (State.markConfig_changes (s := State.setBoiler _ _ _)).aside)
      rfl

theorem forBoiler_unitActs {v : Byte} {f : Boiler → Served} (h : ∀ b, UnitActs s (f b).2) :
    UnitActs s (forBoiler s v f).2 := by
  unfold forBoiler
  split
  · exact .refl
  · exact h _

theorem State.startBoiler_unitActs (s : State) (b : Boiler) (f : Fuel) : UnitActs s (s.startBoiler b f).2 := by
  unfold State.startBoiler
  split
  · exact .refl
  split
  · exact .refl
  · next off =>
      have state : (s.boilers[b]).state = .off := not_not.mp off
      have purge : UnitActs s (done (s.enterPurge b f)).2 :=
        State.enterPurge_unitActs ⟨by rw [state]; simp, by rw [state]; simp⟩ f
      repeat' split
      all_goals first | exact purge | exact .refl

theorem stopOwner_unitActs (v : Byte) : UnitActs s (stopOwner v s).2 :=
  forBoiler_unitActs fun b => by
    dsimp only
    split
    · exact State.controlledStop_unitActs s b
    · split
      · exact .single (.boiler s b { s.boilers[b] with run := none } (.inl rfl))
      · exact .refl

theorem changeoverOwner_unitActs (v : Byte) : UnitActs s (changeoverOwner v s).2 :=
  forBoiler_unitActs fun b => by
    split
    · split
      · next firing _ => exact State.startChangeover_unitActs (old := .gas) firing
      · exact .refl
    · next firing => exact State.startChangeover_unitActs (old := .aux) firing
    · exact .refl

theorem resetLockoutOwner_unitActs (v : Byte) : UnitActs s (resetLockoutOwner v s).2 :=
  forBoiler_unitActs fun b => by
    dsimp only
    split
    · exact .refl
    · next locked =>
        have down : (s.boilers[b]).state = .lockedOut := not_not.mp locked
        split
        · exact .refl
        · have cleared : UnitActs s (s.setBoiler b { s.boilers[b] with history := [], state := .off, run := none }) :=
            .single (.boiler s b _ (.inr ⟨State.unfired_of_down (.inr down), ⟨nofun, nofun⟩, .inl rfl⟩))
          exact (cleared.trans (State.tellEnd_aside _ _).acts).trans (UnitActs.ite (State.clearMarker_unitActs _ b) .refl)

/-! ### Requests to the Export Schedule Unit (chapters 5 and 6) -/

/-- An interval that a contract is read with has a length (R88). -/
theorem readContract_length {limit : Word} {length lead : Byte} {c : Contract}
    (h : readContract limit length lead = some c) : 0 < c.length := by
  rw [readContract_eq] at h
  split at h
  case isTrue fits =>
    cases h
    obtain ⟨-, length, -⟩ := fits
    dsimp only at length ⊢
    omega
  case isFalse => cases h

theorem State.takeContract_aside {c : Contract} (length : 0 < c.length) : Aside s (s.takeContract c) := by
  have put : Aside s
      (if c = s.cfg.contract then s else ({ s with cfg := { s.cfg with contract := c } } : State).markConfig) :=
    .ite (.refl s) (State.config_aside rfl fun ⟨merit, _, range⟩ => ⟨merit, length, range⟩)
  unfold State.takeContract
  exact ((put.trans State.publishLimit_changes.aside).trans (.ite (State.esu_changes _).aside (.refl _))).trans
    State.reckonMissing_changes.aside

theorem setExportContractOwner_aside (l : Word) (n g : Byte) : Aside s (setExportContractOwner l n g s).2 := by
  unfold setExportContractOwner
  split
  · exact .refl s
  · next read =>
      split
      · exact .refl s
      · exact State.takeContract_aside (readContract_length read)

theorem submitNominationOwner_changes (t e : Word) : ChangesOnly [.que, .marks] s (submitNominationOwner t e s).2 := by
  have put (l : List Nomination) : ChangesOnly [.que, .marks] s (done (s.setNominations l)).2 := State.setQueues_changes _
  unfold submitNominationOwner
  dsimp only
  repeat' split
  all_goals first | exact put _ | exact .refl _ s

theorem withdrawNominationOwner_changes (t : Word) : ChangesOnly [.que, .marks] s (withdrawNominationOwner t s).2 := by
  have put (l : List Nomination) : ChangesOnly [.que, .marks] s (done (s.setNominations l)).2 := State.setQueues_changes _
  unfold withdrawNominationOwner
  dsimp only
  repeat' split
  all_goals first | exact put _ | exact .refl _ s

theorem submitCurtailmentOwner_changes (r : Word) (k : Byte) (l t e : Word) :
    ChangesOnly [.que, .esu, .marks] s (submitCurtailmentOwner r k l t e s).2 := by
  unfold submitCurtailmentOwner
  split
  · exact .refl _ s
  · dsimp only
    split
    · exact .refl _ s
    · split
      · exact .refl _ s
      · split
        · exact .refl _ s
        · exact State.enterOrder_changes _ _

theorem cancelCurtailmentOwner_changes (r : Word) :
    ChangesOnly [.que, .esu, .marks] s (cancelCurtailmentOwner r s).2 := by
  unfold cancelCurtailmentOwner
  split
  · exact .refl _ s
  · exact State.removeOrder_changes _

theorem releaseSettlementOwner_changes (n : Word) : ChangesOnly [.que, .marks] s (releaseSettlementOwner n s).2 := by
  unfold releaseSettlementOwner
  split
  · exact .refl _ s
  · split
    · exact (State.que_changes _).append State.markQueues_changes
    · exact .refl _ s

/-! ### Requests to the Heat Metering Unit and the Billing Unit (chapters 7 and 8) -/

theorem configureSubstationOwner_aside (k : Byte) (a : Word) (g : Byte) (m e : Word) :
    Aside s (configureSubstationOwner k a g m e s).2 := by
  unfold configureSubstationOwner
  split
  · dsimp only
    split
    · exact State.config_aside rfl fun fit => fit
    · split
      · exact .refl s
      · exact State.config_aside rfl fun fit => fit
  · exact .refl s

theorem forSubstation_changes {l : List Part} {v : Byte} {f : Substation → Served} (h : ∀ k, ChangesOnly l s (f k).2) :
    ChangesOnly l s (forSubstation s v f).2 := by
  unfold forSubstation
  split
  · exact .refl _ s
  · split
    · exact .refl _ s
    · exact h _

theorem forDispute_changes {v : Byte} {f : Substation → MeterMark → State}
    (h : ∀ k m, ChangesOnly [.acc, .marks] s (f k m)) : ChangesOnly [.acc, .marks] s (forDispute s v f).2 := by
  unfold forDispute
  split
  · exact .refl _ s
  · split
    · exact .refl _ s
    · exact (h _ _).trans ((State.tellEnd_changes _ _).mono (by decide))

theorem connectOwner_changes (k : Byte) : ChangesOnly [.acc, .marks] s (connectOwner k s).2 :=
  forSubstation_changes fun k => by
    dsimp only
    split
    · split
      · exact .refl _ s
      · exact State.putMeter_changes _ _
    · exact .refl _ s
    · exact .refl _ s
    · exact .refl _ s

theorem disconnectOwner_changes (k : Byte) : ChangesOnly [.acc, .hmu, .marks] s (disconnectOwner k s).2 :=
  forSubstation_changes fun k => by
    have put (m : SubstationAccount) : ChangesOnly [.acc, .hmu, .marks] s ((s.setLastRate k 0).putMeter k m) :=
      ((State.setLastRate_changes _ _).append (State.putMeter_changes _ _)).mono (by decide)
    dsimp only
    split
    · exact .refl _ s
    · split
      · exact .refl _ s
      · exact put _
      · exact put _
      · exact (put _).trans ((State.tellEnd_changes _ _).mono (by decide))

theorem acceptOwner_changes (k : Byte) : ChangesOnly [.acc, .marks] s (acceptOwner k s).2 :=
  forDispute_changes fun _ _ =>
    (State.putMeter_changes _ _).trans (.ite (State.enter_changes _ _ _) (State.book_changes _ _))

theorem rejectOwner_changes (k : Byte) : ChangesOnly [.acc, .marks] s (rejectOwner k s).2 :=
  forDispute_changes fun _ _ => ((State.putMeter_changes _ _).append (State.setLedger_changes _ _)).mono (by decide)

theorem setHolidaysOwner_aside (m : Byte) (l : List RawDate) : Aside s (setHolidaysOwner m l s).2 := by
  unfold setHolidaysOwner
  dsimp only
  split
  · exact State.config_aside rfl fun fit => fit
  · exact .refl s

theorem stageTariffOwner_aside (x : RawTariff) : Aside s (stageTariffOwner x s).2 := by
  unfold stageTariffOwner
  split
  · exact .refl s
  · exact State.config_aside rfl fun fit => fit

theorem cancelStagedTariffOwner_aside : Aside s (cancelStagedTariffOwner s).2 := by
  unfold cancelStagedTariffOwner
  split
  · exact .refl s
  · exact State.config_aside rfl fun fit => fit

/-! ### Closes of billing periods, which bring CONFIG figures into force (R146) -/

theorem State.closePeriods_aside (n : Nat) (finish : Int) : Aside s (s.closePeriods n finish) := by
  unfold State.closePeriods
  dsimp only
  split <;> exact ⟨rfl, rfl, rfl, fun fit => fit, fun legal => legal.congr rfl rfl rfl⟩

theorem State.closeWith_aside (n : Nat) (finish : Int) : Aside s (s.closeWith n finish) :=
  ((State.closePeriods_aside n finish).trans (State.issueBills_changes 48).aside).trans
    State.evaluateQueueFull_changes.aside

theorem State.scheduledClose_aside : Aside s s.scheduledClose := by
  unfold State.scheduledClose
  split
  · exact .refl s
  · split
    · exact .refl s
    · exact State.closeWith_aside _ _

theorem State.reckonCloses_aside : Aside s s.reckonCloses :=
  .ite (State.scheduledClose_aside.trans State.scheduledClose_aside) (.refl s)

theorem closePeriodNowOwner_aside : Aside s (closePeriodNowOwner s).2 := by
  unfold closePeriodNowOwner
  split
  · exact .refl s
  · exact State.closeWith_aside _ _

theorem releaseBillOwner_changes (n : Word) :
    ChangesOnly [.acc, .que, .bu, .choices, .marks] s (releaseBillOwner n s).2 := by
  unfold releaseBillOwner
  split
  · exact .refl _ s
  · split
    · exact (((State.que_changes _).append State.markQueues_changes).mono (by decide)).trans (State.issueBills_changes 48)
    · exact .refl _ s

/-! ### Requests to the Condition Table and the clock (chapters 9 and 11) -/

theorem fetchConditionOwner_changes : ChangesOnly [.conditions] s (fetchConditionOwner s).2 := by
  unfold fetchConditionOwner
  split
  · exact .refl _ s
  · exact State.fetchEntry_changes _

theorem State.entryCleared_unitActs (s : State) (k : ConditionKey) : UnitActs s (s.entryCleared k) := by
  unfold State.entryCleared
  split
  · split
    · split
      case isTrue tripped => exact State.release_unitActs (State.unfired_of_down (.inl tripped.1))
      case isFalse => exact .refl
    · exact .refl
  · exact .refl

theorem clearConditionOwner_unitActs (c n : Byte) : UnitActs s (clearConditionOwner c n s).2 := by
  unfold clearConditionOwner
  split
  · exact .refl
  · split
    · exact .refl
    · dsimp only
      split
      · split
        · exact .refl
        · exact (State.removeEntry_changes _).aside.acts.trans (State.entryCleared_unitActs _ _)
      · exact .refl

theorem setFaultMaskOwner_aside (m : Word) : Aside s (setFaultMaskOwner m s).2 := by
  unfold setFaultMaskOwner
  split
  · exact State.config_aside rfl fun fit => fit
  · exact .refl s

theorem setLatchModeOwner_aside (c m : Byte) : Aside s (setLatchModeOwner c m s).2 := by
  unfold setLatchModeOwner
  split
  · split
    · exact State.config_aside rfl fun fit => fit
    · exact .refl s
  · exact .refl s

theorem setTimeOwner_aside (v : Word) : Aside s (setTimeOwner v s).2 := by
  have moved : Aside s (s.putReading v.toNat) := .of_same
  have told {t : State} : Aside t (t.tellReport .timeStep 1) := (State.tellReport_changes _ _).aside
  unfold setTimeOwner
  dsimp only
  split
  · exact .refl s
  · split
    · exact ((moved.trans told).trans State.scheduleStart_changes.aside).trans
        .of_same
    · split
      · exact .refl s
      · exact ((moved.trans (.ite (.refl _) told)).trans (State.scheduleStep_changes _).aside).trans State.reckonCloses_aside

theorem setLocalOffsetOwner_aside (m : Half) : Aside s (setLocalOffsetOwner m s).2 := by
  have moved : Aside s { s with clock := { s.clock with offset := m.toInt } } :=
    .of_same
  unfold setLocalOffsetOwner
  dsimp only
  split
  · exact .refl s
  · split
    · exact .refl s
    · exact moved.trans (.ite (State.scheduleOffset_changes.aside.trans State.reckonCloses_aside) (.refl _))

theorem factoryClearOwner_aside : Aside s (factoryClearOwner s).2 := by
  unfold factoryClearOwner
  split
  · exact .refl s
  · exact ⟨rfl, rfl, rfl, fun ⟨working, _⟩ => ⟨working, ConfigRegion.default_figuresFit, ConfigRegion.default_figuresFit⟩,
      fun legal => legal.congr rfl rfl rfl⟩

/-- Every request is a run of acts. -/
theorem owner_unitActs {i : Instr} {f : State → Served} (h : owner i = some f) : UnitActs s (f s).2 := by
  by_cases read : footprint i = [.hlu]
  · rw [owner_state_of_read h read]
  cases i with
  | setTime v => cases h; exact (setTimeOwner_aside v).acts
  | setLocalOffset m => cases h; exact (setLocalOffsetOwner_aside m).acts
  | setHolidays m l => cases h; exact (setHolidaysOwner_aside m l).acts
  | factoryClear => cases h; exact factoryClearOwner_aside.acts
  | configureChannel n k l => cases h; exact configureChannelOwner_unitActs n k l
  | configurePoint v g => cases h; exact configurePointOwner_unitActs v g
  | configureSource n d => cases h; exact (configureSourceOwner_aside n d).acts
  | setSourceService n v => cases h; exact (setSourceServiceOwner_aside n v).acts
  | configureHolder f => cases h; exact (configureHolderOwner_aside f).acts
  | selectHolderLimits v => cases h; exact (selectHolderLimitsOwner_aside v).acts
  | setPlantParameters f => cases h; exact setPlantParametersOwner_unitActs f
  | setMeritList l => cases h; exact (setMeritListOwner_aside l).acts
  | configureBoiler f => cases h; exact configureBoilerOwner_unitActs f
  | startGas b | startAux b => cases h; exact forBoiler_unitActs fun b => State.startBoiler_unitActs s b _
  | stop b => cases h; exact stopOwner_unitActs b
  | changeover b => cases h; exact changeoverOwner_unitActs b
  | resetLockout b => cases h; exact resetLockoutOwner_unitActs b
  | setExportContract l n g => cases h; exact (setExportContractOwner_aside l n g).acts
  | submitNomination t e => cases h; exact (submitNominationOwner_changes t e).aside.acts
  | withdrawNomination t => cases h; exact (withdrawNominationOwner_changes t).aside.acts
  | submitCurtailment r k l t e => cases h; exact (submitCurtailmentOwner_changes r k l t e).aside.acts
  | cancelCurtailment r => cases h; exact (cancelCurtailmentOwner_changes r).aside.acts
  | releaseSettlementRecord n => cases h; exact (releaseSettlementOwner_changes n).aside.acts
  | configureSubstation k a g m e => cases h; exact (configureSubstationOwner_aside k a g m e).acts
  | connect k => cases h; exact (connectOwner_changes k).aside.acts
  | disconnect k => cases h; exact (disconnectOwner_changes k).aside.acts
  | accept k => cases h; exact (acceptOwner_changes k).aside.acts
  | reject k => cases h; exact (rejectOwner_changes k).aside.acts
  | stageTariff x => cases h; exact (stageTariffOwner_aside x).acts
  | cancelStagedTariff => cases h; exact cancelStagedTariffOwner_aside.acts
  | closePeriodNow => cases h; exact closePeriodNowOwner_aside.acts
  | releaseBill n => cases h; exact (releaseBillOwner_changes n).aside.acts
  | fetchCondition => cases h; exact fetchConditionOwner_changes.aside.acts
  | clearCondition c n => cases h; exact clearConditionOwner_unitActs c n
  | setFaultMask m => cases h; exact (setFaultMaskOwner_aside m).acts
  | setLatchMode c m => cases h; exact (setLatchModeOwner_aside c m).acts
  | _ => first | exact absurd rfl read | cases h

/-! ### The restart (R177) -/

/-- The store may change where its CONFIG copies stay within the ranges. -/
theorem State.store_aside {x : Store} (fit : s.FiguresFit → x.config.both ConfigRegion.FiguresFit) :
    Aside s { s with store := x } :=
  ⟨rfl, rfl, rfl, fun figures => ⟨figures.1, fit figures⟩, fun legal => legal.congr rfl rfl rfl⟩

theorem Store.damage_fit {x : Store} (d : Region × CopyName) (fit : x.config.both ConfigRegion.FiguresFit) :
    (x.damage d).config.both ConfigRegion.FiguresFit := by
  obtain ⟨r, c⟩ := d
  cases r with
  | config => exact Retained.damage_both _ c fit
  | accounts | queues => exact fit

theorem Store.damages_fit (l : List (Region × CopyName)) {x : Store} (fit : x.config.both ConfigRegion.FiguresFit) :
    (l.foldl Store.damage x).config.both ConfigRegion.FiguresFit := by
  induction l generalizing x with
  | nil => exact fit
  | cons d l ih => exact ih (Store.damage_fit d fit)

theorem Store.cut_fit {x : Store} (w : Option Region) (fit : x.config.both ConfigRegion.FiguresFit) :
    (x.cut w).config.both ConfigRegion.FiguresFit := by
  cases w with
  | none => exact fit
  | some r =>
    cases r with
    | config => exact Retained.spoil_both _ fit
    | accounts | queues => exact fit

theorem State.billingRestart_aside : Aside s s.billingRestart := by
  have opened : Aside s s.openAccounts :=
    .ite (.refl s) .of_same
  exact ((opened.trans State.reckonCloses_aside).trans (State.issueBills_changes 48).aside).trans
    State.evaluateQueueFull_changes.aside

theorem State.started_unitActs (s : State) (found : StoreFinding) : UnitActs s (s.started found) := by
  have clock : Aside s (s.foundClock found) :=
    .ite .of_same (.refl s)
  have stored (a : AccountsRegion) : Aside (s.foundClock found)
      { s.foundClock found with store := (s.foundStore found).checked .default a .default } := by
    have store : (s.foundClock found).store = s.store := by unfold State.foundClock; split <;> rfl
    refine State.store_aside fun fit => Retained.checked_both _ _ (Store.damages_fit _ ?_) ConfigRegion.default_figuresFit
    rw [← store]
    exact fit.2
  exact .tail (clock.trans (stored _)).acts (.start _)

theorem State.restart_unitActs (s : State) (found : StoreFinding) : UnitActs s (s.restart found) := by
  have reported : Aside (s.started found) (s.rescheduled found) :=
    (State.tellRestart_changes _).aside.trans State.scheduleRestart_changes.aside
  have metered : Aside (s.rebilled found) (s.remetered found) :=
    ((State.metersRestart_changes _).append State.tellHeat_changes).aside
  rw [State.restart_eq]
  exact (State.started_unitActs s found).trans
    (((reported.trans State.billingRestart_aside).trans metered).trans (State.endEvent_aside _)).acts

theorem State.powerOn_unitActs (s : State) (found : StoreFinding) : UnitActs s (s.powerOn found) := by
  have powered : Aside s { s with powered := true } := .of_same
  exact .ite .refl (.ite (.tail powered.acts (.start _)) (powered.acts.trans (State.restart_unitActs _ found)))

theorem State.assertReset_unitActs (s : State) : UnitActs s s.assertReset := by
  have held : Aside s { s with resetHeld := true } := .of_same
  exact .ite (.tail held.acts (.start _)) held.acts

theorem State.releaseReset_unitActs (s : State) (found : StoreFinding) : UnitActs s (s.releaseReset found) := by
  have released : Aside s { s with resetHeld := false } :=
    .of_same
  exact .ite (.ite (released.acts.trans (State.restart_unitActs _ found)) released.acts) .refl

theorem State.powerFail_unitActs (s : State) (w : Option Region) : UnitActs s (s.powerFail w) := by
  have dark : Aside s { s with powered := false, store := s.store.cut w } :=
    ⟨rfl, rfl, rfl, fun fit => ⟨fit.1, Store.cut_fit w fit.2⟩, fun legal => legal.congr rfl rfl rfl⟩
  exact .ite (.tail dark.acts (.start _)) .refl

/-! ### The host link (chapter 10) -/

theorem State.setAssembler_aside (a : Assembler) : Aside s (s.setAssembler a) :=
  State.setLink_aside fun legal => legal.congr rfl rfl rfl

theorem State.abandonFrame_aside : Aside s s.abandonFrame :=
  .trans (State.setLink_aside (h := { s.hlu with assembler := .hunt false, linkError := true })
    fun legal => legal.congr rfl rfl rfl) (State.tellRaise_aside _ _)

theorem State.greetFrame_aside : Aside s s.greetFrame := by
  have greeted : Aside s (s.setLink { s.hlu with assembler := .hunt false, linkError := false, restarted := false }) :=
    State.setLink_aside fun legal => legal.congr rfl rfl rfl
  exact .ite (greeted.trans (State.endCause_changes _ _).aside) greeted

theorem handleRequest_unitActs (kind : Byte) (payload : List Byte) : UnitActs s (handleRequest kind payload s).2 := by
  unfold handleRequest
  split
  · exact .refl
  · split
    case h_1 f h => exact owner_unitActs h
    case h_2 => exact .refl

/-- A request is held in the slot while its reply is sent, and a refused one while the earlier reply is (R165). -/
theorem State.validFrame_unitActs (s : State) (kind tag : Byte) (payload : List Byte) :
    UnitActs s (s.validFrame kind tag payload) := by
  refine State.greetFrame_aside.acts.trans ?_
  unfold State.validFrame
  dsimp only
  split
  · refine ((handleRequest_unitActs kind payload).trans (Served.record_aside _).acts).trans
      (State.takeActs_changes.aside.trans (State.setLink_aside fun _ => ?_)).acts
    exact ⟨fun _ => rfl, fun _ => rfl⟩
  · next occupied =>
      split
      · refine (State.setLink_aside fun ⟨held, _⟩ => ⟨held, fun _ => ?_⟩).acts
        dsimp only [State.setLink]
        by_contra idle
        have transmitter : s.greetFrame.hlu.transmitter = none := Option.not_isSome_iff_eq_none.mp idle
        refine occupied ⟨Option.not_isSome_iff_eq_none.mp fun slot => idle (held slot), transmitter⟩
      · exact .refl

theorem State.linkByte_unitActs (s : State) (b : Byte) (stop : Bool) : UnitActs s (s.linkByte b stop) := by
  have abandoned : UnitActs s s.abandonFrame := State.abandonFrame_aside.acts
  have moved (a : Assembler) : UnitActs s (s.setAssembler a) := (State.setAssembler_aside a).acts
  have header (taken : List Byte) : UnitActs s (s.headerByte taken b) := by
    unfold State.headerByte
    split
    · exact .ite abandoned (moved _)
    · exact moved _
    · exact moved _
  have assembled : UnitActs s (s.assemble b) := by
    unfold State.assemble
    split
    · exact .ite (moved _) (moved _)
    · exact header _
    · exact moved _
    · exact moved _
    · exact .ite (State.validFrame_unitActs _ _ _ _) abandoned
  exact .ite assembled (.ite abandoned (moved _))

theorem State.linkGap_aside : Aside s s.linkGap := .ite State.abandonFrame_aside (State.setAssembler_aside _)

theorem State.replyEnds_aside : Aside s s.replyEnds := by
  unfold State.replyEnds
  split
  case h_1 => exact .refl s
  case h_2 _ none => exact State.setLink_aside fun _ => ⟨nofun, fun stored => by simp [State.setLink, none] at stored⟩
  case h_3 => exact State.setLink_aside fun _ => ⟨nofun, nofun⟩

theorem State.replySent_unitActs (s : State) : UnitActs s s.replySent :=
  .ite (State.restart_unitActs s nothingLost) State.replyEnds_aside.acts

/-! ### The clock (R172) -/

theorem State.noteMinute_changes : ChangesOnly [.hmu] s s.noteMinute := .ite (State.hmu_changes _) (.refl _ s)

/-- A second that passes, with a new state of the clock. -/
theorem State.clock_aside (c : Clock) : Aside s ({ s.secondPasses with clock := c } : State).noteMinute := by
  have passed : Aside s { s.secondPasses with clock := c } :=
    .of_same
  exact passed.trans State.noteMinute_changes.aside

theorem State.wrapSecond_aside : Aside s s.wrapSecond := by
  have passed :
      Aside s ({ s.secondPasses with clock := { s.clock with reading := 0, valid := false } } : State).noteMinute :=
    State.clock_aside _
  exact .ite (((passed.trans (State.tellReport_changes _ _).aside).trans State.scheduleWrap_changes.aside).trans
    (State.endEvent_aside _)) passed

theorem State.clockSecond_aside : Aside s s.clockSecond :=
  .ite (State.clock_aside _) State.wrapSecond_aside

/-! ### Every command -/

theorem duringOperation_unitActs {f : State → State} (h : duringOperation s f = .next t) (acts : UnitActs s (f s)) :
    UnitActs s t := by
  rw [duringOperation_next] at h
  cases h
  exact .ite (.tail acts (.aside (State.endEvent_aside _))) .refl

theorem exec_unitActs {i : Instr} (h : exec i s = .next t) : UnitActs s t := by
  have event {f : State → State} (run : duringOperation s f = .next t) (acts : UnitActs s (f s)) : UnitActs s t :=
    duringOperation_unitActs run acts
  cases served : owner i with
  | some f =>
    rw [exec_of_owner served] at h
    exact event h ((owner_unitActs served).tail (.aside (Served.record_aside _)))
  | none =>
  cases i with
  | powerOn found => cases h; exact s.powerOn_unitActs found
  | resetAsserted => cases h; exact s.assertReset_unitActs
  | resetReleased found => cases h; exact s.releaseReset_unitActs found
  | powerFailure w => cases h; exact s.powerFail_unitActs w
  | clockWrap => cases h; exact (Aside.ite (.refl s) State.wrapSecond_aside).acts
  | calendarClockSecond => cases h; exact State.clockSecond_aside.acts
  | plantReleaseFall =>
    simp only [exec, execPlantReleaseFall] at h
    have moved : Aside s { s with plantRelease := false } := .of_same
    split at h
    · exact moved.acts.trans (duringOperation_unitActs h (State.releaseFall_unitActs _))
    · cases h; exact .refl
  | plantReleaseRise =>
    simp only [exec, execPlantReleaseRise] at h
    have moved : Aside s { s with plantRelease := true } := .of_same
    split at h
    · cases h; exact .refl
    · exact moved.acts.trans (duringOperation_unitActs h (State.releaseRise_unitActs _))
  | fieldSampleFrame l c k b x => exact event (f := (·.fieldFrame l c k b x)) h (State.fieldFrame_unitActs _ _ _ _ _ _)
  | fieldFrameGapExpiry l => exact event (f := (·.setLine l .hunting)) h (State.setLine_aside _ _).acts
  | fieldLineByteReceived l b stop => exact event (f := (·.fieldByte l b stop)) h (State.fieldByte_unitActs _ _ _ _)
  | silenceExpiry ch => exact event (f := (·.silenceExpiry ch)) h (UnitActs.ite (State.silenceExpire_unitActs _ _) .refl)
  | holdExpiry p => exact event (f := (·.holdExpiry p)) h (State.holdExpiry_unitActs _ _)
  | waitingTimerExpiry p =>
    exact event (f := (·.waitingExpiry p)) h
      (UnitActs.ite ((State.setPoint_aside _ _).trans (State.tellRaise_aside _ _)).acts .refl)
  | filterExpiry d => exact event (f := (·.filterExpiry d)) h (State.filterExpiry_unitActs _ _)
  | dispatchExpiry => exact event h s.dispatchExpiry_unitActs
  | setpointFrameSent => exact event h (.single (.sent s))
  | purgeExpiry b => exact event (f := (·.purgeExpiry b)) h (State.purgeExpiry_unitActs _ _)
  | lightOffExpiry b => exact event (f := (·.lightOffExpiry b)) h (State.lightOffExpiry_unitActs _ _)
  | confirmExpiry b => exact event (f := (·.confirmExpiry b)) h (State.confirmExpiry_unitActs _ _)
  | deadExpiry b => exact event (f := (·.deadExpiry b)) h (State.deadExpiry_unitActs _ _)
  | tripHistoryAgeingExpiry b => exact event (f := (·.tripAgeing b)) h (State.tripAgeing_unitActs _ _)
  | boundaryExpiry => exact event h (Aside.ite State.takeBoundary_changes.aside (.refl _)).acts
  | gateExpiry => exact event h (Aside.ite State.reckonMissing_changes.aside (.refl _)).acts
  | emergencyStart n => exact event h (Aside.ite (State.emergencyStart_changes n).aside (.refl _)).acts
  | ordinaryStart n => exact event h (Aside.ite (State.ordinaryStart_changes n).aside (.refl _)).acts
  | activeOrderEnd =>
    refine event h (Aside.acts ?_)
    unfold State.activeOrderEnd
    split
    · exact .refl s
    · exact .ite (State.removeActive_changes _).aside (.refl s)
  | inactiveOrderEnd n =>
    exact event h (Aside.ite ((State.setOrder_changes n none).append State.markQueues_changes).aside (.refl _)).acts
  | meterWaitExpiry => exact event h (Aside.ite (State.endWait_changes none).aside (.refl _)).acts
  | estimationMinute => exact event h State.estimationMinute_changes.aside.acts
  | startUpWatchExpiry => exact event h State.startUpWatchExpiry_changes.aside.acts
  | closeExpiry => exact event h State.reckonCloses_aside.acts
  | hostFrameValid k g x => exact event (f := (·.validFrame k g x)) h (State.validFrame_unitActs _ _ _ _)
  | frameAbandoned => exact event h State.abandonFrame_aside.acts
  | hostGapExpiry => exact event h State.linkGap_aside.acts
  | replySent => exact event h s.replySent_unitActs
  | hostLinkByteReceived b stop => exact event (f := (·.linkByte b stop)) h (State.linkByte_unitActs _ _ _)
  | _ => cases served

/-- Every step is a run of acts. -/
theorem step_unitActs (h : step s = .next t) : UnitActs s t := by
  unfold step at h
  split at h
  case h_1 => cases h; exact .refl
  case h_2 rest _ =>
    have taken : Aside s { s with pending := rest } := .of_same
    exact taken.acts.trans (exec_unitActs h)

/-- A law that every act keeps is kept by every step. -/
theorem step_keeps_of_unitAct {p : State → Prop} (keeps : ∀ s t, UnitAct s t → p s → p t) {s t : State} (legal : p s)
    (h : step s = .next t) : p t := by
  have acts := step_unitActs h
  clear h
  induction acts with
  | refl => exact legal
  | tail _ act ih => exact keeps _ _ act ih

end Sys2Proof.Machine
end

section
/-! SUPPORT. The laws of the allocations, the flare, the setpoint line and the host link, kept by every act; settles O7 and
O9. -/

namespace Sys2Proof.Machine

-- The stacks of threads for every theorem of this section at once would pass the memory limit.
set_option Elab.async false

variable {s t u : State} {b : Boiler} {c : BoilerConfig} {g : GasFigures}

/-! ### The figures of R39, R40 and R88 -/

theorem State.FiguresFit.congr (fit : s.FiguresFit) (cfg : t.cfg = s.cfg) (store : t.store = s.store) : t.FiguresFit := by
  rw [State.FiguresFit, cfg, store]
  exact fit

theorem ChangesOnly.figuresFit {l : List Part} (h : ChangesOnly l s t) (fit : s.FiguresFit)
    (cfg : .cfg ∉ l := by decide) (store : .store ∉ l := by decide) : t.FiguresFit :=
  fit.congr (h .cfg cfg) (h .store store)

/-- The figures of one boiler, m at most M, among figures within their ranges (R40). -/
theorem ConfigRegion.set_figuresFit {x : ConfigRegion} (fit : x.FiguresFit) (ordered : c.minimum ≤ c.maximum) :
    ({ x with boilers := x.boilers.set b (some c) } : ConfigRegion).FiguresFit := by
  obtain ⟨merit, length, range⟩ := fit
  refine ⟨merit, length, fun a y conf => ?_⟩
  by_cases own : a = b
  · subst own
    have same : y = c := by simpa using conf.symm
    rw [same]
    exact ordered
  · have ne : b.val ≠ a.val := fun e => own (Fin.ext e.symm)
    exact range a y (by simpa [ne] using conf)

theorem UnitAct.figuresFit (h : UnitAct s t) (fit : s.FiguresFit) : t.FiguresFit := by
  cases h with
  | aside h => exact h.fit fit
  | boiler b q => exact (State.setBoiler_changes b q).figuresFit fit
  | leave b q old => exact ((State.setBoiler_changes b q).append (State.leaveNotice_changes b old)).figuresFit fit
  | fire b f => exact (State.enterFiring_changes b f).figuresFit fit
  | frame b f n => exact (State.queueFrame_changes b f n).figuresFit fit
  | sent => exact State.frameSent_changes.figuresFit fit
  | flare => exact (State.dsp_changes _).figuresFit fit
  | cycle u g => exact (State.dsp_changes _).figuresFit fit
  | figures b c off ordered => exact ⟨ConfigRegion.set_figuresFit fit.1 ordered, fit.2⟩
  | start => exact ⟨Retained.contents_law _ _ fit.2 ConfigRegion.default_figuresFit, fit.2⟩

/-! ### The law of allocations, boiler by boiler (R41) -/

/-- What R41 asks of one boiler: its figures, its state and its allocation. -/
structure AllocationFits (conf : Option BoilerConfig) (x : BoilerState) (a : Allocation) : Prop where
  configured : x ≠ .off → conf.isSome
  onGas : ∀ c ∈ conf, x = .firingGas → c.minimum ≤ a.gas ∧ a.gas ≤ c.maximum ∧ a.aux = 0
  onAux : ∀ c ∈ conf, x = .firingAux → c.minimum ≤ a.aux ∧ a.aux ≤ c.maximum ∧ a.gas = 0
  none : x ≠ .firingGas → x ≠ .firingAux → a.gas = 0 ∧ a.aux = 0

/-- A boiler's part in the law of allocations. -/
abbrev State.AllocationAt (s : State) (b : Boiler) : Prop :=
  AllocationFits s.cfg.boilers[b] (s.boilers[b]).state s.dsp.allocations[b]

theorem State.allocationsLegal_iff : s.AllocationsLegal ↔ s.FiguresFit ∧ ∀ b, s.AllocationAt b :=
  ⟨fun ⟨fits, configured, onGas, onAux, idle⟩ => ⟨fits, fun b => ⟨configured b, onGas b, onAux b, idle b⟩⟩,
    fun ⟨fits, all⟩ => ⟨fits, fun b => (all b).configured, fun b => (all b).onGas, fun b => (all b).onAux,
      fun b => (all b).none⟩⟩

theorem State.AllocationAt.congr (at_ : s.AllocationAt b) (figures : t.cfg.boilers = s.cfg.boilers)
    (boilers : t.boilers = s.boilers) (table : t.dsp.allocations = s.dsp.allocations) : t.AllocationAt b := by
  rw [State.AllocationAt, figures, boilers, table]
  exact at_

/-- A boiler that fires nothing, with no allocation. -/
theorem AllocationFits.of_unfired {conf : Option BoilerConfig} {x : BoilerState} {a : Allocation}
    (idle : x ≠ .firingGas ∧ x ≠ .firingAux) (configured : x ≠ .off → conf.isSome) (zero : a.gas = 0 ∧ a.aux = 0) :
    AllocationFits conf x a :=
  ⟨configured, fun _ _ state => absurd state idle.1, fun _ _ state => absurd state idle.2, fun _ _ => zero⟩

/-- An allocation without the fuel that is fired is none at all. -/
theorem AllocationFits.without {conf : Option BoilerConfig} {a : Allocation} {f : Fuel}
    (fits : AllocationFits conf f.firing a) : (a.without f).gas = 0 ∧ (a.without f).aux = 0 := by
  cases f with
  | gas =>
    obtain ⟨c, conf⟩ := Option.isSome_iff_exists.mp (fits.configured nofun)
    exact ⟨rfl, (fits.onGas c conf rfl).2.2⟩
  | aux =>
    obtain ⟨c, conf⟩ := Option.isSome_iff_exists.mp (fits.configured nofun)
    exact ⟨(fits.onAux c conf rfl).2.2, rfl⟩

theorem State.setBoiler_boiler_ne {a : Boiler} (ne : a ≠ b) (q : Sequencer) :
    (s.setBoiler b q).boilers[a] = s.boilers[a] := by
  have : b.val ≠ a.val := fun e => ne (Fin.ext e.symm)
  simp [this]

/-- A sequencer set in its state, or with no firing before or after. -/
theorem State.AllocationAt.setBoiler {a : Boiler} {q : Sequencer} (fits : s.AllocationAt a)
    (h : q.state = (s.boilers[b]).state ∨ ((s.boilers[b]).Unfired ∧ q.Unfired ∧
      (q.state = .off ∨ (s.boilers[b]).state ≠ .off ∨ (s.cfg.boilers[b]).isSome))) : (s.setBoiler b q).AllocationAt a := by
  by_cases own : a = b
  · subst own
    rw [State.AllocationAt, State.setBoiler_same]
    obtain same | ⟨⟨gas, aux⟩, idle, next⟩ := h
    · rw [same]
      exact fits
    · refine .of_unfired idle (fun on => ?_) (fits.none gas aux)
      obtain off | active | conf := next
      · exact absurd off on
      · exact fits.configured active
      · exact conf
  · rw [State.AllocationAt, State.setBoiler_boiler_ne own]
    exact fits

/-- The notice of a boiler that leaves its state leaves it no allocation. -/
theorem State.leaveNotice_zero {old : Sequencer}
    (fits : AllocationFits s.cfg.boilers[b] old.state s.dsp.allocations[b]) :
    ((s.leaveNotice b old).dsp.allocations[b]).gas = 0 ∧ ((s.leaveNotice b old).dsp.allocations[b]).aux = 0 := by
  rw [State.leaveNotice_allocations]
  cases state : old.state with
  | firingGas =>
    rw [state] at fits
    simpa using AllocationFits.without (f := .gas) fits
  | firingAux =>
    rw [state] at fits
    simpa using AllocationFits.without (f := .aux) fits
  | off | purge | lighting | changeover | tripped | lockedOut =>
    rw [state] at fits
    exact fits.none nofun nofun

theorem State.AllocationAt.leave {a : Boiler} {q old : Sequencer} (fits : s.AllocationAt a)
    (same : old.state = (s.boilers[b]).state) (idle : q.Unfired) (next : q.state = .off ∨ (s.boilers[b]).state ≠ .off) :
    ((s.setBoiler b q).leaveNotice b old).AllocationAt a := by
  have kept := State.leaveNotice_changes (s := s.setBoiler b q) b old
  have cfg : ((s.setBoiler b q).leaveNotice b old).cfg = s.cfg := kept .cfg (by decide)
  have boilers : ((s.setBoiler b q).leaveNotice b old).boilers = (s.setBoiler b q).boilers := kept .boilers (by decide)
  rw [State.AllocationAt, cfg, boilers]
  by_cases own : a = b
  · subst own
    rw [State.setBoiler_same]
    refine .of_unfired idle (fun on => fits.configured (next.resolve_left on)) (State.leaveNotice_zero ?_)
    rw [same]
    exact fits
  · rw [State.setBoiler_boiler_ne own, State.leaveNotice_other own]
    exact fits

/-- FIRING is entered with the minimum of that fuel (R41 ii). -/
theorem State.AllocationAt.fire {a : Boiler} {f : Fuel} (fits : s.AllocationAt a) (figures : s.FiguresFit)
    (conf : s.cfg.boilers[b] = some c) : (s.enterFiring b f).AllocationAt a := by
  have ordered : c.minimum ≤ c.maximum := figures.1.2.2 b c conf
  have cfg : (s.enterFiring b f).cfg = s.cfg := State.enterFiring_changes b f .cfg (by decide)
  have boilers : (s.enterFiring b f).boilers = _ :=
    State.noticeFiringEntered_changes (s := s.setBoiler b { (s.boilers[b]).halted with run := some f, state := f.firing })
      b f .boilers (by decide)
  have table : (s.enterFiring b f).dsp.allocations = s.dsp.allocations.set b (.only f (s.minimumFiring b)) :=
    State.queueFrame_allocations _ _
  rw [State.AllocationAt, cfg, boilers, table]
  by_cases own : a = b
  · subst own
    have least : s.minimumFiring a = c.minimum := by rw [State.minimumFiring, conf, Option.elim_some]
    rw [State.setBoiler_same, conf, least]
    cases f <;> constructor <;> simp [Fuel.firing, Allocation.only, ordered]
  · have ne : b.val ≠ a.val := fun e => own (Fin.ext e.symm)
    have same (x : Allocation) : (s.dsp.allocations.set b x)[a] = s.dsp.allocations[a] := by simp [ne]
    rw [State.setBoiler_boiler_ne own, same]
    exact fits

/-! ### The allocations of a cycle (R47, R48) -/

/-- A new gas allocation lies from m to M (R45 i, R47). -/
theorem State.gas_range (nodup : s.cfg.merit.Nodup) (g : GasFigures) (conf : s.cfg.boilers[b] = some c)
    (ordered : c.minimum ≤ c.maximum) (present : (s.dsp.allocations[b]).gas ≤ c.maximum)
    (firing : (s.boilers[b]).state = .firingGas) :
    c.minimum ≤ ((s.cycleResult g).boilers[b]).gas ∧ ((s.cycleResult g).boilers[b]).gas ≤ c.maximum := by
  have floor := (State.floor_configured nodup g conf).1 firing
  cases short : (s.cycleResult g).flags.shortage with
  | true =>
    rw [(State.shortage_floors nodup short).2 b firing, Option.some_inj] at floor
    omega
  | false =>
    obtain ⟨before, after, split⟩ := List.append_of_mem (State.mem_gasFiring.mpr firing)
    have raised := State.gas_raised nodup short split conf
    have least : (s.cycleResult g).floorAt b = _ := congrArg (Option.getD · 0) floor
    rw [Option.getD_some] at least
    dsimp only at raised
    omega

/-- A new aux allocation lies from m to M (R48). -/
theorem State.aux_range (nodup : s.cfg.merit.Nodup) (g : GasFigures) (conf : s.cfg.boilers[b] = some c)
    (ordered : c.minimum ≤ c.maximum) (present : (s.dsp.allocations[b]).aux ≤ c.maximum)
    (firing : (s.boilers[b]).state = .firingAux) :
    c.minimum ≤ ((s.cycleResult g).boilers[b]).aux ∧ ((s.cycleResult g).boilers[b]).aux ≤ c.maximum := by
  have floor := (State.floor_configured nodup g conf).2 firing
  obtain ⟨before, after, split⟩ := List.append_of_mem (State.mem_auxFiring.mpr firing)
  obtain ⟨covered, uncovered⟩ := State.aux_raised nodup g split conf
  have least : (s.cycleResult g).floorAt b = _ := congrArg (Option.getD · 0) floor
  rw [Option.getD_some] at least
  obtain none | some := Nat.eq_zero_or_pos (s.heatAfter (s.cycleResult g) before)
  · have same := covered none
    omega
  · have raised := uncovered some
    generalize (s.heatAfter (s.cycleResult g) before * 1000 + c.yield - 1) / c.yield = need at raised
    omega

/-- The allocations that a cycle works out of a legal table are legal. -/
theorem State.AllocationAt.cycle (fits : s.AllocationAt b) (figures : s.cfg.FiguresFit) (g : GasFigures) :
    AllocationFits s.cfg.boilers[b] (s.boilers[b]).state
      { gas := ((s.cycleResult g).boilers[b]).gas, aux := ((s.cycleResult g).boilers[b]).aux,
        idle := ((s.cycleResult g).boilers[b]).idle } := by
  obtain ⟨nodup, -, range⟩ := figures
  obtain ⟨noGas, noAux⟩ := s.unallocated g b
  refine ⟨fits.configured, fun c conf firing => ?_, fun c conf firing => ?_, fun gas aux => ⟨noGas gas, noAux aux⟩⟩
  · obtain ⟨-, most, -⟩ := fits.onGas c conf firing
    obtain ⟨low, high⟩ := State.gas_range nodup g conf (range b c conf) most firing
    exact ⟨low, high, noAux (by rw [firing]; nofun)⟩
  · obtain ⟨-, most, -⟩ := fits.onAux c conf firing
    obtain ⟨low, high⟩ := State.aux_range nodup g conf (range b c conf) most firing
    exact ⟨low, high, noGas (by rw [firing]; nofun)⟩

/-- Every act keeps the law of allocations. -/
theorem UnitAct.allocationsLegal (s t : State) (h : UnitAct s t) (legal : s.AllocationsLegal) : t.AllocationsLegal := by
  obtain ⟨figures, all⟩ := State.allocationsLegal_iff.mp legal
  refine State.allocationsLegal_iff.mpr ⟨h.figuresFit figures, fun a => ?_⟩
  cases h with
  | aside h => exact (all a).congr h.figures h.boilers (congrArg (·.allocations) h.dsp)
  | boiler b q h => exact (all a).setBoiler h
  | leave b q old same idle next => exact (all a).leave same idle next
  | fire b f active =>
    obtain ⟨c, conf⟩ := Option.isSome_iff_exists.mp ((all b).configured active)
    exact (all a).fire figures conf
  | frame b f n =>
    have kept := State.queueFrame_changes (s := s) b f n
    exact (all a).congr (congrArg (·.boilers) (kept .cfg (by decide))) (kept .boilers (by decide))
      (State.queueFrame_allocations f n)
  | sent =>
    have kept := State.frameSent_changes (s := s)
    refine (all a).congr (congrArg (·.boilers) (kept .cfg (by decide))) (kept .boilers (by decide)) ?_
    unfold State.frameSent
    split <;> rfl
  | flare => exact all a
  | cycle u g dsp boilers cfg =>
    have before : u.AllocationAt a := (all a).congr (congrArg (·.boilers) cfg) boilers (congrArg (·.allocations) dsp)
    have fits := before.cycle (by rw [cfg]; exact figures.1) g
    rw [cfg, boilers] at fits
    simpa [State.AllocationAt, State.writeResult] using fits
  | figures b c off ordered =>
    by_cases own : a = b
    · subst own
      have idle : (s.boilers[a]).state ≠ .firingGas ∧ (s.boilers[a]).state ≠ .firingAux := by rw [off]; exact ⟨nofun, nofun⟩
      exact .of_unfired idle (fun on => absurd off on) ((all a).none idle.1 idle.2)
    · have ne : b.val ≠ a.val := fun e => own (Fin.ext e.symm)
      have same : (s.cfg.boilers.set b (some c))[a] = s.cfg.boilers[a] := by simp [ne]
      rw [State.AllocationAt]
      dsimp only
      rw [same]
      exact all a
  | start =>
    have off : (s.atStart.boilers[a]).state = .off := by simp [State.atStart, Sequencer.start]
    exact .of_unfired (by rw [off]; exact ⟨nofun, nofun⟩) (fun on => absurd off on)
      (by simp [State.atStart, Dispatcher.start, Allocation.zero])

/-- Settles O7: every step is a run of acts on the table, the boilers and their figures, and each keeps the law. -/
theorem allocationsLawKept : Obligations.AllocationsLawKept :=
  fun _ _ legal step => step_keeps_of_unitAct UnitAct.allocationsLegal legal step

/-! ### The laws of the flare and of the heat split (R49, R54) -/

theorem State.FlareLegal.congr (legal : s.FlareLegal) (stages : t.dsp.flareStages = s.dsp.flareStages)
    (fraction : t.dsp.fraction = s.dsp.fraction) (result : t.dsp.result = s.dsp.result) : t.FlareLegal := by
  obtain ⟨most, part, figures⟩ := legal
  exact ⟨by rwa [stages], by rwa [fraction], by rwa [result]⟩

theorem State.FlareLegal.queueFrame (legal : s.FlareLegal) (b : Boiler) (f : Option Fuel) (n : Nat) :
    (s.queueFrame b f n).FlareLegal := by
  unfold State.queueFrame
  dsimp only
  split <;> exact legal.congr rfl rfl rfl

theorem State.FlareLegal.noticeFiringLeft (legal : s.FlareLegal) (b : Boiler) (f : Fuel) :
    (s.noticeFiringLeft b f).FlareLegal :=
  State.FlareLegal.queueFrame (s := s.setAllocation b _) (legal.congr rfl rfl rfl) b none 0

/-- The notice of R57 is none, a frame, or that of a boiler that leaves FIRING. -/
theorem State.leaveNotice_keeps {p : State → Prop} (legal : p s) (queued : p (s.queueFrame b none 0))
    (left : ∀ f, p (s.noticeFiringLeft b f)) (q : Sequencer) : p (s.leaveNotice b q) := by
  unfold State.leaveNotice
  split
  · exact left .gas
  · exact left .aux
  · exact queued
  · split
    · exact queued
    · exact legal
  · exact legal

/-- The stages go to the demand or towards it, and stay within its bound (R54). -/
theorem flareMove_le (stages demand : Nat) : flareMove stages demand ≤ demand := by
  unfold flareMove
  split <;> omega

theorem flareDemand_le (g : GasFigures) (leftover stageSize : Nat) : flareDemand g leftover stageSize ≤ 4 := by
  unfold flareDemand
  split
  · exact Nat.le_refl 4
  · split
    · exact Nat.min_le_right _ _
    · exact Nat.zero_le 4

/-- The heat delivered is recovered or auxiliary, no more than is usable, and the recovered fraction is at most 1000
thousandths (R49). -/
theorem heatSplit_bounds (p : PlantParameters) (available : Bool) (usable gasSteam auxSteam : Nat) :
    let h := heatSplit p available usable gasSteam auxSteam
    h.fraction ≤ 1000 ∧ h.recovered + h.auxiliary = h.delivered ∧ h.delivered ≤ usable := by
  refine ⟨?_, Nat.add_sub_cancel' (Nat.min_le_left _ _), Nat.min_le_left _ _⟩
  unfold heatSplit
  dsimp only
  split
  · refine Nat.div_le_of_le_mul ?_
    exact Nat.mul_le_mul_right 1000 (Nat.min_le_left _ _)
  · exact Nat.le_refl 1000

/-- What R49 and R54 ask of a result, of every result that a cycle works out. -/
theorem State.cycleResult_bounds (s : State) (g : GasFigures) :
    let r := s.cycleResult g
    r.flareStages ≤ r.flareDemand ∧ r.flareDemand ≤ 4 ∧ r.heat.fraction ≤ 1000 ∧
      r.heat.recovered + r.heat.auxiliary = r.heat.delivered ∧ r.heat.delivered ≤ r.early.usable := by
  have heat : (s.cycleResult g).heat = heatSplit s.cfg.plant s.turbineAvailable (s.cycleResult g).early.usable
      (totalSteam (s.gasStaged g).1) (totalSteam (s.auxStaged g).1) := rfl
  dsimp only
  rw [heat]
  exact ⟨flareMove_le _ _, flareDemand_le _ _ _, heatSplit_bounds _ _ _ _ _⟩

/-- Every act keeps the laws of the flare and of the result. -/
theorem UnitAct.flareLegal (s t : State) (h : UnitAct s t) (legal : s.FlareLegal) : t.FlareLegal := by
  cases h with
  | aside h => exact legal.congr (by rw [h.dsp]) (by rw [h.dsp]) (by rw [h.dsp])
  | boiler b q => exact legal.congr rfl rfl rfl
  | leave b q old =>
    have put : (s.setBoiler b q).FlareLegal := legal.congr rfl rfl rfl
    exact State.leaveNotice_keeps put (put.queueFrame b none 0) (put.noticeFiringLeft b) old
  | fire b f =>
    exact State.FlareLegal.queueFrame (s := (s.setBoiler b _).setAllocation b _) (legal.congr rfl rfl rfl) b _ _
  | frame b f n => exact legal.queueFrame b f n
  | sent =>
    unfold State.frameSent
    split <;> exact legal.congr rfl rfl rfl
  | flare => exact ⟨Nat.le_refl 4, legal.fraction, legal.result⟩
  | cycle u g dsp =>
    obtain ⟨stages, demand, fraction, -⟩ := u.cycleResult_bounds g
    refine ⟨stages.trans demand, fraction, fun r own => ?_⟩
    obtain rfl : u.cycleResult g = r := Option.some.inj own
    exact u.cycleResult_bounds g
  | figures b c => exact legal.congr rfl rfl rfl
  | start => constructor <;> simp [State.atStart, Dispatcher.start]

/-! ### The law of the setpoint line (R58) -/

theorem State.SetpointsLegal.frameSent (legal : s.SetpointsLegal) : s.frameSent.SetpointsLegal := by
  obtain ⟨one, eight, busy⟩ := legal
  unfold State.frameSent
  split
  case h_1 => exact ⟨one, eight, busy⟩
  case h_2 waiting => exact .of_nodup one fun _ => waiting
  case h_3 waiting =>
    rw [waiting, List.map_cons, List.nodup_cons] at one
    exact .of_nodup one.2 nofun

/-- Every act keeps the law of the setpoint line. -/
theorem UnitAct.setpointsLegal (s t : State) (h : UnitAct s t) (legal : s.SetpointsLegal) : t.SetpointsLegal := by
  cases h with
  | aside h => exact legal.congr (by rw [h.dsp]) (by rw [h.dsp])
  | boiler b q => exact legal.congr rfl rfl
  | leave b q old =>
    have put : (s.setBoiler b q).SetpointsLegal := legal.congr rfl rfl
    exact State.leaveNotice_keeps put (put.queueFrame b none 0) (put.noticeFiringLeft b) old
  | fire b f =>
    exact State.SetpointsLegal.queueFrame (s := (s.setBoiler b _).setAllocation b _) (legal.congr rfl rfl) b _ _
  | frame b f n => exact legal.queueFrame b f n
  | sent => exact legal.frameSent
  | flare => exact legal.congr rfl rfl
  | cycle u g => exact legal.congr rfl rfl
  | figures b c => exact legal.congr rfl rfl
  | start => exact .of_nodup List.nodup_nil fun _ => rfl

/-! ### The law of the host link (R165) -/

theorem ChangesOnly.linkLegal {l : List Part} (h : ChangesOnly l s t) (legal : s.LinkLegal)
    (away : .hlu ∉ l := by decide) : t.LinkLegal := by
  have hlu : t.hlu = s.hlu := h .hlu away
  exact legal.congr (by rw [hlu]) (by rw [hlu]) (by rw [hlu])

/-- Every act keeps the law of the host link. -/
theorem UnitAct.linkLegal (s t : State) (h : UnitAct s t) (legal : s.LinkLegal) : t.LinkLegal := by
  cases h with
  | aside h => exact h.link legal
  | boiler b q => exact (State.setBoiler_changes b q).linkLegal legal
  | leave b q old => exact ((State.setBoiler_changes b q).append (State.leaveNotice_changes b old)).linkLegal legal
  | fire b f => exact (State.enterFiring_changes b f).linkLegal legal
  | frame b f n => exact (State.queueFrame_changes b f n).linkLegal legal
  | sent => exact State.frameSent_changes.linkLegal legal
  | flare => exact (State.dsp_changes _).linkLegal legal
  | cycle u g => exact (State.dsp_changes _).linkLegal legal
  | figures b c => exact legal.congr rfl rfl rfl
  | start => exact ⟨nofun, nofun⟩

/-- Settles O9: every step is a run of acts on the units, and each act keeps each law. -/
theorem unitLawsKept : Obligations.UnitLawsKept :=
  ⟨fun _ _ legal step => step_keeps_of_unitAct UnitAct.flareLegal legal step,
    fun _ _ legal step => step_keeps_of_unitAct UnitAct.setpointsLegal legal step,
    fun _ _ legal step => step_keeps_of_unitAct UnitAct.linkLegal legal step⟩

end Sys2Proof.Machine
end

section
/-! SUPPORT. What an event whose acts are raises and cause ends of different keys leaves of each key's entry, in whatever
order the table takes them (R154, R156). -/

namespace Sys2Proof.Machine

-- The stacks of threads for every theorem of this section at once would pass the memory limit.
set_option Elab.async false

variable {s t u : State} {k : ConditionKey} {i : Fin 128} {e : ConditionEntry} {m : LatchMode} {a : ConditionAct}

/-! ### One act, as its key's entry shows it -/

/-- An entry after the end of its cause, none where it is removed (R156). -/
def ConditionEntry.ended (e : ConditionEntry) (now : Nat) : Option ConditionEntry :=
  if e.state = .latched then some e
  else if e.key.cls = .meterJump then none
  else if e.latch = .selfClearing ∧ e.notified then none
  else some { e with state := .latched, lastChange := now }

/-- A key's entry after a raise of it that finds room (R154). -/
def entryRaised (k : ConditionKey) (m : LatchMode) (now : Nat) : Option ConditionEntry → ConditionEntry
  | some e => e.raisedAgain m now
  | none => newEntry k m now

/-- The key that an act raises, none for the end of a cause. -/
def ConditionAct.raised? : ConditionAct → Option ConditionKey
  | .raise k _ | .report k => some k
  | .endCause _ => none

/-- A raise or the end of a cause, of a key other than that of CONDITION_TABLE_FULL. -/
structure ConditionAct.Single (a : ConditionAct) : Prop where
  ordinary : a.key ≠ conditionTableFullKey
  single : ∀ k, a ≠ .report k

/-- Under the law of the table a key's entry is the one that holds the key. -/
theorem State.entryOf_iff (legal : s.ConditionsLegal) :
    s.entryOf k = some e ↔ e.key = k ∧ ∃ i : Fin 128, s.conditions[i] = some e :=
  ⟨fun h => ⟨(State.entryOf_eq_some h).1, (State.entryOf_eq_some h).2.elim fun i h => ⟨i, h.2⟩⟩,
    fun ⟨key, _, held⟩ => key ▸ State.entryOf_of_legal legal held⟩

theorem State.setPlace_same (x : Option ConditionEntry) : (s.setPlace i x).conditions[i] = x := by
  rw [State.setPlace_conditions, getElem_set_fin, if_pos rfl]

theorem State.setPlace_other {j : Fin 128} (ne : i ≠ j) (x : Option ConditionEntry) :
    (s.setPlace i x).conditions[j] = s.conditions[j] := by
  rw [State.setPlace_conditions, getElem_set_fin, if_neg ne.symm]

/-- A place written leaves the entries of the keys it neither held nor holds. -/
theorem State.entryOf_setPlace_other {x : Option ConditionEntry} (legal : s.ConditionsLegal)
    (after : (s.setPlace i x).ConditionsLegal) (old : ∀ e, s.conditions[i] = some e → e.key ≠ k)
    (new : ∀ e, x = some e → e.key ≠ k) : (s.setPlace i x).entryOf k = s.entryOf k := by
  refine Option.ext fun e => ?_
  rw [State.entryOf_iff after, State.entryOf_iff legal]
  refine and_congr_right fun key => exists_congr fun j => ?_
  by_cases own : i = j
  · subst own
    rw [State.setPlace_same]
    exact ⟨fun h => absurd key (new e h), fun h => absurd key (old e h)⟩
  · rw [State.setPlace_other own]

/-- An entry written over one of its key. -/
theorem State.entryOf_rewrite {f : ConditionEntry} (legal : s.ConditionsLegal) (held : s.conditions[i] = some e)
    (same : f.key = e.key) (low : 1 ≤ f.raises) (high : f.raises ≤ 255) (k : ConditionKey) :
    (s.setPlace i (some f)).entryOf k = if e.key = k then some f else s.entryOf k := by
  have after : (s.setPlace i (some f)).ConditionsLegal := legal.rewrite held same low high
  split
  case isTrue own => exact (State.entryOf_iff after).mpr ⟨same.trans own, i, State.setPlace_same _⟩
  case isFalse other =>
    refine State.entryOf_setPlace_other legal after (fun g hg => ?_) (fun g hg => ?_)
    · cases held.symm.trans hg
      exact other
    · cases hg
      rwa [same]

theorem State.entryOf_endTableFull (legal : s.ConditionsLegal) (ne : k ≠ conditionTableFullKey) :
    s.endTableFull.entryOf k = s.entryOf k := by
  unfold State.endTableFull
  split
  case h_2 => rfl
  case h_1 e held =>
    split
    · have full : e.key = conditionTableFullKey := (legal.place _ e held).mp rfl
      obtain ⟨low, high⟩ := legal.counted _ e held
      rw [State.entryOf_rewrite (f := { e with state := .latched, lastChange := s.clock.reading }) legal held rfl low high,
        if_neg (full.trans_ne ne.symm)]
    · rfl

/-- A removal takes the entry of its key, and leaves those of the others but CONDITION_TABLE_FULL. -/
theorem State.entryOf_removeEntry (legal : s.ConditionsLegal) (held : s.conditions[i] = some e)
    (ne : k ≠ conditionTableFullKey) : (s.removeEntry i).entryOf k = if e.key = k then none else s.entryOf k := by
  have cleared : (s.setPlace i none).entryOf k = if e.key = k then none else s.entryOf k := by
    split
    case isTrue own =>
      refine Option.eq_none_iff_forall_not_mem.mpr fun g hg => ?_
      obtain ⟨key, j, hj⟩ := (State.entryOf_iff (legal.clear i)).mp hg
      by_cases at_ : i = j
      · subst at_
        rw [State.setPlace_same] at hj
        cases hj
      · rw [State.setPlace_other at_] at hj
        exact at_ (legal.unique i j e held g hj (own.trans key.symm))
    case isFalse other =>
      refine State.entryOf_setPlace_other legal (legal.clear i) (fun g hg => ?_) nofun
      cases held.symm.trans hg
      exact other
  unfold State.removeEntry
  dsimp only
  split
  · rw [State.entryOf_endTableFull (legal.clear i) ne, cleared]
  · exact cleared

/-- The end of a cause, as its key's entry shows it, and no other. -/
theorem State.entryOf_endCause (legal : s.ConditionsLegal) (key : ConditionKey) (ne : k ≠ conditionTableFullKey) :
    (s.endCause key.cls key.source).entryOf k =
      if key = k then (s.entryOf k).bind (·.ended s.clock.reading) else s.entryOf k := by
  cases place : s.placeOf key with
  | none =>
    have same : s.endCause key.cls key.source = s := by simp only [State.endCause, place]
    rw [same]
    split
    case isTrue own => rw [← own, State.entryOf_eq_none.mpr place, Option.bind_none]
    case isFalse => rfl
  | some i =>
    obtain ⟨e, held, rfl⟩ := State.placeOf_eq_some place
    obtain ⟨low, high⟩ := legal.counted i e held
    have entry : e.key = k → s.entryOf k = some e := fun own => (State.entryOf_iff legal).mpr ⟨own, i, held⟩
    have after : (s.endCause e.key.cls e.key.source).entryOf k =
        if e.key = k then e.ended s.clock.reading else s.entryOf k := by
      simp only [State.endCause, place, held, ConditionEntry.ended]
      split
      · split
        case isTrue own => exact entry own
        case isFalse => rfl
      · split
        · exact State.entryOf_removeEntry legal held ne
        · split
          · exact State.entryOf_removeEntry legal held ne
          · exact State.entryOf_rewrite (f := { e with state := .latched, lastChange := s.clock.reading }) legal held rfl
              low high k
    rw [after]
    exact ite_congr rfl (fun own => by rw [entry own, Option.bind_some]) fun _ => rfl

/-- A raise that finds an entry or a free place, as its key's entry shows it, and no other. -/
theorem State.entryOf_raiseWith (legal : s.ConditionsLegal) (key : ConditionKey)
    (ordinary : key ≠ conditionTableFullKey) (room : s.HasRoom [key]) (m : LatchMode) (k : ConditionKey) :
    (s.raiseWith key m).entryOf k =
      if key = k then some (entryRaised key m s.clock.reading (s.entryOf k)) else s.entryOf k := by
  cases place : s.placeOf key with
  | some i =>
    obtain ⟨e, held, rfl⟩ := State.placeOf_eq_some place
    have raised : s.raiseWith e.key m = s.setPlace i (some (e.raisedAgain m s.clock.reading)) := by
      simp [State.raiseWith, place, held]
    rw [raised, State.entryOf_rewrite (f := e.raisedAgain m s.clock.reading) legal held rfl
      (by simp [ConditionEntry.raisedAgain]) (by simp [ConditionEntry.raisedAgain])]
    exact ite_congr rfl (fun own => by rw [(State.entryOf_iff legal).mpr ⟨own, i, held⟩]; rfl) fun _ => rfl
  | none =>
    obtain ⟨i, free⟩ := State.freePlace_of_room room place
    have raised : s.raiseWith key m = s.setPlace i (some (newEntry key m s.clock.reading)) := by
      simp [State.raiseWith, place, free]
    have after := legal.raiseWith ordinary m
    rw [raised] at after ⊢
    split
    case isTrue own =>
      rw [← own, State.entryOf_eq_none.mpr place]
      exact (State.entryOf_iff after).mpr ⟨rfl, i, State.setPlace_same _⟩
    case isFalse other =>
      refine State.entryOf_setPlace_other legal after (fun g hg => ?_) (fun g hg => ?_)
      · rw [(State.freePlace_eq_some free).2.1] at hg
        cases hg
      · cases hg
        exact other

/-- The act on a key's entry. -/
def ConditionAct.onEntry (now : Nat) : ConditionAct → Option ConditionEntry → Option ConditionEntry
  | .raise k m, o => some (entryRaised k m now o)
  | .endCause _, o => o.bind (·.ended now)
  | .report _, o => o

/-- Room for what an act raises. -/
abbrev State.HasRoomFor (s : State) (acts : List ConditionAct) : Prop := s.HasRoom (acts.filterMap ConditionAct.raised?)

/-- An act reaches the entry of its own key, by what that entry was. -/
theorem State.entryOf_takeAct (legal : s.ConditionsLegal) (single : a.Single) (room : s.HasRoomFor [a])
    (ne : k ≠ conditionTableFullKey) :
    (s.takeAct a).entryOf k = if a.key = k then a.onEntry s.clock.reading (s.entryOf k) else s.entryOf k := by
  cases a with
  | raise key m => exact State.entryOf_raiseWith legal key single.ordinary room m k
  | endCause key => exact State.entryOf_endCause legal key ne
  | report key => exact absurd rfl (single.single key)

/-! ### The room in the table -/

/-- The room that a list of keys needs does not grow with what is left out of it. -/
theorem State.HasRoom.subperm {l keys : List ConditionKey} (room : s.HasRoom keys) (sub : l.Subperm keys) : s.HasRoom l :=
  (sub.filter _).length_le.trans room

theorem State.freePlaces_le (h : ∀ j : Fin 128, j ≠ fullPlace → s.conditions[j] = none → t.conditions[j] = none) :
    s.freePlaces.length ≤ t.freePlaces.length := by
  rw [State.freePlaces, State.freePlaces, ← List.countP_eq_length_filter, ← List.countP_eq_length_filter]
  refine List.countP_mono_left fun j _ free => ?_
  simp only [Bool.and_eq_true, decide_eq_true_eq, Option.isNone_iff_eq_none] at free ⊢
  exact ⟨free.1, h j free.1 free.2⟩

/-- A free place taken is one fewer. -/
theorem State.freePlaces_taken (free : s.freePlace = some i) (e : ConditionEntry) :
    (s.setPlace i (some e)).freePlaces.length + 1 = s.freePlaces.length := by
  obtain ⟨ordinary, empty, -⟩ := State.freePlace_eq_some free
  have mem : i ∈ s.freePlaces :=
    List.mem_filter.mpr ⟨List.mem_finRange i, by rw [empty, decide_eq_true ordinary]; rfl⟩
  have taken : (s.setPlace i (some e)).freePlaces = s.freePlaces.erase i := by
    have nodup : s.freePlaces.Nodup := (List.nodup_finRange 128).filter _
    rw [nodup.erase_eq_filter i, State.freePlaces, State.freePlaces, List.filter_filter]
    refine List.filter_congr fun j _ => ?_
    by_cases own : j = i
    · subst own
      rw [State.setPlace_same]
      simp
    · rw [State.setPlace_other (Ne.symm own)]
      simp [own]
  rw [taken, List.length_erase_of_mem mem]
  have := List.length_pos_of_mem mem
  omega

/-- A place written over, or emptied, takes no room. -/
theorem State.freePlaces_setPlace (h : x = none ∨ s.conditions[i] = some e ∨ i = fullPlace) :
    s.freePlaces.length ≤ (s.setPlace i x).freePlaces.length := by
  refine State.freePlaces_le fun j ordinary free => ?_
  by_cases own : i = j
  · subst own
    rw [State.setPlace_same]
    obtain none | held | full := h
    · exact none
    · rw [held] at free
      cases free
    · exact absurd full ordinary
  · rwa [State.setPlace_other own]

theorem State.freePlaces_endTableFull : s.freePlaces.length ≤ s.endTableFull.freePlaces.length := by
  unfold State.endTableFull
  split
  · split
    · exact State.freePlaces_setPlace (e := newEntry conditionTableFullKey .latching 0) (.inr (.inr rfl))
    · exact Nat.le_refl _
  · exact Nat.le_refl _

theorem State.freePlaces_removeEntry (i : Fin 128) : s.freePlaces.length ≤ (s.removeEntry i).freePlaces.length := by
  have cleared : s.freePlaces.length ≤ (s.setPlace i none).freePlaces.length :=
    State.freePlaces_setPlace (e := newEntry conditionTableFullKey .latching 0) (.inl rfl)
  unfold State.removeEntry
  dsimp only
  split
  · exact cleared.trans State.freePlaces_endTableFull
  · exact cleared

/-- The end of a cause takes no room. -/
theorem State.freePlaces_endCause (c : ConditionClass) (n : Nat) :
    s.freePlaces.length ≤ (s.endCause c n).freePlaces.length := by
  unfold State.endCause
  split
  · exact Nat.le_refl _
  · split
    · exact Nat.le_refl _
    · next held =>
        split
        · exact Nat.le_refl _
        · split
          · exact State.freePlaces_removeEntry _
          · split
            · exact State.freePlaces_removeEntry _
            · exact State.freePlaces_setPlace (.inr (.inl held))

/-- The keys of a list without an entry are the same ones where the entries are the same. -/
theorem State.absent_congr {keys : List ConditionKey} (same : ∀ k ∈ keys, t.entryOf k = s.entryOf k) :
    (keys.filter fun k => (t.entryOf k).isNone) = keys.filter fun k => (s.entryOf k).isNone :=
  List.filter_congr fun k mem => by rw [same k mem]

/-- After an act there is room for the acts that follow, whose keys are others. -/
theorem State.HasRoomFor.takeAct {l : List ConditionAct} (room : s.HasRoomFor (a :: l)) (legal : s.ConditionsLegal)
    (single : a.Single) (others : ∀ b ∈ l, b.key ≠ a.key ∧ b.Single) : (s.takeAct a).HasRoomFor l := by
  have keyed (b : ConditionAct) (k : ConditionKey) (raises : b.raised? = some k) : b.key = k := by
    cases b <;> cases raises <;> rfl
  have away (k : ConditionKey) (mem : k ∈ l.filterMap ConditionAct.raised?) : k ≠ a.key ∧ k ≠ conditionTableFullKey := by
    obtain ⟨b, hb, raises⟩ := List.mem_filterMap.mp mem
    rw [← keyed b k raises]
    exact ⟨(others b hb).1, (others b hb).2.ordinary⟩
  cases a with
  | report key => exact absurd rfl (single.single key)
  | endCause key =>
    have same (k : ConditionKey) (mem : k ∈ l.filterMap ConditionAct.raised?) :
        (s.takeAct (.endCause key)).entryOf k = s.entryOf k := by
      rw [State.takeAct, State.entryOf_endCause legal key (away k mem).2]
      exact if_neg (away k mem).1.symm
    rw [State.HasRoomFor, State.HasRoom, State.absent_congr same]
    exact Nat.le_trans room (State.freePlaces_endCause key.cls key.source)
  | raise key m =>
    have own : s.HasRoom [key] := State.HasRoom.subperm room ((List.nil_sublist _).cons_cons _).subperm
    have same (k : ConditionKey) (mem : k ∈ l.filterMap ConditionAct.raised?) :
        (s.takeAct (.raise key m)).entryOf k = s.entryOf k := by
      rw [State.takeAct, State.entryOf_raiseWith legal key single.ordinary own]
      exact if_neg (away k mem).1.symm
    rw [State.HasRoomFor, State.HasRoom, State.absent_congr same]
    have needed : ((key :: l.filterMap ConditionAct.raised?).filter fun k => (s.entryOf k).isNone).length ≤
      s.freePlaces.length := room
    cases place : s.placeOf key with
    | some i =>
      obtain ⟨e, held, rfl⟩ := State.placeOf_eq_some place
      have raised : s.raiseWith e.key m = s.setPlace i (some (e.raisedAgain m s.clock.reading)) := by
        simp [State.raiseWith, place, held]
      rw [List.filter_cons_of_neg (by rw [(State.entryOf_iff legal).mpr ⟨rfl, i, held⟩]; simp)] at needed
      rw [State.takeAct, raised]
      exact needed.trans (State.freePlaces_setPlace (.inr (.inl held)))
    | none =>
      obtain ⟨i, free⟩ := State.freePlace_of_room own place
      have raised : s.raiseWith key m = s.setPlace i (some (newEntry key m s.clock.reading)) := by
        simp [State.raiseWith, place, free]
      rw [List.filter_cons_of_pos (by rw [State.entryOf_eq_none.mpr place]; rfl), List.length_cons,
        ← State.freePlaces_taken free (newEntry key m s.clock.reading)] at needed
      rw [State.takeAct, raised]
      exact Nat.le_of_succ_le_succ needed

/-! ### The acts of an event, each of its own key -/

/-- Each act of a run on different keys reaches its own key's entry as if it were the only one. -/
theorem State.entryOf_takeActs {l : List ConditionAct} (legal : s.ConditionsLegal) (single : ∀ a ∈ l, a.Single)
    (nodup : (l.map ConditionAct.key).Nodup) (room : s.HasRoomFor l) (ne : k ≠ conditionTableFullKey) :
    (∀ a ∈ l, a.key = k → (l.foldl State.takeAct s).entryOf k = a.onEntry s.clock.reading (s.entryOf k)) ∧
      ((∀ a ∈ l, a.key ≠ k) → (l.foldl State.takeAct s).entryOf k = s.entryOf k) := by
  induction l generalizing s with
  | nil => exact ⟨nofun, fun _ => rfl⟩
  | cons a l ih =>
    rw [List.map_cons, List.nodup_cons] at nodup
    obtain ⟨new, rest⟩ := nodup
    obtain ⟨single, singles⟩ := List.forall_mem_cons.mp single
    have others (b : ConditionAct) (mem : b ∈ l) : b.key ≠ a.key ∧ b.Single :=
      ⟨fun same => new (same ▸ List.mem_map_of_mem mem), singles b mem⟩
    have now : (s.takeAct a).clock = s.clock := State.takeAct_changes a .clock (by decide)
    have head := State.entryOf_takeAct legal single
      (State.HasRoom.subperm room (((List.nil_sublist l).cons_cons a).filterMap _).subperm) ne
    obtain ⟨hit, miss⟩ := ih (legal.takeAct single.ordinary) singles rest (State.HasRoomFor.takeAct room legal single others)
    rw [List.foldl_cons]
    refine ⟨List.forall_mem_cons.mpr ⟨fun own => ?_, fun b mem own => ?_⟩, fun away => ?_⟩
    · rw [miss fun b mem same => (others b mem).1 (same.trans own.symm), head, if_pos own]
    · rw [hit b mem own, now, head, if_neg fun same => (others b mem).1 (own.trans same.symm)]
    · rw [miss fun b mem => away b (List.mem_cons_of_mem _ mem), head, if_neg (away a List.mem_cons_self)]

/-- The end of an event whose acts are on different keys: each key's entry as its own act, or none, leaves it. -/
theorem State.endEvent_entryOf (legal : s.ConditionsLegal) (table : u.conditions = s.conditions)
    (clock : u.clock = s.clock) (single : ∀ a ∈ u.acts, a.Single) (nodup : (u.acts.map ConditionAct.key).Nodup)
    (room : s.HasRoomFor u.acts) (ne : k ≠ conditionTableFullKey) :
    (∀ a ∈ u.acts, a.key = k → u.endEvent.entryOf k = (s.takeAct a).entryOf k) ∧
      ((∀ a ∈ u.acts, a.key ≠ k) → u.endEvent.entryOf k = s.entryOf k) := by
  obtain ⟨l, n, perm, eq⟩ := u.takeActs_eq
  have entries : u.endEvent.entryOf k = (l.foldl State.takeAct { u with acts := [], choices := n }).entryOf k := by
    rw [← eq]
    exact State.entryOf_congr (State.writeMarked_changes _ .conditions (by decide)) k
  have start (k : ConditionKey) : ({ u with acts := [], choices := n } : State).entryOf k = s.entryOf k :=
    State.entryOf_congr table k
  have started : ({ u with acts := [], choices := n } : State).ConditionsLegal := by
    obtain ⟨unique, place, counted, -⟩ := legal
    rw [← table] at unique place counted
    exact ⟨unique, place, counted, nofun⟩
  have roomy : ({ u with acts := [], choices := n } : State).HasRoomFor l := by
    rw [State.HasRoomFor, State.HasRoom, State.absent_congr fun k _ => start k,
      State.freePlaces_congr (u := { u with acts := [], choices := n }) table]
    exact State.HasRoom.subperm room (perm.filterMap _).subperm
  obtain ⟨hit, miss⟩ := State.entryOf_takeActs started (fun a mem => single a (perm.mem_iff.mp mem))
    ((perm.map _).nodup_iff.mpr nodup) roomy ne
  refine ⟨fun a mem own => ?_, fun away => ?_⟩
  · have alone : s.HasRoomFor [a] :=
      State.HasRoom.subperm room ((List.singleton_sublist.mpr mem).filterMap _).subperm
    rw [entries, hit a (perm.mem_iff.mpr mem) own, start, State.entryOf_takeAct legal (single a mem) alone ne, if_pos own]
    exact congrArg (fun c : Clock => a.onEntry c.reading (s.entryOf k)) clock
  · rw [entries, miss fun a mem => away a (perm.mem_iff.mp mem), start]

end Sys2Proof.Machine
end

section
/-! SUPPORT. Configure Boiler and RESET_LOCKOUT by their operands and the sequencer's state; settles O38. -/

namespace Sys2Proof.Machine

-- The stacks of threads for every theorem of this section at once would pass the memory limit.
set_option Elab.async false

variable {s : State} {b : Boiler} {c : BoilerConfig} {v : Byte}

/-- A boiler number that a request cannot name. -/
theorem numbered_boiler_none (out : v = 0 ∨ 8 < v.toNat) : numbered 8 v = none :=
  numbered_eq_none.mpr (out.imp_left fun zero => by rw [zero]; rfl)

/-! ### Configure Boiler (R40, R62) -/

/-- The history under new figures: the young entries but the oldest, down to one fewer than the limit (R62). -/
theorem State.trimmedHistory_eq (s : State) (limit : 1 ≤ c.tripLimit) (h : List TripEntry) :
    let young := h.filter fun e => decide (s.osc < e.second + c.window)
    s.trimmedHistory c h = young.drop (young.length + 1 - c.tripLimit) ∧ (s.trimmedHistory c h).length < c.tripLimit := by
  intro young
  have kept : (h.filter fun e => !s.aged c.window e) = young :=
    List.filter_congr fun e _ => by rw [State.aged, ← decide_not, decide_eq_decide, Nat.not_le]
  have trimmed : s.trimmedHistory c h = young.drop (young.length + 1 - c.tripLimit) := by
    unfold State.trimmedHistory
    rw [kept]
    dsimp only
    split
    · exact congrArg young.drop (by omega)
    · rw [show young.length + 1 - c.tripLimit = 0 by omega, List.drop_zero]
  refine ⟨trimmed, ?_⟩
  rw [trimmed, List.length_drop]
  omega

theorem configureBoilerOwner_refuse {f : RawBoiler} (out : numbered 8 f.boiler = none ∨ readBoilerFigures f = none) :
    configureBoilerOwner f s = refuse s .badField := by
  unfold configureBoilerOwner
  split
  · next number figures =>
      obtain none | none := out
      · cases number.symm.trans none
      · cases figures.symm.trans none
  · rfl

theorem configureBoilerOwner_eq {f : RawBoiler} (number : numbered 8 f.boiler = some b)
    (figures : readBoilerFigures f = some c) : configureBoilerOwner f s =
      if (s.boilers[b]).state ≠ .off then refuse s .busy
      else done (({ s with cfg := { s.cfg with boilers := s.cfg.boilers.set b (some c) } } : State).setBoiler b
        { s.boilers[b] with history := s.trimmedHistory c (s.boilers[b]).history }).markConfig := by
  simp only [configureBoilerOwner, number, figures]
  rfl

/-- New CONFIG contents and a sequencer set, written. -/
theorem State.configWritten_setBoiler (clean : s.marks = { config := false, accounts := false, queues := false })
    (x : ConfigRegion) (q : Sequencer) :
    (({ s with cfg := x } : State).setBoiler b q).markConfig.configWritten = (s.withConfig x).setBoiler b q := by
  cases s; cases clean; rfl

theorem exec_configureBoiler {f : RawBoiler} (work : s.working = true) (number : numbered 8 f.boiler = some b)
    (figures : readBoilerFigures f = some c) (off : (s.boilers[b]).state = .off) : exec (.configureBoiler f) s =
      .next ((s.withConfig { s.cfg with boilers := s.cfg.boilers.set b (some c) }).setBoiler b
        { s.boilers[b] with history := s.trimmedHistory c (s.boilers[b]).history }).answeredOk := by
  have owner := (configureBoilerOwner_eq (s := s) number figures).trans (if_neg (not_not.mpr off))
  have clean := State.marks_of_working work
  have quiet := State.acts_of_working work
  rw [exec_done rfl work owner, ← State.configWritten_setBoiler clean]
  refine congrArg Host.Outcome.next (endEvent_config quiet ?_)
  exact congrArg (fun m : WriteMarks => { m with config := true }) clean

/-! ### RESET_LOCKOUT (R64, R68, R80) -/

/-- The keys of every other class are none of CONDITION_TABLE_FULL. -/
theorem key_ordinary {c : ConditionClass} (ne : c ≠ .conditionTableFull) (n : Nat) :
    ({ cls := c, source := n } : ConditionKey) ≠ conditionTableFullKey := fun same => ne (congrArg ConditionKey.cls same)

/-- A lockout reset: the sequencer OFF with an empty history, and the table told of the causes that end. -/
def State.lockoutReset (s : State) (b : Boiler) : State :=
  { s.setBoiler b { s.boilers[b] with history := [], state := .off, run := none, marker := false } with
    acts := s.acts ++ .endCause { cls := .boilerLockout, source := b.val + 1 } ::
      if (s.boilers[b]).marker then [.endCause { cls := .boilerTrip, source := b.val + 1 }] else [] }

theorem resetLockoutOwner_eq (number : numbered 8 v = some b) : resetLockoutOwner v s =
    if (s.boilers[b]).state ≠ .lockedOut then refuse s .busy
    else if s.standingCause b then refuse s .stillPresent
    else done (s.lockoutReset b) := by
  unfold resetLockoutOwner forBoiler
  rw [number]
  dsimp only
  refine ite_congr rfl (fun _ => rfl) fun _ => ite_congr rfl (fun _ => rfl) fun _ => congrArg done ?_
  cases marked : (s.boilers[b]).marker with
  | true =>
    simpa [State.lockoutReset, State.clearMarker, State.tellEnd, State.tell, boilerSource, State.setBoiler] using marked
  | false =>
    have same : ({ s.boilers[b] with history := [], state := .off, run := none, marker := false } : Sequencer) =
        { s.boilers[b] with history := [], state := .off, run := none } := by rw [← marked]
    rw [State.lockoutReset, same, marked]
    rfl

/-- The acts that a lockout reset tells the table are cause ends of two keys. -/
theorem State.lockoutReset_single (s : State) (b : Boiler) (quiet : s.acts = []) :
    (∀ a ∈ (s.lockoutReset b).acts, a.Single) ∧ ((s.lockoutReset b).acts.map ConditionAct.key).Nodup ∧
      (s.lockoutReset b).acts.filterMap ConditionAct.raised? = [] := by
  have single (c : ConditionClass) (ne : c ≠ .conditionTableFull) :
      (ConditionAct.endCause { cls := c, source := b.val + 1 }).Single :=
    ⟨key_ordinary ne _, nofun⟩
  have lockout := single .boilerLockout nofun
  have trip := single .boilerTrip nofun
  unfold State.lockoutReset
  rw [quiet]
  cases (s.boilers[b]).marker <;>
    simp [lockout, trip, ConditionAct.key, ConditionAct.raised?]

/-- What an accepted RESET_LOCKOUT leaves of the table. -/
theorem State.lockoutReset_entries (work : s.working = true) (legal : s.ConditionsLegal) :
    let t := (s.lockoutReset b).answeredOk.endEvent
    let trip : ConditionKey := { cls := .boilerTrip, source := b.val + 1 }
    let lockout : ConditionKey := { cls := .boilerLockout, source := b.val + 1 }
    t.entryOf lockout = (s.endCause .boilerLockout (b.val + 1)).entryOf lockout ∧
      t.entryOf trip = (if (s.boilers[b]).marker then s.endCause .boilerTrip (b.val + 1) else s).entryOf trip ∧
      ∀ key, key ≠ trip → key ≠ lockout → key ≠ conditionTableFullKey → t.entryOf key = s.entryOf key := by
  intro t trip lockout
  have quiet := State.acts_of_working work
  obtain ⟨single, nodup, raised⟩ := s.lockoutReset_single b quiet
  have room : s.HasRoomFor (s.lockoutReset b).acts := by
    rw [State.HasRoomFor, raised]
    exact Nat.zero_le _
  have acts : (s.lockoutReset b).acts =
      .endCause lockout :: if (s.boilers[b]).marker then [.endCause trip] else [] := by
    rw [State.lockoutReset, quiet]
    rfl
  have entry {key : ConditionKey} (ne : key ≠ conditionTableFullKey) :=
    State.endEvent_entryOf (u := (s.lockoutReset b).answeredOk) legal rfl rfl single nodup room ne
  refine ⟨?_, ?_, fun key other distinct ne => (entry ne).2 fun a mem => ?_⟩
  · refine (entry (key := lockout) (key_ordinary (c := .boilerLockout) nofun _)).1 (.endCause lockout) ?_ rfl
    rw [State.answeredOk, State.answered, acts]
    exact List.mem_cons_self
  · cases marked : (s.boilers[b]).marker with
    | true =>
      refine (entry (key := trip) (key_ordinary (c := .boilerTrip) nofun _)).1 (.endCause trip) ?_ rfl
      rw [State.answeredOk, State.answered, acts, marked]
      exact .tail _ (.head _)
    | false =>
      refine (entry (key := trip) (key_ordinary (c := .boilerTrip) nofun _)).2 fun a mem => ?_
      rw [State.answeredOk, State.answered, acts, marked] at mem
      rw [List.mem_singleton.mp mem]
      exact fun same => nomatch congrArg ConditionKey.cls same
  · rw [State.answeredOk, State.answered, acts] at mem
    obtain rfl | mem := List.mem_cons.mp mem
    · exact distinct.symm
    · split at mem
      · rw [List.mem_singleton.mp mem]
        exact other.symm
      · cases mem

/-- Settles O38: the operands, then the sequencer's state; a lockout reset tells the table of two keys at most. -/
theorem configureBoilerAndResetLockout : Obligations.ConfigureBoilerAndResetLockout := by
  intro s b work
  refine ⟨fun f => ?_, fun v out => ?_, fun v number => ⟨fun other => ?_, fun locked stands => ?_, fun locked clear => ?_⟩⟩
  · intro c fits
    refine ⟨fun out => exec_refuse rfl work (configureBoilerOwner_refuse ?_), fun number within busy => ?_,
      fun number within off => ?_⟩
    · obtain zero | large | outside := out
      · exact .inl (numbered_boiler_none (.inl zero))
      · exact .inl (numbered_boiler_none (.inr large))
      · exact .inr ((readBoilerFigures_eq f).trans (if_neg outside))
    · have figures : readBoilerFigures f = some c := (readBoilerFigures_eq f).trans (if_pos within)
      exact exec_refuse rfl work ((configureBoilerOwner_eq (numbered_eq_some.mpr number) figures).trans (if_pos busy))
    · have figures : readBoilerFigures f = some c := (readBoilerFigures_eq f).trans (if_pos within)
      obtain ⟨-, -, -, -, -, -, -, -, -, -, ⟨limit, -⟩, -⟩ := within
      obtain ⟨trimmed, short⟩ := s.trimmedHistory_eq limit (s.boilers[b]).history
      rw [exec_configureBoiler work (numbered_eq_some.mpr number) figures off]
      rw [trimmed] at short ⊢
      exact ⟨rfl, short⟩
  · refine exec_refuse rfl work ?_
    unfold resetLockoutOwner forBoiler
    rw [numbered_boiler_none out]
  · exact exec_refuse rfl work ((resetLockoutOwner_eq (numbered_eq_some.mpr number)).trans (if_pos other))
  · exact exec_refuse rfl work ((resetLockoutOwner_eq (numbered_eq_some.mpr number)).trans
      ((if_neg (not_not.mpr locked)).trans (if_pos stands)))
  · have owner : resetLockoutOwner v s = done (s.lockoutReset b) :=
      (resetLockoutOwner_eq (numbered_eq_some.mpr number)).trans
        ((if_neg (not_not.mpr locked)).trans (if_neg (by rw [clear]; decide)))
    have ended := State.endEvent_changes (s := (s.lockoutReset b).answeredOk)
    exact ⟨_, exec_done rfl work owner, ended .hlu (by decide), ended .boilers (by decide),
      State.lockoutReset_entries work⟩

end Sys2Proof.Machine
end

section
/-! SUPPORT. The stages of a dispatch expiry (R37): the state once the result is published, once the frames are queued and
once the request is delivered, with what each leaves. -/

namespace Sys2Proof.Machine

-- The stacks of threads for every theorem of this section at once would pass the memory limit.
set_option Elab.async false

variable {s t u : State} {a b : Boiler}

/-! ### What a result writes of the Dispatcher, and what the frames and requests leave of it (R55, R58, R59) -/

/-- The Dispatcher without the table and the setpoint line. -/
def Dispatcher.published (d : Dispatcher) : Dispatcher :=
  { d with allocations := Vector.replicate 8 .zero, sending := none, waiting := [] }

theorem State.queueFrame_published (b : Boiler) (f : Option Fuel) (n : Nat) :
    (s.queueFrame b f n).dsp.published = s.dsp.published := by
  unfold State.queueFrame
  dsimp only
  split <;> rfl

theorem State.noticeFiringLeft_published (b : Boiler) (f : Fuel) :
    (s.noticeFiringLeft b f).dsp.published = s.dsp.published :=
  State.queueFrame_published (s := s.setAllocation b _) b none 0

theorem State.leaveNotice_published (b : Boiler) (q : Sequencer) :
    (s.leaveNotice b q).dsp.published = s.dsp.published :=
  State.leaveNotice_keeps (p := fun t => t.dsp.published = s.dsp.published) rfl (State.queueFrame_published b none 0)
    (State.noticeFiringLeft_published b) q

theorem State.controlledStop_published (b : Boiler) : (s.controlledStop b).dsp.published = s.dsp.published := by
  rw [State.controlledStop_eq]
  exact State.leaveNotice_published (s := s.setBoiler b _) b _

/-- A changeover that a boiler without figures cannot start closes its permits. -/
theorem State.startChangeover_of_none (conf : s.cfg.boilers[b] = none) (old : Fuel) :
    s.startChangeover b old = s.setBoiler b ((s.boilers[b]).permitsClosed s.osc s.clock.reading) := by
  simp only [State.startChangeover, State.closePermits_eq, State.setBoiler_cfg, conf]

theorem State.startChangeover_published (b : Boiler) (old : Fuel) :
    (s.startChangeover b old).dsp.published = s.dsp.published := by
  cases conf : s.cfg.boilers[b] with
  | none => rw [State.startChangeover_of_none conf]; rfl
  | some c =>
    rw [State.startChangeover_eq conf]
    exact State.noticeFiringLeft_published (s := s.setBoiler b _) b old

/-- What a request makes of its boiler: a changeover, a controlled stop, or nothing (R75). -/
theorem State.takeRequest_keeps {p : State → Prop} (same : p s) (change : ∀ old, p (s.startChangeover b old))
    (stop : p (s.controlledStop b)) (k : ShedKind) : p (s.takeRequest b k) := by
  unfold State.takeRequest
  split
  · split
    · exact change .gas
    · exact stop
  · exact stop
  · exact stop
  · exact stop
  · exact change .aux
  · exact same

theorem State.takeRequest_published (b : Boiler) (k : ShedKind) :
    (s.takeRequest b k).dsp.published = s.dsp.published :=
  State.takeRequest_keeps (p := fun t => t.dsp.published = s.dsp.published) rfl (State.startChangeover_published b)
    (State.controlledStop_published b) k

theorem State.deliver_published (r : SentRequest) : (s.deliver r).dsp.published = s.dsp.published := by
  cases r with
  | nothing => rfl
  | one k b => exact State.takeRequest_published b k
  | shedAll l =>
    exact State.inAnyOrder_keeps (p := fun t => t.dsp.published = s.dsp.published) rfl (fun _ same => same)
      fun t b _ same => (State.takeRequest_published b _).trans same

/-! ### A request leaves the other boilers and their allocations (R75) -/

/-- Boiler `a` and its allocation are the same. -/
def State.SameBoiler (s t : State) (a : Boiler) : Prop :=
  t.boilers[a] = s.boilers[a] ∧ t.dsp.allocations[a] = s.dsp.allocations[a]

theorem State.SameBoiler.refl (s : State) (a : Boiler) : s.SameBoiler s a := ⟨rfl, rfl⟩

theorem State.SameBoiler.trans (h : s.SameBoiler t a) (k : t.SameBoiler u a) : s.SameBoiler u a :=
  ⟨k.1.trans h.1, k.2.trans h.2⟩

theorem State.setBoiler_sameBoiler (ne : a ≠ b) (q : Sequencer) : s.SameBoiler (s.setBoiler b q) a :=
  ⟨State.setBoiler_boiler_ne ne q, rfl⟩

theorem State.leaveNotice_sameBoiler (ne : a ≠ b) (q : Sequencer) : s.SameBoiler (s.leaveNotice b q) a := by
  have boilers : (s.leaveNotice b q).boilers = s.boilers := State.leaveNotice_changes b q .boilers (by decide)
  exact ⟨by rw [boilers], State.leaveNotice_other ne q⟩

theorem State.noticeFiringLeft_sameBoiler (ne : a ≠ b) (f : Fuel) : s.SameBoiler (s.noticeFiringLeft b f) a := by
  have boilers : (s.noticeFiringLeft b f).boilers = s.boilers := State.noticeFiringLeft_changes b f .boilers (by decide)
  have apart : b.val ≠ a.val := fun e => ne (Fin.ext e.symm)
  refine ⟨by rw [boilers], ?_⟩
  rw [State.noticeFiringLeft_allocations]
  simp [apart]

theorem State.takeRequest_sameBoiler (ne : a ≠ b) (k : ShedKind) : s.SameBoiler (s.takeRequest b k) a := by
  refine State.takeRequest_keeps (p := fun t => s.SameBoiler t a) (.refl s a) (fun old => ?_) ?_ k
  · cases conf : s.cfg.boilers[b] with
    | none =>
      rw [State.startChangeover_of_none conf]
      exact State.setBoiler_sameBoiler ne _
    | some c =>
      rw [State.startChangeover_eq conf]
      exact (State.setBoiler_sameBoiler ne _).trans (State.noticeFiringLeft_sameBoiler ne old)
  · rw [State.controlledStop_eq]
    exact (State.setBoiler_sameBoiler ne _).trans (State.leaveNotice_sameBoiler ne _)

/-- The boilers that a request is delivered to. -/
def SentRequest.boilers : SentRequest → List Boiler
  | .nothing => []
  | .one _ b => [b]
  | .shedAll l => l

theorem State.deliver_sameBoiler (r : SentRequest) (out : a ∉ r.boilers) : s.SameBoiler (s.deliver r) a := by
  cases r with
  | nothing => exact .refl s a
  | one k b => exact State.takeRequest_sameBoiler (fun own => out (List.mem_singleton.mpr own)) k
  | shedAll l =>
    exact State.inAnyOrder_keeps (p := fun t => s.SameBoiler t a) (.refl s a) (fun _ same => same)
      fun t b mem same => same.trans (State.takeRequest_sameBoiler (fun own => out (by rw [own]; exact mem)) _)

/-! ### The setpoint frames of a cycle (R58 i) -/

theorem State.cycleFrame_keeps {p : State → Prop} (same : p s) (queued : ∀ f n, p (s.queueFrame b f n)) :
    p (s.cycleFrame b) := by
  unfold State.cycleFrame
  dsimp only
  split
  · exact queued _ _
  · exact queued _ _
  · exact queued _ _
  · split
    · exact queued _ _
    · exact same
  all_goals exact same

theorem State.cycleFrame_published (b : Boiler) : (s.cycleFrame b).dsp.published = s.dsp.published :=
  State.cycleFrame_keeps (p := fun t => t.dsp.published = s.dsp.published) rfl (State.queueFrame_published b)

theorem State.cycleFrame_allocations (b : Boiler) : (s.cycleFrame b).dsp.allocations = s.dsp.allocations :=
  State.cycleFrame_keeps (p := fun t => t.dsp.allocations = s.dsp.allocations) rfl State.queueFrame_allocations

/-! ### The stages -/

/-- The result is published: the sources' flags and the conditions told, the result written, its energy
added to the open interval. -/
def State.cyclePublished (s : State) : State :=
  let r := s.cycleResult s.gasFigures
  ((s.figuresRequest.cycleConditions r.flags).writeResult r).integrateExport r.heat.exported r.span r.flags.steamOver

/-- The frames of the cycle are queued, in merit order. -/
def State.cycleQueued (s : State) : State := s.meritOrder.foldl State.cycleFrame s.cyclePublished

theorem State.cyclePublished_changes : ChangesOnly [.gas, .marks, .dsp, .que] s s.cyclePublished :=
  ((State.cycleTold_changes _).append (State.dsp_changes _)).append (State.integrateExport_changes _ _ _)
    |>.mono (by decide)

theorem State.cyclePublished_dsp : s.cyclePublished.dsp = (s.writeResult (s.cycleResult s.gasFigures)).dsp := by
  have told := State.cycleTold_changes (s := s) (s.cycleResult s.gasFigures).flags
  have integrated : s.cyclePublished.dsp = ((s.figuresRequest.cycleConditions _).writeResult _).dsp :=
    State.integrateExport_changes _ _ _ .dsp (by decide)
  have dsp : (s.figuresRequest.cycleConditions (s.cycleResult s.gasFigures).flags).dsp = s.dsp := told .dsp (by decide)
  have osc : (s.figuresRequest.cycleConditions (s.cycleResult s.gasFigures).flags).osc = s.osc := told .osc (by decide)
  rw [integrated, State.writeResult, State.writeResult, dsp, osc]

theorem State.cyclePublished_queued : ChangesOnly [.dsp] s.cyclePublished s.cycleQueued :=
  ChangesOnly.foldl (fun _ b => State.cycleFrame_changes b) _ _

theorem State.cycleQueued_changes : ChangesOnly [.gas, .marks, .dsp, .que] s s.cycleQueued :=
  State.cyclePublished_changes.trans (State.cyclePublished_queued.mono (by decide))

/-- The Dispatcher's published figures and its table, once the frames are queued. -/
theorem State.cycleQueued_dsp : s.cycleQueued.dsp.published = (s.writeResult (s.cycleResult s.gasFigures)).dsp.published ∧
    s.cycleQueued.dsp.allocations = (s.writeResult (s.cycleResult s.gasFigures)).dsp.allocations := by
  rw [← State.cyclePublished_dsp]
  exact List.foldlRecOn (motive := fun t => t.dsp.published = s.cyclePublished.dsp.published ∧
      t.dsp.allocations = s.cyclePublished.dsp.allocations) s.meritOrder State.cycleFrame ⟨rfl, rfl⟩
    fun t ⟨figures, table⟩ b _ =>
      ⟨(State.cycleFrame_published b).trans figures, (State.cycleFrame_allocations b).trans table⟩

/-- A cycle: its result, its frames, its request (R37). -/
theorem State.dispatchCycle_eq : s.dispatchCycle = s.cycleQueued.deliver (s.cycleResult s.gasFigures).request := by
  have cfg : s.cyclePublished.cfg = s.cfg := State.cyclePublished_changes .cfg (by decide)
  have merit : s.cyclePublished.meritOrder = s.meritOrder := by rw [State.meritOrder, State.meritOrder, cfg]
  rw [State.cycleQueued, ← merit]
  rfl

theorem State.dispatchCycle_published :
    s.dispatchCycle.dsp.published = (s.writeResult (s.cycleResult s.gasFigures)).dsp.published := by
  rw [State.dispatchCycle_eq, State.deliver_published, State.cycleQueued_dsp.1]

/-- A dispatch expiry that is due runs the cycle. -/
theorem exec_dispatchExpiry_due (work : s.working = true) (due : s.dsp.lastCycle + s.cfg.plant.period ≤ s.osc) :
    exec .dispatchExpiry s = .next s.dispatchCycle.endEvent := by
  refine (duringOperation_running State.dispatchExpiry (State.running_of_working work)).trans ?_
  have run : s.cycleDue = true := decide_eq_true due
  rw [State.dispatchExpiry, if_pos run]

theorem exec_dispatchExpiry_early (work : s.working = true) (early : s.osc < s.dsp.lastCycle + s.cfg.plant.period) :
    exec .dispatchExpiry s = .next s := by
  have none : s.dispatchExpiry = s := if_neg (by rw [State.cycleDue, decide_eq_true_iff, Nat.not_le]; exact early)
  have event := duringOperation_clean State.dispatchExpiry work (by rw [none]) (by rw [none])
  rw [none] at event
  exact event

end Sys2Proof.Machine
end

section
/-! SUPPORT. A dispatch cycle neither reads nor clears the mark of CONFIG, and the end of an event writes a marked region
whatever the event told the table (R38, R176); settles O37. -/

namespace Sys2Proof.Machine

-- The stacks of threads for every theorem of this section at once would pass the memory limit.
set_option Elab.async false

variable {s t u : State} {b : Boiler}

/-! ### The mark of CONFIG through a cycle -/

theorem State.queueFrame_markConfig (b : Boiler) (f : Option Fuel) (n : Nat) :
    s.markConfig.queueFrame b f n = (s.queueFrame b f n).markConfig := by
  have line : s.markConfig.dsp = s.dsp := rfl
  unfold State.queueFrame
  rw [line]
  cases s.dsp.sending <;> rfl

theorem State.noticeFiringLeft_markConfig (b : Boiler) (f : Fuel) :
    s.markConfig.noticeFiringLeft b f = (s.noticeFiringLeft b f).markConfig :=
  State.queueFrame_markConfig (s := s.setAllocation b _) b none 0

theorem State.leaveNotice_markConfig (b : Boiler) (q : Sequencer) :
    s.markConfig.leaveNotice b q = (s.leaveNotice b q).markConfig := by
  unfold State.leaveNotice
  split
  · exact State.noticeFiringLeft_markConfig b .gas
  · exact State.noticeFiringLeft_markConfig b .aux
  · exact State.queueFrame_markConfig b none 0
  · split
    · exact State.queueFrame_markConfig b none 0
    · rfl
  · rfl

theorem State.controlledStop_markConfig (b : Boiler) : s.markConfig.controlledStop b = (s.controlledStop b).markConfig := by
  rw [State.controlledStop_eq, State.controlledStop_eq]
  exact State.leaveNotice_markConfig (s := s.setBoiler b _) b _

theorem State.startChangeover_markConfig (b : Boiler) (old : Fuel) :
    s.markConfig.startChangeover b old = (s.startChangeover b old).markConfig := by
  cases conf : s.cfg.boilers[b] with
  | none =>
    rw [State.startChangeover_of_none conf, State.startChangeover_of_none (s := s.markConfig) conf]
    rfl
  | some c =>
    rw [State.startChangeover_eq conf, State.startChangeover_eq (s := s.markConfig) conf]
    exact State.noticeFiringLeft_markConfig (s := s.setBoiler b _) b old

theorem State.takeRequest_markConfig (b : Boiler) (k : ShedKind) :
    s.markConfig.takeRequest b k = (s.takeRequest b k).markConfig := by
  have state : s.markConfig.boilers = s.boilers := rfl
  have fitted : s.markConfig.auxFitted b = s.auxFitted b := rfl
  unfold State.takeRequest
  rw [state, fitted]
  split
  · split
    · exact State.startChangeover_markConfig b .gas
    · exact State.controlledStop_markConfig b
  · exact State.controlledStop_markConfig b
  · exact State.controlledStop_markConfig b
  · exact State.controlledStop_markConfig b
  · exact State.startChangeover_markConfig b .aux
  · rfl

/-- What commutes with a mark, one after another. -/
theorem foldl_markConfig {α : Type} {f : State → α → State} (each : ∀ t a, f t.markConfig a = (f t a).markConfig)
    (l : List α) (s : State) : l.foldl f s.markConfig = (l.foldl f s).markConfig := by
  induction l generalizing s with
  | nil => rfl
  | cons a l ih => rw [List.foldl_cons, List.foldl_cons, each, ih]

theorem State.inAnyOrder_markConfig {α : Type} {f : State → α → State}
    (each : ∀ t a, f t.markConfig a = (f t a).markConfig) (l : List α) :
    s.markConfig.inAnyOrder l f = (s.inAnyOrder l f).markConfig := by
  unfold State.inAnyOrder
  split
  · exact foldl_markConfig each l s
  · exact foldl_markConfig each _ { s with choices := s.choices + 1 }

theorem State.deliver_markConfig (r : SentRequest) : s.markConfig.deliver r = (s.deliver r).markConfig := by
  cases r with
  | nothing => rfl
  | one k b => exact State.takeRequest_markConfig b k
  | shedAll l => exact State.inAnyOrder_markConfig (fun t b => State.takeRequest_markConfig (s := t) b _) l

theorem State.cycleFrame_markConfig (b : Boiler) : s.markConfig.cycleFrame b = (s.cycleFrame b).markConfig := by
  have boilers : s.markConfig.boilers = s.boilers := rfl
  have table : s.markConfig.dsp = s.dsp := rfl
  have least : s.markConfig.minimumFiring b = s.minimumFiring b := rfl
  unfold State.cycleFrame
  rw [boilers, table, least]
  dsimp only
  cases (s.boilers[b]).state with
  | lighting | firingGas | firingAux => exact State.queueFrame_markConfig b _ _
  | changeover =>
    dsimp only
    split
    · exact State.queueFrame_markConfig b _ _
    · rfl
  | off | purge | tripped | lockedOut => rfl

theorem State.figuresSource_markConfig (n : GasSource) : s.markConfig.figuresSource n = (s.figuresSource n).markConfig := by
  have standing : s.markConfig.standing n = s.standing n := rfl
  have flags : s.markConfig.gas = s.gas := rfl
  unfold State.figuresSource State.findUnmeasured State.clearUnmeasured
  rw [standing, flags]
  cases s.standing n with
  | unmeasured => dsimp only; split <;> rfl
  | counted => dsimp only; split <;> rfl
  | outOfService | notDefined => rfl

theorem State.tellMarker_markConfig (marker found : Bool) (c : ConditionClass) :
    s.markConfig.tellMarker marker found c = (s.tellMarker marker found c).markConfig := by
  cases marker <;> cases found <;> rfl

theorem State.cycleConditions_markConfig (f : ResultFlags) :
    s.markConfig.cycleConditions f = (s.cycleConditions f).markConfig := by
  simp only [State.cycleConditions, State.tellMarker_markConfig]
  rfl

theorem State.integrateExport_markConfig (exported : Int) (span : Nat) (steamOver : Bool) :
    s.markConfig.integrateExport exported span steamOver = (s.integrateExport exported span steamOver).markConfig := by
  have que : s.markConfig.que = s.que := rfl
  have put (q : QueuesRegion) : s.markConfig.setQueues q = (s.setQueues q).markConfig := by
    unfold State.setQueues
    rw [que]
    split <;> rfl
  unfold State.integrateExport
  rw [que]
  cases s.que.interval with
  | none => rfl
  | some iv => exact put _

theorem State.cycleResult_markConfig : s.markConfig.cycleResult s.markConfig.gasFigures = s.cycleResult s.gasFigures := by
  have figures : s.markConfig.gasFigures = s.gasFigures := rfl
  have early (g : GasFigures) : s.markConfig.earlyFigures g = s.earlyFigures g := rfl
  have gas : s.markConfig.gasFigured = s.gasFigured := rfl
  have aux : s.markConfig.auxFigured = s.auxFigured := rfl
  have onGas : s.markConfig.gasFiring = s.gasFiring := rfl
  have onAux : s.markConfig.auxFiring = s.auxFiring := rfl
  have turbine : s.markConfig.turbineAvailable = s.turbineAvailable := rfl
  unfold State.cycleResult
  rw [figures, early, gas, aux, onGas, onAux, turbine]
  rfl

/-- A result published, in the state with the mark. -/
theorem State.writeResult_markConfig (r : DispatchResult) :
    ((s.markConfig.figuresRequest.cycleConditions r.flags).writeResult r).integrateExport r.heat.exported r.span
      r.flags.steamOver = (((s.figuresRequest.cycleConditions r.flags).writeResult r).integrateExport r.heat.exported
        r.span r.flags.steamOver).markConfig := by
  have figures : s.markConfig.figuresRequest = s.figuresRequest.markConfig :=
    foldl_markConfig (fun t n => State.figuresSource_markConfig (s := t) n) _ s
  have written (t : State) : t.markConfig.writeResult r = (t.writeResult r).markConfig := rfl
  rw [figures, State.cycleConditions_markConfig, written, State.integrateExport_markConfig]

theorem State.cyclePublished_markConfig : s.markConfig.cyclePublished = s.cyclePublished.markConfig := by
  unfold State.cyclePublished
  rw [State.cycleResult_markConfig]
  exact State.writeResult_markConfig _

theorem State.dispatchCycle_markConfig : s.markConfig.dispatchCycle = s.dispatchCycle.markConfig := by
  have merit : s.markConfig.meritOrder = s.meritOrder := rfl
  rw [State.dispatchCycle_eq, State.dispatchCycle_eq, State.cycleQueued, State.cycleResult_markConfig, merit,
    State.cyclePublished_markConfig, foldl_markConfig (fun t b => State.cycleFrame_markConfig (s := t) b),
    State.deliver_markConfig]
  rfl

/-- What a cycle tells the table marks no region. -/
theorem State.cycleTold_marks (f : ResultFlags) : (s.figuresRequest.cycleConditions f).marks = s.marks := by
  have source (t : State) (n : GasSource) : (t.figuresSource n).marks = t.marks := by
    unfold State.figuresSource State.findUnmeasured State.clearUnmeasured
    split
    · split <;> rfl
    · split <;> rfl
    · rfl
    · rfl
  have figures : s.figuresRequest.marks = s.marks :=
    List.foldlRecOn (motive := fun t => t.marks = s.marks) _ State.figuresSource rfl
      fun t same n _ => (source t n).trans same
  have tell (t : State) (marker found : Bool) (c : ConditionClass) : (t.tellMarker marker found c).marks = t.marks := by
    cases marker <;> cases found <;> rfl
  simp only [State.cycleConditions, tell, figures]

theorem State.integrateExport_marks (e : Int) (n : Nat) (o : Bool) :
    (s.integrateExport e n o).marks.config = s.marks.config := by
  unfold State.integrateExport State.setInterval State.setQueues
  split
  · rfl
  · split <;> rfl

theorem State.cyclePublished_marks : s.cyclePublished.marks.config = s.marks.config := by
  have written (t : State) (r : DispatchResult) : (t.writeResult r).marks = t.marks := rfl
  unfold State.cyclePublished
  dsimp only
  rw [State.integrateExport_marks, written, State.cycleTold_marks]

/-- A cycle marks no region but QUEUES. -/
theorem State.dispatchCycle_marks : s.dispatchCycle.marks.config = s.marks.config := by
  have queued := State.cyclePublished_queued (s := s)
  have delivered := State.deliver_changes (s := s.cycleQueued) (s.cycleResult s.gasFigures).request
  rw [State.dispatchCycle_eq, (delivered .marks (by decide)).1, (queued .marks (by decide)).1, State.cyclePublished_marks]

/-! ### The end of an event with new CONFIG contents -/

theorem State.takeActs_apart (l : HostLink) (r : Store) (m : WriteMarks) :
    (s.apart l r m).takeActs = s.takeActs.apart l r m := by
  have fold (acts : List ConditionAct) (t : State) :
      acts.foldl State.takeAct (t.apart l r m) = (acts.foldl State.takeAct t).apart l r m := by
    induction acts generalizing t with
    | nil => rfl
    | cons a acts ih => rw [List.foldl_cons, List.foldl_cons, State.takeAct_apart, ih]
  have acts : (s.apart l r m).acts = s.acts := rfl
  unfold State.takeActs
  rw [acts]
  split
  · exact fold s.acts { s with acts := [] }
  · exact fold _ { s with acts := [], choices := s.choices + 1 }

/-- The end of an event that has marked CONFIG, answered OK: as without the mark, and the region written. -/
theorem State.endEvent_markConfig (clean : s.marks.config = false) :
    s.markConfig.answeredOk.endEvent = (s.endEvent.withConfig s.cfg).answeredOk := by
  have apart : s.markConfig.answeredOk =
    s.apart { s.hlu with answer := some Status.ok.answer } s.store { s.marks with config := true } := rfl
  have kept := State.takeActs_changes (s := s)
  have hlu : s.takeActs.hlu = s.hlu := kept .hlu (by decide)
  have store : s.takeActs.store = s.store := kept .store (by decide)
  have cfg : s.takeActs.cfg = s.cfg := kept .cfg (by decide)
  have marks : s.takeActs.marks = s.marks := State.takeActs_marks
  have image (l : HostLink) (r : Store) (m : WriteMarks) :
      (s.takeActs.apart l r m).queuesImage = s.takeActs.queuesImage := rfl
  rw [apart, State.endEvent, State.takeActs_apart, State.endEvent]
  unfold State.writeMarked State.withConfig State.answeredOk State.answered
  rw [image]
  dsimp only [State.apart]
  rw [hlu, store, cfg, marks, clean]
  by_cases due : s.hlu.restartDue = true
  · simp only [due, if_true]
  · simp only [due, Bool.false_eq_true, if_false, if_true]
    rfl

/-! ### Set Plant Parameters (R38) -/

/-- The state with new plant parameters. -/
def State.withPlant (s : State) (p : PlantParameters) : State := { s with cfg := { s.cfg with plant := p } }

theorem setPlantParametersOwner_eq {f : RawPlant} {p : PlantParameters} (read : readPlant f = some p) :
    setPlantParametersOwner f s = done (s.withPlant p).markConfig.dispatchExpiry := by
  simp only [setPlantParametersOwner, read]
  rfl

theorem exec_setPlantParameters_early {f : RawPlant} {p : PlantParameters} (work : s.working = true)
    (read : readPlant f = some p) (early : s.osc < s.dsp.lastCycle + p.period) :
    exec (.setPlantParameters f) s = .next (s.withConfig { s.cfg with plant := p }).answeredOk := by
  have none : (s.withPlant p).markConfig.dispatchExpiry = (s.withPlant p).markConfig :=
    if_neg (by rw [State.cycleDue, decide_eq_true_iff, Nat.not_le]; exact early)
  exact serveRequest_config work ((setPlantParametersOwner_eq read).trans (by rw [none]; rfl))

/-- Figures that bring the expiry to this second: the dispatch expiry under them, and CONFIG written. -/
theorem exec_setPlantParameters_due {f : RawPlant} {p : PlantParameters} (work : s.working = true)
    (read : readPlant f = some p) (due : s.dsp.lastCycle + p.period ≤ s.osc) : exec (.setPlantParameters f) s =
      .next ((s.withPlant p).dispatchCycle.endEvent.withConfig { s.cfg with plant := p }).answeredOk := by
  have run : (s.withPlant p).markConfig.cycleDue = true := decide_eq_true due
  have owner : setPlantParametersOwner f s = done (s.withPlant p).dispatchCycle.markConfig := by
    rw [setPlantParametersOwner_eq read, State.dispatchExpiry, if_pos run, State.dispatchCycle_markConfig]
  have cfg : (s.withPlant p).dispatchCycle.cfg = { s.cfg with plant := p } :=
    State.dispatchCycle_changes (s := s.withPlant p) .cfg (by decide)
  have clean : (s.withPlant p).dispatchCycle.marks.config = false :=
    State.dispatchCycle_marks.trans (congrArg WriteMarks.config (State.marks_of_working work))
  rw [exec_done rfl work owner, State.endEvent_markConfig clean, cfg]

/-! ### Set Merit List (R39) -/

theorem exec_setMeritList (work : s.working = true) {l : List Boiler} (nodup : l.Nodup) :
    exec (.setMeritList (l.map fun b => BitVec.ofNat 8 (b.val + 1))) s =
      .next (s.withConfig { s.cfg with merit := l }).answeredOk := by
  have numbers : (l.map fun b => BitVec.ofNat 8 (b.val + 1)).mapM (numbered 8) = some l := by
    rw [mapM_numbered_eq_some, List.map_map]
    refine List.map_congr_left fun b _ => ?_
    rw [Function.comp_apply, BitVec.toNat_ofNat]
    omega
  have short : l.length ≤ 8 := by simpa using nodup.length_le_card
  refine serveRequest_config work ?_
  simp only [setMeritListOwner, numbers]
  exact if_pos ⟨short, nodup⟩

theorem setMeritListOwner_refuse {l : List Byte} (out : 8 < l.length ∨ ¬ l.Nodup ∨ ∃ v ∈ l, v = 0 ∨ 8 < v.toNat) :
    setMeritListOwner l s = refuse s .badField := by
  unfold setMeritListOwner
  split
  case h_1 => rfl
  case h_2 x numbers =>
    have same := (mapM_numbered_eq_some l x).mp numbers
    refine if_neg fun ⟨short, nodup⟩ => ?_
    obtain long | twice | ⟨v, mem, outside⟩ := out
    · have lengths := congrArg List.length same
      rw [List.length_map, List.length_map] at lengths
      omega
    · have distinct : (x.map fun i => i.val + 1).Nodup :=
        nodup.map fun i j eq => Fin.ext (Nat.succ.inj eq)
      rw [same] at distinct
      exact twice distinct.of_map
    · have named : v.toNat ∈ x.map fun i => i.val + 1 := same ▸ List.mem_map_of_mem mem
      obtain ⟨i, -, number⟩ := List.mem_map.mp named
      obtain rfl | large := outside
      · cases number
      · omega

/-- Settles O37: the operands, then whether the new period has run out; and a merit list by its members. -/
theorem plantAndMeritByCase : Obligations.PlantAndMeritByCase := by
  intro s work
  refine ⟨fun f => ?_, fun l nodup => ?_, fun l out => ?_⟩
  · intro p fits
    refine ⟨fun out => exec_refuse rfl work ?_, fun within early => ?_, fun within due => ?_⟩
    · have read : readPlant f = none := (readPlant_eq f).trans (if_neg out)
      simp only [setPlantParametersOwner, read]
    · exact exec_setPlantParameters_early work ((readPlant_eq f).trans (if_pos within)) early
    · have published := State.dispatchCycle_published (s := s.withPlant p)
      have cycle := State.dispatchCycle_changes (s := s.withPlant p)
      have after := State.endEvent_changes (s := (s.withPlant p).dispatchCycle)
      have dsp : (s.withPlant p).dispatchCycle.endEvent.dsp = (s.withPlant p).dispatchCycle.dsp := after .dsp (by decide)
      have hlu : (s.withPlant p).dispatchCycle.endEvent.hlu = s.hlu :=
        Eq.trans (after .hlu (by decide)) (cycle .hlu (by decide))
      rw [← dsp] at published
      exact ⟨_, exec_setPlantParameters_due work ((readPlant_eq f).trans (if_pos within)) due, rfl,
        congrArg (fun h : HostLink => { h with answer := some Status.ok.answer }) hlu,
        congrArg Dispatcher.cycle published, congrArg Dispatcher.lastCycle published,
        congrArg Dispatcher.result published, _, exec_dispatchExpiry_due (s := s.withPlant p) work due, rfl⟩
  · exact exec_setMeritList work nodup
  · exact exec_refuse rfl work (setMeritListOwner_refuse out)

end Sys2Proof.Machine
end

section
/-! SUPPORT. The request of a cycle, by its grounds, and the aux-idle counts (R46, R50, R51). -/

namespace Sys2Proof.Machine

-- The stacks of threads for every theorem of this section at once would pass the memory limit.
set_option Elab.async false

variable {s : State} {g : GasFigures} {b : Boiler}

/-! ### The request as its two choices -/

/-- The stage 4 request of a cycle (R46). -/
def State.shedRequest (s : State) (g : GasFigures) : SentRequest :=
  shedChoice g.lowLow (s.cycleResult g).flags.shortage (s.cycleResult g).flags.steamOver s.gasFiring s.auxFiring

/-- The last boiler on aux fuel in merit order, with its figures and its count (R51). -/
def State.lastAux (s : State) : Option (FiringFigures × Nat) :=
  s.auxFigured.getLast?.map fun x => (x, (s.dsp.allocations[x.boiler]).idle)

/-- The stage 8 request of a cycle (R51). -/
def State.releaseRequest (s : State) (g : GasFigures) : SentRequest :=
  releaseChoice s.cfg.plant.idleLimit (s.cycleResult g).raised.leftover (s.cycleResult g).raised.shortfall
    (decide (s.shedRequest g ≠ .nothing)) s.lastAux

theorem State.request_eq (s : State) (g : GasFigures) : (s.cycleResult g).request =
    if decide (s.shedRequest g ≠ .nothing) then s.shedRequest g else s.releaseRequest g := rfl

theorem State.idle_eq (s : State) (g : GasFigures) (b : Boiler) : ((s.cycleResult g).boilers[b]).idle =
    if (s.boilers[b]).state = .firingAux ∧ (s.releaseRequest g).target ≠ some b then
      idleCount (s.dsp.allocations[b]).idle (s.cycleResult g).raised.shortfall (decide (s.shedRequest g ≠ .nothing))
    else 0 := by
  simp only [State.cycleResult, Fin.getElem_fin, Vector.getElem_ofFn]
  rfl

theorem State.request_of_shed (chosen : s.shedRequest g ≠ .nothing) : (s.cycleResult g).request = s.shedRequest g := by
  rw [State.request_eq, if_pos (decide_eq_true chosen)]

theorem State.request_of_none (none : s.shedRequest g = .nothing) : (s.cycleResult g).request = s.releaseRequest g := by
  rw [State.request_eq, if_neg (by simpa using none)]

/-! ### The stage 4 choice (R46) -/

variable {lowLow shortage steamOver : Bool} {gas aux : List Boiler}

theorem shedChoice_all (low : lowLow = true) (some : gas ≠ []) :
    shedChoice lowLow shortage steamOver gas aux = .shedAll gas := if_pos ⟨low, some⟩

theorem shedChoice_gas (low : lowLow = false) (last : gas.getLast? = some b) :
    shedChoice lowLow shortage steamOver gas aux =
      if shortage then .one .shedShortage b else if steamOver then .one .shedSteam b else .nothing := by
  simp only [shedChoice, low, Bool.false_eq_true, false_and, if_false, last]

theorem shedChoice_aux (none : gas = []) (last : aux.getLast? = some b) :
    shedChoice lowLow shortage steamOver gas aux = if steamOver then .one .shedSteam b else .nothing := by
  simp [shedChoice, none, last]

theorem shedChoice_none (noGas : gas = []) (noAux : aux = []) :
    shedChoice lowLow shortage steamOver gas aux = .nothing := by
  simp [shedChoice, noGas, noAux]

/-- When stage 4 chooses a request. -/
theorem shedChoice_ne_nothing : shedChoice lowLow shortage steamOver gas aux ≠ .nothing ↔
    (lowLow = true ∨ shortage = true ∨ steamOver = true) ∧ gas ≠ [] ∨ steamOver = true ∧ aux ≠ [] := by
  cases gasLast : gas.getLast? with
  | none =>
    have noGas : gas = [] := List.getLast?_eq_none_iff.mp gasLast
    cases auxLast : aux.getLast? with
    | none =>
      have noAux : aux = [] := List.getLast?_eq_none_iff.mp auxLast
      rw [shedChoice_none noGas noAux, noGas, noAux]
      simp
    | some b =>
      have someAux : aux ≠ [] := fun empty => by rw [empty] at auxLast; cases auxLast
      rw [shedChoice_aux noGas auxLast]
      cases steamOver <;> simp [noGas, someAux]
  | some b =>
    have someGas : gas ≠ [] := fun empty => by rw [empty] at gasLast; cases gasLast
    cases low : lowLow with
    | true => simp [shedChoice_all rfl someGas, someGas]
    | false =>
      rw [shedChoice_gas rfl gasLast]
      cases shortage <;> cases steamOver <;> simp [someGas]

/-! ### The stage 8 choice (R50, R51) -/

theorem State.lastAux_of_none (empty : s.auxFiring = []) : s.lastAux = none := by
  rw [State.lastAux, State.auxFigured, empty]
  rfl

theorem State.lastAux_of_some (last : s.auxFiring.getLast? = some b) :
    s.lastAux = some (s.firingFigures (·.aux) b, (s.dsp.allocations[b]).idle) := by
  have named : s.dsp.allocations[(s.firingFigures (·.aux) b).boiler] = s.dsp.allocations[b] :=
    congrArg (fun a : Boiler => s.dsp.allocations[a]) (State.firingFigures_boiler _ b)
  rw [State.lastAux, State.auxFigured, List.getLast?_map, last, Option.map_some, Option.map_some, named]

theorem State.firingFigures_minimum (present : Allocation → Nat) (b : Boiler) :
    (s.firingFigures present b).minimum = (s.cfg.boilers[b]).elim 0 (·.minimum) := by
  unfold State.firingFigures
  cases s.cfg.boilers[b] <;> rfl

/-- The release of the last boiler on aux fuel, where stage 4 has chosen nothing. -/
theorem State.releaseRequest_of_some (none : s.shedRequest g = .nothing) (last : s.auxFiring.getLast? = some b) :
    let count := idleCount (s.dsp.allocations[b]).idle (s.cycleResult g).raised.shortfall false
    s.releaseRequest g = if s.cfg.plant.idleLimit ≠ 0 ∧ s.cfg.plant.idleLimit ≤ count then
      .one (if (s.cfg.boilers[b]).elim 0 (·.minimum) ≤ (s.cycleResult g).raised.leftover then .returnGas
        else .releaseAux) b else .nothing := by
  have chosen : decide (s.shedRequest g ≠ .nothing) = false := by simpa using none
  rw [State.releaseRequest, chosen, State.lastAux_of_some last, releaseChoice]
  dsimp only
  rw [State.firingFigures_minimum, State.firingFigures_boiler]
  simp only [Bool.false_eq_true, not_false_eq_true, true_and]
  split
  · split <;> rfl
  · rfl

theorem State.releaseRequest_of_none (empty : s.auxFiring = []) : s.releaseRequest g = .nothing := by
  rw [State.releaseRequest, State.lastAux_of_none empty]
  rfl

/-- Stage 8 asks nothing where stage 4 has chosen. -/
theorem State.releaseRequest_of_chosen (chosen : s.shedRequest g ≠ .nothing) : s.releaseRequest g = .nothing := by
  rw [State.releaseRequest, decide_eq_true chosen]
  unfold releaseChoice
  split
  · rfl
  · exact if_neg fun h => h.2.1 rfl

/-! ### What a request is delivered to -/

/-- The fuel that a request finds its boiler on: its own state is that of the stage that chose it. -/
def ShedKind.Finds (k : ShedKind) (x : BoilerState) : Prop :=
  match k with
  | .shedShortage => x = .firingGas
  | .shedSteam => x = .firingGas ∨ x = .firingAux
  | .releaseAux | .returnGas => x = .firingAux

theorem State.gasFiring_last (last : s.gasFiring.getLast? = some b) : (s.boilers[b]).state = .firingGas :=
  State.mem_gasFiring.mp (List.mem_of_getLast? last)

theorem State.auxFiring_last (last : s.auxFiring.getLast? = some b) : (s.boilers[b]).state = .firingAux :=
  State.mem_auxFiring.mp (List.mem_of_getLast? last)

theorem State.shedRequest_finds {k : ShedKind} (h : s.shedRequest g = .one k b) : k.Finds (s.boilers[b]).state := by
  unfold State.shedRequest at h
  cases gasLast : s.gasFiring.getLast? with
  | none =>
    have noGas := List.getLast?_eq_none_iff.mp gasLast
    cases auxLast : s.auxFiring.getLast? with
    | none => rw [shedChoice_none noGas (List.getLast?_eq_none_iff.mp auxLast)] at h; cases h
    | some a =>
      rw [shedChoice_aux noGas auxLast] at h
      split at h
      · cases h; exact .inr (State.auxFiring_last auxLast)
      · cases h
  | some a =>
    have someGas : s.gasFiring ≠ [] := fun empty => by rw [empty] at gasLast; cases gasLast
    cases low : g.lowLow with
    | true => rw [shedChoice_all low someGas] at h; cases h
    | false =>
      rw [shedChoice_gas low gasLast] at h
      split at h
      · cases h; exact State.gasFiring_last gasLast
      · split at h
        · cases h; exact .inl (State.gasFiring_last gasLast)
        · cases h

theorem State.shedRequest_all {l : List Boiler} (h : s.shedRequest g = .shedAll l) : l = s.gasFiring := by
  unfold State.shedRequest shedChoice at h
  split at h
  · cases h; rfl
  · split at h
    · split at h
      · cases h
      · split at h <;> cases h
    · split at h <;> cases h
    · cases h

/-- The stage 8 request goes to one boiler at most, which is on aux fuel. -/
theorem State.releaseRequest_cases (none : s.shedRequest g = .nothing) : s.releaseRequest g = .nothing ∨
    ∃ k b, s.releaseRequest g = .one k b ∧ k.Finds (s.boilers[b]).state := by
  cases last : s.auxFiring.getLast? with
  | none => exact .inl (State.releaseRequest_of_none (List.getLast?_eq_none_iff.mp last))
  | some b =>
    have firing := State.auxFiring_last last
    rw [State.releaseRequest_of_some none last]
    split
    · refine .inr ⟨_, b, rfl, ?_⟩
      split <;> exact firing
    · exact .inl rfl

theorem State.request_finds {k : ShedKind} (h : (s.cycleResult g).request = .one k b) : k.Finds (s.boilers[b]).state := by
  by_cases none : s.shedRequest g = .nothing
  · rw [State.request_of_none none] at h
    obtain quiet | ⟨k', b', one, finds⟩ := State.releaseRequest_cases none
    · cases quiet.symm.trans h
    · cases one.symm.trans h
      exact finds
  · rw [State.request_of_shed none] at h
    exact State.shedRequest_finds h

theorem State.request_all {l : List Boiler} (h : (s.cycleResult g).request = .shedAll l) : l = s.gasFiring := by
  by_cases none : s.shedRequest g = .nothing
  · rw [State.request_of_none none] at h
    obtain quiet | ⟨k', b', one, -⟩ := State.releaseRequest_cases none
    · cases quiet.symm.trans h
    · cases one.symm.trans h
  · rw [State.request_of_shed none] at h
    exact State.shedRequest_all h

/-! ### The counts (R50) -/

theorem State.idle_of_other (other : (s.boilers[b]).state ≠ .firingAux) : ((s.cycleResult g).boilers[b]).idle = 0 := by
  rw [State.idle_eq, if_neg fun h => other h.1]

theorem State.idle_of_target (target : (s.releaseRequest g).target = some b) : ((s.cycleResult g).boilers[b]).idle = 0 := by
  rw [State.idle_eq, if_neg fun h => h.2 target]

theorem State.idle_of_shortfall (short : 0 < (s.cycleResult g).raised.shortfall) :
    ((s.cycleResult g).boilers[b]).idle = 0 := by
  rw [State.idle_eq, idleCount, if_pos short]
  exact ite_self 0

theorem State.idle_of_chosen (firing : (s.boilers[b]).state = .firingAux) (covered : (s.cycleResult g).raised.shortfall = 0)
    (chosen : s.shedRequest g ≠ .nothing) : ((s.cycleResult g).boilers[b]).idle = (s.dsp.allocations[b]).idle := by
  have apart : (s.releaseRequest g).target ≠ some b := by rw [State.releaseRequest_of_chosen chosen]; nofun
  rw [State.idle_eq, if_pos ⟨firing, apart⟩, idleCount, covered, decide_eq_true chosen]
  rfl

theorem State.idle_of_kept (firing : (s.boilers[b]).state = .firingAux) (covered : (s.cycleResult g).raised.shortfall = 0)
    (none : s.shedRequest g = .nothing) (apart : (s.releaseRequest g).target ≠ some b) :
    ((s.cycleResult g).boilers[b]).idle = min ((s.dsp.allocations[b]).idle + 1) 255 := by
  have chosen : decide (s.shedRequest g ≠ .nothing) = false := by simpa using none
  rw [State.idle_eq, if_pos ⟨firing, apart⟩, idleCount, covered, chosen]
  rfl

end Sys2Proof.Machine
end

section
/-! SUPPORT. The delivery of a cycle's request to its boilers, and the setpoint frames of a cycle as the line takes them
(R55, R57, R58, R75). -/

namespace Sys2Proof.Machine

-- The stacks of threads for every theorem of this section at once would pass the memory limit.
set_option Elab.async false

variable {s t u v : State} {a b : Boiler} {r : DispatchResult}

/-! ### A stop and a changeover, as another pair of states sees them -/

/-- The pair `s`, `v` shows of boiler `b` what the pair `u`, `t` shows. -/
structure SamePair (u t s v : State) (b : Boiler) : Prop where
  osc : u.osc = s.osc
  cfg : u.cfg = s.cfg
  before : u.boilers[b] = s.boilers[b]
  after : t.SameBoiler v b

theorem Stopped.congr (h : Stopped u t b) (pair : SamePair u t s v b) : Stopped s v b := by
  obtain ⟨osc, -, before, after, allocation⟩ := pair
  obtain ⟨state, closed, lastClose, idle, gasLeft, auxLeft⟩ := h
  rw [← after, before, osc] at lastClose
  rw [← after] at state closed idle
  rw [← allocation, before] at gasLeft auxLeft
  exact ⟨state, closed, lastClose, idle, gasLeft, auxLeft⟩

theorem ChangingTo.congr {f : Fuel} (h : ChangingTo u t b f) (pair : SamePair u t s v b) : ChangingTo s v b f := by
  obtain ⟨osc, cfg, before, after, allocation⟩ := pair
  obtain ⟨state, run, closed, lastClose, timers, gasLeft, auxLeft⟩ := h
  rw [← after, before, osc] at lastClose
  rw [← after] at state run closed
  rw [← after, cfg, osc] at timers
  rw [← allocation] at gasLeft auxLeft
  rw [before] at run
  exact ⟨state, run, closed, lastClose, timers, gasLeft, auxLeft⟩

/-! ### A request delivered to one boiler (R75) -/

/-- A request that stops its boiler. -/
theorem State.takeRequest_stopped {k : ShedKind} (finds : k.Finds (s.boilers[b]).state)
    (stops : k = .shedSteam ∨ k = .releaseAux ∨ k = .shedShortage ∧ s.auxFitted b = false) :
    Stopped s (s.takeRequest b k) b := by
  have stopped : s.takeRequest b k = s.controlledStop b := by
    obtain rfl | rfl | ⟨rfl, unfitted⟩ := stops
    · obtain gas | aux := finds
      · simp only [State.takeRequest, gas]
      · simp only [State.takeRequest, aux]
    · have aux : (s.boilers[b]).state = .firingAux := finds
      simp only [State.takeRequest, aux]
    · rw [State.takeRequest_shed finds, if_neg (by rw [unfitted]; decide)]
  rw [stopped]
  exact State.controlledStop_stopped

theorem State.takeRequest_return (firing : (s.boilers[b]).state = .firingAux) :
    s.takeRequest b .returnGas = s.startChangeover b .aux := by simp only [State.takeRequest, firing]

theorem State.takeRequest_changing (firing : (s.boilers[b]).state = .firingAux) (conf : (s.cfg.boilers[b]).isSome) :
    ChangingTo s (s.takeRequest b .returnGas) b .gas := by
  obtain ⟨c, conf⟩ := Option.isSome_iff_exists.mp conf
  rw [State.takeRequest_return firing]
  exact State.startChangeover_changingTo conf .aux

/-! ### Boilers on gas shed, a boiler listed twice included -/

/-- A boiler that is not on gas takes no SHED_SHORTAGE. -/
theorem State.takeRequest_shed_idle (other : (s.boilers[b]).state ≠ .firingGas) : s.takeRequest b .shedShortage = s := by
  unfold State.takeRequest
  split <;> simp_all

/-- A boiler that has been shed is on gas no more. -/
theorem GasShed.left (h : GasShed s t b) : (t.boilers[b]).state ≠ .firingGas := by
  cases fitted : s.auxFitted b with
  | true =>
    obtain ⟨⟨state, -⟩, -⟩ := h.fitted fitted
    rw [state]
    nofun
  | false =>
    obtain ⟨⟨state, -⟩, -⟩ := h.unfitted fitted
    rw [state]
    nofun

theorem foldl_shed (order : List Boiler) (s : State) (b : Boiler) :
    let t := order.foldl (fun s b => s.takeRequest b .shedShortage) s
    ((s.boilers[b]).state ≠ .firingGas → s.SameBoiler t b) ∧
      (b ∈ order → (s.boilers[b]).state = .firingGas → GasShed s t b) := by
  induction order generalizing s with
  | nil => exact ⟨fun _ => .refl s b, nofun⟩
  | cons a l ih =>
    obtain ⟨idle, shed⟩ := ih (s.takeRequest a .shedShortage)
    have rest := State.takeRequest_changes (s := s) a .shedShortage
    have osc : (s.takeRequest a .shedShortage).osc = s.osc := rest .osc (by decide)
    have cfg : (s.takeRequest a .shedShortage).cfg = s.cfg := rest .cfg (by decide)
    dsimp only at idle shed ⊢
    rw [List.foldl_cons]
    by_cases own : b = a
    · subst own
      by_cases firing : (s.boilers[b]).state = .firingGas
      · have first := State.takeRequest_gasShed firing
        obtain ⟨after, allocation⟩ := idle first.left
        exact ⟨fun other => absurd firing other, fun _ _ => first.congr rfl rfl rfl after allocation⟩
      · rw [State.takeRequest_shed_idle firing] at idle ⊢
        exact ⟨idle, fun _ gas => absurd gas firing⟩
    · have same : s.SameBoiler (s.takeRequest a .shedShortage) b := State.takeRequest_sameBoiler own _
      refine ⟨fun other => same.trans (idle (by rw [same.1]; exact other)), fun mem firing => ?_⟩
      exact (shed (List.mem_of_ne_of_mem own mem) (by rw [same.1]; exact firing)).congr osc cfg same.1 rfl rfl

theorem State.inAnyOrder_gasShed {l : List Boiler} (mem : b ∈ l) (firing : (s.boilers[b]).state = .firingGas) :
    GasShed s (s.inAnyOrder l fun s b => s.takeRequest b .shedShortage) b := by
  obtain ⟨order, n, perm, eq⟩ := s.inAnyOrder_eq l fun s b => s.takeRequest b .shedShortage
  rw [eq]
  exact ((foldl_shed order { s with choices := n } b).2 (perm.mem_iff.mpr mem) firing).congr rfl rfl rfl rfl rfl

/-! ### The frame of a boiler that a request sends away (R57, R58 ii) -/

/-- The frames being sent and waiting. -/
def State.line (s : State) : Option SetpointFrame × List SetpointFrame := (s.dsp.sending, s.dsp.waiting)

/-- The frame NONE and 0 of a boiler. -/
def noneFrame (cycle : Word) (b : Boiler) : SetpointFrame := { boiler := b, fuel := none, demand := 0, cycle := cycle }

theorem State.takeRequest_line {k : ShedKind} (legal : s.SetpointsLegal) (finds : k.Finds (s.boilers[b]).state)
    (conf : (s.cfg.boilers[b]).isSome) : (s.takeRequest b k).line = lineTakes s.line (noneFrame s.dsp.cycle b) := by
  have stop (burns : (s.boilers[b]).mayBurn = true) :
      (s.controlledStop b).line = lineTakes s.line (noneFrame s.dsp.cycle b) := by
    have put : (s.setBoiler b ((s.boilers[b]).stopped s.osc s.clock.reading)).SetpointsLegal := legal.congr rfl rfl
    have line := State.leaveNotice_line put b s.boilers[b]
    rw [if_pos burns] at line
    rw [State.controlledStop_eq]
    exact line
  have changeover (old : Fuel) : (s.startChangeover b old).line = lineTakes s.line (noneFrame s.dsp.cycle b) := by
    obtain ⟨c, conf⟩ := Option.isSome_iff_exists.mp conf
    have put : (s.setBoiler b ((s.boilers[b]).changing s.osc s.clock.reading c old.other)).SetpointsLegal :=
      legal.congr rfl rfl
    rw [State.startChangeover_eq conf]
    exact State.noticeFiringLeft_line put b old
  have gas (firing : (s.boilers[b]).state = .firingGas) : (s.boilers[b]).mayBurn = true := by
    rw [Sequencer.mayBurn, firing]
  have aux (firing : (s.boilers[b]).state = .firingAux) : (s.boilers[b]).mayBurn = true := by
    rw [Sequencer.mayBurn, firing]
  cases k with
  | shedShortage =>
    rw [State.takeRequest_shed finds]
    split
    · exact changeover .gas
    · exact stop (gas finds)
  | shedSteam =>
    obtain firing | firing := finds
    · simpa only [State.takeRequest, firing] using stop (gas firing)
    · simpa only [State.takeRequest, firing] using stop (aux firing)
  | releaseAux =>
    have firing : (s.boilers[b]).state = .firingAux := finds
    simpa only [State.takeRequest, firing] using stop (aux firing)
  | returnGas =>
    rw [State.takeRequest_return finds]
    exact changeover .aux

/-! ### The frames of a cycle (R58 i) -/

/-- What the state of a boiler calls for: its fuel, and its demand; `x` is its allocation. -/
def State.called (s : State) (x : Allocation) (b : Boiler) : Option (Option Fuel × Nat) :=
  match (s.boilers[b]).state with
  | .lighting => some ((s.boilers[b]).run, s.minimumFiring b)
  | .firingGas => some (some .gas, x.gas)
  | .firingAux => some (some .aux, x.aux)
  | .changeover => if (s.boilers[b]).phase = some .takeover then some ((s.boilers[b]).target, s.minimumFiring b) else none
  | .off | .purge | .tripped | .lockedOut => none

theorem State.cycleFrame_eq (s : State) (b : Boiler) : s.cycleFrame b =
    (s.called s.dsp.allocations[b] b).elim s fun x => s.queueFrame b x.1 x.2 := by
  unfold State.cycleFrame State.called
  dsimp only
  cases (s.boilers[b]).state with
  | changeover =>
    dsimp only
    split <;> rfl
  | lighting | firingGas | firingAux | off | purge | tripped | lockedOut => rfl

/-- The frame that a boiler is called for, in a cycle that gives it `x`. -/
def State.calledFrame (s : State) (cycle : Word) (table : Boiler → Allocation) (b : Boiler) : Option SetpointFrame :=
  (s.called (table b) b).map fun x => { boiler := b, fuel := x.1, demand := x.2, cycle := cycle }

/-- What the frames of a cycle leave for one another: the boilers, their figures, the table and the cycle number. -/
structure FramesFrom (s t : State) : Prop where
  boilers : t.boilers = s.boilers
  cfg : t.cfg = s.cfg
  table : t.dsp.allocations = s.dsp.allocations
  cycle : t.dsp.cycle = s.dsp.cycle
  legal : t.SetpointsLegal

theorem State.cycleFrame_line (from_ : FramesFrom s t) (b : Boiler) : FramesFrom s (t.cycleFrame b) ∧
    (t.cycleFrame b).line = (s.calledFrame s.dsp.cycle (fun b => s.dsp.allocations[b]) b).toList.foldl lineTakes t.line := by
  obtain ⟨boilers, cfg, table, cycle, legal⟩ := from_
  have called : t.called t.dsp.allocations[b] b = s.called s.dsp.allocations[b] b := by
    rw [State.called, State.called, State.minimumFiring, State.minimumFiring, boilers, cfg, table]
  rw [State.cycleFrame_eq, called, State.calledFrame]
  cases s.called s.dsp.allocations[b] b with
  | none => exact ⟨⟨boilers, cfg, table, cycle, legal⟩, rfl⟩
  | some x =>
    have kept := State.queueFrame_changes (s := t) b x.1 x.2
    refine ⟨⟨Eq.trans (kept .boilers (by decide)) boilers, Eq.trans (kept .cfg (by decide)) cfg,
      (State.queueFrame_allocations x.1 x.2).trans table, (State.queueFrame_cycle x.1 x.2).trans cycle,
      legal.queueFrame b x.1 x.2⟩, ?_⟩
    have line := State.queueFrame_line legal b x.1 x.2
    rw [cycle] at line
    exact line

theorem foldl_cycleFrame (from_ : FramesFrom s t) (l : List Boiler) : FramesFrom s (l.foldl State.cycleFrame t) ∧
    (l.foldl State.cycleFrame t).line =
      (l.filterMap (s.calledFrame s.dsp.cycle fun b => s.dsp.allocations[b])).foldl lineTakes t.line := by
  induction l generalizing t with
  | nil => exact ⟨from_, rfl⟩
  | cons b l ih =>
    obtain ⟨next, line⟩ := State.cycleFrame_line from_ b
    obtain ⟨last, rest⟩ := ih next
    rw [List.foldl_cons]
    refine ⟨last, ?_⟩
    rw [rest, line, List.filterMap_cons]
    cases s.calledFrame s.dsp.cycle (fun b => s.dsp.allocations[b]) b <;> rfl

end Sys2Proof.Machine
end

section
/-! SUPPORT. The flags and conditions that a dispatch expiry follows, as acts told the table, one at most for each key (R25,
R52). -/

namespace Sys2Proof.Machine

-- The stacks of threads for every theorem of this section at once would pass the memory limit.
set_option Elab.async false

variable {s t u : State} {k : ConditionKey}

/-! ### A condition that follows a marker -/

/-- A condition with the marker an event finds and the finding it follows. -/
structure Followed where
  cls : ConditionClass
  source : Nat
  marker : Bool
  found : Bool

/-- The key of a followed condition. -/
def Followed.key (x : Followed) : ConditionKey := { cls := x.cls, source := x.source }

/-- The raise where the finding is new, the end of the cause where it has gone. -/
def Followed.act (latch : ConditionClass → LatchMode) (x : Followed) : Option ConditionAct :=
  match x.marker, x.found with
  | false, true => some (.raise x.key (latch x.cls))
  | true, false => some (.endCause x.key)
  | _, _ => none

theorem Followed.key_of_act {latch : ConditionClass → LatchMode} {x : Followed} {a : ConditionAct}
    (told : x.act latch = some a) : a.key = x.key := by
  unfold Followed.act at told
  split at told <;> cases told <;> rfl

theorem Followed.single_of_act {latch : ConditionClass → LatchMode} {x : Followed} {a : ConditionAct}
    (told : x.act latch = some a) (ordinary : x.cls ≠ .conditionTableFull) : a.Single := by
  refine ⟨?_, ?_⟩
  · rw [Followed.key_of_act told]
    exact key_ordinary ordinary _
  · unfold Followed.act at told
    split at told <;> cases told <;> nofun

theorem filterMap_cons_toList {α β : Type} (f : α → Option β) (a : α) (l : List α) :
    (a :: l).filterMap f = (f a).toList ++ l.filterMap f := by
  rw [List.filterMap_cons]
  cases f a <;> rfl

/-- What a partial function finds, where it agrees with a function, is a part of that function's list. -/
theorem filterMap_sublist_map {α β : Type} {f : α → Option β} {g : α → β} (h : ∀ a b, f a = some b → b = g a)
    (l : List α) : (l.filterMap f).Sublist (l.map g) := by
  induction l with
  | nil => exact List.nil_sublist _
  | cons a l ih =>
    rw [List.filterMap_cons, List.map_cons]
    cases same : f a with
    | none => exact ih.cons _
    | some b => rw [h a b same]; exact ih.cons_cons _

/-- At the end of an event whose acts follow conditions of different keys, each key's entry has followed. -/
theorem State.endEvent_follows {items : List Followed} (legal : s.ConditionsLegal) (table : u.conditions = s.conditions)
    (clock : u.clock = s.clock) (acts : u.acts = items.filterMap (Followed.act s.classLatch))
    (nodup : (items.map Followed.key).Nodup) (ordinary : ∀ x ∈ items, x.cls ≠ .conditionTableFull)
    (room : s.HasRoom (items.map Followed.key)) {x : Followed} (mem : x ∈ items) : u.endEvent.entryOf x.key =
      (if x.found && !x.marker then s.raise x.cls x.source
        else if x.marker && !x.found then s.endCause x.cls x.source else s).entryOf x.key := by
  have single (a : ConditionAct) (told : a ∈ u.acts) : a.Single := by
    rw [acts] at told
    obtain ⟨y, hy, told⟩ := List.mem_filterMap.mp told
    exact Followed.single_of_act told (ordinary y hy)
  have keys : (u.acts.map ConditionAct.key).Nodup := by
    rw [acts, List.map_filterMap]
    refine nodup.sublist (filterMap_sublist_map (fun y k told => ?_) items)
    obtain ⟨a, act, rfl⟩ := Option.map_eq_some_iff.mp told
    exact Followed.key_of_act act
  have roomy : s.HasRoomFor u.acts := by
    rw [State.HasRoomFor, acts, List.filterMap_filterMap]
    refine State.HasRoom.subperm room (filterMap_sublist_map (fun y k told => ?_) items).subperm
    obtain ⟨a, told, raised⟩ := Option.bind_eq_some_iff.mp told
    rw [← Followed.key_of_act told]
    cases a <;> cases raised <;> rfl
  obtain ⟨hit, miss⟩ := State.endEvent_entryOf legal table clock single keys roomy (key_ordinary (ordinary x mem) x.source)
  have own (a : ConditionAct) (told : x.act s.classLatch = some a) :
      u.endEvent.entryOf x.key = (s.takeAct a).entryOf x.key :=
    hit a (by rw [acts]; exact List.mem_filterMap.mpr ⟨x, mem, told⟩) (Followed.key_of_act told)
  have quiet (none : x.act s.classLatch = none) : u.endEvent.entryOf x.key = s.entryOf x.key := by
    refine miss fun a told same => ?_
    rw [acts] at told
    obtain ⟨y, hy, told⟩ := List.mem_filterMap.mp told
    have alike : y = x := List.inj_on_of_nodup_map nodup hy mem ((Followed.key_of_act told).symm.trans same)
    rw [alike, none] at told
    cases told
  cases marker : x.marker <;> cases found : x.found
  · exact quiet (by rw [Followed.act, marker, found])
  · exact own _ (by rw [Followed.act, marker, found])
  · exact own _ (by rw [Followed.act, marker, found])
  · exact quiet (by rw [Followed.act, marker, found])

/-! ### The sources' flags (R25) -/

/-- The unmeasured flag that a figures request gives a source. -/
def State.unmeasuredNext (s : State) (n : GasSource) : Bool :=
  match s.standing n with
  | .unmeasured => true
  | .counted => false
  | .outOfService | .notDefined => s.gas.unmeasured[n]

/-- A source's condition, with its flag and the flag it is given. -/
def State.sourceFollowed (s : State) (n : GasSource) : Followed :=
  { cls := .sourceUnmeasured, source := n.val + 1, marker := s.gas.unmeasured[n], found := s.unmeasuredNext n }

theorem State.figuresSource_eq (s : State) (n : GasSource) : s.figuresSource n =
    { s with
      gas := { s.gas with unmeasured := s.gas.unmeasured.set n (s.unmeasuredNext n) }
      acts := s.acts ++ ((s.sourceFollowed n).act s.classLatch).toList } := by
  have kept : ({ s with
      gas := { s.gas with unmeasured := s.gas.unmeasured.set n s.gas.unmeasured[n] }
      acts := s.acts ++ [] } : State) = s := by
    simp
  unfold State.figuresSource State.sourceFollowed State.unmeasuredNext
  cases s.standing n with
  | unmeasured =>
    dsimp only
    unfold State.findUnmeasured
    cases flag : s.gas.unmeasured[n] with
    | true =>
      rw [flag] at kept
      exact kept.symm
    | false => rfl
  | counted =>
    dsimp only
    unfold State.clearUnmeasured
    cases flag : s.gas.unmeasured[n] with
    | true => rfl
    | false =>
      rw [flag] at kept
      exact kept.symm
  | outOfService | notDefined =>
    dsimp only
    cases flag : s.gas.unmeasured[n] <;> (rw [flag] at kept; exact kept.symm)

/-- The sources of a list, one after another: each source's flag and its act, by what it was before. -/
theorem foldl_figuresSource {l : List GasSource} (nodup : l.Nodup) (s : State) :
    let t := l.foldl State.figuresSource s
    t.acts = s.acts ++ l.filterMap (fun n => (s.sourceFollowed n).act s.classLatch) ∧
      ∀ n : GasSource, t.gas.unmeasured[n] = if n ∈ l then s.unmeasuredNext n else s.gas.unmeasured[n] := by
  induction l generalizing s with
  | nil => exact ⟨(List.append_nil _).symm, fun _ => rfl⟩
  | cons a l ih =>
    obtain ⟨new, nodup⟩ := List.nodup_cons.mp nodup
    obtain ⟨acts, flags⟩ := ih nodup (s.figuresSource a)
    have flag (n : GasSource) : (s.figuresSource a).gas.unmeasured[n] =
        if n = a then s.unmeasuredNext a else s.gas.unmeasured[n] := by
      rw [State.figuresSource_eq]
      exact getElem_set_fin ..
    have standing (n : GasSource) : (s.figuresSource a).standing n = s.standing n := by
      rw [State.figuresSource_eq]
      rfl
    have next (n : GasSource) (ne : n ≠ a) : (s.figuresSource a).unmeasuredNext n = s.unmeasuredNext n := by
      rw [State.unmeasuredNext, State.unmeasuredNext, standing, flag, if_neg ne]
    have latch : (s.figuresSource a).classLatch = s.classLatch := by
      rw [State.figuresSource_eq]
      funext c
      cases c <;> rfl
    have later (n : GasSource) (mem : n ∈ l) : n ≠ a := fun same => new (same ▸ mem)
    have followed : l.filterMap (fun n => ((s.figuresSource a).sourceFollowed n).act (s.figuresSource a).classLatch) =
        l.filterMap fun n => (s.sourceFollowed n).act s.classLatch := by
      refine List.filterMap_congr fun n mem => ?_
      rw [latch, State.sourceFollowed, State.sourceFollowed, flag, if_neg (later n mem), next n (later n mem)]
    dsimp only at acts flags ⊢
    refine ⟨?_, fun n => ?_⟩
    · rw [List.foldl_cons, acts, followed, State.figuresSource_eq, filterMap_cons_toList]
      exact List.append_assoc ..
    · rw [List.foldl_cons, flags, flag]
      by_cases own : n = a
      · subst own
        rw [if_neg new, if_pos rfl, if_pos List.mem_cons_self]
      · rw [if_neg own, next n own]
        simp only [List.mem_cons, own, false_or]

theorem State.figuresRequest_spec (s : State) :
    s.figuresRequest.acts = s.acts ++ (List.finRange 6).filterMap (fun n => (s.sourceFollowed n).act s.classLatch) ∧
      ∀ n : GasSource, s.figuresRequest.gas.unmeasured[n] = s.unmeasuredNext n := by
  obtain ⟨acts, flags⟩ := foldl_figuresSource (List.nodup_finRange 6) s
  exact ⟨acts, fun n => (flags n).trans (if_pos (List.mem_finRange n))⟩

/-! ### The conditions of a cycle (R52) -/

/-- The nine conditions that a cycle follows, by its flags. -/
def State.cycleFollowed (s : State) (f : ResultFlags) : List Followed :=
  (List.finRange 6).map s.sourceFollowed ++
    [{ cls := .gasShortage, source := 1, marker := s.dsp.markers.shortage, found := f.shortage },
      { cls := .steamOverLimit, source := 1, marker := s.dsp.markers.steamOver, found := f.steamOver },
      { cls := .heatShortfall, source := 1, marker := s.dsp.markers.heatShort, found := f.heatShort }]

theorem State.tellMarker_acts (marker found : Bool) (c : ConditionClass) : (s.tellMarker marker found c).acts = s.acts ++
    (Followed.act s.classLatch { cls := c, source := 1, marker := marker, found := found }).toList := by
  cases marker <;> cases found
  · exact (List.append_nil _).symm
  · rfl
  · rfl
  · exact (List.append_nil _).symm

/-- The latch modes are those of CONFIG and the manual. -/
theorem State.classLatch_congr (cfg : t.cfg = s.cfg) : t.classLatch = s.classLatch := by
  funext c
  cases c <;> simp only [State.classLatch, cfg]

theorem State.cycleTold_acts (f : ResultFlags) : (s.figuresRequest.cycleConditions f).acts =
    s.acts ++ (s.cycleFollowed f).filterMap (Followed.act s.classLatch) := by
  have figures := State.figuresRequest_changes (s := s)
  have tells (t : State) (marker found : Bool) (c : ConditionClass) : (t.tellMarker marker found c).cfg = t.cfg := by
    cases marker <;> cases found <;> rfl
  have markers : s.figuresRequest.dsp = s.dsp := figures .dsp (by decide)
  have cfg : s.figuresRequest.cfg = s.cfg := figures .cfg (by decide)
  have latch (t : State) (same : t.cfg = s.figuresRequest.cfg) : t.classLatch = s.classLatch :=
    State.classLatch_congr (same.trans cfg)
  unfold State.cycleConditions
  dsimp only
  rw [State.tellMarker_acts, State.tellMarker_acts, State.tellMarker_acts, latch _ rfl, latch _ (tells _ _ _ _),
    latch _ ((tells _ _ _ _).trans (tells _ _ _ _)), markers, (State.figuresRequest_spec s).1]
  simp only [State.cycleFollowed, List.filterMap_append, List.filterMap_map, List.append_assoc]
  refine congrArg (s.acts ++ ·) (congrArg (_ ++ ·) ?_)
  rw [filterMap_cons_toList, filterMap_cons_toList, filterMap_cons_toList, List.filterMap_nil, List.append_nil]

/-- The keys of the nine conditions. -/
theorem State.cycleFollowed_keys (s : State) (f : ResultFlags) : ((s.cycleFollowed f).map Followed.key).Perm cycleKeys := by
  rw [State.cycleFollowed, List.map_append, List.map_map]
  exact List.perm_append_comm

theorem State.cycleFollowed_ordinary (s : State) (f : ResultFlags) :
    ∀ x ∈ s.cycleFollowed f, x.cls ≠ .conditionTableFull := by
  intro x mem
  obtain mem | mem := List.mem_append.mp mem
  · obtain ⟨n, -, rfl⟩ := List.mem_map.mp mem
    nofun
  · simp only [List.mem_cons, List.not_mem_nil, or_false] at mem
    obtain rfl | rfl | rfl := mem <;> nofun

/-- The acts that a working module's cycle tells the table. -/
theorem State.dispatchCycle_acts (quiet : s.acts = []) : s.dispatchCycle.acts =
    (s.cycleFollowed (s.cycleResult s.gasFigures).flags).filterMap (Followed.act s.classLatch) := by
  have written (t : State) (r : DispatchResult) : (t.writeResult r).acts = t.acts := rfl
  have put (t : State) (e : Int) (n : Nat) (o : Bool) : (t.integrateExport e n o).acts = t.acts := by
    unfold State.integrateExport
    split
    · rfl
    · exact State.setQueues_acts _
  have published : s.cyclePublished.acts =
      (s.cycleFollowed (s.cycleResult s.gasFigures).flags).filterMap (Followed.act s.classLatch) := by
    unfold State.cyclePublished
    dsimp only
    rw [put, written, State.cycleTold_acts, quiet, List.nil_append]
  have queued := State.cyclePublished_queued (s := s)
  have delivered := State.deliver_changes (s := s.cycleQueued) (s.cycleResult s.gasFigures).request
  rw [State.dispatchCycle_eq, (delivered .marks (by decide)).2, (queued .marks (by decide)).2, published]

end Sys2Proof.Machine
end

section
/-! SUPPORT. A dispatch expiry from its stages, the setpoint line's next frame; settles O35. -/

namespace Sys2Proof.Machine

-- The stacks of threads for every theorem of this section at once would pass the memory limit.
set_option Elab.async false

variable {s t : State} {g : GasFigures} {b : Boiler}

/-! ### The stages, part by part -/

/-- Of the boilers and the Dispatcher the request alone is left after the frames. -/
theorem State.dispatchCycle_rest : ChangesOnly [.dsp, .boilers, .choices] s.cyclePublished s.dispatchCycle := by
  rw [State.dispatchCycle_eq]
  exact (State.cyclePublished_queued.append (State.deliver_changes _)).mono (by decide)

/-- The flags that a cycle leaves are those of the figures request (R25). -/
theorem State.dispatchCycle_gas : s.dispatchCycle.gas = s.figuresRequest.gas := by
  have rest : s.dispatchCycle.gas = s.cyclePublished.gas := State.dispatchCycle_rest .gas (by decide)
  have told (t : State) (marker found : Bool) (c : ConditionClass) : (t.tellMarker marker found c).gas = t.gas := by
    cases marker <;> cases found <;> rfl
  have written (t : State) (r : DispatchResult) : (t.writeResult r).gas = t.gas := rfl
  have put (t : State) (e : Int) (n : Nat) (o : Bool) : (t.integrateExport e n o).gas = t.gas :=
    State.integrateExport_changes e n o .gas (by decide)
  rw [rest]
  unfold State.cyclePublished State.cycleConditions
  dsimp only
  rw [put, written, told, told, told]

/-- The energy of a result in the open interval (R108). -/
theorem State.integrateExport_que (exported : Int) (span : Nat) (steamOver : Bool) :
    (s.que.interval = none → (s.integrateExport exported span steamOver).que = s.que) ∧
      ∀ iv, s.que.interval = some iv → (s.integrateExport exported span steamOver).que =
        { s.que with interval := some { iv with
          computed := iv.computed + exported * span
          flags := { iv.flags with steamOver := iv.flags.steamOver || steamOver } } } := by
  unfold State.integrateExport
  refine ⟨fun none => ?_, fun iv some => ?_⟩
  · rw [none]
  · rw [some]
    exact State.setInterval_que _

/-- The published result in the open interval (R108). -/
theorem State.dispatchCycle_que (s : State) :
    let r := s.cycleResult s.gasFigures
    (s.que.interval = none → s.dispatchCycle.que = s.que) ∧
      ∀ iv, s.que.interval = some iv → s.dispatchCycle.que = { s.que with interval := some { iv with
        computed := iv.computed + r.heat.exported * r.span
        flags := { iv.flags with steamOver := iv.flags.steamOver || r.flags.steamOver } } } := by
  have rest : s.dispatchCycle.que = s.cyclePublished.que := State.dispatchCycle_rest .que (by decide)
  have told (f : ResultFlags) : (s.figuresRequest.cycleConditions f).que = s.que :=
    State.cycleTold_changes (s := s) f .que (by decide)
  have written (t : State) (r : DispatchResult) : (t.writeResult r).que = t.que := rfl
  have added (r : DispatchResult) :=
    State.integrateExport_que (s := (s.figuresRequest.cycleConditions r.flags).writeResult r) r.heat.exported r.span
      r.flags.steamOver
  simp only [written, told] at added
  dsimp only
  rw [rest]
  exact added (s.cycleResult s.gasFigures)

theorem State.gasFigures_standings (s : State) (n : GasSource) : s.gasFigures.standings[n] = s.standing n := by
  simp [State.gasFigures]

/-- The published state's boilers are those before the cycle. -/
theorem State.cycleQueued_boilers : s.cycleQueued.boilers = s.boilers := State.cycleQueued_changes .boilers (by decide)

/-- The allocation that a result gives a boiler. -/
def DispatchResult.allocation (r : DispatchResult) (b : Boiler) : Allocation :=
  { gas := (r.boilers[b]).gas, aux := (r.boilers[b]).aux, idle := (r.boilers[b]).idle }

theorem State.writeResult_allocation (r : DispatchResult) (b : Boiler) :
    (s.writeResult r).dsp.allocations[b] = r.allocation b := by
  simp [State.writeResult, DispatchResult.allocation]

/-- A boiler that the request does not send away keeps its sequencer and takes its figures of the cycle (R41 i). -/
theorem State.dispatchCycle_stays (out : b ∉ (s.cycleResult s.gasFigures).request.boilers) :
    s.dispatchCycle.boilers[b] = s.boilers[b] ∧
      s.dispatchCycle.dsp.allocations[b] = (s.cycleResult s.gasFigures).allocation b := by
  obtain ⟨boiler, allocation⟩ := State.deliver_sameBoiler (s := s.cycleQueued) _ out
  rw [State.dispatchCycle_eq, boiler, allocation, State.cycleQueued_boilers, State.cycleQueued_dsp.2,
    State.writeResult_allocation]
  exact ⟨rfl, rfl⟩

/-! ### The request at its boilers (R55, R75) -/

/-- What the delivery shows of a boiler, the whole event shows. -/
theorem State.dispatchCycle_pair (r : SentRequest) (request : (s.cycleResult s.gasFigures).request = r) (b : Boiler) :
    SamePair s.cycleQueued (s.cycleQueued.deliver r) s s.dispatchCycle.endEvent b := by
  have queued := State.cycleQueued_changes (s := s)
  have after := State.endEvent_changes (s := s.dispatchCycle)
  have same : s.dispatchCycle = s.cycleQueued.deliver r := by rw [State.dispatchCycle_eq, request]
  have boilers : s.dispatchCycle.endEvent.boilers = s.dispatchCycle.boilers := after .boilers (by decide)
  have dsp : s.dispatchCycle.endEvent.dsp = s.dispatchCycle.dsp := after .dsp (by decide)
  refine ⟨queued .osc (by decide), queued .cfg (by decide), by rw [State.cycleQueued_boilers], ?_, ?_⟩
  · rw [boilers, same]
  · rw [dsp, same]

theorem State.dispatchCycle_one {k : ShedKind} (request : (s.cycleResult s.gasFigures).request = .one k b)
    (conf : (s.cfg.boilers[b]).isSome) :
    let t := s.dispatchCycle.endEvent
    (k = .shedSteam ∨ k = .releaseAux ∨ k = .shedShortage ∧ s.auxFitted b = false → Stopped s t b) ∧
      (k = .shedShortage → s.auxFitted b = true → ChangingTo s t b .aux) ∧
      (k = .returnGas → ChangingTo s t b .gas) ∧ ∀ a : Boiler, a ≠ b → t.boilers[a] = s.boilers[a] := by
  have finds := State.request_finds request
  rw [← State.cycleQueued_boilers] at finds
  have cfg : s.cycleQueued.cfg = s.cfg := State.cycleQueued_changes .cfg (by decide)
  have fitted : s.cycleQueued.auxFitted b = s.auxFitted b := by rw [State.auxFitted, State.auxFitted, cfg]
  have pair := State.dispatchCycle_pair _ request b
  refine ⟨fun stops => ?_, fun short aux => ?_, fun back => ?_, fun a ne => ?_⟩
  · rw [← fitted] at stops
    exact (State.takeRequest_stopped finds stops).congr pair
  · subst short
    rw [← fitted] at aux
    exact ((State.takeRequest_gasShed finds).fitted aux).congr pair
  · subst back
    rw [← cfg] at conf
    exact (State.takeRequest_changing finds conf).congr pair
  · have out : a ∉ (s.cycleResult s.gasFigures).request.boilers := by
      rw [request]
      exact fun mem => ne (List.mem_singleton.mp mem)
    have boilers : s.dispatchCycle.endEvent.boilers = s.dispatchCycle.boilers := State.endEvent_changes .boilers (by decide)
    rw [boilers, (State.dispatchCycle_stays out).1]

theorem State.dispatchCycle_all {l : List Boiler} (request : (s.cycleResult s.gasFigures).request = .shedAll l)
    (b : Boiler) :
    let t := s.dispatchCycle.endEvent
    (b ∉ l → t.boilers[b] = s.boilers[b]) ∧
      (b ∈ l → (s.auxFitted b = false → Stopped s t b) ∧ (s.auxFitted b = true → ChangingTo s t b .aux)) := by
  have cfg : s.cycleQueued.cfg = s.cfg := State.cycleQueued_changes .cfg (by decide)
  have fitted : s.cycleQueued.auxFitted b = s.auxFitted b := by rw [State.auxFitted, State.auxFitted, cfg]
  refine ⟨fun out => ?_, fun mem => ?_⟩
  · have boilers : s.dispatchCycle.endEvent.boilers = s.dispatchCycle.boilers := State.endEvent_changes .boilers (by decide)
    rw [boilers, (State.dispatchCycle_stays (by rw [request]; exact out)).1]
  · have pair := State.dispatchCycle_pair _ request b
    have firing : (s.cycleQueued.boilers[b]).state = .firingGas := by
      rw [State.cycleQueued_boilers]
      rw [State.request_all request] at mem
      exact State.mem_gasFiring.mp mem
    have shed : GasShed s.cycleQueued (s.cycleQueued.deliver (.shedAll l)) b := State.inAnyOrder_gasShed mem firing
    rw [← fitted]
    exact ⟨fun none => (shed.unfitted none).congr pair, fun aux => (shed.fitted aux).congr pair⟩

/-! ### The setpoint line (R57, R58) -/

/-- The frames of a cycle on the line, in merit order. -/
theorem State.cycleQueued_line (legal : s.SetpointsLegal) :
    let r := s.cycleResult s.gasFigures
    (s.cycleQueued.SetpointsLegal ∧ s.cycleQueued.dsp.cycle = r.cycle) ∧
      s.cycleQueued.line = (s.meritOrder.filterMap (s.calledFrame r.cycle r.allocation)).foldl lineTakes s.line := by
  have changed := State.cyclePublished_changes (s := s)
  have dsp := State.cyclePublished_dsp (s := s)
  have boilers : s.cyclePublished.boilers = s.boilers := changed .boilers (by decide)
  have cfg : s.cyclePublished.cfg = s.cfg := changed .cfg (by decide)
  have line : s.cyclePublished.line = s.line := by rw [State.line, dsp]; rfl
  have cycle : s.cyclePublished.dsp.cycle = (s.cycleResult s.gasFigures).cycle := by rw [dsp]; rfl
  have table (b : Boiler) : s.cyclePublished.dsp.allocations[b] = (s.cycleResult s.gasFigures).allocation b := by
    rw [dsp, State.writeResult_allocation]
  have published : s.cyclePublished.SetpointsLegal := legal.congr (by rw [dsp]; rfl) (by rw [dsp]; rfl)
  obtain ⟨from_, queued⟩ := foldl_cycleFrame (s := s.cyclePublished) ⟨rfl, rfl, rfl, rfl, published⟩ s.meritOrder
  have called : (s.cyclePublished.calledFrame s.cyclePublished.dsp.cycle fun b => s.cyclePublished.dsp.allocations[b]) =
      s.calledFrame (s.cycleResult s.gasFigures).cycle (s.cycleResult s.gasFigures).allocation := by
    funext b
    rw [State.calledFrame, State.calledFrame, State.called, State.called, State.minimumFiring, State.minimumFiring, boilers,
      cfg, cycle, table]
  rw [called, line] at queued
  exact ⟨⟨from_.legal, from_.cycle.trans cycle⟩, queued⟩

/-- The frames of the boilers that a request sends away. -/
theorem State.deliver_line {r : SentRequest} (legal : s.SetpointsLegal)
    (one : ∀ k b, r = .one k b → k.Finds (s.boilers[b]).state ∧ (s.cfg.boilers[b]).isSome)
    (all : ∀ l, r = .shedAll l → l.Nodup ∧ ∀ b ∈ l, (s.boilers[b]).state = .firingGas) :
    ∃ order : List Boiler, order.Perm r.boilers ∧
      (s.deliver r).line = (order.map (noneFrame s.dsp.cycle)).foldl lineTakes s.line := by
  cases r with
  | nothing => exact ⟨[], .refl _, rfl⟩
  | one k b =>
    obtain ⟨finds, conf⟩ := one k b rfl
    exact ⟨[b], .refl _, State.takeRequest_line legal finds conf⟩
  | shedAll l =>
    obtain ⟨nodup, firing⟩ := all l rfl
    obtain ⟨order, perm, shed⟩ := State.inAnyOrder_allShed nodup firing
    exact ⟨order, perm, shed.line legal⟩

/-- A boiler on a fuel is configured. -/
theorem State.AllocationsLegal.configured_of_finds {k : ShedKind} (legal : s.AllocationsLegal)
    (finds : k.Finds (s.boilers[b]).state) : (s.cfg.boilers[b]).isSome := by
  refine legal.configured b fun off => ?_
  rw [off] at finds
  cases k with
  | shedSteam => obtain h | h := finds <;> cases h
  | shedShortage | releaseAux | returnGas => cases finds

theorem State.dispatchCycle_line (legal : s.AllocationsLegal) (line : s.SetpointsLegal) :
    let r := s.cycleResult s.gasFigures
    ∃ order : List Boiler, order.Perm r.request.boilers ∧ s.dispatchCycle.line =
      (s.meritOrder.filterMap (s.calledFrame r.cycle r.allocation) ++ order.map (noneFrame r.cycle)).foldl lineTakes
        s.line := by
  obtain ⟨⟨queued, cycle⟩, frames⟩ := State.cycleQueued_line line
  have boilers := State.cycleQueued_boilers (s := s)
  have cfg : s.cycleQueued.cfg = s.cfg := State.cycleQueued_changes .cfg (by decide)
  have one (k : ShedKind) (b : Boiler) (request : (s.cycleResult s.gasFigures).request = .one k b) :
      k.Finds (s.cycleQueued.boilers[b]).state ∧ (s.cycleQueued.cfg.boilers[b]).isSome := by
    have finds := State.request_finds request
    rw [boilers, cfg]
    exact ⟨finds, legal.configured_of_finds finds⟩
  have all (l : List Boiler) (request : (s.cycleResult s.gasFigures).request = .shedAll l) :
      l.Nodup ∧ ∀ b ∈ l, (s.cycleQueued.boilers[b]).state = .firingGas := by
    rw [boilers, State.request_all request]
    exact ⟨State.gasFiring_nodup legal.fits.1.1, fun b mem => State.mem_gasFiring.mp mem⟩
  obtain ⟨order, perm, delivered⟩ := State.deliver_line queued one all
  refine ⟨order, perm, ?_⟩
  rw [State.dispatchCycle_eq, delivered, frames, cycle, List.foldl_append]

/-! ### The conditions (R25, R52) -/

/-- A condition followed at a cycle, as the event's end leaves its entry. -/
theorem State.dispatchCycle_follows (work : s.working = true) (legal : s.ConditionsLegal) (room : s.HasRoom cycleKeys)
    {x : Followed} (mem : x ∈ s.cycleFollowed (s.cycleResult s.gasFigures).flags) :
    s.dispatchCycle.endEvent.entryOf x.key =
      (if x.found && !x.marker then s.raise x.cls x.source
        else if x.marker && !x.found then s.endCause x.cls x.source else s).entryOf x.key := by
  have changed := State.dispatchCycle_changes (s := s)
  have keys := s.cycleFollowed_keys (s.cycleResult s.gasFigures).flags
  have distinct : cycleKeys.Nodup := by decide
  exact State.endEvent_follows legal (changed .conditions (by decide)) (changed .clock (by decide))
    (State.dispatchCycle_acts (State.acts_of_working work)) (keys.nodup_iff.mpr distinct) (s.cycleFollowed_ordinary _)
    (State.HasRoom.subperm room keys.subperm) mem

/-! ### The setpoint line's next frame (R58) -/

theorem exec_setpointFrameSent (work : s.working = true) : exec .setpointFrameSent s = .next s.frameSent := by
  refine duringOperation_clean State.frameSent work ?_ ?_ <;>
    · unfold State.frameSent
      split <;> rfl

/-! ### The queued frame (R58 (1)) -/

theorem State.queueFrame_eq (legal : s.SetpointsLegal) (b : Boiler) (f : Option Fuel) (n : Nat) :
    let line := lineTakes (s.dsp.sending, s.dsp.waiting) { boiler := b, fuel := f, demand := n, cycle := s.dsp.cycle }
    s.queueFrame b f n = { s with dsp := { s.dsp with sending := line.1, waiting := line.2 } } := by
  have rest : s.queueFrame b f n = { s with dsp := { s.dsp with
      sending := (s.queueFrame b f n).dsp.sending, waiting := (s.queueFrame b f n).dsp.waiting } } := by
    unfold State.queueFrame
    dsimp only
    split <;> rfl
  dsimp only
  rw [← State.queueFrame_line legal b f n]
  exact rest

/-! ### The obligation -/

/-- What a cycle's flags become, by the standing that its figures show. -/
theorem State.unmeasuredNext_eq (s : State) (n : GasSource) : s.unmeasuredNext n =
    match (s.cycleResult s.gasFigures).figures.standings[n] with
    | .unmeasured => true
    | .counted => false
    | .outOfService | .notDefined => s.gas.unmeasured[n] := by
  have figures : (s.cycleResult s.gasFigures).figures = s.gasFigures := rfl
  rw [figures, State.gasFigures_standings]
  rfl

/-- The requests of a cycle, by their grounds, and the counts (R46, R50, R51). -/
theorem cycle_requests (s : State) (g : GasFigures) :
    let r := s.cycleResult g
    let chosen := (g.lowLow = true ∨ r.flags.shortage = true ∨ r.flags.steamOver = true) ∧ s.gasFiring ≠ [] ∨
      r.flags.steamOver = true ∧ s.auxFiring ≠ []
    (g.lowLow = true → s.gasFiring ≠ [] → r.request = .shedAll s.gasFiring) ∧
    (∀ b, g.lowLow = false → s.gasFiring.getLast? = some b →
      (r.flags.shortage = true → r.request = .one .shedShortage b) ∧
      (r.flags.shortage = false → r.flags.steamOver = true → r.request = .one .shedSteam b)) ∧
    (∀ b, s.gasFiring = [] → r.flags.steamOver = true → s.auxFiring.getLast? = some b →
      r.request = .one .shedSteam b) ∧
    (¬ chosen →
      (s.auxFiring = [] → r.request = .nothing) ∧
      ∀ b, s.auxFiring.getLast? = some b →
        let count := if 0 < r.raised.shortfall then 0 else min ((s.dsp.allocations[b]).idle + 1) 255
        (s.cfg.plant.idleLimit = 0 ∨ count < s.cfg.plant.idleLimit → r.request = .nothing) ∧
        (s.cfg.plant.idleLimit ≠ 0 → s.cfg.plant.idleLimit ≤ count →
          r.request = .one (if (s.cfg.boilers[b]).elim 0 (·.minimum) ≤ r.raised.leftover then .returnGas
            else .releaseAux) b)) ∧
    ∀ b : Boiler,
      ((s.boilers[b]).state ≠ .firingAux → (r.boilers[b]).idle = 0) ∧
      ((s.boilers[b]).state = .firingAux →
        (¬ chosen → r.request.target = some b → (r.boilers[b]).idle = 0) ∧
        (0 < r.raised.shortfall → (r.boilers[b]).idle = 0) ∧
        (r.raised.shortfall = 0 → chosen → (r.boilers[b]).idle = (s.dsp.allocations[b]).idle) ∧
        (r.raised.shortfall = 0 → ¬ chosen → r.request.target ≠ some b →
          (r.boilers[b]).idle = min ((s.dsp.allocations[b]).idle + 1) 255)) := by
  intro r chosen
  have grounds : s.shedRequest g ≠ .nothing ↔ chosen := shedChoice_ne_nothing
  have quiet (none : ¬ chosen) : s.shedRequest g = .nothing := not_not.mp (grounds.not.mpr none)
  have asked (q : SentRequest) (shed : s.shedRequest g = q) (some : q ≠ .nothing) : r.request = q :=
    (State.request_of_shed (by rw [shed]; exact some)).trans shed
  refine ⟨fun low some => asked _ (shedChoice_all low some) nofun,
    fun b low last => ⟨fun short => ?_, fun enough steam => ?_⟩, fun b none steam last => ?_,
    fun none => ⟨fun noAux => ?_, fun b last => ⟨fun below => ?_, fun limit reached => ?_⟩⟩,
    fun b => ⟨State.idle_of_other, fun firing => ⟨fun none target => ?_, State.idle_of_shortfall,
      fun covered some => State.idle_of_chosen firing covered (grounds.mpr some), fun covered none apart => ?_⟩⟩⟩
  · exact asked _ ((shedChoice_gas low last).trans (if_pos short)) nofun
  · exact asked _ ((shedChoice_gas low last).trans ((if_neg (by rw [enough]; decide)).trans (if_pos steam))) nofun
  · exact asked _ ((shedChoice_aux none last).trans (if_pos steam)) nofun
  · exact (State.request_of_none (quiet none)).trans (State.releaseRequest_of_none noAux)
  · refine ((State.request_of_none (quiet none)).trans (State.releaseRequest_of_some (quiet none) last)).trans (if_neg ?_)
    rintro ⟨limit, reached⟩
    obtain zero | below := below
    · exact limit zero
    · exact Nat.not_lt.mpr reached below
  · exact ((State.request_of_none (quiet none)).trans (State.releaseRequest_of_some (quiet none) last)).trans
      (if_pos ⟨limit, reached⟩)
  · exact State.idle_of_target ((congrArg SentRequest.target (State.request_of_none (quiet none))).symm.trans target)
  · refine State.idle_of_kept firing covered (quiet none) fun target => apart ?_
    exact (congrArg SentRequest.target (State.request_of_none (quiet none))).trans target

/-- Settles O35: a due expiry stage by stage; the request by its grounds; the setpoint line frame by frame. -/
theorem dispatchExpiryRunsACycle : Obligations.DispatchExpiryRunsACycle := by
  refine ⟨fun s work => ⟨exec_dispatchExpiry_early work, fun due => ?_⟩, cycle_requests,
    fun s b f n legal => State.queueFrame_eq legal b f n, fun s f work sending => ⟨fun none => ?_, fun g rest some => ?_⟩⟩
  · have published := State.dispatchCycle_published (s := s)
    have after := State.endEvent_changes (s := s.dispatchCycle)
    have dsp : s.dispatchCycle.endEvent.dsp = s.dispatchCycle.dsp := after .dsp (by decide)
    have boilers : s.dispatchCycle.endEvent.boilers = s.dispatchCycle.boilers := after .boilers (by decide)
    have que : s.dispatchCycle.endEvent.que = s.dispatchCycle.que := after .que (by decide)
    have gas : s.dispatchCycle.endEvent.gas = s.dispatchCycle.gas := after .gas (by decide)
    obtain ⟨closed, opened⟩ := State.dispatchCycle_que s
    rw [← dsp] at published
    rw [← que] at closed opened
    refine ⟨_, s.cycleResult s.gasFigures, exec_dispatchExpiry_due work due, congrArg Dispatcher.result published, rfl, rfl,
      rfl, rfl, congrArg Dispatcher.cycle published, congrArg Dispatcher.lastCycle published,
      congrArg Dispatcher.flareDemand published, congrArg Dispatcher.flareStages published,
      congrArg Dispatcher.fraction published, congrArg Dispatcher.markers published, fun nothing => ?_, fun b out => ?_,
      closed, opened, fun n => ?_, fun k b request conf => State.dispatchCycle_one request conf,
      fun l request b => State.dispatchCycle_all request b, fun legal room => ?_, fun legal line => ?_⟩
    · rw [boilers, State.dispatchCycle_eq, nothing]
      exact State.cycleQueued_boilers
    · rw [dsp]
      exact (State.dispatchCycle_stays out).2
    · refine Eq.trans ?_ (State.unmeasuredNext_eq s n)
      rw [gas, State.dispatchCycle_gas]
      exact (State.figuresRequest_spec s).2 n
    · have follows {x : Followed} := State.dispatchCycle_follows (x := x) work legal room
      refine ⟨follows (List.mem_append_right _ (.head _)), follows (List.mem_append_right _ (.tail _ (.head _))),
        follows (List.mem_append_right _ (.tail _ (.tail _ (.head _)))), fun n => ?_⟩
      have source := follows (List.mem_append_left _ (List.mem_map_of_mem (List.mem_finRange n)))
      rw [State.sourceFollowed, State.unmeasuredNext_eq] at source
      exact source
    · obtain ⟨order, perm, frames⟩ := State.dispatchCycle_line legal line
      refine ⟨order, perm, ?_⟩
      rw [dsp]
      exact frames
  · rw [exec_setpointFrameSent work, State.frameSent, sending, none]
  · rw [exec_setpointFrameSent work, State.frameSent, sending, some]

end Sys2Proof.Machine
end

section
/-! SUPPORT. START_GAS and START_AUX, by their operand, the sequencer and the plant around the boiler; settles O39. -/

namespace Sys2Proof.Machine

-- The stacks of threads for every theorem of this section at once would pass the memory limit.
set_option Elab.async false

variable {s : State} {b : Boiler} {c : BoilerConfig} {f : Fuel} {v : Byte}

/-! ### The operand of a boiler command (R64) -/

theorem forBoiler_none {g : Boiler → Served} (out : v = 0 ∨ 8 < v.toNat) : forBoiler s v g = refuse s .badField := by
  rw [forBoiler, numbered_boiler_none out]

theorem forBoiler_some {g : Boiler → Served} (number : v.toNat = b.val + 1) : forBoiler s v g = g b := by
  rw [forBoiler, numbered_eq_some.mpr number]

/-! ### The two start commands as one -/

/-- The start command of a fuel. -/
def startCommand (v : Byte) : Fuel → Instr
  | .gas => .startGas v
  | .aux => .startAux v

/-- Its owner's side. -/
def startOwner (v : Byte) (f : Fuel) (s : State) : Served := forBoiler s v fun b => s.startBoiler b f

theorem owner_startCommand (v : Byte) (f : Fuel) : owner (startCommand v f) = some (startOwner v f) := by
  cases f <;> rfl

theorem State.auxFitted_eq (conf : s.cfg.boilers[b] = some c) : s.auxFitted b = c.auxFitted := by
  rw [State.auxFitted, conf, Option.any_some]

/-! ### The sequencer's answer (R64, R65, R69) -/

/-- LOCKED, by its four grounds (R65). -/
theorem State.startLocked_iff (conf : s.cfg.boilers[b] = some c) : s.startLocked b = true ↔
    s.plantRelease = false ∨ s.indicated (.boilerStatus b) = none ∨
      (∃ i, s.indicated (.boilerStatus b) = some i ∧ (i.localControl = true ∨ i.tripDemand = true)) ∨
      (c.restart = .latched ∧ (s.entryOf { cls := .boilerTrip, source := b.val + 1 }).isSome) := by
  unfold State.startLocked
  rw [State.restartMode_eq conf]
  cases status : s.indicated (.boilerStatus b) with
  | none => simp
  | some i => simp [boilerSource, or_assoc]

theorem State.startBoiler_unconfigured (none : s.cfg.boilers[b] = none) : s.startBoiler b f = refuse s .notFound := by
  rw [State.startBoiler, none]
  rfl

theorem State.startBoiler_busy (conf : s.cfg.boilers[b] = some c) (busy : (s.boilers[b]).state ≠ .off) :
    s.startBoiler b f = refuse s .busy := by
  rw [State.startBoiler, conf, if_neg (by simp), if_pos busy]

/-- A configured boiler that is OFF: aux fuel that is not fitted, then the grounds of LOCKED, then PURGE. -/
theorem State.startBoiler_off (conf : s.cfg.boilers[b] = some c) (off : (s.boilers[b]).state = .off) :
    s.startBoiler b f =
      if f = .aux ∧ c.auxFitted = false then refuse s .badField
      else if s.startLocked b then refuse s .locked
      else done (s.enterPurge b f) := by
  rw [State.startBoiler, conf, if_neg (by simp), if_neg (not_not.mpr off), State.auxFitted_eq conf]
  simp only [Bool.not_eq_true]

/-- Entry to PURGE, its timer toward the later of the purge time and the changeover interval (R69). -/
theorem State.enterPurge_eq (conf : s.cfg.boilers[b] = some c) (f : Fuel) : s.enterPurge b f =
    s.setBoiler b { (s.boilers[b]).halted with
      state := .purge, run := some f
      purgeDue := some (max (s.osc + c.purge) ((s.boilers[b]).lastClose + c.interval)) } := by
  simp only [State.enterPurge, conf]

/-! ### The obligation -/

theorem exec_start_refused {code : Status} (work : s.working = true) (number : v.toNat = b.val + 1)
    (h : s.startBoiler b f = refuse s code) : exec (startCommand v f) s = .next (s.refusedWith code) :=
  exec_refuse (owner_startCommand v f) work ((forBoiler_some number).trans h)

theorem exec_start_locked (work : s.working = true) (number : v.toNat = b.val + 1) (conf : s.cfg.boilers[b] = some c)
    (off : (s.boilers[b]).state = .off) (fitted : f = .aux → c.auxFitted = true) (locked : s.startLocked b = true) :
    exec (startCommand v f) s = .next (s.refusedWith .locked) := by
  refine exec_start_refused work number ?_
  rw [State.startBoiler_off conf off, if_neg fun ⟨aux, unfitted⟩ => by simp [fitted aux] at unfitted, if_pos locked]

theorem exec_start_purges (work : s.working = true) (number : v.toNat = b.val + 1) (conf : s.cfg.boilers[b] = some c)
    (off : (s.boilers[b]).state = .off) (fitted : f = .aux → c.auxFitted = true) (free : s.startLocked b = false) :
    exec (startCommand v f) s = .next (s.enterPurge b f).answeredOk := by
  have kept := State.enterPurge_changes (s := s) b f .marks (by decide)
  have owned : startOwner v f s = done (s.enterPurge b f) := by
    refine (forBoiler_some number).trans ?_
    rw [State.startBoiler_off conf off, if_neg fun ⟨aux, unfitted⟩ => by simp [fitted aux] at unfitted,
      if_neg (by rw [free]; decide)]
  rw [exec_of_owner (owner_startCommand v f)]
  exact serveRequest_done work owned kept.1 kept.2

/-- Settles O39: the operand, the configuration, the sequencer, then the grounds of LOCKED, for either fuel. -/
theorem startEntersPurge : Obligations.StartEntersPurge := by
  intro s v work
  have outside (f : Fuel) (out : v = 0 ∨ 8 < v.toNat) : exec (startCommand v f) s = .next (s.refusedWith .badField) :=
    exec_refuse (owner_startCommand v f) work (forBoiler_none out)
  refine ⟨fun out => ⟨outside .gas out, outside .aux out⟩, fun b number => ⟨fun none => ?_, fun c conf => ?_⟩⟩
  · have absent (f : Fuel) : exec (startCommand v f) s = .next (s.refusedWith .notFound) :=
      exec_start_refused work number (State.startBoiler_unconfigured none)
    exact ⟨absent .gas, absent .aux⟩
  refine ⟨fun busy => ?_, fun off unfitted => ?_, fun off grounds => ?_, fun i off high status remote quiet cleared => ?_⟩
  · have refused (f : Fuel) : exec (startCommand v f) s = .next (s.refusedWith .busy) :=
      exec_start_refused work number (State.startBoiler_busy conf busy)
    exact ⟨refused .gas, refused .aux⟩
  · exact exec_start_refused (f := .aux) work number
      ((State.startBoiler_off conf off).trans (if_pos ⟨rfl, unfitted⟩))
  · have locked := (State.startLocked_iff conf).mpr grounds
    exact ⟨exec_start_locked (f := .gas) work number conf off nofun locked,
      fun fitted => exec_start_locked (f := .aux) work number conf off (fun _ => fitted) locked⟩
  · have free : s.startLocked b = false := by
      rw [← Bool.not_eq_true, State.startLocked_iff conf]
      rintro (low | none | ⟨j, other, held⟩ | ⟨latched, entry⟩)
      · simp [high] at low
      · simp [status] at none
      · cases status.symm.trans other
        simp [remote, quiet] at held
      · simp [cleared latched] at entry
    have purges (f : Fuel) (fitted : f = .aux → c.auxFitted = true) := exec_start_purges work number conf off fitted free
    simp only [State.enterPurge_eq conf] at purges
    exact ⟨purges .gas nofun, fun fitted => purges .aux fun _ => fitted⟩

end Sys2Proof.Machine
end

section
/-! SUPPORT. The timers that open a permit; settles O41. -/

namespace Sys2Proof.Machine

-- The stacks of threads for every theorem of this section at once would pass the memory limit.
set_option Elab.async false

variable {s : State} {b : Boiler} {c : BoilerConfig} {f : Fuel} {due : Nat}

/-- An event of the working module that leaves the marks and the acts alone. -/
theorem duringOperation_unmarked {g : State → State} {l : List Part} (work : s.working = true)
    (kept : ChangesOnly l s (g s)) (away : .marks ∉ l := by decide) : duringOperation s g = .next (g s) :=
  duringOperation_clean g work (kept .marks away).1 (kept .marks away).2

theorem State.expired_early (early : s.osc < due) : s.expired (some due) = false := by
  simpa only [State.expired, Option.any_some, decide_eq_false_iff_not, Nat.not_le] using early

/-! ### The purge timer (R69) -/

theorem State.purgeExpiry_early (timer : (s.boilers[b]).purgeDue = some due) (early : s.osc < due) :
    s.purgeExpiry b = s := by
  refine if_neg fun ⟨_, passed⟩ => ?_
  rw [timer, State.expired_early early] at passed
  cases passed

/-- Run out, it opens the permit of the run request's fuel, sent its minimum firing. -/
theorem State.purgeExpiry_due (conf : s.cfg.boilers[b] = some c) (purging : (s.boilers[b]).state = .purge)
    (timer : (s.boilers[b]).purgeDue = some due) (run : (s.boilers[b]).run = some f) (passed : due ≤ s.osc) :
    s.purgeExpiry b = (s.setBoiler b ({ s.boilers[b] with
      state := .lighting, purgeDue := none, lightOffDue := some (s.osc + c.lightOff) }.openPermit f)).queueFrame b
        (some f) c.minimum := by
  simp only [State.purgeExpiry, purging, timer, State.expired_some passed, run, conf, and_self, if_true,
    State.noticeLightOffStarted, State.minimumFiring, State.setBoiler_cfg, Option.elim_some]

/-! ### The dead timer (R73) -/

theorem State.deadExpiry_early (timer : (s.boilers[b]).deadDue = some due) (early : s.osc < due) :
    s.deadExpiry b = s := by
  refine if_neg fun ⟨_, _, passed⟩ => ?_
  rw [timer, State.expired_early early] at passed
  cases passed

/-- Run out in phase DEAD, it opens the permit of the target fuel, sent its minimum firing. -/
theorem State.deadExpiry_due (conf : s.cfg.boilers[b] = some c) (changing : (s.boilers[b]).state = .changeover)
    (dead : (s.boilers[b]).phase = some .dead) (timer : (s.boilers[b]).deadDue = some due)
    (target : (s.boilers[b]).target = some f) (passed : due ≤ s.osc) :
    s.deadExpiry b = (s.setBoiler b ({ s.boilers[b] with
      phase := some .takeover, deadDue := none, lightOffDue := some (s.osc + c.lightOff) }.openPermit f)).queueFrame b
        (some f) c.minimum := by
  simp only [State.deadExpiry, changing, dead, timer, State.expired_some passed, target, conf, and_self, if_true,
    State.noticeLightOffStarted, State.minimumFiring, State.setBoiler_cfg, Option.elim_some]

/-! ### The obligation -/

/-- Settles O41: each timer before its moment and at it. -/
theorem timersOpenTheirPermit : Obligations.TimersOpenTheirPermit := by
  intro s b c f due work conf
  have purge : exec (.purgeExpiry b) s = .next (s.purgeExpiry b) :=
    duringOperation_unmarked (g := (·.purgeExpiry b)) work (State.purgeExpiry_changes b)
  have dead : exec (.deadExpiry b) s = .next (s.deadExpiry b) :=
    duringOperation_unmarked (g := (·.deadExpiry b)) work (State.deadExpiry_changes b)
  rw [purge, dead]
  refine ⟨fun purging timer run => ⟨fun early => ?_, fun passed => ?_⟩,
    fun changing phase timer target => ⟨fun early => ?_, fun passed => ?_⟩⟩
  · rw [State.purgeExpiry_early timer early]
  · rw [State.purgeExpiry_due conf purging timer run passed]
  · rw [State.deadExpiry_early timer early]
  · rw [State.deadExpiry_due conf changing phase timer target passed]

end Sys2Proof.Machine
end

section
/-! SUPPORT. STOP and CHANGEOVER, by the operand and the sequencer's state; settles O40. -/

namespace Sys2Proof.Machine

-- The stacks of threads for every theorem of this section at once would pass the memory limit.
set_option Elab.async false

variable {s t : State} {b : Boiler} {c : BoilerConfig} {old : Fuel} {v : Byte}

/-! ### A controlled stop (R63) -/

theorem State.controlledStop_boilers : (s.controlledStop b).boilers =
    s.boilers.set b ((s.boilers[b]).stopped s.osc s.clock.reading) := by
  rw [State.controlledStop_eq]
  exact State.leaveNotice_changes b s.boilers[b] .boilers (by decide)
    (s := s.setBoiler b ((s.boilers[b]).stopped s.osc s.clock.reading))

theorem State.controlledStop_line : NoneFrameTaken s (s.controlledStop b) b := by
  intro legal
  have put : (s.setBoiler b ((s.boilers[b]).stopped s.osc s.clock.reading)).SetpointsLegal := legal.congr rfl rfl
  rw [State.controlledStop_eq]
  exact ⟨_, .refl _, State.leaveNotice_line put b s.boilers[b]⟩

/-- Out of PURGE the Dispatcher has no notice. -/
theorem State.controlledStop_purge (purging : (s.boilers[b]).state = .purge) : (s.controlledStop b).dsp = s.dsp := by
  rw [State.controlledStop_eq, State.leaveNotice, purging]
  rfl

/-- A frame queued on a free line starts at once (R58). -/
theorem State.queueFrame_free (free : s.dsp.sending = none) (f : Option Fuel) (n : Nat) :
    (s.queueFrame b f n).dsp.sending = some { boiler := b, fuel := f, demand := n, cycle := s.dsp.cycle } := by
  simp only [State.queueFrame, free]

/-- Out of LIGHTING or FIRING with the line free, NONE and 0 starts at once. -/
theorem State.leaveNotice_free {q : Sequencer} (free : s.dsp.sending = none)
    (burning : q.state = .firingGas ∨ q.state = .firingAux ∨ q.state = .lighting) :
    (s.leaveNotice b q).dsp.sending = some { boiler := b, fuel := none, demand := 0, cycle := s.dsp.cycle } := by
  unfold State.leaveNotice
  obtain gas | aux | lighting := burning
  · rw [gas]
    exact State.queueFrame_free (s := s.setAllocation b _) free none 0
  · rw [aux]
    exact State.queueFrame_free (s := s.setAllocation b _) free none 0
  · rw [lighting]
    exact State.queueFrame_free free none 0

theorem State.controlledStop_free (free : s.dsp.sending = none)
    (burning : (s.boilers[b]).state = .firingGas ∨ (s.boilers[b]).state = .firingAux ∨ (s.boilers[b]).state = .lighting) :
    (s.controlledStop b).dsp.sending = some { boiler := b, fuel := none, demand := 0, cycle := s.dsp.cycle } := by
  rw [State.controlledStop_eq]
  exact State.leaveNotice_free (s := s.setBoiler b _) free burning

theorem State.controlledStop_other {a : Boiler} (ne : a ≠ b) : s.SameBoiler (s.controlledStop b) a := by
  rw [State.controlledStop_eq]
  exact (State.setBoiler_sameBoiler ne _).trans (State.leaveNotice_sameBoiler ne _)

/-! ### STOP (R66) -/

theorem stopOwner_eq (number : v.toNat = b.val + 1) : stopOwner v s =
    if (s.boilers[b]).state.isActive then done (s.controlledStop b)
    else if (s.boilers[b]).state = .tripped then done (s.setBoiler b { s.boilers[b] with run := none })
    else done s := forBoiler_some number

/-- A request answered OK, with the frame of what it did: no region marked, and the table told nothing. -/
theorem exec_done_unmarked {i : Instr} {g : State → Served} {l : List Part} (owned : owner i = some g)
    (work : s.working = true) (served : g s = done t) (kept : ChangesOnly l s t) (away : .marks ∉ l := by decide) :
    exec i s = .next t.answeredOk := by
  rw [exec_of_owner owned]
  exact serveRequest_done work served (kept .marks away).1 (kept .marks away).2

theorem State.answeredOk_hlu (kept : t.hlu = s.hlu) : t.answeredOk.hlu = s.answeredOk.hlu :=
  congrArg (fun h : HostLink => { h with answer := some Status.ok.answer }) kept

theorem exec_stop_active (work : s.working = true) (number : v.toNat = b.val + 1)
    (active : (s.boilers[b]).state.isActive = true) : exec (.stop v) s = .next (s.controlledStop b).answeredOk :=
  exec_done_unmarked rfl work ((stopOwner_eq number).trans (if_pos active)) (State.controlledStop_changes b)

theorem exec_stop_tripped (work : s.working = true) (number : v.toNat = b.val + 1)
    (tripped : (s.boilers[b]).state = .tripped) :
    exec (.stop v) s = .next (s.setBoiler b { s.boilers[b] with run := none }).answeredOk := by
  refine exec_done_unmarked rfl work ((stopOwner_eq number).trans ?_) (State.setBoiler_changes b _)
  rw [if_neg (by rw [tripped]; decide), if_pos tripped]

theorem exec_stop_idle (work : s.working = true) (number : v.toNat = b.val + 1)
    (idle : (s.boilers[b]).state = .off ∨ (s.boilers[b]).state = .lockedOut) : exec (.stop v) s = .next s.answeredOk := by
  refine exec_done_same rfl work ((stopOwner_eq number).trans ?_)
  obtain off | locked := idle
  · rw [off]; rfl
  · rw [locked]; rfl

/-! ### CHANGEOVER (R67, R71) -/

theorem changeoverOwner_eq (number : v.toNat = b.val + 1) : changeoverOwner v s =
    match (s.boilers[b]).state with
    | .firingGas => if s.auxFitted b then done (s.startChangeover b .gas) else refuse s .badField
    | .firingAux => done (s.startChangeover b .aux)
    | _ => refuse s .busy := forBoiler_some number

theorem exec_changeover_busy (work : s.working = true) (number : v.toNat = b.val + 1)
    (gas : (s.boilers[b]).state ≠ .firingGas) (aux : (s.boilers[b]).state ≠ .firingAux) :
    exec (.changeover v) s = .next (s.refusedWith .busy) := by
  refine exec_refuse rfl work ((changeoverOwner_eq number).trans ?_)
  split
  · exact absurd ‹_› gas
  · exact absurd ‹_› aux
  · rfl

theorem exec_changeover_unfitted (work : s.working = true) (number : v.toNat = b.val + 1)
    (conf : s.cfg.boilers[b] = some c) (gas : (s.boilers[b]).state = .firingGas) (unfitted : c.auxFitted = false) :
    exec (.changeover v) s = .next (s.refusedWith .badField) := by
  refine exec_refuse rfl work ((changeoverOwner_eq number).trans ?_)
  rw [gas]
  exact if_neg (by rw [State.auxFitted_eq conf, unfitted]; decide)

/-- Away from the fuel that is fired; the other is fitted where it is aux. -/
theorem exec_changeover (work : s.working = true) (number : v.toNat = b.val + 1) (conf : s.cfg.boilers[b] = some c)
    (firing : (s.boilers[b]).state = old.firing) (fitted : old = .gas → c.auxFitted = true) :
    exec (.changeover v) s = .next (s.startChangeover b old).answeredOk := by
  refine exec_done_unmarked rfl work ((changeoverOwner_eq number).trans ?_) (State.startChangeover_changes b old)
  rw [firing]
  cases old with
  | gas => exact if_pos ((State.auxFitted_eq conf).trans (fitted rfl))
  | aux => rfl

theorem State.startChangeover_boilers (conf : s.cfg.boilers[b] = some c) (old : Fuel) :
    (s.startChangeover b old).boilers = s.boilers.set b ((s.boilers[b]).changing s.osc s.clock.reading c old.other) := by
  rw [State.startChangeover_eq conf]
  exact State.noticeFiringLeft_changes b old .boilers (by decide)
    (s := s.setBoiler b ((s.boilers[b]).changing s.osc s.clock.reading c old.other))

theorem State.startChangeover_allocations (conf : s.cfg.boilers[b] = some c) (old : Fuel) :
    (s.startChangeover b old).dsp.allocations = s.dsp.allocations.set b ((s.dsp.allocations[b]).without old) := by
  rw [State.startChangeover_eq conf]
  exact State.noticeFiringLeft_allocations old

theorem State.startChangeover_line (conf : s.cfg.boilers[b] = some c) (old : Fuel) :
    NoneFramesTaken s (s.startChangeover b old) [b] := by
  intro legal
  have put : (s.setBoiler b ((s.boilers[b]).changing s.osc s.clock.reading c old.other)).SetpointsLegal :=
    legal.congr rfl rfl
  rw [State.startChangeover_eq conf]
  exact ⟨[b], .refl _, State.noticeFiringLeft_line put b old⟩

/-! ### The obligation -/

/-- Settles O40: the operand, then the sequencer's state; a stop and a changeover as sequencer and notice. -/
theorem stopAndChangeover : Obligations.StopAndChangeover := by
  refine ⟨fun s v work out => ⟨exec_refuse rfl work (forBoiler_none out), exec_refuse rfl work (forBoiler_none out)⟩,
    fun s v b work number => ⟨exec_changeover_busy work number, exec_stop_idle work number, exec_stop_tripped work number,
      fun active => ?_⟩,
    fun s v b c work number conf => ⟨exec_changeover_unfitted work number conf, fun old firing fitted => ?_⟩⟩
  · obtain ⟨-, -, -, -, gasLeft, auxLeft⟩ := State.controlledStop_stopped (s := s) (b := b)
    exact ⟨_, exec_stop_active work number active,
      State.answeredOk_hlu (State.controlledStop_changes b .hlu (by decide)), State.controlledStop_boilers,
      State.controlledStop_purge, gasLeft, auxLeft, fun a ne => (State.controlledStop_other ne).2,
      State.controlledStop_line, fun burning free => State.controlledStop_free free burning⟩
  · have boilers := State.startChangeover_boilers conf old
    have allocations := State.startChangeover_allocations conf old
    unfold Sequencer.changing at boilers
    refine ⟨_, exec_changeover work number conf firing fitted,
      State.answeredOk_hlu (State.startChangeover_changes b old .hlu (by decide)), fun reference => ?_,
      fun reference => ?_, fun gas => ?_, fun aux => ?_, State.startChangeover_line conf old⟩
    · rw [reference] at boilers
      exact boilers
    · rw [reference] at boilers
      exact boilers
    · rw [gas] at allocations ⊢
      exact allocations
    · rw [aux] at allocations ⊢
      exact allocations

end Sys2Proof.Machine
end

section
/-! SUPPORT. A state that meets the law of the permits as stated, and whose next step breaks it: a dead timer left running
in FIRING, where the law asks nothing of it, still runs when phase DEAD begins; refutes O8. -/

namespace Sys2Proof.Machine

-- The stacks of threads for every theorem of this section at once would pass the memory limit.
set_option Elab.async false

/-- A boiler whose changeover interval of 2 s counts from the confirmation (R72). -/
def confirmingBoiler : BoilerConfig :=
  { minimum := 1, maximum := 1, ramp := 1, yield := 500, auxFitted := true, purge := 30, lightOff := 5, interval := 2,
    reference := .fromConfirm, window := 600, tripLimit := 1, restart := .autoRestart }

/-- Boiler 1 on aux fuel with a dead timer that has already run out, which no run of the module reaches. -/
def staleDeadTimer : State :=
  { State.reset with
    boilers := State.reset.boilers.set 0 { Sequencer.start 0 with state := .firingAux, deadDue := some 0 }
    cfg := { State.reset.cfg with boilers := State.reset.cfg.boilers.set 0 (some confirmingBoiler) }
    pending := [.changeover 1] }

theorem staleDeadTimer_permitsLegal : staleDeadTimer.PermitsLegal :=
  ⟨by decide, by decide, by decide, by decide, by decide, by decide⟩

/-- Its CHANGEOVER leaves the dead timer as it was. -/
theorem staleDeadTimer_step : ∃ t, step staleDeadTimer = .next t ∧ t.cfg.boilers[(0 : Boiler)] = some confirmingBoiler ∧
    (t.boilers[(0 : Boiler)]).state = .changeover ∧ (t.boilers[(0 : Boiler)]).phase = some .dead ∧
    (t.boilers[(0 : Boiler)]).deadDue = some 0 ∧ (t.boilers[(0 : Boiler)]).lastClose = 0 := by
  let s : State := { staleDeadTimer with pending := [] }
  have conf : s.cfg.boilers[(0 : Boiler)] = some confirmingBoiler := by decide
  have firing : (s.boilers[(0 : Boiler)]).state = Fuel.aux.firing := by decide
  have own : (s.startChangeover 0 .aux).boilers[(0 : Boiler)] = _ := State.startChangeover_boiler conf .aux
  have cfg : (s.startChangeover 0 .aux).cfg = s.cfg := State.startChangeover_changes 0 .aux .cfg (by decide)
  refine ⟨(s.startChangeover 0 .aux).answeredOk, exec_changeover (s := s) (by decide) (by decide) conf firing nofun,
    (congrArg (·.boilers[(0 : Boiler)]) cfg).trans conf, ?_⟩
  have same : (s.startChangeover 0 .aux).answeredOk.boilers = (s.startChangeover 0 .aux).boilers := rfl
  rw [same, own]
  decide

/-- Refutes O8: CHANGEOVER begins phase DEAD with a stale dead timer that ends before the changeover interval. -/
theorem not_permitsLawKept : ¬ Obligations.PermitsLawKept := by
  rintro ⟨kept, -⟩
  obtain ⟨t, step, conf, changing, dead, timer, close⟩ := staleDeadTimer_step
  have after := (kept staleDeadTimer t staleDeadTimer_permitsLegal step).dead 0 confirmingBoiler conf 0 timer changing dead
  rw [close] at after
  exact absurd after (by decide)

end Sys2Proof.Machine
end

section
/-! SUPPORT. Raises at an event that finds little room in the table: what a raise leaves of other entries where it is lost,
which of two raises is kept, and raises that all find room (R154, R155). -/

namespace Sys2Proof.Machine

-- The stacks of threads for every theorem of this section at once would pass the memory limit.
set_option Elab.async false

variable {s t u : State} {j k : ConditionKey} {m n : LatchMode}

/-! ### Room for one key -/

theorem State.hasRoom_congr (table : u.conditions = s.conditions) (keys : List ConditionKey) :
    u.HasRoom keys ↔ s.HasRoom keys := by
  rw [State.HasRoom, State.HasRoom, State.absent_congr fun k _ => State.entryOf_congr table k,
    State.freePlaces_congr table]

theorem State.hasRoom_of_entry (h : (s.entryOf k).isSome) : s.HasRoom [k] := by
  rw [State.HasRoom, List.filter_cons_of_neg (by simp [Option.isSome_iff_ne_none.mp h])]
  exact Nat.zero_le _

theorem State.hasRoom_of_free {i : Fin 128} (free : s.freePlace = some i) (k : ConditionKey) : s.HasRoom [k] :=
  (List.length_filter_le _ _).trans (by rw [List.length_singleton, ← State.freePlaces_taken free (newEntry k .latching 0)]; omega)

/-- Without room for a key that has no entry, no place is free. -/
theorem State.freePlace_of_no_room (full : ¬ s.HasRoom [k]) : s.freePlace = none := by
  cases free : s.freePlace with
  | none => rfl
  | some i => exact absurd (State.hasRoom_of_free free k) full

/-- Where one key has no room, another has it by an entry alone. -/
theorem State.entry_of_tight (full : ¬ s.HasRoom [k]) (room : s.HasRoom [j]) : (s.entryOf j).isSome := by
  cases entry : s.entryOf j with
  | some e => rfl
  | none =>
    obtain ⟨i, free⟩ := State.freePlace_of_room room (State.entryOf_eq_none.mp entry)
    exact absurd (State.hasRoom_of_free free k) full

/-! ### A raise leaves the entries of other keys, found room or not -/

theorem State.entryOf_raiseTableFull (legal : s.ConditionsLegal) (ne : k ≠ conditionTableFullKey) :
    s.raiseTableFull.entryOf k = s.entryOf k := by
  have after := legal.raiseTableFull
  have old (e : ConditionEntry) (held : s.conditions[fullPlace] = some e) : e.key ≠ k := fun own =>
    ne (own.symm.trans ((legal.place fullPlace e held).mp rfl))
  unfold State.raiseTableFull at after ⊢
  dsimp only at after ⊢
  split
  · next none =>
      rw [none] at after
      exact State.entryOf_setPlace_other legal after old fun e same => by cases same; exact ne.symm
  · next e held =>
      rw [held] at after
      exact State.entryOf_setPlace_other legal after old fun f same => by cases same; exact old e held

theorem State.entryOf_raiseWith_other (legal : s.ConditionsLegal) (ordinary : j ≠ conditionTableFullKey) (other : j ≠ k)
    (ne : k ≠ conditionTableFullKey) (m : LatchMode) : (s.raiseWith j m).entryOf k = s.entryOf k := by
  by_cases room : s.HasRoom [j]
  · rw [State.entryOf_raiseWith legal j ordinary room m k, if_neg other]
  · have absent : s.placeOf j = none := State.entryOf_eq_none.mp (by
      by_contra entry
      exact room (State.hasRoom_of_entry (Option.isSome_iff_ne_none.mpr entry)))
    have lost : s.raiseWith j m = s.raiseTableFull := by
      simp only [State.raiseWith, absent, State.freePlace_of_no_room room]
    rw [lost, State.entryOf_raiseTableFull legal ne]

/-! ### Two raises with room for one -/

/-- With room for `j`, one of the raises of `j` and `k` is kept, in either order. -/
theorem State.raises_reported (legal : s.ConditionsLegal) (first : j ≠ conditionTableFullKey)
    (second : k ≠ conditionTableFullKey) (other : j ≠ k) (room : s.HasRoom [j]) :
    (((s.raiseWith j m).raiseWith k n).Reported j.cls j.source) ∧
      (((s.raiseWith k n).raiseWith j m).Reported j.cls j.source ∨
        ((s.raiseWith k n).raiseWith j m).Reported k.cls k.source) := by
  refine ⟨?_, ?_⟩
  · obtain ⟨e, entry, reported⟩ := State.raiseWith_reported legal room first m
    exact ⟨e, (State.entryOf_raiseWith_other (legal.raiseWith first m) second other.symm first n).trans entry, reported⟩
  · by_cases both : s.HasRoom [k]
    · obtain ⟨e, entry, reported⟩ := State.raiseWith_reported legal both second n
      exact .inr ⟨e, (State.entryOf_raiseWith_other (legal.raiseWith second n) first other second m).trans entry, reported⟩
    · have held : ((s.raiseWith k n).entryOf j).isSome := by
        rw [State.entryOf_raiseWith_other legal second other.symm first n]
        exact State.entry_of_tight both room
      exact .inl (State.raiseWith_reported (legal.raiseWith second n) (State.hasRoom_of_entry held) first m)

/-! ### The acts of an event that left the table alone -/

/-- They are taken one after another, in some order, from a state with the same table. -/
theorem State.endEvent_taken (legal : s.ConditionsLegal) (table : u.conditions = s.conditions) :
    ∃ (l : List ConditionAct) (v : State), l.Perm u.acts ∧ v.ConditionsLegal ∧ v.conditions = s.conditions ∧
      ∀ k, u.endEvent.entryOf k = (l.foldl State.takeAct v).entryOf k := by
  obtain ⟨l, n, perm, eq⟩ := u.takeActs_eq
  refine ⟨l, { u with acts := [], choices := n }, perm, ?_, table, fun k => ?_⟩
  · obtain ⟨unique, place, counted, -⟩ := legal
    rw [← table] at unique place counted
    exact ⟨unique, place, counted, nofun⟩
  · rw [← eq]
    exact State.entryOf_congr (State.writeMarked_changes _ .conditions (by decide)) k

/-- With room for the first of two raises, one of them is kept (R154). -/
theorem State.endEvent_tight (legal : s.ConditionsLegal) (table : u.conditions = s.conditions)
    (told : u.acts = [.raise j m, .raise k n]) (first : j ≠ conditionTableFullKey) (second : k ≠ conditionTableFullKey)
    (other : j ≠ k) (room : s.HasRoom [j]) :
    u.endEvent.Reported j.cls j.source ∨ u.endEvent.Reported k.cls k.source := by
  obtain ⟨l, v, perm, legal, table, entries⟩ := State.endEvent_taken legal table
  obtain ⟨kept, one⟩ := State.raises_reported (m := m) (n := n) legal first second other
    ((State.hasRoom_congr table _).mpr room)
  have shows {key : ConditionKey} (h : (l.foldl State.takeAct v).Reported key.cls key.source) :
      u.endEvent.Reported key.cls key.source := by
    obtain ⟨e, entry, reported⟩ := h
    exact ⟨e, (entries _).trans entry, reported⟩
  rw [told] at perm
  obtain rfl | rfl := List.perm_pair.mp perm
  · exact .inl (shows kept)
  · exact one.imp (shows (key := j)) (shows (key := k))

/-- With room for every act, a raise leaves its key's entry as if it were the only act. -/
theorem State.endEvent_raised (legal : s.ConditionsLegal) (table : u.conditions = s.conditions)
    (clock : u.clock = s.clock) (single : ∀ a ∈ u.acts, a.Single) (nodup : (u.acts.map ConditionAct.key).Nodup)
    (room : s.HasRoomFor u.acts) (told : .raise k m ∈ u.acts) :
    u.endEvent.entryOf k = (s.raiseWith k m).entryOf k ∧ u.endEvent.Reported k.cls k.source := by
  have ordinary : k ≠ conditionTableFullKey := (single _ told).ordinary
  have alone : s.HasRoomFor [.raise k m] :=
    State.HasRoom.subperm room ((List.singleton_sublist.mpr told).filterMap _).subperm
  have entry := (State.endEvent_entryOf legal table clock single nodup room ordinary).1 _ told rfl
  obtain ⟨e, raised, reported⟩ := State.raiseWith_reported legal alone ordinary m
  exact ⟨entry, e, entry.trans raised, reported⟩

end Sys2Proof.Machine
end

section
/-! SUPPORT. The timers that trip a boiler, what the table then reports, and the trip history's ageing; settles O42. -/

namespace Sys2Proof.Machine

-- The stacks of threads for every theorem of this section at once would pass the memory limit.
set_option Elab.async false

variable {s t u v : State} {b : Boiler} {c : BoilerConfig} {cause : TripCause} {due limit : Nat}

/-! ### A trip and the end of its event -/

theorem Tripped.congr (h : Tripped u t b cause limit) (pair : SamePair u t s v b) (clock : u.clock = s.clock) :
    Tripped s v b cause limit := by
  obtain ⟨osc, -, before, after, allocation⟩ := pair
  obtain ⟨idle, closed, lastClose, records, next, run, gasLeft, auxLeft⟩ := h
  rw [← after] at idle closed
  rw [← after, before, osc] at lastClose
  rw [← after, before, osc, clock] at records
  rw [← after] at next
  rw [← after, before] at run
  rw [← allocation, before] at gasLeft auxLeft
  exact ⟨idle, closed, lastClose, records, next, run, gasLeft, auxLeft⟩

/-- The keys of a boiler's two conditions (section 9.1). -/
abbrev tripKey (b : Boiler) : ConditionKey := { cls := .boilerTrip, source := b.val + 1 }
abbrev lockoutKey (b : Boiler) : ConditionKey := { cls := .boilerLockout, source := b.val + 1 }

theorem tripKey_ordinary (b : Boiler) : tripKey b ≠ conditionTableFullKey := key_ordinary (c := .boilerTrip) nofun _

theorem lockoutKey_ordinary (b : Boiler) : lockoutKey b ≠ conditionTableFullKey :=
  key_ordinary (c := .boilerLockout) nofun _

/-- What the end of a trip's event reports, as far as the table has room (R78 iv, R79 ii, R154). -/
structure TripReported (s t : State) (b : Boiler) : Prop where
  tripped : s.HasRoom [tripKey b] → (t.boilers[b]).state = .tripped → t.Reported .boilerTrip (b.val + 1)
  tight : s.HasRoom [tripKey b] → (t.boilers[b]).state = .lockedOut →
    t.Reported .boilerTrip (b.val + 1) ∨ t.Reported .boilerLockout (b.val + 1)
  locked : s.HasRoom [tripKey b, lockoutKey b] → (t.boilers[b]).state = .lockedOut →
    t.Reported .boilerTrip (b.val + 1) ∧ t.Reported .boilerLockout (b.val + 1)

/-- A trip tells the table one raise, or two where it locks out. -/
theorem State.trip_acts (quiet : s.acts = []) (conf : s.cfg.boilers[b] = some c) (cause : TripCause) :
    ∃ m, (((s.trip b cause).boilers[b]).state = .tripped → (s.trip b cause).acts = [.raise (tripKey b) m]) ∧
      (((s.trip b cause).boilers[b]).state = .lockedOut →
        (s.trip b cause).acts = [.raise (tripKey b) m, .raise (lockoutKey b) .latching]) := by
  have told := (State.trip_tripsAt conf cause).told
  rw [quiet, List.nil_append, State.tripTold] at told
  exact ⟨if c.restart = .latched then .latching else .selfClearing,
    fun tripped => told.trans (congrArg (List.cons _) (if_neg (by rw [tripped]; decide))),
    fun locked => told.trans (congrArg (List.cons _) (if_pos locked))⟩

theorem State.trip_reported (quiet : s.acts = []) (conf : s.cfg.boilers[b] = some c) (cause : TripCause)
    (legal : s.ConditionsLegal) : TripReported s (s.trip b cause).endEvent b := by
  have changes := State.trip_changes (s := s) b cause
  have table : (s.trip b cause).conditions = s.conditions := changes .conditions (by decide)
  have clock : (s.trip b cause).clock = s.clock := changes .clock (by decide)
  have boilers : (s.trip b cause).endEvent.boilers = (s.trip b cause).boilers :=
    State.endEvent_changes .boilers (by decide)
  obtain ⟨m, once, twice⟩ := State.trip_acts quiet conf cause
  refine ⟨fun room state => ?_, fun room state => ?_, fun room state => ?_⟩ <;> rw [boilers] at state
  · exact State.endEvent_reported legal room (tripKey_ordinary b) table (once state)
  · exact State.endEvent_tight legal table (twice state) (tripKey_ordinary b) (lockoutKey_ordinary b) (by simp) room
  · have told := twice state
    generalize s.trip b cause = u at told table clock
    have single : ∀ a ∈ u.acts, a.Single := by
      rw [told]
      exact List.forall_mem_cons.mpr ⟨⟨tripKey_ordinary b, nofun⟩, List.forall_mem_singleton.mpr ⟨lockoutKey_ordinary b, nofun⟩⟩
    have nodup : (u.acts.map ConditionAct.key).Nodup := by rw [told]; simp [ConditionAct.key]
    have roomy : s.HasRoomFor u.acts := by rw [told]; exact room
    have raised {k : ConditionKey} {m : LatchMode} (mem : .raise k m ∈ u.acts) :=
      (State.endEvent_raised legal table clock single nodup roomy mem).2
    exact ⟨raised (k := tripKey b) (m := m) (by rw [told]; exact .head _),
      raised (k := lockoutKey b) (m := .latching) (by rw [told]; exact .tail _ (.head _))⟩

/-- A trip at an event of its own. -/
theorem State.trip_endEvent (quiet : s.acts = []) (conf : s.cfg.boilers[b] = some c) (cause : TripCause) :
    let t := (s.trip b cause).endEvent
    Tripped s t b cause c.tripLimit ∧
      (∀ a : Boiler, a ≠ b → t.boilers[a] = s.boilers[a] ∧ t.dsp.allocations[a] = s.dsp.allocations[a]) ∧
      NoneFrameTaken s t b ∧ (s.ConditionsLegal → TripReported s t b) := by
  intro t
  obtain ⟨tripped, line, -, alone⟩ := State.trip_tripsAt conf cause
  have boilers : t.boilers = (s.trip b cause).boilers := State.endEvent_changes .boilers (by decide)
  have dsp : t.dsp = (s.trip b cause).dsp := State.endEvent_changes .dsp (by decide)
  refine ⟨tripped.congr ⟨rfl, rfl, rfl, ?_, ?_⟩ rfl, ?_, ?_, State.trip_reported quiet conf cause⟩
  · rw [boilers]
  · rw [dsp]
  · rw [boilers, dsp]
    exact alone
  · rw [NoneFrameTaken, NoneFramesTaken, dsp]
    exact line

/-! ### The timers (R70, R72, R74) -/

theorem State.lightOffExpiry_due (burning : (s.boilers[b]).state = .lighting ∨
      (s.boilers[b]).state = .changeover ∧ (s.boilers[b]).phase = some .takeover)
    (timer : (s.boilers[b]).lightOffDue = some due) (passed : due ≤ s.osc) :
    s.lightOffExpiry b = s.trip b .lightOffFailed :=
  if_pos ⟨burning, by rw [timer, State.expired_some passed]⟩

theorem State.confirmExpiry_due (changing : (s.boilers[b]).state = .changeover)
    (dead : (s.boilers[b]).phase = some .dead) (awaiting : (s.boilers[b]).awaiting = true)
    (timer : (s.boilers[b]).confirmDue = some due) (passed : due ≤ s.osc) :
    s.confirmExpiry b = s.trip b .valveNotClosed :=
  if_pos ⟨changing, dead, awaiting, by rw [timer, State.expired_some passed]⟩

/-- The oldest entry of the history leaves it at the trip window (R79). -/
theorem State.tripAgeing_eq {e : TripEntry} {rest : List TripEntry} (conf : s.cfg.boilers[b] = some c)
    (history : (s.boilers[b]).history = e :: rest) : s.tripAgeing b =
      if e.second + c.window ≤ s.osc then s.setBoiler b { s.boilers[b] with history := rest } else s := by
  simp only [State.tripAgeing, history, conf, State.aged, decide_eq_true_eq]

/-! ### The obligation -/

/-- Settles O42: each timer's event is the trip, the ageing one entry of the history. -/
theorem timersTripAndAge : Obligations.TimersTripAndAge := by
  intro s b c due work conf passed trip lockout reported
  have quiet := State.acts_of_working work
  have reports {t : State} (h : s.ConditionsLegal → TripReported s t b) : reported t := fun legal =>
    ⟨(h legal).tripped, (h legal).tight, (h legal).locked⟩
  have trips {i : Instr} {g : State → State} {cause : TripCause} (event : exec i s = duringOperation s g)
      (trip : g s = s.trip b cause) : exec i s = .next (s.trip b cause).endEvent := by
    rw [event, duringOperation_running g (State.running_of_working work), trip]
  refine ⟨fun burning timer => ?_, fun changing dead awaiting timer => ?_, fun e rest history => ?_⟩
  · obtain ⟨tripped, alone, line, report⟩ := State.trip_endEvent quiet conf .lightOffFailed
    exact ⟨_, trips (g := (·.lightOffExpiry b)) rfl (State.lightOffExpiry_due burning timer passed), tripped, alone, line,
      reports report⟩
  · obtain ⟨tripped, alone, line, report⟩ := State.trip_endEvent quiet conf .valveNotClosed
    exact ⟨_, trips (g := (·.confirmExpiry b)) rfl (State.confirmExpiry_due changing dead awaiting timer passed), tripped,
      alone, line, reports report⟩
  · have aged : exec (.tripHistoryAgeingExpiry b) s = .next (s.tripAgeing b) :=
      duringOperation_unmarked (g := (·.tripAgeing b)) work (State.tripAgeing_changes b)
    rw [aged, State.tripAgeing_eq conf history]
    exact ⟨fun young => by rw [if_neg (Nat.not_le.mpr young)], fun old => by rw [if_pos old]⟩

end Sys2Proof.Machine
end

section
/-! SUPPORT. Boilers that act one after another at one event: each acts as if alone, whatever the order (R83, R84); and what
one boiler does at either edge of PLANT RELEASE (R78 to R83). -/

namespace Sys2Proof.Machine

-- The stacks of threads for every theorem of this section at once would pass the memory limit.
set_option Elab.async false

variable {s t u w : State} {a b : Boiler} {c : BoilerConfig} {cause : TripCause}
  {f : State → Boiler → State} {told : Boiler → List ConditionAct} {order : List Boiler}

/-! ### One after another -/

/-- What the acts of boilers reach. -/
abbrev boilerParts : List Part := [.dsp, .boilers, .marks, .choices]

/-- Between `s` and `u` boilers have acted, and `b` not. -/
structure Untouched (s u : State) (b : Boiler) : Prop where
  rest : ChangesOnly boilerParts s u
  own : s.SameBoiler u b

/-- The act of one boiler: what it reaches, the boilers it leaves, and what it tells the table. -/
structure BoilerActs (f : State → Boiler → State) (told : Boiler → List ConditionAct) (s : State) : Prop where
  frame : ∀ u b, ChangesOnly boilerParts u (f u b)
  others : ∀ (u : State) (a b : Boiler), a ≠ b → u.SameBoiler (f u b) a
  tells : ∀ u b, Untouched s u b → (f u b).acts = u.acts ++ told b

/-- What holds before boilers act, and is kept by the act of each that has not acted, holds after them. -/
theorem BoilerActs.foldl {motive : List Boiler → State → Prop} (one : BoilerActs f told s)
    (next : ∀ done b u, b ∉ done → Untouched s u b → motive done u → motive (done ++ [b]) (f u b))
    (before : ∀ b, Untouched s u b) (nodup : order.Nodup) (start : motive [] u) : motive order (order.foldl f u) := by
  suffices rest : ∀ (rest done : List Boiler) (u : State), (done ++ rest).Nodup → (∀ b ∈ rest, Untouched s u b) →
      motive done u → motive (done ++ rest) (rest.foldl f u) from
    rest order [] u nodup (fun b _ => before b) start
  intro rest
  induction rest with
  | nil => exact fun done u _ _ h => by rwa [List.append_nil]
  | cons b rest ih =>
    intro done u nodup untouched h
    have split : done ++ b :: rest = done ++ [b] ++ rest := List.append_cons done b rest
    rw [split] at nodup ⊢
    obtain ⟨-, later, apart⟩ := List.nodup_append.mp (split ▸ nodup)
    have new : b ∉ done := fun mem => apart b mem b List.mem_cons_self rfl
    refine ih (done ++ [b]) (f u b) nodup (fun a mem => ?_) (next done b u new (untouched b List.mem_cons_self) h)
    have ne : a ≠ b := fun e => (List.nodup_cons.mp later).1 (e ▸ mem)
    obtain ⟨frame, own⟩ := untouched a (List.mem_cons_of_mem b mem)
    exact ⟨frame.trans (one.frame u b), own.trans (one.others u a b ne)⟩

/-- The boilers of `order` have acted one after another between `s` and `t`, with the acts `early` told before: each acted
on a state that shows it as `s` does, after others that had told of themselves alone. -/
structure BoilersActed (f : State → Boiler → State) (told : Boiler → List ConditionAct) (early : List ConditionAct)
    (s t : State) (order : List Boiler) : Prop where
  rest : ChangesOnly boilerParts s t
  acts : t.acts = early ++ order.flatMap told
  acted : ∀ b ∈ order, ∃ (w : State) (done : List Boiler), Untouched s w b ∧ b ∉ done ∧
    w.acts = early ++ done.flatMap told ∧ (f w b).SameBoiler t b
  idle : ∀ b ∉ order, s.SameBoiler t b

theorem BoilerActs.acted (one : BoilerActs f told s) (before : ∀ b, Untouched s u b) (nodup : order.Nodup) :
    BoilersActed f told u.acts s (order.foldl f u) order := by
  refine one.foldl (motive := fun done t => BoilersActed f told u.acts s t done) (fun done b v new untouched h => ?_) before
    nodup ⟨(before 0).rest, by simp, nofun, fun b _ => (before b).own⟩
  obtain ⟨rest, acts, acted, idle⟩ := h
  refine ⟨rest.trans (one.frame v b), ?_, fun a mem => ?_, fun a out => ?_⟩
  · rw [one.tells v b untouched, acts, List.flatMap_append, List.flatMap_singleton, List.append_assoc]
  · obtain mem | mem := List.mem_append.mp mem
    · obtain ⟨w, earlier, before, out, told, same⟩ := acted a mem
      exact ⟨w, earlier, before, out, told, same.trans (one.others v a b fun e => new (e ▸ mem))⟩
    · rw [List.mem_singleton.mp mem]
      exact ⟨v, done, untouched, new, acts, .refl _ _⟩
  · rw [List.mem_append, List.mem_singleton, not_or] at out
    exact (idle a out.1).trans (one.others v a b out.2)

/-! ### A trip, its boiler configured or not (R78, R79) -/

/-- The trip limit in force; a boiler that is not configured locks out at once. -/
def State.tripLimit (s : State) (b : Boiler) : Nat := (s.cfg.boilers[b]).elim 1 (·.tripLimit)

theorem State.trip_eq_limit (s : State) (b : Boiler) (cause : TripCause) :
    let q := (s.boilers[b]).tripped s.osc s.clock.reading (s.tripLimit b) cause
    let u := ((s.setBoiler b q).leaveNotice b s.boilers[b]).raiseTrip b
    s.trip b cause = if s.tripLimit b ≤ q.history.length then u.tellRaise .boilerLockout (boilerSource b) else u := by
  dsimp only
  simp only [State.trip, State.closePermits_eq, State.setBoiler_same, State.setBoiler_setBoiler, State.setBoiler_cfg,
    State.setBoiler_osc, State.setBoiler_clock, decide_eq_true_eq]
  rfl

theorem State.trip_dsp (s : State) (b : Boiler) (cause : TripCause) : (s.trip b cause).dsp =
    ((s.setBoiler b ((s.boilers[b]).tripped s.osc s.clock.reading (s.tripLimit b) cause)).leaveNotice b s.boilers[b]).dsp := by
  rw [State.trip_eq_limit]
  split <;> rfl

theorem State.trip_boilers (s : State) (b : Boiler) (cause : TripCause) : (s.trip b cause).boilers =
    s.boilers.set b ((s.boilers[b]).tripped s.osc s.clock.reading (s.tripLimit b) cause) := by
  have left := State.leaveNotice_changes b s.boilers[b] .boilers (by decide)
    (s := s.setBoiler b ((s.boilers[b]).tripped s.osc s.clock.reading (s.tripLimit b) cause))
  rw [State.trip_eq_limit]
  split <;> exact left

theorem State.trip_boiler (s : State) (b : Boiler) (cause : TripCause) : (s.trip b cause).boilers[b] =
    (s.boilers[b]).tripped s.osc s.clock.reading (s.tripLimit b) cause := by
  rw [State.trip_boilers]
  simp

theorem State.trip_sameBoiler (ne : a ≠ b) (cause : TripCause) : s.SameBoiler (s.trip b cause) a := by
  have left := (State.setBoiler_sameBoiler (s := s) ne
    ((s.boilers[b]).tripped s.osc s.clock.reading (s.tripLimit b) cause)).trans
      (State.leaveNotice_sameBoiler ne s.boilers[b])
  rw [State.trip_eq_limit]
  split <;> exact left

/-- What a trip tells the table (R78 iv, R79 ii). -/
theorem State.trip_told (s : State) (b : Boiler) (cause : TripCause) : (s.trip b cause).acts =
    s.acts ++ (.raise (tripKey b) (s.restartMode b).latch ::
      if s.tripLimit b ≤ (s.boilers[b]).history.length + 1 then [.raise (lockoutKey b) .latching] else []) := by
  have history : ((s.boilers[b]).tripped s.osc s.clock.reading (s.tripLimit b) cause).history.length =
      (s.boilers[b]).history.length + 1 := List.length_append
  have raised (q : Sequencer) : (((s.setBoiler b q).leaveNotice b s.boilers[b]).raiseTrip b).acts =
      s.acts ++ [.raise (tripKey b) (s.restartMode b).latch] := by
    have left := State.leaveNotice_changes (s := s.setBoiler b q) b s.boilers[b]
    have mode : ((s.setBoiler b q).leaveNotice b s.boilers[b]).restartMode b = s.restartMode b := by
      rw [State.restartMode, show ((s.setBoiler b q).leaveNotice b s.boilers[b]).cfg = s.cfg from left .cfg (by decide)]
      rfl
    rw [State.raiseTrip, mode, State.tell_acts, (left .marks (by decide)).2]
    rfl
  rw [State.trip_eq_limit, history]
  split
  · rw [State.tellRaise_acts, raised, List.append_assoc]
    rfl
  · exact raised _

/-! ### A standing-cause evaluation (R80 to R82) -/

/-- What an evaluation tells the table (R80). -/
def State.causeTold (s : State) (b : Boiler) : List ConditionAct :=
  if (s.boilers[b]).state = .tripped ∨ (s.boilers[b]).state = .lockedOut then
    match (s.boilers[b]).marker, s.standingCause b with
    | true, false => [.endCause (tripKey b)]
    | false, true => [.raise (tripKey b) (s.restartMode b).latch]
    | _, _ => []
  else []

theorem State.evaluateCauses_up (up : ¬((s.boilers[b]).state = .tripped ∨ (s.boilers[b]).state = .lockedOut)) :
    s.evaluateCauses b = s := if_neg up

/-- An evaluation sets its own sequencer and tells its act. -/
theorem State.evaluateCauses_eq (s : State) (b : Boiler) : s.evaluateCauses b =
    { s.setBoiler b (s.evaluateCauses b).boilers[b] with acts := s.acts ++ s.causeTold b } := by
  have still (same : s.evaluateCauses b = s) (quiet : s.causeTold b = []) : s.evaluateCauses b =
      { s.setBoiler b (s.evaluateCauses b).boilers[b] with acts := s.acts ++ s.causeTold b } := by
    rw [same, quiet, List.append_nil, State.setBoiler_self]
  by_cases down : (s.boilers[b]).state = .tripped ∨ (s.boilers[b]).state = .lockedOut
  case neg => exact still (State.evaluateCauses_up down) (if_neg down)
  case pos =>
    cases marked : (s.boilers[b]).marker <;> cases cause : s.standingCause b
    case false.false | true.true =>
      exact still (State.evaluateCauses_same (marked.trans cause.symm)) (by simp only [State.causeTold, marked, cause, ite_self])
    case false.true =>
      rw [State.evaluateCauses_found down marked cause, State.causeTold, if_pos down, marked, cause]
      simp [State.raiseTrip, State.tell, State.setBoiler, State.restartMode, boilerSource]
    case true.false =>
      rw [State.evaluateCauses_gone down marked cause, State.causeTold, if_pos down, marked, cause]
      split
      · rw [State.afterCause_sets, State.setBoiler_same]
        simp [State.clearMarker, State.setBoiler, State.tellEnd, State.tell, boilerSource]
      · simp [State.clearMarker, State.setBoiler, State.tellEnd, State.tell, boilerSource]

theorem State.evaluateCauses_sameBoiler (ne : a ≠ b) : s.SameBoiler (s.evaluateCauses b) a := by
  rw [State.evaluateCauses_eq]
  exact State.setBoiler_sameBoiler ne _

theorem State.evaluateCauses_acts (s : State) (b : Boiler) : (s.evaluateCauses b).acts = s.acts ++ s.causeTold b := by
  rw [State.evaluateCauses_eq]

end Sys2Proof.Machine
end

section
/-! SUPPORT. The fall of PLANT RELEASE: what each boiler does, the frames sent, and what the table is told (R57, R78 to R80,
R83, R84). -/

namespace Sys2Proof.Machine

-- The stacks of threads for every theorem of this section at once would pass the memory limit.
set_option Elab.async false

variable {s t u : State} {a b : Boiler} {c : BoilerConfig}

/-- The key of PLANT_RELEASE_LOST (section 9.1). -/
abbrev releaseLostKey : ConditionKey := { cls := .plantReleaseLost, source := 1 }

theorem releaseLostKey_ordinary : releaseLostKey ≠ conditionTableFullKey := key_ordinary (c := .plantReleaseLost) nofun 1

/-! ### One boiler -/

theorem BoilerState.inactive_cases {x : BoilerState} (inactive : ¬ x.isActive = true) :
    x = .off ∨ x = .tripped ∨ x = .lockedOut := by
  cases x <;> simp [BoilerState.isActive] at inactive ⊢

theorem BoilerState.isActive_up {x : BoilerState} (active : x.isActive = true) :
    x ≠ .off ∧ ¬(x = .tripped ∨ x = .lockedOut) := by
  cases x <;> simp [BoilerState.isActive] at active ⊢

theorem BoilerState.down_not {x : BoilerState} (down : x = .tripped ∨ x = .lockedOut) : x ≠ .off ∧ ¬ x.isActive = true := by
  obtain rfl | rfl := down <;> decide

theorem Sequencer.mayBurn_active {q : Sequencer} (burns : q.mayBurn = true) : q.state.isActive = true := by
  unfold Sequencer.mayBurn at burns
  cases state : q.state <;> simp [state] at burns <;> rfl

/-- The low input is a standing cause (R80). -/
theorem State.standingCause_low (low : s.plantRelease = false) (b : Boiler) : s.standingCause b = true := by
  unfold State.standingCause
  rw [low]
  split
  · rfl
  · exact Bool.or_true _

/-- Boilers that raise BOILER_TRIP at the fall: those that trip, and stopped ones whose marker is clear. -/
abbrev State.FallTrips (s : State) (b : Boiler) : Prop := (s.boilers[b]).state ≠ .off ∧
  ((s.boilers[b]).state = .tripped ∨ (s.boilers[b]).state = .lockedOut → (s.boilers[b]).marker = false)

/-- Boilers that lock out at the fall. -/
abbrev State.FallLocks (s : State) (b : Boiler) : Prop :=
  (s.boilers[b]).state.isActive = true ∧ s.tripLimit b ≤ (s.boilers[b]).history.length + 1

/-- What a boiler tells the table at the fall. -/
def State.fallTold (s : State) (b : Boiler) : List ConditionAct :=
  (if s.FallTrips b then [.raise (tripKey b) (s.restartMode b).latch] else []) ++
    if s.FallLocks b then [.raise (lockoutKey b) .latching] else []

theorem State.releaseLost_active (active : (s.boilers[b]).state.isActive = true) :
    s.releaseLost b = s.trip b .releaseLost := if_pos active

theorem State.releaseLost_inactive (inactive : ¬(s.boilers[b]).state.isActive = true) :
    s.releaseLost b = s.evaluateCauses b := if_neg inactive

theorem State.releaseLost_acts (low : s.plantRelease = false) (b : Boiler) :
    (s.releaseLost b).acts = s.acts ++ s.fallTold b := by
  unfold State.fallTold
  by_cases active : (s.boilers[b]).state.isActive = true
  · obtain ⟨on, up⟩ := BoilerState.isActive_up active
    rw [State.releaseLost_active active, State.trip_told]
    simp [-Fin.getElem_fin, State.FallTrips, State.FallLocks, active, on, up]
  · rw [State.releaseLost_inactive active, State.evaluateCauses_acts]
    obtain off | down := BoilerState.inactive_cases active
    · simp [-Fin.getElem_fin, State.causeTold, State.FallTrips, State.FallLocks, off, BoilerState.isActive]
    · have on := (BoilerState.down_not down).1
      obtain marked | marked := Bool.eq_false_or_eq_true (s.boilers[b]).marker <;>
        simp [-Fin.getElem_fin, State.causeTold, State.FallTrips, State.FallLocks, State.standingCause_low low, active, down, on, marked]

theorem State.releaseLost_sameBoiler (ne : a ≠ b) : s.SameBoiler (s.releaseLost b) a := by
  unfold State.releaseLost
  split
  · exact State.trip_sameBoiler ne _
  · exact State.evaluateCauses_sameBoiler ne

theorem Untouched.fallTold (h : Untouched s u b) : u.fallTold b = s.fallTold b := by
  have cfg : u.cfg = s.cfg := h.rest .cfg (by decide)
  unfold State.fallTold State.FallTrips State.FallLocks State.tripLimit State.restartMode
  rw [h.own.1, cfg]

theorem State.releaseLost_one (low : s.plantRelease = false) : BoilerActs State.releaseLost s.fallTold s where
  frame u b := (State.releaseLost_changes b).mono (by decide)
  others u a b ne := State.releaseLost_sameBoiler ne
  tells u b h := by
    have low' : u.plantRelease = false := Eq.trans (h.rest .plantRelease (by decide)) low
    rw [State.releaseLost_acts low', h.fallTold]

/-- The setpoint line as one boiler reaches the fall: NONE and 0 where it might burn (R57). -/
theorem State.releaseLost_line (legal : s.SetpointsLegal) (b : Boiler) :
    (s.releaseLost b).SetpointsLegal ∧ (s.releaseLost b).dsp.cycle = s.dsp.cycle ∧ (s.releaseLost b).line =
      ((if (s.boilers[b]).mayBurn then [b] else []).map (noneFrame s.dsp.cycle)).foldl lineTakes s.line := by
  by_cases active : (s.boilers[b]).state.isActive = true
  · have dsp := State.trip_dsp s b .releaseLost
    have put : (s.setBoiler b ((s.boilers[b]).tripped s.osc s.clock.reading (s.tripLimit b) .releaseLost)).SetpointsLegal :=
      legal.congr rfl rfl
    rw [State.releaseLost_active active]
    refine ⟨?_, ?_, ?_⟩
    · exact (State.leaveNotice_keeps put (put.queueFrame b none 0) (put.noticeFiringLeft b) s.boilers[b]).congr
        (congrArg Dispatcher.sending dsp) (congrArg Dispatcher.waiting dsp)
    · rw [dsp]
      exact State.leaveNotice_keeps (s := s.setBoiler b _) (p := fun t => t.dsp.cycle = s.dsp.cycle) rfl (State.queueFrame_cycle none 0)
        State.noticeFiringLeft_cycle s.boilers[b]
    · rw [State.line, dsp]
      exact State.leaveNotice_line put b s.boilers[b]
  · have dsp : (s.evaluateCauses b).dsp = s.dsp := State.evaluateCauses_changes b .dsp (by decide)
    rw [State.releaseLost_inactive active, State.line, dsp, if_neg fun burns => active (Sequencer.mayBurn_active burns)]
    exact ⟨legal.congr (by rw [dsp]) (by rw [dsp]), rfl, rfl⟩

/-! ### Every boiler -/

/-- The boilers that are not OFF, which the fall reaches. -/
def State.notOff (s : State) : List Boiler := (List.finRange 8).filter fun b => decide ((s.boilers[b]).state ≠ .off)

theorem State.mem_notOff : b ∈ s.notOff ↔ (s.boilers[b]).state ≠ .off := by simp [State.notOff]

/-- The fall tells of the input, then takes the boilers that are not OFF in some order. -/
theorem State.releaseFall_eq (s : State) : ∃ (order : List Boiler) (u : State), order.Perm s.notOff ∧ order.Nodup ∧
    (∀ b, Untouched s u b) ∧ u.acts = s.acts ++ [.raise releaseLostKey .selfClearing] ∧ u.dsp = s.dsp ∧
    s.releaseFall = order.foldl State.releaseLost u := by
  obtain ⟨order, n, perm, eq⟩ := (s.tellRaise .plantReleaseLost 1).inAnyOrder_eq s.notOff State.releaseLost
  refine ⟨order, { s.tellRaise .plantReleaseLost 1 with choices := n }, perm,
    perm.nodup_iff.mpr ((List.nodup_finRange 8).filter _), fun b => ⟨?_, rfl, rfl⟩, rfl, rfl, eq⟩
  exact ((State.tellRaise_changes _ _).mono (by decide)).trans ((State.choices_changes n).mono (by decide))

/-- What the fall tells the table before the boilers act. -/
abbrev State.fallFirst (s : State) : List ConditionAct := s.acts ++ [.raise releaseLostKey .selfClearing]

theorem State.releaseFall_acted (low : s.plantRelease = false) : ∃ order : List Boiler, order.Perm s.notOff ∧
    order.Nodup ∧ BoilersActed State.releaseLost s.fallTold s.fallFirst s s.releaseFall order := by
  obtain ⟨order, u, perm, nodup, before, acts, -, eq⟩ := s.releaseFall_eq
  refine ⟨order, perm, nodup, ?_⟩
  rw [eq, State.fallFirst, ← acts]
  exact (State.releaseLost_one low).acted before nodup

/-- The setpoint line once the boilers `done` have reached the fall between `s` and `t`. -/
structure FallFrames (s : State) (done : List Boiler) (t : State) : Prop where
  legal : t.SetpointsLegal
  cycle : t.dsp.cycle = s.dsp.cycle
  line : t.line = ((done.filter fun b => (s.boilers[b]).mayBurn).map (noneFrame s.dsp.cycle)).foldl lineTakes s.line

theorem FallFrames.next {done : List Boiler} (h : FallFrames s done u) (untouched : Untouched s u b) :
    FallFrames s (done ++ [b]) (u.releaseLost b) := by
  obtain ⟨legal, cycle, line⟩ := h
  obtain ⟨legal', cycle', line'⟩ := State.releaseLost_line legal b
  refine ⟨legal', cycle'.trans cycle, ?_⟩
  rw [line', line, cycle, untouched.own.1, List.filter_append, List.map_append, List.foldl_append, List.filter_cons,
    List.filter_nil]

/-- The frames of the boilers that might burn, in some order (R57). -/
theorem State.releaseFall_line (low : s.plantRelease = false) : NoneFramesTaken s s.releaseFall s.burning := by
  intro legal
  obtain ⟨order, u, perm, nodup, before, -, dsp, eq⟩ := s.releaseFall_eq
  have first : FallFrames s [] u := ⟨legal.congr (by rw [dsp]) (by rw [dsp]), by rw [dsp], by rw [State.line, dsp]; rfl⟩
  obtain ⟨-, -, line⟩ := (State.releaseLost_one low).foldl (motive := FallFrames s)
    (fun _ _ _ _ untouched h => h.next untouched) before nodup first
  have burning : (s.notOff.filter fun b => (s.boilers[b]).mayBurn) = s.burning := by
    rw [State.notOff, List.filter_filter]
    refine List.filter_congr fun b _ => ?_
    rw [Bool.and_eq_left_iff_imp, decide_eq_true_eq]
    exact fun burns => (BoilerState.isActive_up (Sequencer.mayBurn_active burns)).1
  refine ⟨order.filter fun b => (s.boilers[b]).mayBurn, ?_, ?_⟩
  · rw [← burning]
    exact perm.filter _
  · rw [eq]
    exact line

/-- A boiler that is not OFF, at the fall, as if it acted alone. -/
theorem State.releaseFall_boiler (low : s.plantRelease = false) (on : (s.boilers[b]).state ≠ .off) :
    ∃ w, Untouched s w b ∧ (w.releaseLost b).SameBoiler s.releaseFall b := by
  obtain ⟨order, perm, -, acted⟩ := State.releaseFall_acted low
  obtain ⟨w, -, untouched, -, -, same⟩ := acted.acted b (perm.mem_iff.mpr (State.mem_notOff.mpr on))
  exact ⟨w, untouched, same⟩

theorem State.releaseFall_off (low : s.plantRelease = false) (off : (s.boilers[b]).state = .off) :
    s.releaseFall.boilers[b] = s.boilers[b] := by
  obtain ⟨order, perm, -, acted⟩ := State.releaseFall_acted low
  exact (acted.idle b fun mem => State.mem_notOff.mp (perm.mem_iff.mp mem) off).1

/-- An active boiler trips (R83). -/
theorem State.releaseFall_tripped (low : s.plantRelease = false) (active : (s.boilers[b]).state.isActive = true)
    (conf : s.cfg.boilers[b] = some c) : Tripped s s.releaseFall b .releaseLost c.tripLimit := by
  obtain ⟨w, ⟨rest, own⟩, same⟩ := State.releaseFall_boiler low (BoilerState.isActive_up active).1
  have cfg : w.cfg = s.cfg := rest .cfg (by decide)
  rw [State.releaseLost_active (by rw [own.1]; exact active)] at same
  exact (State.trip_tripsAt (by rw [cfg]; exact conf) .releaseLost).tripped.congr
    ⟨rest .osc (by decide), cfg, own.1, same⟩ (rest .clock (by decide))

/-- It locks out at its trip limit (R79). -/
theorem State.releaseFall_locks (low : s.plantRelease = false) (active : (s.boilers[b]).state.isActive = true) :
    (s.releaseFall.boilers[b]).state = .lockedOut ↔ s.FallLocks b := by
  obtain ⟨w, ⟨rest, own⟩, same⟩ := State.releaseFall_boiler low (BoilerState.isActive_up active).1
  have cfg : w.cfg = s.cfg := rest .cfg (by decide)
  rw [State.releaseLost_active (by rw [own.1]; exact active)] at same
  have limit : w.tripLimit b = s.tripLimit b := by rw [State.tripLimit, State.tripLimit, cfg]
  rw [same.1, State.trip_boiler, Sequencer.tripped_state, own.1, limit, State.FallLocks, and_iff_right active]
  simp [Sequencer.tripped]

/-- A stopped boiler has its marker set (R80). -/
theorem State.releaseFall_stopped (low : s.plantRelease = false)
    (down : (s.boilers[b]).state = .tripped ∨ (s.boilers[b]).state = .lockedOut) :
    s.releaseFall.boilers[b] = { s.boilers[b] with marker := true } := by
  obtain ⟨on, inactive⟩ := BoilerState.down_not down
  obtain ⟨w, ⟨rest, own⟩, same⟩ := State.releaseFall_boiler low on
  have cause := State.standingCause_low (b := b) (Eq.trans (rest .plantRelease (by decide)) low)
  rw [State.releaseLost_inactive (by rw [own.1]; exact inactive)] at same
  rw [same.1, ← own.1]
  cases marked : (w.boilers[b]).marker with
  | true => rw [State.evaluateCauses_same (marked.trans cause.symm), ← marked]
  | false =>
    rw [State.evaluateCauses_found (by rw [own.1]; exact down) marked cause]
    exact State.setBoiler_same _

/-- No permit stays open (R85). -/
theorem State.releaseFall_closed (low : s.plantRelease = false) (legal : s.PermitsLegal) (b : Boiler) :
    (s.releaseFall.boilers[b]).gasPermit = false ∧ (s.releaseFall.boilers[b]).auxPermit = false := by
  by_cases active : (s.boilers[b]).state.isActive = true
  · obtain ⟨c, conf⟩ := Option.isSome_iff_exists.mp (legal.configured b (BoilerState.isActive_up active).1)
    exact (State.releaseFall_tripped low active conf).closed
  · have closed : (s.boilers[b]).gasPermit = false ∧ (s.boilers[b]).auxPermit = false := by
      rw [← Bool.not_eq_true, ← Bool.not_eq_true, ← not_or]
      exact fun opened => active (Sequencer.mayBurn_active (legal.only b opened))
    obtain off | down := BoilerState.inactive_cases active
    · rw [State.releaseFall_off low off]
      exact closed
    · rw [State.releaseFall_stopped low down]
      exact closed

end Sys2Proof.Machine
end

section
/-! SUPPORT. What an edge of PLANT RELEASE tells the Condition Table, one act for each key, and the table it leaves (R78 to
R80, R83, R84, R154, R156). -/

namespace Sys2Proof.Machine

-- The stacks of threads for every theorem of this section at once would pass the memory limit.
set_option Elab.async false

variable {s t u w : State} {a : ConditionAct} {b : Boiler} {c : BoilerConfig} {k : ConditionKey} {m : LatchMode}
  {l : List ConditionAct} {order : List Boiler} {told : Boiler → List ConditionAct}

/-! ### Raises that all find room -/

theorem ConditionAct.key_of_raised (raises : a.raised? = some k) : a.key = k := by
  cases a <;> cases raises <;> rfl

/-- Room for the keys that the acts raise, each once. -/
theorem State.hasRoomFor_of_keys {keys : List ConditionKey} (room : s.HasRoom keys) (nodup : (l.map ConditionAct.key).Nodup)
    (sub : ∀ a ∈ l, ∀ k, a.raised? = some k → k ∈ keys) : s.HasRoomFor l := by
  have once : (l.filterMap ConditionAct.raised?).Nodup :=
    nodup.sublist (filterMap_sublist_map (fun _ _ raises => (ConditionAct.key_of_raised raises).symm) l)
  refine State.HasRoom.subperm room (List.subperm_of_subset once fun k mem => ?_)
  obtain ⟨a, told, raises⟩ := List.mem_filterMap.mp mem
  exact sub a told k raises

/-- A raise of a key other than that of CONDITION_TABLE_FULL. -/
def ConditionAct.OrdinaryRaise (a : ConditionAct) : Prop := ∃ k m, k ≠ conditionTableFullKey ∧ a = .raise k m

theorem ConditionAct.OrdinaryRaise.single (h : a.OrdinaryRaise) : a.Single := by
  obtain ⟨k, m, ordinary, rfl⟩ := h
  exact ⟨ordinary, nofun⟩

theorem State.entryOf_raises_other (legal : s.ConditionsLegal) (raises : ∀ a ∈ l, a.OrdinaryRaise)
    (nodup : (l.map ConditionAct.key).Nodup) (room : s.HasRoomFor l) (away : ∀ a ∈ l, a.key ≠ k) :
    (l.foldl State.takeAct s).entryOf k = s.entryOf k := by
  induction l generalizing s with
  | nil => rfl
  | cons a l ih =>
    obtain ⟨⟨key, m, ordinary, rfl⟩, rest⟩ := List.forall_mem_cons.mp raises
    obtain ⟨other, away⟩ := List.forall_mem_cons.mp away
    rw [List.map_cons, List.nodup_cons] at nodup
    obtain ⟨new, nodup⟩ := nodup
    have alone : s.HasRoom [key] := State.HasRoom.subperm room ((List.nil_sublist _).cons_cons _).subperm
    have room' := State.HasRoomFor.takeAct room legal ⟨ordinary, nofun⟩ fun b mem =>
      ⟨fun same => new (same ▸ List.mem_map_of_mem mem), (rest b mem).single⟩
    rw [List.foldl_cons, ih (legal.takeAct (a := .raise key m) ordinary) rest nodup room' away, State.takeAct,
      State.entryOf_raiseWith legal key ordinary alone, if_neg (show key ≠ k from other)]

/-- An event whose acts are raises that all find room leaves every other entry, that of CONDITION_TABLE_FULL too. -/
theorem State.endEvent_unraised (legal : s.ConditionsLegal) (table : u.conditions = s.conditions)
    (raises : ∀ a ∈ u.acts, a.OrdinaryRaise) (nodup : (u.acts.map ConditionAct.key).Nodup) (room : s.HasRoomFor u.acts)
    (away : ∀ a ∈ u.acts, a.key ≠ k) : u.endEvent.entryOf k = s.entryOf k := by
  obtain ⟨l, v, perm, legal', table', entries⟩ := State.endEvent_taken legal table
  have room' : v.HasRoomFor l :=
    (State.hasRoom_congr table' _).mpr (State.HasRoom.subperm room (perm.filterMap _).subperm)
  rw [entries, State.entryOf_raises_other legal' (fun a mem => raises a (perm.mem_iff.mp mem))
    ((perm.map _).nodup_iff.mpr nodup) room' fun a mem => away a (perm.mem_iff.mp mem)]
  exact State.entryOf_congr table' k

/-! ### Acts on the keys of boilers -/

/-- Boilers that each tell of their own two keys at most, after the input's key: each key once. -/
theorem boilerTold_nodup (own : ∀ b, ((told b).map ConditionAct.key).Sublist [tripKey b, lockoutKey b])
    (nodup : order.Nodup) : (releaseLostKey :: (order.flatMap told).map ConditionAct.key).Nodup := by
  have keys : (order.flatMap fun b => [tripKey b, lockoutKey b]).Nodup := by
    refine List.nodup_flatMap.mpr ⟨fun b _ => by simp, nodup.imp fun {a b} ne => ?_⟩
    have apart : a.val ≠ b.val := fun e => ne (Fin.ext e)
    simp [Function.onFun, apart.symm]
  have sub : ((order.flatMap told).map ConditionAct.key).Sublist (order.flatMap fun b => [tripKey b, lockoutKey b]) := by
    rw [List.map_flatMap]
    exact List.Sublist.flatMap_right order fun b _ => own b
  refine List.nodup_cons.mpr ⟨fun mem => ?_, keys.sublist sub⟩
  have := sub.subset mem
  simp at this

/-! ### The fall -/

/-- The module at the fall of the input. -/
abbrev State.fallen (s : State) : State := { s with plantRelease := false }

theorem State.mem_fallTold : a ∈ s.fallTold b ↔ s.FallTrips b ∧ a = .raise (tripKey b) (s.restartMode b).latch ∨
    s.FallLocks b ∧ a = .raise (lockoutKey b) .latching := by
  unfold State.fallTold
  rw [List.mem_append, List.mem_ite_nil_right, List.mem_ite_nil_right, List.mem_singleton, List.mem_singleton]

theorem State.fallTold_keys (s : State) (b : Boiler) :
    ((s.fallTold b).map ConditionAct.key).Sublist [tripKey b, lockoutKey b] := by
  unfold State.fallTold
  split <;> split <;> simp [ConditionAct.key]

/-- Every act of the fall is a raise, of its own key: of the input, and of the boilers that raise. -/
theorem State.releaseFall_acts (low : s.plantRelease = false) (quiet : s.acts = []) :
    (∀ a, a ∈ s.releaseFall.acts ↔ a = .raise releaseLostKey .selfClearing ∨ ∃ b, a ∈ s.fallTold b) ∧
      (s.releaseFall.acts.map ConditionAct.key).Nodup := by
  obtain ⟨order, perm, nodup, -, acts, -, -⟩ := State.releaseFall_acted low
  rw [acts, State.fallFirst, quiet, List.nil_append, List.singleton_append]
  refine ⟨fun a => ?_, boilerTold_nodup s.fallTold_keys nodup⟩
  rw [List.mem_cons, List.mem_flatMap]
  refine or_congr_right (exists_congr fun b => and_iff_right_of_imp fun mem => ?_)
  rw [perm.mem_iff, State.mem_notOff]
  obtain ⟨trips, -⟩ | ⟨locks, -⟩ := State.mem_fallTold.mp mem
  · exact trips.1
  · exact (BoilerState.isActive_up locks.1).1

theorem State.releaseFall_raises (low : s.plantRelease = false) (quiet : s.acts = []) (mem : a ∈ s.releaseFall.acts) :
    a.OrdinaryRaise := by
  obtain rfl | ⟨b, mem⟩ := ((State.releaseFall_acts low quiet).1 a).mp mem
  · exact ⟨_, _, releaseLostKey_ordinary, rfl⟩
  · obtain ⟨-, rfl⟩ | ⟨-, rfl⟩ := State.mem_fallTold.mp mem
    · exact ⟨_, _, tripKey_ordinary b, rfl⟩
    · exact ⟨_, _, lockoutKey_ordinary b, rfl⟩

/-- With room for every raise of the fall, each leaves its key's entry as if it were the only act, and no other changes. -/
theorem State.releaseFall_table (quiet : s.acts = []) (legal : s.ConditionsLegal)
    (room : s.HasRoomFor s.fallen.releaseFall.acts) :
    (∀ k m, .raise k m ∈ s.fallen.releaseFall.acts →
      s.fallen.releaseFall.endEvent.entryOf k = (s.raiseWith k m).entryOf k ∧
        s.fallen.releaseFall.endEvent.Reported k.cls k.source) ∧
    ∀ k, (∀ a ∈ s.fallen.releaseFall.acts, a.key ≠ k) → s.fallen.releaseFall.endEvent.entryOf k = s.entryOf k := by
  have changes := State.releaseFall_changes (s := s.fallen)
  have table : s.fallen.releaseFall.conditions = s.conditions := changes .conditions (by decide)
  have clock : s.fallen.releaseFall.clock = s.clock := changes .clock (by decide)
  have nodup := (State.releaseFall_acts (s := s.fallen) rfl quiet).2
  have raises : ∀ a ∈ s.fallen.releaseFall.acts, a.OrdinaryRaise := fun a mem =>
    State.releaseFall_raises (s := s.fallen) rfl quiet mem
  exact ⟨fun k m => State.endEvent_raised legal table clock (fun a mem => (raises a mem).single) nodup room,
    fun k => State.endEvent_unraised legal table raises nodup room⟩

/-! ### The rise -/

/-- The module at the rise of the input. -/
abbrev State.risen (s : State) : State := { s with plantRelease := true }

/-- With the input high, the standing causes are those of the status point (R80). -/
theorem State.standingCause_high (high : s.plantRelease = true) (b : Boiler) :
    s.standingCause b = (s.indicated (.boilerStatus b)).elim true (·.tripDemand) := by
  unfold State.standingCause
  rw [high]
  cases s.indicated (.boilerStatus b) with
  | none => rfl
  | some i => exact Bool.or_false _

theorem Untouched.indicated (h : Untouched s u b) (r : Role) : u.indicated r = s.indicated r := by
  have cfg : u.cfg = s.cfg := h.rest .cfg (by decide)
  have points : u.points = s.points := h.rest .points (by decide)
  unfold State.indicated State.valueOf State.slotOf
  rw [cfg, points]

theorem Untouched.standingCause (h : Untouched s u b) : u.standingCause b = s.standingCause b := by
  have release : u.plantRelease = s.plantRelease := h.rest .plantRelease (by decide)
  unfold State.standingCause
  rw [h.indicated, release]

theorem Untouched.restartMode (h : Untouched s u b) : u.restartMode b = s.restartMode b := by
  have cfg : u.cfg = s.cfg := h.rest .cfg (by decide)
  rw [State.restartMode, State.restartMode, cfg]

theorem Untouched.causeTold (h : Untouched s u b) : u.causeTold b = s.causeTold b := by
  unfold State.causeTold
  rw [h.own.1, h.standingCause, h.restartMode]

theorem State.evaluateCauses_one (s : State) : BoilerActs State.evaluateCauses s.causeTold s where
  frame u b := (State.evaluateCauses_changes b).mono (by decide)
  others u a b ne := State.evaluateCauses_sameBoiler ne
  tells u b h := by rw [State.evaluateCauses_acts, h.causeTold]

theorem State.causeTold_keys (s : State) (b : Boiler) :
    ((s.causeTold b).map ConditionAct.key).Sublist [tripKey b, lockoutKey b] := by
  unfold State.causeTold
  split
  · split <;> simp [ConditionAct.key]
  · exact List.nil_sublist _

/-- The rise tells of the input, then takes the eight boilers. -/
theorem State.releaseRise_acted (s : State) : BoilersActed State.evaluateCauses s.causeTold
    (s.acts ++ [.endCause releaseLostKey]) s s.releaseRise (List.finRange 8) :=
  s.evaluateCauses_one.acted (u := s.tellEnd .plantReleaseLost 1)
    (fun _ => ⟨(State.tellEnd_changes _ _).mono (by decide), rfl, rfl⟩) (List.nodup_finRange 8)

/-! ### An evaluation at the rise is the one that the boiler alone would make -/

/-- The end of a cause reads and writes the table, at the present clock reading. -/
theorem State.endCause_conditions (table : w.conditions = s.conditions) (clock : w.clock = s.clock) (c : ConditionClass)
    (n : Nat) : (w.endCause c n).conditions = (s.endCause c n).conditions := by
  have full {v x : State} (table : v.conditions = x.conditions) (clock : v.clock = x.clock) :
      v.endTableFull.conditions = x.endTableFull.conditions := by
    unfold State.endTableFull
    rw [table]
    split
    · split
      · rw [State.setPlace_conditions, State.setPlace_conditions, table, clock]
      · exact table
    · exact table
  have removed (i : Fin 128) : (w.removeEntry i).conditions = (s.removeEntry i).conditions := by
    have cleared : (w.setPlace i none).conditions = (s.setPlace i none).conditions := by
      rw [State.setPlace_conditions, State.setPlace_conditions, table]
    have free : w.freePlace = s.freePlace := by rw [State.freePlace, State.freePlace, table]
    unfold State.removeEntry
    rw [free]
    dsimp only
    split
    · exact full cleared clock
    · exact cleared
  unfold State.endCause State.placeOf
  rw [table]
  split
  · exact table
  · split
    · exact table
    · split
      · exact table
      · split
        · exact removed _
        · split
          · exact removed _
          · rw [State.setPlace_conditions, State.setPlace_conditions, table, clock]

/-- The entry that a LATCHED-mode boiler looks for, where the boilers before it told of other keys. -/
theorem Untouched.clearMarker_entry (h : Untouched s w b) (quiet : s.acts = []) (away : ∀ a ∈ w.acts, a.key ≠ tripKey b) :
    (w.clearMarker b).entryAfterActs (tripKey b) = (s.clearMarker b).entryAfterActs (tripKey b) := by
  have own (v : State) (away : ∀ a ∈ v.acts, a.key ≠ tripKey b) : (v.clearMarker b).entryAfterActs (tripKey b) =
      ((v.clearMarker b).endCause .boilerTrip (b.val + 1)).entryOf (tripKey b) := by
    have told : (v.clearMarker b).acts.filter (fun a => decide (a.key = tripKey b)) = [.endCause (tripKey b)] := by
      have acts : (v.clearMarker b).acts = v.acts ++ [.endCause (tripKey b)] := rfl
      have none : v.acts.filter (fun a => decide (a.key = tripKey b)) = [] :=
        List.filter_eq_nil_iff.mpr fun a mem => by simpa using away a mem
      rw [acts, List.filter_append, none]
      simp [ConditionAct.key]
    rw [State.entryAfterActs, told]
    rfl
  rw [own w away, own s (by rw [quiet]; nofun)]
  exact State.entryOf_congr (State.endCause_conditions (w := w.clearMarker b) (s := s.clearMarker b)
    (h.rest .conditions (by decide)) (h.rest .clock (by decide)) _ _) _

/-- What follows the end of a cause reads the boiler, its figures, its status and that entry. -/
theorem State.afterCause_congr (own : w.boilers[b] = s.boilers[b]) (cfg : w.cfg = s.cfg) (osc : w.osc = s.osc)
    (status : w.indicated (.boilerStatus b) = s.indicated (.boilerStatus b))
    (entry : w.entryAfterActs (tripKey b) = s.entryAfterActs (tripKey b)) :
    (w.afterCause b).boilers[b] = (s.afterCause b).boilers[b] := by
  have mode : w.restartMode b = s.restartMode b := by rw [State.restartMode, State.restartMode, cfg]
  have released : (w.release b).boilers[b] = (s.release b).boilers[b] := by
    rw [State.release, State.release, State.setBoiler_same, State.setBoiler_same, own]
  have purged (f : Fuel) : (w.enterPurge b f).boilers[b] = (s.enterPurge b f).boilers[b] := by
    unfold State.enterPurge
    rw [cfg]
    split
    · exact own
    · rw [State.setBoiler_same, State.setBoiler_same, own, osc]
  cases restart : s.restartMode b with
  | latched =>
    have entry : w.entryAfterActs { cls := .boilerTrip, source := boilerSource b } =
        s.entryAfterActs { cls := .boilerTrip, source := boilerSource b } := entry
    rw [State.afterCause_latched (mode.trans restart), State.afterCause_latched restart, entry]
    by_cases gone : (s.entryAfterActs { cls := .boilerTrip, source := boilerSource b }).isNone = true
    · rw [if_pos gone, if_pos gone, released]
    · rw [if_neg gone, if_neg gone, own]
  | autoRestart =>
    unfold State.afterCause
    rw [mode, restart, own, status]
    dsimp only
    cases (s.boilers[b]).run with
    | none => exact released
    | some f =>
      dsimp only
      by_cases control : (s.indicated (.boilerStatus b)).any (·.localControl) = true
      · rw [if_pos control, if_pos control, released]
      · rw [if_neg control, if_neg control, purged]

theorem Untouched.evaluateCauses (h : Untouched s w b) (quiet : s.acts = []) (away : ∀ a ∈ w.acts, a.key ≠ tripKey b) :
    (w.evaluateCauses b).boilers[b] = (s.evaluateCauses b).boilers[b] := by
  have own : w.boilers[b] = s.boilers[b] := h.own.1
  have cleared : (w.clearMarker b).boilers[b] = (s.clearMarker b).boilers[b] := by
    rw [State.clearMarker, State.clearMarker, State.tellEnd_boilers, State.tellEnd_boilers, State.setBoiler_same,
      State.setBoiler_same, own]
  by_cases down : (s.boilers[b]).state = .tripped ∨ (s.boilers[b]).state = .lockedOut
  case neg => rw [State.evaluateCauses_up down, State.evaluateCauses_up (by rwa [own]), own]
  case pos =>
    have down' : (w.boilers[b]).state = .tripped ∨ (w.boilers[b]).state = .lockedOut := by rwa [own]
    have marker : (w.boilers[b]).marker = (s.boilers[b]).marker := by rw [own]
    have standing := h.standingCause
    cases marked : (s.boilers[b]).marker <;> cases cause : s.standingCause b
    case false.false | true.true =>
      rw [State.evaluateCauses_same (marked.trans cause.symm),
        State.evaluateCauses_same ((marker.trans marked).trans (standing.trans cause).symm), own]
    case false.true =>
      rw [State.evaluateCauses_found down marked cause,
        State.evaluateCauses_found down' (marker.trans marked) (standing.trans cause), State.raiseTrip, State.raiseTrip,
        State.tell_boilers, State.tell_boilers, State.setBoiler_same, State.setBoiler_same, own]
    case true.false =>
      rw [State.evaluateCauses_gone down marked cause,
        State.evaluateCauses_gone down' (marker.trans marked) (standing.trans cause), own]
      split
      · exact State.afterCause_congr cleared (h.rest .cfg (by decide)) (h.rest .osc (by decide)) (h.indicated _)
          (h.clearMarker_entry quiet away)
      · exact cleared

theorem State.releaseRise_boiler (quiet : s.acts = []) (b : Boiler) :
    s.releaseRise.boilers[b] = (s.evaluateCauses b).boilers[b] := by
  obtain ⟨w, done, untouched, new, acts, same⟩ := s.releaseRise_acted.acted b (List.mem_finRange b)
  refine same.1.trans (untouched.evaluateCauses quiet fun a mem own => ?_)
  rw [acts, quiet, List.nil_append, List.singleton_append, List.mem_cons, List.mem_flatMap] at mem
  obtain rfl | ⟨d, mem, told⟩ := mem
  · cases congrArg ConditionKey.cls own
  · have key := (s.causeTold_keys d).subset (List.mem_map_of_mem told)
    rw [own] at key
    have apart : b.val ≠ d.val := fun e => new (Fin.ext e ▸ mem)
    simp [apart] at key

/-! ### The table after the rise -/

theorem State.mem_causeTold : a ∈ s.causeTold b ↔
    ((s.boilers[b]).state = .tripped ∨ (s.boilers[b]).state = .lockedOut) ∧
      ((s.boilers[b]).marker = false ∧ s.standingCause b = true ∧ a = .raise (tripKey b) (s.restartMode b).latch ∨
        (s.boilers[b]).marker = true ∧ s.standingCause b = false ∧ a = .endCause (tripKey b)) := by
  unfold State.causeTold
  split
  · next down =>
      obtain marked | marked := Bool.eq_false_or_eq_true (s.boilers[b]).marker <;>
        obtain cause | cause := Bool.eq_false_or_eq_true (s.standingCause b) <;> simp [-Fin.getElem_fin, marked, cause, down]
  · next up => simp [-Fin.getElem_fin, up]

theorem State.releaseRise_acts (quiet : s.acts = []) :
    (∀ a, a ∈ s.releaseRise.acts ↔ a = .endCause releaseLostKey ∨ ∃ b, a ∈ s.causeTold b) ∧
      (s.releaseRise.acts.map ConditionAct.key).Nodup := by
  rw [s.releaseRise_acted.acts, quiet, List.nil_append, List.singleton_append]
  refine ⟨fun a => ?_, boilerTold_nodup s.causeTold_keys (List.nodup_finRange 8)⟩
  rw [List.mem_cons, List.mem_flatMap]
  exact or_congr_right (exists_congr fun b => and_iff_right (List.mem_finRange b))

end Sys2Proof.Machine
end

section
/-! SUPPORT. The two edges of PLANT RELEASE, boilers, frames and table together; settles O43. -/

namespace Sys2Proof.Machine

-- The stacks of threads for every theorem of this section at once would pass the memory limit.
set_option Elab.async false

variable {s : State} {a : ConditionAct} {b : Boiler} {c : BoilerConfig} {tripping locking raising : List Boiler}

/-- The latch mode that a configured boiler gives BOILER_TRIP (R78 iv). -/
theorem State.restartMode_latch (conf : s.cfg.boilers[b] = some c) :
    (s.restartMode b).latch = if c.restart = .latched then .latching else .selfClearing := by
  rw [State.restartMode_eq conf, RestartMode.latch_eq]

/-! ### The fall -/

theorem exec_plantReleaseFall (work : s.working = true) (high : s.plantRelease = true) :
    exec .plantReleaseFall s = .next s.fallen.releaseFall.endEvent := by
  have event : exec .plantReleaseFall s = duringOperation s.fallen State.releaseFall := if_pos high
  exact event.trans (duringOperation_running (s := s.fallen) _ (State.running_of_working work))

/-- With every boiler OFF the fall is its raise. -/
theorem State.fall_allOff (work : s.working = true) (off : ∀ b : Boiler, (s.boilers[b]).state = .off) :
    s.fallen.releaseFall.endEvent = s.fallen.raise .plantReleaseLost 1 := by
  have nobody : s.fallen.notOff = [] := List.filter_eq_nil_iff.mpr fun b _ => by simpa using off b
  have alone : s.fallen.releaseFall = s.fallen.tellRaise .plantReleaseLost 1 :=
    (congrArg (fun l => (s.fallen.tellRaise .plantReleaseLost 1).inAnyOrder l State.releaseLost) nobody).trans
      (State.inAnyOrder_nil _ _)
  rw [alone]
  exact State.endEvent_tellRaise (s := s.fallen) (State.acts_of_working work) (State.marks_of_working work) _ _

/-- The table after a fall with room for its raises. -/
theorem State.fall_reported (quiet : s.acts = []) (legal : s.ConditionsLegal)
    (trips : ∀ b, b ∈ tripping ↔ s.fallen.FallTrips b) (locks : ∀ b, b ∈ locking ↔ s.fallen.FallLocks b)
    (room : s.HasRoom (releaseLostKey :: (tripping.map tripKey ++ locking.map lockoutKey))) :
    let t := s.fallen.releaseFall.endEvent
    t.entryOf releaseLostKey = (s.raise .plantReleaseLost 1).entryOf releaseLostKey ∧ t.Reported .plantReleaseLost 1 ∧
    (∀ b ∈ tripping, ∀ c, s.cfg.boilers[b] = some c → t.entryOf (tripKey b) =
      (s.raiseWith (tripKey b) (if c.restart = .latched then .latching else .selfClearing)).entryOf (tripKey b) ∧
        t.Reported .boilerTrip (b.val + 1)) ∧
    (∀ b ∈ locking, t.entryOf (lockoutKey b) = (s.raise .boilerLockout (b.val + 1)).entryOf (lockoutKey b) ∧
      t.Reported .boilerLockout (b.val + 1)) ∧
    ∀ key, key ∉ releaseLostKey :: (tripping.map tripKey ++ locking.map lockoutKey) → t.entryOf key = s.entryOf key := by
  intro t
  obtain ⟨mem, nodup⟩ := State.releaseFall_acts (s := s.fallen) rfl quiet
  have keys (a : ConditionAct) (told : a ∈ s.fallen.releaseFall.acts) :
      a.key ∈ releaseLostKey :: (tripping.map tripKey ++ locking.map lockoutKey) := by
    obtain rfl | ⟨b, told⟩ := (mem a).mp told
    · exact List.mem_cons_self
    · refine List.mem_cons_of_mem _ (List.mem_append.mpr ?_)
      obtain ⟨own, rfl⟩ | ⟨own, rfl⟩ := State.mem_fallTold.mp told
      · exact .inl (List.mem_map_of_mem ((trips b).mpr own))
      · exact .inr (List.mem_map_of_mem ((locks b).mpr own))
  have roomy : s.HasRoomFor s.fallen.releaseFall.acts :=
    State.hasRoomFor_of_keys room nodup fun a told k raises => ConditionAct.key_of_raised raises ▸ keys a told
  obtain ⟨raised, kept⟩ := State.releaseFall_table quiet legal roomy
  obtain ⟨entry, reported⟩ := raised releaseLostKey .selfClearing ((mem _).mpr (.inl rfl))
  refine ⟨entry, reported, fun b own c conf => ?_, fun b own => ?_, fun key other => kept key fun a told same => ?_⟩
  · rw [← State.restartMode_latch (s := s) conf]
    exact raised _ _ ((mem _).mpr (.inr ⟨b, State.mem_fallTold.mpr (.inl ⟨(trips b).mp own, rfl⟩)⟩))
  · exact raised (lockoutKey b) .latching
      ((mem _).mpr (.inr ⟨b, State.mem_fallTold.mpr (.inr ⟨(locks b).mp own, rfl⟩)⟩))
  · exact other (same ▸ keys a told)

/-! ### The rise -/

theorem exec_plantReleaseRise (work : s.working = true) (low : s.plantRelease = false) :
    exec .plantReleaseRise s = .next s.risen.releaseRise.endEvent := by
  have event : exec .plantReleaseRise s = duringOperation s.risen State.releaseRise := if_neg (by rw [low]; decide)
  exact event.trans (duringOperation_running (s := s.risen) _ (State.running_of_working work))

/-- With every boiler OFF the rise is the end of its cause. -/
theorem State.rise_allOff (work : s.working = true) (off : ∀ b : Boiler, (s.boilers[b]).state = .off) :
    s.risen.releaseRise.endEvent = s.risen.endCause .plantReleaseLost 1 := by
  have alone : s.risen.releaseRise = s.risen.tellEnd .plantReleaseLost 1 :=
    List.foldl_fixed' (fun b => State.evaluateCauses_up (s := s.risen.tellEnd .plantReleaseLost 1) (by
      rw [State.tellEnd_boilers, off b]
      decide)) _
  rw [alone]
  exact State.endEvent_tell (s := s.risen) (State.acts_of_working work) (State.marks_of_working work) _

/-- A stopped boiler's evaluation at the rise (R80 to R82). -/
theorem State.rise_evaluated (quiet : s.acts = []) (conf : s.cfg.boilers[b] = some c)
    (down : (s.boilers[b]).state = .tripped ∨ (s.boilers[b]).state = .lockedOut) :
    CausesEvaluated s.risen (s.risen.evaluateCauses b) b c ∧
      s.risen.releaseRise.boilers[b] = (s.risen.evaluateCauses b).boilers[b] :=
  ⟨State.evaluateCauses_evaluated (s := s.risen) conf down, State.releaseRise_boiler (s := s.risen) quiet b⟩

theorem State.causeTold_single (mem : a ∈ s.causeTold b) : a.Single := by
  obtain ⟨-, ⟨-, -, rfl⟩ | ⟨-, -, rfl⟩⟩ := State.mem_causeTold.mp mem
  · exact ⟨tripKey_ordinary b, nofun⟩
  · exact ⟨tripKey_ordinary b, nofun⟩

/-- With room for the raises of a rise, each act reaches its key's entry as if it were the only one. -/
theorem State.releaseRise_table (quiet : s.acts = []) (legal : s.ConditionsLegal)
    (room : s.HasRoomFor s.risen.releaseRise.acts) {k : ConditionKey} (ne : k ≠ conditionTableFullKey) :
    (∀ a ∈ s.risen.releaseRise.acts, a.key = k → s.risen.releaseRise.endEvent.entryOf k = (s.takeAct a).entryOf k) ∧
      ((∀ a ∈ s.risen.releaseRise.acts, a.key ≠ k) → s.risen.releaseRise.endEvent.entryOf k = s.entryOf k) := by
  obtain ⟨mem, nodup⟩ := State.releaseRise_acts (s := s.risen) quiet
  have changes := State.releaseRise_changes (s := s.risen)
  refine State.endEvent_entryOf legal (changes .conditions (by decide)) (changes .clock (by decide)) (fun a told => ?_)
    nodup room ne
  obtain rfl | ⟨b, told⟩ := (mem a).mp told
  · exact ⟨releaseLostKey_ordinary, nofun⟩
  · exact State.causeTold_single told

theorem State.causeTold_key (mem : a ∈ s.causeTold b) : a.key = tripKey b := by
  obtain ⟨-, ⟨-, -, rfl⟩ | ⟨-, -, rfl⟩⟩ := State.mem_causeTold.mp mem <;> rfl

/-- An act of the rise on a boiler's key is that boiler's. -/
theorem State.releaseRise_own (quiet : s.acts = []) (told : a ∈ s.releaseRise.acts) (own : a.key = tripKey b) :
    a ∈ s.causeTold b := by
  obtain rfl | ⟨d, told⟩ := ((State.releaseRise_acts quiet).1 a).mp told
  · cases congrArg ConditionKey.cls own
  · have same : d = b :=
      Fin.ext (Nat.succ.inj (congrArg ConditionKey.source ((State.causeTold_key told).symm.trans own)))
    exact same ▸ told

/-- A stopped boiler's entry, where its own act alone reaches it: raised, ended, or neither. -/
theorem State.rise_tripEntry {t : State} (conf : s.cfg.boilers[b] = some c)
    (down : (s.boilers[b]).state = .tripped ∨ (s.boilers[b]).state = .lockedOut)
    (hit : ∀ a ∈ s.risen.causeTold b, t.entryOf (tripKey b) = (s.takeAct a).entryOf (tripKey b))
    (miss : (∀ a, a ∉ s.risen.causeTold b) → t.entryOf (tripKey b) = s.entryOf (tripKey b)) :
    t.entryOf (tripKey b) =
      (if (s.boilers[b]).marker = false ∧ s.risen.standingCause b = true then
          s.raiseWith (tripKey b) (if c.restart = .latched then .latching else .selfClearing)
        else if (s.boilers[b]).marker = true ∧ s.risen.standingCause b = false then s.endCause .boilerTrip (b.val + 1)
        else s).entryOf (tripKey b) := by
  by_cases found : (s.boilers[b]).marker = false ∧ s.risen.standingCause b = true
  · rw [if_pos found, ← State.restartMode_latch conf]
    exact hit (.raise (tripKey b) (s.restartMode b).latch) (State.mem_causeTold.mpr ⟨down, .inl ⟨found.1, found.2, rfl⟩⟩)
  · rw [if_neg found]
    by_cases gone : (s.boilers[b]).marker = true ∧ s.risen.standingCause b = false
    · rw [if_pos gone]
      exact hit (.endCause (tripKey b)) (State.mem_causeTold.mpr ⟨down, .inr ⟨gone.1, gone.2, rfl⟩⟩)
    · rw [if_neg gone]
      refine miss fun a told => ?_
      obtain ⟨-, ⟨clear, cause, -⟩ | ⟨marked, clear, -⟩⟩ := State.mem_causeTold.mp told
      · exact found ⟨clear, cause⟩
      · exact gone ⟨marked, clear⟩

/-- The table after a rise with room for its raises. -/
theorem State.rise_entries (quiet : s.acts = []) (legal : s.ConditionsLegal)
    (raises : ∀ b, b ∈ raising ↔ ((s.boilers[b]).state = .tripped ∨ (s.boilers[b]).state = .lockedOut) ∧
      (s.boilers[b]).marker = false ∧ s.risen.standingCause b = true)
    (room : s.HasRoom (raising.map tripKey)) :
    let t := s.risen.releaseRise.endEvent
    t.entryOf releaseLostKey = (s.endCause .plantReleaseLost 1).entryOf releaseLostKey ∧
    ∀ (b : Boiler) (c : BoilerConfig), (s.boilers[b]).state = .tripped ∨ (s.boilers[b]).state = .lockedOut →
      s.cfg.boilers[b] = some c → t.entryOf (tripKey b) =
        (if (s.boilers[b]).marker = false ∧ s.risen.standingCause b = true then
            s.raiseWith (tripKey b) (if c.restart = .latched then .latching else .selfClearing)
          else if (s.boilers[b]).marker = true ∧ s.risen.standingCause b = false then s.endCause .boilerTrip (b.val + 1)
          else s).entryOf (tripKey b) := by
  intro t
  obtain ⟨mem, nodup⟩ := State.releaseRise_acts (s := s.risen) quiet
  have roomy : s.HasRoomFor s.risen.releaseRise.acts := by
    refine State.hasRoomFor_of_keys room nodup fun a told k raised => ?_
    obtain rfl | ⟨b, told⟩ := (mem a).mp told
    · cases raised
    · obtain ⟨down, ⟨clear, cause, rfl⟩ | ⟨-, -, rfl⟩⟩ := State.mem_causeTold.mp told <;> cases raised
      exact List.mem_map_of_mem ((raises b).mpr ⟨down, clear, cause⟩)
  have table {k : ConditionKey} (ne : k ≠ conditionTableFullKey) := State.releaseRise_table quiet legal roomy ne
  have ended := (table releaseLostKey_ordinary).1 (.endCause releaseLostKey) ((mem _).mpr (.inl rfl)) rfl
  refine ⟨ended, fun b c down conf => State.rise_tripEntry conf down (fun a told => ?_) fun none => ?_⟩
  · exact (table (tripKey_ordinary b)).1 a ((mem a).mpr (.inr ⟨b, told⟩)) (State.causeTold_key told)
  · exact (table (tripKey_ordinary b)).2 fun a told own => none a (State.releaseRise_own (s := s.risen) quiet told own)

/-! ### The obligation -/

/-- Settles O43: each boiler acts as if alone at either edge, and each act has its own key. -/
theorem plantReleaseEdges : Obligations.PlantReleaseEdges := by
  intro s work
  have quiet := State.acts_of_working work
  refine ⟨fun high => ?_, fun low => ?_⟩
  · have after := State.endEvent_changes (s := s.fallen.releaseFall)
    have boilers : s.fallen.releaseFall.endEvent.boilers = s.fallen.releaseFall.boilers := after .boilers (by decide)
    have dsp : s.fallen.releaseFall.endEvent.dsp = s.fallen.releaseFall.dsp := after .dsp (by decide)
    refine ⟨_, exec_plantReleaseFall work high, ?_, fun b off => ?_, fun b c active conf => ?_, fun b down => ?_,
      fun legal => ?_, fun legal b => ?_, ?_, State.fall_allOff work⟩
    · exact Eq.trans (after .plantRelease (by decide)) (State.releaseFall_changes (s := s.fallen) .plantRelease (by decide))
    · rw [boilers]
      exact State.releaseFall_off (s := s.fallen) rfl off
    · refine (State.releaseFall_tripped (s := s.fallen) rfl active conf).congr ⟨rfl, rfl, rfl, ?_, ?_⟩ rfl
      · rw [boilers]
      · rw [dsp]
    · rw [boilers]
      exact State.releaseFall_stopped (s := s.fallen) rfl down
    · rw [dsp]
      exact State.releaseFall_line (s := s.fallen) rfl (legal.congr rfl rfl)
    · obtain ⟨never, only, closed, configured, purge, dead⟩ := legal
      rw [boilers]
      exact State.releaseFall_closed (s := s.fallen) rfl ⟨never, only, closed, configured, purge, dead⟩ b
    · intro tripping locking told legal room
      refine State.fall_reported quiet legal (fun b => ?_) (fun b => ?_) room
      · simp only [tripping, List.mem_filter, List.mem_finRange, true_and, decide_eq_true_eq]
      · simp only [locking, List.mem_filter, List.mem_finRange, true_and, decide_eq_true_eq, boilers]
        exact and_congr_right fun active =>
          (State.releaseFall_locks (s := s.fallen) rfl active).trans (and_iff_right active)
  · have after := State.endEvent_changes (s := s.risen.releaseRise)
    have boilers : s.risen.releaseRise.endEvent.boilers = s.risen.releaseRise.boilers := after .boilers (by decide)
    refine ⟨_, exec_plantReleaseRise work low, ?_, fun b up locked => ?_, fun b c i f tripped marked conf auto status quietly
      remote run => ?_, ?_, State.rise_allOff work⟩
    · exact Eq.trans (after .plantRelease (by decide)) (State.releaseRise_changes (s := s.risen) .plantRelease (by decide))
    · rw [boilers, State.releaseRise_boiler (s := s.risen) quiet b, State.evaluateCauses_up]
      exact fun down => down.elim up locked
    · have gone : s.risen.standingCause b = false :=
        (State.standingCause_high (s := s.risen) rfl b).trans (by
          rw [show s.risen.indicated (.boilerStatus b) = some i from status]
          exact quietly)
      obtain ⟨evaluated, same⟩ := State.rise_evaluated quiet conf (.inl tripped)
      rw [boilers, same, evaluated.autoPurge f i marked gone tripped auto run status remote]
      exact ⟨rfl, rfl, rfl, rfl⟩
    · intro risen caused raising
      have causes (b : Boiler) : s.risen.standingCause b = caused b := State.standingCause_high (s := s.risen) rfl b
      refine ⟨fun b c down conf => ?_, fun legal room => ?_⟩
      · obtain ⟨evaluated, same⟩ := State.rise_evaluated quiet conf down
        exact ⟨causes b, _, evaluated, (congrArg (·[b]) boilers).trans same⟩
      · have raises (b : Boiler) : b ∈ raising ↔ ((s.boilers[b]).state = .tripped ∨ (s.boilers[b]).state = .lockedOut) ∧
            (s.boilers[b]).marker = false ∧ s.risen.standingCause b = true := by
          simp only [raising, List.mem_filter, List.mem_finRange, true_and, decide_eq_true_eq, causes]
        obtain ⟨ended, entries⟩ := State.rise_entries quiet legal raises room
        simp only [causes] at entries
        exact ⟨ended, entries⟩

end Sys2Proof.Machine
end

section
/-! SUPPORT. What keeps the laws of curtailment, of the effective limit and of the queues (R91, R96, R101, R112,
R148): the relation between two states by which every operation keeps them, and the operations of the Export Schedule
Unit; with O5 and O6. -/

namespace Sys2Proof.Machine

-- The stacks of threads for every theorem of this section at once would pass the memory limit.
set_option Elab.async false

variable {s t u : State} {n m : CurtailmentSlot} {o a b : CurtailmentOrder}

/-! ### The laws kept from one state to another -/

/-- While the module runs the published limit is the one that the contract and the ACTIVE order give (R101). -/
def State.LimitPublished (s : State) : Prop := s.running = true → s.esu.effLimit = s.limitNow

/-- From `s` to `t` the laws of the orders and of the queues are kept, in the working region and in both copies. -/
structure RegionsKept (s t : State) : Prop where
  orders : s.OrdersLegal → t.OrdersLegal
  queues : s.QueuesLegal → t.QueuesLegal

/-- From `s` to `t` the laws of the orders, of the queues and of the effective limit are kept. -/
structure ExportKept (s t : State) : Prop extends RegionsKept s t where
  limit : s.LimitPublished → t.LimitPublished

theorem RegionsKept.trans (h : RegionsKept s t) (k : RegionsKept t u) : RegionsKept s u :=
  ⟨k.orders ∘ h.orders, k.queues ∘ h.queues⟩

theorem RegionsKept.ite {c : Prop} [Decidable c] (h : RegionsKept s t) (k : RegionsKept s u) :
    RegionsKept s (if c then t else u) := by split <;> assumption

theorem ExportKept.refl (s : State) : ExportKept s s := ⟨⟨id, id⟩, id⟩

theorem ExportKept.trans (h : ExportKept s t) (k : ExportKept t u) : ExportKept s u :=
  ⟨h.toRegionsKept.trans k.toRegionsKept, k.limit ∘ h.limit⟩

theorem ExportKept.ite {c : Prop} [Decidable c] (h : ExportKept s t) (k : ExportKept s u) :
    ExportKept s (if c then t else u) := by split <;> assumption

/-! ### Changes that the laws do not see -/

theorem State.limitNow_congr (orders : t.que.orders = s.que.orders) (contract : t.cfg.contract = s.cfg.contract) :
    t.limitNow = s.limitNow := by
  simp only [State.limitNow, State.ordersHeld, orders, contract]

theorem State.LimitPublished.congr (published : s.LimitPublished) (power : t.running = s.running)
    (effLimit : t.esu.effLimit = s.esu.effLimit) (limit : t.limitNow = s.limitNow) : t.LimitPublished := fun runs => by
  rw [effLimit, limit]
  exact published (power ▸ runs)

theorem ChangesOnly.running_eq {l : List Part} (h : ChangesOnly l s t) (away : .power ∉ l := by decide) :
    t.running = s.running := by
  obtain ⟨powered, held⟩ := h .power away
  rw [State.running, powered, held, State.running]

/-- Orders and queues read the working region and the two copies alone. -/
theorem RegionsKept.of_same (que : t.que = s.que := by rfl) (store : t.store = s.store := by rfl) : RegionsKept s t :=
  ⟨by rw [State.OrdersLegal, State.OrdersLegal, que, store]; exact id,
    by rw [State.QueuesLegal, State.QueuesLegal, que, store]; exact id⟩

/-- A frame without the power, the store, CONFIG, the QUEUES contents and the ESU. -/
theorem ChangesOnly.exportKept {l : List Part} (h : ChangesOnly l s t)
    (away : ∀ p ∈ [Part.power, .store, .cfg, .que, .esu], p ∉ l := by decide) : ExportKept s t where
  toRegionsKept := .of_same (h .que (away _ (by simp))) (h .store (away _ (by simp)))
  limit published := published.congr (h.running_eq (away _ (by simp)))
    (congrArg (·.effLimit) (h .esu (away _ (by simp))))
    (State.limitNow_congr (congrArg (·.orders) (h .que (away _ (by simp))))
      (congrArg (·.contract) (h .cfg (away _ (by simp)))))

/-- New CONFIG contents with the same contract. -/
theorem State.config_exportKept {c : ConfigRegion} (contract : c.contract = s.cfg.contract) :
    ExportKept s ({ s with cfg := c } : State).markConfig where
  toRegionsKept := .of_same
  limit published := published.congr rfl rfl (State.limitNow_congr rfl contract)

/-- A law of the queues is kept where nominations are left out and the records and bills stay. -/
theorem QueuesRegion.QueuesLegal.of_sublist {q r : QueuesRegion} (legal : q.QueuesLegal)
    (nominations : r.nominations.Sublist q.nominations) (settlements : r.settlements = q.settlements := by rfl)
    (nextSettlement : r.nextSettlement = q.nextSettlement := by rfl) (bills : r.bills = q.bills := by rfl)
    (nextBill : r.nextBill = q.nextBill := by rfl) : r.QueuesLegal where
  ascending := legal.ascending.sublist nominations
  nominations := nominations.length_le.trans legal.nominations
  energies n hn := legal.energies n (nominations.subset hn)
  settlements := by rw [settlements]; exact legal.settlements
  settlementNumbers := by rw [settlements, nextSettlement]; exact legal.settlementNumbers
  bills := by rw [bills]; exact legal.bills
  billNumbers := by rw [bills, nextBill]; exact legal.billNumbers

/-- The law of the orders reads the table of orders alone. -/
theorem QueuesRegion.OrdersLegal.congr {q r : QueuesRegion} (legal : q.OrdersLegal) (same : r.orders = q.orders) :
    r.OrdersLegal :=
  ⟨by rw [same]; exact legal.oneActive, by rw [same]; exact legal.oneSuspended, by rw [same]; exact legal.underEmergency,
    by rw [same]; exact legal.references, by rw [same]; exact legal.ends⟩

/-- The working region changed and its law kept; the copies as they are. -/
theorem RegionsKept.of_que (store : t.store = s.store) (orders : s.que.OrdersLegal → t.que.OrdersLegal)
    (queues : s.que.QueuesLegal → t.que.QueuesLegal) : RegionsKept s t :=
  ⟨fun ⟨working, copies⟩ => ⟨orders working, store ▸ copies⟩, fun ⟨working, copies⟩ => ⟨queues working, store ▸ copies⟩⟩

/-- The queues changed and their law kept; the orders, the contract and the published limit as they are. -/
theorem ChangesOnly.exportKept_of_queues {l : List Part} (h : ChangesOnly l s t) (orders : t.que.orders = s.que.orders)
    (effLimit : t.esu.effLimit = s.esu.effLimit) (queues : s.que.QueuesLegal → t.que.QueuesLegal)
    (away : ∀ p ∈ [Part.power, .store, .cfg], p ∉ l := by decide) : ExportKept s t where
  toRegionsKept := .of_que (h .store (away _ (by simp))) (fun legal => legal.congr orders) queues
  limit published := published.congr (h.running_eq (away _ (by simp))) effLimit
    (State.limitNow_congr orders (congrArg (·.contract) (h .cfg (away _ (by simp)))))

/-! ### The end of an event -/

/-- What a write of the region stores has the orders and the queues of the working region (R116). -/
theorem State.queuesImage_eq (s : State) : ∃ interval current swept, s.queuesImage =
    { s.que with interval := interval, current := current, swept := swept } := by
  unfold State.queuesImage
  split <;> exact ⟨_, _, _, rfl⟩

/-- A law of the QUEUES region that reads the orders and the queues alone outlasts the writes of an event. -/
theorem State.writeMarked_queues_both {p : QueuesRegion → Prop} (image : p s.que → p s.queuesImage) (working : p s.que)
    (copies : s.store.queues.both p) : s.writeMarked.store.queues.both p := by
  rw [State.writeMarked_store]
  split
  · exact copies
  · dsimp only
    split
    · exact Retained.write_both _ _ copies (image working)
    · exact copies

theorem State.writeMarked_exportKept (s : State) : ExportKept s s.writeMarked where
  orders := fun ⟨working, copies⟩ => ⟨working, State.writeMarked_queues_both (fun legal => by
    obtain ⟨interval, current, swept, image⟩ := s.queuesImage_eq
    exact legal.congr (by rw [image])) working copies⟩
  queues := fun ⟨working, copies⟩ => ⟨working, State.writeMarked_queues_both (fun legal => by
    obtain ⟨interval, current, swept, image⟩ := s.queuesImage_eq
    rw [image]
    exact legal.of_sublist (.refl _)) working copies⟩
  limit published := published.congr rfl rfl (State.limitNow_congr rfl rfl)

theorem State.endEvent_exportKept (s : State) : ExportKept s s.endEvent :=
  State.takeActs_changes.exportKept.trans (State.writeMarked_exportKept _)

theorem Served.record_exportKept (r : Served) : ExportKept r.2 r.record :=
  ⟨.of_same, fun published => published.congr rfl rfl (State.limitNow_congr rfl rfl)⟩

/-! ### The publication of the limit (R101, R109) -/

theorem State.publishLimit_limitPublished (s : State) : s.publishLimit.LimitPublished :=
  fun _ => State.publishLimit_effLimit.trans State.publishLimit_limitNow.symm

theorem State.publishLimit_regionsKept (s : State) : RegionsKept s s.publishLimit :=
  .of_que (State.publishLimit_changes .store (by decide)) (fun legal => legal.congr State.publishLimit_orders)
    fun legal => by rw [State.publishLimit_que_eq]; exact legal.of_sublist (.refl _)

/-- Whatever keeps the laws of the regions keeps that of the limit as well once the limit is published. -/
theorem RegionsKept.published (h : RegionsKept s t) : ExportKept s t.publishLimit :=
  ⟨h.trans t.publishLimit_regionsKept, fun _ => t.publishLimit_limitPublished⟩

/-! ### Intervals and nominations (R90, R93, R106) -/

theorem State.setQueues_exportKept {q : QueuesRegion} (orders : q.orders = s.que.orders)
    (queues : s.que.QueuesLegal → q.QueuesLegal) : ExportKept s (s.setQueues q) :=
  (State.setQueues_changes q).exportKept_of_queues (by rw [State.setQueues_que]; exact orders)
    (by rw [State.setQueues_esu]) (by rw [State.setQueues_que]; exact queues)

theorem State.setInterval_exportKept (iv : OpenInterval) : ExportKept s (s.setInterval iv) :=
  State.setQueues_exportKept rfl fun legal => legal.of_sublist (.refl _)

theorem State.reckonMissing_exportKept (s : State) : ExportKept s s.reckonMissing := by
  obtain ⟨m, esu⟩ := s.reckonMissing_esu
  exact State.reckonMissing_changes.exportKept_of_queues (by rw [State.reckonMissing_que]) (by rw [esu])
    (by rw [State.reckonMissing_que]; exact id)

theorem State.openWith_exportKept (x : Int) (flags : IntervalFlags) (current : Option Nat) :
    ExportKept s (s.openWith x flags current) := by
  obtain ⟨m, esu⟩ := State.openWith_esu (s := s) x flags current
  refine (State.openWith_changes x flags current).exportKept_of_queues (by rw [State.openWith_que]) (by rw [esu])
    fun legal => ?_
  rw [State.openWith_que]
  exact legal.of_sublist List.filter_sublist

theorem State.openInterval_exportKept (x : Int) (flags : IntervalFlags) : ExportKept s (s.openInterval x flags) :=
  State.openWith_exportKept x flags _

/-! ### The settlement queue (R112) -/

theorem numberedUpTo_append {next : Word} : ∀ {l : List Word}, numberedUpTo next l = true →
    numberedUpTo (next + 1) (l ++ [next]) = true
  | [], _ => by simp [numberedUpTo]
  | w :: l, h => by
    simp only [numberedUpTo, Bool.and_eq_true, decide_eq_true_eq] at h
    obtain ⟨number, rest⟩ := h
    simp only [List.cons_append, numberedUpTo, Bool.and_eq_true, decide_eq_true_eq, List.length_append, List.length_cons,
      List.length_nil]
    refine ⟨?_, numberedUpTo_append rest⟩
    rw [← number, BitVec.ofNat_add (l.length + 1) 1, ← BitVec.add_assoc]
    rfl

theorem numberedUpTo_tail {next : Word} {l : List Word} (h : numberedUpTo next l = true) :
    numberedUpTo next l.tail = true := by
  cases l with
  | nil => rfl
  | cons w l =>
    rw [numberedUpTo, Bool.and_eq_true] at h
    exact h.2

/-- A record that takes the next number joins the queue within its places (R112). -/
theorem joinedBy_numbered {l : List SettlementRecord} {next : Word} {r : SettlementRecord} (number : r.sequence = next)
    (places : l.length ≤ 192) (numbered : numberedUpTo next (l.map (·.sequence)) = true) :
    (joinedBy l r).length ≤ 192 ∧ numberedUpTo (next + 1) ((joinedBy l r).map (·.sequence)) = true := by
  unfold joinedBy
  rw [List.map_append, List.map_cons, List.map_nil, number]
  refine ⟨by simp only [List.length_append, List.length_cons, List.length_nil]; split <;> simp <;> omega, ?_⟩
  refine numberedUpTo_append ?_
  split
  · exact numbered
  · rw [List.drop_one, List.map_tail]
    exact numberedUpTo_tail numbered

theorem State.queueSettlement_exportKept (r : SettlementRecord) : ExportKept s (s.queueSettlement r) := by
  refine (State.queueSettlement_changes r).exportKept_of_queues (by rw [State.queueSettlement_que])
    (by rw [State.queueSettlement_esu]) fun legal => ?_
  rw [State.queueSettlement_que]
  obtain ⟨places, numbers⟩ := joinedBy_numbered (r := { r with sequence := s.que.nextSettlement }) rfl legal.settlements
    legal.settlementNumbers
  exact { legal with settlements := places, settlementNumbers := numbers }

theorem State.withoutInterval_exportKept (s : State) : ExportKept s s.withoutInterval :=
  State.withoutInterval_changes.exportKept_of_queues rfl rfl fun legal => legal.of_sublist (.refl _)

theorem State.endWait_exportKept (reading : Option Nat) : ExportKept s (s.endWait reading) := by
  have ended : ExportKept s ({ s with esu := { s.esu with wait := none } } : State).markQueues :=
    ((State.esu_changes _).append State.markQueues_changes).exportKept_of_queues rfl rfl id
  unfold State.endWait
  split
  · exact .refl s
  · dsimp only
    split
    · split
      · exact (ended.trans (State.queueSettlement_exportKept _)).trans (State.setInterval_exportKept _)
      · exact ended.trans (State.queueSettlement_exportKept _)
    · split
      · exact (ended.trans (State.queueSettlement_exportKept _)).trans (State.setInterval_exportKept _)
      · exact ended.trans (State.queueSettlement_exportKept _)
    · split
      · exact ended.trans (State.setInterval_exportKept _)
      · exact ended
    · exact ended

theorem State.closeInterval_exportKept (x : Int) (stepped : Bool) : ExportKept s (s.closeInterval x stepped) := by
  unfold State.closeInterval
  dsimp only
  split
  · exact State.endWait_exportKept none
  · exact ((State.endWait_exportKept none).trans (State.queueSettlement_exportKept _)).trans
      (State.withoutInterval_exportKept _)

theorem State.takeBoundary_exportKept (s : State) : ExportKept s s.takeBoundary :=
  (State.closeInterval_exportKept _ _).trans (State.openInterval_exportKept _ _)

/-! ### Meter arrivals and the dispatch results (R107, R108) -/

theorem State.exportArrival_exportKept (reading : Nat) : ExportKept s (s.exportArrival reading) := by
  have stored : ExportKept s { s with esu := { s.esu with lastReading := some reading } } :=
    (State.esu_changes _).exportKept_of_queues rfl rfl id
  unfold State.exportArrival
  dsimp only
  refine .ite (stored.trans (State.endWait_exportKept _)) ?_
  split
  · exact stored.trans ((State.que_changes _).exportKept_of_queues rfl rfl fun legal => legal.of_sublist (.refl _))
  · exact stored

theorem State.exportFailed_exportKept (s : State) : ExportKept s s.exportFailed := by
  have lost : ExportKept s { s with esu := { s.esu with lastReading := none } } :=
    (State.esu_changes _).exportKept_of_queues rfl rfl id
  unfold State.exportFailed
  dsimp only
  split
  · exact lost.trans ((State.que_changes _).exportKept_of_queues rfl rfl fun legal => legal.of_sublist (.refl _))
  · exact lost

theorem State.integrateExport_exportKept (exported : Int) (span : Nat) (steamOver : Bool) :
    ExportKept s (s.integrateExport exported span steamOver) := by
  unfold State.integrateExport
  split
  · exact .refl s
  · exact State.setInterval_exportKept _

end Sys2Proof.Machine
end

section
/-! SUPPORT. The operations of the table of curtailment orders keep the laws of the orders, of the limit and of the queues
(R95 to R103); with O5 and O6. The removal of the ACTIVE order also under an INVALID clock (R100), for O45. -/

namespace Sys2Proof.Machine

-- The stacks of threads for every theorem of this section at once would pass the memory limit.
set_option Elab.async false

variable {s t u : State} {n m : CurtailmentSlot} {o a b : CurtailmentOrder}

/-! ### The removal of the ACTIVE order under an INVALID clock (R100) -/

/-- The state with a VALID clock at 0, where no order's end has passed. -/
def State.atOrigin (s : State) : State := { s with clock := { s.clock with valid := true, reading := 0 } }

/-- No end of the law's orders has passed at 0. -/
theorem QueuesRegion.OrdersLegal.end_pos (legal : s.que.OrdersLegal) (h : s.Holds n o) : ∀ e ∈ o.finish, 0 < e :=
  fun e he => Nat.zero_lt_of_lt (legal.ends n o h e he)

theorem State.dropPassed_orders_atOrigin (legal : s.que.OrdersLegal) :
    (s.atOrigin.setOrder n none).dropPassed.que.orders = (s.setOrder n none).que.orders := by
  refine Vector.ext fun i hi => ?_
  refine Option.ext fun a => ?_
  have left := State.holds_dropPassed (s := s.atOrigin) (n := n) (m := ⟨i, hi⟩) (a := a) rfl
  have out := State.setOrder_get (s := s) (n := n) (m := ⟨i, hi⟩) none
  rw [Fin.getElem_fin, Fin.getElem_fin] at out
  rw [out]
  refine left.trans ?_
  by_cases same : (⟨i, hi⟩ : CurtailmentSlot) = n
  · simp [same]
  · rw [if_neg same]
    exact ⟨fun ⟨_, held, _⟩ => held, fun held => ⟨same, held, fun _ => legal.end_pos (n := ⟨i, hi⟩) held⟩⟩

/-- The choice of the next ACTIVE order reads the table of orders alone. -/
theorem State.chooseActive_orders_congr (same : t.que.orders = s.que.orders) :
    t.chooseActive.que.orders = s.chooseActive.que.orders := by
  have held : t.ordersHeld = s.ordersHeld := by simp only [State.ordersHeld, same]
  have becomes (n : CurtailmentSlot) (x : OrderState) : (t.orderBecomes n x).que.orders = (s.orderBecomes n x).que.orders := by
    simp only [State.orderBecomes, State.setOrder, same]
  unfold State.chooseActive
  rw [held]
  split
  · exact becomes _ _
  · split
    · exact becomes _ _
    · exact same

/-- Under an INVALID clock the removal of the ACTIVE order is that at 0: none of the others leaves (R100). -/
theorem State.removeActive_orders_of_invalid (legal : s.que.OrdersLegal) (invalid : s.clock.valid = false) :
    (s.removeActive n).que.orders = (s.atOrigin.removeActive n).que.orders := by
  have kept : (s.setOrder n none).dropPassed = s.setOrder n none := if_neg (by
    rw [show (s.setOrder n none).clock = s.clock from rfl, invalid]; decide)
  rw [State.removeActive_orders, State.removeActive_orders, kept]
  exact (State.chooseActive_orders_congr (State.dropPassed_orders_atOrigin legal)).symm

/-- The removal of the ACTIVE order keeps the law of the orders, whatever the clock (R98, R100). -/
theorem State.removeActive_ordersLegal (legal : s.que.OrdersLegal) (h : s.Holds n o) (active : o.state = .active) :
    (s.removeActive n).que.OrdersLegal := by
  cases valid : s.clock.valid with
  | true => exact State.removeActive_legal legal valid h active
  | false =>
    exact (State.removeActive_legal (s := s.atOrigin) legal rfl h active).congr
      (State.removeActive_orders_of_invalid legal valid)

theorem State.mayFollow_atOrigin (legal : s.que.OrdersLegal) (invalid : s.clock.valid = false) (h : s.Holds n o)
    (x : OrderState) : s.atOrigin.MayFollow o x ↔ s.MayFollow o x :=
  and_congr_right fun _ => ⟨fun _ valid => absurd valid (by rw [invalid]; decide), fun _ _ => legal.end_pos h⟩

/-- What the removal of the ACTIVE order does, whatever the clock (R98, R100). -/
theorem State.removeActive_activeRemoved (legal : s.que.OrdersLegal) (h : s.Holds n o) (active : o.state = .active) :
    ActiveRemoved s (s.removeActive n) n := by
  cases valid : s.clock.valid with
  | true => exact State.removeActive_removed legal valid h active
  | false =>
    have orders := State.removeActive_orders_of_invalid (n := n) legal valid
    have limit : (s.removeActive n).esu.effLimit = (s.atOrigin.removeActive n).esu.effLimit := by
      rw [State.removeActive_limit, State.removeActive_limit]
      exact State.limitNow_congr orders (by rw [State.removeActive_clock.2, State.removeActive_clock.2]; rfl)
    have nominations : (s.removeActive n).que.nominations = s.que.nominations := by
      have moves := State.removeOrder_moves (s := s) n
      rw [State.removeOrder, show s.que.orders[n] = some o from h] at moves
      dsimp only at moves
      rw [if_pos active] at moves
      rw [moves.que]
    have removed := State.removeActive_removed (s := s.atOrigin) legal rfl h active
    have follows {m : CurtailmentSlot} {a : CurtailmentOrder} (held : s.Holds m a) (x : OrderState) :=
      State.mayFollow_atOrigin legal valid held x
    refine ⟨by rw [orders]; exact removed.gone, fun _ _ _ _ k => absurd k (by rw [valid]; decide),
      by rw [orders]; exact removed.pending, by rw [orders]; exact removed.empty, fun m a ha st => ?_,
      fun noneAside m a ha st first => ?_, fun nobody => ?_, nominations⟩
    · obtain ⟨got, least, rest⟩ := removed.suspended m a ha ((follows ha _).mpr st)
      rw [orders, limit]
      exact ⟨got, least, fun i x hx k => rest i x hx ((follows hx _).mpr k)⟩
    · obtain ⟨got, least, rest⟩ := removed.waiting (fun i x hx k => noneAside i x hx ((follows hx _).mp k)) m a ha
        ((follows ha _).mpr st) fun i x hx k => first i x hx ((follows hx _).mp k)
      rw [orders, limit]
      exact ⟨got, least, fun i x hx ne k => rest i x hx ne ((follows hx _).mpr k)⟩
    · rw [limit]
      exact removed.nobody fun m a ha => ⟨fun k => (nobody m a ha).1 ((follows ha _).mp k),
        fun k => (nobody m a ha).2 ((follows ha _).mp k)⟩

/-! ### One order out, or in -/

theorem LimitMoves.queuesLegal (h : LimitMoves s t) (legal : s.que.QueuesLegal) : t.que.QueuesLegal := by
  rw [h.que]
  exact legal.of_sublist (.refl _)

/-- Starts and ends of orders, where they keep the law of the orders and that of the limit. -/
theorem LimitMoves.exportKept {l : List Part} (moves : LimitMoves s t) (h : ChangesOnly l s t)
    (orders : s.que.OrdersLegal → t.que.OrdersLegal) (limit : s.LimitPublished → t.LimitPublished)
    (away : .store ∉ l := by decide) : ExportKept s t :=
  ⟨.of_que (h .store away) orders moves.queuesLegal, limit⟩

/-- An order that is not ACTIVE goes, and the law of the orders stays. -/
theorem State.setOrder_none_legal (legal : s.que.OrdersLegal) (idle : ∀ o, s.Holds n o → o.state ≠ .active) :
    (s.setOrder n none).markQueues.que.OrdersLegal := by
  refine legal.of (fun m a ha => ⟨a, (State.holds_setOrder_none.mp ha).2, rfl⟩)
    (fun m k a b ha hb => legal.oneActive m k a (State.holds_setOrder_none.mp ha).2 b (State.holds_setOrder_none.mp hb).2)
    (fun m k a b ha hb =>
      legal.oneSuspended m k a (State.holds_setOrder_none.mp ha).2 b (State.holds_setOrder_none.mp hb).2)
    fun m a ha aside => ?_
  obtain ⟨kind, i, e, he, active, emergency⟩ := legal.underEmergency m a (State.holds_setOrder_none.mp ha).2 aside
  refine ⟨kind, i, e, State.holds_setOrder_none.mpr ⟨?_, he⟩, active, emergency⟩
  rintro rfl
  exact idle e he active

/-- An order that is not ACTIVE, put in or taken out, leaves the limit in force as it is. -/
theorem State.limitNow_setOrder {x : Option CurtailmentOrder} (old : ∀ o, s.Holds n o → o.state ≠ .active)
    (new : ∀ o, x = some o → o.state ≠ .active) : (s.setOrder n x).markQueues.limitNow = s.limitNow := by
  have get (m : CurtailmentSlot) (ne : m ≠ n) : (s.setOrder n x).markQueues.que.orders[m] = s.que.orders[m] :=
    (State.setOrder_get x).trans (if_neg ne)
  have put : (s.setOrder n x).markQueues.que.orders[n] = x := (State.setOrder_get x).trans (if_pos rfl)
  have idle {y : Option CurtailmentOrder} (h : ∀ o, y = some o → o.state ≠ .active) :
      ((y.map fun o => (n, o)).any fun x => decide (x.2.state = .active)) = false := by
    cases y with
    | none => rfl
    | some o => exact decide_eq_false (h o rfl)
  have same (m : CurtailmentSlot) :
      (((s.setOrder n x).markQueues.que.orders[m].map fun o => (m, o)).any fun x => decide (x.2.state = .active)) =
        ((s.que.orders[m].map fun o => (m, o)).any fun x => decide (x.2.state = .active)) := by
    by_cases e : m = n
    · subst e
      rw [put, idle new, idle fun o => old o]
    · rw [get m e]
  have found : ((s.setOrder n x).markQueues.ordersHeld.find? fun x => decide (x.2.state = .active)) =
      s.ordersHeld.find? fun x => decide (x.2.state = .active) := by
    unfold State.ordersHeld
    rw [List.find?_filterMap, List.find?_filterMap]
    simp only [same]
    cases k : (List.finRange 8).find? fun m =>
        (s.que.orders[m].map fun o => (m, o)).any fun x => decide (x.2.state = .active) with
    | none => rfl
    | some m =>
      have active := List.find?_some k
      have ne : m ≠ n := by
        rintro rfl
        rw [idle fun o => old o] at active
        cases active
      rw [Option.bind_some, Option.bind_some, get m ne]
  rw [State.limitNow, found, State.limitNow]
  rfl

/-- An order that is not ACTIVE goes (R99, R100). -/
theorem State.setOrder_none_exportKept (idle : ∀ o, s.Holds n o → o.state ≠ .active) :
    ExportKept s (s.setOrder n none).markQueues :=
  have moves : LimitMoves s (s.setOrder n none).markQueues := .of_orders rfl rfl rfl rfl
  moves.exportKept ((State.setOrder_changes n none).append State.markQueues_changes)
    (fun legal => State.setOrder_none_legal legal idle)
    fun published => published.congr rfl rfl (State.limitNow_setOrder idle nofun)

/-! ### Starts and ends (R96 to R99) -/

theorem State.emergencyStart_exportKept (h : s.Holds n o) (pending : o.state = .pending) (kind : o.kind = .emergency) :
    ExportKept s (s.emergencyStart n) :=
  (State.emergencyStart_moves n).exportKept (State.emergencyStart_changes n)
    (fun legal => State.emergencyStart_legal legal h pending kind) fun _ => State.publishLimit_limitPublished _

theorem State.ordinaryStart_exportKept (h : s.Holds n o) (pending : o.state = .pending) :
    ExportKept s (s.ordinaryStart n) :=
  (State.ordinaryStart_moves n).exportKept (State.ordinaryStart_changes n)
    (fun legal => State.ordinaryStart_legal legal h pending) fun _ => State.publishLimit_limitPublished _

theorem State.takeStart_eq (h : s.Holds n o) : s.takeStart n =
    match o.kind with | .emergency => s.emergencyStart n | .ordinary => s.ordinaryStart n := by
  have held : s.que.orders[n] = some o := h
  unfold State.takeStart
  rw [held] <;> rfl

theorem State.takeStart_exportKept (h : s.Holds n o) (pending : o.state = .pending) : ExportKept s (s.takeStart n) := by
  rw [State.takeStart_eq h]
  cases kind : o.kind with
  | emergency => exact State.emergencyStart_exportKept h pending kind
  | ordinary => exact State.ordinaryStart_exportKept h pending

theorem State.removeOrder_eq (h : s.Holds n o) : s.removeOrder n =
    if o.state = .active then s.removeActive n else (s.setOrder n none).markQueues := by
  have held : s.que.orders[n] = some o := h
  unfold State.removeOrder
  rw [held]

theorem State.removeActive_exportKept (h : s.Holds n o) (active : o.state = .active) : ExportKept s (s.removeActive n) := by
  have moves := State.removeOrder_moves (s := s) n
  rw [State.removeOrder_eq h, if_pos active] at moves
  exact moves.exportKept (State.removeActive_changes n) (fun legal => State.removeActive_ordersLegal legal h active)
    fun _ => State.publishLimit_limitPublished _

theorem State.removeOrder_exportKept (h : s.Holds n o) : ExportKept s (s.removeOrder n) := by
  rw [State.removeOrder_eq h]
  split
  case isTrue active => exact State.removeActive_exportKept h active
  case isFalse idle =>
    refine State.setOrder_none_exportKept fun a ha => ?_
    cases ha.symm.trans h
    exact idle

/-! ### The starts and ends passed at one event (R99, R103, R105) -/

theorem State.takeOrderTime_exportKept (n : CurtailmentSlot) : ExportKept s (s.takeOrderTime n) := by
  obtain empty | ⟨o, held⟩ := s.holds_or_none n
  · have stays : s.takeOrderTime n = s := by
      rw [State.takeOrderTime, State.removeOrder, empty]
      exact if_neg (by decide)
    rw [stays]
    exact .refl s
  · have some : s.que.orders[n] = some o := held
    rw [State.takeOrderTime, some, Option.any_some]
    split
    case isTrue pending => exact State.takeStart_exportKept held (of_decide_eq_true pending)
    case isFalse => exact State.removeOrder_exportKept held

theorem State.takePassed_exportKept : ∀ (fuel : Nat) (s : State), ExportKept s (State.takePassed fuel s)
  | 0, s => .refl s
  | fuel + 1, s => by
    rw [State.takePassed]
    cases arrange (Config.freeOrder s.choices) (earliestSlots s.passedOrders) with
    | nil => exact .refl s
    | cons n rest =>
      have counted : ExportKept s (if rest.isEmpty then s else { s with choices := s.choices + 1 }) :=
        .ite (.refl s) (State.choices_changes _).exportKept
      exact (counted.trans (State.takeOrderTime_exportKept n)).trans (State.takePassed_exportKept fuel _)

theorem State.takePassedOrders_exportKept (s : State) : ExportKept s s.takePassedOrders := State.takePassed_exportKept 16 s

/-! ### An order taken in (R95) -/

/-- A PENDING order with a reference of its own, its end after its start, in an empty slot. -/
theorem State.setOrder_some_legal (legal : s.que.OrdersLegal) (empty : s.que.orders[n] = none)
    (pending : o.state = .pending) (new : ∀ m a, s.Holds m a → a.reference ≠ o.reference)
    (ends : ∀ e ∈ o.finish, o.start < e) : (s.setOrder n (some o)).que.OrdersLegal := by
  have holds (m : CurtailmentSlot) (a : CurtailmentOrder) (h : a ∈ (s.setOrder n (some o)).que.orders[m]) :
      m = n ∧ a = o ∨ m ≠ n ∧ s.Holds m a := by
    rw [State.setOrder_get] at h
    split at h
    case isTrue e => exact .inl ⟨e, (Option.some.inj h).symm⟩
    case isFalse e => exact .inr ⟨e, h⟩
  have started {m : CurtailmentSlot} {a : CurtailmentOrder} (h : a ∈ (s.setOrder n (some o)).que.orders[m])
      (go : a.state ≠ .pending) : s.Holds m a := by
    obtain ⟨-, rfl⟩ | ⟨-, held⟩ := holds m a h
    · exact absurd pending go
    · exact held
  refine ⟨fun m k a ha b hb x y => ?_, fun m k a ha b hb x y => ?_, fun m a ha x => ?_, fun m k a ha b hb same => ?_,
    fun m a ha => ?_⟩
  · exact legal.oneActive m k a (started ha (by rw [x]; decide)) b (started hb (by rw [y]; decide)) x y
  · exact legal.oneSuspended m k a (started ha (by rw [x]; decide)) b (started hb (by rw [y]; decide)) x y
  · obtain ⟨kind, i, e, he, active, emergency⟩ := legal.underEmergency m a (started ha (by rw [x]; decide)) x
    refine ⟨kind, i, e, ?_, active, emergency⟩
    have ne : i ≠ n := by
      rintro rfl
      exact State.not_holds_of_none empty he
    rw [State.setOrder_get, if_neg ne]
    exact he
  · obtain ⟨rfl, rfl⟩ | ⟨-, held⟩ := holds m a ha <;> obtain ⟨rfl, rfl⟩ | ⟨-, other⟩ := holds k b hb
    · rfl
    · exact absurd same.symm (new k b other)
    · exact absurd same (new m a held)
    · exact legal.references m k a held b other same
  · obtain ⟨-, rfl⟩ | ⟨-, held⟩ := holds m a ha
    · exact ends
    · exact legal.ends m a held

theorem State.setOrder_some_exportKept (empty : s.que.orders[n] = none) (pending : o.state = .pending)
    (new : ∀ m a, s.Holds m a → a.reference ≠ o.reference) (ends : ∀ e ∈ o.finish, o.start < e) :
    ExportKept s (s.setOrder n (some o)).markQueues :=
  have moves : LimitMoves s (s.setOrder n (some o)).markQueues := .of_orders rfl rfl rfl rfl
  moves.exportKept ((State.setOrder_changes n (some o)).append State.markQueues_changes)
    (fun legal => State.setOrder_some_legal legal empty pending new ends)
    fun published => published.congr rfl rfl (State.limitNow_setOrder
      (fun a ha => absurd ha (State.not_holds_of_none empty)) fun a ha => by cases ha; rw [pending]; decide)

theorem State.enterOrder_exportKept (empty : s.que.orders[n] = none) (pending : o.state = .pending)
    (new : ∀ m a, s.Holds m a → a.reference ≠ o.reference) (ends : ∀ e ∈ o.finish, o.start < e)
    (ahead : ∀ e ∈ o.finish, s.clock.reading < e) : ExportKept s (s.enterOrder n o) := by
  unfold State.enterOrder
  dsimp only
  refine .ite ?_ (State.setOrder_some_exportKept empty pending new ends)
  refine (State.setOrder_some_exportKept (o := { o with start := s.clock.reading }) empty pending new ahead).trans ?_
  have put : (s.setOrder n (some { o with start := s.clock.reading })).markQueues.Holds n
      { o with start := s.clock.reading } := (State.setOrder_get _).trans (if_pos rfl)
  exact State.takeStart_exportKept put pending

end Sys2Proof.Machine
end

section
/-! SUPPORT. Clock steps, closes of billing periods and the events of points keep the laws of the orders, of the limit and
of the queues; with O5 and O6. -/

namespace Sys2Proof.Machine

-- The stacks of threads for every theorem of this section at once would pass the memory limit.
set_option Elab.async false

variable {s t u : State}

/-! ### Clock steps and offset changes (R103, R104, R115) -/

theorem State.scheduleStep_exportKept (x : Nat) : ExportKept s (s.scheduleStep x) := by
  have taken : ExportKept s s.takePassedOrders.publishLimit := s.takePassedOrders_exportKept.toRegionsKept.published
  unfold State.scheduleStep
  dsimp only
  refine .ite (taken.trans ?_) (taken.trans ?_)
  · refine ExportKept.trans ?_ (State.reckonMissing_exportKept _)
    exact .ite (State.takeBoundary_exportKept _) (.refl _)
  · exact ((State.closeInterval_exportKept _ _).trans (State.openInterval_exportKept _ _)).trans
      (State.reckonMissing_exportKept _)

theorem State.scheduleStart_exportKept (s : State) : ExportKept s s.scheduleStart :=
  (s.takePassedOrders_exportKept.toRegionsKept.published.trans (State.openInterval_exportKept _ _)).trans
    (State.reckonMissing_exportKept _)

theorem State.scheduleWrap_exportKept (s : State) : ExportKept s s.scheduleWrap :=
  (State.closeInterval_exportKept _ _).trans (State.reckonMissing_exportKept _)

/-- The end of the open interval moved. -/
theorem State.intervalEnd_exportKept (x : Int) : ExportKept s { s with esu := { s.esu with intervalEnd := x } } :=
  (State.esu_changes _).exportKept_of_queues rfl rfl id

theorem State.scheduleOffset_exportKept (s : State) : ExportKept s s.scheduleOffset := by
  have gridded : ExportKept s (s.setNominations (s.que.nominations.filter fun n => s.isBoundary n.start)) :=
    State.setQueues_exportKept rfl fun legal => legal.of_sublist List.filter_sublist
  unfold State.scheduleOffset
  dsimp only
  refine ExportKept.trans (RegionsKept.published (gridded.trans ?_).toRegionsKept) (State.reckonMissing_exportKept _)
  exact .ite (State.intervalEnd_exportKept _) (.refl _)

/-! ### Closes of billing periods, and bills (R141 to R152) -/

/-- A bill that takes the next number joins the queue within its places (R148). -/
theorem State.issueBill_exportKept {k : Substation} {x : AccumulatorSet} (room : s.que.bills.length < 96) :
    ExportKept s (s.issueBill k x) := by
  have que := State.issueBill_que (s := s) (k := k) (x := x)
  refine (State.issueBill_changes k x).exportKept_of_queues (by rw [que])
    (congrArg _ (State.issueBill_changes k x .esu (by decide))) fun legal => ?_
  rw [que]
  refine { legal with bills := ?_, billNumbers := ?_ }
  · rw [List.length_append, List.length_singleton]
    exact room
  · rw [List.map_append, List.map_singleton]
    exact numberedUpTo_append legal.billNumbers

theorem State.issueBills_exportKept : ∀ (fuel : Nat) (s : State), ExportKept s (State.issueBills fuel s)
  | 0, s => .refl s
  | fuel + 1, s => by
    rw [State.issueBills]
    split
    case isFalse => exact .refl s
    case isTrue room =>
      split
      · exact .refl s
      · split
        · exact .refl s
        · exact (State.issueBill_exportKept room).trans (State.issueBills_exportKept fuel _)

theorem State.closePeriods_exportKept (n : Nat) (finish : Int) : ExportKept s (s.closePeriods n finish) where
  toRegionsKept := .of_same (State.closePeriods_changes n finish .que (by decide))
    (State.closePeriods_changes n finish .store (by decide))
  limit published := published.congr ((State.closePeriods_changes n finish).running_eq)
    (congrArg _ (State.closePeriods_changes n finish .esu (by decide)))
    (State.limitNow_congr (congrArg _ (State.closePeriods_changes n finish .que (by decide))) (by
      unfold State.closePeriods
      dsimp only
      split <;> rfl))

theorem State.closeWith_exportKept (n : Nat) (finish : Int) : ExportKept s (s.closeWith n finish) :=
  ((State.closePeriods_exportKept n finish).trans (State.issueBills_exportKept 48 _)).trans
    State.evaluateQueueFull_changes.exportKept

theorem State.scheduledClose_exportKept (s : State) : ExportKept s s.scheduledClose := by
  unfold State.scheduledClose
  split
  · exact .refl s
  · split
    · exact .refl s
    · exact State.closeWith_exportKept _ _

theorem State.reckonCloses_exportKept (s : State) : ExportKept s s.reckonCloses :=
  .ite (s.scheduledClose_exportKept.trans (State.scheduledClose_exportKept _)) (.refl s)

theorem State.billingRestart_exportKept (s : State) : ExportKept s s.billingRestart :=
  ((State.openAccounts_changes.exportKept.trans (State.reckonCloses_exportKept _)).trans
    (State.issueBills_exportKept 48 _)).trans State.evaluateQueueFull_changes.exportKept

/-! ### Points and channels (chapter 1) -/

theorem State.inAnyOrder_exportKept {α : Type} {l : List α} {f : State → α → State}
    (act : ∀ t a, ExportKept t (f t a)) : ExportKept s (s.inAnyOrder l f) :=
  State.inAnyOrder_keeps (p := ExportKept s) (.refl s) (fun n h => h.trans (State.choices_changes n).exportKept)
    fun t a _ h => h.trans (act t a)

theorem State.failedEvent_exportKept (s : State) (r : Role) : ExportKept s (s.failedEvent r) := by
  cases r with
  | sourceFlow n | sourceCv n => exact .ite (State.findUnmeasured_changes n).exportKept (.refl s)
  | holderLevel => exact (State.gas_changes _).exportKept
  | boilerStatus b => exact (State.statusFailed_changes b).exportKept
  | exportMeter => exact s.exportFailed_exportKept
  | heatMeter k => exact .ite (State.enterEstimating_changes k).exportKept (.refl s)
  | worksFlow | networkCv | turbineStatus => exact .refl s

theorem State.restoredEvent_exportKept (s : State) (r : Role) : ExportKept s (s.restoredEvent r) := by
  cases r with
  | sourceFlow n | sourceCv n => exact .ite (State.clearUnmeasured_changes n).exportKept (.refl s)
  | boilerStatus b => exact (State.evaluateCauses_changes b).exportKept
  | holderLevel | exportMeter | heatMeter _ | worksFlow | networkCv | turbineStatus => exact .refl s

theorem State.arrival_exportKept (s : State) (r : Role) (value : Quantity) (time : Nat) :
    ExportKept s (s.arrival r value time) := by
  unfold State.arrival
  split
  · exact (State.levelArrival_changes _).exportKept
  · exact (State.statusArrival_changes _ _).exportKept
  · exact State.exportArrival_exportKept _
  · exact (State.heatArrival_changes _ _ _ _).exportKept
  · exact .refl s

theorem State.setPoint_exportKept (p : PointNo) (x : Point) : ExportKept s (s.setPoint p x) :=
  (State.setPoint_changes p x).exportKept

theorem State.setChannel_exportKept (ch : ChannelNo) (x : Channel) : ExportKept s (s.setChannel ch x) :=
  (State.setChannel_changes ch x).exportKept

theorem State.serve_exportKept (s : State) (p : PointNo) (c : PointConfig) (rank : Rank) (ch : ChannelNo) :
    ExportKept s (s.serve p c rank ch) := by
  unfold State.serve
  dsimp only
  split
  · exact .refl s
  · exact (((State.setPoint_exportKept p _).trans (.ite (.refl _) (State.tellEnd_changes _ _).exportKept)).trans
      (.ite (State.restoredEvent_exportKept _ _) (.refl _))).trans (State.arrival_exportKept _ _ _ _)

theorem State.failPoint_exportKept (s : State) (p : PointNo) (c : PointConfig) : ExportKept s (s.failPoint p c) :=
  ((State.setPoint_exportKept p _).trans (State.tellRaise_changes _ _).exportKept).trans
    (State.failedEvent_exportKept _ _)

theorem State.loseSources_exportKept (s : State) (p : PointNo) (c : PointConfig) : ExportKept s (s.loseSources p c) :=
  .ite (State.setPoint_exportKept p _) (s.failPoint_exportKept p c)

theorem State.reselect_exportKept (s : State) (p : PointNo) : ExportKept s (s.reselect p) := by
  unfold State.reselect
  dsimp only
  split
  · exact .refl s
  · split
    · exact .ite (.refl s) (State.serve_exportKept _ _ _ _ _)
    · exact .ite (State.loseSources_exportKept _ _ _) (.refl s)

theorem State.reselectAll_exportKept (s : State) (ch : ChannelNo) : ExportKept s (s.reselectAll ch) :=
  State.inAnyOrder_exportKept State.reselect_exportKept

theorem State.refresh_exportKept (ch : ChannelNo) (s : State) (p : PointNo) : ExportKept s (s.refresh ch p) := by
  unfold State.refresh
  split
  · exact .refl s
  · split
    · exact .ite (State.serve_exportKept _ _ _ _ _) (.refl s)
    · exact .refl s

theorem State.holdExpiry_exportKept (s : State) (p : PointNo) : ExportKept s (s.holdExpiry p) := by
  unfold State.holdExpiry
  split
  · exact .refl s
  · exact .ite (State.failPoint_exportKept _ _ _) (.refl s)

theorem State.sampleArrival_exportKept (s : State) (ch : ChannelNo) (x : Sample) : ExportKept s (s.sampleArrival ch x) := by
  have put {t : State} (c : Channel) : ExportKept t (t.setChannel ch c) := State.setChannel_exportKept ch c
  unfold State.sampleArrival
  split
  · unfold State.goodArrival State.storeSample
    dsimp only
    refine .ite ((put _).trans (State.inAnyOrder_exportKept (State.refresh_exportKept ch)))
      (.ite ((put _).trans (put _)) ?_)
    exact (((put _).trans (put _)).trans (State.tellEnd_changes _ _).exportKept).trans (State.reselectAll_exportKept _ ch)
  · unfold State.suspectArrival State.storeSample
    dsimp only
    exact .ite ((put _).trans (put _)) (((put _).trans (put _)).trans (State.reselectAll_exportKept _ ch))

theorem State.silenceExpire_exportKept (s : State) (ch : ChannelNo) : ExportKept s (s.silenceExpire ch) := by
  have put {t : State} (c : Channel) : ExportKept t (t.setChannel ch c) := State.setChannel_exportKept ch c
  unfold State.silenceExpire
  dsimp only
  exact .ite ((((put _).trans (put _)).trans (State.tellRaise_changes _ _).exportKept).trans
    (State.reselectAll_exportKept _ ch)) (put _)

theorem State.takeFrame_exportKept (s : State) (channel kind : Byte) (body : List Byte) (check : Byte) :
    ExportKept s (s.takeFrame channel kind body check) := by
  unfold State.takeFrame
  split
  · exact .ite (State.sampleArrival_exportKept _ _ _) (.refl s)
  · exact .refl s

theorem State.setLine_exportKept (l : FieldLineNo) (x : FieldLine) : ExportKept s (s.setLine l x) :=
  (State.setLine_changes l x).exportKept

theorem State.fieldFrame_exportKept (s : State) (l : FieldLineNo) (channel kind : Byte) (body : List Byte) (check : Byte) :
    ExportKept s (s.fieldFrame l channel kind body check) :=
  (State.setLine_exportKept l _).trans (State.takeFrame_exportKept _ _ _ _ _)

theorem State.fieldByte_exportKept (s : State) (l : FieldLineNo) (byte : Byte) (stop : Bool) :
    ExportKept s (s.fieldByte l byte stop) := by
  have line (x : FieldLine) : ExportKept s (s.setLine l x) := State.setLine_exportKept l x
  unfold State.fieldByte
  refine .ite (line _) ?_
  split
  · exact .ite (line _) (.refl s)
  · exact line _
  · exact .ite (line _) (line _)
  · exact .ite (line _) (State.fieldFrame_exportKept _ _ _ _ _ _)

/-! ### The Dispatcher (chapter 3) -/

theorem State.dispatchCycle_exportKept (s : State) : ExportKept s s.dispatchCycle := by
  unfold State.dispatchCycle
  dsimp only
  exact ((State.cycleTold_changes _).exportKept.trans (State.dsp_changes _).exportKept).trans
    ((State.integrateExport_exportKept _ _ _).trans
      ((ChangesOnly.foldl (fun t b => State.cycleFrame_changes b) _ _).exportKept.trans
        (State.deliver_changes _).exportKept))

theorem State.dispatchExpiry_exportKept (s : State) : ExportKept s s.dispatchExpiry :=
  .ite s.dispatchCycle_exportKept (.refl s)

end Sys2Proof.Machine
end

section
/-! SUPPORT. The requests to the blocks keep the laws of the orders, of the limit and of the queues; with O5 and O6. -/

namespace Sys2Proof.Machine

-- The stacks of threads for every theorem of this section at once would pass the memory limit.
set_option Elab.async false

variable {s t u : State} {n m : CurtailmentSlot} {o a b : CurtailmentOrder}

/-! ### Configure Channel and Configure Point (R3, R11) -/

theorem configureChannelOwner_exportKept (n k : Byte) (l : Half) : ExportKept s (configureChannelOwner n k l s).2 := by
  have put {t : State} (ch : ChannelNo) (x : ChannelConfig) : ExportKept t (t.putChannelConfig ch x) :=
    State.config_exportKept rfl
  unfold configureChannelOwner
  split
  case h_2 => exact .refl s
  case h_1 ch k _ _ =>
    dsimp only
    split
    · exact .refl s
    split
    · exact .refl s
    split
    · split
      · exact ((put _ _).trans (State.setChannel_exportKept _ _)).trans (State.tellEnd_changes _ _).exportKept
      · exact .refl s
    · exact (put ch { kind := k, silence := l.toNat }).trans (.ite (State.silenceExpire_exportKept _ _) (.refl _))

theorem State.putPointConfig_exportKept (p : PointNo) (c : Option PointConfig) : ExportKept s (s.putPointConfig p c) :=
  State.config_exportKept rfl

theorem State.reconfigure_exportKept (s : State) (p : PointNo) (c : PointConfig) : ExportKept s (s.reconfigure p c) := by
  refine (State.putPointConfig_exportKept p (some c)).trans ?_
  unfold State.reconfigure
  dsimp only
  split
  · exact State.serve_exportKept _ _ _ _ _
  · split
    · exact State.loseSources_exportKept _ _ _
    · exact .ite (State.failPoint_exportKept _ _ _) (State.setPoint_exportKept _ _)
    · exact State.setPoint_exportKept _ _
    · exact .refl _
    · exact .refl _

theorem State.replacePoint_exportKept (s : State) (p : PointNo) (old c : Option PointConfig) (x : Point) :
    ExportKept s (s.replacePoint p old c x) := by
  refine (((State.putPointConfig_exportKept p c).trans (State.setPoint_exportKept p x)).trans ?_).trans
    (State.tellEnd_changes .pointFailed (pointNumber p)).exportKept
  cases old with
  | none => exact .refl _
  | some o => exact .ite (State.failedEvent_exportKept _ _) (.refl _)

theorem State.configurePoint_exportKept (s : State) (p : PointNo) (c : Option PointConfig) :
    ExportKept s (s.configurePoint p c) := by
  unfold State.configurePoint
  split
  · exact .ite (State.reconfigure_exportKept _ _ _)
      ((State.replacePoint_exportKept _ _ _ _ _).trans (State.reselect_exportKept _ _))
  · exact (State.replacePoint_exportKept _ _ _ _ _).trans (State.reselect_exportKept _ _)
  · exact State.replacePoint_exportKept _ _ _ _ _

theorem configurePointOwner_exportKept (v : Byte) (f : RawPoint) : ExportKept s (configurePointOwner v f s).2 := by
  unfold configurePointOwner
  split
  · exact .refl s
  · split
    · exact .refl s
    · split
      · exact .refl s
      · exact State.configurePoint_exportKept _ _ _

/-! ### Requests to the Gas Account, the Dispatcher and the boilers (chapters 2 to 4) -/

theorem State.setSource_exportKept (n : GasSource) (x : SourceSetting) : ExportKept s (s.setSource n x) :=
  State.config_exportKept rfl

theorem configureSourceOwner_exportKept (n d : Byte) : ExportKept s (configureSourceOwner n d s).2 := by
  unfold configureSourceOwner
  split
  · split
    · exact State.setSource_exportKept _ _
    · exact .refl s
    · exact .refl s
    · exact (State.setSource_exportKept _ _).trans (State.clearUnmeasured_changes _).exportKept
  · exact .refl s

theorem setSourceServiceOwner_exportKept (n v : Byte) : ExportKept s (setSourceServiceOwner n v s).2 := by
  unfold setSourceServiceOwner
  split
  · split
    · exact .refl s
    · exact .refl s
    · exact .refl s
    · exact (State.setSource_exportKept _ _).trans (State.clearUnmeasured_changes _).exportKept
    · exact (State.setSource_exportKept _ _).trans (.ite (.refl _) (State.findUnmeasured_changes _).exportKept)
  · exact .refl s

theorem configureHolderOwner_exportKept (f : RawHolder) : ExportKept s (configureHolderOwner f s).2 := by
  unfold configureHolderOwner
  dsimp only
  split
  · exact .refl s
  · split
    · refine ExportKept.trans (State.config_exportKept ?_) (State.reevaluate_changes (s := State.markConfig _)).exportKept
      rfl
    · exact .refl s

theorem selectHolderLimitsOwner_exportKept (v : Byte) : ExportKept s (selectHolderLimitsOwner v s).2 := by
  unfold selectHolderLimitsOwner
  split
  · exact .refl s
  · split
    · exact .refl s
    · refine ExportKept.trans (State.config_exportKept ?_) (State.reevaluate_changes (s := State.markConfig _)).exportKept
      rfl

theorem setPlantParametersOwner_exportKept (f : RawPlant) : ExportKept s (setPlantParametersOwner f s).2 := by
  unfold setPlantParametersOwner
  split
  · exact .refl s
  · refine ExportKept.trans (State.config_exportKept ?_) (State.dispatchExpiry_exportKept (State.markConfig _))
    rfl

theorem setMeritListOwner_exportKept (l : List Byte) : ExportKept s (setMeritListOwner l s).2 := by
  unfold setMeritListOwner
  split
  · exact .refl s
  · split
    · exact State.config_exportKept rfl
    · exact .refl s

theorem configureBoilerOwner_exportKept (f : RawBoiler) : ExportKept s (configureBoilerOwner f s).2 := by
  unfold configureBoilerOwner
  split
  case h_2 => exact .refl s
  case h_1 b c _ _ =>
    dsimp only
    split
    · exact .refl s
    · exact ExportKept.trans (State.config_exportKept (c := { s.cfg with boilers := s.cfg.boilers.set b (some c) }) rfl)
        (State.setBoiler_changes b _).exportKept

theorem forBoiler_exportKept {v : Byte} {f : Boiler → Served} (h : ∀ b, ExportKept s (f b).2) :
    ExportKept s (forBoiler s v f).2 := by
  unfold forBoiler
  split
  · exact .refl s
  · exact h _

theorem State.startBoiler_exportKept (s : State) (b : Boiler) (f : Fuel) : ExportKept s (s.startBoiler b f).2 := by
  have purge : ExportKept s (done (s.enterPurge b f)).2 := (State.enterPurge_changes b f).exportKept
  unfold State.startBoiler
  repeat' split
  all_goals first | exact purge | exact .refl s

theorem stopOwner_exportKept (v : Byte) : ExportKept s (stopOwner v s).2 :=
  forBoiler_exportKept fun b => by
    dsimp only
    split
    · exact (State.controlledStop_changes b).exportKept
    · split
      · exact (State.setBoiler_changes b _).exportKept
      · exact .refl s

theorem changeoverOwner_exportKept (v : Byte) : ExportKept s (changeoverOwner v s).2 :=
  forBoiler_exportKept fun b => by
    split
    · split
      · exact (State.startChangeover_changes b _).exportKept
      · exact .refl s
    · exact (State.startChangeover_changes b _).exportKept
    · exact .refl s

theorem resetLockoutOwner_exportKept (v : Byte) : ExportKept s (resetLockoutOwner v s).2 :=
  forBoiler_exportKept fun b => by
    dsimp only
    split
    · exact .refl s
    · split
      · exact .refl s
      · exact ((State.setBoiler_changes b _).append (State.tellEnd_changes _ _)).exportKept.trans
          (.ite (State.clearMarker_changes b).exportKept (.refl _))

/-! ### Set Export Contract (R88) -/

theorem State.takeContract_exportKept (c : Contract) : ExportKept s (s.takeContract c) := by
  have put : RegionsKept s
      (if c = s.cfg.contract then s else ({ s with cfg := { s.cfg with contract := c } } : State).markConfig) :=
    .ite (ExportKept.refl s).toRegionsKept .of_same
  unfold State.takeContract
  dsimp only
  refine put.published.trans (ExportKept.trans ?_ (State.reckonMissing_exportKept _))
  exact .ite (State.intervalEnd_exportKept _) (.refl _)

theorem setExportContractOwner_exportKept (l : Word) (n g : Byte) : ExportKept s (setExportContractOwner l n g s).2 := by
  unfold setExportContractOwner
  split
  · exact .refl s
  · split
    · exact .refl s
    · exact State.takeContract_exportKept _

/-! ### The nomination queue (R91, R92) -/

/-- The entry placed joins the entries of other starts; that of its own start gives way to it (R91). -/
theorem mem_placeNomination {x y : Nomination} : ∀ {l : List Nomination}, l.Pairwise (fun a b => a.start < b.start) →
    (y ∈ placeNomination x l ↔ y = x ∨ y ∈ l ∧ y.start ≠ x.start)
  | [], _ => by simp [placeNomination]
  | z :: l, sorted => by
    obtain ⟨least, rest⟩ := List.pairwise_cons.mp sorted
    have later (h : x.start ≤ z.start) (k : y ∈ l) : y.start ≠ x.start :=
      Nat.ne_of_gt (Nat.lt_of_le_of_lt h (least y k))
    rw [placeNomination]
    split
    case isTrue less =>
      simp only [List.mem_cons]
      refine or_congr_right ⟨fun h => ⟨h, ?_⟩, And.left⟩
      rcases h with rfl | h
      · exact Nat.ne_of_gt less
      · exact later less.le h
    case isFalse =>
      split
      case isTrue same =>
        simp only [List.mem_cons]
        refine or_congr_right ⟨fun h => ⟨.inr h, later same.le h⟩, ?_⟩
        rintro ⟨rfl | h, ne⟩
        · exact absurd same.symm ne
        · exact h
      case isFalse ne =>
        rw [List.mem_cons, mem_placeNomination rest, List.mem_cons]
        constructor
        · rintro (rfl | rfl | ⟨h, k⟩)
          · exact .inr ⟨.inl rfl, Ne.symm ne⟩
          · exact .inl rfl
          · exact .inr ⟨.inr h, k⟩
        · rintro (rfl | ⟨rfl | h, k⟩)
          · exact .inr (.inl rfl)
          · exact .inl rfl
          · exact .inr (.inr ⟨h, k⟩)

theorem placeNomination_ascending {x : Nomination} : ∀ {l : List Nomination}, l.Pairwise (fun a b => a.start < b.start) →
    (placeNomination x l).Pairwise (fun a b => a.start < b.start)
  | [], _ => List.pairwise_singleton _ x
  | z :: l, sorted => by
    obtain ⟨least, rest⟩ := List.pairwise_cons.mp sorted
    rw [placeNomination]
    split
    case isTrue less =>
      refine List.pairwise_cons.mpr ⟨fun y h => ?_, sorted⟩
      rcases List.mem_cons.mp h with rfl | h
      · exact less
      · exact less.trans (least y h)
    case isFalse more =>
      split
      case isTrue same => exact List.pairwise_cons.mpr ⟨fun y h => same ▸ least y h, rest⟩
      case isFalse ne =>
        refine List.pairwise_cons.mpr ⟨fun y h => ?_, placeNomination_ascending rest⟩
        rcases (mem_placeNomination rest).mp h with rfl | ⟨h, -⟩
        · omega
        · exact least y h

/-- An entry of a new start makes the queue one longer; one of a start it holds leaves its length. -/
theorem placeNomination_length {x : Nomination} : ∀ {l : List Nomination}, l.Pairwise (fun a b => a.start < b.start) →
    (placeNomination x l).length = if ∃ y ∈ l, y.start = x.start then l.length else l.length + 1
  | [], _ => by simp [placeNomination]
  | z :: l, sorted => by
    obtain ⟨least, rest⟩ := List.pairwise_cons.mp sorted
    rw [placeNomination]
    split
    case isTrue less =>
      have new : ¬ ∃ y ∈ z :: l, y.start = x.start := by
        rintro ⟨y, h, same⟩
        rcases List.mem_cons.mp h with rfl | h
        · omega
        · have := least y h
          omega
      rw [if_neg new]
      rfl
    case isFalse more =>
      split
      case isTrue same => rw [if_pos ⟨z, List.mem_cons_self, same.symm⟩]; rfl
      case isFalse ne =>
        have skip : (∃ y ∈ z :: l, y.start = x.start) ↔ ∃ y ∈ l, y.start = x.start := by
          simp only [List.mem_cons, exists_eq_or_imp]
          exact or_iff_right (Ne.symm ne)
        rw [List.length_cons, placeNomination_length rest]
        simp only [skip, List.length_cons]
        split <;> rfl

theorem State.nominated_iff {x : Int} : s.nominated x = true ↔ ∃ n ∈ s.que.nominations, (n.start : Int) = x := by
  simp [State.nominated]

theorem State.placed_exportKept {x : Nomination} (energy : x.energy ≤ 1000000)
    (room : s.nominated x.start = true ∨ s.que.nominations.length < 96) :
    ExportKept s (s.setNominations (placeNomination x s.que.nominations)) := by
  refine State.setQueues_exportKept rfl fun legal => ?_
  refine { legal with
    ascending := placeNomination_ascending legal.ascending, nominations := ?_, energies := fun y h => ?_ }
  · rw [placeNomination_length legal.ascending]
    split
    case isTrue => exact legal.nominations
    case isFalse new =>
      refine room.resolve_left fun held => ?_
      obtain ⟨y, mem, same⟩ := State.nominated_iff.mp held
      exact new ⟨y, mem, Int.ofNat.inj same⟩
  · rcases (mem_placeNomination legal.ascending).mp h with rfl | ⟨h, -⟩
    · exact energy
    · exact legal.energies y h

theorem submitNominationOwner_exportKept (t e : Word) : ExportKept s (submitNominationOwner t e s).2 := by
  unfold submitNominationOwner
  dsimp only
  split
  case isTrue => exact .refl s
  case isFalse fits =>
    split
    case isTrue => exact .refl s
    case isFalse =>
      split
      case isTrue room =>
        rw [not_or] at fits
        exact State.placed_exportKept (Nat.not_lt.mp fits.1) room
      case isFalse => exact .refl s

theorem withdrawNominationOwner_exportKept (t : Word) : ExportKept s (withdrawNominationOwner t s).2 := by
  have out : ExportKept s (s.setNominations (s.que.nominations.filter fun n => decide (n.start ≠ t.toNat))) :=
    State.setQueues_exportKept rfl fun legal => legal.of_sublist List.filter_sublist
  unfold withdrawNominationOwner
  dsimp only
  repeat' split
  all_goals first | exact out | exact .refl s

/-! ### The table of curtailment orders (R95, R100) -/

theorem State.emptySlot_none (h : s.emptySlot = some n) : s.que.orders[n] = none := by
  simpa using List.find?_some h

theorem CurtailmentOrder.endPassed_iff {now : Nat} : o.endPassed now = true ↔ ∃ e ∈ o.finish, e ≤ now := by
  simp only [CurtailmentOrder.endPassed, Option.any_eq_true, decide_eq_true_eq, Option.mem_def]

theorem CurtailmentOrder.not_endPassed {now : Nat} (h : ¬ o.endPassed now = true) : ∀ e ∈ o.finish, now < e :=
  fun e he => Nat.lt_of_not_le fun le => h (CurtailmentOrder.endPassed_iff.mpr ⟨e, he, le⟩)

/-- No order held has a reference. -/
theorem State.no_reference {r : Nat} (h : ¬ (s.ordersHeld.any fun x => decide (x.2.reference = r)) = true) :
    ∀ m a, s.Holds m a → a.reference ≠ r := fun m a held same =>
  h (List.any_eq_true.mpr ⟨(m, a), State.mem_ordersHeld.mpr held, decide_eq_true same⟩)

theorem submitCurtailmentOwner_exportKept (r : Word) (k : Byte) (l t e : Word) :
    ExportKept s (submitCurtailmentOwner r k l t e s).2 := by
  unfold submitCurtailmentOwner
  split
  · exact .refl s
  · dsimp only
    split
    case isTrue => exact .refl s
    case isFalse fits =>
      split
      case isTrue => exact .refl s
      case isFalse early =>
        split
        · exact .refl s
        · next n free =>
          rw [not_or, not_or] at fits
          obtain ⟨-, ends, new⟩ := fits
          exact State.enterOrder_exportKept (State.emptySlot_none free) rfl (State.no_reference new)
            (CurtailmentOrder.not_endPassed ends) (CurtailmentOrder.not_endPassed fun late => early (.inr late))

theorem cancelCurtailmentOwner_exportKept (r : Word) : ExportKept s (cancelCurtailmentOwner r s).2 := by
  unfold cancelCurtailmentOwner
  split
  · exact .refl s
  · next x found =>
    have held : (x.1, x.2) ∈ s.ordersHeld := List.mem_of_find?_eq_some found
    exact State.removeOrder_exportKept (State.mem_ordersHeld.mp held)

/-! ### The settlement and bill queues (R114, R151) -/

theorem releaseSettlementOwner_exportKept (n : Word) : ExportKept s (releaseSettlementOwner n s).2 := by
  unfold releaseSettlementOwner
  split
  · exact .refl s
  · next r rest queue =>
    split
    · refine ((State.que_changes _).append State.markQueues_changes).exportKept_of_queues rfl rfl fun legal => ?_
      have places : rest.length < s.que.settlements.length := by rw [queue]; exact Nat.lt_succ_self _
      have numbers := numberedUpTo_tail legal.settlementNumbers
      rw [queue, List.map_cons, List.tail_cons] at numbers
      exact { legal with settlements := places.le.trans legal.settlements, settlementNumbers := numbers }
    · exact .refl s

theorem releaseBillOwner_exportKept (n : Word) : ExportKept s (releaseBillOwner n s).2 := by
  unfold releaseBillOwner
  split
  · exact .refl s
  · next r rest queue =>
    split
    · have out : ExportKept s ({ s with que := { s.que with bills := rest } } : State).markQueues := by
        refine ((State.que_changes _).append State.markQueues_changes).exportKept_of_queues rfl rfl fun legal => ?_
        have places : rest.length < s.que.bills.length := by rw [queue]; exact Nat.lt_succ_self _
        have numbers := numberedUpTo_tail legal.billNumbers
        rw [queue, List.map_cons, List.tail_cons] at numbers
        exact { legal with bills := places.le.trans legal.bills, billNumbers := numbers }
      exact out.trans (State.issueBills_exportKept 48 _)
    · exact .refl s

theorem closePeriodNowOwner_exportKept : ExportKept s (closePeriodNowOwner s).2 := by
  unfold closePeriodNowOwner
  split
  · exact .refl s
  · exact State.closeWith_exportKept _ _

end Sys2Proof.Machine
end

section
/-! SUPPORT. The requests to the Heat Metering Unit, the Condition Table and the clock, the restart, the host link and every
command keep the laws of the orders, of the limit and of the queues; settles O5 and O6. -/

namespace Sys2Proof.Machine

-- The stacks of threads for every theorem of this section at once would pass the memory limit.
set_option Elab.async false

variable {s t u : State}

/-! ### Requests to the Heat Metering Unit and the Billing Unit (chapters 7 and 8) -/

theorem configureSubstationOwner_exportKept (k : Byte) (a : Word) (g : Byte) (m e : Word) :
    ExportKept s (configureSubstationOwner k a g m e s).2 := by
  unfold configureSubstationOwner
  split
  · dsimp only
    split
    · exact State.config_exportKept rfl
    · split
      · exact .refl s
      · exact State.config_exportKept rfl
  · exact .refl s

theorem setHolidaysOwner_exportKept (m : Byte) (l : List RawDate) : ExportKept s (setHolidaysOwner m l s).2 := by
  unfold setHolidaysOwner
  dsimp only
  split
  · exact State.config_exportKept rfl
  · exact .refl s

theorem stageTariffOwner_exportKept (x : RawTariff) : ExportKept s (stageTariffOwner x s).2 := by
  unfold stageTariffOwner
  split
  · exact .refl s
  · exact State.config_exportKept rfl

theorem cancelStagedTariffOwner_exportKept : ExportKept s (cancelStagedTariffOwner s).2 := by
  unfold cancelStagedTariffOwner
  split
  · exact .refl s
  · exact State.config_exportKept rfl

/-! ### Requests to the Condition Table and the clock (chapters 9 and 11) -/

theorem clearConditionOwner_exportKept (c n : Byte) : ExportKept s (clearConditionOwner c n s).2 := by
  unfold clearConditionOwner
  split
  · exact .refl s
  · split
    · exact .refl s
    · dsimp only
      split
      · split
        · exact .refl s
        · exact ((State.removeEntry_changes _).append (State.entryCleared_changes _)).exportKept
      · exact .refl s

theorem setFaultMaskOwner_exportKept (m : Word) : ExportKept s (setFaultMaskOwner m s).2 := by
  unfold setFaultMaskOwner
  split
  · exact State.config_exportKept rfl
  · exact .refl s

theorem setLatchModeOwner_exportKept (c m : Byte) : ExportKept s (setLatchModeOwner c m s).2 := by
  unfold setLatchModeOwner
  split
  · split
    · exact State.config_exportKept rfl
    · exact .refl s
  · exact .refl s

/-- A change of the clock and of other parts that the laws do not read. -/
theorem ExportKept.of_same (running : t.running = s.running := by rfl) (que : t.que = s.que := by rfl)
    (esu : t.esu = s.esu := by rfl) (cfg : t.cfg = s.cfg := by rfl) (store : t.store = s.store := by rfl) : ExportKept s t :=
  ⟨.of_same que store, fun published => published.congr running (congrArg _ esu)
    (State.limitNow_congr (congrArg _ que) (congrArg _ cfg))⟩

theorem setTimeOwner_exportKept (v : Word) : ExportKept s (setTimeOwner v s).2 := by
  have moved : ExportKept s (s.putReading v.toNat) := .of_same
  have told {t : State} : ExportKept t (t.tellReport .timeStep 1) := (State.tellReport_changes _ _).exportKept
  have marked {t : State} : ExportKept t t.billingStart := .of_same
  unfold setTimeOwner
  dsimp only
  split
  · exact .refl s
  · split
    · exact ((moved.trans told).trans (State.scheduleStart_exportKept _)).trans marked
    · split
      · exact .refl s
      · exact ((moved.trans (.ite (.refl _) told)).trans (State.scheduleStep_exportKept _)).trans
          (State.reckonCloses_exportKept _)

theorem setLocalOffsetOwner_exportKept (m : Half) : ExportKept s (setLocalOffsetOwner m s).2 := by
  have moved : ExportKept s { s with clock := { s.clock with offset := m.toInt } } := .of_same
  unfold setLocalOffsetOwner
  dsimp only
  split
  · exact .refl s
  · split
    · exact .refl s
    · exact moved.trans (.ite ((State.scheduleOffset_exportKept _).trans (State.reckonCloses_exportKept _)) (.refl _))

/-- The store may change where its QUEUES copies keep the laws. -/
theorem State.store_regionsKept {x : Store}
    (orders : s.OrdersLegal → x.queues.both QueuesRegion.OrdersLegal)
    (queues : s.QueuesLegal → x.queues.both QueuesRegion.QueuesLegal) : RegionsKept s { s with store := x } :=
  ⟨fun legal => ⟨legal.1, orders legal⟩, fun legal => ⟨legal.1, queues legal⟩⟩

theorem factoryClearOwner_exportKept : ExportKept s (factoryClearOwner s).2 := by
  unfold factoryClearOwner
  split
  · exact .refl s
  · have cleared : RegionsKept s { s with store := s.store.cleared } :=
      State.store_regionsKept (fun _ => ⟨QueuesRegion.default_ordersLegal, QueuesRegion.default_ordersLegal⟩)
        fun _ => ⟨QueuesRegion.default_queuesLegal, QueuesRegion.default_queuesLegal⟩
    exact ⟨cleared.trans .of_same, fun published => published.congr rfl rfl (State.limitNow_congr rfl rfl)⟩

/-- Every request keeps the laws. -/
theorem owner_exportKept {i : Instr} {f : State → Served} (h : owner i = some f) : ExportKept s (f s).2 := by
  by_cases read : footprint i = [.hlu]
  · rw [owner_state_of_read h read]
    exact .refl s
  cases i with
  | setTime v => cases h; exact setTimeOwner_exportKept v
  | setLocalOffset m => cases h; exact setLocalOffsetOwner_exportKept m
  | setHolidays m l => cases h; exact setHolidaysOwner_exportKept m l
  | factoryClear => cases h; exact factoryClearOwner_exportKept
  | configureChannel n k l => cases h; exact configureChannelOwner_exportKept n k l
  | configurePoint v g => cases h; exact configurePointOwner_exportKept v g
  | configureSource n d => cases h; exact configureSourceOwner_exportKept n d
  | setSourceService n v => cases h; exact setSourceServiceOwner_exportKept n v
  | configureHolder f => cases h; exact configureHolderOwner_exportKept f
  | selectHolderLimits v => cases h; exact selectHolderLimitsOwner_exportKept v
  | setPlantParameters f => cases h; exact setPlantParametersOwner_exportKept f
  | setMeritList l => cases h; exact setMeritListOwner_exportKept l
  | configureBoiler f => cases h; exact configureBoilerOwner_exportKept f
  | startGas b | startAux b => cases h; exact forBoiler_exportKept fun b => State.startBoiler_exportKept s b _
  | stop b => cases h; exact stopOwner_exportKept b
  | changeover b => cases h; exact changeoverOwner_exportKept b
  | resetLockout b => cases h; exact resetLockoutOwner_exportKept b
  | setExportContract l n g => cases h; exact setExportContractOwner_exportKept l n g
  | submitNomination t e => cases h; exact submitNominationOwner_exportKept t e
  | withdrawNomination t => cases h; exact withdrawNominationOwner_exportKept t
  | submitCurtailment r k l t e => cases h; exact submitCurtailmentOwner_exportKept r k l t e
  | cancelCurtailment r => cases h; exact cancelCurtailmentOwner_exportKept r
  | releaseSettlementRecord n => cases h; exact releaseSettlementOwner_exportKept n
  | configureSubstation k a g m e => cases h; exact configureSubstationOwner_exportKept k a g m e
  | connect k => cases h; exact (connectOwner_changes k).exportKept
  | disconnect k => cases h; exact (disconnectOwner_changes k).exportKept
  | accept k => cases h; exact (acceptOwner_changes k).exportKept
  | reject k => cases h; exact (rejectOwner_changes k).exportKept
  | stageTariff x => cases h; exact stageTariffOwner_exportKept x
  | cancelStagedTariff => cases h; exact cancelStagedTariffOwner_exportKept
  | closePeriodNow => cases h; exact closePeriodNowOwner_exportKept
  | releaseBill n => cases h; exact releaseBillOwner_exportKept n
  | fetchCondition => cases h; exact fetchConditionOwner_changes.exportKept
  | clearCondition c n => cases h; exact clearConditionOwner_exportKept c n
  | setFaultMask m => cases h; exact setFaultMaskOwner_exportKept m
  | setLatchMode c m => cases h; exact setLatchModeOwner_exportKept c m
  | _ => first | exact absurd rfl read | cases h

/-! ### The restart (R105, R176, R177) -/

theorem Store.damage_queues {p : QueuesRegion → Prop} {x : Store} (d : Region × CopyName) (both : x.queues.both p) :
    (x.damage d).queues.both p := by
  obtain ⟨r, c⟩ := d
  cases r with
  | queues => exact Retained.damage_both _ c both
  | config | accounts => exact both

theorem Store.damages_queues {p : QueuesRegion → Prop} (l : List (Region × CopyName)) {x : Store}
    (both : x.queues.both p) : (l.foldl Store.damage x).queues.both p := by
  induction l generalizing x with
  | nil => exact both
  | cons d l ih => exact ih (Store.damage_queues d both)

theorem Store.cut_queues {p : QueuesRegion → Prop} {x : Store} (w : Option Region) (both : x.queues.both p) :
    (x.cut w).queues.both p := by
  cases w with
  | none => exact both
  | some r =>
    cases r with
    | queues => exact Retained.spoil_both _ both
    | config | accounts => exact both

/-- At its start the module takes the QUEUES contents of the store (R177). -/
theorem State.atStart_regionsKept (s : State) : RegionsKept s s.atStart :=
  ⟨fun ⟨_, copies⟩ => ⟨Retained.contents_law _ _ copies QueuesRegion.default_ordersLegal, copies⟩,
    fun ⟨_, copies⟩ => ⟨Retained.contents_law _ _ copies QueuesRegion.default_queuesLegal, copies⟩⟩

/-- A law of the region that both copies and the default meet is met by the copies as the check leaves them (R176). -/
theorem State.checked_queues {p : QueuesRegion → Prop} (found : StoreFinding) (a : AccountsRegion)
    (copies : s.store.queues.both p) (default : p .default) :
    ((s.foundStore found).checked .default a .default).queues.both p :=
  Retained.checked_both _ _ (Store.damages_queues _ copies) default

theorem State.started_regionsKept (s : State) (found : StoreFinding) : RegionsKept s (s.started found) := by
  have clock : RegionsKept s (s.foundClock found) := .ite .of_same .of_same
  have store : (s.foundClock found).store = s.store := by unfold State.foundClock; split <;> rfl
  have checked : RegionsKept (s.foundClock found) { s.foundClock found with
      store := (s.foundStore found).checked .default ((s.foundClock found).accountsRestored (s.foundStore found))
        .default } :=
    State.store_regionsKept
      (fun legal => State.checked_queues found _ (store ▸ legal.2) QueuesRegion.default_ordersLegal)
      fun legal => State.checked_queues found _ (store ▸ legal.2) QueuesRegion.default_queuesLegal
  exact (clock.trans checked).trans (State.atStart_regionsKept _)

theorem State.ordersReckoned_regionsKept (s : State) : RegionsKept s s.ordersReckoned := by
  have gridded : ExportKept s (s.setQueues s.gridQueues) :=
    State.setQueues_exportKept rfl fun legal => legal.of_sublist List.filter_sublist
  have regridded : ExportKept s s.regridded := gridded.trans (State.intervalEnd_exportKept _)
  exact (regridded.trans (State.takePassedOrders_exportKept _)).toRegionsKept.published.toRegionsKept

/-- The meter wait of a power-on begun. -/
theorem State.startWait_exportKept (q : QueuesRegion) (l : List Nomination) (g : Option GapRecord) :
    ExportKept s (s.startWait q l g) := (State.esu_changes _).exportKept_of_queues rfl rfl id

theorem State.scheduleRestartValid_regionsKept (start : s.EsuAtStart) : RegionsKept s s.scheduleRestartValid := by
  obtain ⟨gap, eq⟩ | ⟨iv, eq⟩ := State.scheduleRestartValid_outcome start
  · rw [eq]
    exact s.ordersReckoned_regionsKept.trans
      ((State.startWait_exportKept _ _ gap).trans (State.openWith_exportKept _ _ _)).toRegionsKept
  · rw [eq]
    exact s.ordersReckoned_regionsKept.trans (((State.startWait_exportKept _ _ none).trans
      (State.setInterval_exportKept _)).trans (State.reckonMissing_exportKept _)).toRegionsKept

theorem State.scheduleRestartInvalid_regionsKept (s : State) : RegionsKept s s.scheduleRestartInvalid := by
  have gridded : ExportKept s (s.setQueues s.gridQueues) :=
    State.setQueues_exportKept rfl fun legal => legal.of_sublist List.filter_sublist
  cases h : s.que.interval with
  | none =>
    rw [State.scheduleRestartInvalid_shut h]
    exact gridded.toRegionsKept.published.toRegionsKept
  | some iv =>
    rw [State.scheduleRestartInvalid_open h]
    exact ((gridded.trans (State.queueSettlement_exportKept _)).trans
      (State.withoutInterval_exportKept _)).toRegionsKept.published.toRegionsKept

theorem State.scheduleRestart_regionsKept (start : s.EsuAtStart) : RegionsKept s s.scheduleRestart :=
  .ite (State.scheduleRestartValid_regionsKept start) s.scheduleRestartInvalid_regionsKept

/-- A restart keeps the laws of the regions, and publishes the limit whatever it was (R105). -/
theorem State.restart_regionsKept (s : State) (found : StoreFinding) : RegionsKept s (s.restart found) := by
  have reported : ExportKept (s.started found) (s.reported found) := (State.tellRestart_changes _).exportKept
  have metered : ExportKept (s.rebilled found) (s.remetered found) :=
    ((State.metersRestart_changes _).append State.tellHeat_changes).exportKept
  rw [State.restart_eq]
  exact (((s.started_regionsKept found).trans reported.toRegionsKept).trans
    (State.scheduleRestart_regionsKept State.reported_esuAtStart)).trans
      ((State.billingRestart_exportKept _).trans (metered.trans (State.endEvent_exportKept _))).toRegionsKept

theorem State.restart_limitPublished (s : State) (found : StoreFinding) : (s.restart found).LimitPublished :=
  fun _ => State.restart_limit.1

/-- A restart of a module that has just got its power or its release. -/
theorem RegionsKept.restarted (h : RegionsKept s t) (found : StoreFinding) : ExportKept s (t.restart found) :=
  ⟨h.trans (t.restart_regionsKept found), fun _ => t.restart_limitPublished found⟩

/-- A module that does not run has no limit to publish. -/
theorem RegionsKept.stopped (h : RegionsKept s t) (stopped : t.running = false) : ExportKept s t :=
  ⟨h, fun _ runs => absurd runs (by rw [stopped]; decide)⟩

theorem State.powerOn_exportKept (s : State) (found : StoreFinding) : ExportKept s (s.powerOn found) := by
  have powered : RegionsKept s { s with powered := true } := .of_same
  unfold State.powerOn
  refine .ite (.refl s) ?_
  dsimp only
  split
  case isTrue held =>
    refine (powered.trans (State.atStart_regionsKept _)).stopped ?_
    show (true && !s.resetHeld) = false
    rw [held]
    rfl
  case isFalse => exact powered.restarted found

theorem State.assertReset_exportKept (s : State) : ExportKept s s.assertReset := by
  have held : RegionsKept s { s with resetHeld := true } := .of_same
  have stops : (s.powered && !true) = false := Bool.and_false _
  exact .ite ((held.trans (State.atStart_regionsKept _)).stopped stops) (held.stopped stops)

theorem State.releaseReset_exportKept (s : State) (found : StoreFinding) : ExportKept s (s.releaseReset found) := by
  have released : RegionsKept s { s with resetHeld := false } := .of_same
  unfold State.releaseReset
  refine .ite ?_ (.refl s)
  dsimp only
  split
  case isTrue => exact released.restarted found
  case isFalse dark =>
    refine released.stopped ?_
    show (s.powered && !false) = false
    rw [Bool.not_eq_true] at dark
    rw [dark]
    rfl

theorem State.powerFail_exportKept (s : State) (w : Option Region) : ExportKept s (s.powerFail w) := by
  have dark : RegionsKept s { s with powered := false, store := s.store.cut w } :=
    ⟨fun legal => ⟨legal.1, Store.cut_queues w legal.2⟩, fun legal => ⟨legal.1, Store.cut_queues w legal.2⟩⟩
  exact .ite ((dark.trans (State.atStart_regionsKept _)).stopped rfl) (.refl s)

/-! ### The host link (chapter 10) -/

theorem State.setLink_exportKept (h : HostLink) : ExportKept s (s.setLink h) := .of_same

theorem State.abandonFrame_exportKept (s : State) : ExportKept s s.abandonFrame :=
  (State.setLink_exportKept _).trans (State.tellRaise_changes _ _).exportKept

theorem State.greetFrame_exportKept (s : State) : ExportKept s s.greetFrame :=
  .ite ((State.setLink_exportKept _).trans (State.endCause_changes _ _).exportKept) (State.setLink_exportKept _)

theorem handleRequest_exportKept (kind : Byte) (payload : List Byte) : ExportKept s (handleRequest kind payload s).2 := by
  unfold handleRequest
  split
  · exact .refl s
  · split
    case h_1 f h => exact owner_exportKept h
    case h_2 => exact .refl s

theorem State.validFrame_exportKept (s : State) (kind tag : Byte) (payload : List Byte) :
    ExportKept s (s.validFrame kind tag payload) := by
  refine s.greetFrame_exportKept.trans ?_
  unfold State.validFrame
  dsimp only
  split
  · exact ((handleRequest_exportKept kind payload).trans (Served.record_exportKept _)).trans
      (State.takeActs_changes.exportKept.trans (State.setLink_exportKept _))
  · split
    · exact State.setLink_exportKept _
    · exact .refl _

theorem State.linkByte_exportKept (s : State) (b : Byte) (stop : Bool) : ExportKept s (s.linkByte b stop) := by
  have abandoned : ExportKept s s.abandonFrame := s.abandonFrame_exportKept
  have moved (a : Assembler) : ExportKept s (s.setAssembler a) := State.setLink_exportKept _
  have header (taken : List Byte) : ExportKept s (s.headerByte taken b) := by
    unfold State.headerByte
    split
    · exact .ite abandoned (moved _)
    · exact moved _
    · exact moved _
  have assembled : ExportKept s (s.assemble b) := by
    unfold State.assemble
    split
    · exact .ite (moved _) (moved _)
    · exact header _
    · exact moved _
    · exact moved _
    · exact .ite (State.validFrame_exportKept _ _ _ _) abandoned
  exact .ite assembled (.ite abandoned (moved _))

theorem State.linkGap_exportKept (s : State) : ExportKept s s.linkGap :=
  .ite s.abandonFrame_exportKept (State.setLink_exportKept _)

theorem State.replyEnds_exportKept (s : State) : ExportKept s s.replyEnds := by
  unfold State.replyEnds
  split
  · exact .refl s
  · exact State.setLink_exportKept _
  · exact State.setLink_exportKept _

theorem State.replySent_exportKept (s : State) : ExportKept s s.replySent :=
  .ite ((ExportKept.refl s).toRegionsKept.restarted nothingLost) s.replyEnds_exportKept

/-! ### The clock (R172) -/

/-- A second that passes, with a new state of the clock. -/
theorem State.clock_exportKept (c : Clock) : ExportKept s ({ s.secondPasses with clock := c } : State).noteMinute := by
  have passed : ExportKept s { s.secondPasses with clock := c } := .of_same
  exact passed.trans State.noteMinute_changes.exportKept

theorem State.wrapSecond_exportKept (s : State) : ExportKept s s.wrapSecond := by
  have passed : ExportKept s
      ({ s.secondPasses with clock := { s.clock with reading := 0, valid := false } } : State).noteMinute :=
    State.clock_exportKept _
  exact .ite (((passed.trans (State.tellReport_changes _ _).exportKept).trans (State.scheduleWrap_exportKept _)).trans
    (State.endEvent_exportKept _)) passed

theorem State.clockSecond_exportKept (s : State) : ExportKept s s.clockSecond :=
  .ite (State.clock_exportKept _) s.wrapSecond_exportKept

/-! ### The expiries of the Export Schedule Unit -/

theorem State.startPassed_pending {n : CurtailmentSlot} {k : OrderKind} {now : Nat}
    (h : ((s.que.orders[n]).any fun o => decide (o.kind = k) && o.startPassed now) = true) :
    ∃ o, s.Holds n o ∧ o.kind = k ∧ o.state = .pending ∧ o.start ≤ now := by
  obtain ⟨o, held, due⟩ := Option.any_eq_true .. |>.mp h
  rw [Bool.and_eq_true, CurtailmentOrder.startPassed, decide_eq_true_eq, decide_eq_true_eq] at due
  exact ⟨o, held, due⟩

theorem State.emergencyStartExpiry_exportKept (s : State) (n : CurtailmentSlot) : ExportKept s (s.emergencyStartExpiry n) := by
  unfold State.emergencyStartExpiry
  split
  case isTrue due =>
    obtain ⟨o, held, kind, pending, -⟩ := State.startPassed_pending due.2
    exact State.emergencyStart_exportKept held pending kind
  case isFalse => exact .refl s

theorem State.ordinaryStartExpiry_exportKept (s : State) (n : CurtailmentSlot) : ExportKept s (s.ordinaryStartExpiry n) := by
  unfold State.ordinaryStartExpiry
  split
  case isTrue due =>
    obtain ⟨o, held, -, pending, -⟩ := State.startPassed_pending due.2
    exact State.ordinaryStart_exportKept held pending
  case isFalse => exact .refl s

theorem State.activeSlot_holds {n : CurtailmentSlot} (h : s.activeSlot = some n) : ∃ o, s.Holds n o ∧ o.state = .active := by
  unfold State.activeSlot at h
  obtain ⟨m, o, found, held, active⟩ | ⟨none, -⟩ := s.find_ordersHeld .active
  · rw [found] at h
    cases h
    exact ⟨o, held, active⟩
  · rw [none] at h
    cases h

theorem State.activeOrderEnd_exportKept (s : State) : ExportKept s s.activeOrderEnd := by
  unfold State.activeOrderEnd
  split
  · exact .refl s
  · next slot =>
    obtain ⟨o, held, active⟩ := State.activeSlot_holds slot
    exact .ite (State.removeActive_exportKept held active) (.refl s)

theorem State.inactiveOrderEnd_exportKept (s : State) (n : CurtailmentSlot) : ExportKept s (s.inactiveOrderEnd n) := by
  unfold State.inactiveOrderEnd
  split
  case isTrue due =>
    refine State.setOrder_none_exportKept fun o held active => ?_
    have aside := due.2
    rw [show s.que.orders[n] = some o from held, Option.any_some, active] at aside
    cases aside
  case isFalse => exact .refl s

/-! ### Every command -/

theorem duringOperation_exportKept {f : State → State} (h : duringOperation s f = .next t) (kept : ExportKept s (f s)) :
    ExportKept s t := by
  rw [duringOperation_next] at h
  cases h
  exact .ite (kept.trans (State.endEvent_exportKept _)) (.refl s)

theorem exec_exportKept {i : Instr} (h : exec i s = .next t) : ExportKept s t := by
  have event {f : State → State} (run : duringOperation s f = .next t) (kept : ExportKept s (f s)) : ExportKept s t :=
    duringOperation_exportKept run kept
  cases served : owner i with
  | some f =>
    rw [exec_of_owner served] at h
    exact event h ((owner_exportKept served).trans (Served.record_exportKept _))
  | none =>
  cases i with
  | powerOn found => cases h; exact s.powerOn_exportKept found
  | resetAsserted => cases h; exact s.assertReset_exportKept
  | resetReleased found => cases h; exact s.releaseReset_exportKept found
  | powerFailure w => cases h; exact s.powerFail_exportKept w
  | clockWrap => cases h; exact .ite (.refl s) s.wrapSecond_exportKept
  | calendarClockSecond => cases h; exact s.clockSecond_exportKept
  | plantReleaseFall =>
    simp only [exec, execPlantReleaseFall] at h
    have moved : ExportKept s { s with plantRelease := false } := .of_same
    split at h
    · exact moved.trans (duringOperation_exportKept h State.releaseFall_changes.exportKept)
    · cases h; exact .refl s
  | plantReleaseRise =>
    simp only [exec, execPlantReleaseRise] at h
    have moved : ExportKept s { s with plantRelease := true } := .of_same
    split at h
    · cases h; exact .refl s
    · exact moved.trans (duringOperation_exportKept h State.releaseRise_changes.exportKept)
  | fieldSampleFrame l c k b x => exact event (f := (·.fieldFrame l c k b x)) h (State.fieldFrame_exportKept _ _ _ _ _ _)
  | fieldFrameGapExpiry l => exact event (f := (·.setLine l .hunting)) h (State.setLine_exportKept _ _)
  | fieldLineByteReceived l b stop => exact event (f := (·.fieldByte l b stop)) h (State.fieldByte_exportKept _ _ _ _)
  | silenceExpiry ch =>
    exact event (f := (·.silenceExpiry ch)) h (ExportKept.ite (State.silenceExpire_exportKept _ _) (.refl s))
  | holdExpiry p => exact event (f := (·.holdExpiry p)) h (State.holdExpiry_exportKept _ _)
  | waitingTimerExpiry p =>
    exact event (f := (·.waitingExpiry p)) h
      (ExportKept.ite ((State.setPoint_exportKept _ _).trans (State.tellRaise_changes _ _).exportKept) (.refl s))
  | filterExpiry d => exact event (f := (·.filterExpiry d)) h (State.filterExpiry_changes _).exportKept
  | dispatchExpiry => exact event h s.dispatchExpiry_exportKept
  | setpointFrameSent => exact event h State.frameSent_changes.exportKept
  | purgeExpiry b => exact event (f := (·.purgeExpiry b)) h (State.purgeExpiry_changes b).exportKept
  | lightOffExpiry b => exact event (f := (·.lightOffExpiry b)) h (State.lightOffExpiry_changes b).exportKept
  | confirmExpiry b => exact event (f := (·.confirmExpiry b)) h (State.confirmExpiry_changes b).exportKept
  | deadExpiry b => exact event (f := (·.deadExpiry b)) h (State.deadExpiry_changes b).exportKept
  | tripHistoryAgeingExpiry b => exact event (f := (·.tripAgeing b)) h (State.tripAgeing_changes b).exportKept
  | boundaryExpiry => exact event h (ExportKept.ite s.takeBoundary_exportKept (.refl s))
  | gateExpiry => exact event h (ExportKept.ite s.reckonMissing_exportKept (.refl s))
  | emergencyStart n => exact event h (s.emergencyStartExpiry_exportKept n)
  | ordinaryStart n => exact event h (s.ordinaryStartExpiry_exportKept n)
  | activeOrderEnd => exact event h s.activeOrderEnd_exportKept
  | inactiveOrderEnd n => exact event h (s.inactiveOrderEnd_exportKept n)
  | meterWaitExpiry => exact event h (ExportKept.ite (State.endWait_exportKept none) (.refl s))
  | estimationMinute => exact event h State.estimationMinute_changes.exportKept
  | startUpWatchExpiry => exact event h State.startUpWatchExpiry_changes.exportKept
  | closeExpiry => exact event h s.reckonCloses_exportKept
  | hostFrameValid k g x => exact event (f := (·.validFrame k g x)) h (State.validFrame_exportKept _ _ _ _)
  | frameAbandoned => exact event h s.abandonFrame_exportKept
  | hostGapExpiry => exact event h s.linkGap_exportKept
  | replySent => exact event h s.replySent_exportKept
  | hostLinkByteReceived b stop => exact event (f := (·.linkByte b stop)) h (State.linkByte_exportKept _ _ _)
  | _ => cases served

/-- Every step keeps the laws of the orders, of the limit and of the queues. -/
theorem step_exportKept (h : step s = .next t) : ExportKept s t := by
  unfold step at h
  split at h
  case h_1 => cases h; exact .refl s
  case h_2 rest _ =>
    have taken : ExportKept s { s with pending := rest } := .of_same
    exact taken.trans (exec_exportKept h)

/-- Settles O5: no operation of any command breaks the law of the orders, and each that changes what the limit rests on
ends with its publication. -/
theorem ordersLawKept : Obligations.OrdersLawKept :=
  ⟨fun _ _ legal h => (step_exportKept h).orders legal, fun _ _ published h => (step_exportKept h).limit published⟩

/-- Settles O6: the queues only lose entries, but for a nomination at its place and for records and bills that join with
the next number. -/
theorem queuesLawKept : Obligations.QueuesLawKept := fun _ _ legal h => (step_exportKept h).queues legal

end Sys2Proof.Machine
end

section
/-! SUPPORT. The requests on the nomination queue, outcome by outcome; settles O44. -/

namespace Sys2Proof.Machine

-- The stacks of threads for every theorem of this section at once would pass the memory limit.
set_option Elab.async false

variable {s t : State} {start energy : Word}

/-! ### What the requests test (R91, R92) -/

theorem State.leadSeconds_eq : ((s.leadSeconds : Nat) : Int) = 60 * s.cfg.contract.lead := by
  unfold State.leadSeconds
  omega

theorem State.tooLate_iff {x : Nat} : s.tooLate x = true ↔
    s.clock.valid = false ∨ (x : Int) - 60 * s.cfg.contract.lead ≤ s.clock.reading := by
  rw [State.tooLate, State.leadSeconds_eq, Bool.or_eq_true, Bool.not_eq_true', decide_eq_true_eq]

theorem State.isBoundary_eq_true {x : Int} : s.isBoundary x = true ↔ OnGrid s.cfg.intervalSeconds s.clock.offset x := by
  rw [State.isBoundary_iff, decide_eq_true_eq]

theorem State.nominated_start {x : Nat} : s.nominated x = true ↔ ∃ m ∈ s.que.nominations, m.start = x := by
  rw [State.nominated_iff]
  simp only [Nat.cast_inj]

/-! ### The outcomes of Submit Nomination -/

theorem submitNominationOwner_badField
    (bad : 1000000 < energy.toNat ∨ ¬ OnGrid s.cfg.intervalSeconds s.clock.offset start.toNat) :
    submitNominationOwner start energy s = refuse s .badField :=
  if_pos (bad.imp id (mt State.isBoundary_eq_true.mp))

/-- The outcomes for a start on the grid and an energy within its range. -/
theorem submitNominationOwner_fits (fits : energy.toNat ≤ 1000000)
    (grid : OnGrid s.cfg.intervalSeconds s.clock.offset start.toNat) : submitNominationOwner start energy s =
      if s.tooLate start.toNat then refuse s .tooLate
      else if s.nominated start.toNat ∨ s.que.nominations.length < 96 then
        done (s.setNominations (placeNomination { start := start.toNat, energy := energy.toNat } s.que.nominations))
      else refuse s .full :=
  if_neg (not_or.mpr ⟨Nat.not_lt.mpr fits, not_not.mpr (State.isBoundary_eq_true.mpr grid)⟩)

/-! ### The outcomes of Withdraw Nomination -/

theorem withdrawNominationOwner_badField (off : ¬ OnGrid s.cfg.intervalSeconds s.clock.offset start.toNat) :
    withdrawNominationOwner start s = refuse s .badField :=
  if_pos (mt State.isBoundary_eq_true.mp off)

/-- The outcomes for a start on the grid. -/
theorem withdrawNominationOwner_grid (grid : OnGrid s.cfg.intervalSeconds s.clock.offset start.toNat) :
    withdrawNominationOwner start s =
      if s.tooLate start.toNat then refuse s .tooLate
      else if s.nominated start.toNat then
        done (s.setNominations (s.que.nominations.filter fun n => decide (n.start ≠ start.toNat)))
      else refuse s .notFound :=
  if_neg (not_not.mpr (State.isBoundary_eq_true.mpr grid))

/-- A queue that changes is marked. -/
theorem State.setQueues_of_ne {q : QueuesRegion} (changed : q ≠ s.que) :
    s.setQueues q = ({ s with que := q } : State).markQueues := if_neg changed

/-- The entry of a start that is held leaves the queue, which changes by it. -/
theorem State.withdrawn_changes (held : ∃ m ∈ s.que.nominations, m.start = start.toNat) :
    ({ s.que with nominations := s.que.nominations.filter fun n => decide (n.start ≠ start.toNat) } : QueuesRegion) ≠
      s.que := by
  intro same
  obtain ⟨m, mem, named⟩ := held
  have left := List.filter_eq_self.mp (congrArg QueuesRegion.nominations same) m mem
  exact of_decide_eq_true left named

/-! ### The queue after a submission -/

@[simp] theorem State.endEvent_que : s.endEvent.que = s.que := State.endEvent_changes .que (by decide)

@[simp] theorem State.endEvent_esu : s.endEvent.esu = s.esu := State.endEvent_changes .esu (by decide)

@[simp] theorem State.endEvent_cfg : s.endEvent.cfg = s.cfg := State.endEvent_changes .cfg (by decide)

@[simp] theorem State.endEvent_hlu : s.endEvent.hlu = s.hlu := State.endEvent_changes .hlu (by decide)

/-- The queue that a request sets stands at its end, answered OK. -/
theorem State.setNominations_answered (l : List Nomination) :
    (s.setNominations l).answeredOk.endEvent.que = { s.que with nominations := l } ∧
      (s.setNominations l).answeredOk.endEvent.hlu = s.answeredOk.hlu := by
  rw [State.endEvent_que, State.endEvent_hlu]
  exact ⟨State.setQueues_que _, State.answeredOk_hlu (State.setQueues_changes _ .hlu (by decide))⟩

/-- Settles O44: the two owners' outcomes in order, and the queue with the new entry at its place. -/
theorem nominationRequests : Obligations.NominationRequests := by
  intro s start energy work legal
  dsimp only
  refine ⟨fun off => ⟨?_, ?_⟩, fun large => ?_, fun grid passed => ⟨?_, fun fits => ?_⟩, fun grid ahead => ?_⟩
  · exact exec_refuse rfl work (submitNominationOwner_badField (.inr off))
  · exact exec_refuse rfl work (withdrawNominationOwner_badField off)
  · exact exec_refuse rfl work (submitNominationOwner_badField (.inl large))
  · exact exec_refuse rfl work ((withdrawNominationOwner_grid grid).trans (if_pos (State.tooLate_iff.mpr passed)))
  · exact exec_refuse rfl work ((submitNominationOwner_fits fits grid).trans (if_pos (State.tooLate_iff.mpr passed)))
  · have early : ¬ s.tooLate start.toNat = true := mt State.tooLate_iff.mp ahead
    have withdrawn := (withdrawNominationOwner_grid grid).trans (if_neg early)
    refine ⟨fun new => ?_, fun held => ?_, fun fits => ?_⟩
    · exact exec_refuse rfl work (withdrawn.trans (if_neg (mt State.nominated_start.mp new)))
    · rw [if_pos (State.nominated_start.mpr held)] at withdrawn
      exact serveRequest_queues work
        (withdrawn.trans (congrArg done (State.setQueues_of_ne (State.withdrawn_changes held))))
    · have submitted := (submitNominationOwner_fits fits grid).trans (if_neg early)
      refine ⟨fun new full => ?_, fun room => ?_⟩
      · refine exec_refuse rfl work (submitted.trans (if_neg ?_))
        rintro (held | less)
        · exact new (State.nominated_start.mp held)
        · omega
      · rw [if_pos (room.imp State.nominated_start.mpr id)] at submitted
        obtain ⟨que, hlu⟩ := State.setNominations_answered (s := s)
          (placeNomination { start := start.toNat, energy := energy.toNat } s.que.nominations)
        refine ⟨_, exec_done rfl work submitted, hlu, by rw [que], ?_, fun m => ?_⟩
        · rw [que]
          exact placeNomination_ascending legal.ascending
        · rw [que]
          exact mem_placeNomination legal.ascending

end Sys2Proof.Machine
end

section
/-! SUPPORT. The requests on the table of curtailment orders, outcome by outcome; settles O45. -/

namespace Sys2Proof.Machine

-- The stacks of threads for every theorem of this section at once would pass the memory limit.
set_option Elab.async false

variable {s t u : State} {n m : CurtailmentSlot} {o a b : CurtailmentOrder}

/-! ### From an operation to the end of its event -/

/-- The law reads the table and the limit alone. -/
theorem EmergencyStarted.congr (h : EmergencyStarted s t n o) (que : u.que.orders = t.que.orders)
    (limit : u.esu.effLimit = t.esu.effLimit) : EmergencyStarted s u n o :=
  ⟨by rw [que]; exact h.started, by rw [limit]; exact h.limit, by rw [que]; exact h.others, by rw [que]; exact h.empty⟩

theorem ActiveRemoved.congr (h : ActiveRemoved s t n) (que : u.que = t.que) (limit : u.esu.effLimit = t.esu.effLimit) :
    ActiveRemoved s u n :=
  ⟨by rw [que]; exact h.gone, by rw [que]; exact h.passed, by rw [que]; exact h.pending, by rw [que]; exact h.empty,
    by rw [que, limit]; exact h.suspended, by rw [que, limit]; exact h.waiting, by rw [limit]; exact h.nobody,
    by rw [que]; exact h.nominations⟩

/-- OK with contents, and new QUEUES contents. -/
theorem exec_answered_queues {i : Instr} {f : State → Served} {c : Answer} {q : QueuesRegion} (owned : owner i = some f)
    (work : s.working = true) (h : f s = (c, ({ s with que := q } : State).markQueues)) :
    exec i s = .next ((s.withQueues q).answered c) := by
  rw [exec_of_owner owned, serveRequest_running f (State.running_of_working work), h]
  have untold : (Served.record (c, ({ s with que := q } : State).markQueues)).acts = [] := (State.acts_of_working work :)
  rw [State.endEvent_of_untold untold]
  exact congrArg (fun t => Host.Outcome.next (State.answered t c))
    (State.writeMarked_queues q (State.marks_of_working work))

/-- A request that its owner answers with contents. -/
theorem exec_answered {i : Instr} {f : State → Served} {c : Answer} {t : State} (owned : owner i = some f)
    (work : s.working = true) (h : f s = (c, t)) : exec i s = .next (t.answered c).endEvent := by
  rw [exec_of_owner owned, serveRequest_running f (State.running_of_working work), h]
  rfl

/-! ### Submit Curtailment (R95) -/

section Submit

variable {ref limit start finish : Word} {kind : Byte} {k : OrderKind}

/-- The order that a submission asks for. -/
def orderAsked (ref : Word) (k : OrderKind) (limit start finish : Word) : CurtailmentOrder :=
  { reference := ref.toNat, kind := k, limit := limit.toNat, start := start.toNat, finish := readFinish finish,
    state := .pending }

theorem readOrderKind_none (h : 1 < kind.toNat) : readOrderKind kind = none := by
  unfold readOrderKind
  split <;> first | omega | rfl

theorem readOrderKind_some (h : ¬ 1 < kind.toNat) : ∃ k, readOrderKind kind = some k := by
  obtain zero | one : kind.toNat = 0 ∨ kind.toNat = 1 := by omega
  · exact ⟨.ordinary, by rw [readOrderKind, zero]; rfl⟩
  · exact ⟨.emergency, by rw [readOrderKind, one]; rfl⟩

theorem readOrderKind_eq (h : kind = 0 ∧ k = .ordinary ∨ kind = 1 ∧ k = .emergency) : readOrderKind kind = some k := by
  obtain ⟨rfl, rfl⟩ | ⟨rfl, rfl⟩ := h <;> rfl

theorem submitCurtailmentOwner_kind (read : readOrderKind kind = none) :
    submitCurtailmentOwner ref kind limit start finish s = refuse s .badField := by
  rw [submitCurtailmentOwner, read]

/-- The outcomes for a kind of section 5.5. -/
theorem submitCurtailmentOwner_eq (read : readOrderKind kind = some k) :
    submitCurtailmentOwner ref kind limit start finish s =
      if 2000000 < limit.toNat ∨ (orderAsked ref k limit start finish).endPassed start.toNat ∨
          s.ordersHeld.any fun x => decide (x.2.reference = ref.toNat) then refuse s .badField
      else if ¬ s.clock.valid ∨ (orderAsked ref k limit start finish).endPassed s.clock.reading then refuse s .tooLate
      else match s.emptySlot with
        | none => refuse s .full
        | some n => (okWith (numberByte n), s.enterOrder n (orderAsked ref k limit start finish)) := by
  rw [submitCurtailmentOwner, read] <;> rfl

theorem orderAsked_ended {now : Nat} : (orderAsked ref k limit start finish).endPassed now = true ↔
    ∃ e, readFinish finish = some e ∧ e ≤ now := CurtailmentOrder.endPassed_iff

theorem State.reference_held {r : Nat} : (s.ordersHeld.any fun x => decide (x.2.reference = r)) = true ↔
    ∃ n o, s.Holds n o ∧ o.reference = r := by
  rw [List.any_eq_true]
  constructor
  · rintro ⟨⟨n, o⟩, mem, same⟩
    exact ⟨n, o, State.mem_ordersHeld.mp mem, of_decide_eq_true same⟩
  · rintro ⟨n, o, held, same⟩
    exact ⟨(n, o), State.mem_ordersHeld.mpr held, decide_eq_true same⟩

/-- What R95 refuses with BAD_FIELD. -/
def State.BadOrder (s : State) (ref : Word) (kind : Byte) (limit start finish : Word) : Prop :=
  1 < kind.toNat ∨ 2000000 < limit.toNat ∨ (∃ e, readFinish finish = some e ∧ e ≤ start.toNat) ∨
    ∃ n o, s.Holds n o ∧ o.reference = ref.toNat

/-- What R95 refuses with TOO_LATE. -/
def State.LateOrder (s : State) (finish : Word) : Prop :=
  s.clock.valid = false ∨ ∃ e, readFinish finish = some e ∧ e ≤ s.clock.reading

theorem submitCurtailmentOwner_bad (bad : s.BadOrder ref kind limit start finish) :
    submitCurtailmentOwner ref kind limit start finish s = refuse s .badField := by
  by_cases high : 1 < kind.toNat
  · exact submitCurtailmentOwner_kind (readOrderKind_none high)
  · obtain ⟨k, read⟩ := readOrderKind_some high
    rw [submitCurtailmentOwner_eq read]
    exact if_pos ((bad.resolve_left high).imp id (.imp orderAsked_ended.mpr State.reference_held.mpr))

/-- The outcomes of a submission without a bad field. -/
theorem submitCurtailmentOwner_good (read : readOrderKind kind = some k) (good : ¬ s.BadOrder ref kind limit start finish) :
    submitCurtailmentOwner ref kind limit start finish s =
      if ¬ s.clock.valid ∨ (orderAsked ref k limit start finish).endPassed s.clock.reading then refuse s .tooLate
      else match s.emptySlot with
        | none => refuse s .full
        | some n => (okWith (numberByte n), s.enterOrder n (orderAsked ref k limit start finish)) := by
  rw [submitCurtailmentOwner_eq read]
  exact if_neg fun bad => good (.inr (bad.imp id (.imp orderAsked_ended.mp State.reference_held.mp)))

theorem submitCurtailmentOwner_late (read : readOrderKind kind = some k) (good : ¬ s.BadOrder ref kind limit start finish)
    (late : s.LateOrder finish) : submitCurtailmentOwner ref kind limit start finish s = refuse s .tooLate := by
  rw [submitCurtailmentOwner_good read good]
  exact if_pos (late.imp (fun invalid => by rw [invalid]; decide) orderAsked_ended.mpr)

theorem submitCurtailmentOwner_early (read : readOrderKind kind = some k) (good : ¬ s.BadOrder ref kind limit start finish)
    (early : ¬ s.LateOrder finish) : submitCurtailmentOwner ref kind limit start finish s =
      match s.emptySlot with
      | none => refuse s .full
      | some n => (okWith (numberByte n), s.enterOrder n (orderAsked ref k limit start finish)) := by
  rw [submitCurtailmentOwner_good read good]
  exact if_neg fun late => early (late.imp Bool.of_not_eq_true orderAsked_ended.mp)

theorem submitCurtailmentOwner_full (read : readOrderKind kind = some k) (good : ¬ s.BadOrder ref kind limit start finish)
    (early : ¬ s.LateOrder finish) (full : s.emptySlot = none) :
    submitCurtailmentOwner ref kind limit start finish s = refuse s .full := by
  rw [submitCurtailmentOwner_early read good early, full]

theorem submitCurtailmentOwner_entered (read : readOrderKind kind = some k)
    (good : ¬ s.BadOrder ref kind limit start finish) (early : ¬ s.LateOrder finish) (free : s.emptySlot = some n) :
    submitCurtailmentOwner ref kind limit start finish s =
      (okWith (numberByte n), s.enterOrder n (orderAsked ref k limit start finish)) := by
  rw [submitCurtailmentOwner_early read good early, free]

theorem numberByte_slot (n : CurtailmentSlot) : numberByte n = [BitVec.ofNat 8 (n.val + 1)] := by
  rw [numberByte, field, if_pos (by omega)]
  rfl

end Submit

/-! ### An order whose start has come (R95, R96, R97) -/

/-- The table with an order that starts at the request. -/
def State.entering (s : State) (n : CurtailmentSlot) (o : CurtailmentOrder) : State :=
  (s.setOrder n (some { o with start := s.clock.reading })).markQueues

theorem State.enterOrder_begun (begun : o.start ≤ s.clock.reading) : s.enterOrder n o = (s.entering n o).takeStart n :=
  if_pos begun

theorem State.enterOrder_ahead (ahead : s.clock.reading < o.start) :
    s.enterOrder n o = (s.setOrder n (some o)).markQueues := if_neg (Nat.not_le.mpr ahead)

theorem State.entering_holds : (s.entering n o).Holds m a ↔
    m = n ∧ a = { o with start := s.clock.reading } ∨ m ≠ n ∧ s.Holds m a := by
  have get : (s.entering n o).que.orders[m] = if m = n then some { o with start := s.clock.reading } else s.que.orders[m] :=
    State.setOrder_get _
  unfold State.Holds
  rw [get]
  by_cases e : m = n
  · simp [e, eq_comm]
  · simp [e]

theorem State.entering_none (ne : m ≠ n) (empty : s.que.orders[m] = none) : (s.entering n o).que.orders[m] = none :=
  (State.setOrder_get _).trans ((if_neg ne).trans empty)

/-- A PENDING order in an empty slot is none in force. -/
theorem State.entering_activeSlot (empty : s.que.orders[n] = none) (pending : o.state = .pending) :
    (s.entering n o).activeSlot = none ↔ s.activeSlot = none := by
  rw [State.activeSlot_eq_none, State.activeSlot_eq_none]
  refine ⟨fun none m a held => none m a (State.entering_holds.mpr (.inr ⟨?_, held⟩)), fun none m a held => ?_⟩
  · rintro rfl
    exact State.not_holds_of_none empty held
  · obtain ⟨-, rfl⟩ | ⟨-, held⟩ := State.entering_holds.mp held
    · rw [show ({ o with start := s.clock.reading } : CurtailmentOrder).state = .pending from pending]
      decide
    · exact none m a held

theorem State.publishLimit_published (s : State) : s.publishLimit.esu.effLimit = s.publishLimit.limitNow :=
  State.publishLimit_effLimit.trans State.publishLimit_limitNow.symm

section Begun

variable (pending : o.state = .pending) (begun : o.start ≤ s.clock.reading)
include pending begun

theorem State.enterOrder_emergency (kind : o.kind = .emergency) :
    s.enterOrder n o = (s.entering n o).emergencyStart n ∧
      EmergencyStarted s (s.enterOrder n o) n { o with start := s.clock.reading } := by
  have put := State.entering_holds (s := s) (n := n) (o := o) |>.mpr (.inl ⟨rfl, rfl⟩)
  have eq : s.enterOrder n o = (s.entering n o).emergencyStart n := by
    rw [State.enterOrder_begun begun, State.takeStart_eq put, kind]
  obtain ⟨started, limit, others, none⟩ := State.emergencyStart_started put pending
  refine ⟨eq, ?_⟩
  rw [eq]
  exact ⟨started, limit, fun m a held ne => others m a (State.entering_holds.mpr (.inr ⟨ne, held⟩)) ne,
    fun m empty ne => none m (State.entering_none ne empty) ne⟩

theorem State.enterOrder_ordinary (empty : s.que.orders[n] = none) (kind : o.kind = .ordinary) :
    s.enterOrder n o = (s.entering n o).ordinaryStart n ∧
      (s.enterOrder n o).que.orders = s.que.orders.set n (some { o with
        start := s.clock.reading, state := if s.activeSlot = none then .active else .waiting }) := by
  have put := State.entering_holds (s := s) (n := n) (o := o) |>.mpr (.inl ⟨rfl, rfl⟩)
  have eq : s.enterOrder n o = (s.entering n o).ordinaryStart n := by
    rw [State.enterOrder_begun begun, State.takeStart_eq put, kind]
  refine ⟨eq, ?_⟩
  rw [eq, State.ordinaryStart_orders put]
  simp only [State.entering_activeSlot empty pending]
  exact Vector.set_set ..

/-- The limit in force follows the order that has started (R101). -/
theorem State.enterOrder_follows (empty : s.que.orders[n] = none) (legal : s.que.OrdersLegal)
    (new : ∀ m a, s.Holds m a → a.reference ≠ o.reference) (ahead : ∀ e ∈ o.finish, s.clock.reading < e) : (s.enterOrder n o).LimitFollows := by
  have put := State.entering_holds (s := s) (n := n) (o := o) |>.mpr (.inl ⟨rfl, rfl⟩)
  have entered : (s.entering n o).que.OrdersLegal :=
    State.setOrder_some_legal (o := { o with start := s.clock.reading }) legal empty pending new ahead
  cases kind : o.kind with
  | emergency =>
    rw [(State.enterOrder_emergency pending begun kind).1]
    exact State.limitFollows (State.emergencyStart_legal entered put pending kind) (State.publishLimit_published _)
  | ordinary =>
    rw [(State.enterOrder_ordinary pending begun empty kind).1]
    exact State.ordinaryStart_follows entered put pending

end Begun

/-! ### Cancel Curtailment (R100) -/

section Cancel

variable {ref : Word}

theorem cancelCurtailmentOwner_unknown (none : ∀ n o, s.Holds n o → o.reference ≠ ref.toNat) :
    cancelCurtailmentOwner ref s = refuse s .notFound := by
  have unfound : (s.ordersHeld.find? fun x => decide (x.2.reference = ref.toNat)) = Option.none :=
    List.find?_eq_none.mpr fun x mem same =>
      none x.1 x.2 (State.mem_ordersHeld.mp mem) (of_decide_eq_true same)
  rw [cancelCurtailmentOwner, unfound]

/-- The order named is the one with the reference: no other has it. -/
theorem cancelCurtailmentOwner_held (legal : s.que.OrdersLegal) (held : s.Holds n o) (named : o.reference = ref.toNat) :
    cancelCurtailmentOwner ref s = done (s.removeOrder n) := by
  cases found : s.ordersHeld.find? fun x => decide (x.2.reference = ref.toNat) with
  | none =>
    exact absurd (decide_eq_true named) (List.find?_eq_none.mp found (n, o) (State.mem_ordersHeld.mpr held))
  | some x =>
    have other := State.mem_ordersHeld.mp (List.mem_of_find?_eq_some found : (x.1, x.2) ∈ s.ordersHeld)
    have same : x.2.reference = ref.toNat := of_decide_eq_true (List.find?_some found :)
    have slot : x.1 = n := legal.references x.1 n x.2 other o held (same.trans named.symm)
    rw [cancelCurtailmentOwner, found]
    exact congrArg (fun m => done (s.removeOrder m)) slot

end Cancel

/-- The removal of the ACTIVE order among PENDING ones leaves these, and the contract limit. -/
theorem ActiveRemoved.alone (removed : ActiveRemoved s t n) (held : s.Holds n o) (active : o.state = .active)
    (others : ∀ m a, s.Holds m a → m ≠ n → a.state = .pending) :
    t.que.orders = s.que.orders.set n none ∧ t.esu.effLimit = s.cfg.contract.limit := by
  have idle {m : CurtailmentSlot} {a : CurtailmentOrder} (h : s.Holds m a) : a.state = .active ∨ a.state = .pending := by
    by_cases e : m = n
    · subst e
      cases held.symm.trans h
      exact .inl active
    · exact .inr (others m a h e)
  refine ⟨Vector.ext fun i hi => ?_, removed.nobody fun m a h => ⟨fun follows => ?_, fun follows => ?_⟩⟩
  · have get : (s.que.orders.set n none)[i] = if (⟨i, hi⟩ : CurtailmentSlot) = n then none else s.que.orders[i] :=
      State.setOrder_get (s := s) (n := n) (m := ⟨i, hi⟩) none
    rw [get]
    split
    case isTrue e => subst e; exact removed.gone
    case isFalse e =>
      obtain empty | ⟨a, h⟩ := s.holds_or_none ⟨i, hi⟩
      · exact (removed.empty _ empty).trans empty.symm
      · exact (removed.pending _ a h (others _ a h e)).trans h.symm
  · obtain h | h := idle h <;> rw [follows.1] at h <;> cases h
  · obtain h | h := idle h <;> rw [follows.1] at h <;> cases h

/-! ### Both requests -/

theorem submitCurtailment_by_case (s : State) (ref limit start finish : Word) (kind : Byte) (work : s.working = true) :
    (s.BadOrder ref kind limit start finish →
      exec (.submitCurtailment ref kind limit start finish) s = .next (s.refusedWith .badField)) ∧
    (¬ s.BadOrder ref kind limit start finish → s.LateOrder finish →
      exec (.submitCurtailment ref kind limit start finish) s = .next (s.refusedWith .tooLate)) ∧
    (¬ s.BadOrder ref kind limit start finish → ¬ s.LateOrder finish → s.emptySlot = none →
      exec (.submitCurtailment ref kind limit start finish) s = .next (s.refusedWith .full)) := by
  have read (good : ¬ s.BadOrder ref kind limit start finish) : ∃ k, readOrderKind kind = some k :=
    readOrderKind_some fun high => good (.inl high)
  refine ⟨fun bad => exec_refuse rfl work (submitCurtailmentOwner_bad bad), fun good late => ?_, fun good early full => ?_⟩
  · obtain ⟨k, read⟩ := read good
    exact exec_refuse rfl work (submitCurtailmentOwner_late read good late)
  · obtain ⟨k, read⟩ := read good
    exact exec_refuse rfl work (submitCurtailmentOwner_full read good early full)

/-- Settles O45: each request by its owner's outcomes; a start at the request is that of R96 or R97 on the table with the
new order in it, and a cancellation of the order in force its removal, whatever the clock. -/
theorem curtailmentRequestsByCase : Obligations.CurtailmentRequestsByCase := by
  refine ⟨fun s ref limit start finish kind work => ?_, fun s ref work legal => ⟨fun none => ?_, fun n o held named => ?_⟩⟩
  · obtain ⟨bad, late, full⟩ := submitCurtailment_by_case s ref limit start finish kind work
    refine ⟨bad, late, full, fun n k good early free code => ⟨fun ahead => ?_, fun begun => ?_⟩⟩
    all_goals
      have entered := submitCurtailmentOwner_entered (ref := ref) (limit := limit) (start := start) (readOrderKind_eq code)
        good early free
      rw [numberByte_slot] at entered
      have empty := State.emptySlot_none free
    · rw [State.enterOrder_ahead ahead] at entered
      exact exec_answered_queues rfl work entered
    · have new (m : CurtailmentSlot) (a : CurtailmentOrder) (h : s.Holds m a) : a.reference ≠ ref.toNat := fun same =>
        good (.inr (.inr (.inr ⟨m, a, h, same⟩)))
      have ends (e : Nat) (h : e ∈ readFinish finish) : s.clock.reading < e :=
        Nat.lt_of_not_le fun le => early (.inr ⟨e, h, le⟩)
      refine ⟨_, exec_answered rfl work entered, by rw [State.endEvent_hlu]; rfl, ?_, ?_, fun legal => ?_⟩
      · rintro rfl
        exact (State.enterOrder_emergency rfl begun rfl).2.congr (congrArg _ State.endEvent_que)
          (congrArg _ State.endEvent_esu)
      · rintro rfl
        rw [State.endEvent_que]
        exact (State.enterOrder_ordinary rfl begun empty rfl).2
      · exact (State.enterOrder_follows rfl begun empty legal new ends).congr (congrArg _ State.endEvent_que)
          (congrArg _ State.endEvent_esu) (by rw [State.endEvent_cfg]; rfl)
  · exact exec_refuse rfl work (cancelCurtailmentOwner_unknown none)
  · have cancelled := cancelCurtailmentOwner_held legal held named
    rw [State.removeOrder_eq held] at cancelled
    refine ⟨fun idle => ?_, fun active => ?_⟩
    · rw [if_neg idle] at cancelled
      exact serveRequest_queues work cancelled
    · rw [if_pos active] at cancelled
      have removed : ActiveRemoved s (s.removeActive n).answeredOk.endEvent n :=
        (State.removeActive_activeRemoved legal held active).congr State.endEvent_que (congrArg _ State.endEvent_esu)
      refine ⟨_, exec_done rfl work cancelled, ?_, removed, fun others => removed.alone held active others⟩
      rw [State.endEvent_hlu]
      exact State.answeredOk_hlu (State.removeActive_changes n .hlu (by decide))

end Sys2Proof.Machine
end

section
/-! SUPPORT. The starts and the ends of curtailment orders, when they are due and when not; settles O46. -/

namespace Sys2Proof.Machine

-- The stacks of threads for every theorem of this section at once would pass the memory limit.
set_option Elab.async false

variable {s t u : State} {n m : CurtailmentSlot} {o a b : CurtailmentOrder}

/-- An event of the working module that changes nothing. -/
theorem duringOperation_same {f : State → State} (work : s.working = true) (same : f s = s) :
    duringOperation s f = .next s := by
  have next := duringOperation_clean f work (by rw [same]) (by rw [same])
  rwa [same] at next

/-- An event of the working module that changes the QUEUES contents alone. -/
theorem duringOperation_queues {f : State → State} {q : QueuesRegion} (work : s.working = true)
    (h : f s = ({ s with que := q } : State).markQueues) : duringOperation s f = .next (s.withQueues q) := by
  rw [duringOperation_running f (State.running_of_working work), h]
  have untold : ({ s with que := q } : State).markQueues.acts = [] := (State.acts_of_working work :)
  rw [State.endEvent_of_untold untold]
  exact congrArg Host.Outcome.next (State.writeMarked_queues q (State.marks_of_working work))

/-! ### Starts (R96, R97) -/

theorem CurtailmentOrder.startPassed_iff {now : Nat} :
    o.startPassed now = true ↔ o.state = .pending ∧ o.start ≤ now := decide_eq_true_iff

/-- Ahead of an order's start neither start is due. -/
theorem State.startExpiry_ahead (held : s.Holds n o) (ahead : s.clock.reading < o.start) :
    s.emergencyStartExpiry n = s ∧ s.ordinaryStartExpiry n = s := by
  have undue (k : OrderKind) : ¬ ((s.que.orders[n]).any fun o => decide (o.kind = k) && o.startPassed s.clock.reading) =
      true := fun due => by
    obtain ⟨a, there, -, -, begun⟩ := State.startPassed_pending due
    cases held.symm.trans there
    omega
  exact ⟨if_neg fun due => undue _ due.2, if_neg fun due => undue _ due.2⟩

theorem State.start_due {k : OrderKind} (held : s.Holds n o) (pending : o.state = .pending) (kind : o.kind = k)
    (begun : o.start ≤ s.clock.reading) :
    ((s.que.orders[n]).any fun o => decide (o.kind = k) && o.startPassed s.clock.reading) = true := by
  rw [show s.que.orders[n] = some o from held, Option.any_some, decide_eq_true kind, Bool.true_and]
  exact CurtailmentOrder.startPassed_iff.mpr ⟨pending, begun⟩

theorem State.emergencyStartExpiry_due (valid : s.clock.valid = true) (held : s.Holds n o) (pending : o.state = .pending)
    (begun : o.start ≤ s.clock.reading) (kind : o.kind = .emergency) : s.emergencyStartExpiry n = s.emergencyStart n :=
  if_pos ⟨valid, State.start_due held pending kind begun⟩

theorem State.ordinaryStartExpiry_due (valid : s.clock.valid = true) (held : s.Holds n o) (pending : o.state = .pending)
    (begun : o.start ≤ s.clock.reading) (kind : o.kind = .ordinary) : s.ordinaryStartExpiry n = s.ordinaryStart n :=
  if_pos ⟨valid, State.start_due held pending kind begun⟩

/-! ### Ends (R98, R99) -/

/-- The slot of the one ACTIVE order. -/
theorem State.activeSlot_of_active (legal : s.que.OrdersLegal) (held : s.Holds n o) (active : o.state = .active) :
    s.activeSlot = some n := by
  cases slot : s.activeSlot with
  | none => exact absurd active (State.activeSlot_eq_none.mp slot n o held)
  | some m =>
    obtain ⟨a, there, act⟩ := State.activeSlot_holds slot
    rw [legal.oneActive m n a there o held act active]

theorem CurtailmentOrder.endPassed_of_finish {e now : Nat} (finish : o.finish = some e) :
    o.endPassed now = decide (e ≤ now) := by
  rw [CurtailmentOrder.endPassed, finish, Option.any_some]

theorem State.activeOrderEnd_eq {e : Nat} (legal : s.que.OrdersLegal) (valid : s.clock.valid = true) (held : s.Holds n o)
    (active : o.state = .active) (finish : o.finish = some e) :
    s.activeOrderEnd = if e ≤ s.clock.reading then s.removeActive n else s := by
  have there : s.que.orders[n] = some o := held
  rw [State.activeOrderEnd, State.activeSlot_of_active legal held active]
  simp only [valid, there, Option.any_some, CurtailmentOrder.endPassed_of_finish finish, decide_eq_true_eq, true_and]

theorem State.inactiveOrderEnd_eq {e : Nat} (valid : s.clock.valid = true) (held : s.Holds n o)
    (aside : o.state = .suspended ∨ o.state = .waiting) (finish : o.finish = some e) :
    s.inactiveOrderEnd n = if e ≤ s.clock.reading then (s.setOrder n none).markQueues else s := by
  have there : s.que.orders[n] = some o := held
  rw [State.inactiveOrderEnd]
  simp only [valid, there, Option.any_some, CurtailmentOrder.endPassed_of_finish finish, aside, decide_true, Bool.true_and,
    decide_eq_true_eq, true_and]

/-- Settles O46: where its time has come, each expiry is the start, the removal or the leaving of its order. -/
theorem orderStartsAndEnds : Obligations.OrderStartsAndEnds := by
  refine ⟨fun s n o work valid held pending => ⟨fun ahead => ?_, fun begun kind => ?_, fun begun kind => ?_⟩,
    fun s n o e work valid legal held finish => ⟨fun active => ⟨fun ahead => ?_, fun ended => ?_⟩,
      fun aside => ⟨fun ahead => ?_, fun ended => ?_⟩⟩⟩
  · obtain ⟨emergency, ordinary⟩ := State.startExpiry_ahead held ahead
    exact ⟨duringOperation_same (f := (·.emergencyStartExpiry n)) work emergency,
      duringOperation_same (f := (·.ordinaryStartExpiry n)) work ordinary⟩
  · refine ⟨_, duringOperation_running (·.emergencyStartExpiry n) (State.running_of_working work), ?_⟩
    rw [State.emergencyStartExpiry_due valid held pending begun kind]
    exact (State.emergencyStart_started held pending).congr (congrArg _ State.endEvent_que) (congrArg _ State.endEvent_esu)
  · refine ⟨_, duringOperation_running (·.ordinaryStartExpiry n) (State.running_of_working work), ?_, fun legal => ?_⟩
    all_goals
      rw [State.ordinaryStartExpiry_due valid held pending begun kind]
    · rw [State.endEvent_que]
      exact State.ordinaryStart_orders held
    · exact (State.ordinaryStart_follows legal held pending).congr (congrArg _ State.endEvent_que)
        (congrArg _ State.endEvent_esu) (by rw [State.endEvent_cfg])
  · exact duringOperation_same work ((State.activeOrderEnd_eq legal valid held active finish).trans
      (if_neg (Nat.not_le.mpr ahead)))
  · refine ⟨_, duringOperation_running State.activeOrderEnd (State.running_of_working work), ?_⟩
    rw [State.activeOrderEnd_eq legal valid held active finish, if_pos ended]
    exact (State.removeActive_removed legal valid held active).congr State.endEvent_que (congrArg _ State.endEvent_esu)
  · exact duringOperation_same (f := (·.inactiveOrderEnd n)) work
      ((State.inactiveOrderEnd_eq valid held aside finish).trans (if_neg (Nat.not_le.mpr ahead)))
  · exact duringOperation_queues (f := (·.inactiveOrderEnd n)) work
      ((State.inactiveOrderEnd_eq valid held aside finish).trans (if_pos ended))

end Sys2Proof.Machine
end

section
/-! SUPPORT. The contract, the gate timer and the missing intervals; settles O47. -/

namespace Sys2Proof.Machine

-- The stacks of threads for every theorem of this section at once would pass the memory limit.
set_option Elab.async false

variable {s t u : State} {c : Contract}

/-! ### Which intervals are missing (R93) -/

/-- The gated starts are those of the open interval's end and whole lengths after it whose gates have passed. -/
theorem State.mem_gatedStarts_iff (length : 0 < s.cfg.contract.length) (x : Int) : x ∈ s.gatedStarts ↔
    x - 60 * s.cfg.contract.lead ≤ s.clock.reading ∧ ∃ n : Nat, x = s.esu.intervalEnd + n * s.cfg.intervalSeconds := by
  have positive : (0 : Int) < s.cfg.intervalSeconds := by unfold ConfigRegion.intervalSeconds; omega
  have within (n : Nat) : s.esu.intervalEnd + n * s.cfg.intervalSeconds - 60 * s.cfg.contract.lead ≤ s.clock.reading ↔
      (n : Int) ≤ (s.clock.reading + 60 * s.cfg.contract.lead - s.esu.intervalEnd) / s.cfg.intervalSeconds := by
    rw [Int.le_ediv_iff_mul_le positive]
    omega
  have ahead (n : Nat) : (0 : Int) ≤ n * s.cfg.intervalSeconds := Int.mul_nonneg (by omega) (by omega)
  unfold State.gatedStarts
  dsimp only
  rw [State.leadSeconds_eq]
  split
  case isTrue =>
    rw [List.mem_map]
    constructor
    · rintro ⟨n, mem, rfl⟩
      have small := List.mem_range.mp mem
      exact ⟨(within n).mpr (by omega), n, rfl⟩
    · rintro ⟨gate, n, rfl⟩
      have small := (within n).mp gate
      exact ⟨n, List.mem_range.mpr (by omega), rfl⟩
  case isFalse early =>
    refine iff_of_false List.not_mem_nil ?_
    rintro ⟨gate, n, rfl⟩
    have := ahead n
    omega

theorem State.missingStarts_of_shut (shut : s.que.interval = none) : s.missingStarts = [] := by
  rw [State.missingStarts, shut]

theorem State.nominated_eq_false {x : Int} : (!s.nominated x) = true ↔ ∀ m ∈ s.que.nominations, (m.start : Int) ≠ x := by
  rw [Bool.not_eq_true', ← Bool.not_eq_true, State.nominated_iff]
  push Not
  rfl

theorem State.mem_missingStarts {iv : OpenInterval} (opened : s.que.interval = some iv)
    (length : 0 < s.cfg.contract.length) (x : Int) : x ∈ s.missingStarts ↔
      x - 60 * s.cfg.contract.lead ≤ s.clock.reading ∧
        (x = iv.start ∧ s.que.current = none ∨
          (∃ n : Nat, x = s.esu.intervalEnd + n * s.cfg.intervalSeconds) ∧
            ∀ m ∈ s.que.nominations, (m.start : Int) ≠ x) := by
  have current : x ∈ (if iv.start - s.leadSeconds ≤ s.clock.reading ∧ s.que.current = none then [iv.start] else []) ↔
      x - 60 * s.cfg.contract.lead ≤ s.clock.reading ∧ x = iv.start ∧ s.que.current = none := by
    rw [State.leadSeconds_eq]
    split
    case isTrue missing =>
      rw [List.mem_singleton]
      exact ⟨fun same => ⟨same ▸ missing.1, same, missing.2⟩, fun ⟨_, same, _⟩ => same⟩
    case isFalse held =>
      exact iff_of_false List.not_mem_nil fun ⟨gate, same, unnamed⟩ => held ⟨same ▸ gate, unnamed⟩
  rw [State.missingStarts, opened]
  dsimp only
  rw [List.mem_append, List.mem_filter, State.mem_gatedStarts_iff length, State.nominated_eq_false, current]
  constructor
  · rintro (⟨gate, now⟩ | ⟨⟨gate, later⟩, new⟩)
    · exact ⟨gate, .inl now⟩
    · exact ⟨gate, .inr ⟨later, new⟩⟩
  · rintro ⟨gate, now | ⟨later, new⟩⟩
    · exact .inl ⟨gate, now⟩
    · exact .inr ⟨⟨gate, later⟩, new⟩

/-! ### Set Export Contract (R88) -/

/-- The contract stored. -/
def State.withContract (s : State) (c : Contract) : State :=
  if c = s.cfg.contract then s else ({ s with cfg := { s.cfg with contract := c } } : State).markConfig

/-- The end of the open interval moved to the grid of a new length. -/
def State.regridEnd (s : State) (newLength : Bool) : State :=
  if newLength ∧ s.que.interval.isSome then
    { s with esu := { s.esu with intervalEnd := s.boundaryAfter s.clock.reading } }
  else s

theorem State.takeContract_eq : s.takeContract c =
    ((s.withContract c).publishLimit.regridEnd (decide (c.length ≠ s.cfg.contract.length))).reckonMissing := rfl

theorem State.withContract_cfg : (s.withContract c).cfg = { s.cfg with contract := c } := by
  unfold State.withContract
  split
  case isTrue same => rw [same]
  case isFalse => rfl

theorem State.withContract_changes : ChangesOnly [.cfg, .marks] s (s.withContract c) :=
  .ite (.refl _ s) (State.cfg_changes _)

theorem State.regridEnd_changes (newLength : Bool) : ChangesOnly [.esu] s (s.regridEnd newLength) :=
  .ite (State.esu_changes _) (.refl _ s)

/-- The stages of a contract taken, by what they leave: CONFIG with the contract, the orders and nominations as they were,
the limit in force under the contract, and the open interval's end. -/
structure State.ContractTaken (s t : State) (c : Contract) : Prop where
  cfg : t.cfg = { s.cfg with contract := c }
  orders : t.que.orders = s.que.orders
  nominations : t.que.nominations = s.que.nominations
  missing : t.Reckoned
  limit : s.activeSlot = none → t.esu.effLimit = c.limit
  intervalEnd : c.length = s.cfg.contract.length → t.esu.intervalEnd = s.esu.intervalEnd
  newEnd : 0 < c.length → c.length ≠ s.cfg.contract.length → s.que.interval.isSome →
    FirstBoundaryAfter (60 * c.length) s.clock.offset s.clock.reading t.esu.intervalEnd

/-- What the publication under the new contract leaves. -/
theorem State.withContract_published (s : State) (c : Contract) :
    let v := (s.withContract c).publishLimit
    v.cfg = { s.cfg with contract := c } ∧ v.clock = s.clock ∧ v.que.orders = s.que.orders ∧
      v.que.nominations = s.que.nominations ∧ v.que.interval.isSome = s.que.interval.isSome ∧
      v.esu.intervalEnd = s.esu.intervalEnd ∧ v.esu.effLimit = (s.withContract c).limitNow := by
  have stored := State.withContract_changes (s := s) (c := c)
  have que : (s.withContract c).que = s.que := stored .que (by decide)
  have esu : (s.withContract c).esu = s.esu := stored .esu (by decide)
  refine ⟨State.publishLimit_cfg.trans State.withContract_cfg, State.publishLimit_clock.trans (stored .clock (by decide)),
    ?_, ?_, ?_, ?_, State.publishLimit_effLimit⟩
  · rw [State.publishLimit_orders, que]
  · rw [State.publishLimit_nominations, que]
  · rw [State.publishLimit_que_eq, Option.isSome_map, que]
  · rw [State.publishLimit_esu_eq, esu]

theorem State.withContract_limitNow (idle : s.activeSlot = none) : (s.withContract c).limitNow = c.limit := by
  have que : (s.withContract c).que = s.que := State.withContract_changes .que (by decide)
  have none (m : CurtailmentSlot) (a : CurtailmentOrder) (held : (s.withContract c).Holds m a) : a.state ≠ .active :=
    State.activeSlot_eq_none.mp idle m a (by rw [State.Holds, ← que]; exact held)
  rw [State.limitNow_of_none none, State.withContract_cfg]

/-- What a move of the open interval's end writes. -/
theorem State.regridEnd_esu (newLength : Bool) : (s.regridEnd newLength).esu =
    { s.esu with intervalEnd :=
      if newLength = true ∧ s.que.interval.isSome = true then s.boundaryAfter s.clock.reading else s.esu.intervalEnd } := by
  unfold State.regridEnd
  split <;> rfl

theorem State.takeContract_taken (s : State) (c : Contract) : s.ContractTaken (s.takeContract c) c := by
  obtain ⟨cfg, clock, orders, nominations, interval, finish, limit⟩ := s.withContract_published c
  rw [State.takeContract_eq]
  generalize (s.withContract c).publishLimit = v at *
  have moved := State.regridEnd_changes (s := v) (decide (c.length ≠ s.cfg.contract.length))
  have esu := State.regridEnd_esu (s := v) (decide (c.length ≠ s.cfg.contract.length))
  have que : (v.regridEnd (decide (c.length ≠ s.cfg.contract.length))).que = v.que := moved .que (by decide)
  have kept : (v.regridEnd (decide (c.length ≠ s.cfg.contract.length))).cfg = v.cfg := moved .cfg (by decide)
  generalize v.regridEnd (decide (c.length ≠ s.cfg.contract.length)) = w at *
  obtain ⟨m, reckoned⟩ := w.reckonMissing_esu
  refine ⟨?_, ?_, ?_, State.reckonMissing_reckoned, fun idle => ?_, fun same => ?_, fun length new opened => ?_⟩
  · have last : w.reckonMissing.cfg = w.cfg := State.reckonMissing_changes .cfg (by decide)
    rw [last, kept, cfg]
  · rw [State.reckonMissing_que, que, orders]
  · rw [State.reckonMissing_que, que, nominations]
  · rw [reckoned, esu, limit, State.withContract_limitNow idle]
  · rw [reckoned, esu, if_neg fun ⟨new, _⟩ => of_decide_eq_true new same, finish]
  · rw [reckoned, esu, if_pos ⟨decide_eq_true new, interval.trans opened⟩]
    have first := State.boundaryAfter_first (s := v) (by rw [cfg]; exact length) v.clock.reading
    rw [clock, cfg] at first
    rw [clock]
    exact first

theorem setExportContractOwner_eq {limit : Word} {length lead : Byte} (fits : limit.toNat ≤ 2000000 ∧
      (length.toNat = 5 ∨ length.toNat = 15 ∨ length.toNat = 30 ∨ length.toNat = 60) ∧ lead.toNat ≤ 120) :
    setExportContractOwner limit length lead s =
      if length.toNat ≠ s.cfg.contract.length ∧ ¬ s.que.nominations.isEmpty then refuse s .busy
      else done (s.takeContract { limit := limit.toNat, length := length.toNat, lead := lead.toNat }) := by
  have read := (readContract_eq limit length lead).trans (if_pos fits)
  rw [setExportContractOwner, read]

theorem setExportContractOwner_badField {limit : Word} {length lead : Byte} (bad : ¬ (limit.toNat ≤ 2000000 ∧
      (length.toNat = 5 ∨ length.toNat = 15 ∨ length.toNat = 30 ∨ length.toNat = 60) ∧ lead.toNat ≤ 120)) :
    setExportContractOwner limit length lead s = refuse s .badField := by
  have read := (readContract_eq limit length lead).trans (if_neg bad)
  rw [setExportContractOwner, read]

/-- What the taking of a contract leaves outlasts the end of its event. -/
theorem State.ContractTaken.congr (taken : s.ContractTaken t c) (cfg : u.cfg = t.cfg) (que : u.que = t.que)
    (esu : u.esu = t.esu) (clock : u.clock = t.clock) : s.ContractTaken u c where
  cfg := cfg.trans taken.cfg
  orders := by rw [que]; exact taken.orders
  nominations := by rw [que]; exact taken.nominations
  missing := by
    rw [State.Reckoned, esu, State.missingStarts_congr que (congrArg _ esu) clock cfg]
    exact taken.missing
  limit := by rw [esu]; exact taken.limit
  intervalEnd := by rw [esu]; exact taken.intervalEnd
  newEnd := by rw [esu]; exact taken.newEnd

theorem State.ContractTaken.answered (taken : s.ContractTaken t c) : s.ContractTaken t.answeredOk.endEvent c :=
  taken.congr (State.endEvent_cfg (s := t.answeredOk)) (State.endEvent_que (s := t.answeredOk))
    (State.endEvent_esu (s := t.answeredOk)) (State.endEvent_changes (s := t.answeredOk) .clock (by decide))

/-! ### The gate timer (R93) -/

/-- A gate that passes without a nomination leaves an interval missing. -/
theorem State.missingStarts_gate (opened : s.que.interval.isSome) (length : 0 < s.cfg.contract.length)
    (after : s.esu.intervalEnd ≤ s.clock.reading + 60 * s.cfg.contract.lead)
    (grid : OnGrid s.cfg.intervalSeconds s.clock.offset (s.clock.reading + 60 * s.cfg.contract.lead))
    (finish : OnGrid s.cfg.intervalSeconds s.clock.offset s.esu.intervalEnd)
    (new : ∀ m ∈ s.que.nominations, (m.start : Int) ≠ s.clock.reading + 60 * s.cfg.contract.lead) :
    s.missingStarts.isEmpty = false := by
  obtain ⟨iv, opened⟩ := Option.isSome_iff_exists.mp opened
  obtain ⟨k, apart⟩ := finish.iff_add.mp grid
  have positive : (0 : Int) < s.cfg.intervalSeconds := by unfold ConfigRegion.intervalSeconds; omega
  have nonneg : 0 ≤ k := by
    by_contra neg
    have : s.cfg.intervalSeconds * k < 0 := Int.mul_neg_of_pos_of_neg positive (by omega)
    omega
  have swap := Int.mul_comm (s.cfg.intervalSeconds : Int) k
  have mem := (State.mem_missingStarts opened length (s.clock.reading + 60 * s.cfg.contract.lead)).mpr
    ⟨by omega, .inr ⟨⟨k.toNat, by rw [Int.toNat_of_nonneg nonneg]; omega⟩, new⟩⟩
  exact List.isEmpty_eq_false_iff.mpr (List.ne_nil_of_mem mem)

theorem State.gateExpiry_eq (valid : s.clock.valid = true) (opened : s.que.interval.isSome)
    (after : s.esu.intervalEnd ≤ s.clock.reading + 60 * s.cfg.contract.lead)
    (grid : OnGrid s.cfg.intervalSeconds s.clock.offset (s.clock.reading + 60 * s.cfg.contract.lead)) :
    s.gateExpiry = s.reckonMissing := by
  refine if_pos ?_
  unfold State.gateDue
  dsimp only
  rw [State.leadSeconds_eq, valid, opened, decide_eq_true after, State.isBoundary_eq_true.mpr grid]
  rfl

/-- The first interval that is missing raises the condition (R93). -/
theorem State.reckonMissing_raises (none : s.esu.missing = false) (some : s.missingStarts.isEmpty = false) :
    s.reckonMissing = ({ s with esu := { s.esu with missing := true } } : State).tellRaise .nominationMissing 1 := by
  rw [State.reckonMissing, none, some]

/-- Settles O47: the missing intervals by the gated starts, the contract by the stages of its taking, and the gate by the
interval that it leaves missing. -/
theorem contractAndGate : Obligations.ContractAndGate := by
  refine ⟨fun s => ⟨State.missingStarts_of_shut, fun iv opened length x => State.mem_missingStarts opened length x⟩,
    fun s work => ⟨fun limit length lead => ⟨fun bad => ?_, fun fits => ⟨fun new queued => ?_, fun room => ?_⟩⟩,
      fun valid opened after grid finish length new => ⟨fun none => ?_, fun some => ?_⟩⟩⟩
  · exact exec_refuse rfl work (setExportContractOwner_badField bad)
  · exact exec_refuse rfl work ((setExportContractOwner_eq fits).trans
      (if_pos ⟨new, by rwa [List.isEmpty_iff]⟩))
  · have taken := s.takeContract_taken { limit := limit.toNat, length := length.toNat, lead := lead.toNat }
    have kept : ¬ (length.toNat ≠ s.cfg.contract.length ∧ ¬ s.que.nominations.isEmpty = true) := fun ⟨new, queued⟩ =>
      queued (List.isEmpty_iff.mpr (room.resolve_left new))
    obtain ⟨cfg, orders, nominations, missing, limit, finish, newEnd⟩ := taken.answered
    refine ⟨_, exec_done rfl work ((setExportContractOwner_eq fits).trans (if_neg kept)), cfg, ?_, orders, nominations,
      missing, limit, finish, newEnd ?_⟩
    · rw [State.endEvent_hlu]
      exact State.answeredOk_hlu (State.takeContract_changes _ .hlu (by decide))
    · obtain ⟨-, length, -⟩ := fits
      omega
  · have missing := State.missingStarts_gate opened length after grid finish new
    refine (duringOperation_running State.gateExpiry (State.running_of_working work)).trans ?_
    rw [State.gateExpiry_eq valid opened after grid, State.reckonMissing_raises none missing]
    exact congrArg _ (State.endEvent_tellRaise (s := { s with esu := { s.esu with missing := true } })
      (State.acts_of_working work) (State.marks_of_working work) _ _)
  · have missing := State.missingStarts_gate opened length after grid finish new
    refine duringOperation_same work ((State.gateExpiry_eq valid opened after grid).trans ?_)
    exact State.reckonMissing_of_reckoned (by rw [some, missing]; rfl)

end Sys2Proof.Machine
end

section
/-! SUPPORT. What the Condition Table shows of a condition reported once or more at one event, among the acts on another
condition (R112, R154, R156); with O48. -/

namespace Sys2Proof.Machine

-- The stacks of threads for every theorem of this section at once would pass the memory limit.
set_option Elab.async false

variable {s t u v : State} {k : ConditionKey} {a : ConditionAct} {l : List ConditionAct}

/-! ### Acts on other conditions -/

/-- An act leaves the entries of the other conditions, room or not. -/
theorem State.entryOf_takeAct_other (legal : s.ConditionsLegal) (ordinary : a.key ≠ conditionTableFullKey)
    (other : a.key ≠ k) (ne : k ≠ conditionTableFullKey) : (s.takeAct a).entryOf k = s.entryOf k := by
  cases a with
  | raise key m => exact State.entryOf_raiseWith_other legal ordinary other ne m
  | endCause key => exact (State.entryOf_endCause legal key ne).trans (if_neg other)
  | report key =>
    have raised : (s.raise key.cls key.source).ConditionsLegal := legal.raiseWith ordinary _
    exact ((State.entryOf_endCause raised key ne).trans (if_neg other)).trans
      (State.entryOf_raiseWith_other legal ordinary other ne _)

theorem State.entryOf_takeActs_other (legal : s.ConditionsLegal) (ne : k ≠ conditionTableFullKey)
    (others : ∀ a ∈ l, a.key ≠ conditionTableFullKey ∧ a.key ≠ k) : (l.foldl State.takeAct s).entryOf k = s.entryOf k := by
  induction l generalizing s with
  | nil => rfl
  | cons a l ih =>
    obtain ⟨⟨ordinary, other⟩, rest⟩ := List.forall_mem_cons.mp others
    rw [List.foldl_cons, ih (legal.takeAct ordinary) rest, State.entryOf_takeAct_other legal ordinary other ne]

/-! ### Reports (R112) -/

/-- The two states show the same of a condition at first, and the same at last. -/
theorem State.ReportedAgain.congr {x y : State} {times : Nat} (h : s.ReportedAgain t k times)
    (before : x.entryOf k = s.entryOf k) (after : y.entryOf k = t.entryOf k) : x.ReportedAgain y k times := by
  rw [State.ReportedAgain, before, after]
  exact h

/-- Reports of one event add up. -/
theorem State.ReportedAgain.trans {m n : Nat} (h : s.ReportedAgain t k m) (again : t.ReportedAgain u k n) :
    s.ReportedAgain u k (m + n) := by
  obtain ⟨e, first, -, -, raises⟩ := h
  obtain ⟨f, entry, latched, waiting, more⟩ := again
  refine ⟨f, entry, latched, waiting, ?_⟩
  rw [first, Option.elim_some] at more
  omega

theorem State.ReportedAgain.hasRoom {n : Nat} (h : s.ReportedAgain t k n) : t.HasRoom [k] := by
  obtain ⟨e, entry, -⟩ := h
  exact State.hasRoom_of_entry (by rw [entry]; rfl)

/-- The condition of a settlement queue that drops a record (R112). -/
abbrev overrunKey : ConditionKey := { cls := .settlementOverrun, source := 1 }

/-- The end of its cause leaves a latching entry LATCHED (R156). -/
theorem ConditionEntry.ended_latching {e : ConditionEntry} {now : Nat} (active : e.state = .active)
    (stays : e.key.cls ≠ .meterJump) (latch : e.latch = .latching) :
    e.ended now = some { e with state := .latched, lastChange := now } := by
  rw [ConditionEntry.ended, if_neg (by rw [active]; decide), if_neg stays,
    if_neg fun clears => absurd (latch.symm.trans clears.1) (by decide)]

/-- One report with room leaves the entry LATCHED and waiting, raised once more (R112, R154, R156). -/
theorem State.report_reported (legal : s.ConditionsLegal) (room : s.HasRoom [overrunKey]) :
    s.ReportedAgain (s.takeAct (.report overrunKey)) overrunKey 1 := by
  have ordinary : overrunKey ≠ conditionTableFullKey := by decide
  have raised := State.entryOf_raiseWith legal overrunKey ordinary room .latching overrunKey
  rw [if_pos rfl] at raised
  have after : (s.raise .settlementOverrun 1).ConditionsLegal := legal.raiseWith ordinary _
  have ended := State.entryOf_endCause after overrunKey ordinary
  rw [if_pos rfl, show (s.raise .settlementOverrun 1).entryOf overrunKey = _ from raised, Option.bind_some] at ended
  cases old : s.entryOf overrunKey with
  | none =>
    rw [old] at ended
    exact ⟨_, ended.trans (ConditionEntry.ended_latching rfl nofun rfl), rfl, rfl, by rw [old]; rfl⟩
  | some e =>
    rw [old] at ended
    have stays : e.key.cls ≠ .meterJump := by
      rw [((State.entryOf_iff legal).mp old).1]
      decide
    exact ⟨_, ended.trans (ConditionEntry.ended_latching (e := e.raisedAgain _ _) rfl stays rfl), rfl, rfl,
      by rw [old]; rfl⟩

/-- After the first report the others are counted, whatever else is told. -/
theorem State.reports_counted (legal : t.ConditionsLegal) {n : Nat} (h : s.ReportedAgain t overrunKey n)
    (acts : ∀ a ∈ l, a = .report overrunKey ∨ a.key ≠ conditionTableFullKey ∧ a.key ≠ overrunKey) :
    s.ReportedAgain (l.foldl State.takeAct t) overrunKey (n + l.count (.report overrunKey)) := by
  have ordinary : overrunKey ≠ conditionTableFullKey := by decide
  induction l generalizing t n with
  | nil => exact h
  | cons a l ih =>
    obtain ⟨first, rest⟩ := List.forall_mem_cons.mp acts
    rw [List.foldl_cons]
    obtain rfl | ⟨apart, other⟩ := first
    · have counted := ih (legal.takeAct (a := .report overrunKey) ordinary) (h.trans (State.report_reported legal h.hasRoom)) rest
      rw [List.count_cons_self]
      rwa [show n + (l.count (.report overrunKey) + 1) = n + 1 + l.count (.report overrunKey) by omega]
    · have same := State.entryOf_takeAct_other legal apart other ordinary
      rw [List.count_cons_of_ne fun report => other (by rw [report]; rfl)]
      exact ih (legal.takeAct apart) (h.congr rfl same) rest

/-- After an act on another condition there is still room for the report. -/
theorem State.hasRoom_takeAct (legal : s.ConditionsLegal) (single : a.Single) (other : k ≠ a.key)
    (ordinary : k ≠ conditionTableFullKey) (room : s.HasRoomFor [a, .raise k .latching]) : (s.takeAct a).HasRoom [k] := by
  refine State.HasRoomFor.takeAct (l := [.raise k .latching]) room legal single ?_
  rintro b mem
  cases List.mem_singleton.mp mem
  exact ⟨other, ordinary, nofun⟩

/-- Reports and one act at most on another condition, in any order, with room for what they raise: every report is
counted. -/
theorem State.reports_reported {d : Nat} {others : List ConditionAct} (legal : s.ConditionsLegal)
    (perm : l.Perm (List.replicate (d + 1) (.report overrunKey) ++ others)) (few : others.length ≤ 1)
    (single : ∀ a ∈ others, a.Single ∧ a.key ≠ overrunKey)
    (room : s.HasRoom (overrunKey :: others.filterMap ConditionAct.raised?)) :
    s.ReportedAgain (l.foldl State.takeAct s) overrunKey (d + 1) := by
  have ordinary : overrunKey ≠ conditionTableFullKey := by decide
  have acts (a : ConditionAct) (mem : a ∈ l) :
      a = .report overrunKey ∨ a.key ≠ conditionTableFullKey ∧ a.key ≠ overrunKey := by
    obtain mem | mem := List.mem_append.mp (perm.mem_iff.mp mem)
    · exact .inl (List.eq_of_mem_replicate mem)
    · exact .inr ⟨(single a mem).1.ordinary, (single a mem).2⟩
  have none : others.count (.report overrunKey) = 0 :=
    List.count_eq_zero.mpr fun mem => (single _ mem).1.single _ rfl
  have count : l.count (.report overrunKey) = d + 1 := by
    rw [perm.count_eq, List.count_append, List.count_replicate_self, none]
  have alone : s.HasRoom [overrunKey] := room.subperm ((List.nil_sublist _).cons_cons _).subperm
  cases l with
  | nil => cases count
  | cons a l =>
    obtain ⟨first, rest⟩ := List.forall_mem_cons.mp acts
    rw [List.foldl_cons]
    obtain rfl | ⟨ordinary', other⟩ := first
    · rw [List.count_cons_self] at count
      have counted := State.reports_counted (legal.takeAct (a := .report overrunKey) ordinary)
        (State.report_reported legal alone) rest
      rwa [show d + 1 = 1 + l.count (.report overrunKey) by omega]
    · -- the one other act comes first: the reports follow it
      have mem : a ∈ others := by
        refine (List.mem_append.mp (perm.mem_iff.mp List.mem_cons_self)).resolve_left fun mem => other ?_
        rw [List.eq_of_mem_replicate mem]
        rfl
      obtain rfl : others = [a] := by
        obtain ⟨b, rfl⟩ := List.length_eq_one_iff.mp (Nat.le_antisymm few (List.length_pos_of_mem mem))
        rw [List.mem_singleton.mp mem]
      have reports : l = List.replicate (d + 1) (.report overrunKey) :=
        List.perm_replicate.mp ((perm.trans List.perm_append_comm).cons_inv)
      have roomy : s.HasRoomFor [a, .raise overrunKey .latching] := by
        rw [State.HasRoomFor, ← List.singleton_append, List.filterMap_append]
        exact room.subperm (List.perm_append_comm (l₁ := List.filterMap _ [a])).subperm
      have left := State.hasRoom_takeAct legal (single a mem).1 (Ne.symm other) ordinary roomy
      have same := State.entryOf_takeAct_other legal ordinary' other ordinary
      rw [reports, List.replicate_succ, List.foldl_cons]
      have counted := State.reports_counted ((legal.takeAct ordinary').takeAct (a := .report overrunKey) ordinary)
        (State.report_reported (legal.takeAct ordinary') left)
        (l := List.replicate d (.report overrunKey)) fun b mem => .inl (List.eq_of_mem_replicate mem)
      rw [List.count_replicate_self, Nat.add_comm] at counted
      exact counted.congr same.symm rfl

/-- What the table shows of the overrun at the end of an event that drops `d` records, among one act at most on another
condition (R112). -/
theorem State.endEvent_overrun {d : Nat} {others : List ConditionAct} (legal : s.ConditionsLegal)
    (table : u.conditions = s.conditions) (told : u.acts = List.replicate d (.report overrunKey) ++ others)
    (few : others.length ≤ 1) (single : ∀ a ∈ others, a.Single ∧ a.key ≠ overrunKey) :
    (d = 0 → u.endEvent.entryOf overrunKey = s.entryOf overrunKey) ∧
      (0 < d → s.HasRoom (overrunKey :: others.filterMap ConditionAct.raised?) →
        s.ReportedAgain u.endEvent overrunKey d) := by
  have ordinary : overrunKey ≠ conditionTableFullKey := by decide
  obtain ⟨l, v, perm, law, same, entries⟩ := State.endEvent_taken legal table
  rw [told] at perm
  refine ⟨fun none => ?_, fun some room => ?_⟩
  · subst none
    rw [entries, State.entryOf_takeActs_other law ordinary fun a mem => ?_]
    · exact State.entryOf_congr same _
    · obtain ⟨one, other⟩ := single a (perm.mem_iff.mp mem)
      exact ⟨one.ordinary, other⟩
  · obtain ⟨n, rfl⟩ := Nat.exists_eq_succ_of_ne_zero (Nat.ne_of_gt some)
    exact (State.reports_reported law perm few single ((State.hasRoom_congr same _).mpr room)).congr
      (State.entryOf_congr same _).symm (entries _)

end Sys2Proof.Machine
end

section
/-! SUPPORT. The boundary and the end of the meter wait: what they leave, and the records they drop; settles O48. -/

namespace Sys2Proof.Machine

-- The stacks of threads for every theorem of this section at once would pass the memory limit.
set_option Elab.async false

variable {s t u : State} {iv : OpenInterval}

/-! ### What the table is told -/

/-- The reports of the records that a queue of `places` records drops for one that joins it. -/
theorem overrunActs_eq (places : Nat) :
    overrunActs places = List.replicate (if places < 192 then 0 else 1) (.report overrunKey) := by
  unfold overrunActs
  by_cases full : 192 ≤ places
  · rw [if_pos full, if_neg (Nat.not_lt.mpr full)]
    rfl
  · rw [if_neg full, if_pos (Nat.lt_of_not_le full)]
    rfl

theorem State.queueSettlement_told (r : SettlementRecord) :
    (s.queueSettlement r).acts = s.acts ++ overrunActs s.que.settlements.length := by
  rw [State.queueSettlement_acts]
  unfold overrunActs
  by_cases full : 192 ≤ s.que.settlements.length
  · rw [if_pos full, if_neg (Nat.not_lt.mpr full)]
  · rw [if_neg full, if_pos (Nat.lt_of_not_le full)]

/-- The end of the wait without a reading tells of the record that its gap record drops (R112, R116). -/
theorem State.endWait_told : (s.endWait none).acts =
    s.acts ++ s.gapHeld.elim [] fun _ => overrunActs s.que.settlements.length := by
  cases wait : s.esu.wait with
  | none => simp [State.endWait, State.gapHeld, wait]
  | some w =>
    cases gap : w.gap with
    | none => simp [State.endWait, State.gapHeld, wait, gap, State.markQueues]
    | some g =>
      have held : s.gapHeld = some g := by rw [State.gapHeld, wait]; exact gap
      have told (r : SettlementRecord) : (({ s with esu := { s.esu with wait := none } } : State).markQueues.queueSettlement
          r).acts = s.acts ++ overrunActs s.que.settlements.length := State.queueSettlement_told r
      rw [held, Option.elim_some, State.endWait, wait]
      dsimp only
      rw [gap]
      dsimp only
      split
      · rw [State.setInterval_acts, told]
      · exact told _

theorem joinedBy_length (l : List SettlementRecord) (r : SettlementRecord) :
    (joinedBy l r).length = if l.length < 192 then l.length + 1 else l.length - 1 + 1 := by
  unfold joinedBy
  split <;> simp

/-- The records dropped at a close: one for its own record, and one for a gap record before it. -/
def State.droppedAtClose (s : State) : Nat :=
  (if s.que.settlements.length < 192 then 0 else 1) +
    if s.gapHeld.isSome ∧ 191 ≤ s.que.settlements.length then 1 else 0

/-- A close tells of each record dropped (R112). -/
theorem State.closeInterval_told (opened : s.que.interval = some iv) (x : Int) (stepped : Bool) :
    (s.closeInterval x stepped).acts = s.acts ++ List.replicate s.droppedAtClose (.report overrunKey) := by
  obtain ⟨kept, still⟩ : ∃ kept, (s.endWait none).que.interval = some kept := by
    rw [State.endWait_none_que, opened]
    dsimp only [Option.map_some]
    split <;> exact ⟨_, rfl⟩
  have queued : (s.closeInterval x stepped).acts = (s.endWait none).acts ++ overrunActs s.settlementsAfterWait.length := by
    unfold State.closeInterval
    dsimp only
    rw [still]
    dsimp only
    rw [State.withoutInterval_acts, State.queueSettlement_told, State.endWait_none_que]
  rw [queued, State.endWait_told, List.append_assoc]
  congr 1
  unfold State.settlementsAfterWait State.droppedAtClose
  cases held : s.gapHeld with
  | none => simp [overrunActs_eq]
  | some g =>
    simp only [Option.elim_some, overrunActs_eq, List.replicate_append_replicate, joinedBy_length, Option.isSome_some,
      true_and]
    congr 1
    split <;> split <;> split <;> omega

/-- The condition of the missing intervals (R93). -/
abbrev missingKey : ConditionKey := { cls := .nominationMissing, source := 1 }

/-- Of the missing intervals the table is told once at most. -/
structure ToldMissing (others : List ConditionAct) : Prop where
  few : others.length ≤ 1
  single : ∀ a ∈ others, a.Single ∧ a.key ≠ overrunKey
  raised : (others.filterMap ConditionAct.raised?).Sublist [missingKey]

theorem ConditionAct.toldMissing {a : ConditionAct} (key : a.key = missingKey) (single : ∀ k, a ≠ .report k)
    (raised : ([a].filterMap ConditionAct.raised?).Sublist [missingKey]) : ToldMissing [a] :=
  ⟨Nat.le_refl 1, List.forall_mem_singleton.mpr ⟨⟨by rw [key]; decide, single⟩, by rw [key]; decide⟩, raised⟩

theorem State.reckonMissing_told : ∃ others, s.reckonMissing.acts = s.acts ++ others ∧ ToldMissing others := by
  unfold State.reckonMissing
  split
  · exact ⟨[.raise missingKey _], rfl, ConditionAct.toldMissing rfl nofun (.refl _)⟩
  · exact ⟨[.endCause missingKey], rfl, ConditionAct.toldMissing rfl nofun (List.nil_sublist _)⟩
  · exact ⟨[], (List.append_nil _).symm, Nat.zero_le 1, nofun, List.nil_sublist _⟩

/-- An opening tells what its reckoning tells (R93). -/
theorem State.openInterval_told (x : Int) (flags : IntervalFlags) :
    ∃ others, (s.openInterval x flags).acts = s.acts ++ others ∧ ToldMissing others := State.reckonMissing_told

/-! ### A close and the opening after it (R89, R106, R110) -/

/-- What a close at `x` and an opening at `y` leave. -/
theorem State.closed_opens (opened : s.que.interval = some iv) (length : 0 < s.cfg.contract.length) (x y : Int)
    (stepped : Bool) (flags : IntervalFlags) :
    let t := (s.closeInterval x stepped).openInterval y flags
    ∃ next r, t.que.interval = some next ∧ s.Opens t next y flags ∧ t.esu.effLimit = s.esu.effLimit ∧
      s.IntervalClosed t iv x stepped r ∧ r.minLimit = iv.minLimit := by
  obtain ⟨r, closed, least, que, esu⟩ := State.closeInterval_closed opened x stepped
  have frame := State.closeInterval_changes (s := s) x stepped
  have cfg : (s.closeInterval x stepped).cfg = s.cfg := frame .cfg (by decide)
  have points : (s.closeInterval x stepped).points = s.points := frame .points (by decide)
  obtain ⟨interval, opens, left, wait⟩ :=
    State.openInterval_opens (s := s.closeInterval x stepped) y flags (by rw [cfg]; exact length)
  obtain ⟨m, unit⟩ := State.openWith_esu (s := s.closeInterval x stepped) y flags
    (energyAt (s.closeInterval x stepped).que.nominations y)
  have meter : s.meterUsable = (s.closeInterval x stepped).meterUsable := by
    simp only [State.meterUsable, State.usable, State.slotOf, cfg, points]
  refine ⟨_, r, interval, opens.of_same meter (by rw [esu]) (by rw [que]), ?_, ⟨closed.record, ?_, ?_, ?_⟩, least⟩
  · rw [State.openInterval, unit, esu]
  · rw [left]; exact closed.queue
  · rw [left]; exact closed.number
  · rw [wait]; exact closed.wait

/-- What an opening leaves outlasts the end of its event. -/
theorem State.Opens.congr {next : OpenInterval} {start : Int} {flags : IntervalFlags} (h : s.Opens t next start flags)
    (cfg : u.cfg = t.cfg) (que : u.que = t.que) (esu : u.esu = t.esu) (clock : u.clock = t.clock) (osc : u.osc = t.osc) :
    s.Opens u next start flags :=
  ⟨by rw [esu]; exact h.figures, h.metered, h.unmetered, by rw [cfg, clock, esu]; exact h.finish,
    by rw [esu, cfg, osc]; exact h.since, by rw [que]; exact h.nominations⟩

theorem State.IntervalClosed.congr {x : Int} {stepped : Bool} {r : SettlementRecord} (h : s.IntervalClosed t iv x stepped r)
    (que : u.que = t.que) (esu : u.esu = t.esu) : s.IntervalClosed u iv x stepped r :=
  ⟨h.record, by rw [que]; exact h.queue, by rw [que]; exact h.number, by rw [esu]; exact h.wait⟩

/-- What the table shows of the overrun after a boundary. -/
theorem State.takeBoundary_dropped (work : s.working = true) (opened : s.que.interval = some iv)
    (legal : s.ConditionsLegal) :
    (s.droppedAtClose = 0 → s.takeBoundary.endEvent.entryOf overrunKey = s.entryOf overrunKey) ∧
      (0 < s.droppedAtClose → s.HasRoom [overrunKey, missingKey] →
        s.ReportedAgain s.takeBoundary.endEvent overrunKey s.droppedAtClose) := by
  have table : s.takeBoundary.conditions = s.conditions := State.takeBoundary_changes .conditions (by decide)
  obtain ⟨others, told, few, single, raised⟩ :=
    State.openInterval_told (s := s.closeInterval s.esu.intervalEnd false) s.esu.intervalEnd .none
  rw [State.closeInterval_told opened, State.acts_of_working work, List.nil_append] at told
  obtain ⟨kept, reported⟩ := State.endEvent_overrun legal table told few single
  exact ⟨kept, fun some room => reported some (room.subperm (raised.cons_cons _).subperm)⟩

/-- The boundary expires once the clock has reached it. -/
theorem State.boundaryExpiry_due (valid : s.clock.valid = true) (opened : s.que.interval = some iv)
    (reached : s.esu.intervalEnd ≤ s.clock.reading) : s.boundaryExpiry = s.takeBoundary :=
  if_pos ⟨valid, by rw [opened]; rfl, reached⟩

theorem State.boundaryExpiry_undue (undue : s.clock.valid = false ∨ s.que.interval = none ∨
    (s.clock.reading : Int) < s.esu.intervalEnd) : s.boundaryExpiry = s := by
  refine if_neg fun ⟨valid, opened, reached⟩ => ?_
  obtain invalid | shut | ahead := undue
  · rw [invalid] at valid
    cases valid
  · rw [shut] at opened
    cases opened
  · omega

/-! ### The end of the meter wait (R116) -/

theorem State.meterWaitExpiry_undue (undue : ∀ w, s.esu.wait = some w → s.osc < w.due) : s.meterWaitExpiry = s := by
  refine if_neg fun due => ?_
  obtain ⟨w, waits, passed⟩ := Option.any_eq_true .. |>.mp due
  exact absurd (undue w waits) (Nat.not_lt.mpr (of_decide_eq_true passed))

theorem State.meterWaitExpiry_due {w : MeterWait} (waits : s.esu.wait = some w) (passed : w.due ≤ s.osc) :
    s.meterWaitExpiry = s.endWait none := by
  refine if_pos ?_
  rw [waits, Option.any_some]
  exact decide_eq_true passed

theorem State.endWait_ungapped {w : MeterWait} (waits : s.esu.wait = some w) (gap : w.gap = none) :
    s.endWait none = ({ s with esu := { s.esu with wait := none } } : State).markQueues := by
  rw [State.endWait, waits]
  dsimp only
  rw [gap]

/-- What the table shows of the overrun after the end of a wait with a gap record. -/
theorem State.endWait_dropped {g : GapRecord} (work : s.working = true) (held : s.gapHeld = some g)
    (legal : s.ConditionsLegal) :
    let dropped := if s.que.settlements.length < 192 then 0 else 1
    (dropped = 0 → (s.endWait none).endEvent.entryOf overrunKey = s.entryOf overrunKey) ∧
      (0 < dropped → s.HasRoom [overrunKey] → s.ReportedAgain (s.endWait none).endEvent overrunKey dropped) := by
  have table : (s.endWait none).conditions = s.conditions := State.endWait_changes none .conditions (by decide)
  have told : (s.endWait none).acts = List.replicate (if s.que.settlements.length < 192 then 0 else 1)
      (.report overrunKey) ++ [] := by
    rw [State.endWait_told, held, State.acts_of_working work, List.nil_append, List.append_nil]
    exact overrunActs_eq _
  exact State.endEvent_overrun legal table told (Nat.zero_le 1) nofun

/-- The end of the wait without a gap record writes the region as it stands. -/
theorem State.endWait_ungapped_event {w : MeterWait} (work : s.working = true) (waits : s.esu.wait = some w)
    (gap : w.gap = none) :
    (s.endWait none).endEvent = ({ s with esu := { s.esu with wait := none } } : State).withQueues s.que := by
  have untold : ({ s with esu := { s.esu with wait := none } } : State).markQueues.acts = [] :=
    (State.acts_of_working work :)
  rw [State.endWait_ungapped waits gap, State.endEvent_of_untold untold]
  exact State.writeMarked_queues (s := { s with esu := { s.esu with wait := none } }) s.que (State.marks_of_working work)

theorem State.endWait_gapped {w : MeterWait} {g : GapRecord} (waits : s.esu.wait = some w) (gap : w.gap = some g) :
    s.gapHeld = some g ∧ (s.endWait none).que =
      { s.que with
        interval := s.que.interval.map fun iv => { iv with reference := none, estimated := true }
        settlements := joinedBy s.que.settlements (g.completed s.que.nextSettlement none)
        nextSettlement := s.que.nextSettlement + 1 } := by
  have held : s.gapHeld = some g := by rw [State.gapHeld, waits]; exact gap
  refine ⟨held, ?_⟩
  rw [State.endWait_none_que, State.settlementsAfterWait, State.numberAfterWait, held]
  rfl

/-! ### The publication of the limit (R101, R109) -/

/-- What a publication adds to the open interval, by whether the limit in force is below the contract limit. -/
theorem State.publishLimit_by_case (s : State) :
    (s.que.interval = none → s.publishLimit.esu.curtailedSince = s.esu.curtailedSince ∧ s.publishLimit.que = s.que) ∧
    ∀ iv, s.que.interval = some iv →
      (s.limitNow < s.cfg.contract.limit →
        s.publishLimit.esu.curtailedSince = some (s.esu.curtailedSince.getD s.osc) ∧
        s.publishLimit.que = { s.que with interval := some { iv with minLimit := min iv.minLimit s.limitNow } }) ∧
      (s.cfg.contract.limit ≤ s.limitNow → s.publishLimit.esu.curtailedSince = none ∧
        s.publishLimit.que = { s.que with interval := some { iv with
          minLimit := min iv.minLimit s.limitNow
          curtailed := iv.curtailed + s.esu.curtailedSince.elim 0 (s.osc - ·) } }) := by
  rw [State.publishLimit_esu_eq, State.publishLimit_que_eq]
  refine ⟨fun shut => ⟨if_pos shut, ?_⟩, fun iv opened => ⟨fun below => ?_, fun above => ?_⟩⟩
  · rw [shut, Option.map_none, ← shut]
  · rw [opened, Option.map_some, State.intervalPublished, if_pos below, if_pos below]
    exact ⟨rfl, rfl⟩
  · rw [opened, Option.map_some, State.intervalPublished, if_neg (Nat.not_lt.mpr above), if_neg (Nat.not_lt.mpr above)]
    exact ⟨rfl, rfl⟩

/-- Settles O48: the boundary as a close and an opening with the acts they tell, the end of the wait by whether it holds a
gap record, and the publication by the limit in force. -/
theorem boundaryAndMeterWait : Obligations.BoundaryAndMeterWait := by
  refine ⟨fun s work undue => ?_, fun s iv work valid opened length => ⟨fun ahead => ?_, fun reached => ?_⟩,
    ⟨fun s work waits => ?_, fun s w work waits => ⟨fun early => ?_, fun passed gap => ?_, fun g passed gap => ?_⟩⟩,
    fun s => ⟨State.publishLimit_effLimit, s.publishLimit_by_case⟩⟩
  · exact duringOperation_same work (State.boundaryExpiry_undue (undue.imp id .inl))
  · exact duringOperation_same work (State.boundaryExpiry_undue (.inr (.inr ahead)))
  · obtain ⟨next, r, interval, opens, limit, closed, least⟩ :=
      State.closed_opens opened length s.esu.intervalEnd s.esu.intervalEnd false .none
    refine ⟨s.takeBoundary.endEvent, next, r, ?_, ?_, ?_, ?_, ?_, least,
      fun legal => State.takeBoundary_dropped work opened legal⟩
    · refine (duringOperation_running State.boundaryExpiry (State.running_of_working work)).trans ?_
      rw [State.boundaryExpiry_due valid opened reached]
    · rw [State.endEvent_que]
      exact interval
    · exact opens.congr State.endEvent_cfg State.endEvent_que State.endEvent_esu
        (State.endEvent_changes .clock (by decide)) (State.endEvent_changes .osc (by decide))
    · rw [State.endEvent_esu]
      exact limit
    · exact closed.congr State.endEvent_que State.endEvent_esu
  · exact duringOperation_same work (State.meterWaitExpiry_undue fun w held => by rw [waits] at held; cases held)
  · exact duringOperation_same work (State.meterWaitExpiry_undue fun v held => by
      cases waits.symm.trans held
      exact early)
  · refine (duringOperation_running State.meterWaitExpiry (State.running_of_working work)).trans ?_
    rw [State.meterWaitExpiry_due waits passed, State.endWait_ungapped_event work waits gap]
  · obtain ⟨held, que⟩ := State.endWait_gapped waits gap
    refine ⟨(s.endWait none).endEvent, ?_, ?_, ?_, fun legal => State.endWait_dropped work held legal⟩
    · refine (duringOperation_running State.meterWaitExpiry (State.running_of_working work)).trans ?_
      rw [State.meterWaitExpiry_due waits passed]
    · rw [State.endEvent_esu]
      exact State.endWait_none_esu
    · rw [State.endEvent_que]
      exact que

end Sys2Proof.Machine
end
